-- ==== Sys2Proof/Word.lean ====
section
/-! DEFINITION. The word types of the NX3 (00 R2, R3; 03 R67). -/

namespace Sys2Proof

/-- A byte of memory. -/
abbrev Byte := BitVec 8
/-- A 32-bit thread register. -/
abbrev W32 := BitVec 32
/-- A 64-bit uniform register, an address, a return address. -/
abbrev W64 := BitVec 64
/-- An instruction word (03 R67). -/
abbrev InstrWord := BitVec 96

end Sys2Proof
end

