-- ==== Sys2Proof/Machine/Bits.lean ====
section
/-! DEFINITION. Bit fields, sign extension, byte order (00 R3, R7) and the canonical sparse maps that hold memory and
register files as plain data. -/

namespace Sys2Proof.Machine

/-- Bits h down to l of v (R7: v[h:l]). -/
def field (v : Nat) (h l : Nat) : Nat := v / 2 ^ l % 2 ^ (h + 1 - l)

/-- Bit k of v, as a truth value. -/
def bitAt (v k : Nat) : Bool := v / 2 ^ k % 2 == 1

/-- Trunc(v, n) of R7 for a natural. -/
def trunc (v n : Nat) : Nat := v % 2 ^ n

/-- Trunc(v, n) of R7 for an integer. -/
def truncInt (v : Int) (n : Nat) : Nat := (v % (2 ^ n : Int)).toNat

/-- SignExt(v, n) of R7: the low n bits read as two's complement (0 for n = 0). -/
def signExt (v n : Nat) : Int :=
  let w := v % 2 ^ n
  if 2 * w < 2 ^ n ∨ n = 0 then (w : Int) else (w : Int) - (2 ^ n : Int)

/-- ceil(a / b). -/
def ceilDiv (a b : Nat) : Nat := (a + b - 1) / b

/-- a rounded up to a multiple of b. -/
def roundUp (a b : Nat) : Nat := ceilDiv a b * b

/-- 1 for true and 0 for false. -/
def b2n (b : Bool) : Nat := if b then 1 else 0

/-- The n little-endian bytes of v (R3). -/
def leBytes : Nat → Nat → List Byte
  | 0, _ => []
  | n + 1, v => BitVec.ofNat 8 v :: leBytes n (v / 256)

/-- The value of little-endian bytes (R3). -/
def ofLE : List Byte → Nat
  | [] => 0
  | b :: bs => b.toNat + 256 * ofLE bs

/-- Apply f to element k of a list; a list without element k is unchanged. -/
def updAt {α : Type} (l : List α) (k : Nat) (f : α → α) : List α :=
  match l, k with
  | [], _ => []
  | x :: xs, 0 => f x :: xs
  | x :: xs, k + 1 => x :: updAt xs k f

/-- Indices 0 to n - 1 that satisfy p, ascending. -/
def idxWhere (n : Nat) (p : Nat → Bool) : List Nat := (List.range n).filter p

/-- The set bits of v below n, ascending. -/
def bitsOf (n v : Nat) : List Nat := idxWhere n (bitAt v)

/-- The natural whose set bits are the given indices. -/
def ofBits (l : List Nat) : Nat := (l.eraseDups).foldl (fun v k => v + 2 ^ k) 0

/-- The number of set bits of v below n. -/
def popCount (n v : Nat) : Nat := (bitsOf n v).length

/-- Insert before the first element that x does not exceed; equal elements keep their order of insertion. -/
def insertBy {α : Type} (le : α → α → Bool) (x : α) : List α → List α
  | [] => [x]
  | y :: ys => if le x y then x :: y :: ys else y :: insertBy le x ys

/-- A list in ascending order; elements that are equal in order keep their places. -/
def sortBy {α : Type} (le : α → α → Bool) (l : List α) : List α := l.foldr (insertBy le) []

/-- A map from naturals to values, as the list of its entries that differ from a default, keys rising. -/
abbrev Sparse (α : Type) := List (Nat × α)

/-- The value at a key; a key with no entry has the default. -/
def Sparse.get {α : Type} (dflt : α) : Sparse α → Nat → α
  | [], _ => dflt
  | (k, v) :: m, a => if a = k then v else Sparse.get dflt m a

/-- Enter a value at a key, before the first greater key. -/
def Sparse.enter {α : Type} : Sparse α → Nat → α → Sparse α
  | [], a, v => [(a, v)]
  | (k, w) :: m, a, v => if a < k then (a, v) :: (k, w) :: m else if a = k then (a, v) :: m else (k, w) :: Sparse.enter m a v

/-- Set the value at a key, keeping keys rising and no entry equal to the default. -/
def Sparse.put {α : Type} [DecidableEq α] (dflt : α) (m : Sparse α) (a : Nat) (v : α) : Sparse α :=
  if v = dflt then m.filter (fun e => e.1 != a) else Sparse.enter m a v

/-- Keys are above the bound, strictly rising, and no entry equals the default. -/
def Sparse.wfFrom {α : Type} [DecidableEq α] (dflt : α) : Nat → Sparse α → Bool
  | _, [] => true
  | lo, (k, v) :: m => decide (lo ≤ k) && decide (v ≠ dflt) && Sparse.wfFrom dflt (k + 1) m

/-- The canonical form. -/
def Sparse.wf {α : Type} [DecidableEq α] (dflt : α) (m : Sparse α) : Bool := Sparse.wfFrom dflt 0 m

/-- The n values at keys a, a + 1, … -/
def Sparse.read {α : Type} (dflt : α) (m : Sparse α) (a : Nat) : Nat → List α
  | 0 => []
  | n + 1 => Sparse.get dflt m a :: Sparse.read dflt m (a + 1) n

/-- Write a list of values at keys a, a + 1, … -/
def Sparse.write {α : Type} [DecidableEq α] (dflt : α) (m : Sparse α) (a : Nat) : List α → Sparse α
  | [] => m
  | v :: vs => Sparse.write dflt (Sparse.put dflt m a v) (a + 1) vs

/-- Change the value at a key. -/
def Sparse.modify {α : Type} [DecidableEq α] (dflt : α) (m : Sparse α) (k : Nat) (f : α → α) : Sparse α :=
  Sparse.put dflt m k (f (Sparse.get dflt m k))

end Sys2Proof.Machine
end

