-- ==== Sys2Proof/Machine/Keyed.lean ====
section
/-! DEFINITION. Pedigrees, strands, the digest and the keyed mixer KM (02 R57; 08 R188 to R192). -/

namespace Sys2Proof.Machine

/-- A pedigree as the path of its elements, with the sweep bit (02 R57). -/
structure Pedigree where
  sweep : Bool := false
  /-- Elements 1 to DEPTH, nearest the root first, 16 bits each. -/
  elems : List Nat := []
  deriving DecidableEq, Repr, Inhabited

/-- The header PEDIGREE[15:0]. -/
def Pedigree.header (p : Pedigree) : Nat := p.elems.length % 32 + 32 * b2n p.sweep

/-- The 512-bit PEDIGREE state (02 R57). -/
def Pedigree.image (p : Pedigree) : Nat :=
  ((p.header :: p.elems).foldr (fun e acc => e % 65536 + 65536 * acc) 0) % 2 ^ 512

/-- Digest(hdr, v1..vn) (08 R191). -/
def digest (hdr : Nat) (vs : List Nat) : Nat :=
  vs.foldl (fun h v =>
      let h := (h ^^^ v) * 0xA7F35C2B91E4D06B % 2 ^ 64
      h ^^^ (h / 2 ^ 32))
    (0x2C9B74E1A85F06D3 ^^^ hdr)

/-- The digest of a task's pedigree. -/
def Pedigree.digest (p : Pedigree) : Nat := Machine.digest p.header p.elems

/-- A position of a strand sequence: an element (block, ordinal), or a thread marker (s, 1024). -/
structure StrandPair where
  block : Nat
  ordinal : Nat
  deriving DecidableEq, Repr, Inhabited

/-- A strand sequence (08 R188). -/
abbrev Strand := List StrandPair

/-- An element as a pair (08 R188). -/
def pairOf (e : Nat) : StrandPair := { block := e / 1024 % 64, ordinal := e % 1024 }

/-- The strand of a task's uniform stream: its elements and PEDPOS. -/
def Pedigree.strand (p : Pedigree) (pos : Nat) : Strand := (p.elems ++ [pos]).map pairOf

/-- The strand of a thread with marker s. -/
def Pedigree.threadStrand (p : Pedigree) (s : Nat) : Strand := p.elems.map pairOf ++ [{ block := s, ordinal := 1024 }]

/-- The digest of an agent's strand: PEDPOS, or 0x1_0000 + s for a thread (08 R191). -/
def Pedigree.strandDigest (p : Pedigree) (thread : Option Nat) (pos : Nat) : Nat :=
  Machine.digest (p.header ||| 0x8000) (p.elems ++ [match thread with | none => pos | some s => 0x10000 + s])

/-- Logically parallel strands (08 R189): neither a prefix of the other, and one sync block where they first differ. -/
def parallel : Strand → Strand → Bool
  | [], _ => false
  | _, [] => false
  | x :: xs, y :: ys => if x = y then parallel xs ys else x.block == y.block

/-- Serial order, strictly before (08 R190). -/
def serialLt : Strand → Strand → Bool
  | _, [] => false
  | [], _ :: _ => true
  | x :: xs, y :: ys =>
    if x = y then serialLt xs ys
    else decide (x.block < y.block) || (x.block == y.block && decide (x.ordinal < y.ordinal))

/-- One Feistel round of KM (08 R192). -/
def kmRound (key : Nat) (ab : Nat × Nat) (i : Nat) : Nat × Nat :=
  let k := (key + i * 0x7A1FC3D9E2B60485) % 2 ^ 64
  let u := (ab.1 ^^^ k) * 0xB5E37A91D46C28F7 % 2 ^ 64
  let u := u ^^^ (u / 2 ^ 31)
  let u := u * 0x8C2DE5193FA76B4B % 2 ^ 64
  let u := u ^^^ (u / 2 ^ 29)
  (ab.2 ^^^ u, ab.1)

/-- KM(key, ctr), the words w0 to w3 as one 128-bit value, w0 lowest (08 R192). -/
def km (key ctr : Nat) : Nat :=
  let ab := (List.range 10).foldl (kmRound (key % 2 ^ 64)) (ctr % 2 ^ 64, ctr / 2 ^ 64 % 2 ^ 64)
  ab.1 + ab.2 * 2 ^ 64

/-- The stochastic bits r(e) of a lane conversion (05 R122). -/
def laneRandom (seed : Nat) (ped : Pedigree) (group lane n e : Nat) : Nat :=
  let key := seed ^^^ 0x9E3779B97F4A7C15
  let ctr := ped.digest + n % 2 ^ 32 * 2 ^ 64 + (0x53520000 + group) * 2 ^ 96
  let w := km key ctr
  let z := if e / 2 = 0 then w % 2 ^ 64 else w / 2 ^ 64
  let k := (2 * lane + 32 * (e % 2)) % 64
  (z * 2 ^ k % 2 ^ 64 + z / 2 ^ (64 - k)) % 2 ^ 16

/-- The stochastic bits r(e) of a matrix conversion (07 R185). -/
def matrixRandom (seed : Nat) (ped : Pedigree) (n e : Nat) : Nat :=
  let key := seed ^^^ 0x9E3779B97F4A7C15
  let ctr := ped.digest + n % 2 ^ 32 * 2 ^ 64 + (0x4D580000 + e / 8) * 2 ^ 96
  km key ctr / 2 ^ (16 * (e % 8)) % 2 ^ 16

end Sys2Proof.Machine
end

