-- ==== Sys2Proof/Syntax.lean ====
section
/-! DEFINITION. The syntax of the NX3's steps: one constructor of `Instr` per row of the opcode table. An instruction
carries the fields of its 96-bit word that its class does not fix (03 R67); a step that is no instruction (an engine's,
the scheduler's, the command processor's, the host's) carries what tells it apart: which core, task, tree or unit. -/

namespace Sys2Proof

/-- The fields of an instruction word besides MAJOR and MINOR (03 R67). -/
structure Fields where
  /-- U: 1 for the uniform stream. -/
  u : Bool
  /-- L: lookahead. -/
  la : BitVec 4
  /-- RET: retain. -/
  ret : BitVec 2
  d : BitVec 9
  a : BitVec 9
  b : BitVec 9
  c : BitVec 9
  /-- MOD, word bits [39:32]. -/
  mod : BitVec 8
  /-- IMM, word bits [31:0]. -/
  imm : BitVec 32
  deriving DecidableEq, Repr, Inhabited

/-- Who waits at a stall of 10 R254: an agent of a task (`none` is its uniform stream), or the head of a copy queue. -/
inductive Waiter where
  | agent (task : Nat) (thread : Option Nat)
  | queue (task q : Nat)
  deriving DecidableEq, Repr, Inhabited

/-- Classes of unit that errors are counted against (17 R424, R430). -/
inductive UnitClass where
  | cluster | l2Way | cacheWay | channel | dieLane | tihusLane | firmware
  deriving DecidableEq, Repr, Inhabited

/-- Where an uncorrected error lies (17 R427): in the state of a resident task; in a task's save slot, or in a memory line, with the L2 way, the
cache way or the channel that holds it. -/
inductive ErrorTarget where
  | task (task : Nat)
  | slot (task : Nat) (cls : UnitClass) (number : Nat)
  | line (pa : Nat) (cls : UnitClass) (number : Nat)
  deriving DecidableEq, Repr, Inhabited

/-- The steps of the module: one constructor per row of the opcode table. -/
inductive Instr where
  /-- IADD (R131). Register form: writes the wrapped sum of two sources. -/
  | iadd (f : Fields)
  /-- IADD_IMM (R131). Immediate form: writes the wrapped sum of a register and the immediate. -/
  | iaddImm (f : Fields)
  /-- ISUB (R131). Register form: writes the wrapped difference of two sources. -/
  | isub (f : Fields)
  /-- ISUB_IMM (R131). Immediate form: writes the wrapped difference of a register and the immediate. -/
  | isubImm (f : Fields)
  /-- IADDC (R131). Register form: adds with carry-in from a predicate and writes the carry-out back to it. -/
  | iaddc (f : Fields)
  /-- IADDC_IMM (R131). Immediate form: adds with carry through a predicate. -/
  | iaddcImm (f : Fields)
  /-- IMUL (R131). Register form: writes the low w bits of the product. -/
  | imul (f : Fields)
  /-- IMUL_IMM (R131). Immediate form: writes the low w bits of the product. -/
  | imulImm (f : Fields)
  /-- IMULH (R131). Register form: writes the high w bits of the signed or unsigned product. -/
  | imulh (f : Fields)
  /-- IMULH_IMM (R131). Immediate form: writes the high w bits of the product. -/
  | imulhImm (f : Fields)
  /-- IMAD (R131). Register form: writes a + c × b, wrapped. -/
  | imad (f : Fields)
  /-- IMAD_IMM (R131). Immediate form: writes a + c × imm, wrapped. -/
  | imadImm (f : Fields)
  /-- IDIV (R132). Register form: writes the quotient, with defined results for division by zero. -/
  | idiv (f : Fields)
  /-- IDIV_IMM (R132). Immediate form: writes the quotient. -/
  | idivImm (f : Fields)
  /-- IREM (R132). Register form: writes the remainder, with the dividend's sign when signed. -/
  | irem (f : Fields)
  /-- IREM_IMM (R132). Immediate form: writes the remainder. -/
  | iremImm (f : Fields)
  /-- INEG (R131). Writes the wrapped negation of one source. -/
  | ineg (f : Fields)
  /-- IABS (R131). Writes the wrapped absolute value of one source. -/
  | iabs (f : Fields)
  /-- IMIN (R131). Register form: writes the smaller operand, signed or unsigned. -/
  | imin (f : Fields)
  /-- IMIN_IMM (R131). Immediate form: writes the smaller operand. -/
  | iminImm (f : Fields)
  /-- IMAX (R131). Register form: writes the larger operand, signed or unsigned. -/
  | imax (f : Fields)
  /-- IMAX_IMM (R131). Immediate form: writes the larger operand. -/
  | imaxImm (f : Fields)
  /-- IAND (R131). Register form: bitwise and. -/
  | iand (f : Fields)
  /-- IAND_IMM (R131). Immediate form: bitwise and. -/
  | iandImm (f : Fields)
  /-- IOR (R131). Register form: bitwise or. -/
  | ior (f : Fields)
  /-- IOR_IMM (R131). Immediate form: bitwise or. -/
  | iorImm (f : Fields)
  /-- IXOR (R131). Register form: bitwise exclusive or. -/
  | ixor (f : Fields)
  /-- IXOR_IMM (R131). Immediate form: bitwise exclusive or. -/
  | ixorImm (f : Fields)
  /-- INOT (R131). Writes the bitwise complement of one source. -/
  | inot (f : Fields)
  /-- ISHL (R131). Register form: logical shift left by b mod w. -/
  | ishl (f : Fields)
  /-- ISHL_IMM (R131). Immediate form: logical shift left. -/
  | ishlImm (f : Fields)
  /-- ISHR (R131). Register form: logical shift right by b mod w. -/
  | ishr (f : Fields)
  /-- ISHR_IMM (R131). Immediate form: logical shift right. -/
  | ishrImm (f : Fields)
  /-- ISAR (R131). Register form: arithmetic shift right by b mod w. -/
  | isar (f : Fields)
  /-- ISAR_IMM (R131). Immediate form: arithmetic shift right. -/
  | isarImm (f : Fields)
  /-- IROT (R131). Register form: rotate left by b mod w. -/
  | irot (f : Fields)
  /-- IROT_IMM (R131). Immediate form: rotate left. -/
  | irotImm (f : Fields)
  /-- BFX (R133). Register form: extracts a bit field, sign- or zero-extended. -/
  | bfx (f : Fields)
  /-- BFX_IMM (R133). Immediate form: extracts a bit field. -/
  | bfxImm (f : Fields)
  /-- BFI (R133). Register form: inserts a bit field. -/
  | bfi (f : Fields)
  /-- BFI_IMM (R133). Immediate form: inserts a bit field. -/
  | bfiImm (f : Fields)
  /-- POPC (R131). Writes the number of one bits of one source. -/
  | popc (f : Fields)
  /-- CLZ (R131). Writes the count of leading zero bits. -/
  | clz (f : Fields)
  /-- CTZ (R131). Writes the count of trailing zero bits. -/
  | ctz (f : Fields)
  /-- BREV (R131). Writes the source with its bits reversed. -/
  | brev (f : Fields)
  /-- ISEL (R131). Register form: selects one of two sources by a predicate. -/
  | isel (f : Fields)
  /-- ISEL_IMM (R131). Immediate form: selects a register or the immediate by a predicate. -/
  | iselImm (f : Fields)
  /-- ICMP (R131). Register form: compares two sources and writes a predicate. -/
  | icmp (f : Fields)
  /-- ICMP_IMM (R131). Immediate form: compares a register with the immediate and writes a predicate. -/
  | icmpImm (f : Fields)
  /-- LEA (R131). Register form: writes a + b × 2^SH, wrapped. -/
  | lea (f : Fields)
  /-- LEA_IMM (R131). Immediate form: writes a + imm × 2^SH. -/
  | leaImm (f : Fields)
  /-- MOV (R131). Copies one register to another. -/
  | mov (f : Fields)
  /-- MOVI (R131). Writes the immediate, sign-extended in the .d form. -/
  | movi (f : Fields)
  /-- MOVHI (R131). Writes the immediate into the high 32 bits above a register's low half. -/
  | movhi (f : Fields)
  /-- SEXT (R134). Register form: sign-extends the low n bits. -/
  | sext (f : Fields)
  /-- SEXT_IMM (R134). Immediate form: sign-extends the low n bits. -/
  | sextImm (f : Fields)
  /-- ZEXT (R134). Register form: zero-extends the low n bits. -/
  | zext (f : Fields)
  /-- ZEXT_IMM (R134). Immediate form: zero-extends the low n bits. -/
  | zextImm (f : Fields)
  /-- FADD (R136). Floating add, rounded once. -/
  | fadd (f : Fields)
  /-- FSUB (R136). Floating subtract, rounded once. -/
  | fsub (f : Fields)
  /-- FMUL (R136). Floating multiply, rounded once. -/
  | fmul (f : Fields)
  /-- FFMA (R136). Fused multiply-add with one rounding. -/
  | ffma (f : Fields)
  /-- FMIN (R137). Writes the smaller floating operand, with NaN rules. -/
  | fmin (f : Fields)
  /-- FMAX (R137). Writes the larger floating operand, with NaN rules. -/
  | fmax (f : Fields)
  /-- FCMP (R137). Compares floating operands into a predicate. -/
  | fcmp (f : Fields)
  /-- FCLASS (R137). Writes a one-hot class mask per element. -/
  | fclass (f : Fields)
  /-- FRINT (R136). Rounds to an integral value in the same format. -/
  | frint (f : Fields)
  /-- FDIV (R136). Correctly rounded floating division. -/
  | fdiv (f : Fields)
  /-- FSQRT (R136). Correctly rounded square root. -/
  | fsqrt (f : Fields)
  /-- FRCP (R141). Table-evaluated reciprocal. -/
  | frcp (f : Fields)
  /-- FRSQ (R141). Table-evaluated reciprocal square root. -/
  | frsq (f : Fields)
  /-- FEXP2 (R141). Table-evaluated base-2 exponential. -/
  | fexp2 (f : Fields)
  /-- FLOG2 (R141). Table-evaluated base-2 logarithm. -/
  | flog2 (f : Fields)
  /-- FSIN (R141). Table-evaluated sine with fixed quadrant reduction. -/
  | fsin (f : Fields)
  /-- FCOS (R141). Table-evaluated cosine with fixed quadrant reduction. -/
  | fcos (f : Fields)
  /-- FTANH (R141). Table-evaluated hyperbolic tangent. -/
  | ftanh (f : Fields)
  /-- FSIGM (R141). Table-evaluated logistic sigmoid. -/
  | fsigm (f : Fields)
  /-- FSCALE (R138). Multiplies by a power of two and rounds once. -/
  | fscale (f : Fields)
  /-- FDOT2 (R138). Two-element 16-bit dot product added to FP32, rounded once. -/
  | fdot2 (f : Fields)
  /-- CVTFF (R144). Converts between floating formats, stochastic rounding allowed. -/
  | cvtff (f : Fields)
  /-- CVTFI (R145). Converts floating to integer with saturation. -/
  | cvtfi (f : Fields)
  /-- CVTIF (R144). Converts integer to floating. -/
  | cvtif (f : Fields)
  /-- CVT8 (R146). Encodes values into a binary8 variant, or derives a scale byte. -/
  | cvt8 (f : Fields)
  /-- UNP8 (R147). Decodes binary8 codes into a wider format. -/
  | unp8 (f : Fields)
  /-- PACK2 (R144). Packs two FP32 values into two 16-bit elements. -/
  | pack2 (f : Fields)
  /-- UNPK2 (R144). Unpacks two 16-bit elements to FP32 exactly. -/
  | unpk2 (f : Fields)
  /-- QSWAP (R150). Exchanges values within a quad by lane xor. -/
  | qswap (f : Fields)
  /-- QBCAST (R150). Broadcasts one quad lane's value to its quad. -/
  | qbcast (f : Fields)
  /-- GSHFL (R151). Shuffles values among the group's participants. -/
  | gshfl (f : Fields)
  /-- GVOTE (R151). Votes all, any or ballot over the participants. -/
  | gvote (f : Fields)
  /-- GRED (R152). Reduces the participants' values. -/
  | gred (f : Fields)
  /-- GSCAN (R152). Inclusive or exclusive scan over the participants. -/
  | gscan (f : Fields)
  /-- GMATCH (R153). Writes the mask of participants holding equal bits. -/
  | gmatch (f : Fields)
  /-- BRA (R340). Relative branch, optionally guarded, with target check. -/
  | bra (f : Fields)
  /-- BRX (R340). Register-indirect branch with target check. -/
  | brx (f : Fields)
  /-- CALL (R340). Relative call that pushes the return address, spilling when full. -/
  | call (f : Fields)
  /-- CALLX (R340). Register-indirect call. -/
  | callx (f : Fields)
  /-- RET (R340). Returns through the return stack, reloading spilled entries. -/
  | ret (f : Fields)
  /-- PBLK (R78). Opens a predicate block over the next 1 to 8 instructions. -/
  | pblk (f : Fields)
  /-- EXIT (R341). Ends a thread after an implicit seal and wait. -/
  | exit (f : Fields)
  /-- YIELD (R342). Gives up greedy issue or the front end's next turn. -/
  | yield (f : Fields)
  /-- NOP (R342). Does nothing. -/
  | nop (f : Fields)
  /-- SWTRAP (R342). Retires and traps with cause SWTRAP carrying a code. -/
  | swtrap (f : Fields)
  /-- LD (R260). Loads 1 to 16 bytes at a scope, optionally with acquire. -/
  | ld (f : Fields)
  /-- ST (R260). Stores 1 to 16 bytes at a scope, optionally with release. -/
  | st (f : Fields)
  /-- ATOM (R262). Indivisible read-modify-write at the home slice, returning the old value. -/
  | atom (f : Fields)
  /-- ATOMCAS (R263). Indivisible compare-and-swap. -/
  | atomcas (f : Fields)
  /-- RED (R262). Indivisible read-modify-write returning nothing. -/
  | red (f : Fields)
  /-- FENCE (R264). Orders the agent's own accesses at a scope. -/
  | fence (f : Fields)
  /-- PREF (R265). Hints that a line be brought to a cache level. -/
  | pref (f : Fields)
  /-- LDH (R266). Loads from a ready pigeonhole, stalling until ready. -/
  | ldh (f : Fields)
  /-- STH (R266). Stores to a ready pigeonhole with no readers, stalling until then. -/
  | sth (f : Fields)
  /-- HWAIT (R267). Waits until a pigeonhole is empty or ready. -/
  | hwait (f : Fields)
  /-- HSET (R267). Sets a pigeonhole empty or ready. -/
  | hset (f : Fields)
  /-- HQRY (R267). Reads a pigeonhole's state and reader flag. -/
  | hqry (f : Fields)
  /-- BANKMODE (R250). Switches cluster SRAM banks between cache, scratch and FIFO modes. -/
  | bankmode (f : Fields)
  /-- FIFOPUSH (R268). Appends entries to a FIFO bank, stalling for room. -/
  | fifopush (f : Fields)
  /-- FIFOPOP (R268). Removes the oldest entries of a FIFO bank, stalling for data. -/
  | fifopop (f : Fields)
  /-- HOLE_STALL (R254). A stall reaching HSTALL × 256 cycles traps with HOLE_STALL. -/
  | holeStall (w : Waiter)
  /-- CPY (R301). Queues a byte copy between memory and pigeonholes. -/
  | cpy (f : Fields)
  /-- CPYT (R304). Queues a tensor-window copy between memory and a pigeonhole. -/
  | cpyt (f : Fields)
  /-- CPYG (R305). Queues a row gather into a pigeonhole. -/
  | cpyg (f : Fields)
  /-- CPYS (R302). Queues a pattern fill. -/
  | cpys (f : Fields)
  /-- CPYM (R307). Queues parking of pigeonhole bytes in a poste restante slot. -/
  | cpym (f : Fields)
  /-- CPYD (R308). Queues draining of a poste restante slot into a pigeonhole. -/
  | cpyd (f : Fields)
  /-- SEAL (R315). Seals the open batch and writes its ordinal. -/
  | seal (f : Fields)
  /-- CWAIT (R316). Waits for batches and reports the finished record. -/
  | cwait (f : Fields)
  /-- QFENCE (R317). Waits until named engine queues have performed earlier commands. -/
  | qfence (f : Fields)
  /-- GATH (R310). Queues a per-lane gather read through the collector. -/
  | gath (f : Fields)
  /-- SCAT (R310). Queues a per-lane scatter write through the collector. -/
  | scat (f : Fields)
  /-- SCADD (R312). Adds a binned scatter-add update to the pending set. -/
  | scadd (f : Fields)
  /-- BINFLUSH (R314). Applies pending binned updates. -/
  | binflush (f : Fields)
  /-- COPY_COMMAND_PERFORMED (R300). A copy engine performs a queued copy command after its translation pass. -/
  | copyCommandPerformed (task : Nat) (q : Nat)
  /-- MULTICAST_PARK (R307). A waiting CPYM receives a free poste restante slot and parks its bytes. -/
  | multicastPark (task : Nat) (q : Nat)
  /-- MULTICAST_DRAIN (R308). A waiting CPYD finds its key's slot and drains it. -/
  | multicastDrain (task : Nat) (q : Nat)
  /-- COLLECTOR_WINDOW (R311). The collector window closes after 64 cycles or 256 requests and its requests are performed. -/
  | collectorWindow (core : Nat)
  /-- TCFG (R167). Sets a tile's shape and clears its status. -/
  | tcfg (f : Fields)
  /-- TLD (R169). Queues a tile load from memory, a pigeonhole or a tile object. -/
  | tld (f : Fields)
  /-- TST (R169). Queues a tile store to memory, a pigeonhole or a tile object. -/
  | tst (f : Fields)
  /-- TZERO (R168). Zeroes a tile. -/
  | tzero (f : Fields)
  /-- MMA (R173). Queues a dense matrix multiply-accumulate. -/
  | mma (f : Fields)
  /-- MMAS (R178). Queues a bitmap-sparse matrix multiply-accumulate. -/
  | mmas (f : Fields)
  /-- TCVT (R181). Converts an accumulator tile into a multiplicand tile. -/
  | tcvt (f : Fields)
  /-- ACCRD (R182). Writes an accumulator tile out in a format. -/
  | accrd (f : Fields)
  /-- ACCWR (R183). Reads elements into an accumulator tile. -/
  | accwr (f : Fields)
  /-- TSTAT (R184). Waits for q4, reports the fault record or writes tile status. -/
  | tstat (f : Fields)
  /-- TREL (R168). Releases a tile's contents, keeping its configuration. -/
  | trel (f : Fields)
  /-- MATRIX_COMMAND_PERFORMED (R159). The matrix engine performs a queued command in its task's q4 order. -/
  | matrixCommandPerformed (task : Nat)
  /-- MATRIX_HEAD_AGING (R164). A q4 head that has waited 8,192 cycles is chosen before all others. -/
  | matrixHeadAging (task : Nat)
  /-- SPAWN (R344). Creates one child task and pushes it on the deque. -/
  | spawn (f : Fields)
  /-- SPAWNL (R345). Creates one child per true vote of a group at the last barrier phase. -/
  | spawnl (f : Fields)
  /-- SYNC (R346). Waits for the block's children and merges, applies bins and advances the block. -/
  | sync (f : Fields)
  /-- MERGE_COMMAND (R199). The sorting office merges one child's views once they arrive, in q7 order. -/
  | mergeCommand (task : Nat)
  /-- ACQUIRE (R347). Requests the full allotment and waits for the grant. -/
  | acquire (f : Fields)
  /-- ACQUIRE_GRANT (R330). The oldest waiting ACQUIRE of a cluster is granted when its resources are free. -/
  | acquireGrant (cluster : Nat)
  /-- RELEASE (R347). Returns to a smaller allotment after draining removed resources. -/
  | release (f : Fields)
  /-- BARA (R348). Arrives at a barrier phase with a vote. -/
  | bara (f : Fields)
  /-- BARW (R348). Arrives if needed and waits for the phase to complete. -/
  | barw (f : Fields)
  /-- DQPUT (R349). Appends a value to the decision queue, waiting for room. -/
  | dqput (f : Fields)
  /-- DQGET (R349). Reads the oldest unread decision-queue entry, waiting for one. -/
  | dqget (f : Fields)
  /-- ENQ (R350). Writes a launch packet into a device queue. -/
  | enq (f : Fields)
  /-- TEXIT (R351). Ends a task after threads, batches, engines, children and reconstruction. -/
  | texit (f : Fields)
  /-- PEDRD (R352). Reads the pedigree header, an element or PEDPOS. -/
  | pedrd (f : Fields)
  /-- VUPD (R210). Updates the task's view of a reducer. -/
  | vupd (f : Fields)
  /-- VREAD (R211). Reads the fold of visible reducer updates. -/
  | vread (f : Fields)
  /-- LOGAPP (R212). Appends a value to a LOG reducer. -/
  | logapp (f : Fields)
  /-- RAND (R213). Writes keyed-mixer words from a pedigree or explicit counter. -/
  | rand (f : Fields)
  /-- ALLOC (R214). Allocates from the agent's region cursor. -/
  | alloc (f : Fields)
  /-- ALLOC_CFG (R214). Sets carve and slice sizes for later children. -/
  | allocCfg (f : Fields)
  /-- PEDDG (R215). Writes a pedigree, strand or memory-image digest. -/
  | peddg (f : Fields)
  /-- XSET (R359). Opens an expansion over a deal set once all threads arrive. -/
  | xset (f : Fields)
  /-- XDEAL (R360). Arrives for the next round and receives an iteration. -/
  | xdeal (f : Fields)
  /-- XRED (R362). Holds a value for folding into its iteration's owner. -/
  | xred (f : Fields)
  /-- XEND (R363). Closes the expansion and writes each owner's result. -/
  | xend (f : Fields)
  /-- XQRY (R364). Reads expansion state. -/
  | xqry (f : Fields)
  /-- CVQRY (R236). Writes the coverage class of a point. -/
  | cvqry (f : Fields)
  /-- CVQRY_BAND (R236). Writes a band's code and state. -/
  | cvqryBand (f : Fields)
  /-- CVPROBE (R237). Writes the reconstruction of a probe or filled point. -/
  | cvprobe (f : Fields)
  /-- RECON (R239). Performs the task's reconstruction. -/
  | recon (f : Fields)
  /-- CVERR (R238). Adds one error sample to the task's sums. -/
  | cverr (f : Fields)
  /-- CSRRD (R417). Reads a control register. -/
  | csrrd (f : Fields)
  /-- CSRWR (R418). Writes TRAPVEC, FMTDEF, MODES or HSTALL. -/
  | csrwr (f : Fields)
  /-- TRAPRET (R419). Ends the handler by resume, skip, kill or abort. -/
  | trapret (f : Fields)
  /-- CYCLE (R420). Reads the cluster cycle counter. -/
  | cycle (f : Fields)
  /-- BKPT (R421). Retires and traps with cause BKPT. -/
  | bkpt (f : Fields)
  /-- ICSYNC (R422). Removes the context's decoded and byte cache entries in the partition. -/
  | icsync (f : Fields)
  /-- TLBINV (R423). Removes TLB entries of the context and waits for walks and q5. -/
  | tlbinv (f : Fields)
  /-- TRAP_DELIVERY (R400). A pending trap is delivered when the handler is idle and the uniform stream at a boundary. -/
  | trapDelivery (task : Nat)
  /-- QUEUE_DOORBELL (R379). A notify write makes the command processor read packets up to the new value. -/
  | queueDoorbell (ctx : Nat) (q : Nat) (value : Nat)
  /-- TREE_LAUNCH (R382). A tree launch packet is read whole and checked. -/
  | treeLaunch (ctx : Nat) (q : Nat)
  /-- SWEEP_LAUNCH (R382). A sweep launch packet is read whole and checked. -/
  | sweepLaunch (ctx : Nat) (q : Nat)
  /-- DETERMINISM_PACKET (R383). Sets the determinism level and trace mode of later launches. -/
  | determinismPacket (ctx : Nat) (q : Nat)
  /-- INDIRECT_BUFFER (R384). Performs the packets of a buffer in order. -/
  | indirectBuffer (ctx : Nat) (q : Nat)
  /-- LAUNCH_START (R320). A launch starts once its dependences read zero, creating the seed task or the walker. -/
  | launchStart (ctx : Nat) (q : Nat) (core : Nat)
  /-- SWEEP_TASK_CREATION (R220). The block walker creates the next tile's task once band pacing allows. -/
  | sweepTaskCreation (tree : Nat) (core : Nat)
  /-- TASK_START (R326). A core starts the new-end entry of its deque when it can admit it. -/
  | taskStart (core : Nat)
  /-- STEAL (R328). An idle core takes the oldest admissible entry of a victim's deque. -/
  | steal (thief : Nat) (victim : Nat)
  /-- DEQUE_RELIEF (R329). A deque head blocked 65,536 cycles makes the core save its youngest suspended task. -/
  | dequeRelief (core : Nat)
  /-- ACQUIRE_RELIEF (R329). An ACQUIRE waiting 65,536 cycles makes the cluster save tasks holding needed capacity. -/
  | acquireRelief (cluster : Nat)
  /-- RESTORE (R413). A saved task is restored on a core that can hold it once its condition holds. -/
  | restore (task : Nat) (core : Nat)
  /-- TREE_COMPLETE (R322). When the spawn-tree counter returns to zero the tree's results are written and its signal decremented. -/
  | treeComplete (tree : Nat)
  /-- REPLAY_DOORBELL (R377). A write makes every parked access of the context walk again. -/
  | replayDoorbell (ctx : Nat)
  /-- CREATE_CONTEXT (R393). Installs a context from its descriptor and names its save pool. -/
  | createContext (tag : W32)
  /-- DESTROY_CONTEXT (R393). Aborts the context's trees, frees its resources and removes it. -/
  | destroyContext (tag : W32)
  /-- SET_PARTITION (R393). Sets a partition's clusters. -/
  | setPartition (tag : W32)
  /-- SET_POWER_CAP (R393). Sets the module power cap. -/
  | setPowerCap (tag : W32)
  /-- PREEMPT (R403). Pre-empts named tasks by flush-and-restart, drain or save. -/
  | preempt (tag : W32)
  /-- DRAIN_BUDGET (R405). A draining task not yet exited when its budget elapses is saved. -/
  | drainBudget (task : Nat)
  /-- RESET_STARTUP (R393). Sets every start-up entry's next method to primary. -/
  | resetStartup (tag : W32)
  /-- CHANNEL_ACK (R393). Acknowledges a vacated HBM4E channel so firmware can quarantine it. -/
  | channelAck (tag : W32)
  /-- SERVICE_UNIT (R393). Quarantines, re-calibrates, updates or returns a unit. -/
  | serviceUnit (tag : W32) (passes : Bool)
  /-- SET_POSTMARK (R393). Sets and clears the postmark regions and flushes all TLBs. -/
  | setPostmark (tag : W32)
  /-- HOST_REGISTER_WINDOW (R391). A write to a window location without behaviour of its own is discarded. -/
  | hostRegisterWindow (offset : Nat) (data : Option W64)
  /-- COMPANION_ACCESS (R387). A companion-processor access to device memory is performed at the home slice. -/
  | companionAccess (pa : Nat) (bytes : Nat) (data : Option Nat)
  /-- L1_WRITE_BACK (R281). A dirty L1 byte reaches its home slice 65,536 cycles after its store. -/
  | l1WriteBack (cluster : Nat) (line : Nat)
  /-- L1_CLEAN_DROP (R281). A clean L1 line is dropped 65,536 cycles after its fill. -/
  | l1CleanDrop (cluster : Nat) (line : Nat)
  /-- ISSUE_PROMOTION (R333). A bundle whose member has waited 4,096 cycles is promoted for issue. -/
  | issuePromotion (core : Nat)
  /-- ISSUE_GATING (R26). The power controller gates issue to keep each 1 ms average under the cap. -/
  | issueGating (die : Nat) (level : Nat)
  /-- THERMAL_GATING (R29). A junction at 100 °C makes the die gate issue further until below 97 °C. -/
  | thermalGating (die : Nat)
  /-- THERMAL_TRIP (R29). A junction at 110 °C or lost flow stops all work and removes power. -/
  | thermalTrip
  /-- LEASE_RENEWAL (R390). The firmware leader renews its lease every 2^21 cycles. -/
  | leaseRenewal
  /-- LEASE_TAKEOVER (R390). A follower takes the lease after 2^22 cycles without renewal. -/
  | leaseTakeover (die : Nat)
  /-- CORRECTED_ERROR (R425). A corrected error is counted against its unit and judged lasting or not. -/
  | correctedError (cls : UnitClass) (number : Nat)
  /-- UNCORRECTED_ERROR (R427). An uncorrected error ends the owning tree or poisons the line. -/
  | uncorrectedError (target : ErrorTarget)
  /-- STARTUP (R431). Start-up runs its steps in order and records outcomes in flash. -/
  | startup (primary : Bool) (alternate : Bool)
  /-- UNASSIGNED_OPCODE (R82). A slot whose major or minor code is unassigned, or in 0x60-0x7F, is executed and traps with ILLEGAL_OP or FUTURE_OP. -/
  | unassignedOpcode (w : InstrWord)
  /-- BUNDLE_FORMATION (R38). At every cycle in which the cluster cycle counter is a multiple of 4, each core re-forms bundles from its ready threads. -/
  | bundleFormation (core : Nat)
  /-- BAD_COMMAND (R392). A management doorbell write whose command block holds an unknown opcode or a non-zero unused byte ends with result BAD_COMMAND. -/
  | badCommand (tag : W32)
  /-- UNKNOWN_PACKET_TYPE (R381). A packet of TYPE 0 or 5-255 is read and refused with PACKET_FORM, writing a status record and advancing READ. -/
  | unknownPacketType (ctx : Nat) (q : Nat)
  /-- THERMAL_GATING_RELEASE (R29). When the hottest junction falls below 97 °C, the die stops the extra thermal gating of issue. -/
  | thermalGatingRelease (die : Nat)
  /-- FILTER_TAG_RETURN (R205). After the command processor has cleared VALID in every postmark carrying a tree's tag, the tag and the tree's strand-table pages return to use. -/
  | filterTagReturn (tag : Nat)
  deriving DecidableEq, Repr

/-- The fields of an instruction; `none` for a step that is no instruction of the encoding. -/
def Instr.fields? : Instr → Option Fields
  | .iadd f => some f
  | .iaddImm f => some f
  | .isub f => some f
  | .isubImm f => some f
  | .iaddc f => some f
  | .iaddcImm f => some f
  | .imul f => some f
  | .imulImm f => some f
  | .imulh f => some f
  | .imulhImm f => some f
  | .imad f => some f
  | .imadImm f => some f
  | .idiv f => some f
  | .idivImm f => some f
  | .irem f => some f
  | .iremImm f => some f
  | .ineg f => some f
  | .iabs f => some f
  | .imin f => some f
  | .iminImm f => some f
  | .imax f => some f
  | .imaxImm f => some f
  | .iand f => some f
  | .iandImm f => some f
  | .ior f => some f
  | .iorImm f => some f
  | .ixor f => some f
  | .ixorImm f => some f
  | .inot f => some f
  | .ishl f => some f
  | .ishlImm f => some f
  | .ishr f => some f
  | .ishrImm f => some f
  | .isar f => some f
  | .isarImm f => some f
  | .irot f => some f
  | .irotImm f => some f
  | .bfx f => some f
  | .bfxImm f => some f
  | .bfi f => some f
  | .bfiImm f => some f
  | .popc f => some f
  | .clz f => some f
  | .ctz f => some f
  | .brev f => some f
  | .isel f => some f
  | .iselImm f => some f
  | .icmp f => some f
  | .icmpImm f => some f
  | .lea f => some f
  | .leaImm f => some f
  | .mov f => some f
  | .movi f => some f
  | .movhi f => some f
  | .sext f => some f
  | .sextImm f => some f
  | .zext f => some f
  | .zextImm f => some f
  | .fadd f => some f
  | .fsub f => some f
  | .fmul f => some f
  | .ffma f => some f
  | .fmin f => some f
  | .fmax f => some f
  | .fcmp f => some f
  | .fclass f => some f
  | .frint f => some f
  | .fdiv f => some f
  | .fsqrt f => some f
  | .frcp f => some f
  | .frsq f => some f
  | .fexp2 f => some f
  | .flog2 f => some f
  | .fsin f => some f
  | .fcos f => some f
  | .ftanh f => some f
  | .fsigm f => some f
  | .fscale f => some f
  | .fdot2 f => some f
  | .cvtff f => some f
  | .cvtfi f => some f
  | .cvtif f => some f
  | .cvt8 f => some f
  | .unp8 f => some f
  | .pack2 f => some f
  | .unpk2 f => some f
  | .qswap f => some f
  | .qbcast f => some f
  | .gshfl f => some f
  | .gvote f => some f
  | .gred f => some f
  | .gscan f => some f
  | .gmatch f => some f
  | .bra f => some f
  | .brx f => some f
  | .call f => some f
  | .callx f => some f
  | .ret f => some f
  | .pblk f => some f
  | .exit f => some f
  | .yield f => some f
  | .nop f => some f
  | .swtrap f => some f
  | .ld f => some f
  | .st f => some f
  | .atom f => some f
  | .atomcas f => some f
  | .red f => some f
  | .fence f => some f
  | .pref f => some f
  | .ldh f => some f
  | .sth f => some f
  | .hwait f => some f
  | .hset f => some f
  | .hqry f => some f
  | .bankmode f => some f
  | .fifopush f => some f
  | .fifopop f => some f
  | .holeStall _ => none
  | .cpy f => some f
  | .cpyt f => some f
  | .cpyg f => some f
  | .cpys f => some f
  | .cpym f => some f
  | .cpyd f => some f
  | .seal f => some f
  | .cwait f => some f
  | .qfence f => some f
  | .gath f => some f
  | .scat f => some f
  | .scadd f => some f
  | .binflush f => some f
  | .copyCommandPerformed _ _ => none
  | .multicastPark _ _ => none
  | .multicastDrain _ _ => none
  | .collectorWindow _ => none
  | .tcfg f => some f
  | .tld f => some f
  | .tst f => some f
  | .tzero f => some f
  | .mma f => some f
  | .mmas f => some f
  | .tcvt f => some f
  | .accrd f => some f
  | .accwr f => some f
  | .tstat f => some f
  | .trel f => some f
  | .matrixCommandPerformed _ => none
  | .matrixHeadAging _ => none
  | .spawn f => some f
  | .spawnl f => some f
  | .sync f => some f
  | .mergeCommand _ => none
  | .acquire f => some f
  | .acquireGrant _ => none
  | .release f => some f
  | .bara f => some f
  | .barw f => some f
  | .dqput f => some f
  | .dqget f => some f
  | .enq f => some f
  | .texit f => some f
  | .pedrd f => some f
  | .vupd f => some f
  | .vread f => some f
  | .logapp f => some f
  | .rand f => some f
  | .alloc f => some f
  | .allocCfg f => some f
  | .peddg f => some f
  | .xset f => some f
  | .xdeal f => some f
  | .xred f => some f
  | .xend f => some f
  | .xqry f => some f
  | .cvqry f => some f
  | .cvqryBand f => some f
  | .cvprobe f => some f
  | .recon f => some f
  | .cverr f => some f
  | .csrrd f => some f
  | .csrwr f => some f
  | .trapret f => some f
  | .cycle f => some f
  | .bkpt f => some f
  | .icsync f => some f
  | .tlbinv f => some f
  | .trapDelivery _ => none
  | .queueDoorbell _ _ _ => none
  | .treeLaunch _ _ => none
  | .sweepLaunch _ _ => none
  | .determinismPacket _ _ => none
  | .indirectBuffer _ _ => none
  | .launchStart _ _ _ => none
  | .sweepTaskCreation _ _ => none
  | .taskStart _ => none
  | .steal _ _ => none
  | .dequeRelief _ => none
  | .acquireRelief _ => none
  | .restore _ _ => none
  | .treeComplete _ => none
  | .replayDoorbell _ => none
  | .createContext _ => none
  | .destroyContext _ => none
  | .setPartition _ => none
  | .setPowerCap _ => none
  | .preempt _ => none
  | .drainBudget _ => none
  | .resetStartup _ => none
  | .channelAck _ => none
  | .serviceUnit _ _ => none
  | .setPostmark _ => none
  | .hostRegisterWindow _ _ => none
  | .companionAccess _ _ _ => none
  | .l1WriteBack _ _ => none
  | .l1CleanDrop _ _ => none
  | .issuePromotion _ => none
  | .issueGating _ _ => none
  | .thermalGating _ => none
  | .thermalTrip => none
  | .leaseRenewal => none
  | .leaseTakeover _ => none
  | .correctedError _ _ => none
  | .uncorrectedError _ => none
  | .startup _ _ => none
  | .unassignedOpcode _ => none
  | .bundleFormation _ => none
  | .badCommand _ => none
  | .unknownPacketType _ _ => none
  | .thermalGatingRelease _ => none
  | .filterTagReturn _ => none

end Sys2Proof
end

