-- ==== Sys2Proof/Machine/State.lean ====
section
/-! DEFINITION. The state of the NX3 module as plain data: everything 02 R60 and the chapters name, from the dies down to
the lookahead windows of a thread, and `State.reset`. Records that belong to a task, a tree or a context exist only while
their owner does; the values they start with are those of the rules cited. -/

namespace Sys2Proof.Machine

/-- A set of small numbers (lanes, threads, banks), bit k for member k. -/
abbrev Bitmap := Nat

/-! ### What an agent carries (02 R60) -/

/-- The error record of a batch, or the matrix fault record (07 R162, 12 R294): cause, copy or command ordinal, batch
ordinal, address where there is one, count of later errors. -/
structure ErrRec where
  cause : Nat := 0
  ord : Nat := 0
  batch : Nat := 0
  addr : Option Nat := none
  later : Nat := 0
  deriving DecidableEq, Repr, Inhabited

/-- A batch of copy commands (12 R293): its ordinal, the commands that joined it, those not yet performed, its error record
and OOB bit. -/
structure Batch where
  ord : Nat := 0
  joined : Nat := 0
  undone : Nat := 0
  err : Option ErrRec := none
  oob : Bool := false
  deriving DecidableEq, Repr, Inhabited

/-- A lookahead window (03 R75, 16 R409): instructions left, predicate written, first register written (0 for none) and how
many, and whether it is the handler's or suspended by it. `addr` is the slot address of its long-latency instruction. -/
structure Window where
  left : Nat
  pred : Option Nat := none
  first : Nat := 0
  count : Nat := 0
  handler : Bool := false
  suspended : Bool := false
  addr : Nat := 0
  deriving DecidableEq, Repr, Inhabited

/-- Predicate-block state (03 R78): instructions left, remaining pattern (bit 0 next), captured value. -/
structure Block where
  left : Nat := 0
  pat : Nat := 0
  val : Bool := false
  deriving DecidableEq, Repr, Inhabited

/-- A recoverable page fault that parks an agent or a queue (15 R377). -/
structure Park where
  va : Nat
  write : Bool := false
  fetch : Bool := false
  engine : Bool := false
  deriving DecidableEq, Repr, Inhabited

/-- A pending trap: the fields of its frame that are fixed when it is raised (16 R399, R400). `entry` marks a task entry
rejected under 03 R65. -/
structure Trap where
  cause : Nat
  uniform : Bool := false
  addr : Option Nat := none
  deferred : Bool := false
  later : Nat := 0
  pc : Nat := 0
  insn : InstrWord := 0
  tid : Nat := 0
  digest : Nat := 0
  expand : Nat := 0
  inner : Nat := 0
  ident : Nat := 0
  stamp : Nat := 0
  entry : Bool := false
  /-- It reports the task's matrix fault record, which the handler's entry clears (07 R162). -/
  matrix : Bool := false
  deriving DecidableEq, Repr, Inhabited

/-- A stall of 10 R254: the cluster cycle in which it began and the limit in cycles read then (0 for none). -/
structure Stall where
  since : Nat
  limit : Nat
  deriving DecidableEq, Repr, Inhabited

/-- Who accesses global memory and how. -/
structure Acc where
  ctx : Nat
  tree : Nat
  cl : Nat
  scope : Nat := 0
  order : Nat := 0
  strand : Strand := []
  /-- Checked and recorded by the race filter (08 R204). -/
  checked : Bool := false
  engine : Bool := false
  deriving DecidableEq, Repr, Inhabited

/-- A translated piece: virtual and physical address, length, watched. -/
structure Seg where
  va : Nat
  pa : Nat
  n : Nat
  watched : Bool
  deriving DecidableEq, Repr, Inhabited

/-- What an access that its agent has passed over does when it is performed (11 R274, R275). -/
inductive LateOp where
  /-- `count` registers from `dest` are written, sign-extended from `sext` bits where that is not 0. `seen` is what a load that the race filter has
  checked read when it was checked. -/
  | load (dest count sext : Nat) (seen : Option (List Byte))
  | store (bytes : List Byte)
  /-- An ATOM or RED of an operation code, or with none an ATOMCAS; the old value goes to `count` registers from `dest`. -/
  | atom (code : Option Nat) (value compare dest count : Nat)
  /-- A FENCE.rel: no access, but what precedes it is performed before every later write. -/
  | fence
  deriving DecidableEq, Repr, Inhabited

/-- An access that its agent has passed over: a later access of the agent may be performed before it (11 R274, R275). -/
structure Late where
  acc : Acc
  seg : Seg
  op : LateOp
  /-- It stems from the issue under way, whose lanes keep their order (10 R258). -/
  fresh : Bool := true
  deriving DecidableEq, Repr, Inhabited

/-- A load that is performed before its agent comes to it, past branches and accesses that do not order it (11 R274): the address of its
instruction, its range and bytes, the registers of its address, and the cluster cycle at which it was performed. -/
structure Early where
  pc : Nat
  pa : Nat
  bytes : List Byte
  base : List (Nat × Nat)
  since : Nat
  /-- The pigeonholes that a command of the task has filled since: an instruction that issues on one joins the command (R282). -/
  holes : List Nat := []
  deriving DecidableEq, Repr, Inhabited

/-- An instruction of spaces 0x00 to 0x04 that its agents have passed over, because an operand is not there yet: the threads that perform it together,
none in a uniform stream; the thread's conversion ordinal, MODES and FMTDEF at its issue (11 R274). -/
structure Slow where
  instr : Instr
  group : List Nat
  ord : W32
  modes : W32
  fmtDef : W32
  deriving DecidableEq, Repr

/-- What a thread and a uniform stream both own (02 R60). -/
structure Agent where
  /-- Slot address of the next instruction, or of the entry while `entry` holds. -/
  pc : W64 := 0
  /-- p0 to p7; p0 reads false and p7 true whatever is held. -/
  preds : BitVec 8 := 0
  block : Block := {}
  windows : List Window := []
  /-- On-chip return stack, oldest first, and the count of spilled entries (02 R49). -/
  stack : List W64 := []
  spilled : Nat := 0
  /-- Next copy ordinal and next batch ordinal (12 R292, R315). -/
  copyOrd : W32 := 0
  batchOrd : W32 := 0
  /-- The open batch, the sealed batches not finished (oldest first) and the finished record (12 R293). -/
  opened : Batch := {}
  closed : List Batch := []
  finErr : Option ErrRec := none
  finOob : Bool := false
  /-- Update counts by reducer (08 R195). -/
  counts : Sparse Nat := []
  /-- The instruction at pc waits, having left its partial effects. -/
  waiting : Bool := false
  stall : Option Stall := none
  /-- The commands that a QFENCE in progress waits for: queue, issuer, ordinal (12 R317). -/
  fence : Option (List (Nat × Option Nat × Nat)) := none
  parked : Option Park := none
  pending : Option Trap := none
  /-- The entry of 03 R65 has not been checked yet. -/
  entry : Bool := false
  /-- Cluster cycle of the last issue (13 R333). -/
  issued : Nat := 0
  /-- Accesses and computations passed over and not yet performed, oldest first, and loads performed ahead (11 R274). -/
  late : List Late := []
  slow : List Slow := []
  early : List Early := []
  /-- In a saved image: a stall or a QFENCE was in progress, which begins anew (10 R254). -/
  anew : Bool := false
  deriving DecidableEq, Repr, Inhabited

/-- Status of a thread slot of a group (02 R34, R43). -/
inductive ThreadStatus where
  | live | helper | free
  deriving DecidableEq, Repr, Inhabited

/-- The barrier phase an agent completed last (13 R335): how many of the uniform stream's and of each thread's updates
precede it. -/
structure PhaseView where
  uCut : Nat := 0
  cuts : Sparse Nat := []
  deriving DecidableEq, Repr, Inhabited

/-- A thread (02 R31, R60). -/
structure Thread where
  status : ThreadStatus := .live
  ag : Agent := {}
  /-- x1 to x511. -/
  x : Sparse W32 := []
  /-- Conversion ordinal (05 R121). -/
  convOrd : W32 := 0
  /-- Slice cursor and end (08 R201). -/
  cursor : Nat := 0
  sliceEnd : Nat := 0
  /-- SCADD ordinal (12 R312). -/
  scaddOrd : W32 := 0
  /-- Thread marker (08 R188). -/
  marker : Nat := 0
  /-- The phase completed last, for VREAD (08 R211). -/
  phase : Option PhaseView := none
  /-- While it waits in FIFOPUSH or FIFOPOP: the threads of its issue on lower lanes that waited with it (10 R268). -/
  behind : List Nat := []
  deriving DecidableEq, Repr, Inhabited

/-- The uniform stream (02 R44, R60). -/
structure Uniform where
  ag : Agent := {}
  /-- s1 to s63. -/
  s : Sparse W64 := []
  /-- Matrix command ordinal and matrix conversion ordinal (07 R158, R185). -/
  mcmdOrd : W32 := 0
  mconvOrd : W32 := 0
  /-- Region (08 R201). -/
  lo : Nat := 0
  hi : Nat := 0
  carve : Nat := 0
  slice : Nat := 0
  /-- PEDPOS, and the hidden bit of 02 R58. -/
  pedpos : BitVec 16 := 0
  lastUsed : Bool := false
  /-- Retired instructions R (16 R403). -/
  retired : W64 := 0
  /-- Coverage error count and sum, and whether the first reconstruction is done (09 R229). -/
  covN : Nat := 0
  covS : Nat := 0
  covDone : Bool := false
  /-- The thread updates published to the stream: per thread, those before this point (13 R335). -/
  published : Sparse Nat := []
  /-- The phase completed last, for pending bin updates (12 R314). -/
  phase : Option PhaseView := none
  deriving DecidableEq, Repr, Inhabited

/-! ### Task state -/

/-- An entry of the decision queue (13 R337): value and the threads that have not read it. -/
structure DqEntry where
  value : W64
  readers : Bitmap
  deriving DecidableEq, Repr, Inhabited

/-- A barrier (13 R335, R336). The cuts say how many updates of the task each arrived agent had made. -/
structure Barrier where
  phase : W32 := 0
  uArrived : Bool := false
  uPos : Nat := 0
  uCut : Nat := 0
  arrivals : Bitmap := 0
  votes : Bitmap := 0
  cuts : Sparse Nat := []
  lastPos : Nat := 0
  lastVotes : Bitmap := 0
  last : PhaseView := {}
  deriving DecidableEq, Repr, Inhabited

/-- A tile configuration (07 R154): width in bytes. -/
structure TileCfg where
  rows : Nat := 32
  cols : Nat := 64
  width : Nat := 1
  ovt : Bool := false
  deriving DecidableEq, Repr, Inhabited

/-- A tile (07 R155, R156). Row r of a multiplicand tile lies at byte 64r and of an accumulator tile at 256r (16 R411).
`next` is its entry in the configuration table, which the next matrix instruction captures. -/
structure Tile where
  next : TileCfg := {}
  valid : Bool := false
  dirty : Bool := false
  accOvf : Bool := false
  poison : Bool := false
  data : Sparse Byte := []
  side : Sparse Byte := []
  deriving DecidableEq, Repr, Inhabited

/-- States of a pigeonhole (10 R252). -/
inductive HoleState where
  | empty | filling | ready | draining
  deriving DecidableEq, Repr, Inhabited

/-- A granted pigeonhole (10 R251, R252). -/
structure Hole where
  state : HoleState := .empty
  readers : Nat := 0
  data : Sparse Byte := []
  /-- The SCRATCH banks that hold it, with the bytes that each holds (10 R251). -/
  banks : List (Nat × Nat) := []
  deriving DecidableEq, Repr, Inhabited

/-- A copy command whose translation pass is done and which has moved some of its bytes (11 R282, R284; 12 R300): its translated ranges, as
virtual address, physical address, length and whether watched, the bytes read so far by their place in the ranges read, and the places in the
ranges written that have been written. -/
structure Begun where
  reads : List (Nat × Nat × Nat × Bool) := []
  writes : List (Nat × Nat × Nat × Bool) := []
  got : Sparse (Option Byte) := []
  put : List Nat := []
  /-- The index list of a CPYG, read in the translation pass. -/
  index : List Byte := []
  deriving DecidableEq, Repr, Inhabited

/-- A queued copy or matrix command with its captured operands (07 R158, 12 R292, 16 R411). -/
structure Cmd where
  word : InstrWord := 0
  ord : Nat := 0
  issuer : Option Nat := none
  batch : Nat := 0
  parked : Option Park := none
  stall : Option Stall := none
  /-- Steps of the sparse sequencer performed (07 R180), or attempts made at a versioned access (R171). -/
  step : Nat := 0
  begun : Option Begun := none
  d : Nat := 0
  a : Nat := 0
  b : Nat := 0
  c : Nat := 0
  /-- CPYT's window descriptor. -/
  desc : List Byte := []
  cfgD : TileCfg := {}
  cfgA : TileCfg := {}
  cfgB : TileCfg := {}
  cfgC : TileCfg := {}
  fw : Nat := 0
  maddr : Nat := 0
  saddr : Nat := 0
  bitmaps : List W64 := []
  conv : Nat := 0
  strand : Strand := []
  /-- Cluster cycle at which it reached the head of q4 (07 R164). -/
  headSince : Option Nat := none
  deriving DecidableEq, Repr, Inhabited

/-- A lane request in a core's collector (12 R310, R311), with the translation made at its issue (`none`: it met a fault
that cannot be recovered, or a page without WR). -/
structure GatherReq where
  task : Nat
  thread : Nat
  write : Bool
  ea : Nat
  pa : Option Nat
  bytes : Nat
  value : Nat := 0
  dest : Nat := 0
  ord : Nat := 0
  batch : Nat := 0
  strand : Strand := []
  watched : Bool := false
  entered : Nat := 0
  /-- The lowest thread of its quad whose request entered with it, and whether the helpers of the quad have passed the GATH already, with a thread that
  a predicate block suppressed at it. -/
  lead : Nat := 0
  passed : Bool := false
  /-- The page of the filter area that its check waits for, until the replay doorbell (15 R377, R453). -/
  parked : Option Nat := none
  /-- The agents whose QFENCE or TLBINV waits for it (R317; 16 R423). -/
  awaited : List (Nat × Option Nat) := []
  deriving DecidableEq, Repr, Inhabited

/-- A pending bin update (12 R312). `seq` places it among the task's updates (13 R335). -/
structure BinUpdate where
  addr : Nat
  value : Nat
  type : Nat
  ped : Pedigree
  thread : Nat
  ord : Nat
  seq : Nat
  /-- The page of its tree's bin area that holds it (12 R314). -/
  place : Option Nat := none
  deriving DecidableEq, Repr, Inhabited

/-- Who made an update held in a view: the uniform stream, a thread, a child of a completed join, or a child merged by a join
under way. -/
inductive Source where
  | uniform
  | thread (t : Nat)
  | child
  | merging
  deriving DecidableEq, Repr, Inhabited

/-- An update with its key (08 R195) and the place of its arrival among the task's updates. -/
structure Update where
  seq : Nat
  source : Source
  strand : Strand
  rank : Nat
  group : Nat := 0
  lane : Nat := 0
  count : Nat
  atype : Nat
  value : Nat
  digest : Nat := 0
  deriving DecidableEq, Repr, Inhabited

/-- A view (08 R197): the updates it combines, and the staging chunks that hold its entries (R455). -/
structure View where
  index : Nat
  kind : Nat
  type : Nat
  updates : List Update := []
  chunks : List Nat := []
  deriving DecidableEq, Repr, Inhabited

/-- A child of a task, from its spawn to its merge: its element, and what it left at exit. -/
structure Child where
  task : Nat
  elem : Nat
  exited : Bool := false
  order : Nat := 0
  views : List View := []
  bins : List BinUpdate := []
  deriving DecidableEq, Repr, Inhabited

/-- An open expansion (14 R359, R367). -/
structure Expansion where
  base : Nat
  logn : Nat
  op : Nat
  d64 : Bool
  total : Nat
  round : Nat := 0
  dealer : Bitmap := 0
  arrived : Bitmap := 0
  done : Bitmap := 0
  hasVal : Bitmap := 0
  cur : Bitmap := 0
  start : Sparse Nat := []
  pref : Sparse Nat := []
  acc : Sparse Nat := []
  val : Sparse Nat := []
  deriving DecidableEq, Repr, Inhabited

/-- A reducer declaration (08 R193). -/
structure Reducer where
  index : Nat
  kind : Nat
  type : Nat
  deriving DecidableEq, Repr, Inhabited

/-- A task record as read from the code object (04 R105), with the absolute addresses of its entries. -/
structure TaskRec where
  lentry : Nat := 0
  uentry : Nat := 0
  regs : Nat := 24
  mtiles : Nat := 0
  atiles : Nat := 0
  holes : Nat := 0
  idem : Bool := false
  sweep : Bool := false
  holeBytes : Nat := 0
  hint : Nat := 0
  reducers : List Reducer := []
  tx : Nat := 0
  ty : Nat := 0
  tz : Nat := 0
  deriving DecidableEq, Repr, Inhabited

/-- What creates a task (13 R321): its deque entry. -/
structure Entry where
  id : Nat
  ctx : Nat
  tree : Nat
  record : Nat
  rcd : TaskRec := {}
  groups : Nat := 1
  last : Nat := 32
  ped : Pedigree := {}
  parent : Option Nat := none
  /-- s1 to s4 and x1 to x6 at the start. -/
  s : List W64 := []
  x : List W32 := []
  trapVec : W64 := 0
  lo : Nat := 0
  hi : Nat := 0
  carve : Nat := 0
  slice : Nat := 0
  tile : Option Nat := none
  cov : Nat := 255
  /-- Its sweep's elements are FP64, so that CVPROBE's D is a pair (09 R237). -/
  wide : Bool := false
  /-- The save slot kept by a flush-and-restart (16 R404), and the core and task slot that the task left (17 R437). -/
  slot : Option Nat := none
  home : Option (Nat × Nat) := none
  /-- Its place in its context's deque spill area, while it stands there (13 R327). -/
  spill : Option Nat := none
  /-- Cluster cycle at which it became the new-end entry (13 R329). -/
  since : Nat := 0
  /-- The page of its tree's trace, or of the staging area, that its start waits for (15 R453). -/
  waits : Option Park := none
  deriving DecidableEq, Repr, Inhabited

/-- Where a started task stands: resident on a core in a task slot, or saved (its place in the order of saves, and the core and slot
it left). -/
inductive Place where
  | core (core slot : Nat)
  | saved (order core slot : Nat)
  deriving DecidableEq, Repr, Inhabited

/-- An active handler: the frame as written at delivery and what TRAPRET restores (16 R400, R419). -/
structure Handler where
  trap : Trap
  upc : W64
  s1 : W64
  block : Block
  /-- Whether the instruction at `upc` waited, with partial effects that stand. -/
  waiting : Bool := false
  deriving DecidableEq, Repr, Inhabited

/-- Current allotment (02 R55). -/
structure Allot where
  regs : Nat := 24
  mtiles : Nat := 0
  atiles : Nat := 0
  holes : Nat := 0
  views : Nat := 0
  full : Bool := false
  deriving DecidableEq, Repr, Inhabited

/-- A wait of the uniform stream in SYNC or TEXIT (13 R346, R351): `exit` from its entry into TEXIT, `exitJoin` from the
implicit join on. Merges of children are under way in `sync` and `exitJoin` (08 R199). -/
inductive Join where
  | none
  | sync
  | exit
  | exitJoin
  deriving DecidableEq, Repr, Inhabited

/-- A started task (02 R60). -/
structure Task where
  entry : Entry
  place : Place
  /-- The thread slot of each group on its lanes (02 R37). -/
  gslots : List Nat := []
  savePtr : Nat := 0
  started : Nat := 0
  allot : Allot := {}
  trapVec : W64 := 0
  fmtDef : W32 := 1
  modes : W32 := 0
  hstall : W32 := 0
  u : Uniform := {}
  threads : List Thread := []
  dq : List DqEntry := []
  dqHead : Nat := 0
  bars : Sparse Barrier := []
  /-- Counts the task's updates, for the cuts of 13 R335. -/
  seq : Nat := 0
  mtile : Sparse Tile := []
  atile : Sparse Tile := []
  fault : Option ErrRec := none
  holes : List Hole := []
  /-- q0 to q3. -/
  copyq : List (List Cmd) := [[], [], [], []]
  q4 : List Cmd := []
  q4park : Option Park := none
  bins : List BinUpdate := []
  expans : List Expansion := []
  views : List View := []
  /-- The SCRATCH banks that hold the views, with the bytes that each holds (10 R250, R251). -/
  viewBanks : List (Nat × Nat) := []
  /-- Staging chunks in which its views stand before its first ACQUIRE is granted (08 R197). -/
  preChunks : List Nat := []
  children : List Child := []
  join : Join := .none
  joined : Nat := 0
  handler : Option Handler := none
  /-- A pre-emption of the task: the die cycle at which its drain budget ends (16 R405). -/
  drain : Option Nat := none
  acquiring : Bool := false
  /-- A save of the task has begun: its agents no longer issue (16 R406). -/
  saving : Bool := false
  /-- It is to be restarted, once the place for its entry can be had (16 R404). -/
  restarting : Bool := false
  /-- The page that a delivery, a save, a restore or a merge of the task waits for, until the replay doorbell (15 R453). -/
  waits : Option Park := none
  spawned : Bool := false
  enqueued : Bool := false
  saves : Nat := 0
  /-- Staging chunks that hold the child views of its merge record while it is saved (08 R455, 16 R411); the children in the order in which
  their views stand there, none for one that had not exited. -/
  mergeChunks : List Nat := []
  staged : List (Option Nat) := []
  /-- Suspended by 13 R329: restored only when its condition holds. -/
  suspended : Bool := false
  deriving DecidableEq, Repr, Inhabited

/-! ### Trees and contexts -/

/-- Code and sums of a band (09 R220, R232). -/
structure Band where
  code : Option Nat := none
  n : Nat := 0
  s : Nat := 0
  left : Nat := 0
  complete : Bool := false
  deriving DecidableEq, Repr, Inhabited

/-- A coverage descriptor (09 R221). -/
structure Coverage where
  base : Nat
  record : Nat
  rowPitch : Nat
  planePitch : Nat
  target : Nat
  cinit : Nat
  cmin : Nat
  cmax : Nat
  stepMax : Nat
  gain : Nat
  es : Int
  lattice : Nat
  errMode : Bool
  etype : Nat
  deriving DecidableEq, Repr, Inhabited

/-- A reducer binding (08 R194). -/
structure Binding where
  result : Nat
  cap : Nat
  deriving DecidableEq, Repr, Inhabited

/-- The dispatch trace a D2 launch records or is bound to (17 R434 to R437). -/
structure Trace where
  addr : Nat
  bind : Bool
  /-- The binding: each determinism packet that binds begins one, which follows the records for itself. -/
  binding : Nat := 0
  launch : Nat := 0
  deriving DecidableEq, Repr, Inhabited

/-- A tree in flight (13 R320 to R323). -/
structure Tree where
  id : Nat
  ctx : Nat
  queue : Nat
  index : Nat
  ordinal : W32
  level : Nat
  record : Nat
  rcd : TaskRec
  code : Nat
  ntask : Nat
  groups : Nat
  last : Nat
  arg : W64
  trapVec : W64
  seed : W64
  prio : Nat
  intr : Bool
  signal : Nat
  heapBase : Nat
  heapSize : Nat
  carve : Nat
  slice : Nat
  binArea : Nat
  binSize : Nat
  /-- The spawn-tree counter (R322). -/
  counter : Nat
  bindings : List (Reducer × Binding) := []
  /-- Filter tag, whether the filter is on, the strand table and the filter pages taken (08 R205, R208). -/
  tag : Option Nat := none
  filter : Bool := false
  strands : List Strand := []
  pages : List Nat := []
  /-- Sweep: extents, tiles created, bands, descriptor; views passed by exited tasks, by tile. -/
  sweep : Bool := false
  ex : Nat := 0
  ey : Nat := 0
  ez : Nat := 0
  /-- The walker's next tile, and the number of tiles. -/
  walker : Nat := 0
  tiles : Nat := 0
  bands : List Band := []
  cov : Option Coverage := none
  /-- The band that the tree's last exit completed, whose record the completion writes (R322, step 3; 09 R234). -/
  due : Option Nat := none
  tops : List Child := []
  trace : Option Trace := none
  /-- The status of a tree that ends (R323, R385), and whether it has been reported (R322, step 4): only its filter tag and pages are
  then still held (08 R205). -/
  ending : Option Nat := none
  reported : Bool := false
  /-- The page that the walker or the completion of the tree waits for, until the replay doorbell (15 R453). -/
  waits : Option Park := none
  deriving DecidableEq, Repr, Inhabited

/-- A queue as the command processor holds it (15 R379 to R384); the descriptor itself stands in memory. -/
structure Queue where
  doorbell : Nat := 0
  level : Nat := 1
  trace : Option Trace := none
  /-- In an indirect buffer: its address, its count and the index of the next packet. -/
  indirect : Option (Nat × Nat × Nat) := none
  /-- The packet read, waiting for its dependences. -/
  packet : Option (List Byte) := none
  /-- The status with which that packet is refused, while its report waits for a page. -/
  refused : Option Nat := none
  /-- A doorbell value that has not been compared with READ, since the descriptor's page was not present (R379). -/
  unchecked : Option Nat := none
  /-- Its descriptor could not be read: the queue is disabled until its next notify (R380). -/
  dead : Bool := false
  parked : Option Park := none
  deriving DecidableEq, Repr, Inhabited

/-- A context (15 R371). -/
structure Ctx where
  ptRoot : Nat
  partition : Nat
  bankCtl : Bool
  nQueues : Nat
  callSpill : Nat
  queueTab : Nat
  deqSpill : Nat
  deqEnt : Nat
  staging : Nat
  chunks : Nat
  filter : Nat
  filterSize : Nat
  events : Nat
  intVec : W32
  /-- Save pool and its slots in use: base, size (16 R394). -/
  poolBase : Nat
  poolSize : Nat
  slots : List (Nat × Nat) := []
  /-- Event count and pages with a page fault outstanding (15 R373, R377). -/
  eventCount : Nat := 0
  faults : List Nat := []
  ordinal : W32 := 0
  queues : Sparse Queue := []
  /-- Event records that wait for their page (15 R453): address and bytes. -/
  heldEvents : List (Nat × List Byte) := []
  /-- Records of bound traces already followed: binding and record number (17 R436). -/
  followed : List (Nat × Nat) := []
  deriving DecidableEq, Repr, Inhabited

/-! ### Clusters, cores, dies -/

/-- Modes of a bank (10 R247). -/
inductive BankMode where
  | cache | scratch | fifo
  deriving DecidableEq, Repr, Inhabited

/-- A bank: mode, the mode a switch in progress gives it, FIFO entries oldest first and their owner (10 R249, R268). -/
structure Bank where
  mode : BankMode := .scratch
  closing : Option BankMode := none
  owner : Option Nat := none
  fifo : List (BitVec 128) := []
  deriving DecidableEq, Repr, Inhabited

/-- A line of the cluster L1 (10 R248, 11 R281): 128 bytes, which are dirty, and the cycles of fill and of the oldest dirty
store. -/
structure L1Line where
  line : Nat
  data : List Byte
  dirty : Bitmap := 0
  filled : Nat := 0
  dirtied : Nat := 0
  deriving DecidableEq, Repr, Inhabited

/-- A TLB entry (15 R376): context, page base and size, the leaf. -/
structure TlbEntry where
  ctx : Nat
  va : Nat
  size : Nat
  leaf : W64
  deriving DecidableEq, Repr, Inhabited

/-- An ACQUIRE request (13 R330). -/
structure AcqReq where
  task : Nat
  since : Nat
  deriving DecidableEq, Repr, Inhabited

/-- The banks at start-up and at a return from quarantine (10 R247). -/
def initialBanks : List Bank := List.replicate 32 { mode := .cache } ++ List.replicate 32 { mode := .scratch }

/-- A cluster (01 R15; 10 R247). Its cycle counter is the die's less `base`. `was` is the partition that it left when it was taken out
of service, to which it returns (17 R428). -/
structure Cluster where
  inService : Bool := true
  admits : Bool := true
  partition : Option Nat := none
  was : Option Nat := none
  base : Nat := 0
  banks : List Bank := initialBanks
  l1 : List L1Line := []
  tlb : List TlbEntry := []
  acq : List AcqReq := []
  /-- The engine's reservation table: task and command ordinal (07 R164). -/
  table : List (Nat × Nat) := []
  /-- The tasks whose BANKMODE has issued and is not performed, in the order of issue; that of the first closes banks (10 R250). -/
  switchers : List Nat := []
  deriving DecidableEq, Repr, Inhabited

/-- The Shouc version of this part, and so of every task (03 R85, R86). -/
def shoucVersion : Nat := 1

/-- A line of a core's decoded-operation and byte caches, tagged by context and Shouc version (03 R87). -/
structure CodeLine where
  ctx : Nat
  version : Nat := shoucVersion
  pa : Nat
  bytes : List Byte
  deriving DecidableEq, Repr, Inhabited

/-- A bundle (02 R38): a task and the threads that issue as one. -/
structure Bundle where
  task : Nat
  threads : List Nat
  deriving DecidableEq, Repr, Inhabited

/-- A core. The deque's last entry is its new end; its first `spilled` entries stand in the spill areas (13 R327). -/
structure Core where
  deque : List Entry := []
  spilled : Nat := 0
  bundles : List Bundle := []
  /-- The task that issued last with the address after its instruction (13 R333); the threads whose bundles are promoted; the slot of the uniform
  stream that issued last, and the tasks whose YIELD passes them over at their next turn (02 R44, 13 R342). -/
  greedy : Option (Nat × Nat) := none
  promoted : List (Nat × Nat) := []
  lastSlot : Nat := 15
  yielded : List Nat := []
  icache : List CodeLine := []
  /-- Lines whose first copy failed its parities, to be fetched once more from home (03 R63). -/
  refetch : List Nat := []
  collector : List GatherReq := []
  /-- The page of a context that an access of the core to a spill area or a trace waits for, until the replay doorbell (13 R327; 15 R453). -/
  waits : Option (Nat × Park) := none
  deriving DecidableEq, Repr, Inhabited

/-- A poste restante slot (12 R306). -/
structure Poste where
  ctx : Nat
  key : W64
  data : List Byte
  receivers : Nat
  deriving DecidableEq, Repr, Inhabited

/-- A compute die with its base die. -/
structure Die where
  ticks : W64 := 0
  /-- Gated cycles in 64ths (01 R26), and thermal gating (R29). -/
  gate : Nat := 0
  hot : Bool := false
  fwUp : Bool := true
  leaseSeen : W64 := 0
  /-- P_d in GiB (10 R246). -/
  postmarkGiB : Nat := 2
  poste : List Poste := []
  deriving DecidableEq, Repr, Inhabited

/-! ### The module -/

/-- Where the module is in its life (01 R29; 17 R431, R433): before or in start-up with the next step, running, tripped by
heat, or stopped at a start-up step. -/
inductive Power where
  | starting (step : Nat)
  | running
  | tripped
  | stopped (step : Nat)
  deriving DecidableEq, Repr, Inhabited

/-- An entry of the start-up record (17 R432). -/
structure FlashEntry where
  outcome : Nat := 0
  method : Nat := 0
  deriving DecidableEq, Repr, Inhabited

/-- A unit that errors are counted against (17 R424). -/
structure ErrUnit where
  cls : UnitClass
  number : Nat
  /-- Readings of the last two errors, oldest first. -/
  times : List Nat
  deriving DecidableEq, Repr, Inhabited

/-- State of an HBM4E channel or another unit being taken out of service (17 R426, R429). -/
structure OutUnit where
  cls : UnitClass
  number : Nat
  /-- A channel that awaits the host's acknowledgement. -/
  awaits : Bool := false
  deriving DecidableEq, Repr, Inhabited

/-- An interrupt message (15 R386). -/
structure Interrupt where
  vec : W32
  ctx : Nat
  queue : Nat
  index : Nat
  deriving DecidableEq, Repr, Inhabited

/-- A management command accepted and not completed (15 R392). -/
structure Mgmt where
  tag : W32
  block : List Byte
  begun : Bool := false
  deriving DecidableEq, Repr, Inhabited

/-- Whose instruction `exec` performs: a task, and its uniform stream or the given threads of one bundle. -/
structure Cur where
  task : Nat := 0
  uniform : Bool := true
  threads : List Nat := []
  deriving DecidableEq, Repr, Inhabited

/-- A choice of what moves next, where the spec leaves the order open (11 R269; 13 R328, R333). -/
inductive Choice where
  /-- A core issues the bundle that 13 R333 chooses among those whose operands have arrived; the numbered bundles' have not. -/
  | issue (core : Nat) (late : List Nat)
  /-- The same, and the load or store that it issues is passed over, to be performed later (11 R274). -/
  | issueLate (core : Nat) (late : List Nat)
  /-- A core's front end issues the uniform stream that 02 R44 chooses; the operands of those of the tasks given have not arrived. -/
  | rotate (core : Nat) (late : List Nat)
  | rotateLate (core : Nat) (late : List Nat)
  /-- An access that an agent has passed over is performed. -/
  | perform (task : Nat) (thread : Option Nat) (n : Nat)
  /-- An agent performs the load at an address of its code before it comes to it (11 R274). -/
  | foresee (task : Nat) (thread : Option Nat) (pc : Nat)
  /-- The operands of threads of a task have not arrived: they leave their bundles (02 R38, R39). -/
  | operandWait (task : Nat) (threads : List Nat)
  /-- The first command of an engine queue reads, or writes, one unit of its ranges ahead of the rest (11 R282, R284). -/
  | copyUnit (task queue : Nat) (write : Bool) (n : Nat)
  /-- The sparse sequencer performs steps of the MMAS at the head of q4, up to a point at which it may stop (07 R180). -/
  | sparseSteps (task n : Nat)
  /-- A machine event. -/
  | event (i : Instr)
  /-- A cycle of a die passes (01 R13). -/
  | tick (die : Nat)
  /-- A TLB entry or a decoded line leaves its cache (timing only, 15 R376, 03 R87). -/
  | dropTlb (cluster n : Nat)
  | dropCode (core n : Nat)
  /-- Whether the relaxed accesses that follow use the L1 where 10 R248 lets them. -/
  | useL1 (b : Bool)
  deriving DecidableEq, Repr, Inhabited

/-- The whole state of the module. -/
structure State where
  power : Power
  flash : List FlashEntry
  powerCap : Nat
  mem : Sparse Byte
  poison : List Nat
  /-- The unit of the uncorrected error that poisoned a line, by its 128-byte line (17 R427). -/
  spoilers : List (Nat × UnitClass × Nat)
  mgmtBlock : List Byte
  mgmtStatus : W64
  mgmt : Option Mgmt
  service : List (BitVec 128)
  interrupts : List Interrupt
  /-- Start-up step numbers and thermal trips reported off the module (01 R29, 17 R433). -/
  reports : List Nat
  errs : List ErrUnit
  out : List OutUnit
  leader : Option Nat
  dies : List Die
  clusters : Sparse Cluster
  cores : Sparse Core
  ctxs : List (Nat × Ctx)
  trees : List Tree
  tasks : List Task
  /-- The model's own: whose instruction is performed, choices fixed for the next steps, steps that took a free choice,
  whether relaxed accesses use the L1, the next handle of a task or tree, saves made. -/
  cur : Cur
  agenda : List Choice
  tick : Nat
  hold : Bool
  nextId : Nat
  saveCount : Nat
  deriving DecidableEq, Repr, Inhabited

/-- Reasons a step stops. -/
inductive Fault where
  /-- A companion access names a physical address that names nothing (15 R375, R387). Raised by COMPANION_ACCESS. Safe: the
  spec gives such an access no effect. -/
  | noSuchAddress
  deriving DecidableEq, Repr

/-- Reasons a step has no meaning. -/
inductive Refusal where
  /-- The instruction named has no meaning in this model yet. Raised by an arm of `exec`. Safe. -/
  | notModelled (mnemonic : String)
  deriving DecidableEq, Repr

/-- A cluster, a core, a barrier with nothing held: the defaults of the sparse maps. -/
def Cluster.init : Cluster := {}
def Core.init : Core := {}

/-- The machine after reset, before start-up: step 1 of 17 R431 is next, the flash is as 17 R432 reads an empty entry, and
every unit is in service (01 R23). -/
def State.reset : State :=
  { power := .starting 1, flash := List.replicate 9 {}, powerCap := 2800, mem := [], poison := [], spoilers := [],
    mgmtBlock := List.replicate 64 0, mgmtStatus := 0, mgmt := none, service := [], interrupts := [], reports := [],
    errs := [], out := [], leader := some 0, dies := [{}, {}, {}], clusters := [], cores := [], ctxs := [], trees := [],
    tasks := [], cur := {}, agenda := [], tick := 0, hold := false, nextId := 1, saveCount := 0 }

end Sys2Proof.Machine
end

