-- ==== Sys2Proof/Config.lean ====
section
/-! DEFINITION. What the spec leaves open for the whole machine, as free values: which agent, engine or event moves next, which of several free
places is taken, and values and layouts that no rule gives. -/

namespace Sys2Proof

/-- The choice of what moves at the n-th step that has no fixed agenda (11 R269 to R283, 13 R328, R333; log entry 1). It has
no body: nothing can be proved of it. -/
opaque Config.freeChoice : Nat → Machine.Choice

/-- What hardware takes one of several free places of (log entry 9). -/
inductive Config.Place where
  /-- A task slot of a core (02 R36). -/
  | taskSlot
  /-- The thread slots of a group of a core (02 R36, R37). -/
  | groupSlots
  /-- A place for a save slot in a context's pool (16 R394). -/
  | savePool
  /-- A staging chunk (08 R197, R455). -/
  | stagingChunk
  /-- A filter tag (08 R205). -/
  | filterTag
  /-- The 64 KiB page of a bin area that takes an update (12 R312). -/
  | binArea
  /-- The SCRATCH banks of a cluster that take a pigeonhole or views (10 R251). -/
  | scratchBank
  deriving DecidableEq, Repr

/-- Which of the free places in a list is taken, at a count of steps (log entry 9). The spec does not say which, and nothing can be
proved of it. -/
opaque Config.freePlace : Config.Place → Nat → List Nat → Nat

/-- The channel, within its stack, of a physical address (17 R429, R430; log entry 7). The spec gives the stack (10 R243)
and no more; nothing can be proved of it. -/
opaque Config.channelOf : Nat → Nat

/-- How many pending updates a bin area of a given number of bytes holds (12 R312, R314; log entry 8). The spec gives the bin
area no layout; nothing can be proved of it. -/
opaque Config.binCapacity : Nat → Nat

/-- Byte k of the 64 that a spilled deque entry takes in its context's deque spill area (13 R327; log entry 44). The spec gives an entry no layout
there; nothing can be proved of it. -/
opaque Config.spillImage : Machine.Entry → Nat → BitVec 8

/-- What XQRY.self gives as the rank of a thread that is no dealer, by the DEALER bitmap and the deal-set lane (14 R364; log
entry 10). The spec gives a rank to dealers only (R356); nothing can be proved of it. -/
opaque Config.rankOfOthers : Nat → Nat → Nat

/-- What CSRRD of TID gives a uniform stream (02 R54; 16 R417; log entry 11), the n-th time that one reads it. R54 lets it read the
register; the spec gives the value for threads only (R37), and nothing can be proved of it. -/
opaque Config.uniformTid : Nat → BitVec 32

/-- The core that the command processor chooses for an entry: that of a flush-and-restart (16 R404), and those of a cluster that is
quarantined (17 R428; log entry 12). A choice outside the partition counts as its lowest core in service; nothing can be proved of it. -/
opaque Config.chosenCore : Nat → Nat

/-- Whether a unit fails the test of a start-up step's alternate method (17 R431; log entry 14), in a start-up that the first argument
numbers. The spec does not say which do; nothing can be proved of it. -/
opaque Config.unitFails : Nat → Nat → Nat → Bool

end Sys2Proof
end

