-- ==== Sys2Proof/Machine/Operands.lean ====
section
/-! DEFINITION. Operand kinds and the static checks of an instruction (03 R68 to R77): for each instruction its executors,
the kind of each field, and what MOD and IMM may hold. The tables are those of 03 R70 to R74, 06 R130 to R153, 07 R166,
08 R209, 09 R235, 10 R256, 12 R296, 13 R339 and R343, 14 R357 and 16 R416. -/

namespace Sys2Proof.Machine

/-- Operand kinds (R69, 10 R257, 12 R296, 08 R213); m1 and a1 are tiles but for index 0 (07 R157). -/
inductive Kind where
  | unused
  | x | xp | xq | xq4
  | s | sEven | sEven2
  | p | m | m1 | a | a1 | h | b
  | code (max : Nat)
  deriving DecidableEq, Repr, Inhabited

/-- X, or XP for a 64-bit value. -/
def Kind.x2 (wide : Bool) : Kind := if wide then .xp else .x

/-- Legal field values (R69). -/
def Kind.legal (k : Kind) (v : Nat) : Bool :=
  match k with
  | .unused => v == 0
  | .x => decide (v ≤ 511)
  | .xp => v % 2 == 0 && decide (v ≤ 510)
  | .xq => v % 4 == 0 && decide (v ≤ 508)
  | .xq4 => v % 4 == 0 && decide (4 ≤ v) && decide (v ≤ 508)
  | .s => decide (v ≤ 63)
  | .sEven => v % 2 == 0 && decide (v ≤ 62)
  | .sEven2 => v % 2 == 0 && decide (2 ≤ v) && decide (v ≤ 62)
  | .p => decide (v ≤ 7)
  | .m => decide (v ≤ 15)
  | .m1 => decide (1 ≤ v) && decide (v ≤ 15)
  | .a => decide (v ≤ 7)
  | .a1 => decide (1 ≤ v) && decide (v ≤ 7)
  | .h => decide (v ≤ 63)
  | .b => decide (v ≤ 15)
  | .code mx => decide (v ≤ mx)

/-- How many general registers a field of the kind names. -/
def Kind.regs (k : Kind) : Nat :=
  match k with
  | .x | .s => 1
  | .xp | .sEven | .sEven2 => 2
  | .xq | .xq4 => 4
  | _ => 0

/-- A field's use: its kind, and whether it is read and written. -/
structure Opnd where
  kind : Kind := .unused
  rd : Bool := false
  wr : Bool := false
  deriving DecidableEq, Repr, Inhabited

def Opnd.none : Opnd := {}
def rd (k : Kind) : Opnd := { kind := k, rd := true }
def wr (k : Kind) : Opnd := { kind := k, wr := true }
def rw (k : Kind) : Opnd := { kind := k, rd := true, wr := true }
def rdP : Opnd := rd .p
def wrP : Opnd := wr .p
def rwP : Opnd := rw .p
def code (mx : Nat) : Opnd := { kind := .code mx }

/-- The static description of one instruction: executors, fields, whether MOD, IMM and the constraints between fields hold,
whether L may be non-zero (R76) and RET (R77), predicates named in MOD and uniform registers named in IMM (0 for none). -/
structure Shape where
  thread : Bool := false
  uniform : Bool := false
  d : Opnd := {}
  a : Opnd := {}
  b : Opnd := {}
  c : Opnd := {}
  ok : Bool := true
  la : Bool := false
  ret : Bool := true
  preds : List Nat := []
  sregs : List (Nat × Nat) := []
  deriving DecidableEq, Repr, Inhabited

def mField (f : Fields) (h l : Nat) : Nat := field f.mod.toNat h l
def mBit (f : Fields) (k : Nat) : Bool := bitAt f.mod.toNat k
def iField (f : Fields) (h l : Nat) : Nat := field f.imm.toNat h l
/-- MOD has no bit outside the mask. -/
def noBits (f : Fields) (mask : Nat) : Bool := f.mod &&& BitVec.ofNat 8 (255 - mask) == 0
/-- SF and SX of format FT (R74). -/
def sField (f : Fields) : Nat := iField f 31 26
def xField (f : Fields) : Nat := iField f 25 20

/-- Kind X, or S in the uniform stream. -/
def xK (f : Fields) : Kind := if f.u then .s else .x
/-- Kind XP, or S in the uniform stream. -/
def addrK (f : Fields) : Kind := if f.u then .s else .xp
/-- Four words (08 R213). -/
def quadK (f : Fields) : Kind := if f.u then .sEven2 else .xq4
/-- Kind of a data operand by WIDTH (10 R257). -/
def dataK (f : Fields) : Kind :=
  match mField f 7 5 with
  | 5 => if f.u then .s else .xp
  | 6 => if f.u then .sEven else .xq
  | _ => if f.u then .s else .x
/-- Kind of a value by ATYPE (08 R193, R209). -/
def typeK (f : Fields) : Kind :=
  if f.u then .s else
    match mField f 2 0 with
    | 2 | 3 | 7 => .xp
    | _ => .x

/-- How an integer instruction uses a source field. -/
inductive IntSrc where
  | none | src | imm
  deriving DecidableEq, Repr

def IntSrc.opnd (s : IntSrc) (k : Kind) : Opnd :=
  match s with
  | .none => {}
  | .src => rd k
  | .imm => {}

/-- Spaces 0x00 and 0x01 (06 R126, R130). -/
def intShape (f : Fields) (mask : Nat) (a b c : IntSrc) : Shape :=
  let k : Kind := if f.u then .s else .x2 (mBit f 7)
  { thread := true, uniform := true, d := wr k, a := a.opnd k, b := b.opnd k, c := c.opnd k,
    ok := noBits f mask && (b == .imm || f.imm == 0) }

/-- TYPE and RND of space 0x02 (R71). -/
def fType (f : Fields) : Nat := mField f 7 5
def fRnd (f : Fields) : Nat := mField f 4 2

/-- Space 0x02 (06 R135). -/
def fpShape (f : Fields) (rounds : Bool) (types : List Nat) (b c : Bool) : Shape :=
  let k : Kind := .x2 (fType f == 1)
  { thread := true, d := wr k, a := rd k, b := if b then rd k else {}, c := if c then rd k else {},
    ok := f.imm == 0 && mField f 1 0 == 0 && types.contains (fType f)
      && (if rounds then decide (fRnd f ≤ 4) || fRnd f == 7 else fRnd f == 0) }

/-- SRC, DST and RND of space 0x03 (06 R143). -/
def cSrc (f : Fields) : Nat := mField f 7 6
def cDst (f : Fields) : Nat := mField f 5 4
def cRnd (f : Fields) : Nat := mField f 3 1

def cvtShape (f : Fields) (src dst : Kind) (ok : Bool) : Shape :=
  { thread := true, d := wr dst, a := rd src, ok := ok && f.imm == 0 }

/-- Space 0x04 (06 R149). -/
def exchShape (f : Fields) (mask : Nat) (_d _b ok la : Bool) : Shape :=
  { thread := true, d := wr (.x2 (mBit f 7)), a := rd (.x2 (mBit f 7)), la := la,
    ok := f.imm == 0 && noBits f mask && ok }

/-- Branches, calls and returns (R73, R80): without a guard, N and PRED are unused (log entry 6). -/
def guardShape (f : Fields) (a : Opnd) (imm : Bool) : Shape :=
  { thread := true, uniform := true, a := a, preds := if mBit f 7 then [mField f 5 3] else [],
    ok := mField f 2 0 == 0 && (mBit f 7 || f.mod == 0) && (imm || f.imm == 0) }

/-- An instruction without operands. -/
def plainShape (f : Fields) (t u : Bool) : Shape :=
  { thread := t, uniform := u, ok := f.mod == 0 && f.imm == 0 }

/-- Space 0x10: accepted WIDTH, ORDER and SCOPE values (10 R256). -/
def memShape (f : Fields) (widths orders : List Nat) (scope : Nat) (s : Shape) : Shape :=
  { s with thread := true, uniform := true
           ok := widths.contains (mField f 7 5) && orders.contains (mField f 4 3) && decide (mField f 2 0 ≤ scope) }

/-- Space 0x20 (07 R165): uniform only, L and RET 0. -/
def tileShape (f : Fields) (mask : Nat) (s : Shape) (ok : Bool) : Shape :=
  { s with uniform := true, ret := false, ok := noBits f mask && ok }

/-- M or A by TSEL, S or H by LOC (07 R166). -/
def tileK (f : Fields) : Kind := if mBit f 7 then .a1 else .m1
def locK (f : Fields) : Kind := if mBit f 6 then .h else .s

/-- The constraints of 07 R166 on TLD and TST: SCOPE; V with LOC 0, stride 0 and SX 0; SC with TSEL 0 and, without V, a
scale address exactly when the tile is in memory. -/
def tileMoveOk (f : Fields) : Bool :=
  decide (mField f 3 1 ≤ 4)
  && (if mBit f 5 then !mBit f 6 && iField f 19 0 == 0 && xField f == 0
      else if mBit f 4 then (if mBit f 6 then xField f == 0 else xField f != 0) else xField f == 0)
  && (!mBit f 4 || !mBit f 7)

/-- The voting predicate of BARA and BARW (13 R343). -/
def voteP (f : Fields) : List Nat := if f.u then [] else [mField f 2 0]
def voteOk (f : Fields) : Bool := if f.u then f.mod == 0 else noBits f 0x07

/-- Whether an agent may read a control register (R54). -/
def csrReadable (thread : Bool) (n : Nat) : Bool :=
  if thread then n == 0x001 || n == 0x011 || n == 0x012 else decide (n ≤ 0x013)
/-- Whether a control register may be written (R54, R418). -/
def csrWritable (n : Nat) : Bool := n == 0x00E || n == 0x011 || n == 0x012 || n == 0x013

/-- The shape of an instruction. A step that is no instruction has no executor. -/
def shape (i : Instr) : Shape :=
  match i with
  | .iadd f =>
    intShape f 0x80 .src .src .none
  | .iaddImm f =>
    intShape f 0x80 .src .imm .none
  | .isub f =>
    intShape f 0x80 .src .src .none
  | .isubImm f =>
    intShape f 0x80 .src .imm .none
  | .iaddc f =>
    { intShape f 0x80 .src .src .none with c := rwP }
  | .iaddcImm f =>
    { intShape f 0x80 .src .imm .none with c := rwP }
  | .imul f =>
    intShape f 0x80 .src .src .none
  | .imulImm f =>
    intShape f 0x80 .src .imm .none
  | .imulh f =>
    intShape f 0x81 .src .src .none
  | .imulhImm f =>
    intShape f 0x81 .src .imm .none
  | .imad f =>
    intShape f 0x80 .src .src .src
  | .imadImm f =>
    intShape f 0x80 .src .imm .src
  | .idiv f =>
    { intShape f 0x81 .src .src .none with la := true }
  | .idivImm f =>
    { intShape f 0x81 .src .imm .none with la := true }
  | .irem f =>
    { intShape f 0x81 .src .src .none with la := true }
  | .iremImm f =>
    { intShape f 0x81 .src .imm .none with la := true }
  | .ineg f =>
    intShape f 0x80 .src .none .none
  | .iabs f =>
    intShape f 0x80 .src .none .none
  | .imin f =>
    intShape f 0x81 .src .src .none
  | .iminImm f =>
    intShape f 0x81 .src .imm .none
  | .imax f =>
    intShape f 0x81 .src .src .none
  | .imaxImm f =>
    intShape f 0x81 .src .imm .none
  | .iand f =>
    intShape f 0x80 .src .src .none
  | .iandImm f =>
    intShape f 0x80 .src .imm .none
  | .ior f =>
    intShape f 0x80 .src .src .none
  | .iorImm f =>
    intShape f 0x80 .src .imm .none
  | .ixor f =>
    intShape f 0x80 .src .src .none
  | .ixorImm f =>
    intShape f 0x80 .src .imm .none
  | .inot f =>
    intShape f 0x80 .src .none .none
  | .ishl f =>
    intShape f 0x80 .src .src .none
  | .ishlImm f =>
    intShape f 0x80 .src .imm .none
  | .ishr f =>
    intShape f 0x80 .src .src .none
  | .ishrImm f =>
    intShape f 0x80 .src .imm .none
  | .isar f =>
    intShape f 0x80 .src .src .none
  | .isarImm f =>
    intShape f 0x80 .src .imm .none
  | .irot f =>
    intShape f 0x80 .src .src .none
  | .irotImm f =>
    intShape f 0x80 .src .imm .none
  | .bfx f =>
    intShape f 0x81 .src .src .none
  | .bfxImm f =>
    intShape f 0x81 .src .imm .none
  | .bfi f =>
    intShape f 0x80 .src .src .src
  | .bfiImm f =>
    intShape f 0x80 .src .imm .src
  | .popc f =>
    intShape f 0x80 .src .none .none
  | .clz f =>
    intShape f 0x80 .src .none .none
  | .ctz f =>
    intShape f 0x80 .src .none .none
  | .brev f =>
    intShape f 0x80 .src .none .none
  | .isel f =>
    { intShape f 0x80 .src .src .none with c := rdP }
  | .iselImm f =>
    { intShape f 0x80 .src .imm .none with c := rdP }
  | .icmp f =>
    let s := intShape f 0x8F .src .src .none
    { s with d := wrP, ok := s.ok && decide (mField f 3 1 ≤ 5) }
  | .icmpImm f =>
    let s := intShape f 0x8F .src .imm .none
    { s with d := wrP, ok := s.ok && decide (mField f 3 1 ≤ 5) }
  | .lea f =>
    intShape f 0x8E .src .src .none
  | .leaImm f =>
    intShape f 0x8E .src .imm .none
  | .mov f =>
    intShape f 0x80 .src .none .none
  | .movi f =>
    intShape f 0x80 .none .imm .none
  | .movhi f =>
    let s := intShape f 0x80 .src .imm .none
    { s with ok := s.ok && mBit f 7 }
  | .sext f =>
    intShape f 0x80 .src .src .none
  | .sextImm f =>
    intShape f 0x80 .src .imm .none
  | .zext f =>
    intShape f 0x80 .src .src .none
  | .zextImm f =>
    intShape f 0x80 .src .imm .none
  | .fadd f =>
    fpShape f true [0, 1, 2, 3] true false
  | .fsub f =>
    fpShape f true [0, 1, 2, 3] true false
  | .fmul f =>
    fpShape f true [0, 1, 2, 3] true false
  | .ffma f =>
    fpShape f true [0, 1, 2, 3] true true
  | .fmin f =>
    fpShape f false [0, 1, 2, 3] true false
  | .fmax f =>
    fpShape f false [0, 1, 2, 3] true false
  | .fcmp f =>
    { fpShape f false [0, 1] true false with d := wrP, ok := mField f 4 2 == 0 && decide (fType f ≤ 1) && f.imm == 0 }
  | .fclass f =>
    { fpShape f false [0, 1, 2, 3] false false with d := wr .x }
  | .frint f =>
    fpShape f true [0, 1, 2, 3] false false
  | .fdiv f =>
    { fpShape f true [0, 1, 2, 3] true false with la := true }
  | .fsqrt f =>
    { fpShape f true [0, 1, 2, 3] false false with la := true }
  | .frcp f =>
    { fpShape f true [0, 2, 3] false false with la := true }
  | .frsq f =>
    { fpShape f true [0, 2, 3] false false with la := true }
  | .fexp2 f =>
    { fpShape f true [0, 2, 3] false false with la := true }
  | .flog2 f =>
    { fpShape f true [0, 2, 3] false false with la := true }
  | .fsin f =>
    { fpShape f true [0, 2, 3] false false with la := true }
  | .fcos f =>
    { fpShape f true [0, 2, 3] false false with la := true }
  | .ftanh f =>
    { fpShape f true [0, 2, 3] false false with la := true }
  | .fsigm f =>
    { fpShape f true [0, 2, 3] false false with la := true }
  | .fscale f =>
    { fpShape f true [0, 1, 2, 3] true false with b := rd .x }
  | .fdot2 f =>
    fpShape f true [2, 3] true true
  | .cvtff f =>
    cvtShape f (.x2 (cSrc f == 0)) (.x2 (cDst f == 0)) (cRnd f != 6)
  | .cvtfi f =>
    cvtShape f (.x2 (cSrc f == 0)) (.x2 (decide (2 ≤ cDst f))) (cRnd f != 6 && cRnd f != 5 && !mBit f 0)
  | .cvtif f =>
    cvtShape f (.x2 (decide (2 ≤ cSrc f))) (.x2 (cDst f == 0)) (cRnd f != 6 && cRnd f != 5)
  | .cvt8 f =>
    { thread := true, d := rw .x, a := rd .x, c := rd .xp,
      b := if mBit f 3 then Opnd.none else rd .x,
      ok := f.imm == 0 && mField f 2 0 == 0 && cSrc f != 0
        && (if cSrc f == 1 then decide (cDst f ≤ 1) else cDst f == 0)
        && (!mBit f 3 || (cSrc f == 1 && cDst f == 0)) }
  | .unp8 f =>
    { thread := true, d := wr .x, a := rd .x, c := rd .xp,
      ok := f.imm == 0 && mField f 3 0 == 0 && cSrc f != 0 && (cSrc f == 1 || decide (cDst f ≤ 1)) }
  | .pack2 f =>
    { cvtShape f .x .x (cSrc f == 1 && decide (2 ≤ cDst f) && cRnd f != 6) with b := rd .x }
  | .unpk2 f =>
    cvtShape f .x .xp (decide (2 ≤ cSrc f) && cDst f == 1 && cRnd f == 0 && !mBit f 0)
  | .qswap f =>
    exchShape f 0x83 true false (mField f 1 0 != 0) false
  | .qbcast f =>
    exchShape f 0x83 true false true false
  | .gshfl f =>
    { exchShape f 0x83 true true true true with b := rd .x }
  | .gvote f =>
    { thread := true, la := true, a := rdP, d := if mField f 1 0 == 2 then wr .x else wrP,
      ok := f.imm == 0 && noBits f 0x03 && mField f 1 0 != 3 }
  | .gred f =>
    exchShape f 0x8F true false (decide (mField f 3 0 ≤ 10)) true
  | .gscan f =>
    exchShape f 0x9F true false (decide (mField f 3 0 ≤ 10)) true
  | .gmatch f =>
    { exchShape f 0x80 true false true true with d := wr .x }
  | .bra f =>
    guardShape f Opnd.none true
  | .brx f =>
    guardShape f (rd (addrK f)) false
  | .call f =>
    guardShape f Opnd.none true
  | .callx f =>
    guardShape f (rd (addrK f)) false
  | .ret f =>
    guardShape f Opnd.none false
  | .pblk f =>
    { thread := true, uniform := true, preds := [mField f 5 3],
      ok := noBits f 0x3F && decide (f.imm.toNat < 2 ^ (mField f 2 0 + 1)) }
  | .exit f =>
    plainShape f true false
  | .yield f =>
    plainShape f true true
  | .nop f =>
    plainShape f true true
  | .swtrap f =>
    { thread := true, uniform := true, ok := f.mod == 0 && decide (f.imm.toNat < 65536) }
  | .ld f =>
    memShape f [0, 1, 2, 3, 4, 5, 6] [0, 1] 4 { d := wr (dataK f), a := rd (addrK f), b := rd (xK f), la := true }
  | .st f =>
    memShape f [0, 2, 4, 5, 6] [0, 2] 4 { a := rd (addrK f), b := rd (xK f), c := rd (dataK f) }
  | .atom f =>
    memShape f [4, 5] [0, 1, 2, 3] 4
      { d := wr (dataK f), a := rd (addrK f), b := code 11, c := rd (dataK f), la := true }
  | .atomcas f =>
    memShape f [4, 5] [0, 1, 2, 3] 4
      { d := wr (dataK f), a := rd (addrK f), b := rd (dataK f), c := rd (dataK f), la := true }
  | .red f =>
    let s := memShape f [4, 5] [0, 2] 4 { a := rd (addrK f), b := code 11, c := rd (dataK f) }
    { s with ok := s.ok && f.b != 8 }
  | .fence f =>
    let s := memShape f [0] [1, 2, 3] 4 {}
    { s with ok := s.ok && f.imm == 0 }
  | .pref f =>
    memShape f [0] [0] 0 { d := code 2, a := rd (addrK f), b := rd (xK f) }
  | .ldh f =>
    memShape f [0, 1, 2, 3, 4, 5, 6] [0] 0 { d := wr (dataK f), a := rd .h, b := rd (xK f), la := true }
  | .sth f =>
    memShape f [0, 2, 4, 5, 6] [0] 0 { a := rd .h, b := rd (xK f), c := rd (dataK f) }
  | .hwait f =>
    { thread := true, uniform := true, a := rd .h, ok := f.mod == 0 && (f.imm == 0 || f.imm == 2) }
  | .hset f =>
    { thread := true, uniform := true, a := rd .h, ok := f.mod == 0 && (f.imm == 0 || f.imm == 2) }
  | .hqry f =>
    { thread := true, uniform := true, d := wr (xK f), a := rd .h, ok := f.mod == 0 && f.imm == 0 }
  | .bankmode f =>
    { uniform := true, a := rd .s, ok := f.mod == 0 && decide (f.imm.toNat ≤ 2) }
  | .fifopush f =>
    let s := memShape f [4, 5, 6] [0, 2] 1 { c := rd (dataK f) }
    { s with ok := s.ok && decide (f.imm.toNat < 64) }
  | .fifopop f =>
    let s := memShape f [4, 5, 6] [0, 1] 1 { d := wr (dataK f), la := true }
    { s with ok := s.ok && decide (f.imm.toNat < 64) }
  | .cpy f =>
    { thread := true, uniform := true, d := if mBit f 7 then wr .h else rd (addrK f),
      a := if mBit f 6 then rd .h else rd (addrK f), b := rd (xK f),
      ok := noBits f 0xF3 && (!mBit f 4 || mBit f 6) && (mBit f 7 || iField f 15 0 == 0)
        && (mBit f 6 || iField f 31 16 == 0) && !(mBit f 7 && mBit f 6 && f.d == f.a) }
  | .cpyt f =>
    { thread := true, uniform := true, a := rd (addrK f), b := rd .h, c := rd (if f.u then .sEven2 else .xq),
      ok := noBits f 0x3B && (!mBit f 4 || mBit f 3) && iField f 31 16 == 0 }
  | .cpyg f =>
    { thread := true, uniform := true, d := wr .h, a := rd (addrK f), b := rd (addrK f), c := rd (addrK f),
      ok := noBits f 0x23 && iField f 31 16 == 0 }
  | .cpys f =>
    { thread := true, uniform := true, d := if mBit f 7 then wr .h else rd (addrK f), b := rd (xK f), c := rd (xK f),
      ok := noBits f 0x83 && iField f 31 16 == 0 && (mBit f 7 || f.imm == 0) }
  | .cpym f =>
    { thread := true, uniform := true, a := rd (addrK f), b := rd .h, c := rd (xK f),
      ok := noBits f 0x13 && iField f 15 13 == 0 && decide (iField f 12 0 ≤ 4096) }
  | .cpyd f =>
    { thread := true, uniform := true, d := wr .h, a := rd (addrK f), ok := noBits f 0x23 && iField f 15 13 == 0 }
  | .seal f =>
    { thread := true, uniform := true, d := wr (xK f), ok := f.mod == 0 && f.imm == 0 }
  | .cwait f =>
    { thread := true, uniform := true, d := wr (xK f), ok := f.mod == 0 && decide (f.imm.toNat ≤ 15) }
  | .qfence f =>
    { thread := true, uniform := true, ok := f.mod == 0 && decide (f.imm.toNat < 256) }
  | .gath f =>
    { thread := true, d := wr (.x2 (mBit f 7)), a := rd .xp, b := rd .x, ok := noBits f 0x8C }
  | .scat f =>
    { thread := true, a := rd .xp, b := rd .x, c := rd (.x2 (mBit f 7)), ok := noBits f 0x8C }
  | .scadd f =>
    { thread := true, a := rd .xp, b := rd .x, c := rd (.x2 (mBit f 0)), ok := noBits f 0x03 }
  | .binflush f =>
    plainShape f true true
  | .tcfg f =>
    tileShape f 0xE0 { d := wr (tileK f) }
      (sField f == 0 && xField f == 0 && iField f 19 13 == 0 && (if mBit f 7 then mField f 6 5 != 3 else mField f 6 5 == 0))
  | .tld f =>
    tileShape f 0xFF { d := wr (tileK f), a := rd (locK f), sregs := [(xField f, 1)] } (sField f == 0 && tileMoveOk f && (!mBit f 5 || !mBit f 4))
  | .tst f =>
    tileShape f 0xFF { d := rd (locK f), a := rd (tileK f), sregs := [(xField f, 1), (sField f, 1)] }
      ((mBit f 5 || sField f == 0) && tileMoveOk f)
  | .tzero f =>
    tileShape f 0x80 { d := wr (tileK f) } (f.imm == 0)
  | .mma f =>
    tileShape f 0 { d := wr .a1, a := rd .m, b := rd .m, c := rd .a, sregs := [(sField f, 1)] } (xField f == 0 && iField f 19 0 == 0)
  | .mmas f =>
    tileShape f 0 { d := wr .a1, a := rd .m, b := rd .m, c := rd .a, sregs := [(sField f, 1), (xField f, 8)] }
      (decide (1 ≤ xField f) && decide (xField f ≤ 56) && iField f 19 0 == 0)
  | .tcvt f =>
    tileShape f 0 { d := wr .m1, a := rd .a1, sregs := [(sField f, 1)] } (xField f == 0 && iField f 19 0 == 0)
  | .accrd f =>
    tileShape f 0x6F { d := rd (locK f), a := rd .a1, sregs := [(sField f, 1)] } (xField f == 0 && decide (mField f 3 1 ≤ 4))
  | .accwr f =>
    tileShape f 0x4F { d := wr .a1, a := rd (locK f), sregs := [(sField f, 1)] } (xField f == 0 && decide (mField f 3 1 ≤ 4))
  | .tstat f =>
    tileShape f 0x80 { d := wr .s, a := rd (tileK f) } (f.imm == 0)
  | .trel f =>
    tileShape f 0x80 { d := wr (tileK f) } (f.imm == 0)
  | .spawn f =>
    { uniform := true, d := wr .s, a := rd .s, b := rd .s, ok := f.mod == 0 && decide (f.imm.toNat < 1024) }
  | .spawnl f =>
    { uniform := true, d := wr .s, a := rd .s, b := rd .s, c := rd .b, ok := f.mod == 0 && decide (f.imm.toNat < 16384) }
  | .sync f =>
    plainShape f false true
  | .acquire f =>
    plainShape f false true
  | .release f =>
    { uniform := true, ok := f.mod == 0 && decide (f.imm.toNat < 2 ^ 23) }
  | .bara f =>
    { thread := true, uniform := true, a := rd .b, preds := voteP f, ok := voteOk f && f.imm == 0 }
  | .barw f =>
    { thread := true, uniform := true, a := rd .b, d := if f.u then wr .s else Opnd.none, preds := voteP f,
      ok := voteOk f && (if f.u then decide (f.imm.toNat ≤ 15) else f.imm == 0) }
  | .dqput f =>
    { uniform := true, a := rd .s, ok := f.mod == 0 && f.imm == 0 }
  | .dqget f =>
    { thread := true, d := wr .xp, la := true, ok := f.mod == 0 && f.imm == 0 }
  | .enq f =>
    { uniform := true, d := wr .s, a := rd .s, b := rd .s, ok := f.mod == 0 && f.imm == 0 }
  | .texit f =>
    plainShape f false true
  | .pedrd f =>
    { uniform := true, d := wr .s, la := true, ok := f.mod == 0 && decide (f.imm.toNat < 64) }
  | .vupd f =>
    { thread := true, uniform := true, a := rd (typeK f), ok := noBits f 0x07 && decide (f.imm.toNat ≤ 15) }
  | .vread f =>
    { thread := true, uniform := true, d := wr (typeK f), la := true, ok := noBits f 0x07 && decide (f.imm.toNat ≤ 15) }
  | .logapp f =>
    { thread := true, uniform := true, a := rd (addrK f), ok := f.mod == 0 && decide (f.imm.toNat ≤ 15) }
  | .rand f =>
    { thread := true, uniform := true, la := true, d := wr (quadK f), a := if mBit f 0 then rd (quadK f) else Opnd.none,
      b := if mBit f 0 then Opnd.none else rd (xK f), c := if mBit f 1 then rd (addrK f) else Opnd.none,
      ok := noBits f 0x03 && f.imm == 0 }
  | .alloc f =>
    { thread := true, uniform := true, la := true, d := wr (addrK f), a := rd (xK f),
      ok := f.mod == 0 && decide (4 ≤ f.imm.toNat) && decide (f.imm.toNat ≤ 12) }
  | .allocCfg f =>
    { uniform := true, la := true, a := rd .s, b := rd .s, ok := f.mod == 1 && f.imm == 0 }
  | .peddg f =>
    { thread := true, uniform := true, la := true, d := wr (addrK f), a := if f.mod == 2 then rd (addrK f) else Opnd.none,
      ok := decide (f.mod.toNat ≤ 2) && f.imm == 0 }
  | .xset f =>
    { thread := true, a := rd .x, b := rd .x,
      ok := noBits f 0xBF && decide (mField f 5 4 ≤ 2) && decide (mField f 3 0 ≤ 10) && f.imm == 0 }
  | .xdeal f =>
    { thread := true, la := true, d := wr .xp, c := wrP, ok := f.mod == 0 && f.imm == 0 }
  | .xred f =>
    { thread := true, a := rd (.x2 (mBit f 7)), ok := noBits f 0x8F && decide (mField f 3 0 ≤ 10) && f.imm == 0 }
  | .xend f =>
    { thread := true, d := wr (.x2 (mBit f 7)), ok := noBits f 0x80 && f.imm == 0 }
  | .xqry f =>
    { thread := true, uniform := true, la := true, d := wr (addrK f),
      ok := f.mod == 0 && decide (iField f 3 0 ≤ 3) && iField f 7 4 == 0 && iField f 15 15 == 0 && iField f 31 20 == 0
        && (if f.u then iField f 3 0 != 2 else iField f 19 16 == 0) }
  | .cvqry f =>
    { thread := true, uniform := true, ret := false, d := wr (xK f), a := rd (xK f), b := rd (xK f), c := rd (xK f),
      ok := f.mod == 0 && f.imm == 0 }
  | .cvqryBand f =>
    { uniform := true, ret := false, d := wr .s, a := rd .s, ok := f.mod == 1 && f.imm == 0 }
  | .cvprobe f =>
    { thread := true, ret := false, d := wr .x, a := rd .x, b := rd .x, c := rd .x, ok := f.mod == 0 && f.imm == 0 }
  | .recon f =>
    { plainShape f false true with ret := false }
  | .cverr f =>
    { thread := true, ret := false, a := rd .x, ok := f.mod == 0 && f.imm == 0 }
  | .csrrd f =>
    { thread := true, uniform := true, la := true, d := wr (xK f), ok := f.mod == 0 && csrReadable (!f.u) f.imm.toNat }
  | .csrwr f =>
    { uniform := true, a := rd .s, ok := f.mod == 0 && csrWritable f.imm.toNat }
  | .trapret f =>
    { uniform := true, ok := f.mod == 0 && decide (f.imm.toNat < 4) }
  | .cycle f =>
    { thread := true, uniform := true, la := true, d := wr (addrK f), ok := f.mod == 0 && f.imm == 0 }
  | .bkpt f =>
    { thread := true, uniform := true, ok := f.mod == 0 && decide (f.imm.toNat < 65536) }
  | .icsync f =>
    plainShape f false true
  | .tlbinv f =>
    { uniform := true, a := if f.mod == 1 then Opnd.none else rd .s, b := if f.mod == 1 then Opnd.none else rd .s,
      ok := decide (f.mod.toNat ≤ 1) && f.imm == 0 }
  | .holeStall _ => {}
  | .copyCommandPerformed _ _ => {}
  | .multicastPark _ _ => {}
  | .multicastDrain _ _ => {}
  | .collectorWindow _ => {}
  | .matrixCommandPerformed _ => {}
  | .matrixHeadAging _ => {}
  | .mergeCommand _ => {}
  | .acquireGrant _ => {}
  | .trapDelivery _ => {}
  | .queueDoorbell _ _ _ => {}
  | .treeLaunch _ _ => {}
  | .sweepLaunch _ _ => {}
  | .determinismPacket _ _ => {}
  | .indirectBuffer _ _ => {}
  | .launchStart _ _ _ => {}
  | .sweepTaskCreation _ _ => {}
  | .taskStart _ => {}
  | .steal _ _ => {}
  | .dequeRelief _ => {}
  | .acquireRelief _ => {}
  | .restore _ _ => {}
  | .treeComplete _ => {}
  | .replayDoorbell _ => {}
  | .createContext _ => {}
  | .destroyContext _ => {}
  | .setPartition _ => {}
  | .setPowerCap _ => {}
  | .preempt _ => {}
  | .drainBudget _ => {}
  | .resetStartup _ => {}
  | .channelAck _ => {}
  | .serviceUnit _ _ => {}
  | .setPostmark _ => {}
  | .hostRegisterWindow _ _ => {}
  | .companionAccess _ _ _ => {}
  | .l1WriteBack _ _ => {}
  | .l1CleanDrop _ _ => {}
  | .issuePromotion _ => {}
  | .issueGating _ _ => {}
  | .thermalGating _ => {}
  | .thermalTrip => {}
  | .leaseRenewal => {}
  | .leaseTakeover _ => {}
  | .correctedError _ _ => {}
  | .uncorrectedError _ => {}
  | .startup _ _ => {}
  | .unassignedOpcode _ => {}
  | .bundleFormation _ => {}
  | .badCommand _ => {}
  | .unknownPacketType _ _ => {}
  | .thermalGatingRelease _ => {}
  | .filterTagReturn _ => {}

/-- The check of one field. -/
def Opnd.legal (o : Opnd) (v : BitVec 9) : Bool := o.kind.legal v.toNat

/-- A field that the instruction reads as a register of R47 (R77). -/
def Opnd.retainable (o : Opnd) : Bool :=
  o.rd && match o.kind with
    | .unused | .h | .b | .code _ => false
    | _ => true

/-- RET names nothing, or a source that is read as a register (R77). -/
def retainOk (s : Shape) (f : Fields) : Bool :=
  match f.ret.toNat with
  | 0 => true
  | 1 => s.ret && s.a.retainable
  | 2 => s.ret && s.b.retainable
  | _ => s.ret && s.c.retainable

/-- The static checks of R68, R69, R76 and R77 against the executor that U names. -/
def Shape.legal (s : Shape) (f : Fields) : Bool :=
  (if f.u then s.uniform else s.thread)
  && s.d.legal f.d && s.a.legal f.a && s.b.legal f.b && s.c.legal f.c
  && s.ok && (s.la || f.la == 0) && retainOk s f

/-- General registers named by one field: first and count. A field of 0 names none: as a 64-bit operand it reads 0 from both halves (02 R47),
so x1 is not part of it (log entry 68). -/
def Opnd.span (o : Opnd) (v : BitVec 9) : Nat × Nat := if v = 0 then (0, 0) else (v.toNat, o.kind.regs)

/-- The general registers that an instruction names (R52, R75). -/
def Shape.named (s : Shape) (f : Fields) : List (Nat × Nat) :=
  [s.d.span f.d, s.a.span f.a, s.b.span f.b, s.c.span f.c] ++ s.sregs

/-- The predicates that an instruction names. -/
def Shape.namedPreds (s : Shape) (f : Fields) : List Nat :=
  (if s.d.kind = .p then [f.d.toNat] else []) ++ (if s.a.kind = .p then [f.a.toNat] else [])
  ++ (if s.b.kind = .p then [f.b.toNat] else []) ++ (if s.c.kind = .p then [f.c.toNat] else []) ++ s.preds

/-- Highest register of a span. -/
def spanTop (sp : Nat × Nat) : Nat := if sp.2 = 0 then 0 else sp.1 + sp.2 - 1

/-- Whether two spans of registers meet, register 0 set apart. -/
def spansMeet (p q : Nat × Nat) : Bool :=
  decide (max (max p.1 q.1) 1 < min (p.1 + p.2) (q.1 + q.2))

/-- The pigeonholes, multiplicand tiles and accumulator tiles named. -/
def Shape.fieldsOf (s : Shape) (f : Fields) (ks : List Kind) : List Nat :=
  (if ks.contains s.d.kind then [f.d.toNat] else []) ++ (if ks.contains s.a.kind then [f.a.toNat] else [])
  ++ (if ks.contains s.b.kind then [f.b.toNat] else []) ++ (if ks.contains s.c.kind then [f.c.toNat] else [])

/-- Whether an instruction is well formed: it may be executed by the executor that U names without ILLEGAL_OP. -/
def Instr.legal (i : Instr) : Bool :=
  match i.fields? with
  | some f => (shape i).legal f
  | none => true

end Sys2Proof.Machine
end

