-- ==== Sys2Proof/WellFormed.lean ====
section
/-! DEFINITION. Well-formed instructions (03 R68, R69, R76, R77): those whose word the decoder reads back and that no static
check refuses. An ill-formed one is still decoded and traps with ILLEGAL_OP when executed. -/

namespace Sys2Proof

/-- The two rows that share a code are told apart by MOD bit 0 (08 R209, 09 R235). -/
def Instr.splitOk (i : Instr) : Bool :=
  match i with
  | .alloc f => !Machine.bitAt f.mod.toNat 0
  | .allocCfg f => Machine.bitAt f.mod.toNat 0
  | .cvqry f => !Machine.bitAt f.mod.toNat 0
  | .cvqryBand f => Machine.bitAt f.mod.toNat 0
  | _ => true

/-- Well-formed as an instruction of the executor that its U bit names. -/
def Instr.wellFormed (i : Instr) : Bool := i.fields?.isSome && i.splitOk && Machine.Instr.legal i

end Sys2Proof
end

