-- ==== Sys2Proof/Decode.lean ====
section
/-! DEFINITION. The decoder and the encoder of 96-bit instruction words (03 R67, R82 to R84), and the bytes of a slot (R61).
Decoding is total on words: a word whose MAJOR and MINOR name no instruction is the row UNASSIGNED_OPCODE. A word whose
fields break R69 decodes to its instruction, which then traps with ILLEGAL_OP. -/

namespace Sys2Proof

open Machine

/-- The fields of a word (R67). -/
def Fields.ofWord (w : InstrWord) : Fields :=
  { u := w.getLsbD 88, la := w.extractLsb' 84 4, ret := w.extractLsb' 82 2, d := w.extractLsb' 73 9,
    a := w.extractLsb' 64 9, b := w.extractLsb' 55 9, c := w.extractLsb' 46 9, mod := w.extractLsb' 32 8,
    imm := w.extractLsb' 0 32 }

/-- MAJOR and MINOR of a word (R67). -/
def majorOf (w : InstrWord) : Nat := (w.extractLsb' 89 7).toNat
def minorOf (w : InstrWord) : Nat := (w.extractLsb' 40 6).toNat

/-- The word with given MAJOR, MINOR and fields (R67). -/
def Fields.toWord (f : Fields) (major minor : Nat) : InstrWord :=
  BitVec.ofNat 7 major ++ BitVec.ofBool f.u ++ f.la ++ f.ret ++ f.d ++ f.a ++ f.b ++ f.c ++ BitVec.ofNat 6 minor
    ++ f.mod ++ f.imm

/-- Minor codes of space 0x00 (R83). -/
def decodeIntReg (minor : Nat) (f : Fields) : Option Instr :=
  match minor with
  | 0x01 => some (.iadd f)
  | 0x02 => some (.isub f)
  | 0x03 => some (.iaddc f)
  | 0x04 => some (.imul f)
  | 0x05 => some (.imulh f)
  | 0x06 => some (.imad f)
  | 0x07 => some (.idiv f)
  | 0x08 => some (.irem f)
  | 0x09 => some (.ineg f)
  | 0x0A => some (.iabs f)
  | 0x0B => some (.imin f)
  | 0x0C => some (.imax f)
  | 0x0D => some (.iand f)
  | 0x0E => some (.ior f)
  | 0x0F => some (.ixor f)
  | 0x10 => some (.inot f)
  | 0x11 => some (.ishl f)
  | 0x12 => some (.ishr f)
  | 0x13 => some (.isar f)
  | 0x14 => some (.irot f)
  | 0x15 => some (.bfx f)
  | 0x16 => some (.bfi f)
  | 0x17 => some (.popc f)
  | 0x18 => some (.clz f)
  | 0x19 => some (.ctz f)
  | 0x1A => some (.brev f)
  | 0x1B => some (.isel f)
  | 0x1C => some (.icmp f)
  | 0x1D => some (.lea f)
  | 0x1E => some (.mov f)
  | 0x21 => some (.sext f)
  | 0x22 => some (.zext f)
  | _ => none

/-- Minor codes of space 0x01 (R83). -/
def decodeIntImm (minor : Nat) (f : Fields) : Option Instr :=
  match minor with
  | 0x01 => some (.iaddImm f)
  | 0x02 => some (.isubImm f)
  | 0x03 => some (.iaddcImm f)
  | 0x04 => some (.imulImm f)
  | 0x05 => some (.imulhImm f)
  | 0x06 => some (.imadImm f)
  | 0x07 => some (.idivImm f)
  | 0x08 => some (.iremImm f)
  | 0x0B => some (.iminImm f)
  | 0x0C => some (.imaxImm f)
  | 0x0D => some (.iandImm f)
  | 0x0E => some (.iorImm f)
  | 0x0F => some (.ixorImm f)
  | 0x11 => some (.ishlImm f)
  | 0x12 => some (.ishrImm f)
  | 0x13 => some (.isarImm f)
  | 0x14 => some (.irotImm f)
  | 0x15 => some (.bfxImm f)
  | 0x16 => some (.bfiImm f)
  | 0x1B => some (.iselImm f)
  | 0x1C => some (.icmpImm f)
  | 0x1D => some (.leaImm f)
  | 0x1F => some (.movi f)
  | 0x20 => some (.movhi f)
  | 0x21 => some (.sextImm f)
  | 0x22 => some (.zextImm f)
  | _ => none

/-- Minor codes of space 0x02 (R83). -/
def decodeFp (minor : Nat) (f : Fields) : Option Instr :=
  match minor with
  | 0x01 => some (.fadd f)
  | 0x02 => some (.fsub f)
  | 0x03 => some (.fmul f)
  | 0x04 => some (.ffma f)
  | 0x05 => some (.fmin f)
  | 0x06 => some (.fmax f)
  | 0x07 => some (.fcmp f)
  | 0x08 => some (.fclass f)
  | 0x09 => some (.frint f)
  | 0x0A => some (.fdiv f)
  | 0x0B => some (.fsqrt f)
  | 0x0C => some (.frcp f)
  | 0x0D => some (.frsq f)
  | 0x0E => some (.fexp2 f)
  | 0x0F => some (.flog2 f)
  | 0x10 => some (.fsin f)
  | 0x11 => some (.fcos f)
  | 0x12 => some (.ftanh f)
  | 0x13 => some (.fsigm f)
  | 0x14 => some (.fscale f)
  | 0x15 => some (.fdot2 f)
  | _ => none

/-- Minor codes of space 0x03 (R83). -/
def decodeConv (minor : Nat) (f : Fields) : Option Instr :=
  match minor with
  | 0x01 => some (.cvtff f)
  | 0x02 => some (.cvtfi f)
  | 0x03 => some (.cvtif f)
  | 0x04 => some (.cvt8 f)
  | 0x05 => some (.unp8 f)
  | 0x06 => some (.pack2 f)
  | 0x07 => some (.unpk2 f)
  | _ => none

/-- Minor codes of space 0x04 (R83). -/
def decodeExch (minor : Nat) (f : Fields) : Option Instr :=
  match minor with
  | 0x01 => some (.qswap f)
  | 0x02 => some (.qbcast f)
  | 0x03 => some (.gshfl f)
  | 0x04 => some (.gvote f)
  | 0x05 => some (.gred f)
  | 0x06 => some (.gscan f)
  | 0x07 => some (.gmatch f)
  | _ => none

/-- Minor codes of space 0x08 (R83). -/
def decodeControl (minor : Nat) (f : Fields) : Option Instr :=
  match minor with
  | 0x01 => some (.bra f)
  | 0x02 => some (.brx f)
  | 0x03 => some (.call f)
  | 0x04 => some (.callx f)
  | 0x05 => some (.ret f)
  | 0x06 => some (.pblk f)
  | 0x07 => some (.exit f)
  | 0x08 => some (.yield f)
  | 0x09 => some (.nop f)
  | 0x0A => some (.swtrap f)
  | _ => none

/-- Minor codes of space 0x10 (R83). -/
def decodeMemory (minor : Nat) (f : Fields) : Option Instr :=
  match minor with
  | 0x01 => some (.ld f)
  | 0x02 => some (.st f)
  | 0x03 => some (.atom f)
  | 0x04 => some (.atomcas f)
  | 0x05 => some (.red f)
  | 0x06 => some (.fence f)
  | 0x07 => some (.pref f)
  | 0x08 => some (.ldh f)
  | 0x09 => some (.sth f)
  | 0x0A => some (.hwait f)
  | 0x0B => some (.hset f)
  | 0x0C => some (.hqry f)
  | 0x0D => some (.bankmode f)
  | 0x0E => some (.fifopush f)
  | 0x0F => some (.fifopop f)
  | _ => none

/-- Minor codes of space 0x18 (R83). -/
def decodeCopy (minor : Nat) (f : Fields) : Option Instr :=
  match minor with
  | 0x01 => some (.cpy f)
  | 0x02 => some (.cpyt f)
  | 0x03 => some (.cpyg f)
  | 0x04 => some (.cpys f)
  | 0x05 => some (.cpym f)
  | 0x06 => some (.cpyd f)
  | 0x07 => some (.seal f)
  | 0x08 => some (.cwait f)
  | 0x09 => some (.qfence f)
  | 0x10 => some (.gath f)
  | 0x11 => some (.scat f)
  | 0x12 => some (.scadd f)
  | 0x13 => some (.binflush f)
  | _ => none

/-- Minor codes of space 0x20 (R83). -/
def decodeMatrix (minor : Nat) (f : Fields) : Option Instr :=
  match minor with
  | 0x01 => some (.tcfg f)
  | 0x02 => some (.tld f)
  | 0x03 => some (.tst f)
  | 0x04 => some (.tzero f)
  | 0x05 => some (.mma f)
  | 0x06 => some (.mmas f)
  | 0x07 => some (.tcvt f)
  | 0x08 => some (.accrd f)
  | 0x09 => some (.accwr f)
  | 0x0A => some (.tstat f)
  | 0x0B => some (.trel f)
  | _ => none

/-- Minor codes of space 0x28 (R83). -/
def decodeTasks (minor : Nat) (f : Fields) : Option Instr :=
  match minor with
  | 0x01 => some (.spawn f)
  | 0x02 => some (.spawnl f)
  | 0x03 => some (.sync f)
  | 0x04 => some (.acquire f)
  | 0x05 => some (.release f)
  | 0x06 => some (.bara f)
  | 0x07 => some (.barw f)
  | 0x08 => some (.dqput f)
  | 0x09 => some (.dqget f)
  | 0x0A => some (.enq f)
  | 0x0B => some (.texit f)
  | 0x0C => some (.pedrd f)
  | _ => none

/-- Minor codes of space 0x29 (R83). -/
def decodeDet (minor : Nat) (f : Fields) : Option Instr :=
  match minor with
  | 0x01 => some (.vupd f)
  | 0x02 => some (.vread f)
  | 0x03 => some (.logapp f)
  | 0x04 => some (.rand f)
  | 0x05 => some (if bitAt f.mod.toNat 0 then .allocCfg f else .alloc f)
  | 0x06 => some (.peddg f)
  | _ => none

/-- Minor codes of space 0x2A (R83). -/
def decodeExpand (minor : Nat) (f : Fields) : Option Instr :=
  match minor with
  | 0x01 => some (.xset f)
  | 0x02 => some (.xdeal f)
  | 0x03 => some (.xred f)
  | 0x04 => some (.xend f)
  | 0x05 => some (.xqry f)
  | _ => none

/-- Minor codes of space 0x2B (R83). -/
def decodeCover (minor : Nat) (f : Fields) : Option Instr :=
  match minor with
  | 0x01 => some (if bitAt f.mod.toNat 0 then .cvqryBand f else .cvqry f)
  | 0x02 => some (.cvprobe f)
  | 0x03 => some (.recon f)
  | 0x04 => some (.cverr f)
  | _ => none

/-- Minor codes of space 0x30 (R83). -/
def decodeSystem (minor : Nat) (f : Fields) : Option Instr :=
  match minor with
  | 0x01 => some (.csrrd f)
  | 0x02 => some (.csrwr f)
  | 0x03 => some (.trapret f)
  | 0x04 => some (.cycle f)
  | 0x05 => some (.bkpt f)
  | 0x06 => some (.icsync f)
  | 0x07 => some (.tlbinv f)
  | _ => none

/-- The instruction of an assigned MAJOR and MINOR (R82, R83). -/
def decodeOp (major minor : Nat) (f : Fields) : Option Instr :=
  match major with
  | 0x00 => decodeIntReg minor f
  | 0x01 => decodeIntImm minor f
  | 0x02 => decodeFp minor f
  | 0x03 => decodeConv minor f
  | 0x04 => decodeExch minor f
  | 0x08 => decodeControl minor f
  | 0x10 => decodeMemory minor f
  | 0x18 => decodeCopy minor f
  | 0x20 => decodeMatrix minor f
  | 0x28 => decodeTasks minor f
  | 0x29 => decodeDet minor f
  | 0x2A => decodeExpand minor f
  | 0x2B => decodeCover minor f
  | 0x30 => decodeSystem minor f
  | _ => none

/-- The instruction of a word. -/
def decode (w : InstrWord) : Instr :=
  match decodeOp (majorOf w) (minorOf w) (Fields.ofWord w) with
  | some i => i
  | none => .unassignedOpcode w

/-- Why bytes are no instruction. -/
inductive DecodeError where
  /-- A slot holds twelve bytes (R61). -/
  | notTwelveBytes (n : Nat)
  deriving DecidableEq, Repr

/-- Twelve bytes of a slot, little-endian (R3, R67), as a word. -/
def wordOfBytes (bs : List Byte) : InstrWord := BitVec.ofNat 96 (ofLE bs)

/-- Decode the bytes of a slot; any other number of bytes is rejected by name. -/
def decodeBytes (bs : List Byte) : Except DecodeError Instr :=
  if bs.length = 12 then .ok (decode (wordOfBytes bs)) else .error (.notTwelveBytes bs.length)

/-- The bytes of a word in a slot. -/
def bytesOfWord (w : InstrWord) : List Byte := leBytes 12 w.toNat

/-- The instruction of a table word: its bits as numbered by the table, in a slot's bytes, through the decoder. -/
def decodeTableWord (nbits w : Nat) : Option Instr :=
  if nbits ≤ 96 then
    match decodeBytes (bytesOfWord (BitVec.ofNat 96 (w % 2 ^ nbits))) with
    | .ok i => some i
    | .error _ => none
  else none

/-- MAJOR and MINOR of an instruction (R83); none for a step that is no instruction. -/
def Instr.opcode? (i : Instr) : Option (Nat × Nat) :=
  match i with
  | .iadd _ => some (0x00, 0x01)
  | .iaddImm _ => some (0x01, 0x01)
  | .isub _ => some (0x00, 0x02)
  | .isubImm _ => some (0x01, 0x02)
  | .iaddc _ => some (0x00, 0x03)
  | .iaddcImm _ => some (0x01, 0x03)
  | .imul _ => some (0x00, 0x04)
  | .imulImm _ => some (0x01, 0x04)
  | .imulh _ => some (0x00, 0x05)
  | .imulhImm _ => some (0x01, 0x05)
  | .imad _ => some (0x00, 0x06)
  | .imadImm _ => some (0x01, 0x06)
  | .idiv _ => some (0x00, 0x07)
  | .idivImm _ => some (0x01, 0x07)
  | .irem _ => some (0x00, 0x08)
  | .iremImm _ => some (0x01, 0x08)
  | .ineg _ => some (0x00, 0x09)
  | .iabs _ => some (0x00, 0x0A)
  | .imin _ => some (0x00, 0x0B)
  | .iminImm _ => some (0x01, 0x0B)
  | .imax _ => some (0x00, 0x0C)
  | .imaxImm _ => some (0x01, 0x0C)
  | .iand _ => some (0x00, 0x0D)
  | .iandImm _ => some (0x01, 0x0D)
  | .ior _ => some (0x00, 0x0E)
  | .iorImm _ => some (0x01, 0x0E)
  | .ixor _ => some (0x00, 0x0F)
  | .ixorImm _ => some (0x01, 0x0F)
  | .inot _ => some (0x00, 0x10)
  | .ishl _ => some (0x00, 0x11)
  | .ishlImm _ => some (0x01, 0x11)
  | .ishr _ => some (0x00, 0x12)
  | .ishrImm _ => some (0x01, 0x12)
  | .isar _ => some (0x00, 0x13)
  | .isarImm _ => some (0x01, 0x13)
  | .irot _ => some (0x00, 0x14)
  | .irotImm _ => some (0x01, 0x14)
  | .bfx _ => some (0x00, 0x15)
  | .bfxImm _ => some (0x01, 0x15)
  | .bfi _ => some (0x00, 0x16)
  | .bfiImm _ => some (0x01, 0x16)
  | .popc _ => some (0x00, 0x17)
  | .clz _ => some (0x00, 0x18)
  | .ctz _ => some (0x00, 0x19)
  | .brev _ => some (0x00, 0x1A)
  | .isel _ => some (0x00, 0x1B)
  | .iselImm _ => some (0x01, 0x1B)
  | .icmp _ => some (0x00, 0x1C)
  | .icmpImm _ => some (0x01, 0x1C)
  | .lea _ => some (0x00, 0x1D)
  | .leaImm _ => some (0x01, 0x1D)
  | .mov _ => some (0x00, 0x1E)
  | .movi _ => some (0x01, 0x1F)
  | .movhi _ => some (0x01, 0x20)
  | .sext _ => some (0x00, 0x21)
  | .sextImm _ => some (0x01, 0x21)
  | .zext _ => some (0x00, 0x22)
  | .zextImm _ => some (0x01, 0x22)
  | .fadd _ => some (0x02, 0x01)
  | .fsub _ => some (0x02, 0x02)
  | .fmul _ => some (0x02, 0x03)
  | .ffma _ => some (0x02, 0x04)
  | .fmin _ => some (0x02, 0x05)
  | .fmax _ => some (0x02, 0x06)
  | .fcmp _ => some (0x02, 0x07)
  | .fclass _ => some (0x02, 0x08)
  | .frint _ => some (0x02, 0x09)
  | .fdiv _ => some (0x02, 0x0A)
  | .fsqrt _ => some (0x02, 0x0B)
  | .frcp _ => some (0x02, 0x0C)
  | .frsq _ => some (0x02, 0x0D)
  | .fexp2 _ => some (0x02, 0x0E)
  | .flog2 _ => some (0x02, 0x0F)
  | .fsin _ => some (0x02, 0x10)
  | .fcos _ => some (0x02, 0x11)
  | .ftanh _ => some (0x02, 0x12)
  | .fsigm _ => some (0x02, 0x13)
  | .fscale _ => some (0x02, 0x14)
  | .fdot2 _ => some (0x02, 0x15)
  | .cvtff _ => some (0x03, 0x01)
  | .cvtfi _ => some (0x03, 0x02)
  | .cvtif _ => some (0x03, 0x03)
  | .cvt8 _ => some (0x03, 0x04)
  | .unp8 _ => some (0x03, 0x05)
  | .pack2 _ => some (0x03, 0x06)
  | .unpk2 _ => some (0x03, 0x07)
  | .qswap _ => some (0x04, 0x01)
  | .qbcast _ => some (0x04, 0x02)
  | .gshfl _ => some (0x04, 0x03)
  | .gvote _ => some (0x04, 0x04)
  | .gred _ => some (0x04, 0x05)
  | .gscan _ => some (0x04, 0x06)
  | .gmatch _ => some (0x04, 0x07)
  | .bra _ => some (0x08, 0x01)
  | .brx _ => some (0x08, 0x02)
  | .call _ => some (0x08, 0x03)
  | .callx _ => some (0x08, 0x04)
  | .ret _ => some (0x08, 0x05)
  | .pblk _ => some (0x08, 0x06)
  | .exit _ => some (0x08, 0x07)
  | .yield _ => some (0x08, 0x08)
  | .nop _ => some (0x08, 0x09)
  | .swtrap _ => some (0x08, 0x0A)
  | .ld _ => some (0x10, 0x01)
  | .st _ => some (0x10, 0x02)
  | .atom _ => some (0x10, 0x03)
  | .atomcas _ => some (0x10, 0x04)
  | .red _ => some (0x10, 0x05)
  | .fence _ => some (0x10, 0x06)
  | .pref _ => some (0x10, 0x07)
  | .ldh _ => some (0x10, 0x08)
  | .sth _ => some (0x10, 0x09)
  | .hwait _ => some (0x10, 0x0A)
  | .hset _ => some (0x10, 0x0B)
  | .hqry _ => some (0x10, 0x0C)
  | .bankmode _ => some (0x10, 0x0D)
  | .fifopush _ => some (0x10, 0x0E)
  | .fifopop _ => some (0x10, 0x0F)
  | .holeStall _ => none
  | .cpy _ => some (0x18, 0x01)
  | .cpyt _ => some (0x18, 0x02)
  | .cpyg _ => some (0x18, 0x03)
  | .cpys _ => some (0x18, 0x04)
  | .cpym _ => some (0x18, 0x05)
  | .cpyd _ => some (0x18, 0x06)
  | .seal _ => some (0x18, 0x07)
  | .cwait _ => some (0x18, 0x08)
  | .qfence _ => some (0x18, 0x09)
  | .gath _ => some (0x18, 0x10)
  | .scat _ => some (0x18, 0x11)
  | .scadd _ => some (0x18, 0x12)
  | .binflush _ => some (0x18, 0x13)
  | .copyCommandPerformed _ _ => none
  | .multicastPark _ _ => none
  | .multicastDrain _ _ => none
  | .collectorWindow _ => none
  | .tcfg _ => some (0x20, 0x01)
  | .tld _ => some (0x20, 0x02)
  | .tst _ => some (0x20, 0x03)
  | .tzero _ => some (0x20, 0x04)
  | .mma _ => some (0x20, 0x05)
  | .mmas _ => some (0x20, 0x06)
  | .tcvt _ => some (0x20, 0x07)
  | .accrd _ => some (0x20, 0x08)
  | .accwr _ => some (0x20, 0x09)
  | .tstat _ => some (0x20, 0x0A)
  | .trel _ => some (0x20, 0x0B)
  | .matrixCommandPerformed _ => none
  | .matrixHeadAging _ => none
  | .spawn _ => some (0x28, 0x01)
  | .spawnl _ => some (0x28, 0x02)
  | .sync _ => some (0x28, 0x03)
  | .mergeCommand _ => none
  | .acquire _ => some (0x28, 0x04)
  | .acquireGrant _ => none
  | .release _ => some (0x28, 0x05)
  | .bara _ => some (0x28, 0x06)
  | .barw _ => some (0x28, 0x07)
  | .dqput _ => some (0x28, 0x08)
  | .dqget _ => some (0x28, 0x09)
  | .enq _ => some (0x28, 0x0A)
  | .texit _ => some (0x28, 0x0B)
  | .pedrd _ => some (0x28, 0x0C)
  | .vupd _ => some (0x29, 0x01)
  | .vread _ => some (0x29, 0x02)
  | .logapp _ => some (0x29, 0x03)
  | .rand _ => some (0x29, 0x04)
  | .alloc _ => some (0x29, 0x05)
  | .allocCfg _ => some (0x29, 0x05)
  | .peddg _ => some (0x29, 0x06)
  | .xset _ => some (0x2A, 0x01)
  | .xdeal _ => some (0x2A, 0x02)
  | .xred _ => some (0x2A, 0x03)
  | .xend _ => some (0x2A, 0x04)
  | .xqry _ => some (0x2A, 0x05)
  | .cvqry _ => some (0x2B, 0x01)
  | .cvqryBand _ => some (0x2B, 0x01)
  | .cvprobe _ => some (0x2B, 0x02)
  | .recon _ => some (0x2B, 0x03)
  | .cverr _ => some (0x2B, 0x04)
  | .csrrd _ => some (0x30, 0x01)
  | .csrwr _ => some (0x30, 0x02)
  | .trapret _ => some (0x30, 0x03)
  | .cycle _ => some (0x30, 0x04)
  | .bkpt _ => some (0x30, 0x05)
  | .icsync _ => some (0x30, 0x06)
  | .tlbinv _ => some (0x30, 0x07)
  | .trapDelivery _ => none
  | .queueDoorbell _ _ _ => none
  | .treeLaunch _ _ => none
  | .sweepLaunch _ _ => none
  | .determinismPacket _ _ => none
  | .indirectBuffer _ _ => none
  | .launchStart _ _ _ => none
  | .sweepTaskCreation _ _ => none
  | .taskStart _ => none
  | .steal _ _ => none
  | .dequeRelief _ => none
  | .acquireRelief _ => none
  | .restore _ _ => none
  | .treeComplete _ => none
  | .replayDoorbell _ => none
  | .createContext _ => none
  | .destroyContext _ => none
  | .setPartition _ => none
  | .setPowerCap _ => none
  | .preempt _ => none
  | .drainBudget _ => none
  | .resetStartup _ => none
  | .channelAck _ => none
  | .serviceUnit _ _ => none
  | .setPostmark _ => none
  | .hostRegisterWindow _ _ => none
  | .companionAccess _ _ _ => none
  | .l1WriteBack _ _ => none
  | .l1CleanDrop _ _ => none
  | .issuePromotion _ => none
  | .issueGating _ _ => none
  | .thermalGating _ => none
  | .thermalTrip => none
  | .leaseRenewal => none
  | .leaseTakeover _ => none
  | .correctedError _ _ => none
  | .uncorrectedError _ => none
  | .startup _ _ => none
  | .bundleFormation _ => none
  | .badCommand _ => none
  | .unknownPacketType _ _ => none
  | .thermalGatingRelease _ => none
  | .filterTagReturn _ => none
  | .unassignedOpcode _ => none

/-- The word of an instruction; none for a step that is no instruction. -/
def encode (i : Instr) : Option InstrWord :=
  match i with
  | .unassignedOpcode w => some w
  | i =>
    match i.opcode?, i.fields? with
    | some (major, minor), some f => some (f.toWord major minor)
    | _, _ => none

end Sys2Proof
end

