-- ==== Sys2Proof/Machine/Float.lean ====
section
/-! DEFINITION. Number formats and rounding to the bit (05 R107 to R116, R123) and the exact floating operations of
06 R136 to R138, on exact rationals. -/

namespace Sys2Proof.Machine

/-- Rounding modes (05 R110, R113). -/
inductive RMode where
  | nearestEven | towardZero | towardPos | towardNeg | awayFromZero | stochastic
  deriving DecidableEq, Repr, Inhabited

/-- An exact floating value: NaN, an infinity, or (-1)^neg × m × 2^e (a zero keeps its sign). -/
inductive FVal where
  | nan
  | inf (neg : Bool)
  | fin (neg : Bool) (m : Nat) (e : Int)
  deriving DecidableEq, Repr, Inhabited

/-- The parameters of R110: precision, exponent of the smallest normal, largest finite value maxM × 2^maxE, and whether
the format has infinities. -/
structure Fmt where
  p : Nat
  emin : Int
  maxM : Nat
  maxE : Int
  hasInf : Bool
  deriving DecidableEq, Repr, Inhabited

/-- m × 2^s for an integer shift (floor for a right shift). -/
def shiftNat (m : Nat) (s : Int) : Nat := if 0 ≤ s then m * 2 ^ s.toNat else m / 2 ^ (-s).toNat

/-- floor(log2(n / d × 2^e)) for positive n and d. -/
def floorLog2 (n d : Nat) (e : Int) : Int :=
  let k : Int := (n.log2 : Int) - (d.log2 : Int)
  let ge : Bool := if 0 ≤ k then decide (d * 2 ^ k.toNat ≤ n) else decide (d ≤ n * 2 ^ (-k).toNat)
  (if ge then k else k - 1) + e

/-- The integer that a mode takes for num / den (R110): lo, or lo + 1. The argument odd is whether lo / q is odd. -/
def roundQuot (neg : Bool) (num den : Nat) (mode : RMode) (r : Nat) : Nat :=
  let lo := num / den
  let rem := num % den
  if rem = 0 then lo
  else match mode with
    | .nearestEven => if 2 * rem < den then lo else if den < 2 * rem then lo + 1 else if lo % 2 = 0 then lo else lo + 1
    | .towardZero => lo
    | .towardPos => if neg then lo else lo + 1
    | .towardNeg => if neg then lo + 1 else lo
    | .awayFromZero => lo + 1
    | .stochastic => if r < rem * 2 ^ 16 / den then lo + 1 else lo

/-- Whether m × 2^e exceeds the largest finite value. -/
def Fmt.exceeds (f : Fmt) (m : Nat) (e : Int) : Bool :=
  if f.maxE ≤ e then decide (f.maxM < m * 2 ^ (e - f.maxE).toNat) else decide (f.maxM * 2 ^ (f.maxE - e).toNat < m)

/-- Overflow(fmt, sign, mode) (05 R111). -/
def overflowVal (f : Fmt) (neg : Bool) (mode : RMode) (sat : Bool) : FVal :=
  let mx := FVal.fin neg f.maxM f.maxE
  if sat then mx
  else if !f.hasInf then .nan
  else match mode with
    | .nearestEven | .awayFromZero | .stochastic => .inf neg
    | .towardZero => mx
    | .towardPos => if neg then mx else .inf neg
    | .towardNeg => if neg then .inf neg else mx

/-- RoundTo(fmt, (-1)^neg × n / d × 2^e, mode, r) (05 R110). A zero keeps its sign. -/
def roundRat (f : Fmt) (neg : Bool) (n d : Nat) (e : Int) (mode : RMode) (r : Nat := 0) (sat : Bool := false) : FVal :=
  if n = 0 then .fin neg 0 0
  else
    let ex := max (floorLog2 n d e) f.emin
    let qe := ex - (f.p : Int) + 1
    let s := e - qe
    let num := if 0 ≤ s then n * 2 ^ s.toNat else n
    let den := if 0 ≤ s then d else d * 2 ^ (-s).toNat
    let m := roundQuot neg num den mode r
    if f.exceeds m qe then overflowVal f neg mode sat else .fin neg m qe

/-- RoundTo of an exact value; NaN stays NaN, and an infinity goes as R112 says. -/
def roundTo (f : Fmt) (v : FVal) (mode : RMode) (r : Nat := 0) (sat : Bool := false) : FVal :=
  match v with
  | .nan => .nan
  | .inf neg => if f.hasInf then .inf neg else if sat then .fin neg f.maxM f.maxE else .nan
  | .fin neg m e => roundRat f neg m 1 e mode r sat

/-! ### The IEEE-encoded formats (R107, R123) -/

/-- The standard floating types (R107). -/
inductive FpType where
  | fp64 | fp32 | fp16 | bf16
  deriving DecidableEq, Repr, Inhabited

def FpType.ebits : FpType → Nat
  | .fp64 => 11 | .fp32 => 8 | .fp16 => 5 | .bf16 => 8
def FpType.fbits : FpType → Nat
  | .fp64 => 52 | .fp32 => 23 | .fp16 => 10 | .bf16 => 7
/-- Bits of the format. -/
def FpType.bits (t : FpType) : Nat := 1 + t.ebits + t.fbits

/-- The rounding parameters of an IEEE-encoded format with the given exponent and fraction bits. -/
def ieeeFmt (ebits fbits : Nat) : Fmt :=
  let bias : Int := 2 ^ (ebits - 1) - 1
  { p := fbits + 1, emin := 1 - bias, maxM := 2 ^ (fbits + 1) - 1, maxE := bias - (fbits : Int), hasInf := true }

def FpType.fmt (t : FpType) : Fmt := ieeeFmt t.ebits t.fbits

/-- FP24 (R123). -/
def fp24Fmt : Fmt := ieeeFmt 8 15

/-- The value that IEEE bits encode. -/
def ieeeDecode (ebits fbits : Nat) (v : Nat) : FVal :=
  let f := v % 2 ^ fbits
  let e := v / 2 ^ fbits % 2 ^ ebits
  let s := bitAt v (ebits + fbits)
  let bias : Int := 2 ^ (ebits - 1) - 1
  if e = 2 ^ ebits - 1 then (if f = 0 then .inf s else .nan)
  else if e = 0 then .fin s f (1 - bias - (fbits : Int))
  else .fin s (2 ^ fbits + f) ((e : Int) - bias - (fbits : Int))

/-- The IEEE bits of a value of the format; NaN is the default NaN (R107, R108). -/
def ieeeEncode (ebits fbits : Nat) (v : FVal) : Nat :=
  let bias : Int := 2 ^ (ebits - 1) - 1
  let ones := (2 ^ ebits - 1) * 2 ^ fbits
  match v with
  | .nan => ones + 2 ^ (fbits - 1)
  | .inf neg => b2n neg * 2 ^ (ebits + fbits) + ones
  | .fin neg m e =>
    let s := b2n neg * 2 ^ (ebits + fbits)
    if m = 0 then s
    else
      let ex : Int := (m.log2 : Int) + e
      if ex < 1 - bias then s + shiftNat m (e - (1 - bias - (fbits : Int)))
      else s + (ex + bias).toNat * 2 ^ fbits + (shiftNat m ((fbits : Int) - (m.log2 : Int)) - 2 ^ fbits)

def FpType.decode (t : FpType) (v : Nat) : FVal := ieeeDecode t.ebits t.fbits v
def FpType.encode (t : FpType) (v : FVal) : Nat := ieeeEncode t.ebits t.fbits v

/-- Whether bits encode a NaN. -/
def FpType.isNaN (t : FpType) (v : Nat) : Bool := t.decode v == .nan

/-- The classes of R137 want to know a signalling NaN: leading fraction bit 0. -/
def FpType.isQuiet (t : FpType) (v : Nat) : Bool := bitAt v (t.fbits - 1)

/-- A non-zero value below the smallest normal. -/
def isSubnormal (t : FpType) : FVal → Bool
  | .fin _ m e => m != 0 && decide ((m.log2 : Int) + e < t.fmt.emin)
  | _ => false

/-- Read as zero of its own sign a subnormal, when FTZ is set (R109). -/
def flush (ftz : Bool) (t : FpType) (v : FVal) : FVal :=
  match v with
  | .fin neg _ _ => if ftz && isSubnormal t v then .fin neg 0 0 else v
  | _ => v

/-! ### Exact arithmetic (06 R136) -/

/-- The signed integer (-1)^neg × m × 2^(e - base), for base ≤ e. -/
def alignInt (neg : Bool) (m : Nat) (e base : Int) : Int :=
  let k : Int := ((m * 2 ^ (e - base).toNat : Nat) : Int)
  if neg then -k else k

def FVal.neg : FVal → FVal
  | .nan => .nan
  | .inf s => .inf (!s)
  | .fin s m e => .fin (!s) m e

/-- The sum, exact; an exact zero is +0, or -0 toward -infinity, and two zeros of one sign keep it (R136). -/
def FVal.add (mode : RMode) : FVal → FVal → FVal
  | .nan, _ => .nan
  | _, .nan => .nan
  | .inf s, .inf t => if s = t then .inf s else .nan
  | .inf s, .fin .. => .inf s
  | .fin .., .inf t => .inf t
  | .fin s m e, .fin t n f =>
    let base := min e f
    let sum := alignInt s m e base + alignInt t n f base
    if sum = 0 then
      (if m = 0 ∧ n = 0 ∧ s = t then .fin s 0 0 else .fin (mode == .towardNeg) 0 0)
    else .fin (decide (sum < 0)) sum.natAbs base

/-- The product, exact; 0 × infinity is NaN (R136). -/
def FVal.mul : FVal → FVal → FVal
  | .nan, _ => .nan
  | _, .nan => .nan
  | .inf s, .inf t => .inf (s != t)
  | .inf s, .fin t n _ => if n = 0 then .nan else .inf (s != t)
  | .fin s m _, .inf t => if m = 0 then .nan else .inf (s != t)
  | .fin s m e, .fin t n f => .fin (s != t) (m * n) (e + f)

/-- The exact value times 2^k. -/
def FVal.scale (v : FVal) (k : Int) : FVal :=
  match v with
  | .fin s m e => .fin s m (e + k)
  | _ => v

/-- RoundTo(a / b), correctly rounded, with the invalid cases and the zero divisor of R136. -/
def fdivRound (f : Fmt) (mode : RMode) : FVal → FVal → FVal
  | .nan, _ => .nan
  | _, .nan => .nan
  | .inf _, .inf _ => .nan
  | .inf s, .fin t _ _ => .inf (s != t)
  | .fin s _ _, .inf t => .fin (s != t) 0 0
  | .fin s m e, .fin t n g =>
    if n = 0 then (if m = 0 then .nan else .inf (s != t))
    else roundRat f (s != t) m n (e - g) mode

/-- floor(√v), one bit of the root at a time from bit k - 1 down. -/
def isqrtBits (v : Nat) : Nat → Nat → Nat
  | 0, r => r
  | k + 1, r => if (r + 2 ^ k) * (r + 2 ^ k) ≤ v then isqrtBits v k (r + 2 ^ k) else isqrtBits v k r

/-- floor(√v). -/
def isqrt (v : Nat) : Nat := isqrtBits v (v.log2 / 2 + 1) 0

/-- RoundTo(√a), correctly rounded (R136): the root to p + 3 bits with a sticky bit below. -/
def fsqrtRound (f : Fmt) (mode : RMode) : FVal → FVal
  | .nan => .nan
  | .inf s => if s then .nan else .inf false
  | .fin s m e =>
    if m = 0 then .fin s 0 0
    else if s then .nan
    else
      let sh := 2 * (f.p + 3) + (if e % 2 = 0 then 0 else 1)
      let v := m * 2 ^ sh
      let r := isqrt v
      let st := if r * r = v then 0 else 1
      roundRat f false (2 * r + st) 1 ((e - (sh : Int)) / 2 - 1) mode

/-- The magnitude |v| rounded to an integer under a mode (R110 with q = 1). -/
def roundIntMag (neg : Bool) (m : Nat) (e : Int) (mode : RMode) : Nat :=
  if 0 ≤ e then m * 2 ^ e.toNat else roundQuot neg m (2 ^ (-e).toNat) mode 0

/-- FRINT (R136): an infinity or a zero is returned unchanged. -/
def frintVal (mode : RMode) : FVal → FVal
  | .nan => .nan
  | .inf s => .inf s
  | .fin s m e => if m = 0 then .fin s 0 0 else .fin s (roundIntMag s m e mode) 0

/-- a < b of two values that are no NaN, with -0 equal to +0. -/
def FVal.lt : FVal → FVal → Bool
  | .nan, _ => false
  | _, .nan => false
  | .inf s, .inf t => s && !t
  | .inf s, .fin .. => s
  | .fin .., .inf t => !t
  | .fin s m e, .fin t n f =>
    let base := min e f
    decide (alignInt s m e base < alignInt t n f base)

/-- a = b of two values that are no NaN, with -0 equal to +0. -/
def FVal.eqv (a b : FVal) : Bool := a != .nan && b != .nan && !(FVal.lt a b) && !(FVal.lt b a)

/-- Whether the sign of a non-NaN value is negative. -/
def FVal.isNeg : FVal → Bool
  | .nan => false
  | .inf s => s
  | .fin s _ _ => s

/-- Whether a is taken by FMIN of a and b: -0 is less than +0 (R137). -/
def FVal.minFirst (a b : FVal) : Bool := FVal.lt a b || (FVal.eqv a b && (a.isNeg || !b.isNeg))

/-- FMIN (mx false) or FMAX (mx true) of R137 on bits. A NaN gives way to the other operand; two NaNs give the default
NaN; under FTZ a returned subnormal is flushed. -/
def fminmax (t : FpType) (mx ftz : Bool) (x y : Nat) : Nat :=
  let a := flush ftz t (t.decode x)
  let b := flush ftz t (t.decode y)
  if a = .nan then t.encode b
  else if b = .nan then t.encode a
  else t.encode (if (FVal.minFirst a b) = mx then b else a)

/-! ### The binary8 family (R114 to R116) -/

/-- A binary8 variant. -/
structure B8 where
  p : Nat
  signed : Bool
  inf : Bool
  deriving DecidableEq, Repr, Inhabited

/-- Exponent bias B. -/
def B8.bias (v : B8) : Int := if v.signed then 2 ^ (7 - v.p) else 2 ^ (8 - v.p)

/-- The value of a magnitude field (R114). -/
def B8.mag (v : B8) (m : Nat) : Nat × Int :=
  let t := v.p - 1
  let ef := m / 2 ^ t
  let f := m % 2 ^ t
  if ef = 0 then (f, 1 - v.bias - (t : Int)) else (2 ^ t + f, (ef : Int) - v.bias - (t : Int))

/-- The code of the largest finite magnitude (R115). -/
def B8.maxCode (v : B8) : Nat :=
  if v.signed then (if v.inf then 0x7E else 0x7F) else (if v.inf then 0xFD else 0xFE)

/-- The code of NaN. -/
def B8.nanCode (v : B8) : Nat := if v.signed then 0x80 else 0xFF

def B8.fmt (v : B8) : Fmt :=
  let mx := v.mag v.maxCode
  { p := v.p, emin := 1 - v.bias, maxM := mx.1, maxE := mx.2, hasInf := v.inf }

/-- Decode a code (R114). -/
def B8.decode (v : B8) (c : Nat) : FVal :=
  if c = v.nanCode then .nan
  else if v.signed then
    let neg := bitAt c 7
    let m := c % 128
    if v.inf && m == 0x7F then .inf neg else .fin neg (v.mag m).1 (v.mag m).2
  else if v.inf && c == 0xFE then .inf false
  else .fin false (v.mag c).1 (v.mag c).2

/-- The magnitude field of a value on the variant's grid. -/
def B8.magCode (v : B8) (m : Nat) (e : Int) : Nat :=
  let t := v.p - 1
  let ex : Int := (m.log2 : Int) + e
  if ex < 1 - v.bias then shiftNat m (e - (1 - v.bias - (t : Int)))
  else (ex + v.bias).toNat * 2 ^ t + (shiftNat m ((t : Int) - (m.log2 : Int)) - 2 ^ t)

/-- Encode a value of the grid; the unsigned form clamps or refuses a negative under SAT (R114, R116). -/
def B8.encode (v : B8) (sat : Bool) (x : FVal) : Nat :=
  match x with
  | .nan => v.nanCode
  | .inf neg =>
    if v.signed then (if neg then 0xFF else 0x7F)
    else if neg then (if sat then 0 else v.nanCode) else 0xFE
  | .fin neg m e =>
    if m = 0 then 0
    else if v.signed then b2n neg * 128 + v.magCode m e
    else if neg then (if sat then 0 else v.nanCode)
    else v.magCode m e

/-- Conversion into a variant (R110 to R112, R116). A negative infinity into an unsigned variant follows SAT. -/
def B8.convert (v : B8) (x : FVal) (mode : RMode) (r : Nat) (sat : Bool) : Nat :=
  match x with
  | .inf true => if v.signed then v.encode sat (roundTo v.fmt x mode r sat) else (if sat then 0 else v.nanCode)
  | _ => v.encode sat (roundTo v.fmt x mode r sat)

end Sys2Proof.Machine
end

