-- ==== Sys2Proof/Machine/Ops.lean ====
section
/-! DEFINITION. The shared operations: units and their counters, physical memory and the cluster L1 (10 R243 to R248, 11
R281), translation (15 R374 to R377), the race filter (08 R204 to R208), registers (02 R47), and taking a trap and
returning from it (16 R396 to R401, R419). -/

namespace Sys2Proof.Machine

/-! ### Free places (log entry 9) -/

/-- The one of several free places that hardware takes. -/
def pickFree (p : Config.Place) (tick : Nat) : List Nat → Option Nat
  | [] => none
  | [k] => some k
  | l => l[Config.freePlace p tick l % l.length]?

/-- Up to n of several free places, in the order in which hardware takes them. -/
def pickSome (p : Config.Place) (tick : Nat) : Nat → List Nat → List Nat
  | 0, _ => []
  | n + 1, l => match pickFree p tick l with
    | none => []
    | some k => k :: pickSome p tick n (l.erase k)

/-! ### Effects -/

/-- What a trap reports beyond the agent's own state (16 R397 to R399). -/
structure TrapReq where
  cause : Nat
  addr : Option Nat := none
  ident : Nat := 0
  deferred : Bool := false
  later : Nat := 0
  /-- The instruction's effects up to here stand. -/
  keep : Bool := false
  /-- It reports the matrix fault record (07 R162). -/
  matrix : Bool := false
  deriving DecidableEq, Repr, Inhabited

/-- How an instruction or an engine stops short of its end. -/
inductive Stop where
  | trap (r : TrapReq)
  /-- It waits; what it has done stands, and it is executed again. -/
  | wait
  /-- It parks on a recoverable page fault (15 R377). -/
  | park (p : Park)
  /-- It waits for a page of another context, with none of its effects (13 R327). -/
  | hold (ctx tree : Nat) (p : Park)
  /-- The agent's tree ends with a status (13 R323). -/
  | endTree (status : Nat)
  deriving DecidableEq, Repr, Inhabited

/-- Effects on the state that may stop. -/
abbrev M := EStateM Stop State

/-- An agent: a thread of a task, or its uniform stream. -/
structure Who where
  task : Nat
  thread : Option Nat := none
  deriving DecidableEq, Repr, Inhabited

def trapWith {α : Type} (r : TrapReq) : M α := throw (.trap r)
/-- Trap(cause) of R7. -/
def trapNow {α : Type} (cause : Nat) : M α := throw (.trap { cause := cause })
/-- Trap with an address (16 R398). -/
def trapAddr {α : Type} (cause addr : Nat) : M α := throw (.trap { cause := cause, addr := some addr })

/-! Causes (16 R398). -/
def cILLEGAL_LINE : Nat := 1
def cLINE_PARITY : Nat := 2
def cFUTURE_OP : Nat := 3
def cILLEGAL_OP : Nat := 4
def cREG_RANGE : Nat := 5
def cLOOKAHEAD : Nat := 6
def cBAD_TARGET : Nat := 7
def cMEM_FAULT : Nat := 8
def cRACE_WW : Nat := 9
def cRACE_RW : Nat := 10
def cPEDIGREE_LIMIT : Nat := 11
def cALLOC_EXHAUSTED : Nat := 12
def cEXPAND_RANGE : Nat := 13
def cEXPAND_STATE : Nat := 14
def cTILE_TORN : Nat := 15
def cTILE_SHAPE : Nat := 16
def cACC_OVF : Nat := 17
def cBAD_FORMAT : Nat := 18
def cCOPY_FAULT : Nat := 19
def cHOLE_STALL : Nat := 20
def cHOLE_RANGE : Nat := 21
def cBANK_STATE : Nat := 22
def cBAD_REDUCER : Nat := 23
def cBAD_TASK : Nat := 24
def cBAD_QUEUE : Nat := 25
def cALLOT_NEVER : Nat := 26
def cSTACK_LIMIT : Nat := 27
def cRET_EMPTY : Nat := 28
def cSWTRAP : Nat := 29
def cBKPT : Nat := 30
def cLINE_FETCH : Nat := 31

/-! Statuses of a launch (15 R385, 16 R402, 17 R438). -/
def stOK : Nat := 0
def stLAUNCH_FORM : Nat := 1
def stPACKET_FORM : Nat := 2
def stCOVERAGE_FORM : Nat := 3
def stABORTED : Nat := 4
def stLOG_STAGING : Nat := 6
def stBIN_STAGING : Nat := 7
def stDEQUE_SPILL : Nat := 8
def stREDUCER_FAULT : Nat := 9
def stRESTORE_CAPACITY : Nat := 10
def stHANDLER_TRAP : Nat := 11
def stUNHANDLED : Nat := 12
def stSAVE_FORM : Nat := 13
def stSAVE_POOL : Nat := 14
def stUNCORRECTED : Nat := 15
def stTRACE_MISMATCH : Nat := 16
def stTRACE_DIVERGED : Nat := 17
def stBIN_FAULT : Nat := 18

/-- A little-endian field of bytes. -/
def leField (d : List Byte) (o n : Nat) : Nat := ofLE ((d.drop o).take n)

/-! ### Units, tasks, trees, contexts -/

def numCores : Nat := 2304
def numClusters : Nat := 576
def clusterOf (core : Nat) : Nat := core / 4
def dieOfCluster (cl : Nat) : Nat := cl / 192
def dieOfCore (core : Nat) : Nat := dieOfCluster (clusterOf core)

def State.cluster (s : State) (cl : Nat) : Cluster := Sparse.get Cluster.init s.clusters cl
def State.modCluster (s : State) (cl : Nat) (f : Cluster → Cluster) : State :=
  { s with clusters := Sparse.modify Cluster.init s.clusters cl f }
def State.core (s : State) (k : Nat) : Core := Sparse.get Core.init s.cores k
def State.modCore (s : State) (k : Nat) (f : Core → Core) : State :=
  { s with cores := Sparse.modify Core.init s.cores k f }
def State.die (s : State) (d : Nat) : Die := s.dies.getD d {}
def State.modDie (s : State) (d : Nat) (f : Die → Die) : State := { s with dies := updAt s.dies d f }

/-- The cluster cycle counter (01 R15). -/
def State.cycle (s : State) (cl : Nat) : Nat :=
  ((s.die (dieOfCluster cl)).ticks.toNat + 2 ^ 64 - (s.cluster cl).base % 2 ^ 64) % 2 ^ 64

/-- Whether every cycle of a cluster's die is gated: 64 steps of 1/64, one of them for heat (01 R26, R29; log entry 13). -/
def State.gated (s : State) (cl : Nat) : Bool :=
  let d := s.die (dieOfCluster cl)
  decide (64 ≤ d.gate + b2n d.hot)

def State.task? (s : State) (id : Nat) : Option Task := s.tasks.find? (fun t => t.entry.id == id)
def State.modTask (s : State) (id : Nat) (f : Task → Task) : State :=
  { s with tasks := s.tasks.map (fun t => if t.entry.id = id then f t else t) }
def State.tree? (s : State) (id : Nat) : Option Tree := s.trees.find? (fun t => t.id == id)
def State.modTree (s : State) (id : Nat) (f : Tree → Tree) : State :=
  { s with trees := s.trees.map (fun t => if t.id = id then f t else t) }
def State.ctx? (s : State) (c : Nat) : Option Ctx := (s.ctxs.find? (fun p => p.1 == c)).map Prod.snd
def State.modCtx (s : State) (c : Nat) (f : Ctx → Ctx) : State :=
  { s with ctxs := s.ctxs.map (fun p => if p.1 = c then (p.1, f p.2) else p) }

/-- The core of a resident task. -/
def Task.core? (t : Task) : Option Nat :=
  match t.place with
  | .core k _ => some k
  | .saved .. => none
def Task.coreD (t : Task) : Nat := t.core?.getD 0
def Task.slotD (t : Task) : Nat :=
  match t.place with
  | .core _ k => k
  | .saved .. => 0
def Task.cluster (t : Task) : Nat := clusterOf t.coreD
def Task.resident (t : Task) : Bool := t.core?.isSome
/-- Tasks resident on a core. -/
def State.residents (s : State) (core : Nat) : List Task := s.tasks.filter (fun t => t.core? == some core)

def Task.thread (t : Task) (k : Nat) : Thread := t.threads.getD k { status := .free }
def Task.modThread (t : Task) (k : Nat) (f : Thread → Thread) : Task := { t with threads := updAt t.threads k f }
/-- Threads of a task by index 32 × group + lane, that satisfy a test. -/
def Task.threadsWhere (t : Task) (p : Nat → Thread → Bool) : List Nat :=
  idxWhere t.threads.length (fun k => p k (t.thread k))
def Task.live (t : Task) (k : Nat) : Bool := (t.thread k).status == .live
def Task.liveThreads (t : Task) : List Nat := t.threadsWhere (fun _ th => th.status == .live)

/-- The part of an agent that threads and uniform streams share. -/
def Task.agent (t : Task) (th : Option Nat) : Agent :=
  match th with
  | none => t.u.ag
  | some k => (t.thread k).ag
def Task.modAgent (t : Task) (th : Option Nat) (f : Agent → Agent) : Task :=
  match th with
  | none => { t with u := { t.u with ag := f t.u.ag } }
  | some k => t.modThread k (fun x => { x with ag := f x.ag })

def State.agent (s : State) (w : Who) : Agent :=
  match s.task? w.task with
  | some t => t.agent w.thread
  | none => {}
def State.modAgent (s : State) (w : Who) (f : Agent → Agent) : State := s.modTask w.task (fun t => t.modAgent w.thread f)

/-- The task of an agent; an agent without one waits. -/
def theTask (w : Who) : M Task := do
  match (← get).task? w.task with
  | some t => pure t
  | none => throw .wait
def theTree (t : Task) : M Tree := do
  match (← get).tree? t.entry.tree with
  | some r => pure r
  | none => throw .wait
def theCtx (t : Task) : M Ctx := do
  match (← get).ctx? t.entry.ctx with
  | some c => pure c
  | none => throw .wait
def modTask (w : Who) (f : Task → Task) : M Unit := modify (fun s => s.modTask w.task f)
def modAgent (w : Who) (f : Agent → Agent) : M Unit := modify (fun s => s.modAgent w f)

/-- Strand of an agent now (08 R188). -/
def Task.strand (t : Task) (th : Option Nat) : Strand :=
  match th with
  | none => t.entry.ped.strand t.u.pedpos.toNat
  | some k => t.entry.ped.threadStrand (t.thread k).marker

/-- TID of a thread (02 R37). -/
def Task.tid (t : Task) (k : Nat) : Nat := k + 512 * t.gslots.getD (k / 32) 0

/-! ### Registers (02 R47) -/

/-- x(r) of a thread, s(r) of the uniform stream; register 0 reads 0. -/
def Task.reg (t : Task) (th : Option Nat) (r : Nat) : Nat :=
  if r = 0 then 0
  else match th with
    | some k => (Sparse.get 0 (t.thread k).x r).toNat
    | none => (Sparse.get 0 t.u.s r).toNat

def Task.setReg (t : Task) (th : Option Nat) (r v : Nat) : Task :=
  if r = 0 then t
  else match th with
    | some k => t.modThread k (fun x => { x with x := Sparse.put 0 x.x r (BitVec.ofNat 32 v) })
    | none => { t with u := { t.u with s := Sparse.put 0 t.u.s r (BitVec.ofNat 64 v) } }

/-- n registers from r as one value, the lowest first; a field of 0 reads 0 throughout. -/
def Task.regs (t : Task) (th : Option Nat) (r n : Nat) : Nat :=
  if r = 0 then 0
  else (List.range n).foldl (fun v k => v + t.reg th (r + k) * 2 ^ ((if th.isSome then 32 else 64) * k)) 0

def Task.setRegs (t : Task) (th : Option Nat) (r n v : Nat) : Task :=
  if r = 0 then t
  else (List.range n).foldl
    (fun t k => t.setReg th (r + k) (v / 2 ^ ((if th.isSome then 32 else 64) * k))) t

/-- A predicate: p0 reads false and p7 true. -/
def Agent.pred (a : Agent) (p : Nat) : Bool := if p = 0 then false else if p = 7 then true else a.preds.getLsbD p
/-- The predicates as a byte, bit k for pk. -/
def Agent.predByte (a : Agent) : Nat := ((List.range 8).map (fun p => b2n (a.pred p) * 2 ^ p)).sum
def Agent.setPred (a : Agent) (p : Nat) (v : Bool) : Agent :=
  if p = 0 ∨ p = 7 ∨ 7 < p then a
  else { a with preds := if v then a.preds ||| BitVec.ofNat 8 (2 ^ p) else a.preds &&& ~~~ BitVec.ofNat 8 (2 ^ p) }

/-- The value of a register field of the given kind. -/
def Task.opnd (t : Task) (th : Option Nat) (o : Opnd) (v : BitVec 9) : Nat :=
  match o.kind with
  | .p => b2n ((t.agent th).pred v.toNat)
  | k => t.regs th v.toNat k.regs

/-- Write a register field of the given kind. -/
def Task.setOpnd (t : Task) (th : Option Nat) (o : Opnd) (v : BitVec 9) (x : Nat) : Task :=
  match o.kind with
  | .p => t.modAgent th (fun a => a.setPred v.toNat (x % 2 == 1))
  | k => t.setRegs th v.toNat k.regs x

def rdOpnd (w : Who) (o : Opnd) (v : BitVec 9) : M Nat := do return (← theTask w).opnd w.thread o v
def wrOpnd (w : Who) (o : Opnd) (v : BitVec 9) (x : Nat) : M Unit := modTask w (fun t => t.setOpnd w.thread o v x)

/-! ### Physical memory (10 R243 to R246, 15 R375) -/

def gib : Nat := 2 ^ 30
def dieBytes : Nat := 192 * gib
def hbmBytes : Nat := 576 * gib
def companionBase : Nat := 2 ^ 50

/-- First byte of the postmark region of a die (R246). -/
def State.postmarkBase (s : State) (d : Nat) : Nat := (d + 1) * dieBytes - (s.die d).postmarkGiB * gib
/-- Whether a page overlaps a postmark region. -/
def State.hitsPostmarks (s : State) (pa size : Nat) : Bool :=
  [0, 1, 2].any (fun d => decide (s.postmarkBase d < pa + size) && decide (pa < (d + 1) * dieBytes))
/-- Whether a page lies wholly in its die's watchable range (R246). -/
def State.watchable (s : State) (pa size : Nat) : Bool :=
  let d := pa / dieBytes
  decide (pa < hbmBytes) && decide (pa + size ≤ d * dieBytes + 8 * (s.die d).postmarkGiB * gib)
    && decide (pa + size ≤ (d + 1) * dieBytes)
/-- HBM stack of an address (R243) and its channel number (17 R430). -/
def stackOf (pa : Nat) : Nat := 4 * (pa / dieBytes) + (field pa 13 12 ^^^ field pa 17 16)
def channelNumber (pa : Nat) : Nat := 32 * stackOf pa + Config.channelOf pa % 32
/-- The home L2 slice of an address (R244). -/
def homeSlice (pa : Nat) : Nat :=
  128 * (pa / dieBytes)
    + (field pa 13 7 ^^^ field pa 20 14 ^^^ field pa 27 21 ^^^ field pa 34 28 ^^^ field pa 37 35)
/-- Whether an HBM4E channel has left service (17 R429). -/
def State.channelOut (s : State) (pa : Nat) : Bool :=
  s.out.any (fun o => o.cls == .channel && !o.awaits && o.number == channelNumber pa)
/-- Whether a physical address names storage in service (15 R375). -/
def State.exists? (s : State) (pa : Nat) : Bool :=
  if pa < hbmBytes then (s.out.isEmpty || !s.channelOut pa)
  else decide (companionBase ≤ pa) && decide (pa < 2 * companionBase)

/-- The place in a range of n bytes, of one page, of the first byte that names no storage in service (15 R375; 17 R429). -/
def State.firstMissing (s : State) (pa n : Nat) : Option Nat :=
  if !s.exists? pa then some 0 else if s.out.isEmpty then none else (List.range n).find? (fun k => !s.exists? (pa + k))

/-- Bytes at the home slices. -/
def State.home (s : State) (pa n : Nat) : List Byte := Sparse.read 0 s.mem pa n
/-- Sectors that lie wholly in a range that has been written are no longer poisoned (17 R427). -/
def State.scrub (s : State) (pa n : Nat) : State :=
  { s with poison := if s.poison.isEmpty then [] else s.poison.filter (fun k => !(decide (pa ≤ 32 * k) && decide (32 * k + 32 ≤ pa + n))) }
/-- Write at the home slices; a sector wholly written is no longer poisoned (17 R427). -/
def State.setHome (s : State) (pa : Nat) (bs : List Byte) : State :=
  { s with mem := Sparse.write 0 s.mem pa bs }.scrub pa bs.length
/-- Zero a range of memory. -/
def State.clearHome (s : State) (pa n : Nat) : State :=
  { s with mem := s.mem.filter (fun e => !(decide (pa ≤ e.1) && decide (e.1 < pa + n))) }.scrub pa n
def State.poisoned (s : State) (pa n : Nat) : Bool :=
  s.poison.any (fun k => decide (32 * k < pa + n) && decide (pa < 32 * k + 32))

/-! ### The cluster L1 (10 R248, 11 R281) -/

/-- CACHE banks open to new lines. -/
def Cluster.ways (c : Cluster) : Nat := (c.banks.filter (fun b => b.mode == .cache && b.closing.isNone)).length
def Cluster.line? (c : Cluster) (line : Nat) : Option L1Line := c.l1.find? (fun l => l.line == line)

/-- Write back the dirty bytes of one line, which then holds what the home slice does; a sector of which every byte is dirty is wholly written (17
R427). -/
def State.writeBackLine (s : State) (cl line : Nat) : State :=
  match (s.cluster cl).line? line with
  | none => s
  | some l =>
    let s := (bitsOf 128 l.dirty).foldl (fun s k => s.setHome (128 * line + k) [l.data.getD k 0]) s
    let s := [0, 1, 2, 3].foldl (fun s q => if field l.dirty (32 * q + 31) (32 * q) = 2 ^ 32 - 1 then s.scrub (128 * line + 32 * q) 32 else s) s
    s.modCluster cl (fun c => { c with l1 := c.l1.map (fun x => if x.line = line then { x with dirty := 0, data := s.home (128 * line) 128 } else x) })
/-- Whether a read of a range by a cluster takes a poisoned byte: one that is not its own dirty byte (17 R427). -/
def State.tainted (s : State) (cl pa n : Nat) : Bool :=
  !s.poison.isEmpty && (List.range n).any (fun k => s.poisoned (pa + k) 1 &&
    match (s.cluster cl).line? ((pa + k) / 128) with | some l => !bitAt l.dirty ((pa + k) % 128) | none => true)
/-- Write back every dirty line of a cluster. -/
def State.writeBackAll (s : State) (cl : Nat) : State :=
  ((s.cluster cl).l1.filter (fun l => l.dirty != 0)).foldl (fun s l => s.writeBackLine cl l.line) s
/-- Drop a line, writing it back first. -/
def State.dropLine (s : State) (cl line : Nat) : State :=
  (s.writeBackLine cl line).modCluster cl (fun c => { c with l1 := c.l1.filter (fun l => l.line != line) })
/-- Every cluster writes back its dirty bytes of a line (10 R248). -/
def State.writeBackEverywhere (s : State) (line : Nat) : State := (s.clusters.map Prod.fst).foldl (fun s cl => s.writeBackLine cl line) s
/-- A line with its clean bytes read again from the home slices. -/
def State.fresh (s : State) (l : L1Line) : L1Line :=
  { l with data := (List.range 128).map (fun k => if bitAt l.dirty k then l.data.getD k 0 else Sparse.get 0 s.mem (128 * l.line + k)) }
/-- Drop the clean lines of a cluster, and read the clean bytes of the others again. -/
def State.dropClean (s : State) (cl : Nat) : State :=
  s.modCluster cl (fun c => { c with l1 := (c.l1.filter (fun l => l.dirty != 0)).map s.fresh })
/-- Take a line into the L1, evicting the oldest of its set where the ways are full. -/
def State.fillLine (s : State) (cl line : Nat) : State :=
  let c := s.cluster cl
  if (c.line? line).isSome then s
  else
    let same := c.l1.filter (fun l => l.line % 256 == line % 256)
    let s := if c.ways ≤ same.length then (match same.head? with | some l => s.dropLine cl l.line | none => s) else s
    s.modCluster cl (fun c => { c with l1 := c.l1 ++ [{ line := line, data := s.home (128 * line) 128, filled := s.cycle cl }] })

/-- Whether a relaxed access of narrow scope goes through the L1 now (log entry 3). -/
def State.usesL1 (s : State) (cl scope : Nat) : Bool := s.hold && decide (scope ≤ 1) && decide (0 < (s.cluster cl).ways)

/-- One byte as a cluster reads it: its own dirty byte, else the L1 copy where the access uses it, else the home slice, which
refreshes a copy held, the whole line at once (10 R248; 11 R284). -/
def State.loadByte (s : State) (cl pa : Nat) (l1 : Bool) : Byte × State :=
  let s := if l1 then s.fillLine cl (pa / 128) else s
  match (s.cluster cl).line? (pa / 128) with
  | none => (Sparse.get 0 s.mem pa, s)
  | some l =>
    if l1 || bitAt l.dirty (pa % 128) then (l.data.getD (pa % 128) 0, s)
    else
      (Sparse.get 0 s.mem pa, s.modCluster cl (fun c => { c with l1 := c.l1.map (fun x => if x.line = pa / 128 then s.fresh x else x) }))

/-- Store one byte: dirty in the L1 where the access uses it, else through to the home slice, updating a copy held. -/
def State.storeByte (s : State) (cl pa : Nat) (v : Byte) (l1 : Bool) : State :=
  let s := if l1 then s.fillLine cl (pa / 128) else s.setHome pa [v]
  match (s.cluster cl).line? (pa / 128) with
  | none => s
  | some l =>
    let k := pa % 128
    let cyc := s.cycle cl
    let upd (x : L1Line) : L1Line :=
      { x with data := updAt x.data k (fun _ => v)
               dirty := if l1 then x.dirty ||| 2 ^ k else (if bitAt x.dirty k then x.dirty - 2 ^ k else x.dirty)
               dirtied := if l1 && x.dirty == 0 then cyc else x.dirtied }
    if l.line = pa / 128 then s.modCluster cl (fun c => { c with l1 := c.l1.map (fun x => if x.line = pa / 128 then upd x else x) })
    else s

/-- Read bytes one by one, and store them. -/
def State.getBytes (s : State) (cl pa : Nat) (l1 : Bool) : Nat → List Byte × State
  | 0 => ([], s)
  | n + 1 =>
    let (b, s) := s.loadByte cl pa l1
    let (bs, s) := State.getBytes s cl (pa + 1) l1 n
    (b :: bs, s)
def State.putBytes (s : State) (cl pa : Nat) (l1 : Bool) : List Byte → State
  | [] => s
  | b :: bs => State.putBytes (s.storeByte cl pa b l1) cl (pa + 1) l1 bs

/-- The lines of a range of n bytes. -/
def linesOf (pa n : Nat) : List Nat := (List.range ((pa % 128 + n + 127) / 128)).map (fun k => pa / 128 + k)

/-- Whether an aligned 16-byte unit of a line holds, within a range, both dirty and clean bytes. -/
def L1Line.mixed (l : L1Line) (pa n : Nat) : Bool :=
  l.dirty != 0 && (List.range 8).any (fun u =>
    let lo := max pa (128 * l.line + 16 * u) - 128 * l.line
    let hi := min (pa + n) (128 * l.line + 16 * u + 16) - 128 * l.line
    decide (lo < hi) && field l.dirty (hi - 1) lo != 0 && field l.dirty (hi - 1) lo + 1 != 2 ^ (hi - lo))

/-- Write back the lines of a range whose copy satisfies a test. -/
def State.writeBackWhere (s : State) (cl pa n : Nat) (p : L1Line → Bool) : State :=
  if (s.cluster cl).l1.isEmpty then s
  else (linesOf pa n).foldl (fun s k => match (s.cluster cl).line? k with
    | some l => if p l then s.writeBackLine cl k else s
    | none => s) s

/-- Load bytes. No load takes a part of a unit from dirty bytes and a part from elsewhere, or it could see half of another's write (11 R284; log
entry 3): such a line is written back first. -/
def State.loadBytes (s : State) (cl pa : Nat) (l1 : Bool) (n : Nat) : List Byte × State :=
  (s.writeBackWhere cl pa n (fun l => l.mixed pa n)).getBytes cl pa l1 n

/-- Store bytes. A line that a store is written through to is written back first, and so holds what its home slice does (11 R281, R284; log entry
3). -/
def State.storeBytes (s : State) (cl pa : Nat) (l1 : Bool) (bs : List Byte) : State :=
  (if l1 then s else s.writeBackWhere cl pa bs.length (fun _ => true)).putBytes cl pa l1 bs

/-- A release point of an agent of the cluster at a scope (R281). -/
def State.releaseAt (s : State) (cl scope : Nat) : State := if 2 ≤ scope then s.writeBackAll cl else s
/-- An acquire point of an agent of the cluster at a scope (R281). -/
def State.acquireAt (s : State) (cl scope : Nat) : State := if 2 ≤ scope then s.dropClean cl else s

/-! ### Translation (15 R374 to R376) -/

/-- Whether an exact address is canonical (10 R241). -/
def canonical (ea : Int) : Bool := decide (-(2 ^ 56 : Int) ≤ ea) && decide (ea < (2 ^ 56 : Int))
/-- Whether a 64-bit address is canonical. -/
def canonicalVa (va : Nat) : Bool := canonical (signExt va 64)

/-- What a walk ends in. -/
inductive Walk where
  | leaf (pa va size : Nat) (e : Nat)
  | pend
  | fault
  deriving DecidableEq, Repr, Inhabited

/-- Index bits and leaf size of each level (R374): shift, width, leaf page or 0. -/
def levels : List (Nat × Nat × Nat) :=
  [(48, 9, 0), (39, 9, 0), (30, 9, 2 ^ 30), (21, 9, 2 ^ 21), (16, 5, 2 ^ 16)]

/-- Whether an entry breaks a rule of R375 that holds whatever V is: reserved bits, LEAF at its level (`page` is the size of its leaf, or 0), TLO,
the alignment of a leaf, its place and its watch bit. -/
def State.entryBad (s : State) (e page : Nat) (last four : Bool) : Bool :=
  let pa := field e 51 16 * 2 ^ 16
  field e 7 6 != 0 || field e 62 52 != 0
  || (if bitAt e 1 then
        page == 0 || field e 15 8 != 0 || pa % page != 0 || s.hitsPostmarks pa page || (bitAt e 5 && !s.watchable pa page)
      else last || (!four && field e 11 8 != 0))

/-- The walk from a table (R374, R375). An entry that breaks a rule is a fault though PEND be set (log entry 70). -/
def State.walkFrom (s : State) (table va : Nat) : List (Nat × Nat × Nat) → Walk
  | [] => .fault
  | (sh, width, page) :: rest =>
    let at' := table + 8 * (va / 2 ^ sh % 2 ^ width)
    if !s.exists? at' then .fault
    else
      let e := ofLE (s.home at' 8)
      if s.entryBad e page rest.isEmpty (rest.length == 1) then .fault
      else if !bitAt e 0 then (if bitAt e 63 then .pend else .fault)
      else if bitAt e 63 then .fault
      else if bitAt e 1 then .leaf (field e 51 16 * 2 ^ 16) (va / page * page) page e
      else State.walkFrom s (field e 51 16 * 2 ^ 16 + field e 15 8 * 2 ^ 8) va rest

/-- The walk of a context. -/
def State.walk (s : State) (c : Ctx) (va : Nat) : Walk := s.walkFrom c.ptRoot (va % 2 ^ 57) levels

/-- Permissions an access needs (R375). -/
structure Need where
  r : Bool := false
  w : Bool := false
  x : Bool := false
  deriving DecidableEq, Repr, Inhabited

def Need.met (n : Need) (e : Nat) : Bool := (!n.r || bitAt e 2) && (!n.w || bitAt e 3) && (!n.x || bitAt e 4)

/-- A translated address: physical address and whether the page is watched. -/
inductive Xlate where
  | ok (pa : Nat) (watched : Bool)
  | pend
  | fault
  deriving DecidableEq, Repr, Inhabited

/-- Translate through the TLB of a cluster, which a walk fills (R376). -/
def State.translate (s : State) (ctx cl va : Nat) (need : Need) : Xlate × State :=
  let hit := (s.cluster cl).tlb.find? (fun e => e.ctx == ctx && decide (e.va ≤ va % 2 ^ 57) && decide (va % 2 ^ 57 < e.va + e.size))
  match hit with
  | some e =>
    let pa := field e.leaf.toNat 51 16 * 2 ^ 16 + (va % 2 ^ 57 - e.va)
    (if !s.exists? pa then .fault else if need.met e.leaf.toNat then .ok pa (bitAt e.leaf.toNat 5) else .fault, s)
  | none =>
    match s.ctx? ctx with
    | none => (.fault, s)
    | some c =>
      match s.walk c va with
      | .pend => (.pend, s)
      | .fault => (.fault, s)
      | .leaf pa base size e =>
        let s := s.modCluster cl (fun k => { k with
          tlb := k.tlb.drop (k.tlb.length - 2047) ++ [{ ctx := ctx, va := base, size := size, leaf := BitVec.ofNat 64 e }] })
        let pa := pa + (va % 2 ^ 57 - base)
        (if !s.exists? pa then .fault else if need.met e then .ok pa (bitAt e 5) else .fault, s)

/-- Translate without a TLB, as the command processor and firmware do (R453). -/
def State.translateCp (s : State) (ctx va : Nat) (need : Need) : Xlate :=
  match s.ctx? ctx with
  | none => .fault
  | some c =>
    if !canonicalVa va then .fault
    else match s.walk c va with
      | .pend => .pend
      | .fault => .fault
      | .leaf pa base _ e =>
        let pa := pa + (va % 2 ^ 57 - base)
        if !s.exists? pa then .fault else if need.met e then .ok pa (bitAt e 5) else .fault

/-! ### Accesses of the command processor and firmware (15 R453) -/

/-- Outcome of such an access. -/
inductive CpRes (α : Type) where
  | ok (a : α)
  /-- A page is not present: its address, and whether the access is a write. -/
  | pend (p : Park)
  | fault
  deriving DecidableEq, Repr, Inhabited

/-- One access after another. -/
def CpRes.bind {α β : Type} (r : CpRes α) (f : α → CpRes β) : CpRes β :=
  match r with
  | .ok a => f a
  | .pend p => .pend p
  | .fault => .fault

/-- The pieces of a range that lie in one 64 KiB page each: address and length. -/
def pieces (va n : Nat) : List (Nat × Nat) :=
  (List.range ((va % 65536 + n + 65535) / 65536)).filterMap (fun k =>
    let lo := max va ((va / 65536 + k) * 65536)
    let hi := min (va + n) ((va / 65536 + k + 1) * 65536)
    if lo < hi then some (lo, hi - lo) else none)

/-- Translate every piece of a range. -/
def State.mapCp (s : State) (ctx : Nat) (need : Need) : List (Nat × Nat) → CpRes (List (Nat × Nat))
  | [] => .ok []
  | (va, n) :: rest =>
    match s.translateCp ctx va need with
    | .pend => .pend { va := va, write := need.w, engine := true }
    | .fault => .fault
    | .ok pa _ =>
      if (s.firstMissing pa n).isSome then .fault
      else match State.mapCp s ctx need rest with
        | .ok l => .ok ((pa, n) :: l)
        | r => r

def State.cpRead (s : State) (ctx va n : Nat) : CpRes (List Byte) :=
  match s.ctx? ctx with
  | none => .fault
  | some _ => (s.mapCp ctx { r := true } (pieces va n)).bind (fun l => .ok (l.flatMap (fun p => s.home p.1 p.2)))

/-- Whether a read for a context takes a poisoned byte. The command processor is an agent (11 R269): such a read ends the tree that it serves (17
R427). -/
def State.cpTainted (s : State) (ctx va n : Nat) : Bool :=
  !s.poison.isEmpty && match s.mapCp ctx { r := true } (pieces va n) with
    | .ok l => l.any (fun p => s.poisoned p.1 p.2)
    | _ => false

/-- Write the bytes over translated pieces. -/
def State.putPieces (s : State) : List (Nat × Nat) → List Byte → State
  | [], _ => s
  | (pa, n) :: rest, bs => State.putPieces (s.setHome pa (bs.take n)) rest (bs.drop n)

/-- The access is a write, whatever it needs of its pages. -/
def CpRes.asWrite {α : Type} (r : CpRes α) : CpRes α :=
  match r with
  | .pend p => .pend { p with write := true }
  | r => r

/-- Write for the context. A write to a save slot ignores WR (16 R394). -/
def State.cpWrite (s : State) (ctx va : Nat) (bs : List Byte) (anyPage : Bool := false) : CpRes State :=
  match s.ctx? ctx with
  | none => .fault
  | some _ => (s.mapCp ctx { w := !anyPage } (pieces va bs.length)).asWrite.bind (fun l => .ok (s.putPieces l bs))

/-- The state that an access leaves, or the one before it. -/
def CpRes.okOr (r : CpRes State) (s : State) : State :=
  match r with
  | .ok s => s
  | _ => s

/-- Hold a write of the command processor until the replay doorbell (15 R453). -/
def State.holdWrite (s : State) (ctx va : Nat) (bs : List Byte) : State := s.modCtx ctx (fun c => { c with heldEvents := c.heldEvents ++ [(va, bs)] })

/-- The event record that is next in a context's ring (15 R373). -/
def Ctx.eventBytes (c : Ctx) (code tree value flags : Nat) : List Byte :=
  leBytes 4 code ++ leBytes 4 c.eventCount ++ leBytes 8 tree ++ leBytes 8 value ++ leBytes 8 flags
/-- Its address. -/
def Ctx.eventAddr (c : Ctx) : Nat := c.events + 32 * (c.eventCount % 256)
/-- Count an event of a context. -/
def State.countEvent (s : State) (ctx : Nat) : State := s.modCtx ctx (fun c => { c with eventCount := c.eventCount + 1 })
/-- A page of a context has a page fault outstanding (15 R377). -/
def State.noteFault (s : State) (ctx page : Nat) : State := s.modCtx ctx (fun c => { c with faults := c.faults ++ [page] })

/-- Write the bytes of an event record (15 R373). Where their page is not present they are held, and what follows is that page's page-fault event,
where it has none outstanding. -/
def State.writeEvent (next : Nat → State → State) (s : State) (ctx va : Nat) (bs : List Byte) : State :=
  match s.cpWrite ctx va bs with
  | .ok s => s
  | .fault => s
  | .pend p =>
    match s.ctx? ctx with
    | none => s
    | some c =>
      if c.faults.contains (p.va / 65536) then s.holdWrite ctx va bs else next p.va ((s.holdWrite ctx va bs).noteFault ctx (p.va / 65536))

/-- Write an event record, with what follows where its page is not present. -/
def State.logEvent (next : Nat → State → State) (s : State) (ctx code tree value flags : Nat) : State :=
  match s.ctx? ctx with
  | none => s
  | some c => (s.countEvent ctx).writeEvent next ctx c.eventAddr (c.eventBytes code tree value flags)

/-- Write an event record (15 R373). The page-fault event of its page may itself meet the ring's other page. -/
def State.putEvent (s : State) (ctx code tree value flags : Nat) : State :=
  s.logEvent (fun v s => s.logEvent (fun v s => s.logEvent (fun _ s => s) ctx 2 0 v 5) ctx 2 0 v 5) ctx code tree value flags

/-- Raise the page-fault event of a page, once while a fault on it is outstanding (15 R377). -/
def State.raisePageFault (s : State) (ctx tree : Nat) (p : Park) : State :=
  match s.ctx? ctx with
  | none => s
  | some c =>
    if c.faults.contains (p.va / 65536) then s
    else
      (s.noteFault ctx (p.va / 65536)).putEvent ctx 2 tree p.va
        (b2n p.write + 2 * b2n p.fetch + 4 * b2n p.engine)

/-- A delivery, save, restore or merge of a task waits for a page (15 R453). -/
def State.taskWaits (s : State) (id : Nat) (p : Park) : State :=
  match s.task? id with
  | none => s
  | some t => (s.raisePageFault t.entry.ctx (match s.tree? t.entry.tree with | some r => r.ordinal.toNat | none => 0) p).modTask id (fun t =>
      { t with waits := some p })

/-- The walker or the completion of a tree waits for a page (15 R453). -/
def State.treeWaits (s : State) (tree : Nat) (p : Park) : State :=
  match s.tree? tree with
  | none => s
  | some r => (s.raisePageFault r.ctx r.ordinal.toNat p).modTree tree (fun r => { r with waits := some p })

/-- A core waits for a page of a spill area or a trace of a context: it starts, steals and spills no entry until the replay doorbell (13 R327; 15
R453). -/
def State.coreWaits (s : State) (core ctx tree : Nat) (p : Park) : State :=
  (s.raisePageFault ctx tree p).modCore core (fun c => { c with waits := some (ctx, p) })

/-- A write of the command processor, for the context, of bytes of a queue descriptor: lost where the page cannot be written, held where it is
not present (15 R453). -/
def State.writeDescriptor (s : State) (ctx va : Nat) (bs : List Byte) : State :=
  match s.cpWrite ctx va bs with
  | .ok s => s
  | .fault => s
  | .pend p => (s.holdWrite ctx va bs).raisePageFault ctx 0 p

/-- Clear ENABLED of a queue and raise a queue-disabled event (15 R380). Enabled again by the host, it stays idle until its next doorbell write, a DESIGN
CHOICE (log entry 96). -/
def State.disableQueue (s : State) (ctx q : Nat) : State :=
  match s.ctx? ctx with
  | none => s
  | some c =>
    let va := c.queueTab + 64 * q + 9
    let s := match s.cpRead ctx va 1 with
      | .ok (b :: _) => s.writeDescriptor ctx va [b &&& 0xFE]
      | _ => s
    (s.modCtx ctx (fun c => { c with queues := Sparse.modify {} c.queues q (fun x => { x with dead := true }) })).putEvent ctx 3 0 q 0

/-! ### The race filter (08 R204 to R208) -/

/-- Physical address of the postmark of a sector (10 R246). -/
def State.postmarkAddr (s : State) (pa : Nat) : Nat :=
  let d := pa / dieBytes
  s.postmarkBase d + 4 * ((pa - d * dieBytes) / 32)

/-- A strand-table entry (R208): 68 bytes. -/
def strandBytes (st : Strand) : List Byte :=
  let mk := match st.getLast? with | some p => p.ordinal == 1024 | none => false
  let el (p : StrandPair) : Nat := p.block * 1024 + (if p.ordinal = 1024 then 0x3FF else p.ordinal)
  leBytes 2 (st.length + 64 * b2n mk) ++ leBytes 2 0
    ++ (st.flatMap (fun p => leBytes 2 (el p))) ++ List.replicate (64 - 2 * st.length) 0

/-- Turn the filter of a tree off and log the event (R208). -/
def State.filterOff (s : State) (tree : Nat) : State :=
  match s.tree? tree with
  | none => s
  | some t => (s.modTree tree (fun t => { t with filter := false })).putEvent t.ctx 1 t.ordinal.toNat 0 0

/-- Whether 68 bytes keep the form of a strand-table entry (R208). -/
def strandEntryOk (d : List Byte) : Bool :=
  let n := field (leField d 0 2) 5 0
  decide (1 ≤ n) && decide (n ≤ 32) && decide (leField d 0 2 < 128) && leField d 2 2 == 0 && leField d (4 + 2 * n) (64 - 2 * n) == 0

/-- A strand from a strand-table entry. -/
def strandOf (d : List Byte) : Strand :=
  let n := field (ofLE (d.take 2)) 5 0
  let el (k : Nat) : Nat := ofLE ((d.drop (4 + 2 * k)).take 2)
  (List.range n).map (fun k =>
    { block := el k / 1024, ordinal := if bitAt (ofLE (d.take 2)) 6 && k + 1 == n then 1024 else el k % 1024 })

/-- Address of entry i of a tree's strand table (R208). -/
def Tree.strandAddr (t : Tree) (c : Ctx) (i : Nat) : Nat := c.filter + 65536 * t.pages.getD (i / 963) 0 + 68 * (i % 963)

/-- The strand that a postmark names: entry i of the tree's strand table, as its memory holds it (15 R453). -/
def State.strandAt (s : State) (t : Tree) (i : Nat) : CpRes Strand :=
  match s.ctx? t.ctx with
  | none => .fault
  | some c => (s.cpRead t.ctx (t.strandAddr c i) 68).bind (fun d => .ok (strandOf d))

/-- Whether a read of that entry takes a poisoned byte. -/
def State.strandTainted (s : State) (t : Tree) (i : Nat) : Bool :=
  match s.ctx? t.ctx with
  | none => false
  | some c => s.cpTainted t.ctx (t.strandAddr c i) 68

/-- The last 52 bytes of a filter page that a tree takes are zero (R208). -/
def State.clearTail (s : State) (t : Tree) (c : Ctx) (page : Nat) : CpRes State :=
  if t.pages.contains page then .ok s else s.cpWrite t.ctx (c.filter + 65536 * page + 65484) (List.replicate 52 0)

/-- Write entry i of a tree's strand table, in a page of the filter area, whose last 52 bytes are zero. Where it cannot be written, the filter goes
off. -/
def State.enterStrand (s : State) (tree : Nat) (t : Tree) (st : Strand) (i : Nat) (c : Ctx) (page : Nat) : Option Nat × State :=
  match (s.clearTail t c page).bind (fun s => s.cpWrite t.ctx (c.filter + 65536 * page + 68 * (i % 963)) (strandBytes st)) with
  | .ok s =>
    (some i, s.modTree tree (fun t => { t with
      strands := t.strands ++ [st]
      pages := if t.pages.contains page then t.pages else t.pages ++ [page] }))
  | _ => (none, s.filterOff tree)

/-- The index of a strand in the tree's strand table, taking the next one and writing its entry where it has none (R208). -/
def State.strandId (s : State) (tree : Nat) (st : Strand) : Option Nat × State :=
  match s.tree? tree with
  | none => (none, s)
  | some t =>
    if t.strands.contains st then (some (t.strands.idxOf st), s)
    else
      let i := t.strands.length
      match s.ctx? t.ctx with
      | none => (none, s)
      | some c =>
        if 2 ^ 24 ≤ i then (none, s.filterOff tree)
        else
          let held := (s.trees.filter (fun r => r.ctx == t.ctx)).flatMap (fun r => r.pages)
          let page? := if i / 963 < t.pages.length then t.pages[i / 963]?
                       else (List.range (min c.filterSize (held.length + 1))).find? (fun p => !held.contains p)
          match page? with
          | none => (none, s.filterOff tree)
          | some page => s.enterStrand tree t st i c page

/-- A race: the cause, the postmark's STRAND and the physical address of the sector. -/
structure Race where
  cause : Nat
  strand : Nat
  sector : Nat
  deriving DecidableEq, Repr, Inhabited

/-- How an access fails. -/
inductive AccErr where
  | pend (va : Nat)
  | fault (va : Nat)
  | race (r : Race) (va : Nat)
  | poison
  /-- A page of the filter area is not present, or cannot be read (15 R453). -/
  | strandPend (va : Nat)
  | filterLost
  deriving DecidableEq, Repr, Inhabited

/-- Check one sector against a strand (R206), for an access to an address in it. Its postmark may stand in a channel out of service or be poisoned
(17 R427, R429), and the strand that it names may not be readable (15 R453). -/
def State.sectorRace (s : State) (t : Tree) (st : Strand) (write : Bool) (sec va : Nat) : Option AccErr :=
  let at' := s.postmarkAddr sec
  if !s.exists? at' then some (.fault va)
  else if s.poisoned at' 4 then some .poison
  else
    let pm := ofLE (s.home at' 4)
    if bitAt pm 24 && some (field pm 31 25) == t.tag then
      if s.strandTainted t (field pm 23 0) then some .poison
      else match s.strandAt t (field pm 23 0) with
      | .pend p => some (.strandPend p.va)
      | .fault => some .filterLost
      | .ok q =>
        if parallel st q then some (.race { cause := if write then cRACE_WW else cRACE_RW, strand := field pm 23 0, sector := sec } va)
        else none
    else none

/-- Check the sectors of a physical range at a virtual address. -/
def State.raceIn (s : State) (t : Tree) (st : Strand) (write : Bool) (va pa n : Nat) : Option AccErr :=
  (List.range ((pa % 32 + n + 31) / 32)).findSome? (fun k =>
    let sec := (pa / 32 + k) * 32
    s.sectorRace t st write sec (va + (max sec pa - pa)))

/-- Mark the sectors of a physical range as written by a strand (R206). -/
def State.mark (s : State) (tree : Nat) (st : Strand) (pa n : Nat) : State :=
  match s.strandId tree st with
  | (none, s) => s
  | (some i, s) =>
    match s.tree? tree with
    | none => s
    | some t =>
      let pm := i + 2 ^ 24 + 2 ^ 25 * (t.tag.getD 0)
      (List.range ((pa % 32 + n + 31) / 32)).foldl (fun s k =>
        s.setHome (s.postmarkAddr ((pa / 32 + k) * 32)) (leBytes 4 pm)) s

/-! ### Global accesses of agents and engines -/

def Acc.ofTask (t : Task) (th : Option Nat) : Acc :=
  { ctx := t.entry.ctx, tree := t.entry.tree, cl := t.cluster, strand := t.strand th }

/-- Translate every page piece of a range through the cluster's TLB. -/
def State.mapRange (s : State) (a : Acc) (need : Need) : List (Nat × Nat) → Except AccErr (List Seg) × State
  | [] => (.ok [], s)
  | (va, n) :: rest =>
    match s.translate a.ctx a.cl va need with
    | (.pend, s) => (.error (.pend va), s)
    | (.fault, s) => (.error (.fault va), s)
    | (.ok pa wt, s) =>
      match s.firstMissing pa n with
      | some k => (.error (.fault (va + k)), s)
      | none =>
        match State.mapRange s a need rest with
        | (.ok l, s) => (.ok ({ va := va, pa := pa, n := n, watched := wt } :: l), s)
        | r => r

/-- Whether the filter of the access's tree is on and the segment is watched. -/
def State.filtering (s : State) (a : Acc) (g : Seg) : Bool :=
  a.checked && g.watched && match s.tree? a.tree with | some t => t.filter | none => false

/-- The first race of an access in its segments, or what keeps the filter from deciding. -/
def State.firstRace (s : State) (a : Acc) (write : Bool) (segs : List Seg) : Option AccErr :=
  match s.tree? a.tree with
  | none => none
  | some t => segs.findSome? (fun g =>
      if s.filtering a g then s.raceIn t a.strand write g.va g.pa g.n else none)

/-- Read translated segments that no race stops. -/
def State.readNow (s : State) (a : Acc) (segs : List Seg) : Except AccErr (List Byte) × State :=
  if segs.any (fun g => s.tainted a.cl g.pa g.n) then (.error .poison, s)
  else
    segs.foldl (fun r g =>
        match r with
        | (.error e, s) => (.error e, s)
        | (.ok bs, s) =>
          let (more, s) := s.loadBytes a.cl g.pa (s.usesL1 a.cl a.scope && !s.filtering a g) g.n
          (.ok (bs ++ more), s))
      (.ok [], s)

/-- Read translated segments (R206, R288: a race changes nothing). A filter area that cannot be read turns the filter off (15 R453). -/
def State.readSegs (s : State) (a : Acc) (segs : List Seg) : Except AccErr (List Byte) × State :=
  match s.firstRace a false segs with
  | some .filterLost => (s.filterOff a.tree).readNow a segs
  | some e => (.error e, s)
  | none => s.readNow a segs

/-- Write translated segments with data and postmarks in one step (R204, R206). A sector wholly written through is no longer poisoned. -/
def State.writeNow (s : State) (a : Acc) (segs : List Seg) (bs : List Byte) : State :=
  (segs.foldl (fun (p : State × List Byte) g =>
    let (s, bs) := p
    let s := if s.filtering a g then s.mark a.tree a.strand g.pa g.n else s
    let l1 := s.usesL1 a.cl a.scope && !g.watched
    let s := s.storeBytes a.cl g.pa l1 (bs.take g.n)
    (if l1 then s else s.scrub g.pa g.n, bs.drop g.n)) (s, bs)).1

/-- The same, after the check for races. -/
def State.writeSegs (s : State) (a : Acc) (segs : List Seg) (bs : List Byte) : Except AccErr State :=
  match s.firstRace a true segs with
  | some .filterLost => .ok ((s.filterOff a.tree).writeNow a segs bs)
  | some e => .error e
  | none => .ok (s.writeNow a segs bs)

/-- Stop an agent for a failed access (10 R259, 15 R377, 17 R427). -/
def accStop {α : Type} (a : Acc) (addr : Nat) (write : Bool) (e : AccErr) : M α :=
  match e with
  | .pend va => throw (.park { va := va, write := write, engine := a.engine })
  | .fault va => trapAddr cMEM_FAULT (if a.engine then va else addr)
  | .race r _ => throw (.trap { cause := r.cause, addr := some addr, ident := r.strand })
  | .poison => throw (.endTree stUNCORRECTED)
  | .strandPend va => throw (.park { va := va, engine := true })
  | .filterLost => throw .wait

/-- Translate a range for an agent. -/
def mapFor (a : Acc) (addr va n : Nat) (need : Need) : M (List Seg) := do
  let (r, s) := (← get).mapRange a need (pieces va n)
  set s
  match r with
  | .ok l => pure l
  | .error e => accStop a addr need.w e

/-- An agent's load of n bytes (10 R260): translation, race check, value, then the acquire of its ORDER. -/
def loadVa (a : Acc) (va n : Nat) : M (List Byte) := do
  let segs ← mapFor a va va n { r := true }
  let (r, s) := (← get).readSegs a segs
  set s
  match r with
  | .error e => accStop a va false e
  | .ok bs =>
    if a.order % 2 = 1 then modify (fun s => s.acquireAt a.cl a.scope)
    pure bs

/-- An agent's store (10 R260), after the release of its ORDER. A release write reaches the home slice. -/
def storeVa (a : Acc) (va : Nat) (bs : List Byte) : M Unit := do
  let segs ← mapFor a va va bs.length { w := true }
  if 2 ≤ a.order then modify (fun s => s.releaseAt a.cl a.scope)
  match (← get).writeSegs a segs bs with
  | .error e => accStop a va true e
  | .ok s => set s

/-- A device write of an agent into its task's save slot, relaxed: it ignores WR (16 R394; log entry 65). -/
def storeSlot (a : Acc) (va : Nat) (bs : List Byte) : M Unit := do
  let (r, s) := (← get).mapRange a {} (pieces va bs.length)
  set s
  match r with
  | .error e => accStop a va true e
  | .ok segs =>
    match (← get).writeSegs a segs bs with
    | .error e => accStop a va true e
    | .ok s => set s

/-- An atomic performed at the home slice (10 R248, R262; 11 R281), dirty copies of its line having been written back: its old value, and the state
after the release and the acquire of its ORDER. A copy held is refreshed. -/
def State.atomHome (s : State) (a : Acc) (pa n : Nat) (f : Nat → Option Nat) : Nat × State :=
  let old := ofLE (s.home pa n)
  let new := f old
  let rel := if new.isSome && decide (2 ≤ a.order) then s.releaseAt a.cl a.scope else s
  let s := match new with
    | some v => rel.storeBytes a.cl pa false (leBytes n v)
    | none => (rel.loadBytes a.cl pa false n).2
  (old, if a.order % 2 = 1 then s.acquireAt a.cl a.scope else s)

/-- An atomic at the home slice: dirty copies of the line, in any cluster, are written back first. -/
def atomicVa (a : Acc) (va n : Nat) (f : Nat → Option Nat) : M Nat := do
  let segs ← mapFor a va va n { r := true, w := true }
  match segs with
  | [] => throw .wait
  | g :: _ =>
    let s := (← get).writeBackEverywhere (g.pa / 128)
    if s.poisoned g.pa n then throw (.endTree stUNCORRECTED)
    let (old, s) := s.atomHome a g.pa n f
    set s
    pure old

/-! ### Accesses passed over (11 R274, R275) -/

/-- The new value of an atomic under an operation code (10 R261). -/
def atomNew (code n old v : Nat) : Nat :=
  let w := 8 * n
  let ty : FpType := if n = 8 then .fp64 else .fp32
  match code with
  | 0 => trunc (old + v) w
  | 1 => if signExt old w ≤ signExt v w then old else v
  | 2 => if signExt old w ≤ signExt v w then v else old
  | 3 => min old v
  | 4 => max old v
  | 5 => old &&& v
  | 6 => old ||| v
  | 7 => old ^^^ v
  | 8 => v
  | 9 => ty.encode (roundTo ty.fmt ((ty.decode old).add .nearestEven (ty.decode v)) .nearestEven)
  | 10 => fminmax ty false false old v
  | _ => fminmax ty true false old v

/-- The new value of an atomic of an operation code, or with none of an ATOMCAS (10 R262, R263). -/
def atomValue (code : Option Nat) (n value compare old : Nat) : Option Nat :=
  match code with
  | some c => some (atomNew c n old value)
  | none => if old = compare then some value else none

/-- Whether an access that has been passed over touches a byte of a range; a FENCE.rel touches none. -/
def Late.meets (x : Late) (pa n : Nat) : Bool := decide (x.seg.pa < pa + n) && decide (pa < x.seg.pa + x.seg.n)

/-- Whether it writes memory. -/
def Late.stores (x : Late) : Bool :=
  match x.op with
  | .store _ | .atom .. => true
  | .load .. | .fence => false

/-- Whether it reads memory: a load or an atomic. -/
def Late.reads (x : Late) : Bool :=
  match x.op with
  | .load .. | .atom .. => true
  | .store _ | .fence => false

def Late.isFence (x : Late) : Bool :=
  match x.op with
  | .fence => true
  | _ => false

/-- The registers that it writes, when it is performed: the first and how many. -/
def Late.dest (x : Late) : Nat × Nat :=
  match x.op with
  | .load d n .. => (d, n)
  | .atom _ _ _ d n => (d, n)
  | .store _ | .fence => (0, 0)

/-- Whether it is a store that the race filter has checked and that touches a sector of a range. -/
def Late.marks (x : Late) (tree pa n : Nat) : Bool :=
  x.acc.checked && x.seg.watched && x.acc.tree == tree && x.stores
    && x.meets (pa / 32 * 32) ((pa + n + 31) / 32 * 32 - pa / 32 * 32)

/-- What a load that has been passed over writes. -/
def lateValue (sext : Nat) (thread : Bool) (bs : List Byte) : Nat :=
  if sext = 0 then ofLE bs else truncInt (signExt (ofLE bs) sext) (if thread then 32 else 64)

/-- The accesses that an agent has passed over. -/
def State.lateOf (s : State) (w : Who) : List Late := (s.agent w).late

/-- What a store, or an atomic without its result, does when it is performed. -/
def State.storeLate (s : State) (x : Late) : State :=
  match x.op with
  | .store bs => (if 2 ≤ x.acc.order then s.releaseAt x.acc.cl x.acc.scope else s).writeNow x.acc [x.seg] bs
  | .atom code v cmp _ _ =>
    ((s.writeBackEverywhere (x.seg.pa / 128)).atomHome x.acc x.seg.pa x.seg.n (atomValue code x.seg.n v cmp)).2
  | .fence => s.releaseAt x.acc.cl x.acc.scope
  | .load .. => s

/-- Perform the stores that the agents of a tree's tasks have passed over. -/
def State.settleStores (s : State) (tree : Nat) : State :=
  (s.tasks.filter (fun t => t.entry.tree == tree && t.resident)).foldl (fun s t =>
    (t.u.ag.late ++ t.threads.flatMap (fun th => th.ag.late)).foldl (fun s x => s.storeLate x) s) s

/-! ### Ending a tree (13 R323) -/

/-- Free the save slot of a task. -/
def State.freeSlot (s : State) (t : Task) : State :=
  s.modCtx t.entry.ctx (fun c => { c with slots := c.slots.filter (fun p => p.1 != t.savePtr) })

/-- A cluster forgets a bank switch that a task has begun: the banks that it closes open again (10 R250). -/
def Cluster.leaveSwitch (c : Cluster) (id : Nat) : Cluster :=
  { c with
    switchers := c.switchers.filter (fun k => k != id)
    banks := if c.switchers.head? = some id then c.banks.map (fun b => { b with closing := none }) else c.banks }

/-- A cluster forgets a task: its ACQUIRE request, its reservations, a bank switch that it has begun. -/
def Cluster.forget (c : Cluster) (id : Nat) : Cluster :=
  { c with
    acq := c.acq.filter (fun a => a.task != id)
    table := c.table.filter (fun p => p.1 != id) }.leaveSwitch id

/-- Remove a task from every unit that knows it. Its requests in the collector go with it: at a flush they count as commands that have not begun (16
R404; a DESIGN CHOICE, log entry 101). -/
def State.dropTask (s : State) (t : Task) : State :=
  let id := t.entry.id
  let s := match t.core? with
    | none => s
    | some k =>
      (s.modCore k (fun c => { c with
          bundles := c.bundles.filter (fun b => b.task != id)
          promoted := c.promoted.filter (fun p => p.1 != id)
          collector := c.collector.filter (fun g => g.task != id) })).modCluster (clusterOf k)
        (fun c => c.forget id)
  { s with tasks := s.tasks.filter (fun x => x.entry.id != id) }

/-- Remove a task for good, with its save slot. -/
def State.endTask (s : State) (t : Task) : State := (s.freeSlot t).dropTask t

/-- A deque whose new-end entry begins to wait at a cycle (13 R329). -/
def markEnd (now : Nat) (d : List Entry) : List Entry :=
  match d.getLast? with
  | some e => d.dropLast ++ [{ e with since := now }]
  | none => []

/-- A deque without the entries of a tree. An entry that becomes the new-end one begins to wait. -/
def Core.purge (c : Core) (tree now : Nat) : Core :=
  let d := c.deque.filter (fun e => e.tree != tree)
  { c with
    deque := if (d.getLast?.map (fun e => e.id)) = (c.deque.getLast?.map (fun e => e.id)) then d else markEnd now d
    spilled := ((c.deque.take c.spilled).filter (fun e => e.tree != tree)).length }

/-- Remove the entries of a tree of a context from every deque. A core that waits for a page of the context tries again (15 R372, R453). -/
def State.purgeDeques (s : State) (tree ctx : Nat) : State :=
  { s with cores := s.cores.filterMap (fun p =>
      let c := { p.2.purge tree (s.cycle (clusterOf p.1)) with waits := p.2.waits.filter (fun w => w.1 != ctx) }
      if c = Core.init then none else some (p.1, c)) }

/-- Abort a tree: its tasks and entries go, and TREE_COMPLETE reports the status and decrements the signal. -/
def State.abortTree (s : State) (tree status : Nat) : State :=
  match s.tree? tree with
  | none => s
  | some t =>
    if t.ending.isSome then s
    else
      let s := s.settleStores tree
      let s := (s.tasks.filter (fun x => x.entry.tree == tree)).foldl (fun s x => s.endTask x) s
      (s.purgeDeques tree t.ctx).modTree tree (fun t => { t with
        ending := some status, tiles := t.walker, tops := [], waits := none })

/-- What a load that has been passed over reads when it is performed: a checked one that now meets a race was performed when it was checked (11
R288). -/
def State.readLate (s : State) (x : Late) (seen : Option (List Byte)) : List Byte × State :=
  match s.firstRace x.acc false [x.seg], seen with
  | some _, some bs => (bs, s)
  | _, _ => s.loadBytes x.acc.cl x.seg.pa (s.usesL1 x.acc.cl x.acc.scope && !s.filtering x.acc x.seg) x.seg.n

/-- Perform one access of the list that an agent has passed over: a store writes its bytes, a load its register, an atomic both. -/
def State.performOne (s : State) (w : Who) (n : Nat) : State :=
  match s.task? w.task, (s.lateOf w)[n]? with
  | some t, some x =>
    let s := s.modAgent w (fun a => { a with late := a.late.eraseIdx n })
    match x.op with
    | .store _ | .fence => s.storeLate x
    | .load d k e seen =>
      if s.tainted x.acc.cl x.seg.pa x.seg.n then s.abortTree t.entry.tree stUNCORRECTED
      else
        let (bs, s) := s.readLate x seen
        s.modTask w.task (fun t => t.setRegs w.thread d k (lateValue e w.thread.isSome bs))
    | .atom code v cmp d k =>
      let s := s.writeBackEverywhere (x.seg.pa / 128)
      if s.poisoned x.seg.pa x.seg.n then s.abortTree t.entry.tree stUNCORRECTED
      else
        let (old, s) := s.atomHome x.acc x.seg.pa x.seg.n (atomValue code x.seg.n v cmp)
        s.modTask w.task (fun t => t.setRegs w.thread d k old)
  | _, _ => s

/-- How many of the accesses before the n-th that an agent has passed over are performed before it (11 R275): all before a release write and a
FENCE.rel, those up to the last FENCE.rel before another write, and none before a load or an ATOMCAS that fails. -/
def State.lateBefore (s : State) (l : List Late) (n : Nat) : Nat :=
  match l[n]? with
  | none => 0
  | some x =>
    let fails : Bool := match x.op with
      | .atom none _ cmp _ _ => ofLE ((s.writeBackEverywhere (x.seg.pa / 128)).home x.seg.pa x.seg.n) != cmp
      | _ => false
    if x.isFence || (x.stores && !fails && decide (2 ≤ x.acc.order)) then n
    else if x.stores && !fails then ((idxWhere n (fun k => (l[k]?).any Late.isFence)).getLast?.map (fun k => k + 1)).getD 0
    else 0

/-- Perform the first m accesses that an agent has passed over. -/
def State.performFirst (s : State) (w : Who) : Nat → State
  | 0 => s
  | m + 1 => State.performFirst (s.performOne w 0) w m

/-- Perform the n-th access that an agent has passed over, after those that it may not be performed before. -/
def State.performLate (s : State) (w : Who) (n : Nat) : State :=
  let m := s.lateBefore (s.lateOf w) n
  (s.performFirst w m).performOne w (n - m)

/-- Perform those of the accesses that an agent has passed over that satisfy a test, oldest first; a list of its length bounds them. -/
def State.settleLate (s : State) (w : Who) (p : Late → Bool) : List Late → State
  | [] => s
  | _ :: xs =>
    match (s.lateOf w).findIdx? p with
    | none => s
    | some n => State.settleLate (s.performLate w n) w p xs

/-- Perform, before a write of an agent, what it has passed over up to its last FENCE.rel (11 R275). -/
def State.settleFenced (s : State) (w : Who) : State :=
  match (idxWhere (s.lateOf w).length (fun k => ((s.lateOf w)[k]?).any Late.isFence)).getLast? with
  | some n => s.performLate w n
  | none => s

/-- The agents of a task that have passed over an access. -/
def Task.passers (t : Task) : List (Option Nat) :=
  (if t.u.ag.late.isEmpty then [] else [none]) ++ (t.threadsWhere (fun _ th => !th.ag.late.isEmpty)).map some

/-- Perform the accesses that the agents of some tasks have passed over and that satisfy a test. -/
def State.settleWhere (s : State) (ts : List Task) (p : Late → Bool) : State :=
  ts.foldl (fun s t => t.passers.foldl (fun s th =>
    let w : Who := { task := t.entry.id, thread := th }
    s.settleLate w p (s.lateOf w)) s) s

/-- Before the race filter checks an access, the stores that it has checked before in the same sectors are performed, whoever has passed them over
(08 R206; 11 R288). -/
def State.settleWatched (s : State) (tree pa n : Nat) : State := s.settleWhere s.tasks (fun x => x.marks tree pa n)

/-- Perform every access that an agent has passed over. -/
def State.settleAll (s : State) : State := s.settleWhere s.tasks (fun _ => true)

/-! ### Traps (16 R396 to R401) -/

/-- The EXPAND and INNER fields of a thread with a current iteration (14 R369). -/
def Task.iteration (t : Task) (k : Nat) : Nat × Nat :=
  match t.expans.find? (fun e => decide (e.base ≤ k / 32) && decide (k / 32 < e.base + 2 ^ e.logn)) with
  | none => (0, 0)
  | some e =>
    let o := k - 32 * e.base
    if bitAt e.cur o then
      let w := popCount 128 e.dealer
      let rank := popCount o e.dealer
      let g := (e.round - 1) * w + rank
      let own := (idxWhere 128 (fun j =>
        let p := Sparse.get 0 e.pref j
        let q := if j + 1 < 32 * 2 ^ e.logn then Sparse.get 0 e.pref (j + 1) else e.total
        decide (p ≤ g) && decide (g < q))).headD 0
      (1 + 2 * (e.base + own / 32) + 32 * (own % 32),
        trunc (Sparse.get 0 e.start own + g - Sparse.get 0 e.pref own) 32)
    else (0, 0)

/-- The pending trap of an agent (R399, R400). -/
def State.mkTrap (s : State) (t : Task) (th : Option Nat) (pc : Nat) (w : InstrWord) (r : TrapReq) : Trap :=
  let it := match th with | some k => t.iteration k | none => (0, 0)
  { cause := r.cause, uniform := th.isNone, addr := r.addr, deferred := r.deferred, later := r.later, pc := pc, insn := w,
    tid := (match th with | some k => t.tid k | none => 0), digest := t.entry.ped.digest, expand := it.1, inner := it.2,
    ident := r.ident, stamp := s.cycle t.cluster, matrix := r.matrix }

/-- Taking a trap: the agent is held with its pending trap (R400); a uniform stream that traps in its handler ends the tree
(R401). Causes SWTRAP and BKPT have retired; LOOKAHEAD closes the window it names (R396). -/
def State.takeTrap (s : State) (who : Who) (pc : Nat) (w : InstrWord) (r : TrapReq) : State :=
  match s.task? who.task with
  | none => s
  | some t =>
    if who.thread.isNone && t.handler.isSome then s.abortTree t.entry.tree stHANDLER_TRAP
    else
      let s' := s.modAgent who (fun a => { a with
        pending := some (s.mkTrap t who.thread pc w r)
        waiting := false
        stall := none
        fence := none
        early := [] })
      if who.thread.isNone then s'.modTask who.task (fun t => { t with join := .none }) else s'

/-- The bytes of a frame (R399). -/
def Trap.frame (p : Trap) (lanes : Nat) (more : Bool) (upc s1 : Nat) (blk : Block) : List Byte :=
  leBytes 4 p.cause
  ++ leBytes 4 (b2n p.uniform + 2 * b2n p.addr.isSome + 4 * b2n (p.expand % 2 == 1) + 8 * b2n p.deferred + 16 * b2n more
      + 256 * min p.later 255)
  ++ leBytes 8 p.pc ++ leBytes 12 p.insn.toNat ++ leBytes 4 p.tid ++ leBytes 8 (p.addr.getD 0) ++ leBytes 4 lanes
  ++ leBytes 4 0 ++ leBytes 8 p.digest ++ leBytes 4 p.expand ++ leBytes 4 p.inner ++ leBytes 8 p.ident ++ leBytes 8 p.stamp
  ++ leBytes 8 upc ++ leBytes 8 s1 ++ leBytes 4 (blk.left + 16 * (blk.pat % 256) + 4096 * b2n blk.val) ++ List.replicate 28 0

/-- The agents of a task with a pending trap, the uniform stream first (R400). -/
def Task.pendings (t : Task) : List (Option Nat × Trap) :=
  (match t.u.ag.pending with | some p => [(none, p)] | none => [])
  ++ (t.threadsWhere (fun _ th => th.ag.pending.isSome)).filterMap (fun k => (t.thread k).ag.pending.map (fun p => (some k, p)))

/-- LANEMASK of a pending trap (R399): the lanes of the thread's group whose pending trap has its cause and pc; 0 for the uniform stream. -/
def Task.laneMask (t : Task) (th : Option Nat) (p : Trap) : Nat :=
  match th with
  | none => 0
  | some k => ofBits ((t.threadsWhere (fun j x => j / 32 == k / 32 &&
      match x.ag.pending with | some q => q.cause == p.cause && q.pc == p.pc | none => false)).map (fun j => j % 32))

/-- The frame of a pending trap, with what it takes from the uniform stream and from the other pending traps (R399, R400). -/
def Task.frameOf (t : Task) (th : Option Nat) (p : Trap) : List Byte :=
  p.frame (t.laneMask th p) (decide (1 < t.pendings.length)) t.u.ag.pc.toNat (t.reg none 1) t.u.ag.block

/-- Whether an agent is held: by its trap (R400), by a save of its task that has begun (R406), or, the uniform stream, by a page that a delivery or
merge waits for (R394; 03 R65). A uniform stream that runs the handler is not held by a trap of its own that waits for delivery. -/
def Task.held (t : Task) (th : Option Nat) : Bool :=
  ((t.agent th).pending.isSome && !(th.isNone && t.handler.isSome)) || t.saving || (th.isNone && t.waits.isSome)

/-- The pending trap delivered first: the smallest STAMP, then the uniform stream's, then the lower thread. -/
def Task.firstPending (t : Task) : Option (Option Nat × Trap) :=
  t.pendings.foldl (fun best x =>
    match best with
    | none => some x
    | some y => if x.2.stamp < y.2.stamp then some x else best) none

/-! ### Fetch lines (03 R61 to R65) -/

/-- Whether an address is an instruction address (R64). -/
def isSlotAddr (a : Nat) : Bool := decide (4 ≤ a % 64) && (a % 64 - 4) % 12 == 0
/-- Slot of an instruction address within its line. -/
def slotOf (a : Nat) : Nat := (a % 64 - 4) / 12
/-- The address of the next instruction in program order (R64). -/
def nextSlot (a : Nat) : Nat := if slotOf a < 4 then a + 12 else (a / 64 + 1) * 64 + 4
/-- The slot number of an instruction address and back (R64). -/
def slotNumber (a : Nat) : Nat := 5 * (a / 64) + slotOf a
def addrOfSlot (n : Nat) : Nat := 64 * (n / 5) + 4 + 12 * (n % 5)

/-- Even parity of the low n bits: 1 when they hold an odd number of ones. -/
def parityBit (n v : Nat) : Nat := popCount n v % 2

/-- The instruction word of slot k of a line's bytes. -/
def lineSlot (bytes : List Byte) (k : Nat) : InstrWord := wordOfBytes ((bytes.drop (4 + 12 * k)).take 12)
/-- The line word. -/
def lineWord (bytes : List Byte) : Nat := ofLE (bytes.take 4)
/-- Reserved bits of the line word (R62, R63). -/
def lineReservedOk (bytes : List Byte) : Bool := field (lineWord bytes) 25 10 == 0
/-- The parities of the line word (R62, R63). -/
def lineParityOk (bytes : List Byte) : Bool :=
  let lw := lineWord bytes
  (List.range 5).all (fun k => field lw (26 + k) (26 + k) == parityBit 96 (lineSlot bytes k).toNat)
    && field lw 31 31 == parityBit 31 lw

/-- The line word that makes a line of five slots pass its checks, with given targets. -/
def mkLineWord (slots : List InstrWord) (targets : Nat) : Nat :=
  let low := targets + (List.range 5).foldl (fun v k => v + 2 ^ (26 + k) * parityBit 96 (slots.getD k 0).toNat) 0
  low + 2 ^ 31 * parityBit 31 low
/-- The bytes of a line. -/
def mkLine (slots : List InstrWord) (targets : Nat) : List Byte :=
  leBytes 4 (mkLineWord slots targets) ++ (List.range 5).flatMap (fun k => bytesOfWord (slots.getD k 0))

/-- What reading the line of an address gives: its physical address and bytes. -/
inductive LineRes where
  | ok (pa : Nat) (bytes : List Byte)
  | pend
  | fault
  | poison
  deriving DecidableEq, Repr, Inhabited

/-- The bytes of the line of an instruction address, from the core's caches or its home slice (R63, R87, R88). -/
def State.readLine (s : State) (t : Task) (va : Nat) : LineRes × State :=
  let base := va / 64 * 64
  match s.translate t.entry.ctx t.cluster base { x := true } with
  | (.pend, s) => (.pend, s)
  | (.fault, s) => (.fault, s)
  | (.ok pa _, s) =>
    match (s.core t.coreD).icache.find? (fun l => l.ctx == t.entry.ctx && l.version == shoucVersion && l.pa == pa) with
    | some l => (.ok pa l.bytes, s)
    | none =>
      if (s.firstMissing pa 64).isSome then (.fault, s)
      else if s.poisoned pa 64 then (.poison, s) else (.ok pa (s.home pa 64), s)

/-- The instruction bytes at an agent's program counter, for a trap frame. -/
def State.insnAt (s : State) (t : Task) (pc : Nat) : InstrWord :=
  match s.readLine t pc with
  | (.ok _ bytes, _) => lineSlot bytes (slotOf pc)
  | _ => 0

/-- The outcome of a target check (R65). -/
inductive TargetRes where
  | pass
  | bad
  | pend
  | poison
  deriving DecidableEq, Repr, Inhabited

/-- The check of a branch, entry or handler target (R65). -/
def State.checkTarget (s : State) (t : Task) (target : Nat) : TargetRes × State :=
  if !canonicalVa target || !isSlotAddr target then (.bad, s)
  else match s.readLine t target with
    | (.ok _ bytes, s) => (if bitAt (lineWord bytes) (slotOf target) then .pass else .bad, s)
    | (.pend, s) => (.pend, s)
    | (.fault, s) => (.bad, s)
    | (.poison, s) => (.poison, s)

/-- Deliver the first pending trap of a task (R400): write its frame, suspend the uniform stream's block and windows, and
enter the handler. A page that is not present holds the delivery, and with it the uniform stream (R65, R394). The frame's write happens before
the handler's accesses, as the cluster's L1 sees them. A trap that reports the matrix fault record clears it (07 R162). A stall, a QFENCE or a bank
switch of the uniform stream begins anew when it comes back to its instruction (log entry 37). -/
def State.deliver (s : State) (id : Nat) : State :=
  match s.task? id with
  | none => s
  | some t =>
    match t.firstPending with
    | none => s
    | some (th, p) =>
      match (s.writeBackAll t.cluster).cpWrite t.entry.ctx t.savePtr (t.frameOf th p) true with
      | .pend p => s.taskWaits id p
      | .fault => s.abortTree t.entry.tree stSAVE_POOL
      | .ok s =>
        let s := s.acquireAt t.cluster 3
        if t.trapVec = 0 then s.abortTree t.entry.tree stUNHANDLED
        else match s.checkTarget t t.trapVec.toNat with
          | (.bad, s) => s.abortTree t.entry.tree stUNHANDLED
          | (.poison, s) => s.abortTree t.entry.tree stUNCORRECTED
          | (.pend, s) => s.taskWaits id { va := t.trapVec.toNat / 64 * 64, fetch := true }
          | (.pass, s) =>
            let frame : Handler := { trap := p, upc := t.u.ag.pc, s1 := BitVec.ofNat 64 (t.reg none 1), block := t.u.ag.block,
                                       waiting := t.u.ag.waiting && t.u.ag.stall.isNone && t.u.ag.fence.isNone }
            (s.modCluster t.cluster (fun c => c.leaveSwitch id)).modTask id (fun t =>
              let t := t.setReg none 1 t.savePtr
              let t := { t with handler := some frame, fault := if p.matrix then none else t.fault }
              let t := t.modAgent none (fun a => { a with
                pc := t.trapVec
                block := {}
                waiting := false
                stall := none
                fence := none
                early := []
                windows := a.windows.map (fun wd => { wd with suspended := true }) })
              match th with
              | none => t.modAgent none (fun a => { a with pending := none })
              | some _ => t)

/-- Returning from a trap: the uniform stream leaves the handler for an address (16 R419). Its own windows go, the suspended
windows, block and s1 come back. -/
def State.leaveHandler (s : State) (id : Nat) (h : Handler) (pc : Nat) (entry : Bool := false) : State :=
  s.modTask id (fun t =>
    let t := t.setReg none 1 h.s1.toNat
    let t := t.modAgent none (fun a => { a with
      pc := BitVec.ofNat 64 pc
      entry := entry
      block := h.block
      waiting := h.waiting && pc == h.upc.toNat
      stall := none
      early := []
      windows := (a.windows.filter (fun w => !w.handler)).map (fun w => { w with suspended := false }) })
    { t with handler := none })

/-- Whether the reported instruction has retired (16 R396). -/
def Trap.retired (p : Trap) : Bool := p.cause == cSWTRAP || p.cause == cBKPT

/-- Step a predicate block past one instruction (03 R78). -/
def Block.step (b : Block) : Block :=
  if b.left ≤ 1 then {} else { left := b.left - 1, pat := b.pat / 2, val := b.val }

/-- Where a trapped agent goes on: at PC for resume, after it for skip and for a retired instruction; a rejected entry is
checked again (16 R419). A skipped instruction counts as one of an open block. -/
def Agent.resumeFrom (a : Agent) (p : Trap) (skip : Bool) : Agent :=
  if p.entry then { a with pc := BitVec.ofNat 64 p.pc, entry := true, pending := none }
  else if p.retired then { a with pc := BitVec.ofNat 64 (nextSlot p.pc), pending := none }
  else if skip then { a with pc := BitVec.ofNat 64 (nextSlot p.pc), pending := none, block := a.block.step }
  else { a with pc := BitVec.ofNat 64 p.pc, pending := none }

end Sys2Proof.Machine
end

