-- ==== Sys2Proof/Machine/Issue.lean ====
section
/-! DEFINITION. The issue of one instruction to an agent or a bundle: the order of its checks (03 R81), lookahead windows
(R75), predicate blocks (R78, R79), retirement, and helpers (02 R43). -/

namespace Sys2Proof.Machine

/-- Where an agent goes after an instruction that retires: to the next slot, to a target (a taken transfer, which closes an
open block), or where the instruction itself has put it. -/
inductive Flow where
  | next
  | jump (t : Nat)
  | done
  deriving DecidableEq, Repr, Inhabited

/-- ILLEGAL_OP by the state of the agent, part of the decode checks: PBLK inside an open block (R79). -/
def stateIllegal (i : Instr) (a : Agent) : Bool :=
  match i with
  | .pblk _ => decide (0 < a.block.left)
  | _ => false

/-- A register allotment of R50, or 24. -/
def regsAllowed (a : Nat) : Bool := a == 24 || a == 511 || (a % 16 == 0 && decide (16 ≤ a) && decide (a ≤ 496))
/-- ILLEGAL_OP that the entry of an instruction raises from the state of its task, where the instruction takes effect: outside
a sweep (09 R235), a group the task has not (14 R359, R364), sizes of ALLOC.cfg (08 R214), TRAPRET outside a handler (16 R419). Those of
space 0x28 come after every check of R81 (13 R343), in the bodies. -/
def entryIllegal (i : Instr) (f : Fields) (t : Task) (th : Option Nat) : Bool :=
  match i with
  | .cvqry _ | .cvqryBand _ | .cvprobe _ | .recon _ | .cverr _ => t.entry.tile.isNone
  | .xqry _ => th.isNone && decide (t.entry.groups ≤ iField f 19 16)
  | .xset _ => decide (t.entry.groups < (th.getD 0) / 32 / 2 ^ mField f 5 4 * 2 ^ mField f 5 4 + 2 ^ mField f 5 4)
  | .allocCfg _ => t.opnd none (rd .s) f.a % 64 != 0 || t.opnd none (rd .s) f.b % 64 != 0
  | .trapret _ => t.handler.isNone
  | _ => false

/-- A reducer index that the task may not name (08 R209, R454). -/
def reducerRange (i : Instr) (t : Task) : Bool :=
  match i with
  | .vupd f | .vread f | .logapp f =>
    t.allot.views == 0 || !t.entry.rcd.reducers.any (fun r => r.index == f.imm.toNat)
  | _ => false

/-- A name above the allotment (02 R52). -/
def rangeBad (sh : Shape) (f : Fields) (t : Task) (thread : Bool) : Bool :=
  (thread && (sh.named f).any (fun p => decide (t.allot.regs < spanTop p)))
  || (sh.fieldsOf f [.m, .m1]).any (fun k => decide (t.allot.mtiles < k))
  || (sh.fieldsOf f [.a, .a1]).any (fun k => decide (t.allot.atiles < k))
  || (sh.fieldsOf f [.h]).any (fun k => decide (t.allot.holes ≤ k))

/-- Whether an instruction names what a window's instruction writes (R75). -/
def Window.meets (wd : Window) (sh : Shape) (f : Fields) : Bool :=
  !wd.suspended
  && ((wd.count != 0 && (sh.named f).any (fun p => spansMeet p (wd.first, wd.count)))
      || (match wd.pred with | some p => (sh.namedPreds f).contains p | none => false))

/-- The window that an instruction opens (R75): none for L = 0. A destination of index 0 makes nothing depend on it. -/
def openWindow (sh : Shape) (f : Fields) (pc : Nat) (handler : Bool) : List Window :=
  if f.la = 0 then []
  else
    let preds := (if sh.d.wr && sh.d.kind == .p then [f.d.toNat] else []) ++ (if sh.c.wr && sh.c.kind == .p then [f.c.toNat] else [])
    let pred := (preds.filter (fun p => p != 0)).head?
    let n := if sh.d.wr && f.d != 0 then sh.d.kind.regs else 0
    [{ left := f.la.toNat, pred := pred, first := if n = 0 then 0 else f.d.toNat, count := n, handler := handler, addr := pc }]

/-- Windows after one instruction has retired. -/
def ageWindows (ws : List Window) : List Window :=
  (ws.filter (fun w => w.suspended || decide (1 < w.left))).map (fun w => if w.suspended then w else { w with left := w.left - 1 })

/-- Whether an open block suppresses the next instruction (R78). -/
def Block.suppresses (b : Block) : Bool := decide (0 < b.left) && (bitAt b.pat 0 != b.val)

/-- Retirement of an instruction. `inBlock` says whether a block was open at its issue. After the last slot of the address space comes slot 0 of its
first line, a DESIGN CHOICE (log entry 81). -/
def Agent.retire (a : Agent) (fl : Flow) (inBlock : Bool) (win : List Window) (cycle : Nat) : Agent :=
  match fl with
  | .done => { a with issued := cycle }
  | .next => { a with
      pc := BitVec.ofNat 64 (nextSlot a.pc.toNat)
      block := if inBlock then a.block.step else a.block
      windows := ageWindows a.windows ++ win
      waiting := false
      stall := none
      issued := cycle }
  | .jump t => { a with
      pc := BitVec.ofNat 64 t
      block := {}
      windows := ageWindows a.windows ++ win
      waiting := false
      stall := none
      issued := cycle }

/-- Retire an instruction in an agent; the uniform stream counts it (16 R403). -/
def State.retire (s : State) (w : Who) (fl : Flow) (inBlock : Bool) (win : List Window) : State :=
  s.modTask w.task (fun t =>
    let t := t.modAgent w.thread (fun a => a.retire fl inBlock win (s.cycle t.cluster))
    if w.thread.isNone then { t with u := { t.u with retired := t.u.retired + 1 } } else t)

/-- The ordinal of an agent's tree, for events. -/
def State.treeOrdinal (s : State) (t : Task) : Nat :=
  match s.tree? t.entry.tree with
  | some r => r.ordinal.toNat
  | none => 0

/-- Park an agent on a recoverable page fault (15 R377). -/
def State.parkAgent (s : State) (w : Who) (p : Park) : State :=
  match s.task? w.task with
  | none => s
  | some t => (s.raisePageFault t.entry.ctx (s.treeOrdinal t) p).modAgent w (fun a => { a with parked := some p })

/-- Checks of an instruction in an agent before its own effect (R81, steps 4 to 6). -/
inductive Check where
  | ok (suppressed : Bool)
  | trap (r : TrapReq)
  | window (wd : Window)
  deriving DecidableEq, Repr, Inhabited

/-- The shape of an instruction in a task: D of CVPROBE is a pair where the sweep's elements are FP64 (09 R237). -/
def Task.shapeOf (t : Task) (i : Instr) : Shape :=
  match i with
  | .cvprobe f => if t.entry.wide then { shape (.cvprobe f) with d := wr .xp } else shape (.cvprobe f)
  | i => shape i

/-- The checks before an instruction's own effect. Of several windows that it meets the one opened first is reported, a DESIGN CHOICE (log entry
83). -/
def check (i : Instr) (f : Fields) (t : Task) (th : Option Nat) : Check :=
  let a := t.agent th
  let sh := t.shapeOf i
  let sup := a.block.suppresses
  if f.u != th.isNone || !sh.legal f || stateIllegal i a || (!sup && entryIllegal i f t th) then .trap { cause := cILLEGAL_OP }
  else if rangeBad sh f t th.isSome || (!sup && reducerRange i t) then .trap { cause := cREG_RANGE }
  else match a.windows.find? (fun wd => wd.meets sh f) with
    | some wd => .window wd
    | none => .ok sup

/-- End of an agent's attempt at an instruction. -/
def State.conclude (s : State) (i : Instr) (f : Fields) (t : Task) (w : Who) (r : EStateM.Result Stop State Flow) : State × Bool :=
  let a := t.agent w.thread
  let pc := a.pc.toNat
  let word := (encode i).getD 0
  let inBlock := decide (0 < a.block.left)
  match r with
  | .ok fl s' => (s'.retire w fl inBlock (openWindow (shape i) f pc (w.thread.isNone && t.handler.isSome)), true)
  | .error (.trap q) s' =>
    if q.cause = cSWTRAP ∨ q.cause = cBKPT then
      let s1 := (s'.retire w .next inBlock []).modAgent w (fun x => { x with pc := a.pc })
      (s1.takeTrap w pc word q, true)
    else ((if q.keep then s' else s).takeTrap w pc word q, false)
  | .error .wait s' => (s'.modAgent w (fun x => { x with waiting := true }), false)
  | .error (.park p) s' => (s'.parkAgent w p, false)
  | .error (.hold c tree p) _ => ((s.coreWaits (match s.task? w.task with | some t => t.coreD | none => 0) c tree p).modAgent w (fun x => { x with waiting := true }), false)
  | .error (.endTree st) s' => (s'.abortTree t.entry.tree st, false)

/-- Issue an instruction to one agent. The answer says whether it retired. -/
def issueAgent (i : Instr) (f : Fields) (body : Who → M Flow) (w : Who) (s : State) : State × Bool :=
  match s.task? w.task with
  | none => (s, false)
  | some t =>
    let a := t.agent w.thread
    let pc := a.pc.toNat
    match check i f t w.thread with
    | .trap r => (s.takeTrap w pc ((encode i).getD 0) r, false)
    | .window wd =>
      let s := s.modAgent w (fun x => { x with windows := x.windows.erase wd })
      (s.takeTrap w pc ((encode i).getD 0) { cause := cLOOKAHEAD, ident := wd.addr }, false)
    | .ok true => (s.retire w .next true (openWindow (shape i) f pc (w.thread.isNone && t.handler.isSome)), true)
    | .ok false => s.conclude i f t w (body w s)

/-- Issue to a helper (02 R43): what would trap, wait or park has no effect in it. -/
def issueHelper (i : Instr) (f : Fields) (body : Option (Who → M Flow)) (w : Who) (s : State) : State :=
  match s.task? w.task with
  | none => s
  | some t =>
    let inBlock := decide (0 < (t.agent w.thread).block.left)
    match check i f t w.thread, body with
    | .ok false, some b =>
      match b w s with
      | .ok fl s' => s'.retire w fl inBlock (openWindow (shape i) f 0 false)
      | .error _ _ => s.retire w .next inBlock []
    | _, _ => s.retire w .next inBlock []

/-- Helpers of the quads of the given threads. -/
def Task.helpersOf (t : Task) (ks : List Nat) : List Nat :=
  t.threadsWhere (fun k th => th.status == .helper && ks.any (fun j => j / 4 == k / 4))

/-- A thread that may issue: live and neither held nor parked. -/
def Task.canIssue (t : Task) (k : Nat) : Bool := t.live k && !t.held (some k) && (t.thread k).ag.parked.isNone

/-- Issue to the threads of a bundle one after another (10 R258), collecting those that retired. -/
def issueThreads (i : Instr) (f : Fields) (body : Who → M Flow) (task : Nat) : List Nat → State → State × List Nat
  | [], s => (s, [])
  | k :: ks, s =>
    let ok := match s.task? task with | some t => t.canIssue k | none => false
    if ok then
      let (s, r) := issueAgent i f body { task := task, thread := some k } s
      let (s, l) := issueThreads i f body task ks s
      (s, if r then k :: l else l)
    else issueThreads i f body task ks s

/-- Issue to the helpers. -/
def issueHelpers (i : Instr) (f : Fields) (body : Option (Who → M Flow)) (task : Nat) (done : List Nat) (s : State) : State :=
  match s.task? task with
  | none => s
  | some t => (t.helpersOf done).foldl (fun s k => issueHelper i f body { task := task, thread := some k } s) s

/-- Issue an instruction to the agent or bundle whose turn it is. -/
def issue (i : Instr) (f : Fields) (body : Who → M Flow) (helper : Option (Who → M Flow)) (s : State) :
    Host.Outcome State Fault Refusal :=
  if s.cur.uniform then
    match s.task? s.cur.task with
    | none => .next s
    | some t =>
      if t.held none || t.u.ag.parked.isSome then .next s
      else .next (issueAgent i f body { task := s.cur.task } s).1
  else
    let (s', done) := issueThreads i f body s.cur.task s.cur.threads s
    .next (issueHelpers i f helper s.cur.task done s')

/-- A helper's part in an instruction where it would wait or park: the state that leaves (10 R258; 15 R377). -/
def helperHeld (i : Instr) (f : Fields) (body : Who → M Flow) (w : Who) (s : State) : Option State :=
  match s.task? w.task with
  | none => none
  | some t =>
    if (t.agent w.thread).parked.isSome then some s
    else match check i f t w.thread with
      | .ok false =>
        match body w s with
        | .error .wait s' => some (s'.modAgent w (fun x => { x with waiting := true }))
        | .error (.park p) s' => some (s'.parkAgent w p)
        | _ => none
      | _ => none

/-- A live thread whose helper waits or parks: what makes it wait, park or trap itself happens, and otherwise it waits (02 R43; 10 R254; log entry
35). -/
def waitForHelper (i : Instr) (f : Fields) (body : Who → M Flow) (w : Who) (s : State) : State :=
  let (s', retired) := issueAgent i f body w s
  if retired then s.modAgent w (fun x => { x with waiting := true }) else s'

/-- The threads of an issue whose quads hold no helper that waits or parks; those of the other quads wait with their helper, since a helper
executes in their bundle (02 R43; log entry 35). -/
def holdQuads (i : Instr) (f : Fields) (body helper : Who → M Flow) (task : Nat) (ks : List Nat) (s : State) : State × List Nat :=
  match s.task? task with
  | none => (s, ks)
  | some t =>
    let held := (t.helpersOf ks).filter (fun h => (helperHeld i f helper { task := task, thread := some h } s).isSome)
    let stay (k : Nat) : Bool := held.any (fun h => h / 4 == k / 4)
    let s' := held.foldl (fun s h => (helperHeld i f helper { task := task, thread := some h } s).getD s) s
    ((ks.filter stay).foldl (fun s k => waitForHelper i f body { task := task, thread := some k } s) s', ks.filter (fun k => !stay k))

/-- Issue an instruction that helpers perform and may wait in. -/
def issueHeld (i : Instr) (f : Fields) (body helper : Who → M Flow) (s : State) : Host.Outcome State Fault Refusal :=
  if s.cur.uniform then issue i f body none s
  else
    let ks := match s.task? s.cur.task with | some t => s.cur.threads.filter t.canIssue | none => []
    let (s', go) := holdQuads i f body helper s.cur.task ks s
    let (s'', done) := issueThreads i f body s.cur.task go s'
    .next (issueHelpers i f (some helper) s.cur.task done s'')

/-- An effect after which the agent goes to the next slot. -/
def seq (body : Who → M Unit) : Who → M Flow := fun w => do body w; pure .next

/-- An instruction that helpers perform as threads do. -/
def issueLane (i : Instr) (f : Fields) (body : Who → M Unit) (s : State) : Host.Outcome State Fault Refusal :=
  issue i f (seq body) (some (seq body)) s

/-- An instruction that does nothing in a helper. -/
def issueLive (i : Instr) (f : Fields) (body : Who → M Unit) (s : State) : Host.Outcome State Fault Refusal :=
  issue i f (seq body) none s

/-! ### Stalls (10 R254) -/

/-- Wait while a condition does not hold, as a stall: at the limit read when it began, HOLE_STALL. -/
def stallUnless (w : Who) (cond : Bool) : M Unit := do
  if cond then pure ()
  else
    let t ← theTask w
    let now := (← get).cycle t.cluster
    match (t.agent w.thread).stall with
    | some st =>
      if st.limit ≠ 0 ∧ st.limit ≤ (now + 2 ^ 64 - st.since) % 2 ^ 64 then trapNow cHOLE_STALL
      else throw .wait
    | none =>
      modAgent w (fun a => { a with stall := some { since := now, limit := t.hstall.toNat * 256 } })
      throw .wait

/-- End of a stall: the next wait of the same instruction begins anew. -/
def endStall (w : Who) : M Unit := modAgent w (fun a => { a with stall := none })

end Sys2Proof.Machine
end

