-- ==== Sys2Proof/Machine/Fetch.lean ====
section
/-! DEFINITION. Fetching an instruction (03 R61 to R65, R81, R88), task entries, leaving a bundle (02 R39), the passing of a cycle, and placing one instruction where the next step fetches it. -/

namespace Sys2Proof.Machine

/-- How a fetch stops an agent. -/
inductive FetchStop where
  /-- A trap at the instruction whose bytes are given. -/
  | trap (insn : InstrWord) (r : TrapReq)
  | park (p : Park)
  | poison
  /-- The line's first copy failed its parities: it is fetched once more at the agent's next turn. -/
  | again
  deriving DecidableEq, Repr, Inhabited

/-- What fetching for an agent gives: an instruction, and whether its line passed only in its second copy (R63). -/
inductive FetchRes where
  | word (w : InstrWord) (corrected : Bool)
  | stop (x : FetchStop)
  deriving DecidableEq, Repr, Inhabited

/-- Change a core's list of lines to be fetched once more. -/
def State.setRefetch (s : State) (core : Nat) (f : List Nat → List Nat) : State :=
  s.modCore core (fun c => { c with refetch := f c.refetch })

/-- No cache of any core holds a line (R63). -/
def State.purgeLine (s : State) (pa : Nat) : State :=
  { s with cores := s.cores.filterMap (fun p =>
      let c := { p.2 with icache := p.2.icache.filter (fun l => l.pa != pa) }
      if c = Core.init then none else some (p.1, c)) }

/-- A line that has been checked is kept in the core's cache (R63, R87). -/
def State.keepLine (s : State) (core ctx pa : Nat) (bytes : List Byte) : State :=
  s.modCore core (fun c =>
    if c.icache.any (fun l => l.ctx == ctx && l.version == shoucVersion && l.pa == pa) then c
    else { c with icache := c.icache ++ [{ ctx := ctx, pa := pa, bytes := bytes }] })

/-- The checks of R63 on the bytes of a line at a physical address, in the order of R81. A first copy with a parity mismatch goes from the
core's caches and the line is fetched once more; a second one traps, and no cache keeps the line. -/
def State.checkLine (s : State) (t : Task) (pc pa : Nat) (bytes : List Byte) : FetchRes × State :=
  let word := lineSlot bytes (slotOf pc)
  let core := t.coreD
  let second := (s.core core).refetch.contains pa
  let s := if second then s.setRefetch core (fun l => l.filter (fun a => a != pa)) else s
  if !lineReservedOk bytes then (.stop (.trap word { cause := cILLEGAL_LINE }), s.purgeLine pa)
  else if lineParityOk bytes then (.word word second, s.keepLine core t.entry.ctx pa bytes)
  else if second then (.stop (.trap word { cause := cLINE_PARITY, addr := some (pc / 64 * 64) }), s.purgeLine pa)
  else (.stop .again, (s.modCore core (fun c => { c with icache := c.icache.filter (fun l => l.pa != pa) })).setRefetch core (fun l => pa :: l))

/-- Fetch the instruction at an agent's program counter (R63, R81). -/
def State.fetchFor (s : State) (w : Who) : FetchRes × State :=
  match s.task? w.task with
  | none => (.stop .again, s)
  | some t =>
    let pc := (t.agent w.thread).pc.toNat
    if !canonicalVa pc then (.stop (.trap 0 { cause := cLINE_FETCH, addr := some pc }), s)
    else match s.readLine t pc with
    | (.pend, s) => (.stop (.park { va := pc / 64 * 64, fetch := true }), s)
    | (.fault, s) => (.stop (.trap 0 { cause := cLINE_FETCH, addr := some pc }), s)
    | (.poison, s) => (.stop .poison, s)
    | (.ok pa bytes, s) => s.checkLine t pc pa bytes

/-- Stop an agent at a fetch. -/
def State.stopFetch (s : State) (w : Who) (x : FetchStop) : State :=
  match x with
  | .trap insn r => s.takeTrap w (s.agent w).pc.toNat insn r
  | .park p => s.parkAgent w p
  | .poison => match s.task? w.task with
    | some t => s.abortTree t.entry.tree stUNCORRECTED
    | none => s
  | .again => s

/-- The check of a task entry (R65): the agent starts there, parks, or traps with BAD_TARGET. -/
def State.checkEntry (s : State) (w : Who) : State :=
  match s.task? w.task with
  | none => s
  | some t =>
    let pc := (t.agent w.thread).pc.toNat
    match s.checkTarget t pc with
    | (.pass, s) => s.modAgent w (fun a => { a with entry := false })
    | (.pend, s) => s.parkAgent w { va := pc / 64 * 64, fetch := true }
    | (.poison, s) => s.abortTree t.entry.tree stUNCORRECTED
    | (.bad, s) =>
      (s.takeTrap w pc 0 { cause := cBAD_TARGET, addr := some pc }).modAgent w (fun a => { a with
        pending := a.pending.map (fun p => { p with entry := true }) })

/-- Set whose turn it is. -/
def State.turn (s : State) (c : Cur) : State := { s with cur := c }

/-- Members that are no longer ready leave the bundle; of members that hold different program counters, those at that of the first ready member stay
(R39; a DESIGN CHOICE, log entry 98). -/
def State.pruneBundle (s : State) (core k : Nat) : State :=
  s.modCore core (fun c => { c with bundles := updAt c.bundles k (fun b =>
    match s.task? b.task with
    | none => { b with threads := [] }
    | some t =>
      let ok := b.threads.filter (fun j => t.canIssue j && !(t.thread j).ag.waiting)
      match ok with
      | [] => { b with threads := [] }
      | j :: _ => { b with threads := ok.filter (fun x => (t.thread x).ag.pc == (t.thread j).ag.pc) }) })

/-- Dirty bytes reach home and clean lines go 65,536 cycles after their store or fill at the latest (11 R281). -/
def State.ageL1 (s : State) (cl : Nat) : State :=
  let now := s.cycle cl
  let old (since : Nat) : Bool := decide (65536 ≤ (now + 2 ^ 64 - since) % 2 ^ 64)
  (s.cluster cl).l1.foldl (fun s l =>
    let s := if l.dirty != 0 && old l.dirtied then s.writeBackLine cl l.line else s
    if old l.filled && (l.dirty == 0 || old l.dirtied) then s.dropLine cl l.line else s) s

/-- A cycle of a die passes (01 R13, R15). -/
def State.tickDie (s : State) (d : Nat) : State :=
  let s := s.modDie d (fun x => { x with ticks := x.ticks + 1 })
  (s.clusters.filter (fun p => dieOfCluster p.1 == d && !p.2.l1.isEmpty)).foldl (fun s p => s.ageL1 p.1) s

/-- Choices that only move cached copies. -/
def State.dropTlbEntry (s : State) (cl n : Nat) : State := s.modCluster cl (fun c => { c with tlb := c.tlb.eraseIdx n })
def State.dropCodeLine (s : State) (core n : Nat) : State := s.modCore core (fun c => { c with icache := c.icache.eraseIdx n })

/-- A step of the machine that is no instruction. -/
def isEvent (i : Instr) : Bool := i.fields?.isNone && match i with | .unassignedOpcode _ => false | _ => true

/-! ### Placing one instruction -/

/-- The page tables of a context that maps its first 64 KiB page, readable, writable and executable, to PA 0x200000. -/
def demoTables : List (Nat × Nat) :=
  [(0x10000, 0x20001), (0x20000, 0x30001), (0x30000, 0x40001), (0x40000, 0x50001), (0x50000, 0x20001F)]

/-- A context whose areas are empty but for the call spill areas. -/
def demoCtx : Ctx :=
  { ptRoot := 0x10000, partition := 0, bankCtl := true, nQueues := 1, callSpill := 64, queueTab := 0x1000, deqSpill := 0x2000,
    deqEnt := 32, staging := 0x3000, chunks := 1, filter := 0, filterSize := 1, events := 0x4000, intVec := 0, poolBase := 0,
    poolSize := 0x10000 }

/-- A resident task of one live thread with the largest allotment, its uniform stream and its thread at slot 0 of line 1. -/
def demoTask (id : Nat) : Task :=
  { entry := { id := id, ctx := 0, tree := id, record := 0, groups := 1, last := 1,
               rcd := { regs := 511, mtiles := 15, atiles := 7, holes := 64, holeBytes := 128 } },
    place := .core 0 0, gslots := [0], savePtr := 0x8000,
    allot := { regs := 511, mtiles := 15, atiles := 7, holes := 64, full := true },
    u := { ag := { pc := 0x44 } },
    threads := { ag := { pc := 0x44 } } :: List.replicate 3 { status := .helper } ++ List.replicate 28 { status := .free },
    holes := List.replicate 64 {} }

/-- The tree of that task. -/
def demoTree (id : Nat) : Tree :=
  { id := id, ctx := 0, queue := 0, index := 0, ordinal := 1, level := 1, record := 0, rcd := (demoTask id).entry.rcd, code := 0,
    ntask := 1, groups := 1, last := 1, arg := 0, trapVec := 0, seed := 0, prio := 0, intr := false, signal := 0, heapBase := 0,
    heapSize := 0, carve := 0, slice := 0, binArea := 0, binSize := 1, counter := 1 }

/-- The machine running, with a context, a tree and a task whose next instruction is the word, by its U bit for the uniform
stream or the thread, and the next step its issue. -/
def State.placeWord (s : State) (w : InstrWord) : State :=
  let id := s.nextId
  let s := demoTables.foldl (fun s p => s.setHome p.1 (leBytes 8 p.2)) s
  let s := s.setHome 0x200040 (mkLine [w] 1)
  let s := s.modCluster 0 (fun c => { c with partition := some 0 })
  let s := s.modCore 0 (fun c => { c with bundles := [{ task := id, threads := [0] }] })
  { s with
    power := .running
    ctxs := (0, demoCtx) :: s.ctxs.filter (fun p => p.1 != 0)
    trees := s.trees ++ [demoTree id]
    tasks := s.tasks ++ [demoTask id]
    nextId := id + 1
    agenda := (if w.getLsbD 88 then Choice.rotate 0 [] else Choice.issue 0 []) :: s.agenda }

end Sys2Proof.Machine
end

