-- ==== Sys2Proof/Machine/Sync.lean ====
section
/-! DEFINITION. What joins agents: copy batches (12 R292 to R295, R315, R316), barriers (13 R335, R336), the decision queue
(R337), the save slot's layout (16 R395), and the exit of a thread (13 R341; 14 R361, R363). -/

namespace Sys2Proof.Machine

/-! ### Batches -/

/-- Count an error of a later command or batch in an error record; the count saturates at 255 (R293, R294). -/
def ErrRec.more (e : ErrRec) (n : Nat) : ErrRec := { e with later := min 255 (e.later + n) }

/-- Fold a finished batch into the finished record (R293). -/
def Agent.fold (a : Agent) (b : Batch) : Agent :=
  { a with
    finErr := (match a.finErr, b.err with
      | none, e => e
      | some x, none => some x
      | some x, some e => some (x.more (1 + e.later)))
    finOob := a.finOob || b.oob }

/-- Fold the batches at the head of the sealed list that hold no unperformed command. -/
def Agent.foldFinished (a : Agent) : List Batch → Agent
  | [] => { a with closed := [] }
  | b :: bs => if b.undone = 0 then (a.fold b).foldFinished bs else { a with closed := b :: bs }

/-- Seal the open batch (R315): it receives the next batch ordinal. -/
def Agent.sealOpen (a : Agent) : Agent :=
  let b := { a.opened with ord := a.batchOrd.toNat }
  let a := { a with opened := {}, batchOrd := a.batchOrd + 1 }
  a.foldFinished (a.closed ++ [b])

/-- A command joins the open batch (R292, R293). -/
def Agent.joinBatch (a : Agent) : Agent :=
  { a with
    copyOrd := a.copyOrd + 1
    opened := { a.opened with joined := a.opened.joined + 1, undone := a.opened.undone + 1 } }

/-- A command of a batch has been performed (R293, R294). -/
def Batch.done (b : Batch) (err : Option ErrRec) (oob : Bool) : Batch :=
  { b with
    undone := b.undone - 1
    oob := b.oob || oob
    err := (match b.err, err with
      | none, e => e
      | some x, none => some x
      | some x, some _ => some (x.more 1)) }

/-- The batch with an ordinal, open or sealed, has one command performed. -/
def Agent.performed (a : Agent) (ord : Nat) (err : Option ErrRec) (oob : Bool) : Agent :=
  if a.closed.any (fun b => b.ord == ord) then
    a.foldFinished (a.closed.map (fun b => if b.ord = ord then b.done err oob else b))
  else { a with opened := a.opened.done err oob }

/-- SEAL, or its wait for room (R293, R315). The answer is the ordinal. -/
def sealBody (w : Who) : M Nat := do
  let t ← theTask w
  let a := t.agent w.thread
  if 15 ≤ a.closed.length then throw .wait
  modAgent w (fun a => a.sealOpen)
  pure a.batchOrd.toNat

/-- CWAIT n (R316). Erratum 3 of 17 R439, present on stepping B: 15 waits as 14. -/
def cwaitBody (w : Who) (n : Nat) : M Nat := do
  let t ← theTask w
  let a := t.agent w.thread
  if min n 14 < a.closed.length then throw .wait
  modAgent w (fun a => { a with finErr := none, finOob := false })
  match a.finErr with
  | none => pure (b2n a.finOob)
  | some e =>
    trapWith { cause := e.cause, addr := e.addr, ident := e.ord + 2 ^ 32 * e.batch, deferred := true, later := e.later,
               keep := true }

/-- The implicit SEAL and CWAIT 0 of EXIT and TEXIT (R295). -/
def exitBatches (w : Who) : M Unit := do
  let t ← theTask w
  if 0 < (t.agent w.thread).opened.joined then discard (sealBody w)
  discard (cwaitBody w 0)

/-! ### Barriers -/

def Task.bar (t : Task) (n : Nat) : Barrier := Sparse.get {} t.bars n
def Task.setBar (t : Task) (n : Nat) (b : Barrier) : Task := { t with bars := Sparse.put {} t.bars n b }

/-- Sync block of PEDPOS. -/
def Uniform.block (u : Uniform) : Nat := field u.pedpos.toNat 15 10

/-- Complete the phase of a barrier where every participant has arrived (R335). Votes of exited threads count 0; every update
of an exited thread precedes the phase. A stream that waits in TEXIT counts as arrived. -/
def Task.completeBarrier (t : Task) (n : Nat) : Task :=
  let b := t.bar n
  let live := t.liveThreads
  let texit := t.join == .exit || t.join == .exitJoin
  if (b.uArrived || texit) && live.all (fun k => bitAt b.arrivals k) && (b.uArrived || b.arrivals != 0) then
    let cut (k : Nat) : Nat := if t.live k then Sparse.get 0 b.cuts k else t.seq
    t.setBar n { b with
      phase := b.phase + 1
      uArrived := false
      arrivals := 0
      votes := 0
      cuts := []
      uPos := 0
      uCut := 0
      lastPos := if b.uArrived then b.uPos else t.u.block
      lastVotes := ofBits (live.filter (fun k => bitAt b.votes k))
      last := { uCut := if b.uArrived then b.uCut else t.seq,
                cuts := (List.range t.threads.length).foldl (fun m k => Sparse.put 0 m k (cut k)) [] } }
  else t

/-- Complete every phase that can complete. -/
def Task.completeBarriers (t : Task) : Task := (t.bars.map Prod.fst).foldl (fun t n => t.completeBarrier n) t

/-- Arrival of an agent at a barrier with its vote (R335, R336). -/
def Task.arrive (t : Task) (th : Option Nat) (n : Nat) (vote : Bool) : Task :=
  let b := t.bar n
  (t.setBar n (match th with
    | none => { b with uArrived := true, uPos := t.u.block, uCut := t.seq }
    | some k => { b with
        arrivals := b.arrivals ||| 2 ^ k
        votes := if vote then b.votes ||| 2 ^ k else b.votes
        cuts := Sparse.put 0 b.cuts k t.seq })).completeBarrier n

def Barrier.arrived (b : Barrier) (th : Option Nat) : Bool :=
  match th with
  | none => b.uArrived
  | some k => bitAt b.arrivals k

/-- What a BARW that returns for the last completed phase gives its agent (R188, R335). -/
def Task.barReturn (t : Task) (th : Option Nat) (n : Nat) : Task :=
  let b := t.bar n
  match th with
  | none =>
    { t with u := { t.u with
        phase := some b.last
        published := (b.last.cuts.foldl (fun m p => Sparse.put 0 m p.1 (max p.2 (Sparse.get 0 m p.1))) t.u.published) } }
  | some k => t.modThread k (fun x => { x with marker := b.lastPos, phase := some b.last })

/-! ### Decision queue -/

/-- Free entries that every reader has read (R337). -/
def Task.freeDq (t : Task) : Task :=
  let keep := t.dq.filter (fun e => e.readers != 0)
  { t with dq := keep, dqHead := (t.dqHead + (t.dq.length - keep.length)) % 16 }

/-- Remove a thread from every reader set. -/
def Task.unread (t : Task) (k : Nat) : Task :=
  Task.freeDq { t with dq := t.dq.map (fun e => { e with readers := if bitAt e.readers k then e.readers - 2 ^ k else e.readers }) }

/-! ### Expansions at an exit -/

/-- Deal-set lane of a thread in an expansion (14 R354). -/
def Expansion.lane (e : Expansion) (k : Nat) : Nat := k - 32 * e.base
/-- Whether a thread's group is in an expansion. -/
def Expansion.covers (e : Expansion) (k : Nat) : Bool := decide (e.base ≤ k / 32) && decide (k / 32 < e.base + 2 ^ e.logn)
/-- Set or clear a bit. -/
def setBit (v k : Nat) : Nat := v ||| 2 ^ k
def clearBit (v k : Nat) : Nat := if bitAt v k then v - 2 ^ k else v

/-- The exit of a thread makes it done in its expansion, which closes at the last exit (R361, R363). It leaves CUR and ARRIVED too, a DESIGN CHOICE (log
entry 90). -/
def Task.exitExpansions (t : Task) (k : Nat) : Task :=
  { t with expans := (t.expans.map (fun e =>
      if e.covers k then
        { e with done := if bitAt e.dealer (e.lane k) then setBit e.done (e.lane k) else e.done
                 cur := clearBit e.cur (e.lane k)
                 arrived := clearBit e.arrived (e.lane k) }
      else e)).filter (fun e => t.liveThreads.any (fun j => e.covers j)) }

/-! ### Exit of a thread -/

/-- A thread ends (13 R341): it leaves the decision queue and is no participant of barriers, whose phases are judged when every exit of the issue has
been counted (R335); it is a helper while a thread of its quad lives. -/
def Task.endThread (t : Task) (k : Nat) : Task :=
  let t := t.modThread k (fun x => { x with
    status := .helper
    ag := { x.ag with pending := none, waiting := false, stall := none, parked := none, block := {} } })
  let quad := (List.range 4).map (fun j => k / 4 * 4 + j)
  let t := if quad.any (fun j => t.live j) then t
           else quad.foldl (fun t j => t.modThread j (fun x => { x with status := .free, x := [] })) t
  (t.unread k).exitExpansions k

/-! ### Save slot (16 R395) -/

/-- A′. -/
def TaskRec.regWords (r : TaskRec) : Nat := 16 * ceilDiv (max r.regs 24) 16

/-- Sizes of the sections of a save slot in order, before padding. -/
def slotSizes (r : TaskRec) (groups views spill : Nat) : List Nat :=
  [128, 128, 2048, 8192, 36864, 32 * groups * (1024 + 4 * r.regWords), (32 * groups + 1) * spill,
   r.mtiles * 2112 + r.atiles * 8192, r.holes * r.holeBytes, groups * 3200, views * 320, 64]

/-- Offset of section n: 2 uniform, 3 task, 4 engine, 5 threads, 6 call spill, 7 tiles, 8 pigeonholes, 9 expand, 10 views,
11 merge. -/
def slotOffset (sizes : List Nat) (n : Nat) : Nat := (sizes.take n).foldl (fun v x => v + roundUp x 64) 0
/-- Size of a slot. -/
def slotSize (sizes : List Nat) : Nat := roundUp (slotOffset sizes 12) 65536

/-- Sizes of a task's slot. -/
def State.slotSizesOf (s : State) (t : Task) : List Nat :=
  slotSizes t.entry.rcd t.entry.groups
    (match s.tree? t.entry.tree with | some r => r.bindings.length | none => 0)
    (match s.ctx? t.entry.ctx with | some c => c.callSpill | none => 0)

/-- Address of an agent's call spill area: threads in index order, then the uniform stream. -/
def State.spillArea (s : State) (t : Task) (th : Option Nat) : Nat :=
  let cs := match s.ctx? t.entry.ctx with | some c => c.callSpill | none => 0
  t.savePtr + slotOffset (s.slotSizesOf t) 6 + cs * (th.getD (32 * t.entry.groups))

end Sys2Proof.Machine
end

