-- ==== Sys2Proof/Machine/Control.lean ====
section
/-! DEFINITION. Control instructions, space 0x08 (03 R73, R78 to R80; 13 R338 to R342). A helper performs no transfer (R340). -/

namespace Sys2Proof.Machine

/-- Whether a guard lets its instruction take effect (R80). -/
def guardHolds (f : Fields) (a : Agent) : Bool := !mBit f 7 || (a.pred (mField f 5 3) != mBit f 6)

/-- A guarded instruction: where the guard is false it does nothing. -/
def guarded (f : Fields) (body : Who → M Flow) : Who → M Flow := fun w => do
  let t ← theTask w
  if guardHolds f (t.agent w.thread) then body w else pure .next

/-- The target of BRA and CALL (R73): the exact address of the slot number, so one past the last line is not canonical.
The BAD_TARGET of a slot number below 0, or of one at or above 2^64, reports the exact address modulo 2^64, a DESIGN CHOICE (log entry 82). -/
def relTarget (f : Fields) (w : Who) : M Nat := do
  let t ← theTask w
  let n : Int := (slotNumber (t.agent w.thread).pc.toNat : Int) + signExt f.imm.toNat 32
  if n < 0 ∨ 2 ^ 64 ≤ addrOfSlot n.toNat then trapAddr cBAD_TARGET (truncInt (64 * (n / 5) + 4 + 12 * (n % 5)) 64)
  else pure (addrOfSlot n.toNat)

/-- The check of R65 in an agent: BAD_TARGET, or a park while the target's page is not present. -/
def needTarget (w : Who) (target : Nat) : M Unit := do
  let t ← theTask w
  let (r, s) := (← get).checkTarget t target
  set s
  match r with
  | .pass => pure ()
  | .bad => trapAddr cBAD_TARGET target
  | .pend => throw (.park { va := target / 64 * 64, fetch := true })
  | .poison => throw (.endTree stUNCORRECTED)

/-- Spill the oldest 4 return addresses (02 R49, R338). -/
def spillStack (w : Who) : M Unit := do
  let t ← theTask w
  let c ← theCtx t
  let a := t.agent w.thread
  if c.callSpill < 8 * a.spilled + 32 then trapNow cSTACK_LIMIT
  storeSlot (Acc.ofTask t w.thread) ((← get).spillArea t w.thread + 8 * a.spilled)
    ((a.stack.take 4).flatMap (fun v => leBytes 8 v.toNat))
  modAgent w (fun a => { a with stack := a.stack.drop 4, spilled := a.spilled + 4 })

/-- Reload the most recent 4 spilled return addresses. -/
def reloadStack (w : Who) : M Unit := do
  let t ← theTask w
  let a := t.agent w.thread
  let bs ← loadVa (Acc.ofTask t w.thread) ((← get).spillArea t w.thread + 8 * (a.spilled - 4)) 32
  let vs := (List.range 4).map (fun k => BitVec.ofNat 64 (ofLE ((bs.drop (8 * k)).take 8)))
  modAgent w (fun a => { a with stack := vs ++ a.stack, spilled := a.spilled - 4 })

/-- A call to a checked target (R340). -/
def callTo (w : Who) (target : Nat) : M Flow := do
  needTarget w target
  let t ← theTask w
  let a := t.agent w.thread
  if 8 ≤ a.stack.length then spillStack w
  modAgent w (fun a => { a with stack := a.stack ++ [BitVec.ofNat 64 (nextSlot a.pc.toNat)] })
  pure (.jump target)

/-- RET (R340). A reload stands where the check after it traps. -/
def retBody (w : Who) : M Flow := do
  let t ← theTask w
  let a := t.agent w.thread
  if a.stack.isEmpty then
    if a.spilled = 0 then trapNow cRET_EMPTY else reloadStack w
  let t ← theTask w
  let a := t.agent w.thread
  let target := (a.stack.getLastD 0).toNat
  if !canonicalVa target || !isSlotAddr target then trapWith { cause := cBAD_TARGET, addr := some target, keep := true }
  modAgent w (fun a => { a with stack := a.stack.dropLast })
  pure (.jump target)

/-- BRA (R340): a relative branch. -/
def execBra (f : Fields) (s : State) : Host.Outcome State Fault Refusal :=
  issue (.bra f) f (guarded f (fun w => do
    let target ← relTarget f w
    needTarget w target
    pure (.jump target))) none s

/-- BRX (R340): a branch to the address of A. -/
def execBrx (f : Fields) (s : State) : Host.Outcome State Fault Refusal :=
  issue (.brx f) f (guarded f (fun w => do
    let target ← rdOpnd w (shape (.brx f)).a f.a
    needTarget w target
    pure (.jump target))) none s

/-- CALL (R340): a relative call. -/
def execCall (f : Fields) (s : State) : Host.Outcome State Fault Refusal :=
  issue (.call f) f (guarded f (fun w => do callTo w (← relTarget f w))) none s

/-- CALLX (R340): a call to the address of A. -/
def execCallx (f : Fields) (s : State) : Host.Outcome State Fault Refusal :=
  issue (.callx f) f (guarded f (fun w => do callTo w (← rdOpnd w (shape (.callx f)).a f.a))) none s

/-- RET (R340): a return through the return stack. -/
def execRet (f : Fields) (s : State) : Host.Outcome State Fault Refusal :=
  issue (.ret f) f (guarded f retBody) none s

/-- PBLK (R78): opens a predicate block. -/
def execPblk (f : Fields) (s : State) : Host.Outcome State Fault Refusal :=
  issueLane (.pblk f) f (fun w => modAgent w (fun a => { a with
    block := { left := mField f 2 0 + 1, pat := iField f 7 0, val := a.pred (mField f 5 3) } })) s

/-- EXIT (R341): the thread ends. The exits of one issue are all counted before the phases of barriers complete (R335). -/
def execExit (f : Fields) (s : State) : Host.Outcome State Fault Refusal :=
  let live (x : State) : Option (List Nat) := (x.task? s.cur.task).map Task.liveThreads
  match issue (.exit f) f (fun w => do
    exitBatches w
    modTask w (fun t => t.endThread (w.thread.getD 0))
    pure .done) none s with
  | .next s' => .next (if live s' = live s then s' else s'.modTask s.cur.task (fun t => t.completeBarriers))
  | r => r

/-- YIELD (R342): the bundle is not the greedy one at the next choice; a uniform stream is passed over at its next turn. -/
def execYield (f : Fields) (s : State) : Host.Outcome State Fault Refusal :=
  issueLane (.yield f) f (fun w => do
    let t ← theTask w
    modify (fun s => s.modCore t.coreD (fun c => match w.thread with
      | some _ => { c with greedy := none }
      | none => { c with yielded := w.task :: c.yielded.filter (fun k => k != w.task) }))) s

/-- NOP (R342): does nothing. -/
def execNop (f : Fields) (s : State) : Host.Outcome State Fault Refusal :=
  issueLane (.nop f) f (fun _ => pure ()) s

/-- SWTRAP (R342): retires and traps with its code. -/
def execSwtrap (f : Fields) (s : State) : Host.Outcome State Fault Refusal :=
  issueLive (.swtrap f) f (fun _ => trapWith { cause := cSWTRAP, ident := iField f 15 0 }) s

end Sys2Proof.Machine
end

