-- ==== Sys2Proof/Machine/Holes.lean ====
section
/-! DEFINITION. Pigeonholes (10 R251 to R253, 12 R298, R299), views' space (08 R197) and what the SCRATCH banks of a cluster
hold. -/

namespace Sys2Proof.Machine

def Task.hole (t : Task) (h : Nat) : Hole := t.holes.getD h {}
def Task.modHole (t : Task) (h : Nat) (f : Hole → Hole) : Task := { t with holes := updAt t.holes h f }
/-- HOLEBYTES. -/
def Task.holeBytes (t : Task) : Nat := t.entry.rcd.holeBytes

/-- Bytes of a pigeonhole. -/
def Hole.read (h : Hole) (o n : Nat) : List Byte := Sparse.read 0 h.data o n
def Hole.write (h : Hole) (o : Nat) (bs : List Byte) : Hole := { h with data := Sparse.write 0 h.data o bs }

/-- Whether a command that fills a pigeonhole may issue (R252): empty, or ready with no reader. -/
def Hole.fillable (x : Hole) : Bool := x.state == .empty || (x.state == .ready && x.readers == 0)
/-- Whether a command that reads a pigeonhole may issue: ready, and with no reader where it frees it. -/
def Hole.readable (x : Hole) (free : Bool) : Bool := x.state == .ready && (!free || x.readers == 0)

/-- A command that fills a pigeonhole issues (R252). -/
def fillHole (w : Who) (h : Nat) : M Unit := do
  let x := (← theTask w).hole h
  stallUnless w x.fillable
  endStall w
  modTask w (fun t => t.modHole h (fun x => { x with state := .filling }))

/-- A command that reads a pigeonhole issues; it is counted as a reader. -/
def readHole (w : Who) (h : Nat) : M Unit := do
  let x := (← theTask w).hole h
  stallUnless w (x.readable false)
  endStall w
  modTask w (fun t => t.modHole h (fun x => { x with readers := x.readers + 1 }))

/-- A command that reads and frees a pigeonhole issues. -/
def drainHole (w : Who) (h : Nat) : M Unit := do
  let x := (← theTask w).hole h
  stallUnless w (x.readable true)
  endStall w
  modTask w (fun t => t.modHole h (fun x => { x with state := .draining }))

/-- The transitions when such a command is performed. -/
def Hole.filled (x : Hole) : Hole := if x.state = .filling then { x with state := .ready } else x
def Hole.wasRead (x : Hole) : Hole := { x with readers := x.readers - 1 }
def Hole.drained (x : Hole) : Hole := if x.state = .draining then { x with state := .empty } else x

/-- A command of a task has filled a pigeonhole: it becomes ready, and an instruction that issues on it joins the command (11 R282). -/
def Task.fillHole (t : Task) (h : Nat) : Task :=
  let note (a : Agent) : Agent := { a with early := a.early.map (fun e => { e with holes := h :: e.holes }) }
  let t := t.modHole h Hole.filled
  if t.u.ag.early.isEmpty && t.threads.all (fun th => th.ag.early.isEmpty) then t
  else { t with u := { t.u with ag := note t.u.ag }, threads := t.threads.map (fun th => { th with ag := note th.ag }) }

/-- Swz (R299). -/
def swz (o : Nat) : Nat := o ^^^ (o / 128 % 8 * 16)

/-- Scratch SRAM of a view (08 R197). -/
def Reducer.bytes (r : Reducer) : Nat := if r.kind = 8 then 128 else if r.kind = 2 ∧ r.type = 7 then 320 else 64

/-- Bytes of a bank. -/
def bankBytes : Nat := 32768

/-- Scratch bytes that a task's views take. -/
def State.viewBytes (s : State) (t : Task) : Nat :=
  match s.tree? t.entry.tree with
  | some r => (r.bindings.map (fun b => b.1.bytes)).sum
  | none => 0

/-- Scratch bytes that a task holds. -/
def State.scratchOf (s : State) (t : Task) : Nat :=
  t.allot.holes * t.holeBytes + (if t.allot.views = 0 then 0 else s.viewBytes t)

/-- Bytes of all the SCRATCH banks of a cluster. -/
def Cluster.allScratch (c : Cluster) : Nat := bankBytes * (c.banks.filter (fun b => b.mode == .scratch)).length

/-! ### Placement in SCRATCH banks (10 R250, R251) -/

/-- The pieces of banks that a task's pigeonholes and views take. -/
def Task.pieces (t : Task) : List (Nat × Nat) := t.holes.flatMap (fun h => h.banks) ++ t.viewBanks
/-- Open SCRATCH banks of a cluster. -/
def Cluster.openBanks (c : Cluster) : List Nat := idxWhere c.banks.length (fun k => match c.banks[k]? with
  | some b => b.mode == .scratch && b.closing.isNone
  | none => false)
/-- Bytes of a bank that nothing takes. -/
def State.bankFree (s : State) (cl k : Nat) : Nat :=
  bankBytes - (((s.tasks.filter (fun t => t.resident && t.cluster == cl)).flatMap Task.pieces).filter (fun p => p.1 == k)).foldl (fun n p => n + p.2) 0
/-- Bytes of the open SCRATCH banks of a cluster that nothing takes. -/
def State.openFree (s : State) (cl : Nat) : Nat := ((s.cluster cl).openBanks.map (fun k => s.bankFree cl k)).sum

/-- Take n bytes from banks in an order, as much as each has free. -/
def takePieces (free : Nat → Nat) : Nat → List Nat → List (Nat × Nat)
  | _, [] => []
  | n, k :: ks =>
    let m := min n (free k)
    if m = 0 then takePieces free n ks else (k, m) :: takePieces free (n - m) ks

/-- The banks that take n bytes in a cluster (R251; log entry 9). -/
def State.placeBytes (s : State) (cl n : Nat) : List (Nat × Nat) :=
  takePieces (fun k => s.bankFree cl k) n (pickSome .scratchBank s.tick 64 (s.cluster cl).openBanks)

/-- Place pigeonhole h of a task anew. -/
def State.placeHole (s : State) (id h : Nat) : State :=
  match s.task? id with
  | none => s
  | some t =>
    let s := s.modTask id (fun t => t.modHole h (fun x => { x with banks := [] }))
    let ps := s.placeBytes t.cluster t.holeBytes
    s.modTask id (fun t => t.modHole h (fun x => { x with banks := ps }))

/-- Place the pigeonholes that stand in no bank, and the views, of a task that holds them. -/
def State.placeScratch (s : State) (id : Nat) : State :=
  match s.task? id with
  | none => s
  | some t =>
    let s := (idxWhere t.holes.length (fun h => (t.hole h).banks.isEmpty)).foldl (fun s h => s.placeHole id h) s
    if t.allot.views = 0 || !t.viewBanks.isEmpty then s
    else
      let ps := s.placeBytes t.cluster (s.viewBytes t)
      s.modTask id (fun t => { t with viewBanks := ps })

/-- Whether a piece stands in a closed bank of a cluster. -/
def Cluster.inClosed (c : Cluster) (ps : List (Nat × Nat)) : Bool := ps.any (fun p => ((c.banks[p.1]?).bind (fun b => b.closing)).isSome)

/-- Bytes of pieces that stand in open banks. -/
def Cluster.openPart (c : Cluster) (ps : List (Nat × Nat)) : Nat := ((ps.filter (fun p => c.openBanks.contains p.1)).map (fun p => p.2)).sum

/-- Move the empty pigeonholes that stand in closed banks of a cluster to open ones, while those have room (R250). What such a pigeonhole already has
in open banks is room for it. -/
def State.relocate (s : State) (cl : Nat) : State :=
  (s.tasks.filter (fun t => t.resident && t.cluster == cl)).foldl (fun s t =>
    (idxWhere t.holes.length (fun h => (t.hole h).state == .empty && (s.cluster cl).inClosed (t.hole h).banks)).foldl (fun s h =>
      if t.holeBytes ≤ s.openFree cl + (s.cluster cl).openPart (t.hole h).banks then s.placeHole t.entry.id h else s) s) s

/-- Whether a pigeonhole or views stand in a closed bank of a cluster. -/
def State.closedHeld (s : State) (cl : Nat) : Bool :=
  (s.tasks.filter (fun t => t.resident && t.cluster == cl)).any (fun t => (s.cluster cl).inClosed t.pieces)

/-! ### What a cluster can ever hold (16 R415) -/

/-- Registers that a thread slot of a task reserves (02 R51). -/
def laneRegs (a : Nat) : Nat := 16 * ceilDiv a 16

/-- Registers of a task's threads on one lane with an allotment. -/
def Task.laneUse (t : Task) (lane a : Nat) : Nat :=
  laneRegs a * (idxWhere t.entry.groups (fun g => (t.thread (32 * g + lane)).status != .free)).length

/-- Whether a cluster could hold a saved task with every other task removed and its banks in their current modes. -/
def State.couldHold (s : State) (c : Cluster) (t : Task) : Bool :=
  (List.range 32).all (fun l => decide (t.laneUse l t.allot.regs ≤ 2048)) && decide (s.scratchOf t ≤ c.allScratch)

/-- The check of R415 in a partition: the trees of saved tasks that no cluster in service of it could hold end with RESTORE_CAPACITY. -/
def State.checkCapacity (s : State) (p : Nat) : State :=
  (s.tasks.filter (fun t => !t.resident && (match s.ctx? t.entry.ctx with | some c => c.partition == p | none => false)
      && !s.clusters.any (fun k => k.2.partition == some p && k.2.inService && s.couldHold k.2 t))).foldl
    (fun s t => s.abortTree t.entry.tree stRESTORE_CAPACITY) s

end Sys2Proof.Machine
end

