-- ==== Sys2Proof/Machine/Access.lean ====
section
/-! DEFINITION. Access instructions, space 0x10 (10 R241, R242, R247 to R268). -/

namespace Sys2Proof.Machine

/-- Bytes of a WIDTH (R242). -/
def accBytes (f : Fields) : Nat :=
  match mField f 7 5 with
  | 0 | 1 => 1
  | 2 | 3 => 2
  | 4 => 4
  | 5 => 8
  | _ => 16

/-- The value that a load writes (R257): WIDTH 1 and 3 sign-extend. -/
def loadExt (f : Fields) (v : Nat) : Nat :=
  match mField f 7 5 with
  | 1 => truncInt (signExt v 8) (if f.u then 64 else 32)
  | 3 => truncInt (signExt v 16) (if f.u then 64 else 32)
  | _ => v

/-- The effective address, exact (R241). -/
def effAddr (w : Who) (i : Instr) (f : Fields) (index : Bool) : M Int := do
  let base := signExt (← rdOpnd w (shape i).a f.a) 64
  let b ← rdOpnd w (shape i).b f.b
  let idx := if index then signExt b 32 else 0
  pure (base + idx + signExt f.imm.toNat 32)

/-- The address of an access of n bytes, checked (R241, R242). -/
def accAddr (w : Who) (i : Instr) (f : Fields) (index : Bool) (n : Nat) : M Nat := do
  let ea ← effAddr w i f index
  let a := truncInt ea 64
  if !canonical ea then trapAddr cMEM_FAULT a
  else if a % n ≠ 0 then trapAddr cMEM_FAULT a
  else pure a

/-- The access of an instruction with its ORDER and SCOPE; only a relaxed one is checked by the race filter. -/
def accOf (w : Who) (f : Fields) (checked : Bool) : M Acc := do
  let t ← theTask w
  pure { Acc.ofTask t w.thread with
         scope := mField f 2 0
         order := mField f 4 3
         checked := checked && mField f 4 3 == 0 }

/-- LD in an agent, or unchecked in a helper. -/
def ldBody (f : Fields) (helper : Bool) (w : Who) : M Flow := do
  let n := accBytes f
  let a ← accAddr w (.ld f) f true n
  let bs ← loadVa (← accOf w f (!helper)) a n
  wrOpnd w (shape (.ld f)).d f.d (loadExt f (ofLE bs))
  pure .next

/-- LD (R260). -/
def execLd (f : Fields) (s : State) : Host.Outcome State Fault Refusal :=
  issueHeld (.ld f) f (ldBody f false) (ldBody f true) s

/-- ST (R260). -/
def execSt (f : Fields) (s : State) : Host.Outcome State Fault Refusal :=
  issueLive (.st f) f (fun w => do
    let n := accBytes f
    let a ← accAddr w (.st f) f true n
    let v ← rdOpnd w (shape (.st f)).c f.c
    storeVa (← accOf w f true) a (leBytes n v)) s

/-- ATOM (R262). -/
def execAtom (f : Fields) (s : State) : Host.Outcome State Fault Refusal :=
  issueLive (.atom f) f (fun w => do
    let n := accBytes f
    let a ← accAddr w (.atom f) f false n
    let v := trunc (← rdOpnd w (shape (.atom f)).c f.c) (8 * n)
    let old ← atomicVa (← accOf w f false) a n (atomValue (some f.b.toNat) n v 0)
    wrOpnd w (shape (.atom f)).d f.d old) s

/-- ATOMCAS (R263). -/
def execAtomcas (f : Fields) (s : State) : Host.Outcome State Fault Refusal :=
  issueLive (.atomcas f) f (fun w => do
    let n := accBytes f
    let a ← accAddr w (.atomcas f) f false n
    let cmp := trunc (← rdOpnd w (shape (.atomcas f)).b f.b) (8 * n)
    let new := trunc (← rdOpnd w (shape (.atomcas f)).c f.c) (8 * n)
    let old ← atomicVa (← accOf w f false) a n (atomValue none n new cmp)
    wrOpnd w (shape (.atomcas f)).d f.d old) s

/-- RED (R262). -/
def execRed (f : Fields) (s : State) : Host.Outcome State Fault Refusal :=
  issueLive (.red f) f (fun w => do
    let n := accBytes f
    let a ← accAddr w (.red f) f false n
    let v := trunc (← rdOpnd w (shape (.red f)).c f.c) (8 * n)
    discard (atomicVa (← accOf w f false) a n (atomValue (some f.b.toNat) n v 0))) s

/-- FENCE (R264; 11 R281): a release point, an acquire point, or both, at SCOPE. -/
def execFence (f : Fields) (s : State) : Host.Outcome State Fault Refusal :=
  issueLive (.fence f) f (fun w => do
    let a ← accOf w f false
    if 2 ≤ a.order then modify (fun s => s.releaseAt a.cl a.scope)
    if a.order % 2 = 1 then modify (fun s => s.acquireAt a.cl a.scope)) s

/-- PREF (R265): changes no architectural state. -/
def execPref (f : Fields) (s : State) : Host.Outcome State Fault Refusal :=
  issueLane (.pref f) f (fun _ => pure ()) s

/-- The offset of a pigeonhole access, checked (R266). -/
def holeAddr (w : Who) (i : Instr) (f : Fields) (n : Nat) : M Nat := do
  let t ← theTask w
  let o : Int := ((← rdOpnd w (shape i).b f.b) % 2 ^ 32 : Nat) + signExt f.imm.toNat 32
  if o < 0 ∨ (t.holeBytes : Int) < o + n ∨ o % n ≠ 0 then trapNow cHOLE_RANGE
  else pure o.toNat

/-- LDH in an agent or a helper: a stall unless the pigeonhole is ready. -/
def ldhBody (f : Fields) (w : Who) : M Unit := do
  let n := accBytes f
  let o ← holeAddr w (.ldh f) f n
  let h := (← theTask w).hole f.a.toNat
  stallUnless w (h.state == .ready)
  wrOpnd w (shape (.ldh f)).d f.d (loadExt f (ofLE (h.read o n)))

/-- LDH (R266). -/
def execLdh (f : Fields) (s : State) : Host.Outcome State Fault Refusal :=
  issueHeld (.ldh f) f (seq (ldhBody f)) (seq (ldhBody f)) s

/-- STH (R266). -/
def execSth (f : Fields) (s : State) : Host.Outcome State Fault Refusal :=
  issueLive (.sth f) f (fun w => do
    let n := accBytes f
    let o ← holeAddr w (.sth f) f n
    let h := (← theTask w).hole f.a.toNat
    stallUnless w (h.state == .ready && h.readers == 0)
    let v ← rdOpnd w (shape (.sth f)).c f.c
    modTask w (fun t => t.modHole f.a.toNat (fun h => h.write o (leBytes n v)))) s

/-- The state that IMM[1:0] of HWAIT and HSET names. -/
def holeTarget (f : Fields) : HoleState := if iField f 1 0 = 0 then .empty else .ready

/-- HWAIT in an agent or a helper. -/
def hwaitBody (f : Fields) (w : Who) : M Unit := do
  let h := (← theTask w).hole f.a.toNat
  stallUnless w (h.state == holeTarget f)

/-- HWAIT (R267). -/
def execHwait (f : Fields) (s : State) : Host.Outcome State Fault Refusal :=
  issueHeld (.hwait f) f (seq (hwaitBody f)) (seq (hwaitBody f)) s

/-- HSET (R267). -/
def execHset (f : Fields) (s : State) : Host.Outcome State Fault Refusal :=
  issueLive (.hset f) f (fun w => do
    let h := (← theTask w).hole f.a.toNat
    if h.state = holeTarget f then pure ()
    else
      stallUnless w ((h.state == .empty || h.state == .ready) && (holeTarget f != .empty || h.readers == 0))
      modTask w (fun t => t.modHole f.a.toNat (fun h => { h with state := holeTarget f }))) s

/-- Codes of the states in HQRY and in the saved image (R267, 16 R410). -/
def HoleState.code (h : HoleState) : Nat :=
  match h with
  | .empty => 0
  | .filling => 1
  | .ready => 2
  | .draining => 3

/-- HQRY (R267). Erratum 4 of 17 R439, present on stepping B: D[2] reads 0 while the pigeonhole is draining and its reader
count is 0. -/
def execHqry (f : Fields) (s : State) : Host.Outcome State Fault Refusal :=
  issueLane (.hqry f) f (fun w => do
    let h := (← theTask w).hole f.a.toNat
    wrOpnd w (shape (.hqry f)).d f.d (h.state.code + 4 * b2n (decide (0 < h.readers)))) s

/-- Mode codes of R247. -/
def BankMode.ofCode (n : Nat) : BankMode :=
  match n with
  | 0 => .cache
  | 1 => .scratch
  | _ => .fifo

/-- Switch the closed banks of a cluster to a mode (R250). -/
def Cluster.switchBanks (c : Cluster) (mode : BankMode) (ctx : Nat) : Cluster :=
  { c with
    switchers := c.switchers.drop 1
    banks := c.banks.map (fun b => match b.closing with
      | none => b
      | some _ => { mode := mode, owner := if mode = .fifo then some ctx else none }) }

/-- Wait for a bank switch, as a stall. One that reaches its limit leaves the switch, whose banks open again, and traps. -/
def bankStall (w : Who) (cl : Nat) : M Unit := do
  let t ← theTask w
  let s ← get
  if (t.agent w.thread).stall.any (fun st => st.limit != 0 && decide (st.limit ≤ (s.cycle cl + 2 ^ 64 - st.since) % 2 ^ 64)) then
    modify (fun s => s.modCluster cl (fun k => k.forget t.entry.id))
    trapWith { cause := cHOLE_STALL, keep := true }
  stallUnless w false

/-- Close the banks of a mask whose mode differs from a mode (R250). -/
def Cluster.closeBanks (c : Cluster) (mask : Nat) (mode : BankMode) : Cluster :=
  { c with banks := (bitsOf 64 mask).foldl (fun bs j => updAt bs j (fun b => if b.mode = mode then b else { b with closing := some mode })) c.banks }

/-- Whether a bank of a mask is a FIFO that the context may not take from its mode (R250). -/
def Cluster.fifoHeld (c : Cluster) (mask : Nat) (mode : BankMode) (ctx : Nat) : Bool :=
  (bitsOf 64 mask).any (fun k =>
    let b := c.banks.getD k {}
    b.mode == .fifo && mode != .fifo && (b.owner != some ctx || !b.fifo.isEmpty))

/-- BANKMODE (R250): its turn among those of the cluster, checks, closing, the wait, the switch. -/
def bankmodeBody (f : Fields) (w : Who) : M Unit := do
  let t ← theTask w
  let c ← theCtx t
  let mask := t.opnd w.thread (shape (.bankmode f)).a f.a
  let mode := BankMode.ofCode (iField f 1 0)
  let cl := t.cluster
  let id := t.entry.id
  if !c.bankCtl then trapNow cILLEGAL_OP
  if !((← get).cluster cl).switchers.contains id then modify (fun s => s.modCluster cl (fun k => { k with switchers := k.switchers ++ [id] }))
  if ((← get).cluster cl).switchers.head? ≠ some id then bankStall w cl
  let k := (← get).cluster cl
  if k.banks.all (fun b => b.closing.isNone) then
    if k.fifoHeld mask mode t.entry.ctx then
      modify (fun s => s.modCluster cl (fun k => k.forget id))
      trapWith { cause := cBANK_STATE, keep := true }
    modify (fun s => s.modCluster cl (fun k => k.closeBanks mask mode))
  modify (fun s => s.relocate cl)
  if (← get).closedHeld cl then bankStall w cl
  if ((← get).cluster cl).banks.any (fun b => b.mode == .cache && b.closing.isSome) then
    modify (fun s => (s.writeBackAll cl).modCluster cl (fun k => { k with l1 := [] }))
  modify (fun s => (s.modCluster cl (fun k => k.switchBanks mode t.entry.ctx)).checkCapacity c.partition)

/-- BANKMODE (R250). -/
def execBankmode (f : Fields) (s : State) : Host.Outcome State Fault Refusal :=
  issueLive (.bankmode f) f (bankmodeBody f) s

/-- The FIFO bank that IMM[5:0] names; BANK_STATE where it is no FIFO of the context (R268). -/
def fifoBank (w : Who) (f : Fields) : M (Nat × Nat × Bank) := do
  let t ← theTask w
  let k := iField f 5 0
  let b := ((← get).cluster t.cluster).banks.getD k {}
  if b.mode = .fifo ∧ b.owner = some t.entry.ctx then pure (t.cluster, k, b) else trapNow cBANK_STATE

/-- Wait, as a stall, for room or an entry of a FIFO, and behind the threads of the same issue on lower lanes that still wait (R268). -/
def fifoTurn (w : Who) (cond : Bool) : M Unit := do
  let t ← theTask w
  let k := w.thread.getD 0
  let s ← get
  let here (j : Nat) : Bool := t.live j && (t.thread j).ag.pc == (t.agent w.thread).pc
  let lower := if (t.agent w.thread).waiting then (t.thread k).behind
               else (s.cur.threads.takeWhile (fun j => j != k)).filter (fun j => (t.thread j).ag.waiting)
  let blocked := w.thread.isSome && lower.any here
  if w.thread.isSome && (blocked || !cond) then modTask w (fun t => t.modThread k (fun x => { x with behind := lower }))
  stallUnless w (cond && !blocked)
  if w.thread.isSome then
    modTask w (fun t => { t with threads := t.threads.map (fun x => { x with behind := x.behind.erase k }) })

/-- FIFOPUSH (R268). -/
def execFifopush (f : Fields) (s : State) : Host.Outcome State Fault Refusal :=
  issueLive (.fifopush f) f (fun w => do
    let (cl, k, b) ← fifoBank w f
    fifoTurn w (decide (b.fifo.length < 2048))
    let v := trunc (← rdOpnd w (shape (.fifopush f)).c f.c) (8 * accBytes f)
    if 2 ≤ mField f 4 3 then modify (fun s => s.releaseAt cl (mField f 2 0))
    modify (fun s => s.modCluster cl (fun c => { c with
      banks := updAt c.banks k (fun b => { b with fifo := b.fifo ++ [BitVec.ofNat 128 v] }) }))) s

/-- FIFOPOP (R268). -/
def execFifopop (f : Fields) (s : State) : Host.Outcome State Fault Refusal :=
  issueLive (.fifopop f) f (fun w => do
    let (cl, k, b) ← fifoBank w f
    fifoTurn w (!b.fifo.isEmpty)
    modify (fun s => s.modCluster cl (fun c => { c with banks := updAt c.banks k (fun b => { b with fifo := b.fifo.drop 1 }) }))
    if mField f 4 3 = 1 then modify (fun s => s.acquireAt cl (mField f 2 0))
    wrOpnd w (shape (.fifopop f)).d f.d (trunc (b.fifo.headD 0).toNat (8 * accBytes f))) s

end Sys2Proof.Machine
end

