-- ==== Sys2Proof/Machine/Engine.lean ====
section
/-! DEFINITION. What the engine queues share: ranges of memory and their translation pass (12 R300), the end of a copy command,
pending bin updates and their application (12 R312 to R314). -/

namespace Sys2Proof.Machine

/-- The first byte of a range that is not canonical. -/
def badByte (base : Int) (n : Nat) : Option Int :=
  if n = 0 then none
  else if base < -(2 ^ 56 : Int) then some base
  else if (2 ^ 56 : Int) < base + n then some (max base (2 ^ 56 : Int))
  else none

/-- Translate ranges of exact addresses, the first non-canonical byte being a fault. -/
def State.mapAll (s : State) (a : Acc) (need : Need) (rs : List (Int × Nat)) : Except AccErr (List Seg) × State :=
  match rs.findSome? (fun r => badByte r.1 r.2) with
  | some b => (.error (.fault (truncInt b 64)), s)
  | none => s.mapRange a need (rs.flatMap (fun r => pieces (truncInt r.1 64) r.2))

/-- How an engine command ends: performed, with its error and OOB bit; parked; or the tree's end. -/
inductive EngEnd where
  | done (err : Option (Nat × Option Nat)) (oob : Bool)
  | park (p : Park)
  | poison
  deriving DecidableEq, Repr, Inhabited

/-- The end that a failed access gives; `cause` is that of a fault that cannot be recovered. -/
def AccErr.ends (e : AccErr) (cause : Nat) (write : Bool) : EngEnd :=
  match e with
  | .pend va => .park { va := va, write := write, engine := true }
  | .fault va => .done (some (cause, some va)) false
  | .race r va => .done (some (r.cause, some va)) false
  | .poison => .poison
  | .strandPend va => .park { va := va, engine := true }
  | .filterLost => .done (some (cause, none)) false

/-- The access of a queued command: TASK scope, the strand of its issue. -/
def Cmd.acc (c : Cmd) (t : Task) : Acc :=
  { Acc.ofTask t none with strand := c.strand, checked := true, engine := true }

/-! ### Moving bytes (R300; 11 R282, R284) -/

def Seg.tuple (g : Seg) : Nat × Nat × Nat × Bool := (g.va, g.pa, g.n, g.watched)
def segOf (p : Nat × Nat × Nat × Bool) : Seg := { va := p.1, pa := p.2.1, n := p.2.2.1, watched := p.2.2.2 }

/-- The units of a segment in which a command moves its bytes: aligned 16-byte units, every other byte alone (11 R284). A length bounds them. -/
def Seg.units : Nat → Seg → List Seg
  | 0, _ => []
  | k + 1, g =>
    if g.n = 0 then []
    else
      let m := if g.pa % 16 = 0 ∧ 16 ≤ g.n then 16 else 1
      { g with n := m } :: Seg.units k { g with va := g.va + m, pa := g.pa + m, n := g.n - m }

/-- The units of a list of segments, each with the place of its first byte. -/
def unitsOf (k : Nat) : List Seg → List (Nat × Seg)
  | [] => []
  | g :: gs =>
    let us := (g.units g.n).foldl (fun (r : Nat × List (Nat × Seg)) u => (r.1 + u.n, r.2 ++ [(r.1, u)])) (k, [])
    us.2 ++ unitsOf (k + g.n) gs

/-- What a command that moves bytes between memory and pigeonholes reads and writes, what it writes of what it has read, and the bytes of its
pigeonhole that it fills, by offset. -/
structure Plan where
  reads : List (Int × Nat) := []
  writes : List (Int × Nat) := []
  out : List Byte → List Byte := id
  fill : List Byte → List (Nat × Byte) := fun _ => []
  hole : Nat := 0
  oob : Bool := false

/-- The segments of the ranges of a plan, by the translation pass (R300): before a byte is written every page is checked. -/
def State.translatePlan (s : State) (a : Acc) (p : Plan) : Except EngEnd (List Seg × List Seg) × State :=
  match s.mapAll a { r := true } p.reads with
  | (.error e, s) => (.error (e.ends cCOPY_FAULT false), s)
  | (.ok rs, s) =>
    match s.mapAll a { w := true } p.writes with
    | (.error e, s) => (.error (e.ends cCOPY_FAULT true), s)
    | (.ok ws, s) => (.ok (rs, ws), s)

/-- The first byte, of ranges that a command translated when it began, that no longer names storage in service: an unrecoverable fault (15 R375; 17
R429). -/
def State.outOfService (s : State) (segs : List Seg) : Option AccErr :=
  segs.findSome? (fun g => (s.firstMissing g.pa g.n).map (fun k => .fault (g.va + k)))

/-- Read what a command that began earlier has not read yet. -/
def State.readBegun (s : State) (a : Acc) (segs : List Seg) : Except AccErr (List Byte) × State :=
  match s.outOfService segs with
  | some e => (.error e, s)
  | none => s.readSegs a segs

/-- Write what a command that began earlier has not written yet. With what it has written before, a sector that it stores whole, written through, is no
longer poisoned (17 R427). -/
def State.writeBegun (s : State) (a : Acc) (before segs : List Seg) (bs : List Byte) : Except AccErr State :=
  match s.outOfService segs with
  | some e => .error e
  | none => (s.writeSegs a segs bs).map (fun s =>
      let whole (sec : Nat) : Bool := (List.range 32).all (fun k =>
        (before ++ segs).any (fun g => decide (g.pa ≤ 32 * sec + k) && decide (32 * sec + k < g.pa + g.n)))
      if s.poison.isEmpty then s
      else (segs.filter (fun g => !(s.usesL1 a.cl a.scope && !g.watched))).foldl (fun s g =>
        ((List.range ((g.pa % 32 + g.n + 31) / 32)).filter (fun k => whole (g.pa / 32 + k))).foldl (fun s k => s.scrub (32 * (g.pa / 32 + k)) 32) s) s)

/-- Read what a command that has begun has not read yet, unit by unit: the bytes of its ranges by place. -/
def State.readUnits (s : State) (a : Acc) (got : Sparse (Option Byte)) : List (Nat × Seg) → Except AccErr (Sparse (Option Byte)) × State
  | [] => (.ok got, s)
  | (k, g) :: us =>
    match s.readBegun a [g] with
    | (.error e, s) => (.error e, s)
    | (.ok bs, s) => State.readUnits s a ((bs.zipIdx k).foldl (fun m b => Sparse.put none m b.2 (some b.1)) got) us

/-- Bytes of a command's ranges that have been read, in order. -/
def gotBytes (got : Sparse (Option Byte)) (rs : List Seg) : List Byte :=
  (List.range ((rs.map (fun g => g.n)).sum)).map (fun k => (Sparse.get none got k).getD 0)

/-- Move the bytes of a plan, or the rest of those of a command that has begun: its end, the bytes read, and the state. Where the command has not
begun, a check that fails leaves every byte as it was. -/
def State.transfer (s : State) (a : Acc) (begun : Option Begun) (p : Plan) : EngEnd × List Byte × State :=
  match begun with
  | none =>
    match s.translatePlan a p with
    | (.error e, s) => (e, [], s)
    | (.ok (rs, ws), s) =>
      match s.readSegs a rs with
      | (.error e, s) => (e.ends cCOPY_FAULT false, [], s)
      | (.ok bs, s) =>
        match s.writeSegs a ws (p.out bs) with
        | .error e => (e.ends cCOPY_FAULT true, [], s)
        | .ok s => (.done none p.oob, bs, s)
  | some g =>
    let rs := g.reads.map segOf
    match s.readUnits a g.got ((unitsOf 0 rs).filter (fun u => (Sparse.get none g.got u.1).isNone)) with
    | (.error e, s) => (e.ends cCOPY_FAULT false, [], s)
    | (.ok got, s) =>
      let bs := gotBytes got rs
      let (done, left) := (unitsOf 0 (g.writes.map segOf)).partition (fun u => g.put.contains u.1)
      match s.writeBegun a (done.map Prod.snd) (left.map Prod.snd) (left.flatMap (fun u => ((p.out bs).drop u.1).take u.2.n)) with
      | .error e => (e.ends cCOPY_FAULT true, [], s)
      | .ok s => (.done none p.oob, bs, s)

/-- One unit of a command that has begun: read, or written where the bytes that it takes have been read, and all of them where what is read and what
is written overlap (R300). `none` where there is nothing to do. -/
def State.moveUnit (s : State) (a : Acc) (g : Begun) (p : Plan) (write : Bool) (n : Nat) : Option (Except EngEnd Begun × State) :=
  let rs := g.reads.map segOf
  let ws := g.writes.map segOf
  let total := (rs.map (fun g => g.n)).sum
  let has (k : Nat) : Bool := decide (total ≤ k) || (Sparse.get none g.got k).isSome
  if write then
    match (unitsOf 0 ws)[n]? with
    | none => none
    | some (k, u) =>
      let overlap := rs.any (fun r => ws.any (fun w => decide (r.pa < w.pa + w.n) && decide (w.pa < r.pa + r.n)))
      let need := if rs.isEmpty then [] else if overlap then List.range total else (List.range u.n).map (fun j => k + j)
      if g.put.contains k || !need.all has then none
      else match s.writeBegun a (((unitsOf 0 ws).filter (fun u => g.put.contains u.1)).map Prod.snd) [u] (((p.out (gotBytes g.got rs)).drop k).take u.n) with
        | .error e => some (.error (e.ends cCOPY_FAULT true), s)
        | .ok s => some (.ok { g with put := k :: g.put }, s)
  else
    match (unitsOf 0 rs)[n]? with
    | none => none
    | some (k, u) =>
      if has k then none
      else match s.readUnits a g.got [(k, u)] with
        | (.error e, s) => some (.error (e.ends cCOPY_FAULT false), s)
        | (.ok got, s) => some (.ok { g with got := got }, s)

/-- Fields of the word of a queued command. -/
def Cmd.fields (c : Cmd) : Fields := Fields.ofWord c.word

/-- The first command of a copy queue begins its stall when it is a multicast command that waits for a slot (R307, R308). -/
def State.startHead (s : State) (task q : Nat) : State :=
  match s.task? task with
  | none => s
  | some t =>
    let now := s.cycle t.cluster
    s.modTask task (fun t => { t with copyq := updAt t.copyq q (fun l =>
      match l with
      | [] => []
      | c :: cs =>
        match c.stall, decode c.word with
        | none, .cpym _ => (if c.c = 0 then c else { c with stall := some { since := now, limit := t.hstall.toNat * 256 } }) :: cs
        | none, .cpyd _ => { c with stall := some { since := now, limit := t.hstall.toNat * 256 } } :: cs
        | _, _ => c :: cs) })

/-- The pigeonholes of a copy command when it has been performed (R298). -/
def Task.releaseHoles (t : Task) (i : Instr) (f : Fields) : Task :=
  let filled (t : Task) (h : BitVec 9) : Task := t.fillHole h.toNat
  let read (t : Task) (h : BitVec 9) : Task := t.modHole h.toNat (fun x => if mBit f 4 then x.drained else x.wasRead)
  match i with
  | .cpy _ =>
    let t := if mBit f 7 then filled t f.d else t
    if mBit f 6 then read t f.a else t
  | .cpys _ => if mBit f 7 then filled t f.d else t
  | .cpyt _ => if mBit f 3 then read t f.b else filled t f.b
  | .cpyg _ => filled t f.d
  | .cpym _ => read t f.b
  | .cpyd _ => filled t f.d
  | _ => t

/-- The first command of a copy queue has been performed (R293, R294, R298). -/
def State.finishCopy (s : State) (task q : Nat) (err : Option (Nat × Option Nat)) (oob : Bool) : State :=
  match s.task? task with
  | none => s
  | some t =>
    match t.copyq.getD q [] with
    | [] => s
    | c :: rest =>
      let rec? : Option ErrRec := err.map (fun e => { cause := e.1, ord := c.ord, batch := c.batch, addr := e.2 })
      let s := s.modTask task (fun t =>
        let t := { t with copyq := updAt t.copyq q (fun _ => rest) }
        (t.releaseHoles (decode c.word) c.fields).modAgent c.issuer (fun a => a.performed c.batch rec? oob))
      s.startHead task q

/-! ### Pending bin updates -/

/-- Width in bytes of a SCADD type, and its sum (R312, R313). -/
def binBytes (type : Nat) : Nat := if type % 2 = 1 then 8 else 4
def binSum (type m v : Nat) : Nat := atomNew (if 2 ≤ type then 9 else 0) (binBytes type) m v

/-- The order of an application (R313). -/
def BinUpdate.le (x y : BinUpdate) : Bool :=
  let px := x.ped.elems.map pairOf
  let py := y.ped.elems.map pairOf
  if x.addr ≠ y.addr then decide (x.addr < y.addr)
  else if px ≠ py then serialLt px py
  else if x.thread ≠ y.thread then decide (x.thread < y.thread)
  else decide (x.ord ≤ y.ord)

/-- Apply one update at the physical address that a translation gave, at its home slice: dirty copies of the line are written back first (10 R248). -/
def State.applyAt (s : State) (cl? : Option Nat) (pa : Nat) (u : BinUpdate) : State :=
  let n := binBytes u.type
  let s := s.writeBackEverywhere (pa / 128)
  match cl? with
  | some cl => s.storeBytes cl pa false (leBytes n (binSum u.type (ofLE (s.home pa n)) u.value))
  | none => s.setHome pa (leBytes n (binSum u.type (ofLE (s.home pa n)) u.value))

/-- What an application ends in. -/
inductive BinRes where
  | ok (faulted : Bool)
  | pend (p : Park)
  /-- The tree ends at once: the bin area cannot be read (15 R453), or what is read is poisoned (17 R427). -/
  | ends (status : Nat)
  deriving DecidableEq, Repr, Inhabited

/-- Whether the page of the bin area that holds an update can be read (R314; 15 R453). -/
def State.binHeld (s : State) (ctx : Nat) (u : BinUpdate) : Option BinRes :=
  match u.place with
  | none => none
  | some a => match s.mapCp ctx { r := true } [(a, 1)] with
    | .ok l => if l.any (fun p => s.poisoned p.1 p.2) then some (.ends stUNCORRECTED) else none
    | .pend p => some (.pend p)
    | .fault => some (.ends stBIN_STAGING)

/-- Apply updates in the order of R313: through the cluster of a task, or for the command processor. An update that cannot be
applied is passed over. -/
def State.applyBins (s : State) (ctx : Nat) (cl? : Option Nat) : List BinUpdate → BinRes × State
  | [] => (.ok false, s)
  | u :: us =>
    match s.binHeld ctx u with
    | some r => (r, s)
    | none =>
    let (x, s) := match cl? with
      | some cl => s.translate ctx cl u.addr { r := true, w := true }
      | none => (s.translateCp ctx u.addr { r := true, w := true }, s)
    match x with
    | .pend => (.pend { va := u.addr, write := true, engine := true }, s)
    | .fault =>
      match State.applyBins s ctx cl? us with
      | (.ok _, s) => (.ok true, s)
      | r => r
    | .ok pa _ =>
      if (s.firstMissing pa (binBytes u.type)).isSome then
        match State.applyBins s ctx cl? us with
        | (.ok _, s) => (.ok true, s)
        | r => r
      else if (s.writeBackEverywhere (pa / 128)).poisoned pa (binBytes u.type) then (.ends stUNCORRECTED, s)
      else State.applyBins (s.applyAt cl? pa u) ctx cl? us

/-- An agent applies updates (R313, R314). A page that is not present holds the agent with nothing applied; a fault ends the
tree when the instruction has completed. -/
def applyNow (w : Who) (us : List BinUpdate) : M Unit := do
  let t ← theTask w
  let (r, s) := (← get).applyBins t.entry.ctx (some t.cluster) (sortBy BinUpdate.le us)
  match r with
  | .pend p => throw (.park p)
  | .ends st => set s; throw (.endTree st)
  | .ok false => set s
  | .ok true => set (s.abortTree t.entry.tree stBIN_FAULT)

/-- The task's own updates that a SYNC or a uniform BINFLUSH applies (R314): those made by threads before the phase that the
uniform stream completed last. -/
def Task.dueBins (t : Task) (u : BinUpdate) : Bool :=
  match t.u.phase with
  | some p => decide (u.seq < Sparse.get 0 p.cuts u.thread)
  | none => false

end Sys2Proof.Machine
end

