-- ==== Sys2Proof/Machine/Copy.lean ====
section
/-! DEFINITION. Copies, multicast, the gather collector and binned scatter-add: the instructions of space 0x18 and the steps of
their engines (10 R254; 12 R292 to R318). -/

namespace Sys2Proof.Machine

/-! ### Issue -/

/-- Wait while the copy queue is full (R292). -/
def queueRoom (w : Who) (q : Nat) : M Unit := do
  if 64 ≤ ((← theTask w).copyq.getD q []).length then throw .wait

/-- A copy command enters its queue with the operands captured (R292). -/
def enqueueCopy (w : Who) (i : Instr) (f : Fields) (d a b c : Nat) (desc : List Byte := []) : M Unit := do
  let t ← theTask w
  let ag := t.agent w.thread
  let q := mField f 1 0
  let cmd : Cmd :=
    { word := (encode i).getD 0, ord := ag.copyOrd.toNat, issuer := w.thread, batch := ag.batchOrd.toNat, d := d, a := a, b := b,
      c := c, desc := desc, strand := t.strand w.thread }
  modTask w (fun t =>
    let t := { t with copyq := updAt t.copyq q (fun l => l ++ [cmd]) }
    t.modAgent w.thread (fun x => x.joinBatch))
  modify (fun s => s.startHead w.task q)

/-- HOLE_RANGE unless n bytes from an offset lie in a pigeonhole (R298). -/
def needHole (w : Who) (off n : Nat) : M Unit := do
  if (← theTask w).holeBytes < off + n then trapNow cHOLE_RANGE

/-- The value of a field that names a register; 0 for a pigeonhole. -/
def capture (w : Who) (o : Opnd) (v : BitVec 9) : M Nat :=
  match o.kind with
  | .h | .unused => pure 0
  | _ => rdOpnd w o v

/-- Issue waits, as one stall, until every pigeonhole that the command names may be taken, and then while its queue is full (R292,
R298). Until then no pigeonhole changes state. -/
def awaitIssue (w : Who) (f : Fields) (src dst : Option (BitVec 9)) : M Unit := do
  let t ← theTask w
  stallUnless w (src.all (fun h => (t.hole h.toNat).readable (mBit f 4)) && dst.all (fun h => (t.hole h.toNat).fillable))
  endStall w
  queueRoom w (mField f 1 0)

/-- The source pigeonhole of a command (R298). -/
def sourceHole (w : Who) (f : Fields) (h : BitVec 9) : M Unit :=
  if mBit f 4 then drainHole w h.toNat else readHole w h.toNat

/-- CPY (R301). -/
def execCpy (f : Fields) (s : State) : Host.Outcome State Fault Refusal :=
  issueLive (.cpy f) f (fun w => do
    let sh := shape (.cpy f)
    let n := (← rdOpnd w sh.b f.b) % 2 ^ 32
    if mBit f 7 then needHole w (iField f 15 0) n
    if mBit f 6 then needHole w (iField f 31 16) n
    awaitIssue w f (if mBit f 6 then some f.a else none) (if mBit f 7 then some f.d else none)
    let d ← capture w sh.d f.d
    let a ← capture w sh.a f.a
    if mBit f 6 then sourceHole w f f.a
    if mBit f 7 then fillHole w f.d.toNat
    enqueueCopy w (.cpy f) f d a n 0) s

/-- CPYS (R302). -/
def execCpys (f : Fields) (s : State) : Host.Outcome State Fault Refusal :=
  issueLive (.cpys f) f (fun w => do
    let sh := shape (.cpys f)
    let n := (← rdOpnd w sh.b f.b) % 2 ^ 32
    let c := (← rdOpnd w sh.c f.c) % 2 ^ 32
    if mBit f 7 then needHole w (iField f 15 0) n
    awaitIssue w f none (if mBit f 7 then some f.d else none)
    let d ← capture w sh.d f.d
    if mBit f 7 then fillHole w f.d.toNat
    enqueueCopy w (.cpys f) f d 0 n c) s

/-- A field of a window descriptor, as a number. -/
def descField (d : List Byte) (o n : Nat) : Nat := ofLE ((d.drop o).take n)
/-- Element width E of a window. -/
def descE (d : List Byte) : Nat := 2 ^ descField d 40 1
/-- BOX sizes. -/
def descBox (d : List Byte) (k : Nat) : Nat := descField d (42 + k) 1 + 1
/-- Whether the fields are in range and the reserved bytes zero (R303). -/
def descOk (d : List Byte) : Bool :=
  decide (descField d 40 1 ≤ 3) && descField d 20 4 == 0 && descField d 41 1 == 0 && descField d 45 3 == 0 && descField d 56 8 == 0
/-- NB. -/
def descBytes (d : List Byte) : Nat := descBox d 0 * descBox d 1 * descBox d 2 * descE d

/-- CPYT (R303, R304). -/
def execCpyt (f : Fields) (s : State) : Host.Outcome State Fault Refusal :=
  issueLive (.cpyt f) f (fun w => do
    let sh := shape (.cpyt f)
    let a ← rdOpnd w sh.a f.a
    if a % 64 ≠ 0 ∨ !canonicalVa a then trapAddr cMEM_FAULT a
    let c ← rdOpnd w sh.c f.c
    let t ← theTask w
    let desc ← loadVa (Acc.ofTask t w.thread) a 64
    if !descOk desc then trapNow cILLEGAL_OP
    if iField f 15 0 % descE desc ≠ 0 then trapNow cHOLE_RANGE
    needHole w (iField f 15 0) (descBytes desc)
    awaitIssue w f (if mBit f 3 then some f.b else none) (if mBit f 3 then none else some f.b)
    if mBit f 3 then sourceHole w f f.b else fillHole w f.b.toNat
    enqueueCopy w (.cpyt f) f (field c 95 64) a 0 (field c 63 0) desc) s

/-- CPYG (R305). -/
def execCpyg (f : Fields) (s : State) : Host.Outcome State Fault Refusal :=
  issueLive (.cpyg f) f (fun w => do
    let sh := shape (.cpyg f)
    let a ← rdOpnd w sh.a f.a
    let b ← rdOpnd w sh.b f.b
    let c ← rdOpnd w sh.c f.c
    needHole w 0 (c % 2 ^ 32 * iField f 15 0)
    if b % 4 ≠ 0 then trapAddr cMEM_FAULT b
    awaitIssue w f none (some f.d)
    fillHole w f.d.toNat
    enqueueCopy w (.cpyg f) f 0 a b c) s

/-- CPYM (R307). -/
def execCpym (f : Fields) (s : State) : Host.Outcome State Fault Refusal :=
  issueLive (.cpym f) f (fun w => do
    let sh := shape (.cpym f)
    let a ← rdOpnd w sh.a f.a
    let c := (← rdOpnd w sh.c f.c) % 2 ^ 32
    needHole w (iField f 31 16) (iField f 12 0)
    awaitIssue w f (some f.b) none
    sourceHole w f f.b
    enqueueCopy w (.cpym f) f 0 a 0 c) s

/-- CPYD (R308). -/
def execCpyd (f : Fields) (s : State) : Host.Outcome State Fault Refusal :=
  issueLive (.cpyd f) f (fun w => do
    let a ← rdOpnd w (shape (.cpyd f)).a f.a
    needHole w (iField f 31 16) (iField f 12 0)
    awaitIssue w f none (some f.d)
    fillHole w f.d.toNat
    enqueueCopy w (.cpyd f) f 0 a 0 0) s

/-- SEAL (R315). A helper seals its own batch, which holds no command, and writes its D (02 R43). -/
def execSeal (f : Fields) (s : State) : Host.Outcome State Fault Refusal :=
  issueLane (.seal f) f (fun w => do wrOpnd w (shape (.seal f)).d f.d (← sealBody w)) s

/-- CWAIT (R316). -/
def execCwait (f : Fields) (s : State) : Host.Outcome State Fault Refusal :=
  issueLane (.cwait f) f (fun w => do wrOpnd w (shape (.cwait f)).d f.d (← cwaitBody w (iField f 3 0))) s

/-- Report the matrix fault record at a join (07 R162): its fault traps, and the handler's entry clears it. -/
def reportMatrix (w : Who) : M Unit := do
  let t ← theTask w
  match t.fault with
  | none => pure ()
  | some e =>
    trapWith { cause := e.cause, addr := e.addr, ident := e.ord, deferred := true, later := e.later, keep := true, matrix := true }

/-- Commands of q0 to q4: queue, issuer, ordinal. -/
def Task.commands (t : Task) (q : Nat) : List (Nat × Option Nat × Nat) :=
  (if q = 4 then t.q4 else t.copyq.getD q []).map (fun c => (q, c.issuer, c.ord))

/-- Whether q5 holds no request of a task. -/
def State.gatherIdle (s : State) (t : Task) : Bool := !(s.core t.coreD).collector.any (fun g => g.task == t.entry.id)

/-- The merges that a task has started, named by the sync block that they join (R317). -/
def Task.mergesBegun (t : Task) : List (Nat × Option Nat × Nat) :=
  if (t.join == .sync || t.join == .exitJoin) && t.joined != t.children.length then [(7, none, t.u.block)] else []

/-- A request in a collector notes that an agent waits for it. -/
def GatherReq.markFor (g : GatherReq) (w : Who) : GatherReq := { g with awaited := (w.task, w.thread) :: g.awaited }
def GatherReq.awaits (g : GatherReq) (w : Who) : Bool := g.awaited.contains (w.task, w.thread)

/-- The requests in the collectors that satisfy a test note that an agent waits for them. -/
def State.awaitRequests (s : State) (w : Who) (p : GatherReq → Bool) : State :=
  if s.cores.any (fun c => c.2.collector.any p) then
    { s with cores := s.cores.map (fun c => (c.1, { c.2 with collector := c.2.collector.map (fun g =>
        if p g then g.markFor w else g) })) }
  else s

/-- Whether a request for which an agent waits is still in a collector. -/
def State.requestAwaited (s : State) (w : Who) : Bool :=
  s.cores.any (fun c => c.2.collector.any (fun g => g.awaits w))

/-- QFENCE (R317): it waits for the commands, requests and merges that had entered the queues when it issued. -/
def execQfence (f : Fields) (s : State) : Host.Outcome State Fault Refusal :=
  issueLive (.qfence f) f (fun w => do
    let t ← theTask w
    let qs := bitsOf 8 (iField f 7 0)
    let held := (qs.filter (fun q => decide (q < 5))).flatMap (fun q => t.commands q) ++ (if qs.contains 7 then t.mergesBegun else [])
    if (t.agent w.thread).fence.isNone && qs.contains 5 && !(← get).gatherIdle t then modify (fun s => s.modCore t.coreD (fun c => { c with
      collector := c.collector.map (fun g => if g.task == w.task then g.markFor w else g) }))
    let mine := (t.agent w.thread).fence.getD held
    modAgent w (fun a => { a with fence := some mine })
    if mine.any (fun c => held.contains c) || (qs.contains 5 && ((← get).core t.coreD).collector.any (fun g => g.task == w.task && g.awaits w)) then throw .wait
    modAgent w (fun a => { a with fence := none })
    if bitAt (iField f 7 0) 4 then reportMatrix w) s

/-- The address of GATH, SCAT and SCADD (R310, R312). -/
def laneAddr (w : Who) (i : Instr) (f : Fields) (sh n : Nat) : M Nat := do
  let base := signExt (← rdOpnd w (shape i).a f.a) 64
  let idx := signExt (← rdOpnd w (shape i).b f.b) 32
  let ea := base + idx * (2 ^ sh : Int) + signExt f.imm.toNat 32
  let a := truncInt ea 64
  if !canonical ea then trapAddr cMEM_FAULT a
  else if a % n ≠ 0 then trapAddr cMEM_FAULT a
  else pure a

/-- Bytes of a GATH or SCAT element. -/
def gatherBytes (f : Fields) : Nat := if mBit f 7 then 8 else 4

/-- A request enters the collector of the task's core (R311); a full one makes the thread wait. -/
def enterCollector (w : Who) (r : GatherReq) : M Unit := do
  let t ← theTask w
  let s ← get
  if 256 ≤ (s.core t.coreD).collector.length then throw .wait
  set (s.modCore t.coreD (fun c => { c with collector := c.collector ++ [{ r with entered := s.cycle t.cluster }] }))

/-- GATH (R310): the request enters q5, and the thread waits for its value. -/
def gathBody (f : Fields) (w : Who) : M Flow := do
  let t ← theTask w
  let k := w.thread.getD 0
  if ((← get).core t.coreD).collector.any (fun g => g.task == w.task && g.thread == k && !g.write) then throw .wait
  let n := gatherBytes f
  let a ← laneAddr w (.gath f) f (mField f 3 2) n
  let segs ← mapFor (Acc.ofTask t w.thread) a a n { r := true }
  match segs with
  | [] => throw .wait
  | g :: _ =>
    let mates := ((← get).cur.threads.takeWhile (fun j => j != k)).filter (fun j => j / 4 == k / 4)
    let col := ((← get).core t.coreD).collector
    let lead := (mates.find? (fun j => col.any (fun g => g.task == w.task && g.thread == j && !g.write))).getD k
    enterCollector w { task := w.task, thread := k, write := false, ea := a, pa := some g.pa, bytes := n, dest := f.d.toNat,
                       strand := t.strand w.thread, watched := g.watched, lead := lead }
    throw .wait

/-- The requests that an issue of GATH has entered for some quads note that the helpers of their quads have passed it. -/
def State.notePassed (s : State) (task : Nat) (threads quads : List Nat) : State :=
  match s.task? task with
  | none => s
  | some t => s.modCore t.coreD (fun c => { c with collector := c.collector.map (fun g =>
      if g.task == task && !g.write && threads.contains g.thread && quads.contains (g.thread / 4) then { g with passed := true } else g) })

/-- GATH (R310). Helpers pass it with the first threads of their quad that do: those that a predicate block suppresses, or else those whose values
arrive (`State.performRequests`). -/
def execGath (f : Fields) (s : State) : Host.Outcome State Fault Refusal :=
  if s.cur.uniform then issue (.gath f) f (gathBody f) none s
  else
    let (s', done) := issueThreads (.gath f) f (gathBody f) s.cur.task s.cur.threads s
    let rest := s.cur.threads.filter (fun k => !done.contains k)
    let s' := if done.isEmpty || rest.isEmpty then s' else s'.notePassed s.cur.task rest (done.map (fun k => k / 4))
    .next (issueHelpers (.gath f) f none s.cur.task done s')

/-- SCAT (R310). -/
def execScat (f : Fields) (s : State) : Host.Outcome State Fault Refusal :=
  issueLive (.scat f) f (fun w => do
    let t ← theTask w
    let ag := t.agent w.thread
    let n := gatherBytes f
    let a ← laneAddr w (.scat f) f (mField f 3 2) n
    let v := trunc (← rdOpnd w (shape (.scat f)).c f.c) (8 * n)
    let (x, s) := (← get).translate t.entry.ctx t.cluster a { w := true }
    set s
    let (pa, wt) ← (match x with
      | .pend => throw (.park { va := a, write := true })
      | .fault => pure (none, false)
      | .ok pa wt => pure (if (s.firstMissing pa n).isSome then none else some pa, wt) : M (Option Nat × Bool))
    enterCollector w { task := w.task, thread := w.thread.getD 0, write := true, ea := a, pa := pa, bytes := n, value := v,
                       ord := ag.copyOrd.toNat, batch := ag.batchOrd.toNat, strand := t.strand w.thread, watched := wt, entered := 0 }
    modAgent w (fun x => x.joinBatch)) s

/-- Pending updates that lie in the bin area of a tree. -/
def State.binCount (s : State) (tree : Nat) : Nat :=
  ((s.tasks.filter (fun t => t.entry.tree == tree)).map (fun t => t.bins.length + (t.children.map (fun c => c.bins.length)).sum)).sum
  + (match s.tree? tree with | some r => (r.tops.map (fun c => c.bins.length)).sum | none => 0)

/-- A page of the tree's bin area takes an update (R312, R314; log entries 8 and 9): a full area, or one that cannot be written, ends
the tree with BIN_STAGING (15 R453). -/
def takeBin (r : Tree) : M Nat := do
  let s ← get
  match pickFree .binArea s.tick (List.range r.binSize) with
  | none => throw (.endTree stBIN_STAGING)
  | some k =>
    if Config.binCapacity (65536 * r.binSize) ≤ s.binCount r.id then throw (.endTree stBIN_STAGING)
    match s.mapCp r.ctx { w := true } [(r.binArea + 65536 * k, 1)] with
    | .ok _ => pure (r.binArea + 65536 * k)
    | .pend p => throw (.park p)
    | .fault => throw (.endTree stBIN_STAGING)

/-- SCADD (R312): the update joins the task's pending set. -/
def execScadd (f : Fields) (s : State) : Host.Outcome State Fault Refusal :=
  issueLive (.scadd f) f (fun w => do
    let t ← theTask w
    let r ← theTree t
    let k := w.thread.getD 0
    let ty := mField f 1 0
    let a ← laneAddr w (.scadd f) f 0 (binBytes ty)
    let v := trunc (← rdOpnd w (shape (.scadd f)).c f.c) (8 * binBytes ty)
    discard (mapFor (Acc.ofTask t w.thread) a a (binBytes ty) { r := true, w := true })
    let page ← takeBin r
    let u : BinUpdate := { addr := a, value := v, type := ty, ped := t.entry.ped, thread := k, ord := (t.thread k).scaddOrd.toNat,
                           seq := t.seq, place := some page }
    modTask w (fun t => { t.modThread k (fun x => { x with scaddOrd := x.scaddOrd + 1 }) with bins := t.bins ++ [u], seq := t.seq + 1 })) s

/-- BINFLUSH (R314): in a thread its own pending updates, in the uniform stream those due. -/
def execBinflush (f : Fields) (s : State) : Host.Outcome State Fault Refusal :=
  issueLive (.binflush f) f (fun w => do
    let t ← theTask w
    let mine (u : BinUpdate) : Bool := match w.thread with | some k => u.thread == k | none => t.dueBins u
    applyNow w (t.bins.filter mine)
    modTask w (fun t => { t with bins := t.bins.filter (fun u => !mine u) })) s

/-! ### Performing -/

/-- Offsets in a pigeonhole, swizzled when SWZ is set. -/
def holeOffsets (f : Fields) (off n : Nat) : List Nat :=
  (List.range n).map (fun k => if mBit f 5 then swz (off + k) else off + k)
/-- Bytes of a pigeonhole at offsets, and bytes put there. -/
def Hole.gather (h : Hole) (os : List Nat) : List Byte := os.map (fun o => Sparse.get 0 h.data o)
def Hole.scatter (h : Hole) (os : List Nat) (bs : List Byte) : Hole :=
  { h with data := (os.zip bs).foldl (fun m p => Sparse.put 0 m p.1 p.2) h.data }

/-- What CPY moves (R301). -/
def cpyPlan (t : Task) (c : Cmd) (f : Fields) : Plan :=
  let src := (t.hole f.a.toNat).gather (holeOffsets f (iField f 31 16) c.b)
  let pick (bs : List Byte) : List Byte := if mBit f 6 then src else bs
  { reads := if mBit f 6 then [] else [(signExt c.a 64, c.b)]
    writes := if mBit f 7 then [] else [(signExt c.d 64, c.b)]
    out := pick
    fill := fun bs => if mBit f 7 then (holeOffsets f (iField f 15 0) c.b).zip (pick bs) else []
    hole := f.d.toNat }

/-- What CPYS moves (R302). -/
def cpysPlan (c : Cmd) (f : Fields) : Plan :=
  let pat (o : Nat) : Byte := BitVec.ofNat 8 (c.c / 2 ^ (8 * (o % 4)))
  let os := (List.range c.b).map (fun k => iField f 15 0 + k)
  if mBit f 7 then { fill := fun _ => os.zip (os.map pat), hole := f.d.toNat }
  else { writes := [(signExt c.d 64, c.b)], out := fun _ => (List.range c.b).map (fun k => pat (c.d + k)) }

/-- The elements of a window in order: whether in bounds, the memory address, the hole offset (R304). -/
def windowElems (desc : List Byte) (off o0 o1 o2 : Nat) : List (Bool × Int × Nat) :=
  let e := descE desc
  let x := descBox desc 0
  let y := descBox desc 1
  let inside (c : Int) (k : Nat) : Bool := decide (0 ≤ c) && decide (c < (descField desc (8 + 4 * k) 4 : Nat))
  (List.range (descBox desc 2)).flatMap (fun (k : Nat) => (List.range y).flatMap (fun (j : Nat) => (List.range x).map (fun (i : Nat) =>
    let c0 := signExt o0 32 + (i : Int)
    let c1 := signExt o1 32 + (j : Int)
    let c2 := signExt o2 32 + (k : Int)
    (inside c0 0 && inside c1 1 && inside c2 2,
      signExt (descField desc 0 8) 64 + c0 * e + c1 * signExt (descField desc 24 8) 64 + c2 * signExt (descField desc 32 8) 64,
      off + ((k * y + j) * x + i) * e))))

/-- The bytes of a tensor-to-pigeonhole window: the bytes read for elements in bounds, FILL for the others. -/
def windowFill (e : Nat) (fill : List Byte) : List (Bool × Int × Nat) → List Byte → List Byte
  | [], _ => []
  | (true, _, _) :: es, bs => bs.take e ++ windowFill e fill es (bs.drop e)
  | (false, _, _) :: es, bs => fill ++ windowFill e fill es bs

/-- What CPYT moves (R304). -/
def cpytPlan (t : Task) (c : Cmd) (f : Fields) : Plan :=
  let e := descE c.desc
  let els := windowElems c.desc (iField f 15 0) (field c.c 31 0) (field c.c 63 32) c.d
  let inb := els.filter (fun x => x.1)
  let ranges := inb.map (fun x => (x.2.1, e))
  if mBit f 3 then { writes := ranges, out := fun _ => inb.flatMap (fun x => (t.hole f.b.toNat).gather (holeOffsets f x.2.2 e)) }
  else
    { reads := ranges
      fill := fun bs => (els.flatMap (fun x => holeOffsets f x.2.2 e)).zip (windowFill e ((c.desc.drop 48).take e) els bs)
      hole := f.b.toNat }

/-- Rows that CPYG gathers by its index list: whether each exists, and its address (R305). -/
def cpygRows (c : Cmd) (f : Fields) (ix : List Byte) : List (Bool × Int × Nat) :=
  (List.range (c.c % 2 ^ 32)).map (fun q =>
    let row := ofLE ((ix.drop (4 * q)).take 4)
    (decide (row < c.c / 2 ^ 32), signExt c.a 64 + (row : Int) * iField f 15 0, 0))

/-- What CPYG moves once its index list has been read (R305). -/
def cpygPlan (c : Cmd) (f : Fields) (ix : List Byte) : Plan :=
  let r := iField f 15 0
  let els := cpygRows c f ix
  { reads := (els.filter (fun x => x.1)).map (fun x => (x.2.1, r))
    fill := fun bs => (holeOffsets f 0 (c.c % 2 ^ 32 * r)).zip (windowFill r (List.replicate r 0) els bs)
    hole := f.d.toNat
    oob := els.any (fun x => !x.1) }

/-- The index list of a CPYG: as it was read in the translation pass, or read now. A command of no bytes reads none. -/
def State.indexList (s : State) (a : Acc) (c : Cmd) (f : Fields) : Except EngEnd (List Byte) × State :=
  match c.begun with
  | some g => (.ok g.index, s)
  | none =>
    if c.c % 2 ^ 32 = 0 ∨ iField f 15 0 = 0 then (.ok [], s)
    else match s.transfer a none { reads := [(signExt c.b 64, 4 * (c.c % 2 ^ 32))] } with
      | (.done none _, bs, s) => (.ok bs, s)
      | (e, _, s) => (.error e, s)

/-- What a copy command moves, with the index list of a CPYG; `none` for CPYM, CPYD and what is no copy command. -/
def State.planOf (s : State) (t : Task) (c : Cmd) : Option (Except EngEnd (Plan × List Byte) × State) :=
  match decode c.word with
  | .cpy f => some (.ok (cpyPlan t c f, []), s)
  | .cpys f => some (.ok (cpysPlan c f, []), s)
  | .cpyt f => some (.ok (cpytPlan t c f, []), s)
  | .cpyg f =>
    match s.indexList (c.acc t) c f with
    | (.ok ix, s) => some (.ok (if c.c % 2 ^ 32 = 0 ∨ iField f 15 0 = 0 then {} else cpygPlan c f ix, ix), s)
    | (.error e, s) => some (.error e, s)
  | _ => none

/-- Put bytes at offsets of a pigeonhole. -/
def Hole.puts (h : Hole) (bs : List (Nat × Byte)) : Hole := { h with data := bs.foldl (fun m p => Sparse.put 0 m p.1 p.2) h.data }

/-- Perform a copy command that moves bytes (R300 to R305). -/
def State.runCopy (s : State) (t : Task) (c : Cmd) (p : Plan) : EngEnd × State :=
  match s.transfer (c.acc t) c.begun p with
  | (.done none oob, bs, s) => (.done none oob, s.modTask t.entry.id (fun t => t.modHole p.hole (fun h => h.puts (p.fill bs))))
  | (e, _, s) => (e, s)

/-- Complete the head of a copy queue with what performing it gave: it has been performed, its queue parks, or the tree ends. -/
def State.endCopy (s : State) (t : Task) (q : Nat) (r : EngEnd × State) : State :=
  match r with
  | (.done err oob, s') => s'.finishCopy t.entry.id q err oob
  | (.park p, s') =>
    (s'.raisePageFault t.entry.ctx (s'.treeOrdinal t) p).modTask t.entry.id (fun t => { t with
      copyq := updAt t.copyq q (fun l => match l with | [] => [] | c :: cs => { c with parked := some p } :: cs) })
  | (.poison, _) => s.abortTree t.entry.tree stUNCORRECTED

/-- Whether a queued copy command reads a pigeonhole that it frees. -/
def Cmd.drains (c : Cmd) : Bool :=
  match decode c.word with
  | .cpy f => mBit f 6 && mBit f 4
  | .cpyt f => mBit f 3 && mBit f 4
  | .cpym f => mBit f 4
  | _ => false

/-- Whether commands of a copy queue are performed before a save (10 R255; 12 R318): the head has begun, or one of them drains a pigeonhole. -/
def mustRun (l : List Cmd) : Bool := l.any Cmd.drains || (match l with | c :: _ => c.begun.isSome | [] => false)

/-- The head of a copy queue of a resident task that may be performed; once a save of the task has begun, only as far as it needs. -/
def State.copyHead (s : State) (task q : Nat) : Option (Task × Cmd) :=
  match s.task? task with
  | none => none
  | some t =>
    match t.copyq.getD q [] with
    | [] => none
    | c :: cs => if t.resident && c.parked.isNone && (!t.saving || mustRun (c :: cs)) then some (t, c) else none

/-- The head of a copy queue is performed (R300). CPYM and CPYD have steps of their own, but for a CPYM with no receiver, which parks
nothing. -/
def State.performCopy (s : State) (task q : Nat) : State :=
  match s.copyHead task q with
  | none => s
  | some (t, c) =>
    match s.planOf t c with
    | some (.ok (p, _), s') => s.endCopy t q (s'.runCopy t c p)
    | some (.error e, s') => s.endCopy t q (e, s')
    | none =>
      match decode c.word with
      | .cpym _ => if c.c = 0 then s.finishCopy task q none false else s
      | _ => s

/-- Record how far the head of a copy queue has come. -/
def State.setBegun (s : State) (task q : Nat) (g : Begun) : State :=
  s.modTask task (fun t => { t with copyq := updAt t.copyq q (fun l => match l with | [] => [] | c :: cs => { c with begun := some g } :: cs) })

/-- The head of a copy queue moves one unit of its bytes ahead of the others (11 R282, R284), after its translation pass. A command that meets a
fault in that pass, or whose unit is not ready, stays as it is. -/
def State.copyUnit (s : State) (task q : Nat) (write : Bool) (n : Nat) : State :=
  match s.copyHead task q with
  | none => s
  | some (t, c) =>
    match s.planOf t c with
    | some (.ok (p, ix), s1) =>
      let begin' : Option (Begun × State) := match c.begun with
        | some g => some (g, s1)
        | none => match s1.translatePlan (c.acc t) p with
          | (.ok (rs, ws), s2) => some ({ reads := rs.map Seg.tuple, writes := ws.map Seg.tuple, index := ix }, s2)
          | _ => none
      match begin' with
      | none => s
      | some (g, s2) =>
        match s2.moveUnit (c.acc t) g p write n with
        | none => s
        | some (.ok g', s3) => s3.setBegun task q g'
        | some (.error e, s3) => (s2.setBegun task q g).endCopy t q (e, s3.setBegun task q g)
    | _ => s

/-- COPY_COMMAND_PERFORMED (R300). -/
def execCopyCommandPerformed (task q : Nat) (s : State) : Host.Outcome State Fault Refusal := .next (s.performCopy task q)

/-- Whether a stall has reached its limit (10 R254). -/
def Stall.expired (st : Stall) (now : Nat) : Bool := st.limit != 0 && decide (st.limit ≤ (now + 2 ^ 64 - st.since) % 2 ^ 64)

/-- Slots of a context that hold a key, over the module. -/
def State.posteFor (s : State) (ctx : Nat) (key : W64) : Option (Nat × Poste) :=
  (List.range 3).findSome? (fun d => ((s.die d).poste.find? (fun p => p.ctx == ctx && p.key == key)).map (fun p => (d, p)))

/-- Heads of copy queues that may be performed and are CPYMs with receivers and a free key, on one die: task, queue, command. -/
def State.waitingCpym (s : State) (d : Nat) : List (Task × Nat × Cmd) :=
  (s.tasks.filter (fun t => t.resident && dieOfCore t.coreD == d)).flatMap (fun t => [0, 1, 2, 3].filterMap (fun q =>
    match s.copyHead t.entry.id q with
    | none => none
    | some (_, c) =>
      match decode c.word with
      | .cpym _ => if c.c != 0 && (s.posteFor t.entry.ctx (BitVec.ofNat 64 c.a)).isNone then some (t, q, c) else none
      | _ => none))

/-- When a waiting CPYM reached the head of its queue, on its die's counter. -/
def State.headArrival (s : State) (x : Task × Nat × Cmd) : Nat :=
  ((x.2.2.stall.map (fun st => st.since)).getD 0 + (s.cluster x.1.cluster).base) % 2 ^ 64

/-- Whether a waiting CPYM is of the same agent as another and of a lower copy ordinal. -/
def earlierCpym (x y : Task × Nat × Cmd) : Bool :=
  x.1.entry.id == y.1.entry.id && x.2.2.issuer == y.2.2.issuer && x.2.2.ord != y.2.2.ord && decide ((y.2.2.ord + 2 ^ 32 - x.2.2.ord) % 2 ^ 32 < 2 ^ 31)

/-- Whether a waiting CPYM is to receive a slot before another of its die (R307): of those of its agent the one of lower copy ordinal; of those that are
the lowest of their agents the one that arrived earlier. -/
def State.cpymBefore (s : State) (d : Nat) (x y : Task × Nat × Cmd) : Bool :=
  let lowest (z : Task × Nat × Cmd) : Bool := !(s.waitingCpym d).any (fun v => earlierCpym v z)
  earlierCpym x y || (lowest x && (!lowest y || decide (s.headArrival x < s.headArrival y)))

/-- Whether a waiting CPYM is the next of its die to receive a slot (R307). -/
def State.nextCpym (s : State) (d : Nat) (x : Task × Nat × Cmd) : Bool := !(s.waitingCpym d).any (fun y => s.cpymBefore d y x)

/-- Whether the head of a copy queue may be served now: a CPYM that is the next to park, or that parks nothing, and a CPYD whose key is held. -/
def State.servable (s : State) (t : Task) (q : Nat) (c : Cmd) : Bool :=
  let key : W64 := BitVec.ofNat 64 c.a
  match decode c.word with
  | .cpym _ => c.c == 0 || ((s.posteFor t.entry.ctx key).isNone && decide ((s.die (dieOfCore t.coreD)).poste.length < 32)
      && s.nextCpym (dieOfCore t.coreD) (t, q, c))
  | .cpyd _ => (s.posteFor t.entry.ctx key).isSome
  | _ => true

/-- Whether the head of a copy queue waits for a slot, and so is stalled (R307, R308): for a CPYM a slot holds its key or is about to, or no slot is free
but for older commands; for a CPYD no slot holds its key. -/
def State.starved (s : State) (t : Task) (q : Nat) (c : Cmd) : Bool :=
  let key : W64 := BitVec.ofNat 64 c.a
  let d := dieOfCore t.coreD
  match decode c.word with
  | .cpym _ =>
    let older := (s.waitingCpym d).filter (fun y => s.cpymBefore d y (t, q, c))
    c.c != 0 && ((s.posteFor t.entry.ctx key).isSome || decide (32 ≤ (s.die d).poste.length + older.length)
      || older.any (fun y => y.1.entry.ctx == t.entry.ctx && y.2.2.a == c.a))
  | .cpyd _ => (s.posteFor t.entry.ctx key).isNone
  | _ => false

/-- A CPYM takes a slot of its die with its pigeonhole's bytes (R307). What its agent did before is seen by those that drain the slot
(R309). -/
def State.parkMulticast (s : State) (t : Task) (q : Nat) (c : Cmd) (f : Fields) : State :=
  let bytes := (t.hole f.b.toNat).read (iField f 31 16) (iField f 12 0)
  ((s.releaseAt t.cluster 3).modDie (dieOfCore t.coreD) (fun x => { x with
    poste := x.poste ++ [{ ctx := t.entry.ctx, key := BitVec.ofNat 64 c.a, data := bytes, receivers := c.c }] })).finishCopy t.entry.id q none false

/-- A CPYD drains a slot of a die (R308). What happened before the slot's CPYM is seen from here on (R309). -/
def State.drainMulticast (s : State) (t : Task) (q d : Nat) (p : Poste) (f : Fields) : State :=
  let n := iField f 12 0
  let same (x : Poste) : Bool := x.ctx == p.ctx && x.key == p.key
  let s := (s.modDie d (fun x => { x with poste := (x.poste.map (fun y =>
    if same y then { y with receivers := y.receivers - 1 } else y)).filter (fun y => !(same y && y.receivers == 0)) })).acquireAt t.cluster 3
  if p.data.length ≠ n then s.finishCopy t.entry.id q (some (cHOLE_RANGE, none)) false
  else (s.modTask t.entry.id (fun t => t.modHole f.d.toNat (fun h => h.scatter (holeOffsets f (iField f 31 16) n) p.data))).finishCopy
    t.entry.id q none false

/-- MULTICAST_PARK (R307): a waiting CPYM receives a free slot of its die. -/
def execMulticastPark (task q : Nat) (s : State) : Host.Outcome State Fault Refusal :=
  .next (match s.copyHead task q with
    | none => s
    | some (t, c) =>
      match decode c.word with
      | .cpym f => if c.c != 0 && s.servable t q c then s.parkMulticast t q c f else s
      | _ => s)

/-- MULTICAST_DRAIN (R308): a waiting CPYD finds a slot of its key and drains it. -/
def execMulticastDrain (task q : Nat) (s : State) : Host.Outcome State Fault Refusal :=
  .next (match s.copyHead task q with
    | none => s
    | some (t, c) =>
      match decode c.word, s.posteFor t.entry.ctx (BitVec.ofNat 64 c.a) with
      | .cpyd f, some (d, p) => s.drainMulticast t q d p f
      | _, _ => s)

/-- The head of a copy queue is performed, a multicast command where a slot serves it. -/
def State.serveCopy (s : State) (task q : Nat) : State :=
  match s.copyHead task q with
  | none => s
  | some (t, c) =>
    match decode c.word, s.posteFor t.entry.ctx (BitVec.ofNat 64 c.a) with
    | .cpym f, _ => if c.c = 0 then s.performCopy task q else if s.servable t q c then s.parkMulticast t q c f else s
    | .cpyd f, some (d, p) => s.drainMulticast t q d p f
    | .cpyd _, none => s
    | _, _ => s.performCopy task q

/-- A GATH has its value: the thread goes on. -/
def State.wakeGath (s : State) (g : GatherReq) (v : Nat) : State :=
  match s.task? g.task with
  | none => s
  | some t =>
    (s.modTask g.task (fun t => t.setRegs (some g.thread) g.dest (g.bytes / 4) v)).retire { task := g.task, thread := some g.thread } .next
      (decide (0 < (t.thread g.thread).ag.block.left)) []

/-- The helpers of a request's quad pass its GATH (02 R43). -/
def State.passHelpers (s : State) (g : GatherReq) : State :=
  match s.task? g.task with
  | none => s
  | some t => (t.helpersOf [g.thread]).foldl (fun s k =>
      s.retire { task := g.task, thread := some k } .next (decide (0 < (t.thread k).ag.block.left)) []) s

/-- Whether two GATH requests stem from one issue to one quad. -/
def GatherReq.mates (g h : GatherReq) : Bool := !g.write && !h.write && g.task == h.task && g.lead == h.lead && g.entered == h.entered

/-- Whether a GATH performed has let its thread go on. -/
def State.woke (s : State) (g : GatherReq) : Bool :=
  !g.write && (match s.task? g.task with
    | some t => !(t.thread g.thread).ag.waiting && (t.thread g.thread).ag.pending.isNone
    | none => false)

/-- A request whose check needs a page of the filter area that is not present waits in the collector until the replay doorbell (15 R453). -/
def State.holdRequest (s : State) (t : Task) (g : GatherReq) (va : Nat) : State :=
  (s.raisePageFault t.entry.ctx (s.treeOrdinal t) { va := va, engine := true }).modCore t.coreD (fun c => { c with
    collector := c.collector ++ [{ g with parked := some va }] })

/-- Perform one request of the collector (R310, R311). -/
def State.runGather (s : State) (g : GatherReq) : State :=
  match s.task? g.task with
  | none => s
  | some t =>
    let a : Acc := { Acc.ofTask t none with strand := g.strand, checked := true, engine := true }
    let who : Who := { task := g.task, thread := some g.thread }
    let finish (s : State) (err : Option (Nat × Option Nat)) : State :=
      s.modAgent who (fun x => x.performed g.batch (err.map (fun e => { cause := e.1, ord := g.ord, batch := g.batch, addr := e.2 })) false)
    match g.pa with
    | none => finish s (some (cCOPY_FAULT, some g.ea))
    | some pa =>
      let seg : Seg := { va := g.ea, pa := pa, n := g.bytes, watched := g.watched }
      if g.write then
        match s.writeSegs a [seg] (leBytes g.bytes g.value) with
        | .ok s => finish s none
        | .error (.race r _) => finish s (some (r.cause, some g.ea))
        | .error (.strandPend va) => s.holdRequest t g va
        | .error .poison => s.abortTree t.entry.tree stUNCORRECTED
        | .error _ => finish s (some (cCOPY_FAULT, some g.ea))
      else
        match s.readSegs a [seg] with
        | (.ok bs, s) => s.wakeGath g (ofLE bs)
        | (.error (.race r _), s) =>
          let pc := (t.thread g.thread).ag.pc.toNat
          s.takeTrap who pc (s.insnAt t pc) { cause := r.cause, addr := some g.ea, ident := r.strand }
        | (.error (.strandPend va), s) => s.holdRequest t g va
        | (.error (.fault _), s) =>
          let pc := (t.thread g.thread).ag.pc.toNat
          s.takeTrap who pc (s.insnAt t pc) { cause := cMEM_FAULT, addr := some g.ea }
        | (.error _, s) => s.abortTree t.entry.tree stUNCORRECTED

/-- The helpers of a quad pass a GATH of which a request has been performed; requests of the same issue that wait on note it. -/
def State.passIssue (s : State) (core : Nat) (g : GatherReq) : State :=
  let s := s.passHelpers g
  if (s.core core).collector.any g.mates then
    s.modCore core (fun c => { c with collector := c.collector.map (fun h => if g.mates h then { h with passed := true } else h) })
  else s

/-- Perform requests that a core's collector has given up; helpers pass each issue of a GATH once. -/
def State.performRequests (s : State) (core : Nat) (reqs : List GatherReq) : State :=
  let s := reqs.foldl (fun s g => s.runGather g) s
  let woken := reqs.filter (fun g => s.woke g && !g.passed)
  (woken.filter (fun g => woken.find? g.mates == some g)).foldl (fun s g => s.passIssue core g) s

/-- Perform the requests of a core's collector that wait for no page. -/
def State.runCollector (s : State) (core : Nat) : State :=
  let (run, held) := (s.core core).collector.partition (fun g => g.parked.isNone)
  (s.modCore core (fun c => { c with collector := held })).performRequests core run

/-- COLLECTOR_WINDOW (R311): the window closes 64 cycles after its first request, or with 256 of them. -/
def execCollectorWindow (core : Nat) (s : State) : Host.Outcome State Fault Refusal :=
  .next (match (s.core core).collector.filter (fun g => g.parked.isNone) with
    | [] => s
    | g :: gs =>
      if 255 ≤ gs.length ∨ 64 ≤ (s.cycle (clusterOf core) + 2 ^ 64 - g.entered) % 2 ^ 64 then s.runCollector core else s)

end Sys2Proof.Machine
end

