-- ==== Sys2Proof/Machine/Formats.lean ====
section
/-! DEFINITION. The format word and block scaling (05 R113, R117 to R120) and the long accumulators (R124, R125). -/

namespace Sys2Proof.Machine

/-- A mode from its code 0 to 5 in a format word (R113). -/
def RMode.ofCode (n : Nat) : RMode :=
  match n with
  | 0 => .nearestEven | 1 => .towardZero | 2 => .towardPos | 3 => .towardNeg | 4 => .awayFromZero | _ => .stochastic

/-- A mode for an instruction that cannot round stochastically: 5 reads as nearest even (R113). -/
def RMode.ofCodeDet (n : Nat) : RMode := if n = 5 then .nearestEven else RMode.ofCode n

def fwFmt (w : Nat) : Nat := field w 3 0
def fwP (w : Nat) : Nat := field w 6 4
def fwSigned (w : Nat) : Bool := bitAt w 7
def fwInf (w : Nat) : Bool := bitAt w 8
def fwRnd (w : Nat) : Nat := field w 11 9
def fwSat (w : Nat) : Bool := bitAt w 12
def fwScale (w : Nat) : Nat := field w 14 13
def fwBvar (w : Nat) : Nat := field w 22 16

/-- The variant that a format word with FMT 4 names. -/
def fwB8 (w : Nat) : B8 := { p := fwP w, signed := fwSigned w, inf := fwInf w }

/-- Operand B's variant under BVAR (R117). -/
def fwB8b (w : Nat) : B8 :=
  if fwBvar w = 0 then fwB8 w else { p := field w 18 16, signed := bitAt w 19, inf := bitAt w 20 }

/-- A standard format from a format word's FMT. -/
def fwType (w : Nat) : FpType :=
  match fwFmt w with
  | 0 => .fp64 | 1 => .fp32 | 2 => .fp16 | _ => .bf16

/-- The check of a format word against R117 (R118). With matrix false a non-zero BVAR is invalid. -/
def fwValid (matrix : Bool) (w : Nat) : Bool :=
  decide (fwFmt w ≤ 4)
  && (if fwFmt w = 4 then decide (1 ≤ fwP w) else fwP w == 0 && !fwSigned w && !fwInf w)
  && decide (fwRnd w ≤ 5)
  && decide (fwScale w ≤ 1) && (fwScale w == 0 || fwFmt w == 4)
  && !bitAt w 15 && field w 31 23 == 0
  && (fwBvar w == 0 || (matrix && fwFmt w == 4 && decide (1 ≤ field w 18 16) && field w 22 21 == 0))

/-- The exact value of a block-scaled code (R119). -/
def scaledValue (v : B8) (c s : Nat) : FVal :=
  if s = 0xFF then .nan else (v.decode c).scale ((s : Int) - 127)

/-- ScaleFor(amax, variant) (R120). -/
def scaleFor (amax : FVal) (v : B8) : Nat :=
  match amax with
  | .nan => 0xFF
  | .inf _ => 0xFF
  | .fin _ m e =>
    if m = 0 then 127
    else
      let s : Int := 127 + ((m.log2 : Int) + e) - (floorLog2 v.fmt.maxM 1 v.fmt.maxE)
      (min (max s 0) 254).toNat

/-- A long accumulator (R124): the integer N, kept modulo 2^width, and the three flags. -/
structure LongAcc where
  n : Nat := 0
  isNan : Bool := false
  posInf : Bool := false
  negInf : Bool := false
  deriving DecidableEq, Repr, Inhabited

/-- Width of N: 312 for LA32, 2160 for LA64. -/
def laWidth (wide : Bool) : Nat := if wide then 2160 else 312
/-- Exponent of the unit. -/
def laUnit (wide : Bool) : Int := if wide then -1074 else -149

/-- Add (R125). -/
def LongAcc.add (wide : Bool) (acc : LongAcc) (x : FVal) : LongAcc :=
  match x with
  | .nan => { acc with isNan := true }
  | .inf neg => if neg then { acc with negInf := true } else { acc with posInf := true }
  | .fin neg m e =>
    let k := shiftNat m (e - laUnit wide)
    let w := laWidth wide
    { acc with n := if neg then truncInt ((acc.n : Int) - (k : Int)) w else trunc (acc.n + k) w }

/-- Merge (R125). -/
def LongAcc.merge (wide : Bool) (acc other : LongAcc) : LongAcc :=
  { n := trunc (acc.n + other.n) (laWidth wide), isNan := acc.isNan || other.isNan,
    posInf := acc.posInf || other.posInf, negInf := acc.negInf || other.negInf }

/-- Read (R125) into an IEEE-encoded format, as bits. -/
def LongAcc.read (wide : Bool) (acc : LongAcc) (t : FpType) : Nat :=
  if acc.isNan || (acc.posInf && acc.negInf) then t.encode .nan
  else if acc.posInf then t.encode (.inf false)
  else if acc.negInf then t.encode (.inf true)
  else
    let v := signExt acc.n (laWidth wide)
    t.encode (roundTo t.fmt (.fin (decide (v < 0)) v.natAbs (laUnit wide)) .nearestEven)

/-- The bytes of a long accumulator (R124): 40 for LA32, 272 for LA64. -/
def LongAcc.bits (wide : Bool) (acc : LongAcc) : Nat :=
  acc.n + 2 ^ laWidth wide * (b2n acc.isNan + 2 * b2n acc.posInf + 4 * b2n acc.negInf)

end Sys2Proof.Machine
end

