-- ==== Sys2Proof/Machine/Approx.lean ====
section
/-! DEFINITION. The frozen tables, their evaluation and the reductions of the approximate functions (06 R139 to R142).
Every coefficient is computed from its formula: exactly for the algebraic functions, and for the transcendental ones in
fixed point with 200 fractional bits, far below the distance of any table entry from a rounding boundary (log entry 5). -/

namespace Sys2Proof.Machine

/-- Q(v) for v = n / d ≥ 0: the nearest integer, ties away from zero (R139). -/
def qNat (n d : Nat) : Nat := (2 * n + d) / (2 * d)

/-- Q of a signed fixed-point number with f fractional bits. -/
def qFix (f : Nat) (v : Int) : Int := if v < 0 then -(qNat v.natAbs (2 ^ f) : Int) else qNat v.natAbs (2 ^ f)

/-- Q(√(n / d)): since ties are away from zero, floor((floor(√(4n / d)) + 1) / 2). -/
def qSqrt (n d : Nat) : Nat := (isqrt (4 * n / d) + 1) / 2

/-- Fractional bits of the fixed-point evaluation. -/
def fixBits : Nat := 200
def fixOne : Int := 2 ^ fixBits
def fixMul (a b : Int) : Int := a * b / fixOne
/-- The fixed-point value of n / d. -/
def fixRat (n : Int) (d : Nat) : Int := n * fixOne / (d : Int)

/-- e^x for fixed-point 0 ≤ x < 1, by its series: k terms, the j-th from the term before it. -/
def expSeries : Nat → Nat → Int → Int → Int → Int
  | 0, _, _, _, acc => acc
  | k + 1, j, x, term, acc => expSeries k (j + 1) x (fixMul term x / (j : Int)) (acc + fixMul term x / (j : Int))

def expFix (x : Int) : Int := expSeries 60 1 x fixOne fixOne

/-- Repeated squaring: v^(2^k). -/
def sqTimes : Nat → Int → Int
  | 0, v => v
  | k + 1, v => sqTimes k (fixMul v v)

/-- atanh(z) for small z by its series in z². -/
def atanhSeries : Nat → Nat → Int → Int → Int → Int
  | 0, _, _, _, acc => acc
  | k + 1, j, z2, pow, acc => atanhSeries k (j + 2) z2 (fixMul pow z2) (acc + pow / (j : Int))

/-- ln(n / d) for 1 ≤ n / d ≤ 2. -/
def lnRat (n d : Nat) : Int :=
  let z := fixRat ((n : Int) - (d : Int)) (n + d)
  2 * atanhSeries 70 1 (fixMul z z) z 0

def ln2Fix : Int := lnRat 2 1

/-- arctan(1 / q) by its alternating series. -/
def atanInv : Nat → Nat → Int → Int → Int → Int
  | 0, _, _, _, acc => acc
  | k + 1, j, q2, pow, acc => atanInv k (j + 2) q2 (-(pow / q2)) (acc + pow / (j : Int))

/-- π by Machin's formula. -/
def piFix : Int :=
  16 * atanInv 50 1 25 (fixOne / 5) 0 - 4 * atanInv 20 1 (239 * 239) (fixOne / 239) 0

/-- The common series of sin and cos: terms of x^j / j! with alternating signs, two powers at a time. -/
def trigSeries : Nat → Nat → Int → Int → Int → Int
  | 0, _, _, _, acc => acc
  | k + 1, j, x2, term, acc =>
    let t := -(fixMul term x2 / (((j + 1) * (j + 2) : Nat) : Int))
    trigSeries k (j + 2) x2 t (acc + t)

def sinFix (x : Int) : Int := trigSeries 30 1 (fixMul x x) x x
def cosFix (x : Int) : Int := trigSeries 30 0 (fixMul x x) fixOne fixOne

/-- The functions that have a table (R141). -/
inductive ApproxTable where
  | rcp | rsqE | rsqO | exp2 | log2 | sinT | cosT | tanhT | sigmT
  deriving DecidableEq, Repr, Inhabited

/-- The segment count exponent n. -/
def ApproxTable.n : ApproxTable → Nat
  | .tanhT => 11
  | .sigmT => 11
  | _ => 7

/-- g, g' and g'' at u = num / den, each as a fixed-point number; used by the transcendental tables only. -/
def ApproxTable.fix (t : ApproxTable) (num den : Nat) : Int × Int × Int :=
  match t with
  | .exp2 =>
    let g := expFix (fixMul ln2Fix (fixRat num den))
    let g1 := fixMul g ln2Fix
    (g, g1, fixMul g1 ln2Fix)
  | .log2 =>
    -- log2(1 + u); 1 / ((1 + u) ln 2); -1 / ((1 + u)² ln 2)
    let inv := fixOne * fixOne / ln2Fix
    let r := fixRat den (den + num)
    let g1 := fixMul inv r
    (fixMul (lnRat (den + num) den) inv, g1, -(fixMul g1 r))
  | .sinT =>
    let h := piFix / 2
    let x := fixMul h (fixRat num den)
    let s := sinFix x
    (s, fixMul h (cosFix x), -(fixMul (fixMul h h) s))
  | .cosT =>
    let h := piFix / 2
    let x := fixMul h (fixRat num den)
    let c := cosFix x
    (c, -(fixMul h (sinFix x)), -(fixMul (fixMul h h) c))
  | .tanhT =>
    -- T = tanh(16u) = (1 - q) / (1 + q), q = e^(-32u) = (e^(-u))^32
    let q := sqTimes 5 (fixOne * fixOne / expFix (fixRat num den))
    let T := (fixOne - q) * fixOne / (fixOne + q)
    let s := fixMul (4 * q) (fixOne * fixOne / fixMul (fixOne + q) (fixOne + q))
    (T, 16 * s, -(512 * fixMul T s))
  | .sigmT =>
    -- S = 1 / (1 + q), q = e^(-32u); S' = 32 S (1 - S); S'' = 1024 S (1 - S)(1 - 2S)
    let q := sqTimes 5 (fixOne * fixOne / expFix (fixRat num den))
    let S := fixOne * fixOne / (fixOne + q)
    let p := fixMul S (fixMul q S)
    (S, 32 * p, 1024 * fixMul p (fixOne - 2 * S))
  | _ => (0, 0, 0)

/-- The coefficients c0, c1, c2 of segment i (R139), with m_i = (2i + 1) / 2^(n + 1). -/
def ApproxTable.coef (t : ApproxTable) (i : Nat) : Int × Int × Int :=
  let n := t.n
  let num := 2 * i + 1
  let den := 2 ^ (n + 1)
  let d := den + num          -- 1 + m = d / den
  match t with
  | .rcp =>
    (qNat (2 ^ 30 * den) d, -(qNat (2 ^ (30 - n) * den ^ 2) (d ^ 2) : Int), qNat (2 * 2 ^ (29 - 2 * n) * den ^ 3) (d ^ 3))
  | .rsqE =>
    -- (1+u)^(-1/2); -(1/2)(1+u)^(-3/2); (3/4)(1+u)^(-5/2)
    (qSqrt (2 ^ 60 * den) d, -(qSqrt (2 ^ (2 * (30 - n)) * den ^ 3) (4 * d ^ 3) : Int),
      qSqrt (9 * 2 ^ (2 * (29 - 2 * n)) * den ^ 5) (16 * d ^ 5))
  | .rsqO =>
    (qSqrt (2 ^ 60 * den) (2 * d), -(qSqrt (2 ^ (2 * (30 - n)) * den ^ 3) (8 * d ^ 3) : Int),
      qSqrt (9 * 2 ^ (2 * (29 - 2 * n)) * den ^ 5) (32 * d ^ 5))
  | _ =>
    let g := t.fix num den
    (qFix fixBits (g.1 * 2 ^ 30), qFix fixBits (g.2.1 * 2 ^ (30 - n)),
      if n = 7 then qFix fixBits (g.2.2 * 2 ^ 15) else qFix fixBits (g.2.2 * 2 ^ 7))

/-- z0 = Q(g(0) × 2^30). -/
def ApproxTable.z0 : ApproxTable → Nat
  | .rcp | .rsqE | .exp2 | .cosT => 2 ^ 30
  | .rsqO => qSqrt (2 ^ 60) 2
  | .log2 | .sinT | .tanhT => 0
  | .sigmT => 2 ^ 29

/-- Eval(table, U) (R140). -/
def ApproxTable.eval (t : ApproxTable) (U : Nat) : Nat :=
  let sh := 24 - t.n
  let y : Int :=
    if U = 0 then (t.z0 : Int)
    else
      let c := t.coef (U / 2 ^ sh)
      let d : Int := ((U % 2 ^ sh : Nat) : Int) - 2 ^ (sh - 1)
      let tt := c.2.2 * d / 2 ^ sh
      c.1 + (c.2.1 + tt) * d / 2 ^ sh
  (min (max y 0) (2 ^ 31 - 1)).toNat

/-- The approximate functions. -/
inductive ApproxFn where
  | rcp | rsq | exp2 | log2 | sin | cos | tanh | sigm
  deriving DecidableEq, Repr, Inhabited

/-- A value y × 2^-30 with sign, where zero is the real number zero and so is +0 (R141). -/
def val30 (neg : Bool) (y : Nat) (e : Int) : FVal := if y = 0 then .fin false 0 0 else .fin neg y (e - 30)

/-- floor(m × 2^e × 2^k) of a magnitude. -/
def floorScaled (m : Nat) (e : Int) (k : Int) : Nat := shiftNat m (e + k)

/-- The constant K of the quadrant rule, times 2^64. -/
def trigK : Nat := 0x28BE60DB9391054A

/-- FSIN (q offset 0) and FCOS (q offset 1) of x = (-1)^neg × m × 2^e: the quadrant rule of R141. -/
def quadrant (cosine neg : Bool) (m : Nat) (e : Int) : FVal :=
  -- v = x K - floor(x K), kept as a fraction over 2^den
  let e' := e - 64
  let prod : Int := if neg then -((m * trigK : Nat) : Int) else ((m * trigK : Nat) : Int)
  if 0 ≤ e' then
    -- x K is an integer: v = 0
    if cosine then val30 false (ApproxTable.cosT.eval 0) 0 else val30 false (ApproxTable.sinT.eval 0) 0
  else
    let den := (-e').toNat
    let v := (prod % (2 ^ den : Int)).toNat
    let q := 4 * v / 2 ^ den
    let U := (4 * v - q * 2 ^ den) * 2 ^ 24 / 2 ^ den
    let sS := ApproxTable.sinT.eval U
    let sC := ApproxTable.cosT.eval U
    match (q + (if cosine then 1 else 0)) % 4 with
    | 0 => val30 false sS 0
    | 1 => val30 false sC 0
    | 2 => val30 true sS 0
    | _ => val30 true sC 0

/-- FEXP2 of a finite non-zero x. -/
def exp2Val (neg : Bool) (m : Nat) (e : Int) : FVal :=
  -- floor(x × 2^24), exact comparisons against -160 and 128
  let scaled : Int := if 0 ≤ e then ((m * 2 ^ e.toNat : Nat) : Int) * 2 ^ 24
    else if neg then -((((m * 2 ^ 24 : Nat) + 2 ^ (-e).toNat - 1) / 2 ^ (-e).toNat : Nat) : Int)
    else ((m * 2 ^ 24 / 2 ^ (-e).toNat : Nat) : Int)
  let sx : Int := if neg ∧ 0 ≤ e then -scaled else scaled
  if 128 * 2 ^ 24 ≤ sx then .fin false 1 128
  else if sx < -160 * 2 ^ 24 then .fin false 1 (-160)
  else
    let k := sx / 2 ^ 24
    let U := (sx % 2 ^ 24).toNat
    val30 false (ApproxTable.exp2.eval U) k

/-- The value of a function at a finite non-zero operand, exact before the final rounding (R141). -/
def ApproxFn.value (g : ApproxFn) (neg : Bool) (m : Nat) (e : Int) : FVal :=
  let ex : Int := (m.log2 : Int) + e                              -- the e of R141
  let U := shiftNat m (24 - (m.log2 : Int)) - 2 ^ 24               -- u × 2^24
  let small := decide (ex < -12)                                  -- |x| < 2^-12
  match g with
  | .rcp => val30 neg (ApproxTable.rcp.eval U) (-ex)
  | .rsq =>
    if neg then .nan
    else if ex % 2 = 0 then val30 false (ApproxTable.rsqE.eval U) (-(ex / 2))
    else val30 false (ApproxTable.rsqO.eval U) (-((ex - 1) / 2))
  | .exp2 => exp2Val neg m e
  | .log2 =>
    if neg then .nan
    else
      let v : Int := ex * 2 ^ 30 + ((ApproxTable.log2.eval U : Nat) : Int)
      if v = 0 then .fin false 0 0 else .fin (decide (v < 0)) v.natAbs (-30)
  | .sin => if small then .fin neg m e else quadrant false neg m e
  | .cos => quadrant true neg m e
  | .tanh =>
    if small then .fin neg m e
    else if 4 ≤ ex then .fin neg 1 0
    else val30 neg (ApproxTable.tanhT.eval (floorScaled m e 20)) 0
  | .sigm =>
    let v : Nat := if 5 ≤ ex then 2 ^ 30 else ApproxTable.sigmT.eval (floorScaled m e 19)
    if neg then
      let w : Int := 2 ^ 30 - (v : Int)
      if w = 0 then .fin false 0 0 else .fin (decide (w < 0)) w.natAbs (-30)
    else val30 false v 0

/-- The function on any value of a format, before the final rounding; special values as R142 gives them. -/
def ApproxFn.apply (g : ApproxFn) (x : FVal) : FVal :=
  let one := FVal.fin false 1 0
  match x with
  | .nan => .nan
  | .inf neg =>
    match g with
    | .rcp => .fin neg 0 0
    | .rsq => if neg then .nan else .fin false 0 0
    | .exp2 => if neg then .fin false 0 0 else .inf false
    | .log2 => if neg then .nan else .inf false
    | .sin | .cos => .nan
    | .tanh => .fin neg 1 0
    | .sigm => if neg then .fin false 0 0 else one
  | .fin neg m e =>
    if m = 0 then
      match g with
      | .rcp | .rsq => .inf neg
      | .exp2 | .cos => one
      | .log2 => .inf true
      | .sin | .tanh => .fin neg 0 0
      | .sigm => .fin false 1 (-1)
    else g.value neg m e

end Sys2Proof.Machine
end

