-- ==== Sys2Proof/Machine/Flags.lean ====
section
/-! DEFINITION. The conditions that predicates receive: carries, integer and floating comparisons, classes (06 R130, R131,
R137). The NX3 has no flag register; predicates play that part (02 R47). -/

namespace Sys2Proof.Machine

/-- Carry of IADDC: the exact sum reaches 2^w. -/
def carryOut (w : Nat) (t : Nat) : Bool := decide (2 ^ w ≤ t)

/-- A w-bit operand as SGN reads it: S(v) when signed, v otherwise. -/
def sgnRead (sgn : Bool) (w v : Nat) : Int := if sgn then signExt v w else (v : Int)

/-- COND of ICMP: 0 eq, 1 ne, 2 lt, 3 le, 4 gt, 5 ge (R130). -/
def intCond (cond : Nat) (a b : Int) : Bool :=
  match cond with
  | 0 => a == b
  | 1 => a != b
  | 2 => decide (a < b)
  | 3 => decide (a ≤ b)
  | 4 => decide (b < a)
  | _ => decide (b ≤ a)

/-- Condition of FCMP: 0 eq, 1 lt, 2 le, 3 un (R137). -/
def fpCond (cond : Nat) (a b : FVal) : Bool :=
  let nan := a == .nan || b == .nan
  match cond with
  | 0 => !nan && FVal.eqv a b
  | 1 => !nan && FVal.lt a b
  | 2 => !nan && (FVal.lt a b || FVal.eqv a b)
  | _ => nan

/-- The class bit of an element (R137); under FTZ a subnormal is a zero. -/
def fpClass (t : FpType) (ftz : Bool) (v : Nat) : Nat :=
  match t.decode v with
  | .nan => if t.isQuiet v then 9 else 8
  | .inf neg => if neg then 0 else 7
  | .fin neg m e =>
    if m = 0 then (if neg then 3 else 4)
    else if isSubnormal t (.fin neg m e) then
      (if ftz then (if neg then 3 else 4) else if neg then 2 else 5)
    else if neg then 1 else 6

end Sys2Proof.Machine
end

