-- ==== Sys2Proof/Machine/Fp.lean ====
section
/-! DEFINITION. Floating-point instructions, space 0x02 (06 R135 to R142). -/

namespace Sys2Proof.Machine

/-- The element format of TYPE and the elements of an operand (R71, R107). -/
def fpElem (f : Fields) : FpType × Nat :=
  match fType f with
  | 0 => (.fp32, 1)
  | 1 => (.fp64, 1)
  | 2 => (.fp16, 2)
  | _ => (.bf16, 2)

/-- MODES.FTZ (05 R109). -/
def Task.ftz (t : Task) : Bool := bitAt t.modes.toNat 0

/-- The rounding mode of a RND field (R113): 7 reads FMTDEF.RND, whose 5 is nearest even here. -/
def Task.fpMode (t : Task) (rnd : Nat) : RMode := RMode.ofCodeDet (if rnd = 7 then fwRnd t.fmtDef.toNat else rnd)

/-- Element k of an operand. -/
def elemAt (t : FpType) (v k : Nat) : Nat := field v (t.bits * (k + 1) - 1) (t.bits * k)

/-- Apply a function of bits to each element. -/
def mapElems (t : FpType) (n : Nat) (g : Nat → Nat) : Nat := (List.range n).foldl (fun v k => v + g k * 2 ^ (t.bits * k)) 0

/-- An element as an operand value: decoded, and flushed under FTZ. -/
def fpIn (t : FpType) (ftz : Bool) (v : Nat) : FVal := flush ftz t (t.decode v)
/-- A rounded result as bits: flushed under FTZ, NaN made default (R108, R109). -/
def fpOut (t : FpType) (ftz : Bool) (v : FVal) : Nat := t.encode (flush ftz t v)

/-- An instruction that computes each element of D from those of A, B and C; g gives the rounded value (R135, R136). -/
def fpOp (i : Instr) (f : Fields) (g : Fmt → RMode → FVal → FVal → FVal → FVal) (s : State) :
    Host.Outcome State Fault Refusal :=
  issueLane i f (fun w => do
    let t ← theTask w
    let a ← rdOpnd w (shape i).a f.a
    let b ← rdOpnd w (shape i).b f.b
    let c ← rdOpnd w (shape i).c f.c
    let (ty, n) := fpElem f
    let el (v k : Nat) : FVal := fpIn ty t.ftz (elemAt ty v k)
    wrOpnd w (shape i).d f.d (mapElems ty n (fun k =>
      fpOut ty t.ftz (g ty.fmt (t.fpMode (fRnd f)) (el a k) (el b k) (el c k))))) s

/-- An instruction on the bits of each element of A and B, given FTZ. -/
def fpBits (i : Instr) (f : Fields) (g : FpType → Bool → Nat → Nat → Nat) (s : State) : Host.Outcome State Fault Refusal :=
  issueLane i f (fun w => do
    let t ← theTask w
    let a ← rdOpnd w (shape i).a f.a
    let b ← rdOpnd w (shape i).b f.b
    let (ty, n) := fpElem f
    wrOpnd w (shape i).d f.d (mapElems ty n (fun k => g ty t.ftz (elemAt ty a k) (elemAt ty b k)))) s

/-- An approximate function and its final rounding (R141, R142). -/
def fpApprox (i : Instr) (f : Fields) (g : ApproxFn) (s : State) : Host.Outcome State Fault Refusal :=
  fpOp i f (fun fmt m a _ _ => roundTo fmt (g.apply a) m) s

/-- k of FSCALE for element e (R138), held within ±5000: beyond that every finite non-zero operand already rounds as at the
bound. -/
def scaleBy (f : Fields) (b e : Nat) : Int :=
  let k : Int := if decide (fType f ≤ 1) then signExt b 32 else signExt (b / 2 ^ (16 * e)) 16
  max (-5000) (min 5000 k)

/-- FADD (R136): the sum, rounded once. -/
def execFadd (f : Fields) (s : State) : Host.Outcome State Fault Refusal :=
  fpOp (.fadd f) f (fun fmt m a b _ => roundTo fmt (a.add m b) m) s

/-- FSUB (R136): the difference, rounded once. -/
def execFsub (f : Fields) (s : State) : Host.Outcome State Fault Refusal :=
  fpOp (.fsub f) f (fun fmt m a b _ => roundTo fmt (a.add m b.neg) m) s

/-- FMUL (R136): the product, rounded once. -/
def execFmul (f : Fields) (s : State) : Host.Outcome State Fault Refusal :=
  fpOp (.fmul f) f (fun fmt m a b _ => roundTo fmt (a.mul b) m) s

/-- FFMA (R136): a × b + c, rounded once. -/
def execFfma (f : Fields) (s : State) : Host.Outcome State Fault Refusal :=
  fpOp (.ffma f) f (fun fmt m a b c => roundTo fmt ((a.mul b).add m c) m) s

/-- FMIN (R137): the smaller operand. -/
def execFmin (f : Fields) (s : State) : Host.Outcome State Fault Refusal :=
  fpBits (.fmin f) f (fun ty ftz a b => fminmax ty false ftz a b) s

/-- FMAX (R137): the larger operand. -/
def execFmax (f : Fields) (s : State) : Host.Outcome State Fault Refusal :=
  fpBits (.fmax f) f (fun ty ftz a b => fminmax ty true ftz a b) s

/-- FCMP (R137): the comparison that MOD[33:32] names, into a predicate. -/
def execFcmp (f : Fields) (s : State) : Host.Outcome State Fault Refusal :=
  issueLane (.fcmp f) f (fun w => do
    let t ← theTask w
    let a ← rdOpnd w (shape (.fcmp f)).a f.a
    let b ← rdOpnd w (shape (.fcmp f)).b f.b
    let ty := (fpElem f).1
    wrOpnd w (shape (.fcmp f)).d f.d (b2n (fpCond (mField f 1 0) (fpIn ty t.ftz a) (fpIn ty t.ftz b)))) s

/-- FCLASS (R137): a one-hot class mask for each element, element 1's from bit 16. -/
def execFclass (f : Fields) (s : State) : Host.Outcome State Fault Refusal :=
  issueLane (.fclass f) f (fun w => do
    let t ← theTask w
    let a ← rdOpnd w (shape (.fclass f)).a f.a
    let (ty, n) := fpElem f
    wrOpnd w (shape (.fclass f)).d f.d
      ((List.range n).foldl (fun v k => v + 2 ^ (16 * k + fpClass ty t.ftz (elemAt ty a k))) 0)) s

/-- FRINT (R136): rounded to an integral value. -/
def execFrint (f : Fields) (s : State) : Host.Outcome State Fault Refusal :=
  fpOp (.frint f) f (fun _ m a _ _ => frintVal m a) s

/-- FDIV (R136): the quotient, correctly rounded. -/
def execFdiv (f : Fields) (s : State) : Host.Outcome State Fault Refusal :=
  fpOp (.fdiv f) f (fun fmt m a b _ => fdivRound fmt m a b) s

/-- FSQRT (R136): the square root, correctly rounded. -/
def execFsqrt (f : Fields) (s : State) : Host.Outcome State Fault Refusal :=
  fpOp (.fsqrt f) f (fun fmt m a _ _ => fsqrtRound fmt m a) s

/-- FRCP (R141, R142): the table-evaluated reciprocal. -/
def execFrcp (f : Fields) (s : State) : Host.Outcome State Fault Refusal :=
  fpApprox (.frcp f) f .rcp s

/-- FRSQ (R141, R142): the table-evaluated reciprocal square root. -/
def execFrsq (f : Fields) (s : State) : Host.Outcome State Fault Refusal :=
  fpApprox (.frsq f) f .rsq s

/-- FEXP2 (R141, R142): the table-evaluated base-2 exponential. -/
def execFexp2 (f : Fields) (s : State) : Host.Outcome State Fault Refusal :=
  fpApprox (.fexp2 f) f .exp2 s

/-- FLOG2 (R141, R142): the table-evaluated base-2 logarithm. -/
def execFlog2 (f : Fields) (s : State) : Host.Outcome State Fault Refusal :=
  fpApprox (.flog2 f) f .log2 s

/-- FSIN (R141, R142): the table-evaluated sine. -/
def execFsin (f : Fields) (s : State) : Host.Outcome State Fault Refusal :=
  fpApprox (.fsin f) f .sin s

/-- FCOS (R141, R142): the table-evaluated cosine. -/
def execFcos (f : Fields) (s : State) : Host.Outcome State Fault Refusal :=
  fpApprox (.fcos f) f .cos s

/-- FTANH (R141, R142): the table-evaluated hyperbolic tangent. -/
def execFtanh (f : Fields) (s : State) : Host.Outcome State Fault Refusal :=
  fpApprox (.ftanh f) f .tanh s

/-- FSIGM (R141, R142): the table-evaluated logistic sigmoid. -/
def execFsigm (f : Fields) (s : State) : Host.Outcome State Fault Refusal :=
  fpApprox (.fsigm f) f .sigm s

/-- FSCALE (R138): a × 2^k, rounded once. -/
def execFscale (f : Fields) (s : State) : Host.Outcome State Fault Refusal :=
  issueLane (.fscale f) f (fun w => do
    let t ← theTask w
    let a ← rdOpnd w (shape (.fscale f)).a f.a
    let b ← rdOpnd w (shape (.fscale f)).b f.b
    let (ty, n) := fpElem f
    wrOpnd w (shape (.fscale f)).d f.d (mapElems ty n (fun k =>
      fpOut ty t.ftz (roundTo ty.fmt ((fpIn ty t.ftz (elemAt ty a k)).scale (scaleBy f b k)) (t.fpMode (fRnd f)))))) s

/-- FDOT2 (R138): c + a0 × b0 + a1 × b1 in FP32, the sum exact and rounded once. -/
def execFdot2 (f : Fields) (s : State) : Host.Outcome State Fault Refusal :=
  issueLane (.fdot2 f) f (fun w => do
    let t ← theTask w
    let a ← rdOpnd w (shape (.fdot2 f)).a f.a
    let b ← rdOpnd w (shape (.fdot2 f)).b f.b
    let c ← rdOpnd w (shape (.fdot2 f)).c f.c
    let ty := (fpElem f).1
    let m := t.fpMode (fRnd f)
    let prod (k : Nat) : FVal := (fpIn ty t.ftz (elemAt ty a k)).mul (fpIn ty t.ftz (elemAt ty b k))
    let sum := ((fpIn .fp32 t.ftz c).add m (prod 0)).add m (prod 1)
    wrOpnd w (shape (.fdot2 f)).d f.d (fpOut .fp32 t.ftz (roundTo FpType.fp32.fmt sum m))) s

end Sys2Proof.Machine
end

