-- ==== Sys2Proof/Machine/MatrixOps.lean ====
section
/-! DEFINITION. Tiles and the arithmetic of the matrix engine (07 R154 to R157, R169, R173 to R183). -/

namespace Sys2Proof.Machine

/-! ### Tiles -/

/-- A tile of kind M (`acc` false) or A. -/
def Task.tile (t : Task) (acc : Bool) (n : Nat) : Tile := Sparse.get {} (if acc then t.atile else t.mtile) n
def Task.modTile (t : Task) (acc : Bool) (n : Nat) (f : Tile → Tile) : Task :=
  if acc then { t with atile := Sparse.modify {} t.atile n f } else { t with mtile := Sparse.modify {} t.mtile n f }

/-- The configuration of a granted tile (R154). -/
def grantedCfg (acc : Bool) (modes : Nat) : TileCfg :=
  if acc then { rows := 32, cols := 32, width := 4, ovt := bitAt modes 1 } else {}

/-- Whether a shape lies within R154. -/
def TileCfg.ok (c : TileCfg) (acc : Bool) : Bool :=
  decide (1 ≤ c.rows) && decide (c.rows ≤ 32) && decide (1 ≤ c.cols)
  && (if acc then (c.width == 4 || c.width == 8) && decide (c.cols ≤ 32)
      else [1, 2, 4, 8].contains c.width && decide (c.cols * c.width ≤ 64))

/-- Bytes of one row of a shape, and blocks of 32 columns. -/
def TileCfg.rowBytes (c : TileCfg) : Nat := c.cols * c.width
def TileCfg.blocks (c : TileCfg) : Nat := ceilDiv c.cols 32

/-- Place of an element's bytes in a tile. -/
def tileOff (acc : Bool) (width r j : Nat) : Nat := (if acc then 256 else 64) * r + width * j

/-- Element bits; a tile that is not VALID reads +0 (R157). -/
def Tile.elem (x : Tile) (acc : Bool) (width r j : Nat) : Nat :=
  if x.valid then ofLE (Sparse.read 0 x.data (tileOff acc width r j) width) else 0
/-- A sidecar byte: 127 in a tile that is not VALID. -/
def Tile.scale (x : Tile) (r g : Nat) : Nat := if x.valid then (Sparse.get 127 x.side (2 * r + g)).toNat else 127

/-- Contents from the bytes of each row. -/
def tileData (acc : Bool) (rows : List (List Byte)) : Sparse Byte :=
  (rows.zipIdx).foldl (fun m p => Sparse.write 0 m (tileOff acc 1 p.2 0) p.1) []
/-- A sidecar from the scale bytes of each row. -/
def tileSide (rows : List (List Byte)) : Sparse Byte := (rows.zipIdx).foldl (fun m p => Sparse.write 127 m (2 * p.2) p.1) []

/-- A tile whose contents a command has written (R156). -/
def Tile.written (x : Tile) (data side : Sparse Byte) : Tile := { x with valid := true, dirty := true, data := data, side := side }

/-- A tile that a faulting command leaves: all +0, VALID and POISON (R163). -/
def Tile.spoilt (x : Tile) : Tile := { x.written [] [] with poison := true }

/-- A tile with its status bits cleared (R167, R168). -/
def Tile.cleared (x : Tile) : Tile := { x with valid := false, dirty := false, accOvf := false, poison := false, data := [], side := [] }

/-- Bytes of the rows of a tile, and its scale bytes. -/
def Tile.rowsOf (x : Tile) (acc : Bool) (cfg : TileCfg) : List (List Byte) :=
  (List.range cfg.rows).map (fun r => (List.range cfg.cols).flatMap (fun j => leBytes cfg.width (x.elem acc cfg.width r j)))
def Tile.scalesOf (x : Tile) (cfg : TileCfg) : List (List Byte) :=
  (List.range cfg.rows).map (fun r => (List.range cfg.blocks).map (fun g => BitVec.ofNat 8 (x.scale r g)))

/-- Cut bytes into n lists of k. -/
def chunks {α : Type} (k : Nat) : Nat → List α → List (List α)
  | 0, _ => []
  | n + 1, l => l.take k :: chunks k n (l.drop k)

/-- The tiles of a kind that a queued matrix command names. -/
def Cmd.tiles (c : Cmd) (acc : Bool) : List Nat := (shape (decode c.word)).fieldsOf c.fields (if acc then [.a, .a1] else [.m, .m1])

/-- The INFLIGHT bit of a tile (R156): a command that names it has issued and is not complete. -/
def Task.inflight (t : Task) (acc : Bool) (n : Nat) : Bool := t.q4.any (fun c => (c.tiles acc).contains n)

/-- Whether a tile of the allotment beyond new counts is in flight. -/
def Task.inflightAbove (t : Task) (m a : Nat) : Bool :=
  (List.range (t.allot.mtiles - m)).any (fun k => t.inflight false (m + k + 1))
    || (List.range (t.allot.atiles - a)).any (fun k => t.inflight true (a + k + 1))

/-! ### Multiply and accumulate -/

/-- Width of an element and of the accumulator under FMT (R173). -/
def mmaWidth (fmt : Nat) : Nat :=
  match fmt with
  | 0 => 8
  | 1 => 4
  | 2 | 3 => 2
  | _ => 1
def mmaAcc (fmt : Nat) : FpType := if fmt = 0 then .fp64 else .fp32

/-- One step of R174 and R175: c plus an exact sum, rounded once to the accumulator. -/
def accStep (t : FpType) (c : FVal) (terms : List FVal) : FVal :=
  roundTo t.fmt (terms.foldl (fun x y => x.add .nearestEven y) c) .nearestEven

/-- Whether a step of FP24 overflows: the exact magnitude reaches 2^128 (05 R123). -/
def fp24Over (v : FVal) : Bool :=
  match v with
  | .fin _ m e => m != 0 && decide (128 ≤ (m.log2 : Int) + e)
  | _ => false

/-- The FP24 sum of one chunk's products, and whether a step overflowed (R176). -/
def fp24Sum : List FVal → Option (FVal × Bool)
  | [] => none
  | p :: ps =>
    let first := (roundTo fp24Fmt p .towardZero, fp24Over p)
    some (ps.foldl (fun (acc : FVal × Bool) q =>
      let q' := roundTo fp24Fmt q .towardZero
      let sum := acc.1.add .towardZero q'
      (roundTo fp24Fmt sum .towardZero, acc.2 || fp24Over q || fp24Over sum)) first)

/-- Accumulate one element (R174 to R176, R179): the products taken, by k; the scale exponents of a chunk, `none` for NaN. -/
def accumulate (fmt : Nat) (c : FVal) (prods : List (Nat × FVal)) (scale : Nat → Option Int) : FVal × Bool :=
  if fmt ≤ 1 then (prods.foldl (fun c p => accStep (mmaAcc fmt) c [p.2]) c, false)
  else if fmt ≤ 3 then
    ((List.range 4).foldl (fun c g =>
      match prods.filter (fun p => p.1 / 8 == g) with
      | [] => c
      | ps => accStep .fp32 c (ps.map Prod.snd)) c, false)
  else
    (List.range 2).foldl (fun (acc : FVal × Bool) g =>
      match fp24Sum ((prods.filter (fun p => p.1 / 32 == g)).map Prod.snd) with
      | none => acc
      | some (t, o) =>
        let term := match scale g with | some k => t.scale k | none => .nan
        (accStep .fp32 acc.1 [term], acc.2 || o)) (c, false)

/-- The scale of a chunk from two scale bytes. -/
def chunkScale (sa sb : Nat) : Option Int := if sa = 0xFF ∨ sb = 0xFF then none else some ((sa : Int) + sb - 254)

/-- Decode an element of A or B. -/
def mmaDecode (fw : Nat) (b : Bool) (v : Nat) : FVal :=
  if fwFmt fw = 4 then (if b then (fwB8b fw).decode v else (fwB8 fw).decode v) else (fwType fw).decode v

/-- MMA and MMAS on whole tiles (R173 to R180). `c i j` is the element that the products are added to, as bits, and `take i j k` says whether a
product is taken. The answer is the result's element bits row by row and the overflow. A result that is a NaN is the default NaN (05 R108), of an
element with no product taken too (DEDUCED, log entry 71). -/
def mmaTile (fw m n k : Nat) (a b : Option Tile) (c : Nat → Nat → Nat) (take : Nat → Nat → Nat → Bool) : List (List Nat) × Bool :=
  let w := mmaWidth (fwFmt fw)
  let ty := mmaAcc (fwFmt fw)
  let el (x : Option Tile) (isB : Bool) (r q : Nat) : FVal :=
    match x with
    | some x => mmaDecode fw isB (x.elem false w r q)
    | none => .fin false 0 0
  let sc (x : Option Tile) (r g : Nat) : Nat :=
    if fwScale fw = 1 then (match x with | some x => x.scale r g | none => 127) else 127
  let one (i j : Nat) : Nat × Bool :=
    let prods := ((List.range k).filter (take i j)).map (fun q => (q, (el a false i q).mul (el b true j q)))
    let (v, o) := accumulate (fwFmt fw) (ty.decode (c i j)) prods (fun g => chunkScale (sc a i g) (sc b j g))
    (ty.encode v, o)
  let rows := (List.range m).map (fun i => (List.range n).map (fun j => one i j))
  (rows.map (fun r => r.map Prod.fst), rows.any (fun r => r.any Prod.snd))

/-! ### The sparse sequencer (R180) -/

/-- The pairs of a row block and a column block of a result, in the order of the steps. -/
def blockPairs (m n : Nat) : List (Nat × Nat) := (List.range (ceilDiv m 8)).flatMap (fun i => (List.range (ceilDiv n 8)).map (fun j => (i, j)))
/-- The k of the steps of a pair. -/
def pairSteps (bm : List W64) (kk : Nat) (p : Nat × Nat) : List Nat :=
  (List.range kk).filter (fun k => bitAt (bm.getD p.1 0).toNat k && bitAt (bm.getD (4 + p.2) 0).toNat k)
/-- The group (R175) or chunk (R176) of a k; of FP64 and FP32 each k is one. -/
def stepGroup (fmt k : Nat) : Nat := if fmt ≤ 1 then k else if fmt ≤ 3 then k / 8 else k / 32
/-- The steps of a command in their order: the pair, and the group or chunk, of each. -/
def sparseSteps (fmt m n kk : Nat) (bm : List W64) : List ((Nat × Nat) × Nat) :=
  (blockPairs m n).flatMap (fun p => (pairSteps bm kk p).map (fun k => (p, stepGroup fmt k)))
/-- Steps before the first one of a pair. -/
def stepsBefore (m n kk : Nat) (bm : List W64) (p : Nat × Nat) : Nat :=
  (((blockPairs m n).takeWhile (fun q => q != p)).map (fun q => (pairSteps bm kk q).length)).sum
/-- Whether the sequencer may stop before step c: it begins a new pair, or a new group or chunk. -/
def mayStopAt (steps : List ((Nat × Nat) × Nat)) (c : Nat) : Bool := c == 0 || steps[c - 1]? != steps[c]?
/-- The first point at or after step c where the sequencer may stop; `l` is the list of steps from c on. -/
def stopPoint (steps : List ((Nat × Nat) × Nat)) (c : Nat) : List ((Nat × Nat) × Nat) → Nat
  | [] => c
  | _ :: l => if mayStopAt steps c then c else stopPoint steps (c + 1) l
/-- Whether a product is taken by one of the steps from `lo` to before `hi`. -/
def takenIn (m n kk : Nat) (bm : List W64) (lo hi i j k : Nat) : Bool :=
  let p := (i / 8, j / 8)
  let first := stepsBefore m n kk bm p
  (((pairSteps bm kk p).take (hi - first)).drop (lo - first)).contains k

/-! ### Conversions of tiles -/

/-- |v|. -/
def FVal.abs (v : FVal) : FVal :=
  match v with
  | .fin _ m e => .fin false m e
  | .inf _ => .inf false
  | .nan => .nan

/-- The largest magnitude of a row; NaN where there is one (05 R120). -/
def amax (vs : List FVal) : FVal :=
  vs.foldl (fun best v => if best = .nan ∨ v = .nan then .nan else if FVal.lt best v.abs then v.abs else best) (.fin false 0 0)

/-- Round a value into the format of a word, standard or binary8, as bits. -/
def fwRound (fw : Nat) (v : FVal) (m : RMode) (r : Nat) : Nat :=
  if fwFmt fw = 4 then (fwB8 fw).convert v m r (fwSat fw)
  else (fwType fw).encode (roundTo (fwType fw).fmt v m r (fwSat fw))

/-- TCVT: element codes row by row and scale bytes (R181). -/
def tcvtTile (fw : Nat) (cfg : TileCfg) (x : Tile) (rnd : Nat → Nat) : List (List Nat) × List (List Byte) :=
  let ty : FpType := if cfg.width = 8 then .fp64 else .fp32
  let row (r : Nat) : List FVal := (List.range cfg.cols).map (fun j => ty.decode (x.elem true cfg.width r j))
  let sOf (r : Nat) : Nat := if fwScale fw = 1 then scaleFor (amax (row r)) (fwB8 fw) else 127
  let m := RMode.ofCode (fwRnd fw)
  ((List.range cfg.rows).map (fun r => (row r).zipIdx.map (fun p =>
      fwRound fw (p.1.scale (127 - (sOf r : Int))) m (rnd (32 * r + p.2)))),
   (List.range cfg.rows).map (fun r => [BitVec.ofNat 8 (sOf r), 127]))

/-- ACCRD: the bytes of each row (R182). -/
def accrdRows (fw : Nat) (cfg : TileCfg) (x : Tile) (rnd : Nat → Nat) : List (List Byte) :=
  let ty : FpType := if cfg.width = 8 then .fp64 else .fp32
  let m := RMode.ofCode (fwRnd fw)
  (List.range cfg.rows).map (fun r => (List.range cfg.cols).flatMap (fun j =>
    leBytes (mmaWidth (fwFmt fw)) (fwRound fw (ty.decode (x.elem true cfg.width r j)) m (rnd (32 * r + j)))))

/-- ACCWR: the accumulator bytes of each row from bytes of the word's format (R183). -/
def accwrRows (fw : Nat) (cfg : TileCfg) (rows : List (List Byte)) : List (List Byte) :=
  let src := fwType fw
  let ty : FpType := if cfg.width = 8 then .fp64 else .fp32
  let w := mmaWidth (fwFmt fw)
  rows.map (fun bs => (chunks w cfg.cols bs).flatMap (fun e =>
    leBytes cfg.width (ty.encode (roundTo ty.fmt (src.decode (ofLE e)) (RMode.ofCode (fwRnd fw)) 0 (fwSat fw)))))

end Sys2Proof.Machine
end

