-- ==== Sys2Proof/Machine/Trace.lean ====
section
/-! DEFINITION. Dispatch traces: the header of a trace buffer, recording a placement, and binding to a recorded one (17 R434 to
R437). -/

namespace Sys2Proof.Machine

/-- A record (R435). -/
structure TraceRec where
  ped : Nat
  launch : Nat
  core : Nat
  slot : Nat
  kind : Nat
  victim : Nat
  seq : Nat
  deriving DecidableEq, Repr, Inhabited

def traceRec (d : List Byte) : TraceRec :=
  { ped := leField d 0 64, launch := leField d 64 4, core := leField d 68 2, slot := leField d 70 1, kind := leField d 71 1,
    victim := leField d 72 2, seq := leField d 80 8 }
def TraceRec.bytes (r : TraceRec) : List Byte :=
  leBytes 64 r.ped ++ leBytes 4 r.launch ++ leBytes 2 r.core ++ leBytes 1 r.slot ++ leBytes 1 r.kind ++ leBytes 2 r.victim
    ++ List.replicate 6 0 ++ leBytes 8 r.seq ++ List.replicate 8 0

/-- Whether a header's fixed fields keep R434: its magic, capacity and reserved bytes, and for a recording its other fields. -/
def traceHeaderOk (bind : Bool) (d : List Byte) : Bool :=
  leField d 0 4 == 0x33585452 && decide (leField d 4 4 ≤ 1) && leField d 8 8 != 0 && leField d 25 7 == 0 && leField d 104 24 == 0
  && (bind || (leField d 4 4 == 0 && leField d 16 8 == 0 && leField d 24 1 == 0 && leField d 32 72 == 0))

/-- The clusters of a partition, as a bitmap. -/
def State.partitionMap (s : State) (p : Nat) : Nat :=
  ofBits ((s.clusters.filter (fun c => c.2.partition == some p && c.2.inService)).map (fun c => c.1))

/-- Whether a bound trace refuses a launch (R436): overflowed, another stepping, or a cluster out of service. -/
def State.traceMismatch (s : State) (d : List Byte) : Bool :=
  leField d 4 4 % 2 == 1 || leField d 24 1 != 2 || (bitsOf 576 (leField d 32 72)).any (fun c => !(s.cluster c).inService)

/-- The records of a trace. -/
def State.traceRecs (s : State) (ctx addr : Nat) : CpRes (List TraceRec) :=
  (s.cpRead ctx addr 128).bind (fun h =>
    (s.cpRead ctx (addr + 128) (96 * leField h 16 8)).bind (fun d =>
      .ok ((List.range (leField h 16 8)).map (fun k => traceRec ((d.drop (96 * k)).take 96)))))

/-- Whether a read of a tree's trace takes a poisoned byte: of its header, and where it binds of its records (17 R427). -/
def State.traceTainted (s : State) (t : Tree) : Bool :=
  match t.trace with
  | none => false
  | some tr => s.cpTainted t.ctx tr.addr 128 || (tr.bind && match s.cpRead t.ctx tr.addr 128 with
      | .ok h => s.cpTainted t.ctx (tr.addr + 128) (96 * leField h 16 8)
      | _ => false)

/-- Write one record of a recording (R435). One that exceeds the capacity, or cannot be written, sets OVERFLOW; a page that is not present
makes the placement wait. Where OVERFLOW itself cannot be written the placement goes on without it (DESIGN CHOICE, log entry 103). -/
def State.recordPlacement (s : State) (ctx addr : Nat) (r : TraceRec) : CpRes State :=
  let spill (s : State) : CpRes State :=
    match s.cpWrite ctx (addr + 4) [1] with
    | .ok s => .ok s
    | .pend p => .pend p
    | .fault => .ok s
  match s.cpRead ctx addr 128, s.traceRecs ctx addr with
  | .pend p, _ => .pend p
  | .ok _, .pend p => .pend p
  | .ok h, .ok rs =>
    let n := leField h 16 8
    if leField h 8 8 ≤ n then spill s
    else
      let r := { r with seq := (rs.filter (fun (x : TraceRec) => x.core == r.core)).length }
      match s.cpWrite ctx (addr + 128 + 96 * n) r.bytes with
      | .pend p => .pend p
      | .fault => spill s
      | .ok s' =>
        match s'.cpWrite ctx (addr + 16) (leBytes 8 (n + 1)) with
        | .ok s' => .ok s'
        | .pend p => .pend p
        | .fault => spill s
  | _, _ => spill s

/-- Records of a binding that have been followed. -/
def State.isFollowed (s : State) (ctx : Nat) (tr : Trace) (i : Nat) : Bool :=
  match s.ctx? ctx with
  | some c => c.followed.contains (tr.binding, i)
  | none => false

/-- A record of a binding is followed. -/
def State.follow (s : State) (ctx : Nat) (tr : Trace) (i : Nat) : State := s.modCtx ctx (fun c => { c with followed := (tr.binding, i) :: c.followed })

/-- The next record of a core in a bound trace (R436): the first not followed, by sequence number. -/
def State.nextRecord (s : State) (ctx : Nat) (tr : Trace) (core : Nat) : CpRes (Option (Nat × TraceRec)) :=
  (s.traceRecs ctx tr.addr).bind (fun rs =>
    let left := (rs.zipIdx).filter (fun p => p.1.core == core && !s.isFollowed ctx tr p.2)
    .ok ((left.foldl (fun (best : Option (Nat × TraceRec)) p =>
      match best with
      | none => some (p.2, p.1)
      | some b => if p.1.seq < b.2.seq then some (p.2, p.1) else best) none)))

/-- What a placement of a task of a tree may do: go on, in a slot that a bound trace gives; wait; wait for a page; or end the tree with a
status. -/
inductive PlaceRes where
  | go (slot : Option Nat) (s : State)
  | wait
  | pend (p : Park)
  | ends (status : Nat)
  deriving DecidableEq, Repr, Inhabited

/-- A placement of a task under the tree's trace: recorded, or allowed only where it is the next of the core (R435, R436). `slot` is the slot
it takes where nothing binds it. Records of a bound trace that cannot be read end the tree with TRACE_DIVERGED (DESIGN CHOICE, log entry 91). -/
def State.placement (s : State) (t : Tree) (ped core slot kind victim : Nat) : PlaceRes :=
  match t.trace with
  | none => .go none s
  | some tr =>
    if s.traceTainted t then .ends stUNCORRECTED
    else if tr.bind then
      match s.nextRecord t.ctx tr core with
      | .pend p => .pend p
      | .fault => .ends stTRACE_DIVERGED
      | .ok (some (i, r)) =>
        if r.ped = ped ∧ r.launch = tr.launch ∧ r.kind = kind ∧ r.victim = victim then .go (some r.slot) (s.follow t.ctx tr i) else .wait
      | .ok none => .wait
    else
      match s.recordPlacement t.ctx tr.addr { ped := ped, launch := tr.launch, core := core, slot := slot, kind := kind, victim := victim, seq := 0 } with
      | .ok s => .go none s
      | .pend p => .pend p
      | .fault => .go none s

/-- A placement of a task again, after a save or a flush-and-restart (R437): at D2 only on the core and slot of its last record. Where that
core's cluster is out of service a recording relocates it to any core; a bound trace has the relocations of a task followed in the order in which
they stand there (log entry 84), and ends the tree where it holds none. -/
def State.placeAgain (s : State) (t : Tree) (ped core slot : Nat) (home : Nat × Nat) : PlaceRes :=
  let up := (s.cluster (clusterOf home.1)).inService
  let here : PlaceRes := if core = home.1 then .go (some home.2) s else .wait
  match t.trace with
  | none => .go none s
  | some tr =>
    if s.traceTainted t then .ends stUNCORRECTED
    else if tr.bind then
      match s.traceRecs t.ctx tr.addr, s.nextRecord t.ctx tr core with
      | .ok rs, .ok next =>
        match (rs.zipIdx).find? (fun p => p.1.ped == ped && p.1.launch == tr.launch && p.1.kind == 3 && !s.isFollowed t.ctx tr p.2) with
        | some (r, i) => if next.any (fun n => n.1 == i) then .go (some r.slot) (s.follow t.ctx tr i) else .wait
        | none => if up then here else .ends stTRACE_DIVERGED
      | .pend p, _ => .pend p
      | _, .pend p => .pend p
      | _, _ => .ends stTRACE_DIVERGED
    else if up then here
    else
      match s.recordPlacement t.ctx tr.addr { ped := ped, launch := tr.launch, core := core, slot := slot, kind := 3, victim := 0xFFFF, seq := 0 } with
      | .ok s => .go none s
      | .pend p => .pend p
      | .fault => .go none s

/-- A task created in a bound tree without a record ends the tree (R436). A page of the trace that is not present makes the creation wait
(15 R453). -/
def State.checkCreated (s : State) (tree ped : Nat) : CpRes State :=
  match s.tree? tree with
  | none => .ok s
  | some t =>
    match t.trace with
    | none => .ok s
    | some tr =>
      if !tr.bind then .ok s
      else if s.traceTainted t then .ok (s.abortTree tree stUNCORRECTED)
      else match s.traceRecs t.ctx tr.addr with
        | .ok rs => .ok (if rs.any (fun r => r.ped == ped && r.launch == tr.launch) then s else s.abortTree tree stTRACE_DIVERGED)
        | .pend p => .pend p
        | .fault => .ok (s.abortTree tree stTRACE_DIVERGED)

/-- Whether a bound tree's launch has records left (R436). Records that cannot be read leave none (log entry 91). -/
def State.traceLeft (s : State) (t : Tree) : CpRes Bool :=
  match t.trace with
  | none => .ok false
  | some tr =>
    if !tr.bind then .ok false
    else (s.traceRecs t.ctx tr.addr).bind (fun rs => .ok ((rs.zipIdx).any (fun p => p.1.launch == tr.launch && match s.ctx? t.ctx with
        | some c => !c.followed.contains (tr.binding, p.2)
        | none => false)))

end Sys2Proof.Machine
end

