-- ==== Sys2Proof/Machine/Views.lean ====
section
/-! DEFINITION. Views of reducers: what they hold, their staging chunks, merges and layouts (08 R193 to R200, R455). -/

namespace Sys2Proof.Machine

/-! ### Keys and folds -/

/-- Whether one update key comes no later than another (R195). -/
def Update.le (x y : Update) : Bool :=
  if x.strand ≠ y.strand then serialLt x.strand y.strand
  else if x.rank ≠ y.rank then decide (x.rank < y.rank)
  else if x.group ≠ y.group then decide (x.group < y.group)
  else if x.lane ≠ y.lane then decide (x.lane < y.lane)
  else decide (x.count ≤ y.count)

/-- Whether an update is one of the task that holds the view, and not one merged from a child. -/
def Update.isOwn (u : Update) : Bool :=
  match u.source with
  | .uniform | .thread _ => true
  | .child | .merging => false

/-- Updates of a view in the order of R196. At D0 those of merged children stand in the order in which their views arrived, after the view's own in
ascending key (R187, R455; log entry 48). -/
def inKeyOrder (level : Nat) (us : List Update) : List Update :=
  if level = 0 then sortBy Update.le (us.filter Update.isOwn) ++ us.filter (fun u => !u.isOwn) else sortBy Update.le us

/-- Bits of a reducer type and its floating type (R193). -/
def redBits (type : Nat) : Nat :=
  match type with
  | 0 | 1 | 6 => 32
  | 4 | 5 => 16
  | _ => 64
def redFp (type : Nat) : FpType :=
  match type with
  | 4 => .fp16
  | 5 => .bf16
  | 6 => .fp32
  | _ => .fp64

/-- The ATYPE of an update that stands for a whole accumulator, restored from a saved image (16 R411, R413). -/
def atypeAcc : Nat := 8

/-- A long accumulator from its bits (05 R124). -/
def longAcc (wide : Bool) (v : Nat) : LongAcc :=
  { n := v % 2 ^ laWidth wide, isNan := bitAt v (laWidth wide), posInf := bitAt v (laWidth wide + 1),
    negInf := bitAt v (laWidth wide + 2) }

/-- The accumulator of a SUMF over updates (R125). -/
def sumf (type : Nat) (us : List Update) : LongAcc :=
  us.foldl (fun acc u =>
    if u.atype = atypeAcc then acc.merge (type == 7) (longAcc (type == 7) u.value)
    else acc.add (type == 7) ((redFp u.atype).decode u.value)) {}

/-- Minimum and maximum under a type (R193). -/
def redMinMax (mx : Bool) (type a b : Nat) : Nat :=
  if 4 ≤ type then fminmax (redFp type) mx false a b
  else if type % 2 = 1 then (if mx then max a b else min a b)
  else if signExt a (redBits type) ≤ signExt b (redBits type) then (if mx then b else a) else (if mx then a else b)

/-- The identity of a minimum or maximum. -/
def minMaxIdent (mx : Bool) (type : Nat) : Nat :=
  if 4 ≤ type then (redFp type).encode (.inf mx)
  else
    let w := redBits type
    if type % 2 = 1 then (if mx then 0 else 2 ^ w - 1) else (if mx then 2 ^ (w - 1) else 2 ^ (w - 1) - 1)

/-- The fold of a kind over updates (R193, R196), as VREAD gives it (R211): the value at the type's width; for FIRST the
value of the first update, or 0; for CAT and LOG their number. -/
def foldUpdates (level kind type : Nat) (us : List Update) : Nat :=
  let w := redBits type
  match kind with
  | 1 => us.foldl (fun v u => trunc (v + u.value) w) 0
  | 2 => (sumf type us).read (type == 7) (redFp type)
  | 3 => us.foldl (fun v u => redMinMax false type v u.value) (minMaxIdent false type)
  | 4 => us.foldl (fun v u => redMinMax true type v u.value) (minMaxIdent true type)
  | 5 => us.foldl (fun v u => v &&& u.value) (2 ^ w - 1)
  | 6 => us.foldl (fun v u => v ||| u.value) 0
  | 7 => us.foldl (fun v u => v ^^^ u.value) 0
  | 8 => (((inKeyOrder level us).head?).map (fun u => u.value)).getD 0
  | _ => us.length

/-! ### Layouts (R455) -/

/-- Key bytes 16 to 95 of an entry. -/
def Update.keyBytes (u : Update) : List Byte :=
  strandBytes u.strand ++ leBytes 1 u.rank ++ leBytes 1 u.group ++ leBytes 1 u.lane ++ leBytes 1 0 ++ leBytes 4 u.count ++ leBytes 4 0

/-- An entry of a CAT or LOG. -/
def Update.entryBytes (log : Bool) (u : Update) : List Byte :=
  leBytes 8 u.value ++ leBytes 8 (if log then u.digest else 0) ++ u.keyBytes

/-- Whether a kind holds entries in chunks. -/
def chunked (kind : Nat) : Bool := decide (9 ≤ kind)

/-- Bytes of a view as it is held, padded to 320. -/
def View.image (v : View) (level staging : Nat) : List Byte :=
  let body := match v.kind with
    | 2 => leBytes (if v.type = 7 then 272 else 40) ((sumf v.type v.updates).bits (v.type == 7))
    | 8 =>
      (match (inKeyOrder level v.updates).head? with
        | some u => leBytes 8 u.value ++ leBytes 8 1 ++ u.keyBytes
        | none => [])
    | 9 | 10 =>
      leBytes 8 v.updates.length ++ leBytes 8 ((v.chunks.head?).elim 0 (fun k => staging + 4096 * k))
        ++ leBytes 8 ((v.chunks.getLast?).elim 0 (fun k => staging + 4096 * k))
    | _ => leBytes 8 (foldUpdates level v.kind v.type v.updates)
  body ++ List.replicate (320 - body.length) 0

/-- Bytes of chunk k of a view's chain, whose entries lie in ascending update key. -/
def View.chunkBytes (v : View) (staging k : Nat) : List Byte :=
  let es := ((sortBy Update.le v.updates).drop (42 * k)).take 42
  leBytes 8 ((v.chunks[k + 1]?).elim 0 (fun c => staging + 4096 * c)) ++ leBytes 4 es.length ++ List.replicate 52 0
    ++ es.flatMap (fun u => u.entryBytes (v.kind == 10)) ++ List.replicate (96 * (42 - es.length)) 0

/-! ### Views read back (R455; 16 R413, R414) -/

/-- Whether bytes 16 to 95 of an entry keep their form. -/
def keyOk (d : List Byte) : Bool :=
  strandEntryOk (d.take 68) && decide (leField d 68 1 ≤ 1) && decide (leField d 69 1 ≤ 15) && decide (leField d 70 1 ≤ 31)
  && (leField d 68 1 == 1 || leField d 69 2 == 0) && leField d 71 1 == 0 && leField d 76 4 == 0

/-- The update of an entry, or of a FIRST record, from its value, digest and key bytes. -/
def updateOf (value digest atype : Nat) (key : List Byte) : Update :=
  { seq := 0, source := .uniform, strand := strandOf (key.take 68), rank := leField key 68 1, group := leField key 69 1, lane := leField key 70 1,
    count := leField key 72 4, atype := atype, value := value, digest := digest }

/-- Whether a view's image keeps its layout. -/
def View.headOk (v : View) (d : List Byte) : Bool :=
  match v.kind with
  | 2 => decide (leField d 0 272 < 2 ^ (laWidth (v.type == 7) + 3)) && leField d 272 48 == 0
  | 8 =>
    decide (leField d 0 8 < 2 ^ redBits v.type) && decide (leField d 8 8 < 2) && leField d 96 224 == 0
    && (if leField d 8 1 = 1 then keyOk ((d.drop 16).take 80) else leField d 16 80 == 0)
  | 9 | 10 => leField d 24 296 == 0
  | _ => decide (leField d 0 8 < 2 ^ redBits v.type) && leField d 8 312 == 0

/-- Whether an address names no chunk of a staging area. -/
def notChunk (staging chunks a : Nat) : Bool := decide (a < staging) || (a - staging) % 4096 != 0 || decide (chunks ≤ (a - staging) / 4096)

/-- Whether the head of a chunk breaks its form: more than 42 entries, or a reserved byte. -/
def chunkHeadBad (d : List Byte) : Bool := decide (42 < leField d 8 4) || leField d 12 52 != 0

/-- The chain of chunks from an address: its updates in order and its chunks, or `none` where it breaks the layout. -/
def State.readChain (s : State) (ctx staging chunks : Nat) (v : View) : Nat → Nat → CpRes (Option (List Update × List Nat))
  | 0, a => .ok (if a = 0 then some ([], []) else none)
  | n + 1, a =>
    if a = 0 then .ok (some ([], []))
    else if notChunk staging chunks a then .ok none
    else (s.cpRead ctx a 4096).bind (fun d =>
      let es := (List.range (leField d 8 4)).map (fun e => (d.drop (64 + 96 * e)).take 96)
      if chunkHeadBad d || !es.all (fun x => keyOk (x.drop 16) && (v.kind == 10 || leField x 8 8 == 0)) then .ok none
      else (State.readChain s ctx staging chunks v n (leField d 0 8)).bind (fun r => .ok (r.map (fun p =>
        (es.map (fun x => updateOf (leField x 0 8) (leField x 8 8) v.type (x.drop 16)) ++ p.1, (a - staging) / 4096 :: p.2)))))

/-- A view from an image that keeps its layout, but for a CAT or LOG: one update stands for a changed accumulator or value. -/
def View.readFrom (v : View) (d : List Byte) : View :=
  if v.kind = 8 then
    { v with updates := if leField d 8 1 = 1 then [updateOf (leField d 0 8) 0 v.type ((d.drop 16).take 80)] else [] }
  else
    { v with updates := [
      { seq := 0, source := .uniform, strand := [], rank := 0, count := 0, atype := if v.kind = 2 then atypeAcc else v.type,
        value := if v.kind = 2 then leField d 0 (if v.type = 7 then 272 else 40) else leField d 0 8 % 2 ^ redBits v.type }] }

/-- A CAT or LOG with the updates and chunks of its chain: the view itself where they are the ones that it holds. -/
def View.withChain (v : View) (us : List Update) (ks : List Nat) : View :=
  let bytes (l : List Update) : List (List Byte) := l.map (fun u => u.entryBytes (v.kind == 10))
  if ks = v.chunks ∧ bytes us = bytes (sortBy Update.le v.updates) then v else { v with updates := us, chunks := ks }

/-- A view restored as its image is found (16 R414): a CAT or LOG with the chain that its head names. `none` where a layout is broken. -/
def State.restoreView (s : State) (ctx level staging chunks : Nat) (v : View) (d : List Byte) : CpRes (Option View) :=
  if chunked v.kind then
    if !v.headOk d then .ok none
    else (s.readChain ctx staging chunks v (chunks + 1) (leField d 8 8)).bind (fun r => .ok (r.bind (fun p =>
      if p.1.length = leField d 0 8 ∧ leField d 16 8 = (p.2.getLast?).elim 0 (fun k => staging + 4096 * k) ∧ sortBy Update.le p.1 = p.1 then
        some (v.withChain p.1 p.2)
      else none)))
  else if v.image level staging = d then .ok (some v)
  else .ok (if v.headOk d then some (v.readFrom d) else none)

/-- Views restored one after another, each from its image. -/
def State.restoreViews (s : State) (ctx level staging chunks : Nat) : List (View × List Byte) → CpRes (Option (List View))
  | [] => .ok (some [])
  | (v, d) :: rest =>
    (s.restoreView ctx level staging chunks v d).bind (fun v? => match v? with
      | none => .ok none
      | some v => (State.restoreViews s ctx level staging chunks rest).bind (fun vs => .ok (vs.map (fun l => v :: l))))

/-- The bytes of a chain of staged child views: the data areas of its chunks. `none` where it breaks the layout. -/
def State.readStaged (s : State) (ctx staging chunks : Nat) : Nat → Nat → CpRes (Option (List Byte))
  | 0, a => .ok (if a = 0 then some [] else none)
  | n + 1, a =>
    if a = 0 then .ok (some [])
    else if notChunk staging chunks a then .ok none
    else (s.cpRead ctx a 4096).bind (fun d =>
      if chunkHeadBad d then .ok none
      else (State.readStaged s ctx staging chunks n (leField d 0 8)).bind (fun bs => .ok (bs.map (fun l => d.drop 64 ++ l))))

/-- Views in ascending index, as an image holds them. -/
def viewsByIndex (vs : List View) : List View := sortBy (fun a b => decide (a.index ≤ b.index)) vs

/-! ### Staging chunks -/

/-- Views of a context, each with the task that holds it or has left it, its parent and its element. -/
def State.heldViews (s : State) (ctx : Nat) : List View :=
  ((s.tasks.filter (fun t => t.entry.ctx == ctx)).flatMap (fun t => t.views ++ t.children.flatMap (fun c => c.views)))
  ++ ((s.trees.filter (fun r => r.ctx == ctx)).flatMap (fun r => r.tops.flatMap (fun c => c.views)))

/-- Chunks in use in a context: by views, by the staged child views of saved tasks, and by the views of tasks whose first ACQUIRE has not been
granted. -/
def State.chunksUsed (s : State) (ctx : Nat) : List Nat :=
  (s.heldViews ctx).flatMap (fun v => v.chunks)
  ++ (s.tasks.filter (fun t => t.entry.ctx == ctx)).flatMap (fun t => t.mergeChunks ++ t.preChunks)

/-- Chunk j of a chain of chunks whose data areas hold bytes one after another (R455). -/
def chainChunk (staging : Nat) (ks : List Nat) (bytes : List Byte) (j : Nat) : List Byte :=
  let d := (bytes.drop (4032 * j)).take 4032
  leBytes 8 ((ks[j + 1]?).elim 0 (fun k => staging + 4096 * k)) ++ List.replicate 56 0 ++ d ++ List.replicate (4032 - d.length) 0

/-- Write bytes over a chain of chunks of a context's staging area. -/
def State.putBytesChain (s : State) (ctx staging : Nat) (ks : List Nat) (bytes : List Byte) : CpRes State :=
  ks.zipIdx.foldl (fun (r : CpRes State) p => r.bind (fun s => s.cpWrite ctx (staging + 4096 * p.1) (chainChunk staging ks bytes p.2))) (.ok s)

/-- The chunks of a context's staging area that are free. -/
def State.freeChunks (s : State) (ctx : Nat) : List Nat :=
  match s.ctx? ctx with
  | none => []
  | some c =>
    let used := s.chunksUsed ctx
    (List.range c.chunks).filter (fun k => !used.contains k)

/-- The chunks in which the views of a new task of a tree with n reducers stand until its first grant (R197): as many as a chain of staged views of 320
bytes takes. Where the area has not that many free, the sorting office holds the views elsewhere (DESIGN CHOICE, log entry 85). -/
def State.preChunksFor (s : State) (ctx n : Nat) : List Nat :=
  let need := ceilDiv (320 * n) 4032
  let ks := pickSome .stagingChunk s.tick need (s.freeChunks ctx)
  if ks.length < need then [] else ks

/-- The sorting office writes the views of a task to the chunks in which they stand before its first grant (R197). -/
def State.putPreViews (s : State) (ctx level : Nat) (vs : List View) (ks : List Nat) : CpRes State :=
  match s.ctx? ctx with
  | none => .ok s
  | some c => s.putBytesChain ctx c.staging ks ((viewsByIndex vs).flatMap (fun v => v.image level c.staging))

/-- Whether a read of chunks of a context's staging area takes a poisoned byte (17 R427). -/
def State.chunksTainted (s : State) (ctx : Nat) (ks : List Nat) : Bool :=
  match s.ctx? ctx with
  | none => false
  | some c => ks.any (fun k => s.cpTainted ctx (c.staging + 4096 * k) 4096)

/-- Whether the chunks of a context's staging area can be read. -/
def State.readChunks (s : State) (ctx : Nat) (ks : List Nat) : CpRes Unit :=
  match s.ctx? ctx with
  | none => .ok ()
  | some c => (s.mapCp ctx { r := true } (ks.map (fun k => (c.staging + 4096 * k, 4096)))).bind (fun _ => .ok ())

/-- The staging chunks of a task: of its views and of its children's, and those of its merge record. -/
def Task.chunksOf (t : Task) : List Nat :=
  (t.views ++ t.children.flatMap (fun c => c.views)).flatMap (fun v => v.chunks) ++ t.mergeChunks ++ t.preChunks

/-- Write the chain of a view; every chunk stands in the staging area. -/
def State.putChain (s : State) (ctx : Nat) (v : View) : List Nat → CpRes State
  | [] => .ok s
  | k :: ks =>
    match s.ctx? ctx with
    | none => .fault
    | some c =>
      match s.cpWrite ctx (c.staging + 4096 * v.chunks.getD k 0) (v.chunkBytes c.staging k) with
      | .ok s => State.putChain s ctx v ks
      | r => r

/-- What placing a view's entries gives. -/
inductive Placed where
  | ok (v : View) (s : State)
  | full
  | pend (p : Park)
  | fault
  deriving DecidableEq, Repr, Inhabited

/-- Give a view the chunks that its entries need, taking free ones and returning those that it no longer needs, and write its
chain (R197, R455; log entry 9). -/
def State.placeView (s : State) (ctx : Nat) (v : View) : Placed :=
  if !chunked v.kind then .ok v s
  else match s.ctx? ctx with
    | none => .fault
    | some c =>
      let need := ceilDiv v.updates.length 42
      let used := v.chunks ++ s.chunksUsed ctx
      let fresh := pickSome .stagingChunk s.tick (need - v.chunks.length) ((List.range c.chunks).filter (fun k => !used.contains k))
      let chain := (v.chunks ++ fresh).take need
      if chain.length < need then .full
      else
        let v := { v with chunks := chain }
        match s.putChain ctx v (List.range need) with
        | .ok s => .ok v s
        | .pend p => .pend p
        | .fault => .fault

/-! ### Merges (R197) -/

/-- A view that receives a child's updates, which its join makes visible when it completes. -/
def View.merge (level : Nat) (v c : View) : View :=
  { v with
    updates := v.updates ++ (inKeyOrder level c.updates).map (fun u => { u with source := .merging })
    chunks := v.chunks ++ c.chunks }

/-- The join that merged updates has completed. -/
def View.joined (v : View) (seq : Nat) : View :=
  { v with updates := v.updates.map (fun u => if u.source = .merging then { u with source := .child, seq := seq } else u) }

/-- Merge the views of one child, one reducer after another. The chunks of both are enough for the entries of both. -/
def State.mergeViews (s : State) (ctx level : Nat) (vs cs : List View) : CpRes (List View × State) :=
  match vs with
  | [] => .ok ([], s)
  | v :: rest =>
    match (match cs.find? (fun c => c.index == v.index) with
           | none => Placed.ok v s
           | some c => s.placeView ctx (View.merge level v c)) with
    | .full => .fault
    | .pend p => .pend p
    | .fault => .fault
    | .ok v s =>
      match State.mergeViews s ctx level rest cs with
      | .ok (vs, s) => .ok (v :: vs, s)
      | .pend p => .pend p
      | .fault => .fault

end Sys2Proof.Machine
end

