-- ==== Sys2Proof/Machine/Sched.lean ====
section
/-! DEFINITION. Task records (04 R104, R105), deques (13 R326 to R328), admission and the start of a task (R321, R326; 02 R45). -/

namespace Sys2Proof.Machine

/-! ### Task records -/

/-- The header of a code object (R104). -/
structure CodeHeader where
  ntask : Nat
  taskOff : Nat
  codeOff : Nat
  deriving DecidableEq, Repr, Inhabited

def codeHeader (d : List Byte) : CodeHeader := { ntask := leField d 8 4, taskOff := leField d 16 8, codeOff := leField d 32 8 }

/-- A task record from its 64 bytes, its reducer records and the header. Entries are absolute instruction addresses: slot 0 of
their line. -/
def taskRec (code : Nat) (h : CodeHeader) (d reds : List Byte) : TaskRec :=
  { lentry := code + h.codeOff + leField d 8 8 + 4
    uentry := code + h.codeOff + leField d 16 8 + 4
    regs := leField d 24 2
    mtiles := leField d 26 1
    atiles := leField d 27 1
    holes := leField d 28 1
    idem := bitAt (leField d 30 1) 0
    sweep := bitAt (leField d 30 1) 1
    holeBytes := leField d 32 4
    hint := leField d 36 4
    reducers := (List.range (leField d 48 4)).map (fun k =>
      let r := leField reds (4 * k) 4
      { index := field r 3 0, kind := field r 11 4, type := field r 19 12 })
    tx := leField d 52 2
    ty := leField d 54 2
    tz := leField d 56 2 }

/-- Read a task record of a code object (R105). -/
def State.readRecord (s : State) (ctx code rec : Nat) : CpRes TaskRec :=
  (s.cpRead ctx code 96).bind (fun hd =>
    let h := codeHeader hd
    (s.cpRead ctx (code + h.taskOff + 64 * rec) 64).bind (fun d =>
      (s.cpRead ctx (code + leField d 40 8) (4 * leField d 48 4)).bind (fun reds => .ok (taskRec code h d reds))))

/-- Whether a read of a task record takes a poisoned byte (17 R427). -/
def State.recordTainted (s : State) (ctx code rec : Nat) : Bool :=
  !s.poison.isEmpty && match s.cpRead ctx code 96 with
    | .ok hd =>
      let a := code + (codeHeader hd).taskOff + 64 * rec
      s.cpTainted ctx code 96 || s.cpTainted ctx a 64 || match s.cpRead ctx a 64 with
        | .ok d => s.cpTainted ctx (code + leField d 40 8) (4 * leField d 48 4)
        | _ => false
    | _ => false

/-! ### Deques -/

/-- Mark the new-end entry of a core's deque with the cycle at which it became that (R329). -/
def State.touchDeque (s : State) (core : Nat) : State :=
  let now := s.cycle (clusterOf core)
  s.modCore core (fun c => { c with deque := markEnd now c.deque })

/-- What a push, or a read-back of spilled entries, ends in: done, or held by a page of a context that is not present. -/
inductive Pushed where
  | ok (s : State)
  | pend (ctx tree : Nat) (p : Park)
  deriving DecidableEq, Repr, Inhabited

def Pushed.bind (r : Pushed) (g : State → Pushed) : Pushed :=
  match r with
  | .ok s => g s
  | .pend c tr p => .pend c tr p

/-- The state that a push on a core gives; a page that is not present makes the core wait (15 R453). -/
def Pushed.orHeld (r : Pushed) (s : State) (core : Nat) : State :=
  match r with
  | .ok s => s
  | .pend c tr p => s.coreWaits core c tr p

/-- Places in use in the deque spill area of a context. -/
def State.spillPlaces (s : State) (ctx : Nat) : List Nat :=
  s.cores.flatMap (fun p => p.2.deque.filterMap (fun e => if e.ctx = ctx then e.spill else none))

/-- An access to a place of the deque spill area of an entry's context. -/
def State.spillAccess (s : State) (e : Entry) (need : Need) (place : Nat) : CpRes Unit :=
  match s.ctx? e.ctx with
  | none => .fault
  | some c => (s.mapCp e.ctx need (pieces (c.deqSpill + 64 * place) 64)).bind (fun _ => .ok ())

/-- Whether the read of a place of the area takes a poisoned byte (17 R427). -/
def State.spillTainted (s : State) (e : Entry) (place : Nat) : Bool :=
  match s.ctx? e.ctx with
  | none => false
  | some c => s.cpTainted e.ctx (c.deqSpill + 64 * place) 64

/-- A place for one more entry in its context's area: none where the area is full. -/
def State.spillPlace (s : State) (e : Entry) : Option Nat :=
  match s.ctx? e.ctx with
  | none => none
  | some c =>
    let used := s.spillPlaces e.ctx
    (List.range (min c.deqEnt (used.length + 1))).find? (fun k => !used.contains k)

/-- Ordinal of an entry's tree, for events. -/
def State.ordinalOf (s : State) (e : Entry) : Nat := match s.tree? e.tree with | some r => r.ordinal.toNat | none => 0

/-- Spill one entry to its place in its context's area, in 64 bytes (R327; log entry 44), and record the place with `put`: DEQUE_SPILL for its tree
where the area is full or cannot be written. -/
def State.spillEntry (s : State) (e : Entry) (put : State → Nat → State) : Pushed :=
  match s.spillPlace e, s.ctx? e.ctx with
  | some k, some c => match s.cpWrite e.ctx (c.deqSpill + 64 * k) ((List.range 64).map (Config.spillImage e)) with
    | .ok s => .ok (put s k)
    | .pend p => .pend e.ctx (s.ordinalOf e) p
    | .fault => .ok (s.abortTree e.tree stDEQUE_SPILL)
  | _, _ => .ok (s.abortTree e.tree stDEQUE_SPILL)

/-- Set the place of an entry of a core's deque. -/
def Core.placeAt (c : Core) (id : Nat) (place : Option Nat) : Core :=
  { c with deque := c.deque.map (fun e => if e.id = id then { e with spill := place } else e)
           spilled := if place.isSome then c.spilled + 1 else c.spilled - 1 }

/-- Spill the given entries of a core, oldest first. Those of a tree that has been aborted meanwhile are gone. -/
def State.spillAll (s : State) (core : Nat) : List Entry → Pushed
  | [] => .ok s
  | e :: es =>
    (if (s.core core).deque.any (fun x => x.id == e.id) then
      s.spillEntry e (fun s k => s.modCore core (fun c => c.placeAt e.id (some k))) else .ok s).bind (fun s => s.spillAll core es)

/-- Push an entry at the new end of a core's deque (R327). A core that waits for a page spills none. -/
def State.push (s : State) (core : Nat) (e : Entry) : Pushed :=
  let c := s.core core
  let put (s : State) : State := (s.modCore core (fun c => { c with deque := c.deque ++ [e] })).touchDeque core
  if 64 ≤ c.deque.length - c.spilled then
    match c.waits with
    | some (x, p) => .pend x 0 p
    | none => (s.spillAll core ((c.deque.drop c.spilled).take 32)).bind (fun s =>
      .ok (if (s.tree? e.tree).any (fun r => r.ending.isSome) then s else put s))
  else .ok (put s)

/-- Push a task that is created: in a bound tree one without a record ends the tree (17 R436). -/
def State.pushCreated (s : State) (core : Nat) (e : Entry) : Pushed :=
  (s.push core e).bind (fun s => match s.checkCreated e.tree e.ped.image with
    | .ok s => .ok s
    | .pend p => .pend e.ctx (s.ordinalOf e) p
    | .fault => .ok s)

/-- How the read-back of an entry ends: the status with which its tree ends, or a page that is not present. -/
inductive ReadBack where
  | ok
  | ends (status : Nat)
  | pend (p : Park)
  deriving DecidableEq, Repr, Inhabited

/-- The read-back of an entry, where it has been spilled (R327; 17 R427). -/
def State.readBack (s : State) (e : Entry) : ReadBack :=
  match e.spill with
  | none => .ok
  | some k =>
    if s.spillTainted e k then .ends stUNCORRECTED
    else match s.spillAccess e { r := true } k with
      | .ok _ => .ok
      | .pend p => .pend p
      | .fault => .ends stDEQUE_SPILL

/-- Read the given spilled entries back, newest first: DEQUE_SPILL for the tree of one that cannot be read. -/
def State.readAll (s : State) (core : Nat) : List Entry → Pushed
  | [] => .ok s
  | e :: es =>
    if (s.core core).deque.any (fun x => x.id == e.id) then
      match s.readBack e with
      | .ok => (s.modCore core (fun c => c.placeAt e.id none)).readAll core es
      | .ends st => (s.abortTree e.tree st).readAll core es
      | .pend p => .pend e.ctx (s.ordinalOf e) p
    else s.readAll core es

/-- Read spilled entries back when the on-chip entries are exhausted: the newest 32. -/
def State.refill (s : State) (core : Nat) : Pushed :=
  let c := s.core core
  if c.deque.length ≤ c.spilled then s.readAll core ((c.deque.take c.spilled).drop (c.spilled - 32)).reverse else .ok s

/-- Remove an entry from a core's deque. An entry that stays at the new end goes on waiting (R329). -/
def State.takeEntry (s : State) (core id : Nat) : State :=
  let s' := s.modCore core (fun c =>
    let old := ((c.deque.take c.spilled).filter (fun e => e.id != id)).length
    { c with deque := c.deque.filter (fun e => e.id != id), spilled := old })
  if ((s.core core).deque.getLast?.map (fun e => e.id)) = some id then s'.touchDeque core else s'

/-! ### Admission -/

/-- Registers in use on a lane of a core. -/
def State.laneUsed (s : State) (core lane : Nat) : Nat := ((s.residents core).map (fun t => t.laneUse lane t.allot.regs)).sum

/-- Whether a core can admit a task of n groups (R326; 01 R23, 16 R405). -/
def State.canAdmit (s : State) (core groups : Nat) : Bool :=
  let ts := s.residents core
  let cl := s.cluster (clusterOf core)
  decide (core < numCores) && cl.inService && cl.admits
  && decide (ts.length < 16)
  && decide ((ts.map (fun t => t.entry.groups)).sum + groups ≤ 16)
  && (List.range 32).all (fun l => decide (s.laneUsed core l + 32 * groups ≤ 2048))
  && cl.acq.isEmpty
  && ts.all (fun t => t.drain.isNone)

/-- Whether a core belongs to the partition of a context. -/
def State.inPartition (s : State) (core ctx : Nat) : Bool :=
  match s.ctx? ctx with
  | some c => (s.cluster (clusterOf core)).partition == some c.partition
  | none => false

/-- A cycle of a die's deques: the wait of a new-end entry that its core can admit begins again (R329). -/
def State.touchDie (s : State) (d : Nat) : State :=
  s.cores.foldl (fun s p =>
    match p.2.deque.getLast? with
    | none => s
    | some e => if dieOfCore p.1 = d ∧ s.canAdmit p.1 e.groups then s.touchDeque p.1 else s) s

/-- A free task slot of a core, and thread slots for n groups (02 R36, R37; log entry 9). -/
def State.freeTaskSlot (s : State) (core : Nat) : Nat :=
  (pickFree .taskSlot s.tick (idxWhere 16 (fun k => !((s.residents core).map (fun t => t.slotD)).contains k))).getD 0
def State.freeGroupSlots (s : State) (core n : Nat) : List Nat :=
  pickSome .groupSlots s.tick n (idxWhere 16 (fun k => !((s.residents core).flatMap (fun t => t.gslots)).contains k))

/-! ### Start of a task -/

/-- Status of a thread at creation (02 R33, R34). -/
def initialStatus (groups last k : Nat) : ThreadStatus :=
  if k / 32 + 1 < groups ∨ k % 32 < last then .live
  else if k % 32 / 4 * 4 < last then .helper
  else .free

/-- A view at its identity. -/
def freshView (r : Reducer) : View := { index := r.index, kind := r.kind, type := r.type }

/-- A thread at the start (R321, 08 R201). -/
def startThread (e : Entry) (now k : Nat) : Thread :=
  let st := initialStatus e.groups e.last k
  let lo (j : Nat) : Nat := min (e.lo + j * e.slice) e.hi
  { status := st
    ag := { pc := BitVec.ofNat 64 e.rcd.lentry, entry := st == .live, issued := now }
    x := if st = .free then [] else (e.x.zipIdx).foldl (fun m p => Sparse.put 0 m (p.2 + 1) p.1) []
    cursor := lo k
    sliceEnd := lo (k + 1) }

/-- The task that an entry becomes on a core (R321). -/
def startTask (e : Entry) (core slot : Nat) (gslots : List Nat) (save now : Nat) (reds : List Reducer) : Task :=
  { entry := e
    place := .core core slot
    gslots := gslots
    savePtr := save
    started := now
    trapVec := e.trapVec
    u := { ag := { pc := BitVec.ofNat 64 e.rcd.uentry, entry := true, issued := now }
           s := (e.s.zipIdx).foldl (fun m p => Sparse.put 0 m (p.2 + 1) p.1) []
           lo := min (e.lo + 32 * e.groups * e.slice) e.hi
           hi := e.hi
           carve := e.carve
           slice := e.slice }
    threads := (List.range (32 * e.groups)).map (startThread e now)
    views := reds.map freshView }

/-- A place for a save slot of a size in a context's pool (16 R394; log entry 9), at a count of steps. -/
def Ctx.slotFor (c : Ctx) (size tick : Nat) : Option Nat :=
  pickFree .savePool tick (((List.range (c.poolSize / 65536)).map (fun k => c.poolBase + 65536 * k)).filter (fun a =>
    decide (a + size ≤ c.poolBase + c.poolSize) && c.slots.all (fun p => decide (p.1 + p.2 ≤ a) || decide (a + size ≤ p.1))))

/-- The reducers of a tree. -/
def Tree.reducers (r : Tree) : List Reducer := r.bindings.map Prod.fst

/-- Start an entry on a core in a task slot (R321, R326): its save slot, its agents at their entries, its views in the staging area (08 R197). -/
def State.startOn (s : State) (core slot : Nat) (e : Entry) : CpRes State :=
  match s.ctx? e.ctx, s.tree? e.tree with
  | some c, some r =>
    let size := slotSize (slotSizes e.rcd e.groups r.bindings.length c.callSpill)
    match (match e.slot with | some a => some a | none => c.slotFor size s.tick) with
    | none => .ok (s.abortTree e.tree stSAVE_POOL)
    | some a =>
      let ks := s.preChunksFor e.ctx r.bindings.length
      let s := s.modCtx e.ctx (fun c => { c with slots := (a, size) :: c.slots.filter (fun p => p.1 != a) })
      let t := { startTask e core slot (s.freeGroupSlots core e.groups) a (s.cycle (clusterOf core)) r.reducers with preChunks := ks }
      (s.putPreViews e.ctx r.level t.views ks).bind (fun s => .ok (({ s with tasks := s.tasks ++ [t] }).acquireAt (clusterOf core) 3))
  | _, _ => .ok s

/-- The placement of an entry of the deque of `holder` on a core under its tree's trace (17 R435 to R437). -/
def State.placeEntry (s : State) (r : Tree) (core holder free : Nat) (e : Entry) : PlaceRes :=
  match e.home with
  | some h => s.placeAgain r e.ped.image core free h
  | none =>
    s.placement r e.ped.image core free (if core = holder then 1 else 2) (if core = holder then 0xFFFF else holder)

/-- The start of an entry waits for a page of its context, and nothing else waits with it (15 R453). -/
def State.entryWaits (s : State) (holder : Nat) (e : Entry) (p : Park) : State :=
  (s.raisePageFault e.ctx (s.ordinalOf e) p).modCore holder (fun c => { c with
    deque := c.deque.map (fun x => if x.id = e.id then { x with waits := some p } else x) })

/-- Start an entry that stands on chip in the deque of `holder`, where its tree's trace lets it. -/
def State.startHeld (s : State) (core holder : Nat) (e : Entry) : State :=
  match s.tree? e.tree with
  | none => s
  | some r =>
    let free := s.freeTaskSlot core
    match s.placeEntry r core holder free e with
    | .wait => s
    | .ends st => s.abortTree e.tree st
    | .pend p => s.entryWaits holder e p
    | .go slot s' =>
      let k := slot.getD free
      if (s.residents core).any (fun t => t.slotD == k) then s
      else match (s'.takeEntry holder e.id).startOn core k e with
        | .ok s => s
        | .pend p => s.entryWaits holder e p
        | .fault => s.abortTree e.tree stREDUCER_FAULT

/-- Start an entry of the deque of `holder`; a spilled one is read back (R327). -/
def State.startFrom (s : State) (core holder : Nat) (e : Entry) : State :=
  match s.readBack e with
  | .ok => s.startHeld core holder { e with spill := none }
  | .ends st => s.abortTree e.tree st
  | .pend p => s.coreWaits core e.ctx (s.ordinalOf e) p

/-- Whether a page that it waits for, a trace, or the slot that it gives, which another task holds, keeps an entry from starting on a core now. -/
def State.heldBack (s : State) (core holder : Nat) (e : Entry) : Bool :=
  if e.waits.isSome then true
  else match s.tree? e.tree with
  | none => false
  | some r =>
    match s.placeEntry r core holder 0 e with
    | .wait => true
    | .go (some k) _ => (s.residents core).any (fun t => t.slotD == k)
    | _ => false

/-- TASK_START (R326): a core that can admit the new-end entry of its deque starts it. Entries that a bound trace holds back leave the core
free for the others (17 R436). -/
def execTaskStart (core : Nat) (s : State) : Host.Outcome State Fault Refusal :=
  .next (if (s.core core).waits.isSome then s else match s.refill core with
    | .pend c tr p => s.coreWaits core c tr p
    | .ok s =>
      match (s.core core).deque.reverse.find? (fun e => !s.heldBack core core e) with
      | none => s
      | some e => if s.canAdmit core e.groups ∧ s.inPartition core e.ctx then s.startFrom core core e else s)

/-- The ring in which a victim stands from a thief (R328). -/
def ringOf (thief victim : Nat) : Nat :=
  if clusterOf thief = clusterOf victim then 0 else if dieOfCore thief = dieOfCore victim then 1 else 2

/-- The oldest entry of a core's deque, where the thief can admit it. -/
def State.stealable (s : State) (thief victim : Nat) : Option Entry :=
  match (s.core victim).deque.find? (fun e => !s.heldBack thief victim e) with
  | some e => if thief ≠ victim ∧ s.canAdmit thief e.groups ∧ s.inPartition thief e.ctx then some e else none
  | none => none

/-- A thief takes the oldest entry of a victim, once the victim's spilled entries have been read back where those on chip are exhausted (R327). -/
def State.stealFrom (s : State) (thief victim : Nat) : State :=
  let c := s.core victim
  if c.deque.length ≤ c.spilled ∧ c.waits.isSome then s
  else match s.refill victim with
    | .pend x tr p => s.coreWaits victim x tr p
    | .ok s => match s.stealable thief victim with
      | none => s
      | some e => s.startFrom thief victim e

/-- STEAL (R328): an idle core starts the oldest entry of a victim in the nearest ring that has one it can admit. -/
def execSteal (thief victim : Nat) (s : State) : Host.Outcome State Fault Refusal :=
  .next (
    if !(s.core thief).deque.isEmpty || !s.canAdmit thief 1 || (s.core thief).waits.isSome then s
    else match s.stealable thief victim with
      | none => s
      | some _ =>
        if s.cores.any (fun p => decide (ringOf thief p.1 < ringOf thief victim) && (s.stealable thief p.1).isSome) then s
        else s.stealFrom thief victim)

/-- Spawn-tree counter of a tree. -/
def State.addCount (s : State) (tree n : Nat) : State := s.modTree tree (fun r => { r with counter := r.counter + n })

end Sys2Proof.Machine
end

