-- ==== Sys2Proof/Machine/Tasks.lean ====
section
/-! DEFINITION. Task instructions, space 0x28, but for ENQ and TEXIT (02 R58; 13 R330 to R352), and the merge and grant steps that
they wait for (08 R197 to R199). -/

namespace Sys2Proof.Machine

/-! ### Spawning -/

/-- The record that a SPAWN names; BAD_TASK where R344 refuses it. -/
def spawnRecord (t : Task) (r : Tree) (rc : Nat) : M TaskRec := do
  if r.ntask ≤ rc then trapNow cBAD_TASK
  if (← get).recordTainted t.entry.ctx r.code rc then throw (.endTree stUNCORRECTED)
  match (← get).readRecord t.entry.ctx r.code rc with
  | .pend p => throw (.park { p with engine := false })
  | .fault => trapNow cBAD_TASK
  | .ok d =>
    if d.sweep || !d.reducers.all (fun x => r.reducers.contains x) then trapNow cBAD_TASK
    pure d

/-- Whether the child rule of R58 refuses n children. -/
def pedigreeLimit (t : Task) (n : Nat) : Bool :=
  decide (0 < n)
  && (decide (31 ≤ t.entry.ped.elems.length)
      || decide (1024 < field t.u.pedpos.toNat 9 0 + b2n t.u.lastUsed + n))

/-- PEDPOS after one child (R58). -/
def Uniform.advance (u : Uniform) : Uniform :=
  if field u.pedpos.toNat 9 0 = 1023 then { u with lastUsed := true } else { u with pedpos := u.pedpos + 1 }

/-- The region that a child receives, and the parent after the carve (08 R202). -/
def Uniform.carveChild (u : Uniform) : (Nat × Nat) × Uniform :=
  if u.lo ≤ u.hi ∧ u.carve ≤ u.hi - u.lo then ((u.hi - u.carve, u.hi), { u with hi := u.hi - u.carve }) else ((u.hi, u.hi), u)

/-- Create one child (R344): s2 and s3 are its rank and lane. A page of a spill area makes the core wait, one of its tree's trace the agent. Its COVCODE is its parent's (DEDUCED, log entry 74). -/
def spawnChild (w : Who) (rc : Nat) (d : TaskRec) (arg groups last rank lane : Nat) : M Unit := do
  match (← get).task? w.task with
  | none => pure ()
  | some t =>
  let s ← get
  let elem := t.u.pedpos.toNat
  let ((lo, hi), u) := t.u.carveChild
  let b32 (v : Nat) : W32 := BitVec.ofNat 32 v
  let b64 (v : Nat) : W64 := BitVec.ofNat 64 v
  let e : Entry :=
    { id := s.nextId, ctx := t.entry.ctx, tree := t.entry.tree, record := rc, rcd := d, groups := groups, last := last,
      ped := { t.entry.ped with elems := t.entry.ped.elems ++ [elem] }, parent := some t.entry.id,
      s := [b64 arg, b64 rank, b64 lane, 0], x := [b32 arg, b32 (arg / 2 ^ 32), b32 rank, b32 lane, 0, 0],
      trapVec := t.trapVec, lo := lo, hi := hi, carve := u.carve, slice := u.slice, cov := t.entry.cov }
  let s := { s with nextId := s.nextId + 1 }
  let s := s.modTask w.task (fun t => { t with
    u := u.advance
    spawned := true
    children := t.children ++ [{ task := e.id, elem := elem }] })
  match (s.addCount t.entry.tree 1).push t.coreD e with
  | .pend c tree p => throw (.hold c tree p)
  | .ok s => match s.checkCreated e.tree e.ped.image with
    | .ok s => set s
    | .pend p => throw (.park p)
    | .fault => set s

/-- GROUPS fields of SPAWN and SPAWNL (R343). -/
def lastCount (n : Nat) : Nat := if n = 0 then 32 else n

/-- Release of a parent before its children start (11 R280). -/
def releasePackage (w : Who) : M Unit := do
  let t ← theTask w
  modify (fun s => s.releaseAt t.cluster 3)

/-- SPAWN (R344). -/
def execSpawn (f : Fields) (s : State) : Host.Outcome State Fault Refusal :=
  issueLive (.spawn f) f (fun w => do
    let t ← theTask w
    let r ← theTree t
    let rc := t.opnd none (shape (.spawn f)).a f.a
    let arg := t.opnd none (shape (.spawn f)).b f.b
    let d ← spawnRecord t r rc
    if pedigreeLimit t 1 then trapNow cPEDIGREE_LIMIT
    releasePackage w
    spawnChild w rc d arg (iField f 3 0 + 1) (lastCount (iField f 9 4)) 0 0
    wrOpnd w (shape (.spawn f)).d f.d t.u.pedpos.toNat) s

/-- Effects that stand only together: where they stop, none stands. -/
def atomically {α : Type} (x : M α) : M α := fun s =>
  match x s with
  | .ok a s' => .ok a s'
  | .error e _ => .error e s

/-- Create the children of a SPAWNL in ascending lane order. -/
def spawnAll (w : Who) (rc : Nat) (d : TaskRec) (arg groups last : Nat) : List (Nat × Nat) → M Unit
  | [] => pure ()
  | (lane, rank) :: rest => do
    spawnChild w rc d arg groups last rank lane
    spawnAll w rc d arg groups last rest

/-- The vote mask of a group at a barrier's last completed phase (R336). -/
def Task.voteMask (t : Task) (n g : Nat) : Nat := field (t.bar n).lastVotes (32 * g + 31) (32 * g)

/-- SPAWNL (R345). -/
def execSpawnl (f : Fields) (s : State) : Host.Outcome State Fault Refusal :=
  issueLive (.spawnl f) f (fun w => do
    let t ← theTask w
    let r ← theTree t
    let rc := t.opnd none (shape (.spawnl f)).a f.a
    let arg := t.opnd none (shape (.spawnl f)).b f.b
    let g := iField f 7 4
    if t.entry.groups ≤ g then trapNow cILLEGAL_OP
    let d ← spawnRecord t r rc
    let lanes := bitsOf 32 (t.voteMask f.c.toNat g)
    if pedigreeLimit t lanes.length then trapNow cPEDIGREE_LIMIT
    releasePackage w
    atomically (spawnAll w rc d arg (iField f 3 0 + 1) (lastCount (iField f 13 8)) lanes.zipIdx)
    wrOpnd w (shape (.spawnl f)).d f.d lanes.length) s

/-! ### Joining -/

/-- The children of a join in the order of their merges (08 R197, R199): by element, at D0 by arrival. -/
def Task.mergeOrder (t : Task) (level : Nat) : List Child :=
  if level = 0 then sortBy (fun a b => decide (a.order ≤ b.order)) (t.children.filter (fun c => c.exited))
  else sortBy (fun a b => decide (a.elem ≤ b.elem)) t.children

/-- MERGE_COMMAND (08 R199): the next child's views are merged into the task's, once they have arrived; before the task's first grant these stand in
the staging area (R197). A staging page that is not present holds it back. While a save waits for room in the area the merges go on, each of them whole. -/
def execMergeCommand (task : Nat) (s : State) : Host.Outcome State Fault Refusal :=
  .next (match s.task? task with
    | none => s
    | some t =>
      let level := match s.tree? t.entry.tree with | some r => r.level | none => 1
      match (t.mergeOrder level)[t.joined]? with
      | none => s
      | some c =>
        if t.resident && (t.join == .sync || t.join == .exitJoin) && c.exited && t.waits.isNone then
          if s.chunksTainted t.entry.ctx ((t.views ++ c.views).flatMap (fun v => v.chunks) ++ t.preChunks) then s.abortTree t.entry.tree stUNCORRECTED
          else match (s.mergeViews t.entry.ctx level t.views c.views).bind (fun p =>
              (p.2.putPreViews t.entry.ctx level p.1 t.preChunks).bind (fun s => .ok (p.1, s))) with
          | .ok (vs, s) =>
            s.modTask task (fun t => { t with
              views := vs
              joined := t.joined + 1
              children := t.children.map (fun x => if x.task = c.task then { x with views := [] } else x) })
          | .pend p => s.taskWaits task p
          | .fault => s.abortTree t.entry.tree stREDUCER_FAULT
        else s)

/-- Wait until every child has completed TEXIT and been merged. -/
def waitJoin (w : Who) : M Unit := do
  let t ← theTask w
  if !t.children.all (fun c => c.exited) || decide (t.joined < t.children.length) then throw .wait

/-- SYNC (R346). -/
def execSync (f : Fields) (s : State) : Host.Outcome State Fault Refusal :=
  issueLive (.sync f) f (fun w => do
    let t ← theTask w
    if t.u.block = 63 then trapNow cPEDIGREE_LIMIT
    modTask w (fun t => { t with join := .sync })
    waitJoin w
    modify (fun s => s.acquireAt t.cluster 3)
    applyNow w (t.bins.filter t.dueBins ++ t.children.flatMap (fun c => c.bins))
    modTask w (fun t => { t with
      bins := t.bins.filter (fun u => !t.dueBins u)
      views := t.views.map (fun v => v.joined t.seq)
      seq := t.seq + 1
      children := []
      join := .none
      joined := 0
      u := { t.u with pedpos := BitVec.ofNat 16 ((t.u.block + 1) * 1024), lastUsed := false } })) s

/-! ### Allotment -/

/-- Registers that a full allotment adds on one lane of the task's core. -/
def Task.laneNeed (t : Task) (lane : Nat) : Nat := t.laneUse lane t.entry.rcd.regs - t.laneUse lane t.allot.regs

/-- Scratch bytes of the full allotment: pigeonholes and views. -/
def State.fullScratch (s : State) (t : Task) : Nat := t.entry.rcd.holes * t.holeBytes + s.viewBytes t

/-- Whether the resources of an ACQUIRE are free (R330). -/
def State.acquireFits (s : State) (t : Task) : Bool :=
  let cl := t.cluster
  let ts := s.tasks.filter (fun x => x.resident && x.cluster == cl)
  (List.range 32).all (fun l => decide (s.laneUsed t.coreD l + t.laneNeed l ≤ 2048))
  && decide ((ts.map (fun x => x.allot.mtiles)).sum + t.entry.rcd.mtiles ≤ 128 + t.allot.mtiles)
  && decide ((ts.map (fun x => x.allot.atiles)).sum + t.entry.rcd.atiles ≤ 32 + t.allot.atiles)
  && decide (s.fullScratch t ≤ s.openFree cl + s.scratchOf t)

/-- Whether a request could not be granted even by an empty cluster (R331). -/
def State.acquireNever (s : State) (t : Task) : Bool :=
  decide (2048 < t.entry.groups * laneRegs t.entry.rcd.regs)
  || decide ((s.cluster t.cluster).allScratch < s.fullScratch t)

/-- The tiles 1 to n of one kind under a new allotment: those held stay, new ones are configured (R154, R347). -/
def growTiles (acc : Bool) (modes : Nat) (old n : Nat) (ts : Sparse Tile) : Sparse Tile :=
  (List.range n).foldl (fun m k =>
    if k < old then m
    else Sparse.put {} m (k + 1) { next := grantedCfg acc modes }) ts

/-- The full allotment is granted (R347). Registers that it adds read as zero (R332). -/
def Task.grant (t : Task) (views : Nat) : Task :=
  let r := t.entry.rcd
  { t with
    allot := { regs := r.regs, mtiles := r.mtiles, atiles := r.atiles, holes := r.holes, views := views, full := true }
    threads := t.threads.map (fun th => { th with x := th.x.filter (fun p => decide (p.1 ≤ t.allot.regs) && decide (p.1 ≤ r.regs)) })
    mtile := growTiles false t.modes.toNat t.allot.mtiles r.mtiles t.mtile
    atile := growTiles true t.modes.toNat t.allot.atiles r.atiles t.atile
    holes := t.holes ++ List.replicate (r.holes - t.holes.length) {}
    preChunks := []
    acquiring := false }

/-- ACQUIRE (R347). -/
def execAcquire (f : Fields) (s : State) : Host.Outcome State Fault Refusal :=
  issueLive (.acquire f) f (fun w => do
    let t ← theTask w
    let s ← get
    if t.allot.full then pure ()
    else
      if s.acquireNever t ∧ !t.acquiring then trapNow cALLOT_NEVER
      if !(s.cluster t.cluster).acq.any (fun a => a.task == w.task) then
        modify (fun s => s.modCluster t.cluster (fun c => { c with acq := c.acq ++ [{ task := w.task, since := s.cycle t.cluster }] }))
        modTask w (fun t => { t with acquiring := true })
      throw .wait) s

/-- The oldest ACQUIRE request of a cluster (R330): ties go to the lower core, then the lower task slot. -/
def State.oldestAcquire (s : State) (cl : Nat) : Option Task :=
  ((s.cluster cl).acq.foldl (fun (best : Option (AcqReq × Task)) a =>
    match s.task? a.task with
    | none => best
    | some t =>
      match best with
      | none => some (a, t)
      | some (b, u) =>
        if a.since < b.since ∨ (a.since = b.since ∧ (t.coreD < u.coreD ∨ (t.coreD = u.coreD ∧ t.slotD < u.slotD)))
        then some (a, t) else best) none).map Prod.snd

/-- ACQUIRE_GRANT (R330): the oldest request of a cluster is granted when its resources are free. The task's views move from the staging area to the
cluster's SRAM (08 R197). -/
def execAcquireGrant (cluster : Nat) (s : State) : Host.Outcome State Fault Refusal :=
  .next (match s.oldestAcquire cluster with
    | none => s
    | some t =>
      if t.waits.isSome then s
      else if s.acquireFits t then
        if s.chunksTainted t.entry.ctx t.preChunks then s.abortTree t.entry.tree stUNCORRECTED
        else match s.readChunks t.entry.ctx t.preChunks with
        | .pend p => s.taskWaits t.entry.id p
        | .fault => s.abortTree t.entry.tree stREDUCER_FAULT
        | .ok () =>
        let n := match s.tree? t.entry.tree with | some r => r.bindings.length | none => 0
        ((s.modTask t.entry.id (fun t => t.grant n)).placeScratch t.entry.id).modCluster cluster (fun c => { c with
          acq := c.acq.filter (fun a => a.task != t.entry.id) })
      else s)


/-- The allotment is lowered (R347, R332): what it removes is lost. -/
def Task.lower (t : Task) (regs m a h : Nat) : Task :=
  let r := t.entry.rcd
  { t with
    allot := { t.allot with
      regs := regs
      mtiles := m
      atiles := a
      holes := h
      full := t.allot.full && regs == r.regs && m == r.mtiles && a == r.atiles && h == r.holes }
    threads := t.threads.map (fun th => { th with x := th.x.filter (fun p => decide (p.1 ≤ regs)) })
    mtile := t.mtile.filter (fun p => decide (p.1 ≤ m))
    atile := t.atile.filter (fun p => decide (p.1 ≤ a))
    holes := t.holes.take h }

/-- Whether RELEASE may lower an allotment to the counts given (R347). -/
def Task.mayLower (t : Task) (regs m a h : Nat) : Bool :=
  regsAllowed regs && decide (regs ≤ t.allot.regs) && decide (m ≤ t.allot.mtiles) && decide (a ≤ t.allot.atiles) && decide (h ≤ t.allot.holes)

/-- RELEASE (R347). -/
def execRelease (f : Fields) (s : State) : Host.Outcome State Fault Refusal :=
  issueLive (.release f) f (fun w => do
    let t ← theTask w
    let regs := iField f 8 0
    let m := iField f 12 9
    let a := iField f 15 13
    let h := iField f 22 16
    if !t.mayLower regs m a h then trapNow cILLEGAL_OP
    if t.inflightAbove m a then throw .wait
    stallUnless w ((t.holes.drop h).all (fun x => (x.state == .empty || x.state == .ready) && x.readers == 0))
    modTask w (fun t => t.lower regs m a h)) s

/-! ### Barriers and the decision queue -/

/-- The vote that a thread's arrival carries. -/
def voteOf (f : Fields) (w : Who) (t : Task) : Bool := w.thread.isSome && (t.agent w.thread).pred (mField f 2 0)

/-- BARA (R348): arrives, after the phase at which the agent has already arrived. -/
def execBara (f : Fields) (s : State) : Host.Outcome State Fault Refusal :=
  issueLive (.bara f) f (fun w => do
    let t ← theTask w
    let n := f.a.toNat
    if (t.bar n).arrived w.thread then throw .wait
    modTask w (fun t => t.arrive w.thread n (voteOf f w t))) s

/-- The part of BARW after its own check: the arrival, the wait, the return. An agent that waits here has arrived; it is no longer
recorded as arrived when its phase has completed. -/
def barWait (f : Fields) (w : Who) : M Unit := do
  let t ← theTask w
  let n := f.a.toNat
  let waited := (t.agent w.thread).waiting
  if (t.bar n).arrived w.thread then throw .wait
  if !waited then modTask w (fun t => t.arrive w.thread n (voteOf f w t))
  if ((← theTask w).bar n).arrived w.thread then throw .wait
  modTask w (fun t => t.barReturn w.thread n)

/-- BARW (R348). -/
def execBarw (f : Fields) (s : State) : Host.Outcome State Fault Refusal :=
  issueLive (.barw f) f (fun w => do
    let g := iField f 3 0
    if w.thread.isNone ∧ (← theTask w).entry.groups ≤ g then trapNow cILLEGAL_OP
    barWait f w
    if w.thread.isNone then wrOpnd w (shape (.barw f)).d f.d ((← theTask w).voteMask f.a.toNat g)) s

/-- DQPUT (R349, R337). -/
def execDqput (f : Fields) (s : State) : Host.Outcome State Fault Refusal :=
  issueLive (.dqput f) f (fun w => do
    let t ← theTask w
    if 16 ≤ t.dq.length then throw .wait
    let v := t.opnd none (shape (.dqput f)).a f.a
    modTask w (fun t => Task.freeDq { t with dq := t.dq ++ [{ value := BitVec.ofNat 64 v, readers := ofBits t.liveThreads }] })) s

/-- DQGET in a thread. -/
def dqgetBody (f : Fields) (w : Who) : M Flow := do
  let t ← theTask w
  let k := w.thread.getD 0
  match t.dq.find? (fun e => bitAt e.readers k) with
  | none => throw .wait
  | some e =>
    wrOpnd w (shape (.dqget f)).d f.d e.value.toNat
    modTask w (fun t =>
      let i := t.dq.idxOf e
      Task.freeDq { t with dq := updAt t.dq i (fun e => { e with readers := clearBit e.readers k }) })
    pure .next

/-- DQGET (R349): a helper receives what the thread of the lowest lane of its quad that took an entry received. -/
def execDqget (f : Fields) (s : State) : Host.Outcome State Fault Refusal :=
  if s.cur.uniform then issue (.dqget f) f (dqgetBody f) none s
  else
    let (s', done) := issueThreads (.dqget f) f (dqgetBody f) s.cur.task s.cur.threads s
    let took (j : Nat) : Bool := match s.task? s.cur.task with | some t => !(t.thread j).ag.block.suppresses | none => false
    .next (issueHelpers (.dqget f) f (some (fun w => do
      match done.find? (fun j => j / 4 == (w.thread.getD 0) / 4 && took j) with
      | none => pure .next
      | some j =>
        let v := (← theTask w).regs (some j) f.d.toNat 2
        wrOpnd w (shape (.dqget f)).d f.d v
        pure .next)) s.cur.task done s')

/-- PEDRD (R352). -/
def execPedrd (f : Fields) (s : State) : Host.Outcome State Fault Refusal :=
  issueLive (.pedrd f) f (fun w => do
    let t ← theTask w
    let i := iField f 5 0
    if 32 < i then trapNow cILLEGAL_OP
    let v := if i = 0 then t.entry.ped.header else if i = 32 then t.u.pedpos.toNat else t.entry.ped.elems.getD (i - 1) 0
    wrOpnd w (shape (.pedrd f)).d f.d v) s

end Sys2Proof.Machine
end

