-- ==== Sys2Proof/Machine/Det.lean ====
section
/-! DEFINITION. Reducers, keyed randomness, allocation and digests, space 0x29 (08 R191 to R215). -/

namespace Sys2Proof.Machine

/-- The view that an instruction names. -/
def theView (w : Who) (f : Fields) : M View := do
  let t ← theTask w
  match t.views.find? (fun v => v.index == f.imm.toNat) with
  | some v => pure v
  | none => trapNow cREG_RANGE

/-- Whether a VUPD of an ATYPE may update a view (R210). -/
def atypeOk (v : View) (atype : Nat) : Bool :=
  match v.kind with
  | 2 => if v.type = 7 then decide (4 ≤ atype) else decide (4 ≤ atype) && decide (atype ≤ 6)
  | 10 => false
  | _ => atype == v.type

/-! ### Updates -/

/-- The ancestors of a task that are in flight, itself first. -/
def State.lineage (s : State) : Nat → Nat → List Nat
  | 0, _ => []
  | n + 1, id =>
    match s.task? id with
    | none => []
    | some t =>
      match t.entry.parent with
      | none => [id]
      | some p => id :: State.lineage s n p

/-- Whether an agent of a task waits for room in its context's staging area. -/
def State.stagingWait (s : State) (t : Task) : Bool :=
  (none :: t.liveThreads.map some).any (fun th =>
    (t.agent th).waiting && match decode (s.insnAt t (t.agent th).pc.toNat) with
      | .vupd _ | .logapp _ => true
      | _ => false)

/-- Whether no child of a task, and no task before it among the siblings of its line, is still to exit: of the running tasks of its tree its views are
the first to merge. -/
def State.mergesFirst (s : State) (t : Task) : Bool :=
  t.children.all (fun c => c.exited) && (s.lineage 33 t.entry.id).all (fun id =>
    match ((s.task? id).bind (fun x => x.entry.parent)).bind s.task? with
    | none => true
    | some p => p.children.all (fun c => c.exited || !p.children.any (fun x => x.task == id && decide (c.elem < x.elem))))

/-- Whether an update leaves the last free chunk to a task whose views merge before (R200, R446; DESIGN CHOICE, log entry 104). -/
def State.leavesChunk (s : State) (t : Task) (level : Nat) (v : View) : Bool :=
  chunked v.kind && level != 0 && decide (v.chunks.length < ceilDiv v.updates.length 42)
  && decide ((s.freeChunks t.entry.ctx).length < 2) && !s.mergesFirst t

/-- Place the entries of a view of a task to which an update has been added. -/
def State.placeUpdate (s : State) (t : Task) (level : Nat) (v : View) : Placed :=
  if s.leavesChunk t level v then .full else s.placeView t.entry.ctx v

/-- Whether a task holds chunks until its first grant that those of `line` keep from it: its request does not fit beside them. -/
def State.grantBlocked (s : State) (line : List Nat) (x : Task) : Bool :=
  (s.cluster x.cluster).acq.any (fun a => a.task == x.entry.id)
  && !({ s with tasks := s.tasks.filter (fun y => y.entry.id == x.entry.id || line.contains y.entry.id) } : State).acquireFits x

/-- Whether a child of a task cannot merge until one of the tasks that wait for room, `waiting`, goes on. `line` holds these and their ancestors:
the task waits itself, in an agent that its join does not come before; or it is suspended, to be restored only when every child has exited; or a child earlier in
merge order is in the line. -/
def Task.childBlocked (t : Task) (level : Nat) (waiting line : List Nat) (c : Nat) : Bool :=
  (waiting.contains t.entry.id && (t.join == .none || t.join == .exit))
  || (!t.resident && t.suspended && t.children.any (fun x => line.contains x.task))
  || (level != 0 && t.children.any (fun x => line.contains x.task && t.children.any (fun y => y.task == c && decide (x.elem < y.elem))))

/-- Whether every staged chunk of a context belongs to views that cannot merge until a task that waits for room goes on (R200). Those that a task holds
before its first grant are free with the grant. -/
def State.stagingDead (s : State) (t : Task) (level : Nat) : Bool :=
  let mine := s.tasks.filter (fun x => x.entry.ctx == t.entry.ctx)
  let waiting := t.entry.id :: (mine.filter (fun x => s.stagingWait x)).map (fun x => x.entry.id)
  let line := waiting.flatMap (s.lineage 33)
  let trees := (mine.filter (fun x => waiting.contains x.entry.id)).map (fun x => x.entry.tree)
  let holds (vs : List View) : Bool := vs.any (fun v => !v.chunks.isEmpty)
  mine.all (fun x =>
    (x.preChunks.isEmpty || line.contains x.entry.id || s.grantBlocked line x)
    && (!holds x.views || line.contains x.entry.id
      || (match x.entry.parent.bind s.task? with
          | some p => p.childBlocked level waiting line x.entry.id
          | none => trees.contains x.entry.tree))
    && (x.mergeChunks.isEmpty || (x.suspended && x.children.any (fun c => line.contains c.task)))
    && x.children.all (fun c => !holds c.views || x.childBlocked level waiting line c.task))
  && (s.trees.filter (fun r => r.ctx == t.entry.ctx)).all (fun r => !r.tops.any (fun c => holds c.views) || trees.contains r.id)

/-- Apply an update of an agent to a view with its key (R195), and advance the agent's count. A CAT or LOG that finds the
staging area full waits, or ends the tree (R200); one that would take the last chunk leaves it to a task before it. -/
def applyUpdate (w : Who) (v : View) (atype value digest : Nat) : M Unit := do
  let t ← theTask w
  let r ← theTree t
  let a := t.agent w.thread
  let n := Sparse.get 0 a.counts v.index
  let u : Update :=
    { seq := t.seq, source := (match w.thread with | none => .uniform | some k => .thread k), strand := t.strand w.thread,
      rank := b2n w.thread.isSome, group := w.thread.getD 0 / 32, lane := w.thread.getD 0 % 32, count := n, atype := atype,
      value := value, digest := digest }
  match (← get).placeUpdate t r.level { v with updates := v.updates ++ [u] } with
  | .full => if ((← get).freeChunks t.entry.ctx).isEmpty && (← get).stagingDead t r.level then throw (.endTree stLOG_STAGING) else throw .wait
  | .pend p => throw (.park p)
  | .fault => throw (.endTree stREDUCER_FAULT)
  | .ok v' s =>
    set s
    modTask w (fun t => { t with views := t.views.map (fun x => if x.index = v'.index then v' else x), seq := t.seq + 1 })
    modAgent w (fun a => { a with counts := Sparse.put 0 a.counts v.index (n + 1) })

/-- VUPD (R210): an update of a reducer other than a LOG. -/
def execVupd (f : Fields) (s : State) : Host.Outcome State Fault Refusal :=
  issueLive (.vupd f) f (fun w => do
    let v ← theView w f
    let atype := mField f 2 0
    if !atypeOk v atype then trapNow cBAD_REDUCER
    let x := trunc (← rdOpnd w (shape (.vupd f)).a f.a) (redBits atype)
    applyUpdate w v atype x 0) s

/-- LOGAPP (R212): an entry of a LOG, with the digest of its appender's pedigree. -/
def execLogapp (f : Fields) (s : State) : Host.Outcome State Fault Refusal :=
  issueLive (.logapp f) f (fun w => do
    let v ← theView w f
    if v.kind ≠ 10 then trapNow cBAD_REDUCER
    let x ← rdOpnd w (shape (.logapp f)).a f.a
    applyUpdate w v 3 x (← theTask w).entry.ped.digest) s

/-- Whether an agent's VREAD sees an update (R211). -/
def Update.visible (u : Update) (t : Task) (th : Option Nat) : Bool :=
  match th with
  | none =>
    match u.source with
    | .uniform | .child => true
    | .thread k => decide (u.seq < Sparse.get 0 t.u.published k)
    | .merging => false
  | some k =>
    match (t.thread k).phase with
    | none => false
    | some p =>
      match u.source with
      | .uniform | .child => decide (u.seq < p.uCut)
      | .thread j => decide (u.seq < Sparse.get 0 p.cuts j)
      | .merging => false

/-- VREAD (R211). -/
def execVread (f : Fields) (s : State) : Host.Outcome State Fault Refusal :=
  issueLane (.vread f) f (fun w => do
    let v ← theView w f
    let t ← theTask w
    let r ← theTree t
    if mField f 2 0 ≠ (if 9 ≤ v.kind then 3 else v.type) then trapNow cBAD_REDUCER
    wrOpnd w (shape (.vread f)).d f.d
      (foldUpdates r.level v.kind v.type (v.updates.filter (fun u => u.visible t w.thread)))) s

/-! ### Randomness, allocation, digests -/

/-- RAND (R213). -/
def execRand (f : Fields) (s : State) : Host.Outcome State Fault Refusal :=
  issueLane (.rand f) f (fun w => do
    let t ← theTask w
    let r ← theTree t
    let sh := shape (.rand f)
    let key := if mBit f 1 then t.opnd w.thread sh.c f.c else r.seed.toNat ^^^ 0x6B8D2F47A1C3E59B
    let k := w.thread.getD 0
    let top := 0x52440000 + 0x200 * b2n w.thread.isNone + 0x20 * (k / 32) + k % 32
    let ctr := if mBit f 0 then t.opnd w.thread sh.a f.a
               else t.entry.ped.digest + t.opnd w.thread sh.b f.b % 2 ^ 32 * 2 ^ 64 + top * 2 ^ 96
    wrOpnd w sh.d f.d (km key ctr)) s

/-- ALLOC (R214): from the thread's slice or the uniform cursor. -/
def execAlloc (f : Fields) (s : State) : Host.Outcome State Fault Refusal :=
  issueLive (.alloc f) f (fun w => do
    let t ← theTask w
    let size := t.opnd w.thread (shape (.alloc f)).a f.a
    let (cur, top) := match w.thread with
      | some k => ((t.thread k).cursor, (t.thread k).sliceEnd)
      | none => (t.u.lo, t.u.hi)
    let a := roundUp cur (2 ^ iField f 3 0)
    let n := roundUp size 16
    if 2 ^ 32 ≤ size ∨ top < a + n then trapNow cALLOC_EXHAUSTED
    wrOpnd w (shape (.alloc f)).d f.d a
    modTask w (fun t => match w.thread with
      | some k => t.modThread k (fun x => { x with cursor := a + n })
      | none => { t with u := { t.u with lo := a + n } })) s

/-- ALLOC.cfg (R214): the carve and slice sizes of children spawned after it. -/
def execAllocCfg (f : Fields) (s : State) : Host.Outcome State Fault Refusal :=
  issueLive (.allocCfg f) f (fun w => do
    let t ← theTask w
    let c := t.opnd none (shape (.allocCfg f)).a f.a
    let l := t.opnd none (shape (.allocCfg f)).b f.b
    modTask w (fun t => { t with u := { t.u with carve := c, slice := l } })) s

/-- The digest of a pedigree image of 64 bytes (R215). -/
def imageDigest (bs : List Byte) : Nat :=
  let hdr := leField bs 0 2
  digest hdr ((List.range (hdr % 32)).map (fun j => leField bs (2 * j + 2) 2))

/-- PEDDG in an agent or a helper. -/
def peddgBody (f : Fields) (w : Who) : M Unit := do
  let t ← theTask w
  let v ← (match mField f 1 0 with
    | 0 => pure t.entry.ped.digest
    | 1 => pure (t.entry.ped.strandDigest (w.thread.map (fun k => (t.thread k).marker)) t.u.pedpos.toNat)
    | _ => do
      let a := t.opnd w.thread (shape (.peddg f)).a f.a
      if !canonicalVa a || a % 64 != 0 then trapAddr cMEM_FAULT a
      let bs ← loadVa (Acc.ofTask t w.thread) a 64
      pure (imageDigest bs) : M Nat)
  wrOpnd w (shape (.peddg f)).d f.d v

/-- PEDDG (R215). -/
def execPeddg (f : Fields) (s : State) : Host.Outcome State Fault Refusal :=
  issueHeld (.peddg f) f (seq (peddgBody f)) (seq (peddgBody f)) s

end Sys2Proof.Machine
end

