-- ==== Sys2Proof/Machine/Cover.lean ====
section
/-! DEFINITION. Partial coverage and reconstruction, space 0x2B (09 R219 to R239). -/

namespace Sys2Proof.Machine

/-! ### Tiles, bands and points -/

/-- Tiles of a sweep along each axis, and its bands (R219). -/
def Tree.nxt (r : Tree) : Nat := ceilDiv r.ex (max r.rcd.tx 1)
def Tree.nyt (r : Tree) : Nat := ceilDiv r.ey (max r.rcd.ty 1)
def Tree.nzt (r : Tree) : Nat := ceilDiv r.ez (max r.rcd.tz 1)
def Tree.numBands (r : Tree) : Nat := r.nyt * r.nzt
/-- Band of a tile. -/
def Tree.bandOf (r : Tree) (tile : Nat) : Nat := tile / max r.nxt 1

/-- A point of the iteration space. -/
structure Point where
  x : Nat
  y : Nat
  z : Nat
  deriving DecidableEq, Repr, Inhabited

/-- First point of a tile. -/
def Tree.corner (r : Tree) (tile : Nat) : Point :=
  { x := tile % max r.nxt 1 * r.rcd.tx
    y := tile / max r.nxt 1 % max r.nyt 1 * r.rcd.ty
    z := tile / max r.nxt 1 / max r.nyt 1 * r.rcd.tz }

/-- Whether a point lies in a tile and inside the extents. -/
def Tree.inTile (r : Tree) (tile : Nat) (p : Point) : Bool :=
  let c := r.corner tile
  decide (c.x ≤ p.x) && decide (p.x < c.x + r.rcd.tx) && decide (c.y ≤ p.y) && decide (p.y < c.y + r.rcd.ty)
  && decide (c.z ≤ p.z) && decide (p.z < c.z + r.rcd.tz) && decide (p.x < r.ex) && decide (p.y < r.ey) && decide (p.z < r.ez)

/-- The points of a tile inside the extents, x fastest, then y, then z. A reconstruction visits them in this order, a DESIGN CHOICE (log entry 89). -/
def Tree.points (r : Tree) (tile : Nat) : List Point :=
  let c := r.corner tile
  ((List.range r.rcd.tz).flatMap (fun k => (List.range r.rcd.ty).flatMap (fun j => (List.range r.rcd.tx).map (fun i =>
    ({ x := c.x + i, y := c.y + j, z := c.z + k } : Point))))).filter (fun p => r.inTile tile p)

/-- The threshold matrix and the row sequence (R224). -/
def threshold (x y : Nat) : Nat :=
  ((List.range 4).map (fun k =>
    (match bitAt x k, bitAt y k with
      | false, false => 0
      | true, false => 2
      | false, true => 3
      | true, true => 1) * 4 ^ (3 - k))).sum
def rowRank (i : Nat) : Nat := ((List.range 4).map (fun k => b2n (bitAt i k) * 2 ^ (3 - k))).sum

/-- Whether a point is covered under a lattice and a code (R224). -/
def covered (lattice c : Nat) (p : Point) : Bool :=
  match lattice with
  | 0 => decide (threshold (p.x % 16) (p.y % 16) ≤ c)
  | 1 => decide (16 * rowRank (p.y % 16) ≤ c)
  | 2 => decide (16 * rowRank (p.x % 16) ≤ c)
  | _ => decide (threshold (p.x / 2 % 16) (p.y % 16) ≤ c)

/-- The point at distance d in a direction: lower x, higher x, lower y, higher y. -/
def Point.toward (p : Point) (dir d : Nat) : Option Point :=
  match dir with
  | 0 => if d ≤ p.x then some { p with x := p.x - d } else none
  | 1 => some { p with x := p.x + d }
  | 2 => if d ≤ p.y then some { p with y := p.y - d } else none
  | _ => some { p with y := p.y + d }

/-- The neighbours of a point with their distances (R225, R227). -/
def Tree.neighbours (r : Tree) (tile lattice c : Nat) (p : Point) : List (Point × Nat) :=
  (List.range 4).filterMap (fun dir => (List.range 8).findSome? (fun d =>
    match p.toward dir (d + 1) with
    | some q => if r.inTile tile q && covered lattice c q then some (q, d + 1) else none
    | none => none))

/-- Classes of a point (R225), and a point outside. -/
inductive PointClass where
  | covered | orphan | probe | filled | outside
  deriving DecidableEq, Repr, Inhabited

/-- Whether a point is selected as a probe (R226). -/
def selected (p : Point) : Bool :=
  km 0x3C6EF372FE94F82B (p.x + p.y * 2 ^ 32 + p.z * 2 ^ 64 + 0x434F5052 * 2 ^ 96) % 64 == 0

/-- The class of a point of a tile under a code. -/
def Tree.classOf (r : Tree) (tile c : Nat) (p : Point) : PointClass :=
  if !r.inTile tile p then .outside
  else match r.cov with
    | none => .covered
    | some d =>
      if covered d.lattice c p then .covered
      else if (r.neighbours tile d.lattice c p).isEmpty then .orphan
      else if selected p then .probe
      else .filled

/-- The word of CVQRY (R236). -/
def PointClass.word (k : PointClass) : Nat :=
  match k with
  | .covered => 0x03
  | .orphan => 0x05
  | .probe => 0x09
  | .filled => 0x00
  | .outside => 0x10

/-! ### Kernels -/

/-- Bytes of an element (R222). -/
def elemBytes (etype : Nat) : Nat :=
  match etype with
  | 1 | 2 => 2
  | 3 => 8
  | 6 => 1
  | _ => 4
/-- Floating type of an element. -/
def elemFp (etype : Nat) : FpType :=
  match etype with
  | 1 => .fp16
  | 2 => .bf16
  | 3 => .fp64
  | _ => .fp32

/-- Address of an element (R221), modulo 2^64. -/
def Coverage.addr (d : Coverage) (p : Point) : Nat :=
  (d.base + p.x * elemBytes d.etype + p.y * d.rowPitch + p.z * d.planePitch) % 2 ^ 64

/-- The weighted average of neighbours' values with their distances (R227). -/
def weightedAverage (ty : FpType) (vs : List (Nat × Nat)) : Nat :=
  let f := FpType.fp32.fmt
  let num := vs.foldl (fun (n : FVal) v =>
    let u := roundTo f (ty.decode v.1) .nearestEven
    roundTo f (n.add .nearestEven (FVal.mul (.fin false (840 / v.2) 0) u)) .nearestEven) (.fin false 0 0)
  let wsum := (vs.map (fun v => 840 / v.2)).sum
  let q := fdivRound f .nearestEven num (.fin false wsum 0)
  ty.encode (roundTo ty.fmt q .nearestEven)

/-- The value of the nearest neighbour; of those equally near, the one at the lowest address. -/
def nearestValue (vs : List (Nat × Nat × Nat)) : Nat :=
  ((vs.foldl (fun (best : Option (Nat × Nat × Nat)) v =>
    match best with
    | none => some v
    | some b => if v.2.1 < b.2.1 ∨ (v.2.1 = b.2.1 ∧ v.2.2 < b.2.2) then some v else best) none).map (fun v => v.1)).getD 0

/-- The value that most neighbours hold; on equal counts, the smallest. -/
def majorityValue (vs : List Nat) : Nat :=
  let count (v : Nat) : Nat := (vs.filter (fun x => x == v)).length
  (vs.foldl (fun (best : Option Nat) v =>
    match best with
    | none => some v
    | some b => if count b < count v ∨ (count b = count v ∧ v < b) then some v else best) none).getD 0

/-- rec(p) from the neighbours' values, distances and addresses (R227). -/
def kernel (etype : Nat) (vs : List (Nat × Nat × Nat)) : Nat :=
  if etype ≤ 3 then weightedAverage (elemFp etype) (vs.map (fun v => (v.1, v.2.1)))
  else if etype ≤ 5 then nearestValue vs
  else majorityValue (vs.map (fun v => v.1))

/-- Err(v, r) (R231). -/
def sampleError (etype : Nat) (es : Int) (v r : Nat) : Nat :=
  let e := if etype ≤ 3 then
      let a := (elemFp etype).decode v
      let b := (elemFp etype).decode r
      if a = .nan ∧ b = .nan then 0
      else match a.add .nearestEven b.neg with
        | .fin _ m e => shiftNat m (e + es)
        | _ => if a = b then 0 else 2 ^ 32 - 1
    else if 6 ≤ etype then (if v = r then 0 else shiftNat 1 es)
    else
      let d := if etype = 4 then signExt v 32 - signExt r 32 else (v : Int) - (r : Int)
      shiftNat d.natAbs es
  min e (2 ^ 32 - 1)

/-! ### Reconstruction -/

/-- The access of a sweep's reads and writes of the result array: relaxed, TASK scope, the agent's strand (R228). -/
def sweepAcc (t : Task) (th : Option Nat) (live : Bool) : Acc := { Acc.ofTask t th with checked := live }

/-- Read one element. -/
def readElem (a : Acc) (d : Coverage) (p : Point) : M Nat := do
  let va := d.addr p
  if !canonicalVa va then trapAddr cMEM_FAULT va
  return ofLE (← loadVa a va (elemBytes d.etype))

/-- rec(p), with the neighbours' values read from the result array. -/
def recPoint (a : Acc) (r : Tree) (d : Coverage) (tile c : Nat) (p : Point) : M Nat := do
  let vs ← (r.neighbours tile d.lattice c p).mapM (fun n => do
    let v ← readElem a d n.1
    pure (v, n.2, d.addr n.1))
  pure (kernel d.etype vs)

/-- The task's coverage sums with one sample more (R229). -/
def Uniform.sample (u : Uniform) (e : Nat) : Uniform :=
  { u with covN := min (u.covN + 1) (2 ^ 32 - 1), covS := min (u.covS + e) (2 ^ 64 - 1) }

/-- Store rec(p) at every filled point of a list. -/
def reconFill (a : Acc) (r : Tree) (d : Coverage) (tile c : Nat) : List Point → M Unit
  | [] => pure ()
  | p :: ps => do
    if r.classOf tile c p = .filled then
      let v ← recPoint a r d tile c p
      if !canonicalVa (d.addr p) then trapAddr cMEM_FAULT (d.addr p)
      storeVa a (d.addr p) (leBytes (elemBytes d.etype) v)
    reconFill a r d tile c ps

/-- The errors of the probe points of a list. -/
def reconErrors (a : Acc) (r : Tree) (d : Coverage) (tile c : Nat) : List Point → M (List Nat)
  | [] => pure []
  | p :: ps => do
    if r.classOf tile c p = .probe then
      let v ← recPoint a r d tile c p
      let x ← readElem a d p
      let es ← reconErrors a r d tile c ps
      pure (sampleError d.etype d.es x v :: es)
    else reconErrors a r d tile c ps

/-- Store rec(p) at every filled point of a list, then give the errors of its probe points where they are wanted (R229). -/
def reconPoints (a : Acc) (r : Tree) (d : Coverage) (tile c : Nat) (probes : Bool) (ps : List Point) : M (List Nat) := do
  reconFill a r d tile c ps
  if probes then reconErrors a r d tile c ps else pure []

/-- The reconstruction of a sweep task (R229, R230): the filled points are stored, then the probes are sampled at the first reconstruction. Its sums
change when it is complete. -/
def reconstruct (w : Who) : M Unit := do
  let t ← theTask w
  let r ← theTree t
  match r.cov, t.entry.tile with
  | some d, some tile =>
    let es ← reconPoints (sweepAcc t none true) r d tile t.entry.cov (!t.u.covDone && !d.errMode) (r.points tile)
    modTask w (fun t => { t with u := { es.foldl Uniform.sample t.u with covDone := true } })
  | _, _ => pure ()

/-- ILLEGAL_OP in a task that is no sweep task (R235). -/
def sweepTask (w : Who) : M (Task × Tree × Nat) := do
  let t ← theTask w
  let r ← theTree t
  match t.entry.tile with
  | some tile => pure (t, r, tile)
  | none => trapNow cILLEGAL_OP

/-- The point that A, B and C name. -/
def namedPoint (t : Task) (w : Who) (sh : Shape) (f : Fields) : Point :=
  { x := t.opnd w.thread sh.a f.a % 2 ^ 32, y := t.opnd w.thread sh.b f.b % 2 ^ 32, z := t.opnd w.thread sh.c f.c % 2 ^ 32 }

/-- CVQRY (R236): the class of a point. -/
def execCvqry (f : Fields) (s : State) : Host.Outcome State Fault Refusal :=
  issueLane (.cvqry f) f (fun w => do
    let (t, r, tile) ← sweepTask w
    let sh := shape (.cvqry f)
    wrOpnd w sh.d f.d (r.classOf tile t.entry.cov (namedPoint t w sh f)).word) s

/-- CVQRY.band (R236): the state of a band. -/
def execCvqryBand (f : Fields) (s : State) : Host.Outcome State Fault Refusal :=
  issueLive (.cvqryBand f) f (fun w => do
    let (t, r, _) ← sweepTask w
    let sh := shape (.cvqryBand f)
    let v := match r.bands[t.opnd none sh.a f.a]? with
      | none => 0
      | some b => (b.code.getD 0) % 256 + 2 ^ 8 * b2n b.code.isSome + 2 ^ 9 * b2n b.complete
    wrOpnd w sh.d f.d v) s

/-- CVPROBE (R237): rec(p) of a probe or filled point. The pair of ETYPE 3 is part of the instruction's shape (`Task.shapeOf`). -/
def cvprobeBody (f : Fields) (live : Bool) (w : Who) : M Flow := do
  let (t, r, tile) ← sweepTask w
  match r.cov with
  | none => pure .next
  | some d =>
    let p := namedPoint t w (shape (.cvprobe f)) f
    match r.classOf tile t.entry.cov p with
    | .probe | .filled =>
      let v ← recPoint (sweepAcc t w.thread live) r d tile t.entry.cov p
      modTask w (fun t => t.setRegs w.thread f.d.toNat (if d.etype = 3 then 2 else 1) v)
      pure .next
    | _ => pure .next

/-- CVPROBE (R237). -/
def execCvprobe (f : Fields) (s : State) : Host.Outcome State Fault Refusal :=
  issueHeld (.cvprobe f) f (cvprobeBody f true) (cvprobeBody f false) s

/-- RECON (R239). -/
def execRecon (f : Fields) (s : State) : Host.Outcome State Fault Refusal :=
  issueLive (.recon f) f (fun w => do
    discard (sweepTask w)
    reconstruct w) s

/-- CVERR (R238): one sample more in the task's sums. -/
def execCverr (f : Fields) (s : State) : Host.Outcome State Fault Refusal :=
  issueLive (.cverr f) f (fun w => do
    let (t, r, _) ← sweepTask w
    let e := t.opnd w.thread (shape (.cverr f)).a f.a
    if r.cov.isSome then modTask w (fun t => { t with u := t.u.sample e })) s

/-! ### The controller (R232, R234) -/

/-- The code that the controller gives two bands on. -/
def nextCode (d : Coverage) (cb n s : Nat) : Nat :=
  let c : Int :=
    if n = 0 then cb
    else
      let e := s / n
      let diff := if d.target ≤ e then e - d.target else d.target - e
      let m := min (d.gain * diff / (16 * max d.target 1)) d.stepMax
      if d.target < e then (cb : Int) + m else (cb : Int) - m
  (min (max c d.cmin) d.cmax).toNat

/-- A task of a band has exited with its sums; a band whose last task has exited is complete, and decides the code of the band
two on. -/
def Tree.bandExit (r : Tree) (b n s : Nat) : Tree :=
  let bs := updAt r.bands b (fun x => { x with
    n := min (x.n + n) (2 ^ 32 - 1)
    s := min (x.s + s) (2 ^ 64 - 1)
    left := x.left - 1
    complete := decide (x.left ≤ 1) })
  let x := bs.getD b {}
  if !x.complete then { r with bands := bs }
  else match r.cov with
    | none => { r with bands := bs }
    | some d => { r with bands := updAt bs (b + 2) (fun y => { y with code := some (nextCode d (x.code.getD 0) x.n x.s) }) }

/-- The band record entry (R234). -/
def Band.entry (b : Band) : List Byte := leBytes 1 (b.code.getD 0) ++ leBytes 3 0 ++ leBytes 4 b.n ++ leBytes 8 b.s

/-- Write the record of a band of a tree, where its descriptor asks for records (R234). -/
def State.writeBand (s : State) (r : Tree) (b : Nat) : CpRes State :=
  match (r.cov.map (fun d => d.record)).getD 0 with
  | 0 => .ok s
  | a => s.cpWrite r.ctx (a + 16 * b) (r.bands.getD b {}).entry

/-- Write the record that a tree's completion owes (13 R322, step 3). -/
def State.writeDue (s : State) (r : Tree) : CpRes State :=
  match r.due with
  | none => .ok s
  | some b => s.writeBand r b

/-- Whether the tree is complete with the exit of one more task (13 R322). -/
def Tree.lastExit (r : Tree) : Bool := r.counter == 1 && decide (r.tiles ≤ r.walker)

/-- Band bookkeeping of a sweep task's exit: its record is written at the band's update instant; at the instant at which the tree is complete, in
its place among the steps of R322. -/
def exitBand (w : Who) : M Unit := do
  let t ← theTask w
  let r ← theTree t
  match t.entry.tile with
  | none => pure ()
  | some tile =>
    let b := r.bandOf tile
    let r' := r.bandExit b t.u.covN t.u.covS
    if (r'.bands.getD b {}).complete && !r.lastExit then
      match (← get).writeBand r' b with
      | .ok s => set s
      | .pend p => throw (.park p)
      | .fault => throw (.endTree stREDUCER_FAULT)
    modify (fun s => s.modTree r.id (fun q => { q with bands := r'.bands, due := if r.lastExit then some b else none }))

end Sys2Proof.Machine
end

