-- ==== Sys2Proof/Machine/Exit.lean ====
section
/-! DEFINITION. The end of a task and the launch of a packet by a task: TEXIT and ENQ (13 R350, R351). -/

namespace Sys2Proof.Machine

/-! ### TEXIT -/

/-- Everything a task passes on at its exit: its views, its own pending bin updates and those of its children (08 R197, 12 R314). -/
def Task.passed (t : Task) (order : Nat) : Child :=
  { task := t.entry.id, elem := t.entry.tile.getD 0, exited := true, order := order, views := t.views,
    bins := t.bins ++ t.children.flatMap (fun c => c.bins) }

/-- Give what a task passes to its parent's join, or to its tree where it has no parent. -/
def State.passUp (s : State) (t : Task) : State :=
  match t.entry.parent with
  | some p => s.modTask p (fun x =>
      let n := (x.children.filter (fun c => c.exited)).length
      { x with children := x.children.map (fun c => if c.task = t.entry.id then { t.passed n with elem := c.elem } else c) })
  | none => s.modTree t.entry.tree (fun r => { r with tops := r.tops ++ [t.passed r.tops.length] })

/-- The implicit join of TEXIT begins once: a repeated TEXIT does not merge again what has been merged. -/
def beginJoin (w : Who) : M Unit := modTask w (fun t => { t with join := .exitJoin })

/-- TEXIT (R351). -/
def texitBody (w : Who) : M Flow := do
  modTask w (fun t => { t with join := if t.join = .exitJoin then .exitJoin else .exit })
  modTask w (fun t => t.completeBarriers)
  let t ← theTask w
  if !t.liveThreads.isEmpty then throw .wait
  exitBatches w
  if !(← theTask w).q4.isEmpty then throw .wait
  reportMatrix w
  let t ← theTask w
  if !(← get).gatherIdle t then throw .wait
  beginJoin w
  waitJoin w
  modify (fun s => s.acquireAt t.cluster 3)
  let t ← theTask w
  if t.entry.tile.isSome ∧ !t.u.covDone then reconstruct w
  exitBand w
  modify (fun s => s.releaseAt t.cluster 3)
  let t ← theTask w
  modify (fun s => ((s.passUp t).endTask t).modTree t.entry.tree (fun r => { r with counter := r.counter - 1 }))
  pure .done

/-- TEXIT (R351). -/
def execTexit (f : Fields) (s : State) : Host.Outcome State Fault Refusal :=
  issue (.texit f) f texitBody none s

/-! ### ENQ -/

/-- A queue descriptor (15 R378). -/
structure QueueDesc where
  ring : Nat
  logsize : Nat
  flags : Nat
  write : Nat
  read : Nat
  status : Nat
  ok : Bool
  deriving DecidableEq, Repr, Inhabited

/-- A queue descriptor from its 64 bytes; `ok` says whether it keeps R378. -/
def queueDesc (d : List Byte) : QueueDesc :=
  { ring := leField d 0 8
    logsize := leField d 8 1
    flags := leField d 9 1
    write := leField d 16 8
    read := leField d 24 8
    status := leField d 32 8
    ok := leField d 0 8 % 128 == 0 && decide (4 ≤ leField d 8 1) && decide (leField d 8 1 ≤ 16) && decide (leField d 9 1 ≤ 3)
      && leField d 10 6 == 0 && leField d 40 24 == 0 }

def QueueDesc.enabled (q : QueueDesc) : Bool := bitAt q.flags 0
def QueueDesc.devenq (q : QueueDesc) : Bool := bitAt q.flags 1
/-- Address of packet n, and of its status record. -/
def QueueDesc.packetAt (q : QueueDesc) (n : Nat) : Nat := q.ring + 128 * (n % 2 ^ q.logsize)
def QueueDesc.statusAt (q : QueueDesc) (n : Nat) : Nat := q.status + 16 * (n % 2 ^ q.logsize)

/-- A queue of a context as the command processor holds it. -/
def Ctx.queue (c : Ctx) (q : Nat) : Queue := Sparse.get {} c.queues q
def State.modQueue (s : State) (ctx q : Nat) (f : Queue → Queue) : State :=
  s.modCtx ctx (fun c => { c with queues := Sparse.modify {} c.queues q f })

/-- ENQ (R350): 1 where the queue is full, else the packet is appended and the command processor is told of it. -/
def enqBody (f : Fields) (w : Who) : M Unit := do
  let t ← theTask w
  let c ← theCtx t
  let sh := shape (.enq f)
  let q := t.opnd none sh.a f.a
  let p := t.opnd none sh.b f.b
  if p % 64 ≠ 0 ∨ !canonicalVa p ∨ !canonicalVa (p + 127) then trapAddr cMEM_FAULT p
  if c.nQueues ≤ q then trapNow cBAD_QUEUE
  let direct : Acc := { Acc.ofTask t none with scope := 3 }
  let d := queueDesc (← loadVa direct (c.queueTab + 64 * q) 64)
  if !d.enabled || !d.devenq then trapNow cBAD_QUEUE
  let bytes ← loadVa (Acc.ofTask t none) p 128
  modTask w (fun t => { t with enqueued := true })
  modify (fun s => s.releaseAt t.cluster 3)
  if 2 ^ d.logsize ≤ d.write - d.read then wrOpnd w sh.d f.d 1
  else
    storeVa direct (d.packetAt d.write) bytes
    match (← get).cpWrite t.entry.ctx (c.queueTab + 64 * q + 16) (leBytes 8 (d.write + 1)) with
    | .ok s => set (s.modQueue t.entry.ctx q (fun x => { x with doorbell := max x.doorbell (d.write + 1), dead := false }))
    | .pend p => throw (.park { p with engine := false })
    | .fault => trapAddr cMEM_FAULT (c.queueTab + 64 * q + 16)
    wrOpnd w sh.d f.d 0

/-- ENQ (R350). -/
def execEnq (f : Fields) (s : State) : Host.Outcome State Fault Refusal :=
  issueLive (.enq f) f (enqBody f) s

end Sys2Proof.Machine
end

