-- ==== Sys2Proof/Machine/Exchange.lean ====
section
/-! DEFINITION. Quad and group exchange, space 0x04 (02 R42, R43; 06 R148 to R153). -/

namespace Sys2Proof.Machine

/-- Let threads wait at their instruction. -/
def State.waitAll (s : State) (task : Nat) (ks : List Nat) : State :=
  ks.foldl (fun s k => s.modAgent { task := task, thread := some k } (fun a => { a with waiting := true })) s

/-- Whether the checks of an instruction pass in a thread, and whether a block suppresses it. -/
def passes (i : Instr) (f : Fields) (t : Task) (k : Nat) : Option Bool :=
  match check i f t (some k) with
  | .ok sup => some sup
  | _ => none

/-- Issue an exchange to the members of one quad or group (R42, R148). It takes place when every live thread of the unit is a
member and none of them traps; every source is read before a destination is written. The value of a thread is computed from
the task as it was and the participants. -/
def exchangeUnit (i : Instr) (f : Fields) (val : Task → List Nat → Nat → Nat) (task : Nat) (live members : List Nat) (s : State) : State :=
  match s.task? task with
  | none => s
  | some t =>
    if !live.all (fun k => members.contains k) then s.waitAll task members
    else
      let bad := members.filter (fun k => (passes i f t k).isNone)
      if !bad.isEmpty then
        let s := (issueThreads i f (fun _ => pure .next) task bad s).1
        s.waitAll task (members.filter (fun k => !bad.contains k))
      else
        let part := members.filter (fun k => passes i f t k == some false)
        let body (w : Who) : M Flow := do
          wrOpnd w (shape i).d f.d (val t part (w.thread.getD 0))
          pure .next
        let (s', done) := issueThreads i f body task members s
        issueHelpers i f (some body) task done s'

/-- Issue an exchange to a bundle: n is 4 for the quads and 32 for the groups. -/
def exchange (i : Instr) (f : Fields) (n : Nat) (val : Task → List Nat → Nat → Nat) (s : State) : Host.Outcome State Fault Refusal :=
  if s.cur.uniform then issue i f (fun _ => pure .next) none s
  else
    match s.task? s.cur.task with
    | none => .next s
    | some t =>
      let ks := s.cur.threads.filter (fun k => t.canIssue k)
      .next (((ks.map (fun k => k / n)).eraseDups).foldl (fun s u =>
        exchangeUnit i f val s.cur.task (t.liveThreads.filter (fun k => k / n == u)) (ks.filter (fun k => k / n == u)) s) s)

/-- A of a thread. -/
def Task.exA (t : Task) (i : Instr) (f : Fields) (k : Nat) : Nat := t.opnd (some k) (shape i).a f.a
/-- SEL (R149). -/
def exSel (f : Fields) : Nat := mField f 1 0
/-- Width of a value. -/
def exW (f : Fields) : Nat := if mBit f 7 then 64 else 32
def exFp (f : Fields) : FpType := if mBit f 7 then .fp64 else .fp32

/-- Bitwise exclusive or of small numbers. -/
def laneXor (a b : Nat) : Nat := a ^^^ b

/-- The lane of PART that GSHFL reads (R151), or the thread's own. -/
def shflLane (sel lane k : Nat) (part : List Nat) : Nat :=
  let j : Option Nat := match sel with
    | 0 => some k
    | 1 => if k ≤ lane then some (lane - k) else none
    | 2 => some (lane + k)
    | _ => some (laneXor lane k)
  match j with
  | some j => if j < 32 ∧ part.any (fun p => p % 32 == j) then j else lane
  | none => lane

/-- Two values combined under OP (R152); 8, the exact sum, is `laSum`. -/
def redOp (op w : Nat) (ty : FpType) (a b : Nat) : Nat :=
  match op with
  | 0 => trunc (a + b) w
  | 1 => if signExt a w ≤ signExt b w then a else b
  | 2 => if signExt a w ≤ signExt b w then b else a
  | 3 => min a b
  | 4 => max a b
  | 5 => a &&& b
  | 6 => a ||| b
  | 7 => a ^^^ b
  | 9 => fminmax ty false false a b
  | _ => fminmax ty true false a b

/-- The identity of OP (R152). -/
def redIdent (op w : Nat) (ty : FpType) : Nat :=
  match op with
  | 1 => 2 ^ (w - 1) - 1
  | 2 => 2 ^ (w - 1)
  | 3 | 5 => 2 ^ w - 1
  | 9 => ty.encode (.inf false)
  | 10 => ty.encode (.inf true)
  | _ => 0

/-- The exact sum of floating values, read with nearest even (R152). -/
def laSum (wide : Bool) (ty : FpType) (vs : List Nat) : Nat :=
  (vs.foldl (fun (acc : LongAcc) v => acc.add wide (ty.decode v)) {}).read wide ty

/-- The fold of OP over values; the identity where there are none. -/
def redFold (op w : Nat) (ty : FpType) (vs : List Nat) : Nat :=
  if op = 8 then laSum (w == 64) ty vs
  else match vs with
    | [] => redIdent op w ty
    | v :: rest => rest.foldl (redOp op w ty) v

/-- QSWAP (R150): A of lane L xor SEL. -/
def execQswap (f : Fields) (s : State) : Host.Outcome State Fault Refusal :=
  exchange (.qswap f) f 4 (fun t _ k => t.exA (.qswap f) f (laneXor k (exSel f))) s

/-- QBCAST (R150): A of lane SEL of the quad. -/
def execQbcast (f : Fields) (s : State) : Host.Outcome State Fault Refusal :=
  exchange (.qbcast f) f 4 (fun t _ k => t.exA (.qbcast f) f (k / 4 * 4 + exSel f)) s

/-- GSHFL (R151): A of the participant on the lane selected, else the thread's own. -/
def execGshfl (f : Fields) (s : State) : Host.Outcome State Fault Refusal :=
  exchange (.gshfl f) f 32 (fun t part k =>
    let n := t.opnd (some k) (shape (.gshfl f)).b f.b % 32
    t.exA (.gshfl f) f (k / 32 * 32 + shflLane (exSel f) (k % 32) n part)) s

/-- GVOTE (R151): all, any or the ballot of the participants' predicate. -/
def execGvote (f : Fields) (s : State) : Host.Outcome State Fault Refusal :=
  exchange (.gvote f) f 32 (fun t part _ =>
    let on (k : Nat) : Bool := t.exA (.gvote f) f k == 1
    match exSel f with
    | 0 => b2n (part.all on)
    | 1 => b2n (part.any on)
    | _ => ofBits ((part.filter on).map (fun k => k % 32))) s

/-- GRED (R152): the fold over the participants. -/
def execGred (f : Fields) (s : State) : Host.Outcome State Fault Refusal :=
  exchange (.gred f) f 32 (fun t part _ => redFold (mField f 3 0) (exW f) (exFp f) (part.map (t.exA (.gred f) f))) s

/-- GSCAN (R152): the fold over the participants up to, or below, the thread's lane. -/
def execGscan (f : Fields) (s : State) : Host.Outcome State Fault Refusal :=
  exchange (.gscan f) f 32 (fun t part k =>
    let below := part.filter (fun j => if mBit f 4 then decide (j < k) else decide (j ≤ k))
    redFold (mField f 3 0) (exW f) (exFp f) (below.map (t.exA (.gscan f) f))) s

/-- GMATCH (R153): the lanes of the participants that hold the bits of the thread's own A. -/
def execGmatch (f : Fields) (s : State) : Host.Outcome State Fault Refusal :=
  exchange (.gmatch f) f 32 (fun t part k =>
    ofBits ((part.filter (fun j => t.exA (.gmatch f) f j == t.exA (.gmatch f) f k)).map (fun j => j % 32))) s

end Sys2Proof.Machine
end

