-- ==== Sys2Proof/Machine/Expand.lean ====
section
/-! DEFINITION. The expand unit, space 0x2A (14 R354 to R369). An arrived thread is one that waits at its instruction. -/

namespace Sys2Proof.Machine

/-! ### Expansions -/

/-- The open expansion of a thread's group. -/
def Task.expansion (t : Task) (k : Nat) : Option Expansion := t.expans.find? (fun e => e.covers k)
/-- Change the expansion at a base group. -/
def Task.modExpansion (t : Task) (base : Nat) (f : Expansion → Expansion) : Task :=
  { t with expans := t.expans.map (fun e => if e.base = base then f e else e) }

/-- Deal-set width W, and the rank of a lane (R356). -/
def Expansion.width (e : Expansion) : Nat := popCount 128 e.dealer
def Expansion.rank (e : Expansion) (o : Nat) : Nat := popCount o e.dealer
/-- Groups of the deal set. -/
def Expansion.groups (e : Expansion) : Nat := 2 ^ e.logn
/-- Length of an owner's range (R359). -/
def Expansion.len (e : Expansion) (o : Nat) : Nat :=
  (if o + 1 < 32 * e.groups then Sparse.get 0 e.pref (o + 1) else e.total) - Sparse.get 0 e.pref o
/-- Owner of an iteration, and its inner index (R359, R360). -/
def Expansion.owner (e : Expansion) (g : Nat) : Nat :=
  ((List.range (32 * e.groups)).find? (fun o =>
    decide (Sparse.get 0 e.pref o ≤ g) && decide (g < Sparse.get 0 e.pref o + e.len o))).getD 0
def Expansion.inner (e : Expansion) (g : Nat) : Nat :=
  trunc (Sparse.get 0 e.start (e.owner g) + g - Sparse.get 0 e.pref (e.owner g)) 32
/-- The iteration that a dealer was dealt last. -/
def Expansion.current (e : Expansion) (o : Nat) : Nat := (e.round - 1) * e.width + e.rank o

/-- Width of the values, and their floating type (R358). -/
def xBits (d64 : Bool) : Nat := if d64 then 64 else 32
def xFp (d64 : Bool) : FpType := if d64 then .fp64 else .fp32

/-- One fold step (R358): `.fadd` rounds each time. -/
def xFold (op : Nat) (d64 : Bool) (acc v : Nat) : Nat :=
  let ty := xFp d64
  if op = 8 then ty.encode (roundTo ty.fmt ((ty.decode acc).add .nearestEven (ty.decode v)) .nearestEven)
  else redOp op (xBits d64) ty acc v

/-- Fold the values held, in ascending rank (R360, R363). -/
def Expansion.foldHeld (e : Expansion) : Expansion :=
  let acc := (bitsOf 128 e.hasVal).foldl (fun m o =>
    let w := e.owner (e.current o)
    Sparse.put 0 m w (xFold e.op e.d64 (Sparse.get 0 m w) (Sparse.get 0 e.val o))) e.acc
  { e with acc := acc, hasVal := 0, val := [] }

/-- What a dealer receives in a round: owner and inner index, or nothing left (R360). -/
def Expansion.deal (e : Expansion) (o : Nat) : Option (Nat × Nat) :=
  let g := e.round * e.width + e.rank o
  if e.total ≤ g then none else some (e.owner g, e.inner g)

/-- The expansion after a round has been dealt to the arrived dealers; in those given, XDEAL is suppressed. The count
of rounds does not wrap, and an image holds its low 32 bits, a DESIGN CHOICE (log entry 93). -/
def Expansion.nextRound (e : Expansion) (suppressed : List Nat) : Expansion :=
  let e' := e.foldHeld
  let got := (bitsOf 128 e.arrived).filter (fun o => !suppressed.contains o)
  { e' with
    round := e.round + 1
    arrived := 0
    cur := got.foldl (fun m o => if (e.deal o).isSome then setBit m o else m) e.cur
    done := got.foldl (fun m o => if (e.deal o).isNone then setBit m o else m) e.done }

/-- The 3,200-byte image of an expansion (R367). -/
def Expansion.header (e : Expansion) : Nat :=
  e.base + 16 * e.logn + 64 * e.op + 2 ^ 10 * b2n e.d64 + 2 ^ 11 + 2 ^ 12 * e.width + 2 ^ 32 * e.total
def Expansion.image (e : Expansion) : List Byte :=
  let lanes (n : Nat) (m : Sparse Nat) : List Byte := (List.range 128).flatMap (fun o => leBytes n (Sparse.get 0 m o))
  leBytes 8 e.header ++ leBytes 4 e.round ++ leBytes 4 0 ++ leBytes 16 e.dealer ++ leBytes 16 e.arrived ++ leBytes 16 e.done
    ++ leBytes 16 e.hasVal ++ leBytes 16 e.cur ++ lanes 4 e.start ++ lanes 4 e.pref ++ lanes 8 e.acc ++ lanes 8 e.val
    ++ List.replicate 32 0

/-! ### Arriving and passing -/

/-- The instruction at a thread's program counter. -/
def State.instrAt (s : State) (t : Task) (k : Nat) : Instr := decode (s.insnAt t (t.thread k).ag.pc.toNat)

/-- A thread has arrived at an instruction that satisfies a test. -/
def State.arrivedAt (s : State) (t : Task) (p : Instr → Bool) (k : Nat) : Bool :=
  (t.thread k).ag.waiting && t.canIssue k && p (s.instrAt t k)

def isXset (i : Instr) : Bool := match i with | .xset _ => true | _ => false
def isXend (i : Instr) : Bool := match i with | .xend _ => true | _ => false

/-- Fields of an instruction. -/
def fieldsIn (i : Instr) : Fields := (i.fields?).getD default

/-- An arrived thread goes on past its instruction. -/
def State.passThread (s : State) (t : Task) (k : Nat) : State :=
  let i := s.instrAt t k
  s.retire { task := t.entry.id, thread := some k } .next (decide (0 < (t.thread k).ag.block.left))
    (openWindow (shape i) (fieldsIn i) (t.thread k).ag.pc.toNat false)

/-- Arrived threads go on, and the helpers of their quads with them; `body` is what a helper does at an instruction. -/
def State.passAll (s : State) (t : Task) (ks : List Nat) (body : Instr → Option (Who → M Flow)) : State :=
  let s' := ks.foldl (fun s k => s.passThread t k) s
  (t.helpersOf ks).foldl (fun s' h =>
    match ks.find? (fun k => k / 4 == h / 4) with
    | none => s'
    | some k => issueHelper (s.instrAt t k) (fieldsIn (s.instrAt t k)) (body (s.instrAt t k)) { task := t.entry.id, thread := some h } s') s'

/-- Trap arrived threads. -/
def State.trapAll (s : State) (t : Task) (ks : List Nat) (cause : Nat) : State :=
  ks.foldl (fun s k =>
    let pc := (t.thread k).ag.pc.toNat
    s.takeTrap { task := t.entry.id, thread := some k } pc (s.insnAt t pc) { cause := cause }) s

/-- Whether an arrived thread's instruction is suppressed. -/
def Task.suppressed (t : Task) (k : Nat) : Bool := (t.thread k).ag.block.suppresses

/-- Bring one thread to a set-wide instruction: its checks, then `arrive`, which may trap. A suppressed instruction arrives too where
`stays` holds, and else goes on at once. -/
def arriveThread (i : Instr) (f : Fields) (stays : Task → Bool) (arrive : Who → Bool → M Flow) (w : Who) (s : State) : State :=
  match s.task? w.task with
  | none => s
  | some t =>
    match check i f t w.thread with
    | .ok true => if stays t then (s.conclude i f t w (arrive w true s)).1 else (issueAgent i f (fun _ => pure .next) w s).1
    | _ => (issueAgent i f (fun w => arrive w false) w s).1

/-- A set-wide instruction of a bundle: each thread arrives, then what is complete for it takes place. A thread that went on at once takes
the helpers of its quad with it. -/
def setWide (i : Instr) (f : Fields) (stays : Nat → Task → Bool) (arrive : Who → Bool → M Flow) (complete : Nat → State → State)
    (body : Instr → Option (Who → M Flow)) (s : State) : Host.Outcome State Fault Refusal :=
  if s.cur.uniform then issue i f (fun _ => pure .next) none s
  else
    let id := s.cur.task
    let ks := match s.task? id with | some t => s.cur.threads.filter (fun k => t.canIssue k) | none => []
    let s' := ks.foldl (fun s k => arriveThread i f (stays k) arrive { task := id, thread := some k } s) s
    let went := match s.task? id, s'.task? id with
      | some t, some t' => ks.filter (fun k => t'.canIssue k && (t'.thread k).ag.pc != (t.thread k).ag.pc)
      | _, _ => []
    let s'' := match s'.task? id with
      | none => s'
      | some t' => (t'.helpersOf went).foldl (fun s h => issueHelper i f (body i) { task := id, thread := some h } s) s'
    .next (ks.foldl (fun s k => complete k s) s'')

/-! ### XSET -/

/-- Fields of XSET. -/
def xOp (f : Fields) : Nat := mField f 3 0
def xLogn (f : Fields) : Nat := mField f 5 4
def xD64 (f : Fields) : Bool := mBit f 7
/-- Base group of a thread's deal set (R354). -/
def xBase (f : Fields) (k : Nat) : Nat := k / 32 / 2 ^ xLogn f * 2 ^ xLogn f

/-- The expansion that the participants open (R359). -/
def openExpansion (f : Fields) (base : Nat) (part : List (Nat × Nat × Nat)) : Expansion :=
  let len (o : Nat) : Nat := ((part.find? (fun p => p.1 == o)).map (fun p => p.2.2)).getD 0
  let pre (o : Nat) : Nat := ((part.filter (fun p => decide (p.1 < o))).map (fun p => p.2.2)).sum
  let n := 32 * 2 ^ xLogn f
  { base := base
    logn := xLogn f
    op := xOp f
    d64 := xD64 f
    total := ((List.range n).map len).sum
    dealer := ofBits (part.map (fun p => p.1))
    start := part.foldl (fun m p => Sparse.put 0 m p.1 p.2.1) []
    pref := (List.range n).foldl (fun m o => Sparse.put 0 m o (pre o)) []
    acc := (List.range 128).foldl (fun m o => Sparse.put 0 m o (redIdent (xOp f) (xBits (xD64 f)) (xFp (xD64 f)))) [] }

/-- The XSET of a deal set takes place once every live thread of it has arrived at one (R359). -/
def completeXset (f : Fields) (task k : Nat) (s : State) : State :=
  match s.task? task with
  | none => s
  | some t =>
    let base := xBase f k
    let n := 2 ^ xLogn f
    let live := t.liveThreads.filter (fun j => decide (base ≤ j / 32) && decide (j / 32 < base + n))
    if !live.contains k || !live.all (s.arrivedAt t isXset) then s
    else
      let part := live.filter (fun j => !t.suppressed j)
      let rest := live.filter (fun j => t.suppressed j)
      let fs (j : Nat) : Fields := fieldsIn (s.instrAt t j)
      let start (j : Nat) : Nat := t.opnd (some j) (shape (.xset (fs j))).a (fs j).a
      let len (j : Nat) : Nat := t.opnd (some j) (shape (.xset (fs j))).b (fs j).b
      if part.isEmpty then s.passAll t live (fun _ => none)
      else if !part.contains k then s
      else if part.any (fun j => (fs j).mod != f.mod) || (List.range n).any (fun d => (t.expansion (32 * (base + d))).isSome) then
        (s.trapAll t part cEXPAND_STATE).passAll t rest (fun _ => none)
      else if 2 ^ 32 ≤ (part.map len).sum then (s.trapAll t part cEXPAND_RANGE).passAll t rest (fun _ => none)
      else
        let e := openExpansion f base (part.map (fun j => (j - 32 * base, start j, len j)))
        (s.modTask task (fun t => { t with expans := sortBy (fun a b => decide (a.base ≤ b.base)) (e :: t.expans) })).passAll t live
          (fun _ => none)

/-- XSET (R359). Groups that the task has not are refused before it arrives (`entryIllegal`). -/
def execXset (f : Fields) (s : State) : Host.Outcome State Fault Refusal :=
  setWide (.xset f) f (fun _ _ => true) (fun _ _ =>
      throw .wait)
    (completeXset f s.cur.task) (fun _ => none) s

/-! ### XDEAL -/

/-- What an XDEAL writes in a thread that receives nothing. -/
def dealNone (f : Fields) (w : Who) : M Flow := do
  wrOpnd w (shape (.xdeal f)).d f.d 0xFFFFFFFF
  wrOpnd w (shape (.xdeal f)).c f.c 0
  pure .next

/-- A helper at XDEAL writes as a thread that is no dealer. -/
def xdealHelper (i : Instr) : Option (Who → M Flow) :=
  match i with
  | .xdeal f => some (dealNone f)
  | _ => none

/-- Whether a thread is a dealer that is not done. -/
def Task.deals (t : Task) (k : Nat) : Bool :=
  match t.expansion k with
  | some e => bitAt e.dealer (e.lane k) && !bitAt e.done (e.lane k)
  | none => false

/-- Write what a dealer was dealt. -/
def Task.writeDeal (t : Task) (k : Nat) (f : Fields) (r : Option (Nat × Nat)) : Task :=
  let sh := shape (.xdeal f)
  (t.setOpnd (some k) sh.d f.d (match r with | some (o, i) => o + 2 ^ 32 * i | none => 0xFFFFFFFF)).setOpnd (some k) sh.c f.c
    (b2n r.isSome)

/-- A round completes once every live dealer that is not done has arrived (R360). -/
def completeXdeal (task k : Nat) (s : State) : State :=
  match s.task? task with
  | none => s
  | some t =>
    match t.expansion k with
    | none => s
    | some e =>
      let lanes := t.liveThreads.filter (fun j => e.covers j)
      let waitsFor := lanes.filter (fun j => bitAt e.dealer (e.lane j) && !bitAt e.done (e.lane j))
      if !bitAt e.arrived (e.lane k) || !waitsFor.all (fun j => bitAt e.arrived (e.lane j)) then s
      else
        let arr := lanes.filter (fun j => bitAt e.arrived (e.lane j))
        let sup := arr.filter (fun j => t.suppressed j)
        let s' := s.modTask task (fun t =>
          let t := t.modExpansion e.base (fun e => e.nextRound (sup.map e.lane))
          (arr.filter (fun j => !sup.contains j)).foldl (fun t j => t.writeDeal j (fieldsIn (s.instrAt t j)) (e.deal (e.lane j))) t)
        s'.passAll t arr xdealHelper

/-- XDEAL (R360). -/
def execXdeal (f : Fields) (s : State) : Host.Outcome State Fault Refusal :=
  setWide (.xdeal f) f (fun k t => t.deals k) (fun w _ => do
      let t ← theTask w
      let k := w.thread.getD 0
      match t.expansion k with
      | none => trapNow cEXPAND_STATE
      | some e =>
        if !t.deals k then dealNone f w
        else
          modTask w (fun t => t.modExpansion e.base (fun e => { e with
            cur := clearBit e.cur (e.lane k)
            arrived := setBit e.arrived (e.lane k) }))
          throw .wait)
    (completeXdeal s.cur.task) xdealHelper s

/-! ### XRED, XEND, XQRY -/

/-- XRED (R362): a value to fold for the current iteration. -/
def execXred (f : Fields) (s : State) : Host.Outcome State Fault Refusal :=
  issueLive (.xred f) f (fun w => do
    let t ← theTask w
    let k := w.thread.getD 0
    match t.expansion k with
    | none => trapNow cEXPAND_STATE
    | some e =>
      let o := e.lane k
      if mField f 3 0 ≠ e.op ∨ mBit f 7 ≠ e.d64 ∨ !bitAt e.cur o ∨ bitAt e.hasVal o then trapNow cEXPAND_STATE
      let v := t.opnd w.thread (shape (.xred f)).a f.a
      modTask w (fun t => t.modExpansion e.base (fun e => { e with
        val := Sparse.put 0 e.val o v
        hasVal := setBit e.hasVal o }))) s

/-- The XEND of an expansion takes place once every live thread of its groups has arrived at one (R363). -/
def completeXend (task k : Nat) (s : State) : State :=
  match s.task? task with
  | none => s
  | some t =>
    match t.expansion k with
    | none => s
    | some e =>
      let live := t.liveThreads.filter (fun j => e.covers j)
      if !live.all (s.arrivedAt t isXend) then s
      else
        let e' := e.foldHeld
        let owners := live.filter (fun j => bitAt e.dealer (e.lane j) && !t.suppressed j)
        let s' := s.modTask task (fun t =>
          let t := { t with expans := t.expans.filter (fun x => x.base != e.base) }
          owners.foldl (fun t j =>
            let g := (fieldsIn (s.instrAt t j))
            t.setOpnd (some j) (shape (.xend g)).d g.d (Sparse.get 0 e'.acc (e.lane j))) t)
        s'.passAll t live (fun _ => none)

/-- XEND (R363). -/
def execXend (f : Fields) (s : State) : Host.Outcome State Fault Refusal :=
  setWide (.xend f) f (fun k t => (t.expansion k).isSome) (fun w sup => do
      let t ← theTask w
      let k := w.thread.getD 0
      match t.expansion k with
      | none => trapNow cEXPAND_STATE
      | some e =>
        if !sup ∧ mBit f 7 ≠ e.d64 then trapNow cEXPAND_STATE
        modTask w (fun t => t.modExpansion e.base (fun e => { e with
          done := if bitAt e.dealer (e.lane k) then setBit e.done (e.lane k) else e.done
          cur := clearBit e.cur (e.lane k) }))
        throw .wait)
    (completeXend s.cur.task) (fun _ => none) s

/-- The value of XQRY (R364) for a deal-set lane. -/
def Expansion.query (e : Expansion) (sel o acc : Nat) : Nat :=
  match sel with
  | 0 => e.header
  | 1 => e.round
  | 2 =>
    let cur := bitAt e.cur o
    let g := e.current o
    (if bitAt e.dealer o then e.rank o else Config.rankOfOthers e.dealer o) % 128
      + 2 ^ 7 * b2n (bitAt e.dealer o) + 2 ^ 8 * b2n (bitAt e.done o) + 2 ^ 9 * b2n (bitAt e.arrived o)
      + 2 ^ 10 * b2n (bitAt e.hasVal o) + 2 ^ 11 * b2n cur
      + (if cur then 2 ^ 12 * e.owner g + 2 ^ 32 * e.inner g else 0)
  | _ => Sparse.get 0 e.acc acc

/-- XQRY (R364). -/
def execXqry (f : Fields) (s : State) : Host.Outcome State Fault Refusal :=
  issueLane (.xqry f) f (fun w => do
    let t ← theTask w
    let g := match w.thread with | some k => k / 32 | none => iField f 19 16
    let v := match t.expansion (32 * g) with
      | none => 0
      | some e => e.query (iField f 3 0) (e.lane (w.thread.getD 0)) (iField f 14 8)
    wrOpnd w (shape (.xqry f)).d f.d v) s

/-- XSTATE (R365). -/
def Task.xstate (t : Task) : Nat :=
  ofBits (idxWhere 16 (fun g => t.expans.any (fun e => e.covers (32 * g)))) + 2 ^ 16 * ofBits (t.expans.map (fun e => e.base))

end Sys2Proof.Machine
end

