-- ==== Sys2Proof/Machine/Matrix.lean ====
section
/-! DEFINITION. Matrix instructions, space 0x20, and the matrix engine (07 R158 to R186; 11 R287). -/

namespace Sys2Proof.Machine

/-! ### Issue -/

/-- TSEL, LOC, V, SC, ORD (R166). -/
def tSel (f : Fields) : Bool := mBit f 7
def tLoc (f : Fields) : Bool := mBit f 6
def tVer (f : Fields) : Bool := mBit f 5
def tSc (f : Fields) : Bool := mBit f 4
def tStride (f : Fields) : Nat := iField f 19 0

/-- The format word that SF names (R165). -/
def formatWord (w : Who) (f : Fields) : M Nat := do
  let t ← theTask w
  pure (if sField f = 0 then t.fmtDef.toNat else t.reg none (sField f) % 2 ^ 32)

/-- The configuration that the next command captures for a tile; index 0 names no tile. -/
def Task.nextCfg (t : Task) (acc : Bool) (n : BitVec 9) : TileCfg := (t.tile acc n.toNat).next

/-- MEM_FAULT unless ranges are canonical and the base aligned (R161). -/
def needRange (base align : Nat) (rs : List (Int × Nat)) : M Unit := do
  match rs.findSome? (fun r => badByte r.1 r.2) with
  | some b => trapAddr cMEM_FAULT (truncInt b 64)
  | none => if base % align ≠ 0 then trapAddr cMEM_FAULT base

/-- Whether a command of a task stands in the reservation table of its cluster (R164). -/
def State.tabled (s : State) (t : Task) (c : Cmd) : Bool := (s.cluster t.cluster).table.contains (t.entry.id, c.ord)

/-- The head of a task's q4 as the arbiter sees it: its first command that has not entered the reservation table (R164). -/
def State.q4Head (s : State) (t : Task) : Option Cmd := t.q4.find? (fun c => !s.tabled t c)

/-- The command that becomes the head notes the cycle (R164). -/
def State.startMatrix (s : State) (task : Nat) : State :=
  match s.task? task with
  | none => s
  | some t =>
    match s.q4Head t with
    | none => s
    | some c =>
      let now := s.cycle t.cluster
      s.modTask task (fun t => { t with q4 := t.q4.map (fun x =>
        if x.ord = c.ord ∧ x.headSince = none then { x with headSince := some now } else x) })

/-- A matrix command enters q4 (R158); q4 holds 16, and a stochastic conversion takes a conversion ordinal (R185). -/
def enqueueMatrix (w : Who) (i : Instr) (c : Cmd) (stochastic : Bool) : M Unit := do
  let t ← theTask w
  let cmd := { c with word := (encode i).getD 0, ord := t.u.mcmdOrd.toNat, conv := t.u.mconvOrd.toNat, strand := t.strand none }
  modTask w (fun t => { t with
    q4 := t.q4 ++ [cmd]
    u := { t.u with mcmdOrd := t.u.mcmdOrd + 1, mconvOrd := if stochastic then t.u.mconvOrd + 1 else t.u.mconvOrd } })
  modify (fun s => s.startMatrix w.task)

/-- Wait while q4 is full. -/
def matrixRoom (w : Who) : M Unit := do
  if 16 ≤ (← theTask w).q4.length then throw .wait

/-- Wait, as a stall, for a source or destination pigeonhole of a matrix command (R160): a source is read without a transition
at issue, and counted as read (10 R252). -/
def matrixHole (w : Who) (h : BitVec 9) (dest : Bool) : M Unit := if dest then fillHole w h.toNat else readHole w h.toNat

/-- TILE_SHAPE unless a byte extent fits the pigeonhole (R160). -/
def needExtent (w : Who) (n : Nat) : M Unit := do
  if (← theTask w).holeBytes < n then trapNow cTILE_SHAPE

/-- TCFG (R167). -/
def execTcfg (f : Fields) (s : State) : Host.Outcome State Fault Refusal :=
  issueLive (.tcfg f) f (fun w => do
    let t ← theTask w
    let ovt := match mField f 6 5 with | 0 => false | 1 => true | _ => bitAt t.modes.toNat 1
    let cfg : TileCfg := { rows := iField f 4 0 + 1, cols := iField f 10 5 + 1, width := 2 ^ iField f 12 11, ovt := tSel f && ovt }
    if !cfg.ok (tSel f) then trapNow cTILE_SHAPE
    matrixRoom w
    modTask w (fun t => t.modTile (tSel f) f.d.toNat (fun x => { x with next := cfg }))
    enqueueMatrix w (.tcfg f) { cfgD := cfg } false) s

/-- The stride in bytes, and the ranges of the rows. -/
def strideOf (f : Fields) (row : Nat) : Nat := if tStride f = 0 then row else tStride f
def rowRanges (base : Int) (stride row rows : Nat) : List (Int × Nat) := (List.range rows).map (fun r => (base + (r * stride : Nat), row))
/-- Bytes from the base to the end of the last row. -/
def rowExtent (stride row rows : Nat) : Nat := (rows - 1) * stride + row

/-- Checks and capture that TLD and TST share (R161, R166, R169). `mem` is the memory base, `tileN` the tile. One that finds q4 full and its pigeonhole
not in the state needed waits for q4 first (R160; a DESIGN CHOICE, log entry 99). -/
def tileMove (w : Who) (i : Instr) (f : Fields) (tileN holeN : BitVec 9) (mem : Nat) (store : Bool) : M Unit := do
  let t ← theTask w
  let cfg := t.nextCfg (tSel f) tileN
  let fw ← formatWord w f
  let sa := if xField f = 0 then 0 else t.reg none (xField f)
  let row := cfg.rowBytes
  let stride := strideOf f row
  if store ∧ stride < row then trapNow cTILE_SHAPE
  let scBytes := cfg.rows * cfg.blocks
  if tLoc f then
    needExtent w (if tSc f then cfg.rows * stride + scBytes else rowExtent stride row cfg.rows)
    -- the rows themselves end within the extent as well
    needExtent w (rowExtent stride row cfg.rows)
  else if tVer f then
    needRange mem 64 [(signExt mem 64, 64 + cfg.rows * row + (if store ∧ tSc f then scBytes else 0))]
  else
    needRange mem cfg.width ((signExt mem 64, rowExtent stride row cfg.rows) :: (if tSc f then [(signExt sa 64, scBytes)] else []))
  matrixRoom w
  if tLoc f then matrixHole w holeN store
  enqueueMatrix w i { (if store then { cfgA := cfg } else { cfgD := cfg } : Cmd) with fw := fw, maddr := mem, saddr := sa } false

/-- TLD (R169, R171). -/
def execTld (f : Fields) (s : State) : Host.Outcome State Fault Refusal :=
  issueLive (.tld f) f (fun w => do
    let mem ← capture w (shape (.tld f)).a f.a
    tileMove w (.tld f) f f.d f.a mem false) s

/-- TST (R169, R172). -/
def execTst (f : Fields) (s : State) : Host.Outcome State Fault Refusal :=
  issueLive (.tst f) f (fun w => do
    let mem ← capture w (shape (.tst f)).d f.d
    tileMove w (.tst f) f f.a f.d mem true) s

/-- TZERO (R168). -/
def execTzero (f : Fields) (s : State) : Host.Outcome State Fault Refusal :=
  issueLive (.tzero f) f (fun w => do
    let t ← theTask w
    matrixRoom w
    enqueueMatrix w (.tzero f) { cfgD := t.nextCfg (tSel f) f.d } false) s

/-- TREL (R168). -/
def execTrel (f : Fields) (s : State) : Host.Outcome State Fault Refusal :=
  issueLive (.trel f) f (fun w => do
    let t ← theTask w
    matrixRoom w
    enqueueMatrix w (.trel f) { cfgD := t.nextCfg (tSel f) f.d } false) s

/-- K of an MMA: the columns of A and B, 0 where both are m0 (R173). -/
def mmaK (f : Fields) (a b : TileCfg) : Nat := if f.a = 0 ∧ f.b = 0 then 0 else if f.a = 0 then b.cols else a.cols

/-- The shapes of R173; m0 and a0 take what the others require. -/
def mmaShapeOk (f : Fields) (fmt : Nat) (d a b c : TileCfg) : Bool :=
  let w := mmaWidth fmt
  let cw := (mmaAcc fmt).bits / 8
  let m0 (n : BitVec 9) (x : Bool) : Bool := n == 0 || x
  m0 f.a (a.width == w && a.rows == d.rows) && m0 f.b (b.width == w && b.rows == d.cols) && d.width == cw
  && (f.a == 0 || f.b == 0 || a.cols == b.cols)
  && m0 f.c (c.width == cw && c.rows == d.rows && c.cols == d.cols)

/-- Checks and capture of MMA and MMAS. -/
def mmaIssue (w : Who) (i : Instr) (f : Fields) (bitmaps : List W64) : M Unit := do
  let t ← theTask w
  let fw ← formatWord w f
  if !fwValid true fw || fwRnd fw != 0 || fwSat fw then trapNow cBAD_FORMAT
  let d := t.nextCfg true f.d
  let a := t.nextCfg false f.a
  let b := t.nextCfg false f.b
  let c := t.nextCfg true f.c
  if !mmaShapeOk f (fwFmt fw) d a b c then trapNow cTILE_SHAPE
  matrixRoom w
  enqueueMatrix w i { cfgD := d, cfgA := a, cfgB := b, cfgC := c, fw := fw, bitmaps := bitmaps } false

/-- MMA (R173). -/
def execMma (f : Fields) (s : State) : Host.Outcome State Fault Refusal :=
  issueLive (.mma f) f (fun w => mmaIssue w (.mma f) f []) s

/-- MMAS (R178). -/
def execMmas (f : Fields) (s : State) : Host.Outcome State Fault Refusal :=
  issueLive (.mmas f) f (fun w => do
    let t ← theTask w
    mmaIssue w (.mmas f) f ((List.range 8).map (fun k => BitVec.ofNat 64 (t.reg none (xField f + k))))) s

/-- TCVT (R181). -/
def execTcvt (f : Fields) (s : State) : Host.Outcome State Fault Refusal :=
  issueLive (.tcvt f) f (fun w => do
    let t ← theTask w
    let fw ← formatWord w f
    if !fwValid false fw then trapNow cBAD_FORMAT
    let d := t.nextCfg false f.d
    let a := t.nextCfg true f.a
    if d.width ≠ mmaWidth (fwFmt fw) ∨ d.rows ≠ a.rows ∨ d.cols ≠ a.cols then trapNow cTILE_SHAPE
    matrixRoom w
    enqueueMatrix w (.tcvt f) { cfgD := d, cfgA := a, fw := fw } (fwRnd fw == 5)) s

/-- Checks and capture of ACCRD and ACCWR (R182, R183). -/
def accMove (w : Who) (i : Instr) (f : Fields) (tileN holeN : BitVec 9) (mem : Nat) (store : Bool) : M Unit := do
  let t ← theTask w
  let fw ← formatWord w f
  if !fwValid false fw || decide (3 < fwFmt fw) || (!store && fwRnd fw == 5) then trapNow cBAD_FORMAT
  let cfg := t.nextCfg true tileN
  let row := cfg.cols * mmaWidth (fwFmt fw)
  let stride := strideOf f row
  if store ∧ stride < row then trapNow cTILE_SHAPE
  if tLoc f then needExtent w (rowExtent stride row cfg.rows)
  else needRange mem (mmaWidth (fwFmt fw)) [(signExt mem 64, rowExtent stride row cfg.rows)]
  matrixRoom w
  if tLoc f then matrixHole w holeN store
  enqueueMatrix w i { (if store then { cfgA := cfg } else { cfgD := cfg } : Cmd) with fw := fw, maddr := mem } (store && fwRnd fw == 5)

/-- ACCRD (R182). -/
def execAccrd (f : Fields) (s : State) : Host.Outcome State Fault Refusal :=
  issueLive (.accrd f) f (fun w => do
    let mem ← capture w (shape (.accrd f)).d f.d
    accMove w (.accrd f) f f.a f.d mem true) s

/-- ACCWR (R183). -/
def execAccwr (f : Fields) (s : State) : Host.Outcome State Fault Refusal :=
  issueLive (.accwr f) f (fun w => do
    let mem ← capture w (shape (.accwr f)).a f.a
    accMove w (.accwr f) f f.d f.a mem false) s

/-- The word that TSTAT writes (R184). -/
def tstatWord (acc : Bool) (x : Tile) (ord : Nat) : Nat :=
  (x.next.rows - 1) + 2 ^ 5 * (x.next.cols - 1) + 2 ^ 11 * x.next.width.log2 + 2 ^ 13 * b2n acc + 2 ^ 14 * b2n x.valid
  + 2 ^ 15 * b2n x.dirty + 2 ^ 16 * b2n x.accOvf + 2 ^ 17 * b2n x.poison + 2 ^ 18 * b2n x.next.ovt + 2 ^ 32 * ord

/-- TSTAT (R184): waits for q4, reports the fault record, else writes the tile's status. -/
def execTstat (f : Fields) (s : State) : Host.Outcome State Fault Refusal :=
  issueLive (.tstat f) f (fun w => do
    let t ← theTask w
    if !t.q4.isEmpty then throw .wait
    reportMatrix w
    wrOpnd w (shape (.tstat f)).d f.d (tstatWord (tSel f) (t.tile (tSel f) f.a.toNat) t.u.mcmdOrd.toNat)) s

/-! ### Performing -/

/-- How a matrix command ends. -/
inductive MatEnd where
  | done (fault : Option (Nat × Option Nat))
  | again
  | park (p : Park)
  | poison
  deriving DecidableEq, Repr, Inhabited

/-- The end that a failed access gives (R162). -/
def AccErr.matEnd (e : AccErr) (write : Bool) : MatEnd :=
  match e with
  | .pend va => .park { va := va, write := write, engine := true }
  | .fault va => .done (some (cMEM_FAULT, some va))
  | .race r va => .done (some (r.cause, some va))
  | .poison => .poison
  | .strandPend va => .park { va := va, engine := true }
  | .filterLost => .done none

/-- The access of a matrix command. -/
def Cmd.matAcc (c : Cmd) (t : Task) (f : Fields) (store : Bool) : Acc :=
  { Acc.ofTask t none with
    strand := c.strand
    engine := true
    scope := mField f 3 1
    order := if mBit f 0 then (if store then 2 else 1) else 0
    checked := !mBit f 0 }

/-- Write back every cluster's dirty bytes of the lines of a range of one page, so that the home slices hold it (11 R287; 10 R248). -/
def State.homeSegs (s : State) (segs : List Seg) : State :=
  segs.foldl (fun s g => (List.range ((g.pa % 128 + g.n + 127) / 128)).foldl (fun s k => s.writeBackEverywhere (g.pa / 128 + k)) s) s

/-- Read ranges at the home slices. -/
def State.homeRead (s : State) (a : Acc) (rs : List (Int × Nat)) : Except MatEnd (List Byte) × State :=
  match s.mapAll a { r := true } rs with
  | (.error e, s) => (.error (e.matEnd false), s)
  | (.ok segs, s) =>
    match (s.homeSegs segs).readSegs a segs with
    | (.error e, s) => (.error (e.matEnd false), s)
    | (.ok bs, s) => (.ok bs, s)

/-- The part of translated segments from an offset on. -/
def sliceSegs : List Seg → Nat → Nat → List Seg
  | [], _, _ => []
  | g :: gs, off, len =>
    if len = 0 then []
    else if g.n ≤ off then sliceSegs gs (off - g.n) len
    else
      let m := min len (g.n - off)
      { g with va := g.va + off, pa := g.pa + off, n := m } :: sliceSegs gs 0 (len - m)

/-- What a plain move between memory and a tile takes in element by element (11 R284): the width in bytes and number of its elements, before the
bytes of its sidecar. -/
structure Elems where
  width : Nat
  count : Nat
  deriving DecidableEq, Repr

/-- Place and length of the n-th unit of `total` bytes. -/
def Elems.unit (e : Elems) (total n : Nat) : Option (Nat × Nat) :=
  if n < e.count then some (n * e.width, e.width)
  else
    let k := e.count * e.width + (n - e.count)
    if k < total then some (k, 1) else none

/-- Every unit. -/
def Elems.units (e : Elems) (total : Nat) : List (Nat × Nat) := (List.range (e.count + total)).filterMap (e.unit total)

/-- Read units of translated segments that have not been read yet. -/
def State.readElems (s : State) (a : Acc) (segs : List Seg) (got : Sparse (Option Byte)) :
    List (Nat × Nat) → Except AccErr (Sparse (Option Byte)) × State
  | [] => (.ok got, s)
  | (k, n) :: us =>
    match s.readBegun a (sliceSegs segs k n) with
    | (.error e, s) => (.error e, s)
    | (.ok bs, s) => State.readElems s a segs ((bs.zipIdx k).foldl (fun m b => Sparse.put none m b.2 (some b.1)) got) us

def segBytes (segs : List Seg) : Nat := (segs.map (fun g => g.n)).sum

/-- Read the ranges of a command, or what it has not read ahead of the rest, then its acquire. -/
def State.matRead (s : State) (a : Acc) (begun : Option Begun) (e : Elems) (rs : List (Int × Nat)) : Except MatEnd (List Byte) × State :=
  let finish (r : Except AccErr (List Byte) × State) : Except MatEnd (List Byte) × State :=
    match r with
    | (.error e, s) => (.error (e.matEnd false), s)
    | (.ok bs, s) => (.ok bs, if a.order % 2 = 1 then s.acquireAt a.cl a.scope else s)
  match begun with
  | some g =>
    let segs := g.reads.map segOf
    match s.readElems a segs g.got ((e.units (segBytes segs)).filter (fun u => (Sparse.get none g.got u.1).isNone)) with
    | (.error e, s) => finish (.error e, s)
    | (.ok got, s) => finish (.ok (gotBytes got segs), s)
  | none =>
    match s.mapAll a { r := true } rs with
    | (.error e, s) => (.error (e.matEnd false), s)
    | (.ok segs, s) => finish (s.readSegs a segs)

/-- Write the ranges of a command, or what it has not written ahead of the rest, after its release. -/
def State.matWrite (s : State) (a : Acc) (begun : Option Begun) (e : Elems) (rs : List (Int × Nat)) (bs : List Byte) : MatEnd × State :=
  let released (s : State) : State := if 2 ≤ a.order then s.releaseAt a.cl a.scope else s
  let ends (s : State) (r : Except AccErr State) : MatEnd × State :=
    match r with
    | .error e => (e.matEnd true, s)
    | .ok s => (.done none, s)
  match begun with
  | some g =>
    let segs := g.writes.map segOf
    let (done, left) := (e.units (segBytes segs)).partition (fun u => g.put.contains u.1)
    let slices (us : List (Nat × Nat)) : List Seg := us.flatMap (fun u => sliceSegs segs u.1 u.2)
    ends s ((released s).writeBegun a (slices done) (slices left) (left.flatMap (fun u => (bs.drop u.1).take u.2)))
  | none =>
    match s.mapAll a { w := true } rs with
    | (.error e, s) => (e.matEnd true, s)
    | (.ok segs, s) => ends s ((released s).writeSegs a segs bs)

/-- Change a tile of a task. -/
def State.modTile (s : State) (task : Nat) (acc : Bool) (n : BitVec 9) (g : Tile → Tile) : State :=
  s.modTask task (fun t => t.modTile acc n.toNat g)

/-- The contents that a TLD gives a tile. Sidecar bytes of blocks that the shape has not hold 127, and bytes beyond the shape 0 (DESIGN CHOICE, log
entry 72). -/
def Tile.loaded (x : Tile) (acc : Bool) (rows sides : List (List Byte)) : Tile :=
  { x.written (tileData acc rows) (tileSide sides) with poison := false }

/-- TLD performed, plain form (R169). The ORD bit orders nothing in the form that reads a pigeonhole (R161; a DESIGN CHOICE, log entry 100). -/
def State.runTld (s : State) (t : Task) (c : Cmd) (f : Fields) : MatEnd × State :=
  let cfg := c.cfgD
  let row := cfg.rowBytes
  let stride := strideOf f row
  let nb := cfg.blocks
  let sides (bs : List Byte) : List (List Byte) := if tSc f then chunks nb cfg.rows bs else List.replicate cfg.rows [127, 127]
  if tLoc f then
    let h := t.hole f.a.toNat
    let rows := (List.range cfg.rows).map (fun r => h.read (r * stride) row)
    (.done none, s.modTile t.entry.id (tSel f) f.d (fun x => x.loaded (tSel f) rows (sides (h.read (cfg.rows * stride) (cfg.rows * nb)))))
  else
    let rs := rowRanges (signExt c.maddr 64) stride row cfg.rows ++ (if tSc f then [(signExt c.saddr 64, cfg.rows * nb)] else [])
    match s.matRead (c.matAcc t f false) c.begun { width := cfg.width, count := cfg.rows * cfg.cols } rs with
    | (.error e, s) => (e, s)
    | (.ok bs, s) =>
      (.done none, s.modTile t.entry.id (tSel f) f.d (fun x =>
        x.loaded (tSel f) (chunks row cfg.rows bs) (sides (bs.drop (cfg.rows * row)))))

/-- One attempt of a versioned command found the object unstable: another follows, or TILE_TORN after the 65th (R171, R172). -/
def tornOr (c : Cmd) : MatEnd := if 64 ≤ c.step then .done (some (cTILE_TORN, some c.maddr)) else .again

/-- TLD.v performed (R171; 11 R287): one attempt. Of the header it reads VERSION and bytes 12 to 15. -/
def State.runTldv (s : State) (t : Task) (c : Cmd) (f : Fields) : MatEnd × State :=
  let cfg := c.cfgD
  let a := { c.matAcc t f false with checked := false }
  let base := signExt c.maddr 64
  let n := cfg.rows * cfg.rowBytes
  match s.homeRead { a with scope := 4, order := 0 } [(base, 8), (base + 12, 4)] with
  | (.error e, s) => (e, s)
  | (.ok h, s) =>
    let s := s.acquireAt a.cl a.scope
    if ofLE (h.take 8) % 2 = 1 then (tornOr c, s)
    else
      let has := bitAt (descField h 11 1) 0
      let hn := descField h 8 1 * descField h 9 1 * descField h 10 1
      let hs := if has then descField h 8 1 * ceilDiv (descField h 9 1) 32 else 0
      match s.homeRead { a with scope := 4, order := 0 } [(base + 64, hn + hs)] with
      | (.error e, s) => (e, s)
      | (.ok bs, s) =>
        if descField h 8 1 ≠ cfg.rows ∨ descField h 9 1 ≠ cfg.cols ∨ descField h 10 1 ≠ cfg.width then
          (.done (some (cTILE_SHAPE, some c.maddr)), s)
        else
          let sides := if has then chunks cfg.blocks cfg.rows (bs.drop n) else List.replicate cfg.rows [127, 127]
          (.done none, s.modTile t.entry.id (tSel f) f.d (fun x => x.loaded (tSel f) (chunks cfg.rowBytes cfg.rows bs) sides))

/-- A tile written to memory or a pigeonhole is no longer DIRTY. -/
def State.cleanTile (s : State) (t : Task) (acc : Bool) (n : BitVec 9) : State :=
  s.modTile t.entry.id acc n (fun x => { x with dirty := false })

/-- TST performed, plain form (R169). The ORD bit orders nothing in the form that writes a pigeonhole (log entry 100). -/
def State.runTst (s : State) (t : Task) (c : Cmd) (f : Fields) : MatEnd × State :=
  let cfg := c.cfgA
  let row := cfg.rowBytes
  let stride := strideOf f row
  let x := t.tile (tSel f) f.a.toNat
  let rows := x.rowsOf (tSel f) cfg
  let sides := if tSc f then (x.scalesOf cfg).flatten else []
  if tLoc f then
    let s := s.modTask t.entry.id (fun t => t.modHole f.d.toNat (fun h =>
      ((rows.zipIdx).foldl (fun h p => h.write (p.2 * stride) p.1) h).write (cfg.rows * stride) sides))
    (.done none, s.cleanTile t (tSel f) f.a)
  else
    let rs := rowRanges (signExt c.maddr 64) stride row cfg.rows ++ (if tSc f then [(signExt c.saddr 64, sides.length)] else [])
    match s.matWrite (c.matAcc t f true) c.begun { width := cfg.width, count := cfg.rows * cfg.cols } rs (rows.flatten ++ sides) with
    | (.done none, s) => (.done none, s.cleanTile t (tSel f) f.a)
    | r => r

/-- TST.all performed (R172; 11 R287): one attempt. It reads VERSION alone. -/
def State.runTstAll (s : State) (t : Task) (c : Cmd) (f : Fields) : MatEnd × State :=
  let cfg := c.cfgA
  let a := { c.matAcc t f true with checked := false, scope := 4, order := 0 }
  let scope := mField f 3 1
  let x := t.tile (tSel f) f.a.toNat
  let body := (x.rowsOf (tSel f) cfg).flatten ++ (if tSc f then (x.scalesOf cfg).flatten else [])
  match s.mapAll a { r := true, w := true } [(signExt c.maddr 64, 8)] with
  | (.error e, s) => (e.matEnd true, s)
  | (.ok version, s) =>
    match s.mapAll a { w := true } [(signExt c.maddr 64, 64 + body.length)] with
    | (.error e, s) => (e.matEnd true, s)
    | (.ok segs, s) =>
      match (s.homeSegs segs).readSegs a version with
      | (.error e, s) => (e.matEnd false, s)
      | (.ok h, s) =>
        let v := ofLE h
        if v % 2 = 1 then (tornOr c, s)
        else
          let head := leBytes 8 (v + 2) ++ leBytes 4 c.fw
            ++ [BitVec.ofNat 8 cfg.rows, BitVec.ofNat 8 cfg.cols, BitVec.ofNat 8 cfg.width, BitVec.ofNat 8 (b2n (tSc f))] ++ List.replicate 48 0
          match ((s.releaseAt a.cl scope).acquireAt a.cl scope).writeSegs a segs (head ++ body) with
          | .error e => (e.matEnd true, s)
          | .ok s => (.done none, s.cleanTile t (tSel f) f.a)

/-- The multiplicand tile that a field names, or none. -/
def Task.mult (t : Task) (n : BitVec 9) : Option Tile := if n = 0 then none else some (t.tile false n.toNat)
/-- An element of the accumulator tile that a field names; a0 reads as +0. -/
def Task.accBits (t : Task) (n : BitVec 9) (width i j : Nat) : Nat := if n = 0 then 0 else (t.tile true n.toNat).elem true width i j

/-- The destination of an MMA or MMAS that has taken its last product (R173). -/
def State.mmaDone (s : State) (t : Task) (c : Cmd) (f : Fields) (rows : List (List Nat)) (ovf : Bool) : MatEnd × State :=
  let on (o : Option Tile) (g : Tile → Bool) : Bool := match o with | some y => g y | none => false
  let x := if f.c = 0 then none else some (t.tile true f.c.toNat)
  let data := tileData true (rows.map (fun r => r.flatMap (leBytes c.cfgD.width)))
  let s := s.modTile t.entry.id true f.d (fun y =>
    { y.written data [] with
      accOvf := on x (fun z => z.accOvf) || ovf
      poison := on (t.mult f.a) (fun z => z.poison) || on (t.mult f.b) (fun z => z.poison) || on x (fun z => z.poison) })
  (.done (if ovf ∧ c.cfgD.ovt then some (cACC_OVF, none) else none), s)

/-- MMA performed (R173 to R177). -/
def State.runMma (s : State) (t : Task) (c : Cmd) (f : Fields) : MatEnd × State :=
  let (rows, ovf) := mmaTile c.fw c.cfgD.rows c.cfgD.cols (mmaK f c.cfgA c.cfgB) (t.mult f.a) (t.mult f.b) (t.accBits f.c c.cfgD.width)
    (fun _ _ _ => true)
  s.mmaDone t c f rows ovf

/-- The steps of an MMAS. -/
def Cmd.steps (c : Cmd) (f : Fields) : List ((Nat × Nat) × Nat) :=
  sparseSteps (fwFmt c.fw) c.cfgD.rows c.cfgD.cols (mmaK f c.cfgA c.cfgB) c.bitmaps

/-- What the steps of an MMAS from `lo` to before `hi` leave in each element: an element that earlier steps have reached goes on from the
destination tile, which holds it, the others from a(C) (R179, R180). -/
def Task.mmasPart (t : Task) (c : Cmd) (f : Fields) (lo hi : Nat) : List (List Nat) × Bool :=
  let kk := mmaK f c.cfgA c.cfgB
  let first (i j : Nat) : Nat := stepsBefore c.cfgD.rows c.cfgD.cols kk c.bitmaps (i / 8, j / 8)
  let reached (i j : Nat) : Bool := decide (first i j < lo) && !(pairSteps c.bitmaps kk (i / 8, j / 8)).isEmpty
  mmaTile c.fw c.cfgD.rows c.cfgD.cols kk (t.mult f.a) (t.mult f.b)
    (fun i j => t.accBits (if reached i j then f.d else f.c) c.cfgD.width i j)
    (takenIn c.cfgD.rows c.cfgD.cols kk c.bitmaps lo hi)

/-- MMAS performed to its end, from the step at which it stopped (R178 to R180). Whether it overflows is that of all its steps. -/
def State.runMmas (s : State) (t : Task) (c : Cmd) (f : Fields) : MatEnd × State :=
  let n := (c.steps f).length
  s.mmaDone t c f (t.mmasPart c f c.step n).1 (t.mmasPart c f 0 n).2

/-- Steps of the MMAS at the head of q4, up to step `hi`: the elements that they reach stand in the destination tile, the others as before
(R180). -/
def State.stepMmas (s : State) (t : Task) (c : Cmd) (f : Fields) (hi : Nat) : State :=
  let kk := mmaK f c.cfgA c.cfgB
  let new := (t.mmasPart c f c.step hi).1
  let x := t.tile true f.d.toNat
  let reached (i j : Nat) : Bool :=
    decide (stepsBefore c.cfgD.rows c.cfgD.cols kk c.bitmaps (i / 8, j / 8) < hi) && !(pairSteps c.bitmaps kk (i / 8, j / 8)).isEmpty
  let rows := (new.zipIdx).map (fun r => (r.1.zipIdx).map (fun e => if reached r.2 e.2 then e.1 else x.elem true c.cfgD.width r.2 e.2))
  let data := tileData true (rows.map (fun r => r.flatMap (leBytes c.cfgD.width)))
  (s.modTile t.entry.id true f.d (fun y => y.written data [])).modTask t.entry.id (fun t => { t with
    q4 := match t.q4 with | [] => [] | y :: ys => { y with step := hi } :: ys })

/-- The random numbers of a command's roundings (R185). -/
def State.roundings (s : State) (t : Task) (c : Cmd) (e : Nat) : Nat :=
  match s.tree? t.entry.tree with
  | some r => matrixRandom r.seed.toNat t.entry.ped c.conv e
  | none => 0

/-- Perform a matrix command. The ORD bit of ACCRD and ACCWR orders nothing in the forms on a pigeonhole (log entry 100). -/
def State.runMatrix (s : State) (t : Task) (c : Cmd) : MatEnd × State :=
  let f := c.fields
  let id := t.entry.id
  let rnd := s.roundings t c
  match decode c.word with
  | .tcfg _ => (.done none, s.modTile id (tSel f) f.d Tile.cleared)
  | .trel _ => (.done none, s.modTile id (tSel f) f.d Tile.cleared)
  | .tzero _ => (.done none, s.modTile id (tSel f) f.d (fun x => { x.written [] [] with accOvf := false, poison := false }))
  | .tld _ => if tVer f then s.runTldv t c f else s.runTld t c f
  | .tst _ => if tVer f then s.runTstAll t c f else s.runTst t c f
  | .mma _ => s.runMma t c f
  | .mmas _ => s.runMmas t c f
  | .tcvt _ =>
    let x := t.tile true f.a.toNat
    let (rows, sides) := tcvtTile c.fw c.cfgA x rnd
    let data := tileData false (rows.map (fun r => r.flatMap (leBytes c.cfgD.width)))
    (.done none, s.modTile id false f.d (fun y => { y.written data (tileSide sides) with poison := x.poison }))
  | .accrd _ =>
    let cfg := c.cfgA
    let x := t.tile true f.a.toNat
    let rows := accrdRows c.fw cfg x rnd
    let row := cfg.cols * mmaWidth (fwFmt c.fw)
    let stride := strideOf f row
    let zero (s : State) : State :=
      if mBit f 5 then s.modTile id true f.a (fun y => { y.written [] [] with accOvf := false }) else s
    let done (s : State) : State := if mBit f 5 then zero s else s.cleanTile t true f.a
    if tLoc f then
      (.done none, done (s.modTask id (fun t => t.modHole f.d.toNat (fun h =>
        (rows.zipIdx).foldl (fun h p => h.write (p.2 * stride) p.1) h))))
    else
      match s.matWrite (c.matAcc t f true) c.begun { width := mmaWidth (fwFmt c.fw), count := cfg.rows * cfg.cols }
          (rowRanges (signExt c.maddr 64) stride row cfg.rows) rows.flatten with
      | (.done none, s) => (.done none, done s)
      | (.done e, s) => (.done e, zero s)
      | r => r
  | .accwr _ =>
    let cfg := c.cfgD
    let row := cfg.cols * mmaWidth (fwFmt c.fw)
    let stride := strideOf f row
    let put (s : State) (bs : List (List Byte)) : State :=
      s.modTile id true f.d (fun y => { y.written (tileData true (accwrRows c.fw cfg bs)) [] with accOvf := false, poison := false })
    if tLoc f then
      let h := t.hole f.a.toNat
      (.done none, put s ((List.range cfg.rows).map (fun r => h.read (r * stride) row)))
    else
      match s.matRead (c.matAcc t f false) c.begun { width := mmaWidth (fwFmt c.fw), count := cfg.rows * cfg.cols }
          (rowRanges (signExt c.maddr 64) stride row cfg.rows) with
      | (.error e, s) => (e, s)
      | (.ok bs, s) => (.done none, put s (chunks row cfg.rows bs))
  | _ => (.done none, s)

/-- The destination tile that a faulting command spoils (R163). -/
def spoilTile (c : Cmd) (s : State) (t : Task) : State :=
  let f := c.fields
  match decode c.word with
  | .tld _ => s.modTile t.entry.id (tSel f) f.d (fun x => x.spoilt)
  | .accwr _ => s.modTile t.entry.id true f.d (fun x => x.spoilt)
  | _ => s

/-- The pigeonhole of a matrix command when it has been performed (R160, 10 R252). -/
def Task.matHoles (t : Task) (i : Instr) (f : Fields) : Task :=
  if !tLoc f then t
  else match i with
    | .tld _ | .accwr _ => t.modHole f.a.toNat Hole.wasRead
    | .tst _ | .accrd _ => t.fillHole f.d.toNat
    | _ => t

/-- The fault record after a fault (R162). -/
def Task.recordFault (t : Task) (cause ord : Nat) (addr : Option Nat) : Task :=
  { t with fault := match t.fault with
      | none => some { cause := cause, ord := ord, addr := addr }
      | some e => some (e.more 1) }

/-- The head of q4 has been performed. -/
def State.finishMatrix (s : State) (t : Task) (c : Cmd) (fault : Option (Nat × Option Nat)) : State :=
  let s := match fault with
    | none => s
    | some (cause, addr) => (spoilTile c s t).modTask t.entry.id (fun t => t.recordFault cause c.ord addr)
  let s := s.modTask t.entry.id (fun t => ({ t with q4 := t.q4.drop 1 } : Task).matHoles (decode c.word) c.fields)
  (s.modCluster t.cluster (fun k => { k with table := k.table.filter (fun p => p != (t.entry.id, c.ord)) })).startMatrix t.entry.id

/-- Whether the head of a task's q4 has waited 8,192 cycles (R164). -/
def State.agedHead (s : State) (t : Task) : Bool :=
  match s.q4Head t with
  | none => false
  | some c => match c.headSince with
    | some h => decide (8192 ≤ (s.cycle t.cluster + 2 ^ 64 - h) % 2 ^ 64)
    | none => false

/-- Whether the first command of a task's q4 stands in the reservation table. -/
def State.reserved (s : State) (t : Task) : Bool :=
  match t.q4 with
  | c :: _ => s.tabled t c
  | [] => false

/-- Whether a task of a cluster has a head that the arbiter may take: it is resident, its q4 is not parked, and it holds fewer than 8 entries of
the table (R164). -/
def State.offers (s : State) (cl : Nat) (t : Task) : Bool :=
  t.resident && t.cluster == cl && t.q4park.isNone && !t.saving && (s.q4Head t).isSome
    && decide (((s.cluster cl).table.filter (fun p => p.1 == t.entry.id)).length < 8)

/-- The order of the arbiter among heads (R164): aged heads first, then the highest priority, the earliest cycle at the head, the lower core and
the lower slot. -/
def State.arbiterBefore (s : State) (x y : Task) : Bool :=
  let prio (t : Task) : Nat := match s.tree? t.entry.tree with | some r => r.prio | none => 0
  let age (t : Task) : Nat := match s.q4Head t with
    | some c => (match c.headSince with | some h => (s.cycle t.cluster + 2 ^ 64 - h) % 2 ^ 64 | none => 0)
    | none => 0
  if s.agedHead x != s.agedHead y then s.agedHead x
  else if prio x ≠ prio y then decide (prio y < prio x)
  else if age x ≠ age y then decide (age y < age x)
  else if x.coreD ≠ y.coreD then decide (x.coreD < y.coreD)
  else decide (x.slotD < y.slotD)

/-- The task whose head the arbiter of a cluster chooses, while an entry of the table is free (R164). -/
def State.arbiterChoice (s : State) (cl : Nat) : Option Task :=
  if 32 ≤ (s.cluster cl).table.length then none
  else (s.tasks.filter (fun t => s.offers cl t)).foldl (fun best t =>
    match best with
    | none => some t
    | some b => if s.arbiterBefore t b then some t else best) none

/-- The arbiter of a cluster takes the head that it chooses into the table; the task's next command becomes its head. -/
def State.arbitrate (s : State) (cl : Nat) : State :=
  match s.arbiterChoice cl with
  | none => s
  | some t =>
    match s.q4Head t with
    | none => s
    | some c => (s.modCluster cl (fun k => { k with table := k.table ++ [(t.entry.id, c.ord)] })).startMatrix t.entry.id

/-- A cycle of the arbiters of a die: each takes one head, where an entry is free (R164). -/
def State.arbitrateDie (s : State) (d : Nat) : State :=
  (((s.tasks.filter (fun t => t.resident && !t.q4.isEmpty)).map (fun t => t.cluster)).eraseDups.filter (fun cl => dieOfCluster cl == d)).foldl
    (fun s cl => if s.gated cl then s else s.arbitrate cl) s

/-- Whether the first command of a task's q4 may be performed: it stands in the reservation table, or the arbiter chooses it now (R164). -/
def State.mayRun (s : State) (t : Task) : Bool :=
  s.reserved t || (match s.arbiterChoice t.cluster with | some x => x.entry.id == t.entry.id | none => false)

/-- Perform the head of a task's q4 once. -/
def State.performMatrix (s : State) (t : Task) (c : Cmd) : State :=
  match s.runMatrix t c with
  | (.done fault, s') => s'.finishMatrix t c fault
  | (.again, s') => s'.modTask t.entry.id (fun t => { t with q4 := match t.q4 with | [] => [] | x :: xs => { x with step := x.step + 1 } :: xs })
  | (.park p, s') => (s'.raisePageFault t.entry.ctx (s'.treeOrdinal t) p).modTask t.entry.id (fun t => { t with q4park := some p })
  | (.poison, _) => s.abortTree t.entry.tree stUNCORRECTED

/-- Whether the head of a task's q4 may go on. -/
def State.headRuns (s : State) (t : Task) : Bool :=
  t.resident && t.q4park.isNone && !t.saving && !s.gated t.cluster && s.mayRun t

/-- What a plain move between memory and a tile moves: its ranges, its elements, and what a store writes (R169, R182, R183). -/
def State.matPlan (s : State) (t : Task) (c : Cmd) : Option (List (Int × Nat) × Elems × Option (List Byte)) :=
  let f := c.fields
  let base := signExt c.maddr 64
  let side (n : Nat) : List (Int × Nat) := if tSc f then [(signExt c.saddr 64, n)] else []
  if tLoc f then none
  else match decode c.word with
    | .tld _ =>
      let cfg := c.cfgD
      if tVer f then none
      else some (rowRanges base (strideOf f cfg.rowBytes) cfg.rowBytes cfg.rows ++ side (cfg.rows * cfg.blocks),
        { width := cfg.width, count := cfg.rows * cfg.cols }, none)
    | .tst _ =>
      let cfg := c.cfgA
      let x := t.tile (tSel f) f.a.toNat
      let sides := if tSc f then (x.scalesOf cfg).flatten else []
      if tVer f then none
      else some (rowRanges base (strideOf f cfg.rowBytes) cfg.rowBytes cfg.rows ++ side sides.length,
        { width := cfg.width, count := cfg.rows * cfg.cols }, some ((x.rowsOf (tSel f) cfg).flatten ++ sides))
    | .accrd _ =>
      let cfg := c.cfgA
      let w := mmaWidth (fwFmt c.fw)
      some (rowRanges base (strideOf f (cfg.cols * w)) (cfg.cols * w) cfg.rows, { width := w, count := cfg.rows * cfg.cols },
        some (accrdRows c.fw cfg (t.tile true f.a.toNat) (s.roundings t c)).flatten)
    | .accwr _ =>
      let cfg := c.cfgD
      let w := mmaWidth (fwFmt c.fw)
      some (rowRanges base (strideOf f (cfg.cols * w)) (cfg.cols * w) cfg.rows, { width := w, count := cfg.rows * cfg.cols }, none)
    | _ => none

/-- The segments of a plain move: those found when it began, or those of its ranges now. A fault leaves the command as it is. -/
def State.beginMove (s : State) (t : Task) (c : Cmd) (rs : List (Int × Nat)) (store : Bool) : Option (Begun × State) :=
  match c.begun with
  | some g => some (g, s)
  | none =>
    match s.mapAll (c.matAcc t c.fields store) { r := !store, w := store } rs with
    | (.ok segs, s) => some (if store then { writes := segs.map Seg.tuple } else { reads := segs.map Seg.tuple }, s)
    | _ => none

/-- One unit of a plain move: read, or written after the release. `none` where it has been moved, or there is none. -/
def State.moveElem (s : State) (a : Acc) (g : Begun) (e : Elems) (store : Option (List Byte)) (n : Nat) : Option (Except MatEnd Begun × State) :=
  match store with
  | none =>
    let segs := g.reads.map segOf
    match e.unit (segBytes segs) n with
    | none => none
    | some (k, m) =>
      if (Sparse.get none g.got k).isSome then none
      else match s.readElems a segs g.got [(k, m)] with
        | (.error x, s) => some (.error (x.matEnd false), s)
        | (.ok got, s) => some (.ok { g with got := got }, s)
  | some bs =>
    let segs := g.writes.map segOf
    match e.unit (segBytes segs) n with
    | none => none
    | some (k, m) =>
      if g.put.contains k then none
      else match (if 2 ≤ a.order then s.releaseAt a.cl a.scope else s).writeBegun a
          (((e.units (segBytes segs)).filter (fun u => g.put.contains u.1)).flatMap (fun u => sliceSegs segs u.1 u.2)) (sliceSegs segs k m)
          ((bs.drop k).take m) with
        | .error x => some (.error (x.matEnd true), s)
        | .ok s => some (.ok { g with put := k :: g.put }, s)

/-- The head of q4, a plain move, moves one element ahead of the others (11 R282, R284). One whose access fails is left to the command's own end. -/
def State.matrixUnit (s : State) (task n : Nat) : State :=
  match s.task? task with
  | none => s
  | some t =>
    match t.q4 with
    | [] => s
    | c :: _ =>
      if !s.headRuns t then s
      else match s.matPlan t c with
        | none => s
        | some (rs, e, store) =>
          match s.beginMove t c rs store.isSome with
          | none => s
          | some (g, s') =>
            match s'.moveElem (c.matAcc t c.fields store.isSome) g e store n with
            | some (.ok g', s'') => s''.modTask task (fun t => { t with q4 := match t.q4 with | [] => [] | x :: xs => { x with begun := some g' } :: xs })
            | _ => s

/-- MATRIX_COMMAND_PERFORMED (R159): the head of q4 is performed, or makes one attempt at a versioned access. -/
def execMatrixCommandPerformed (task : Nat) (s : State) : Host.Outcome State Fault Refusal :=
  .next (match s.task? task with
    | none => s
    | some t =>
      match t.q4 with
      | [] => s
      | c :: _ => if s.headRuns t then s.performMatrix t c else s)

/-- The sparse sequencer performs n steps, or more up to a point at which it may stop, of the MMAS at the head of a task's q4 (R180). -/
def State.runSteps (s : State) (task n : Nat) : State :=
  match s.task? task with
  | none => s
  | some t =>
    match t.q4 with
    | [] => s
    | c :: _ =>
      match decode c.word with
      | .mmas f =>
        let steps := c.steps f
        let hi := stopPoint steps (c.step + n) (steps.drop (c.step + n))
        if s.headRuns t && decide (0 < n) && decide (hi < steps.length) then
          s.stepMmas t c f hi
        else s
      | _ => s

/-- MATRIX_HEAD_AGING (R164): a head that has waited 8,192 cycles is chosen before all heads that have not. -/
def execMatrixHeadAging (task : Nat) (s : State) : Host.Outcome State Fault Refusal :=
  .next (match s.task? task with
    | none => s
    | some t =>
      if s.agedHead t && (match s.arbiterChoice t.cluster with | some x => x.entry.id == task | none => false) then s.arbitrate t.cluster
      else s)

end Sys2Proof.Machine
end

