-- ==== Sys2Proof/Machine/System.lean ====
section
/-! DEFINITION. System instructions, space 0x30 (02 R54 to R56; 16 R416 to R423; 03 R88). -/

namespace Sys2Proof.Machine

/-! ### Control registers -/

/-- IDENT (02 R37). -/
def State.ident (s : State) (t : Task) : Nat :=
  t.coreD + 2 ^ 12 * t.slotD + 2 ^ 16 * t.entry.ctx + 2 ^ 32 * s.treeOrdinal t

/-- TASKCFG (02 R55). -/
def Task.taskcfg (t : Task) : Nat :=
  t.allot.regs + 2 ^ 9 * (t.entry.groups - 1) + 2 ^ 13 * t.allot.mtiles + 2 ^ 17 * t.allot.atiles + 2 ^ 20 * t.allot.holes
    + 2 ^ 27 * t.allot.views + 2 ^ 32 * b2n t.allot.full + 2 ^ 33 * b2n t.entry.rcd.idem + 2 ^ 34 * b2n t.entry.rcd.sweep

/-- The value of a control register (R54). TID of a uniform stream has its low 13 bits open (R5; 02 R37). -/
def State.csr (s : State) (t : Task) (th : Option Nat) (n : Nat) : Nat :=
  match n with
  | 0x000 => s.ident t
  | 0x001 => (match th with | some k => t.tid k | none => (Config.uniformTid t.u.retired.toNat).toNat % 2 ^ 13)
  | 0x002 => t.taskcfg
  | 0x00B => t.u.pedpos.toNat
  | 0x00C => (match s.tree? t.entry.tree with | some r => r.level | none => 0)
  | 0x00D => t.savePtr
  | 0x00E => t.trapVec.toNat
  | 0x00F => t.entry.cov
  | 0x010 => t.xstate
  | 0x011 => t.fmtDef.toNat
  | 0x012 => t.modes.toNat
  | 0x013 => t.hstall.toNat
  | k => field t.entry.ped.image (64 * (k - 3) + 63) (64 * (k - 3))

/-- CSRRD (R417). -/
def execCsrrd (f : Fields) (s : State) : Host.Outcome State Fault Refusal :=
  issueLane (.csrrd f) f (fun w => do
    let n := iField f 11 0
    let t ← theTask w
    wrOpnd w (shape (.csrrd f)).d f.d ((← get).csr t w.thread n)) s

/-- CSRWR (R418). -/
def execCsrwr (f : Fields) (s : State) : Host.Outcome State Fault Refusal :=
  issueLive (.csrwr f) f (fun w => do
    let n := iField f 11 0
    let v := (← theTask w).opnd none (shape (.csrwr f)).a f.a
    match n with
    | 0x00E => modTask w (fun t => { t with trapVec := BitVec.ofNat 64 v })
    | 0x011 =>
      if !fwValid true (v % 2 ^ 32) then trapNow cBAD_FORMAT
      modTask w (fun t => { t with fmtDef := BitVec.ofNat 32 v })
    | 0x012 => modTask w (fun t => { t with modes := BitVec.ofNat 32 (v % 4) })
    | _ => modTask w (fun t => { t with hstall := BitVec.ofNat 32 v })) s

/-! ### Returning from a trap -/

/-- The thread of a frame is killed (R419): it exits as EXIT does, with nothing reported. TRAPRET waits for its copies. -/
def killThread (w : Who) (k : Nat) : M Unit := do
  let th : Who := { w with thread := some k }
  let t ← theTask w
  if 0 < (t.agent (some k)).opened.joined then discard (sealBody th)
  if !((← theTask w).agent (some k)).closed.isEmpty then throw .wait
  modTask w (fun t => (t.modAgent (some k) (fun a => { a with finErr := none, finOob := false })).endThread k |>.completeBarriers)

/-- TRAPRET (R419). -/
def trapretBody (mode : Nat) (w : Who) : M Flow := do
  let t ← theTask w
  match t.handler with
  | none => trapNow cILLEGAL_OP
  | some h =>
    let p := h.trap
    if mode = 3 ∨ (p.uniform ∧ mode = 2) then throw (.endTree stABORTED)
    if p.uniform then
      let skips := mode == 1 && !p.entry && !p.retired
      let pc := if p.entry then p.pc else if skips || p.retired then nextSlot p.pc else p.pc
      modify (fun s => s.leaveHandler w.task (if skips then { h with block := h.block.step } else h) pc p.entry)
    else
      let k := p.tid % 512
      if mode = 2 then killThread w k
      else modAgent { w with thread := some k } (fun a => a.resumeFrom p (mode == 1))
      modify (fun s => s.leaveHandler w.task h h.upc.toNat)
    pure .done

/-- TRAPRET (R419). -/
def execTrapret (f : Fields) (s : State) : Host.Outcome State Fault Refusal :=
  issue (.trapret f) f (trapretBody (iField f 1 0)) none s

/-! ### The rest -/

/-- CYCLE (R420). -/
def execCycle (f : Fields) (s : State) : Host.Outcome State Fault Refusal :=
  issueLane (.cycle f) f (fun w => do
    let t ← theTask w
    wrOpnd w (shape (.cycle f)).d f.d ((← get).cycle t.cluster)) s

/-- BKPT (R421): retires and traps with its code. -/
def execBkpt (f : Fields) (s : State) : Host.Outcome State Fault Refusal :=
  issueLive (.bkpt f) f (fun _ => trapWith { cause := cBKPT, ident := iField f 15 0 }) s

/-- Change the clusters and cores of a partition. -/
def State.mapPartition (s : State) (p : Nat) (f : Cluster → Cluster) (g : Core → Core) : State :=
  let cls := (s.clusters.filter (fun c => c.2.partition == some p)).map (fun c => c.1)
  let s := cls.foldl (fun s cl => s.modCluster cl f) s
  ((s.cores.map (fun c => c.1)).filter (fun k => cls.contains (clusterOf k))).foldl (fun s k => s.modCore k g) s

/-- ICSYNC (R422; 03 R88; 11 R280): the code stores that its stream sees reach their home slices, and no cache of the partition holds a line of
the context when it retires. -/
def execIcsync (f : Fields) (s : State) : Host.Outcome State Fault Refusal :=
  issueLive (.icsync f) f (fun w => do
    let t ← theTask w
    let c ← theCtx t
    modify (fun s => (s.releaseAt t.cluster 3).mapPartition c.partition id (fun k => { k with
      icache := k.icache.filter (fun l => l.ctx != t.entry.ctx) }))) s

/-- Whether a TLB entry maps a byte of a range of n bytes; its own address is canonical. -/
def TlbEntry.meets (e : TlbEntry) (base n : Nat) : Bool :=
  let va := truncInt (signExt e.va 57) 64
  decide (0 < n) && decide (base < va + e.size) && decide (va < base + n)

/-- TLBINV (R423): it removes entries once the collector requests that were there at its issue have gone. -/
def execTlbinv (f : Fields) (s : State) : Host.Outcome State Fault Refusal :=
  issueLive (.tlbinv f) f (fun w => do
    let t ← theTask w
    let c ← theCtx t
    let sh := shape (.tlbinv f)
    let a := t.opnd none sh.a f.a
    let n := t.opnd none sh.b f.b % 2 ^ 32 * 65536
    if (t.agent none).fence.isNone then
      modify (fun s => s.awaitRequests w (fun g => (s.task? g.task).any (fun u => u.entry.ctx == t.entry.ctx)))
    modAgent w (fun x => { x with fence := some [] })
    if (← get).requestAwaited w then throw .wait
    modAgent w (fun x => { x with fence := none })
    modify (fun s => s.mapPartition c.partition (fun k => { k with
      tlb := k.tlb.filter (fun e => e.ctx != t.entry.ctx || !(mBit f 0 || e.meets (a / 65536 * 65536) n)) }) id)) s

end Sys2Proof.Machine
end

