-- ==== Sys2Proof/Machine/Ready.lean ====
section
/-! DEFINITION. Readiness (02 R38; 13 R333) and stalls that reach their limit (10 R254). An agent whose instruction waits is ready again when
that instruction, executed now, would no longer wait. -/

namespace Sys2Proof.Machine

/-- The meaning of an instruction that an agent may wait at; none for one that never waits. -/
def waitingMeaning (i : Instr) : Option (State → Host.Outcome State Fault Refusal) :=
  match i with
  | .ld f => some (execLd f)
  | .ldh f => some (execLdh f)
  | .sth f => some (execSth f)
  | .hwait f => some (execHwait f)
  | .hset f => some (execHset f)
  | .bankmode f => some (execBankmode f)
  | .fifopush f => some (execFifopush f)
  | .fifopop f => some (execFifopop f)
  | .cpy f => some (execCpy f)
  | .cpys f => some (execCpys f)
  | .cpyt f => some (execCpyt f)
  | .cpyg f => some (execCpyg f)
  | .cpym f => some (execCpym f)
  | .cpyd f => some (execCpyd f)
  | .seal f => some (execSeal f)
  | .cwait f => some (execCwait f)
  | .qfence f => some (execQfence f)
  | .gath f => some (execGath f)
  | .scat f => some (execScat f)
  | .tcfg f => some (execTcfg f)
  | .tld f => some (execTld f)
  | .tst f => some (execTst f)
  | .tzero f => some (execTzero f)
  | .trel f => some (execTrel f)
  | .mma f => some (execMma f)
  | .mmas f => some (execMmas f)
  | .tcvt f => some (execTcvt f)
  | .accrd f => some (execAccrd f)
  | .accwr f => some (execAccwr f)
  | .tstat f => some (execTstat f)
  | .spawn f => some (execSpawn f)
  | .spawnl f => some (execSpawnl f)
  | .sync f => some (execSync f)
  | .acquire f => some (execAcquire f)
  | .release f => some (execRelease f)
  | .bara f => some (execBara f)
  | .barw f => some (execBarw f)
  | .dqput f => some (execDqput f)
  | .dqget f => some (execDqget f)
  | .texit f => some (execTexit f)
  | .exit f => some (execExit f)
  | .vupd f => some (execVupd f)
  | .logapp f => some (execLogapp f)
  | .peddg f => some (execPeddg f)
  | .cvprobe f => some (execCvprobe f)
  | .xset f => some (execXset f)
  | .xdeal f => some (execXdeal f)
  | .xend f => some (execXend f)
  | .trapret f => some (execTrapret f)
  | .tlbinv f => some (execTlbinv f)
  | _ => none

/-- An agent that waits executes its instruction once more, alone. -/
def State.tryAgain (s : State) (t : Task) (th : Option Nat) : Option State :=
  match waitingMeaning (decode (s.insnAt t (t.agent th).pc.toNat)) with
  | none => none
  | some g =>
    match g { s with cur := { task := t.entry.id, uniform := th.isNone, threads := th.toList } } with
    | .next s' => some { s' with cur := s.cur }
    | _ => none

/-- Threads of the unit of an exchange instruction: a quad or a group (02 R42). -/
def exchangeSize (i : Instr) : Option Nat :=
  match i with
  | .qswap _ | .qbcast _ => some 4
  | .gshfl _ | .gvote _ | .gred _ | .gscan _ | .gmatch _ => some 32
  | _ => none

/-- Whether every live thread of a thread's unit has come to its instruction and may issue it (02 R42). -/
def Task.unitArrived (t : Task) (k n : Nat) : Bool :=
  (t.liveThreads.filter (fun j => j / n == k / n)).all (fun j => t.canIssue j && (t.thread j).ag.pc == (t.thread k).ag.pc)

/-- Whether an agent that waits would wait on. -/
def State.stillWaits (s : State) (t : Task) (th : Option Nat) : Bool :=
  match th.bind (fun k => (exchangeSize (s.instrAt t k)).map (fun n => t.unitArrived k n)) with
  | some all => !all
  | none => match (s.tryAgain t th).bind (fun s' => s'.task? t.entry.id) with
    | some t' => (t'.agent th).waiting
    | none => false

/-- Whether an agent is ready (02 R38): it neither is held by a trap, nor is parked, nor waits. -/
def State.isReady (s : State) (t : Task) (th : Option Nat) : Bool :=
  (match th with
    | some k => t.canIssue k
    | none => t.resident && !t.held none && t.u.ag.parked.isNone)
  && (!(t.agent th).waiting || !s.stillWaits t th)

/-! ### Stalls at their limit (10 R254; 12 R307, R308) -/

/-- An agent whose stall has reached its limit traps at its instruction where what it waits for has not come: the instruction, executed once
more, raises HOLE_STALL. -/
def State.stallAgent (s : State) (t : Task) (th : Option Nat) : State :=
  let a := t.agent th
  if t.resident && a.waiting && !t.held th && a.stall.any (fun st => st.expired (s.cycle t.cluster)) then
    match s.tryAgain t th with
    | some s' => if ((s'.agent { task := t.entry.id, thread := th }).pending.map (fun p => p.cause)) = some cHOLE_STALL then s' else s
    | none => s
  else s

/-- A multicast command whose stall has reached its limit while it waits for a slot completes with error (R308). -/
def State.stallQueue (s : State) (task q : Nat) : State :=
  match s.copyHead task q with
  | none => s
  | some (t, c) =>
    if c.stall.any (fun st => st.expired (s.cycle t.cluster)) && s.starved t q c then s.finishCopy task q (some (cHOLE_STALL, none)) false else s

/-- HOLE_STALL (10 R254, R308): a stall that has reached its limit traps at its instruction, or completes a multicast command
with error. -/
def execHoleStall (w : Waiter) (s : State) : Host.Outcome State Fault Refusal :=
  .next (match w with
    | .agent task th => match s.task? task with
      | none => s
      | some t => s.stallAgent t th
    | .queue task q => s.stallQueue task q)

/-- Every stall of a die that has reached its limit ends: threads and the uniform stream of each resident task, then its copy queues. -/
def State.endStalls (s : State) (d : Nat) : State :=
  (s.tasks.filter (fun t => t.resident && dieOfCore t.coreD == d)).foldl (fun s t =>
    let agents := none :: (t.liveThreads.map some)
    let s := agents.foldl (fun s th => match s.task? t.entry.id with
      | some t => s.stallAgent t th
      | none => s) s
    [0, 1, 2, 3].foldl (fun s q => s.stallQueue t.entry.id q) s) s

end Sys2Proof.Machine
end

