-- ==== Sys2Proof/Machine/Choose.lean ====
section
/-! DEFINITION. The bundles of a core (02 R38), and which bundle and which uniform stream it issues (02 R44; 13 R333, R334, R342). -/

namespace Sys2Proof.Machine

/-! ### Bundle formation (02 R38) -/

/-- Add the ready threads of one group at one program counter to the first bundle with free lanes, else to a new one (R38). -/
def addToBundles (task : Nat) (ks : List Nat) : List Bundle → List Bundle
  | [] => [{ task := task, threads := ks }]
  | b :: bs =>
    if b.task = task && ks.all (fun k => !b.threads.any (fun j => j % 32 == k % 32))
    then { b with threads := b.threads ++ ks } :: bs
    else b :: addToBundles task ks bs

/-- The bundles of ready threads of one task (R38): program counters in ascending order, groups in ascending order. -/
def Task.bundlesOf (t : Task) (ready : List Nat) : List Bundle :=
  let pcs := sortBy (fun a b => decide (a ≤ b)) ((ready.map (fun k => (t.thread k).ag.pc.toNat)).eraseDups)
  pcs.flatMap (fun pc =>
    (List.range t.entry.groups).foldl (fun bs g =>
      let ks := ready.filter (fun k => k / 32 == g && (t.thread k).ag.pc.toNat == pc)
      if ks.isEmpty then bs else addToBundles t.entry.id ks bs) [])

/-- The bundles of a resident task. -/
def State.bundles (s : State) (t : Task) : List Bundle := t.bundlesOf (t.threadsWhere (fun k _ => s.isReady t (some k)))

/-- Threads of a bundle in ascending lane order. -/
def laneOrder (ks : List Nat) : List Nat := (List.range 32).flatMap (fun l => ks.filter (fun k => k % 32 == l))

/-- Form the bundles of a core (R38). -/
def State.formBundles (s : State) (core : Nat) : State :=
  let bs := (s.residents core).flatMap (fun t => (s.bundles t).map (fun b => { b with threads := laneOrder b.threads }))
  s.modCore core (fun c => { c with bundles := bs })

/-- Every core of a die forms its bundles at a cycle that is a multiple of 4. -/
def State.formDie (s : State) (d : Nat) : State :=
  (((s.tasks.filter (fun t => t.resident && dieOfCore t.coreD == d && s.cycle t.cluster % 4 == 0)).map (fun t => t.coreD)).eraseDups).foldl
    (fun s k => s.formBundles k) s

/-- Threads of a task whose operands have not arrived leave their bundles at once, until the next formation (R38, R39; log entry
97). -/
def State.awaitOperands (s : State) (task : Nat) (ks : List Nat) : State :=
  match (s.task? task).bind Task.core? with
  | none => s
  | some core => s.modCore core (fun c => { c with
      bundles := c.bundles.map (fun b => if b.task = task then { b with threads := b.threads.filter (fun k => !ks.contains k) } else b) })

/-! ### The choice of a bundle (13 R333) -/

/-- Cycles since an agent last issued, or since it was created or restored: the wait count (R333). -/
def State.waitCount (s : State) (t : Task) (k : Nat) : Nat := (s.cycle t.cluster + 2 ^ 64 - (t.thread k).ag.issued) % 2 ^ 64

/-- The members of a bundle that are ready. -/
def State.readyMembers (s : State) (b : Bundle) : List Nat :=
  match s.task? b.task with
  | none => []
  | some t => b.threads.filter (fun k => s.isReady t (some k))

/-- The age of a bundle: the largest wait count of its members. -/
def State.bundleAge (s : State) (b : Bundle) : Nat :=
  match s.task? b.task with
  | none => 0
  | some t => b.threads.foldl (fun v k => max v (s.waitCount t k)) 0

/-- The slot of a bundle's task, and the address of its instruction. -/
def State.bundleSlot (s : State) (b : Bundle) : Nat := match s.task? b.task with | some t => t.slotD | none => 16
def State.bundlePc (s : State) (b : Bundle) : Nat :=
  match s.task? b.task, (s.readyMembers b).head? with
  | some t, some k => (t.thread k).ag.pc.toNat
  | _, _ => 0

/-- Whether one bundle is chosen before another: the larger age, then the lower task slot, then the lower address. -/
def State.bundleBefore (s : State) (x y : Bundle) : Bool :=
  if s.bundleAge x ≠ s.bundleAge y then decide (s.bundleAge y < s.bundleAge x)
  else if s.bundleSlot x ≠ s.bundleSlot y then decide (s.bundleSlot x < s.bundleSlot y)
  else decide (s.bundlePc x < s.bundlePc y)

/-- The oldest of numbered bundles. -/
def State.oldestBundle (s : State) (bs : List (Bundle × Nat)) : Option (Bundle × Nat) :=
  bs.foldl (fun best x => match best with
    | none => some x
    | some y => if s.bundleBefore x.1 y.1 then some x else best) none

/-- The bundles of a core that may issue, numbered; the operands of those given have not arrived. -/
def State.readyBundles (s : State) (core : Nat) (late : List Nat) : List (Bundle × Nat) :=
  ((s.core core).bundles.zipIdx).filter (fun x => !(s.readyMembers x.1).isEmpty && !late.contains x.2)

/-- Whether a bundle of a core belongs to P: a member has waited 4,096 cycles. -/
def State.isPromoted (s : State) (_core : Nat) (b : Bundle) : Bool := decide (4096 ≤ s.bundleAge b)

/-- The bundle that a core chooses (R333): of P the oldest, else the greedy one, else the oldest. -/
def State.chosenBundle (s : State) (core : Nat) (late : List Nat) : Option Nat :=
  let ready := s.readyBundles core late
  (match s.oldestBundle (ready.filter (fun x => s.isPromoted core x.1)),
      ready.find? (fun (x : Bundle × Nat) => (s.core core).greedy == some (x.1.task, s.bundlePc x.1)) with
    | some x, _ => some x
    | none, some x => some x
    | none, none => s.oldestBundle ready).map Prod.snd

/-- ISSUE_PROMOTION (R333, R334): every ready bundle of a core with a member that has waited 4,096 cycles is promoted, and stays so until it
issues. The mark is a record: a bundle belongs to P by its wait counts. -/
def execIssuePromotion (core : Nat) (s : State) : Host.Outcome State Fault Refusal :=
  .next (
    let aged := (s.readyBundles core []).filter (fun x => decide (4096 ≤ s.bundleAge x.1))
    let new := aged.flatMap (fun x => (s.readyMembers x.1).map (fun k => (x.1.task, k)))
    if new.isEmpty then s
    else s.modCore core (fun c => { c with promoted := c.promoted ++ new.filter (fun p => !c.promoted.contains p) }))

/-- After an issue: the bundle is the greedy one, and loses its promotion. -/
def State.noteIssue (s : State) (core task pc : Nat) (ks : List Nat) : State :=
  s.modCore core (fun c => { c with
    greedy := some (task, nextSlot pc)
    promoted := c.promoted.filter (fun p => !(p.1 == task && ks.contains p.2)) })

/-! ### The rotation of uniform streams (02 R44) -/

/-- The uniform stream that a core's front end chooses: the next in rotation that is ready, but for one that YIELD passes over (R44, R342) and
those whose operands have not arrived. The answer holds the tasks whose turn has been passed over. -/
def State.chosenStream (s : State) (core : Nat) (late : List Nat) : Option Task × List Nat :=
  let c := s.core core
  let ready := sortBy (fun (a b : Task) => decide ((a.slotD + 15 - c.lastSlot) % 16 ≤ (b.slotD + 15 - c.lastSlot) % 16))
    ((s.residents core).filter (fun t => s.isReady t none && !late.contains t.entry.id))
  match ready.find? (fun t => !c.yielded.contains t.entry.id) with
  | some t => (some t, (ready.takeWhile (fun x => x.entry.id != t.entry.id)).map (fun x => x.entry.id))
  | none => (none, ready.map (fun x => x.entry.id))

/-- The turn passes: the stream that issues is where the next rotation starts (R334), and slots passed over may issue at their next turn. -/
def State.noteTurn (s : State) (core : Nat) (t : Option Task) (passed : List Nat) : State :=
  s.modCore core (fun c => { c with
    lastSlot := match t with | some t => t.slotD | none => c.lastSlot
    yielded := c.yielded.filter (fun k => !passed.contains k) })

/-! ### What the device promises (13 R353; log entry 80) -/

/-- A number as a pair: every pair comes from one number. -/
def splitNat (n : Nat) : Nat × Nat :=
  let a := ((List.range (n + 1)).find? (fun k => (n + 1) / 2 ^ k % 2 == 1)).getD 0
  (a, (n + 1) / 2 ^ a / 2)

/-- Whose turn a number stands for: an agent's, a cycle's, or that of something which the device goes on with by itself (R353). -/
def promisedChoice (n : Nat) : Choice :=
  let (a, b) := splitNat (n / 27)
  let (b1, b2) := splitNat b
  match n % 27 with
  | 0 => .issue a []
  | 1 => .rotate a []
  | 2 => .tick (a % 3)
  | 3 => .perform a (if b1 = 0 then none else some (b1 - 1)) b2
  | 4 => .event (.taskStart a)
  | 5 => .event (.steal a b)
  | 6 => .event (.acquireGrant a)
  | 7 => .event (.restore a b)
  | 8 => .event (.treeComplete a)
  | 9 => .event (.trapDelivery a)
  | 10 => .event (.mergeCommand a)
  | 11 => .event (.matrixCommandPerformed a)
  | 12 => .event (.copyCommandPerformed a b)
  | 13 => .event (.multicastPark a b)
  | 14 => .event (.multicastDrain a b)
  | 15 => .event (.collectorWindow a)
  | 16 => .event (.treeLaunch a b)
  | 17 => .event (.sweepLaunch a b)
  | 18 => .event (.determinismPacket a b)
  | 19 => .event (.indirectBuffer a b)
  | 20 => .event (.unknownPacketType a b)
  | 21 => .event (.launchStart a b1 b2)
  | 22 => .event (.sweepTaskCreation a b)
  | 23 => .event (.drainBudget a)
  | 24 => .event (.issuePromotion a)
  | 25 => .event (.matrixHeadAging a)
  | _ => .event (.filterTagReturn a)

/-- The choice at a step that has no fixed agenda. Most are free; at the steps whose number is a power of 2 what the device promises has its turn,
each thing again and again for ever, so that nothing that could go on waits for ever (R353). -/
def nextChoice (n : Nat) : Choice := if n = 2 ^ n.log2 then promisedChoice (splitNat n.log2).1 else Config.freeChoice n

end Sys2Proof.Machine
end

