-- ==== Sys2Proof/Machine/Conv.lean ====
section
/-! DEFINITION. Conversion instructions, space 0x03 (05 R121, R122; 06 R143 to R147). -/

namespace Sys2Proof.Machine

/-- A floating type of an SRC or DST code (R143). -/
def cvtType (k : Nat) : FpType :=
  match k with
  | 0 => .fp64
  | 1 => .fp32
  | 2 => .fp16
  | _ => .bf16

/-- An integer type of an SRC or DST code: width, signed. -/
def cvtInt (k : Nat) : Nat × Bool :=
  match k with
  | 0 => (32, true)
  | 1 => (32, false)
  | 2 => (64, true)
  | _ => (64, false)

/-- The mode of a conversion that may round stochastically. -/
def Task.cvtMode (t : Task) (rnd : Nat) : RMode := RMode.ofCode (if rnd = 7 then fwRnd t.fmtDef.toNat else rnd)

/-- r(e) of a thread's next stochastic conversion (R122). -/
def rndBits (w : Who) (e : Nat) : M Nat := do
  let t ← theTask w
  let r ← theTree t
  match w.thread with
  | none => pure 0
  | some k => pure (laneRandom r.seed.toNat t.entry.ped (k / 32) (k % 32) (t.thread k).convOrd.toNat e)

/-- Advance the conversion ordinal after a stochastic conversion (R121). -/
def advanceConv (w : Who) (m : RMode) : M Unit :=
  match w.thread with
  | none => pure ()
  | some k => if m = .stochastic then modTask w (fun t => t.modThread k (fun x => { x with convOrd := x.convOrd + 1 })) else pure ()

/-- A floating conversion of bits under FTZ (R109, R144). -/
def cvtBits (src dst : FpType) (ftz sat : Bool) (m : RMode) (r v : Nat) : Nat :=
  fpOut dst ftz (roundTo dst.fmt (fpIn src ftz v) m r sat)

/-- CVTFF (R144): between floating formats. -/
def execCvtff (f : Fields) (s : State) : Host.Outcome State Fault Refusal :=
  issueLane (.cvtff f) f (fun w => do
    let t ← theTask w
    let src := cvtType (cSrc f)
    let a := trunc (← rdOpnd w (shape (.cvtff f)).a f.a) src.bits
    let m := t.cvtMode (cRnd f)
    let r ← rndBits w 0
    wrOpnd w (shape (.cvtff f)).d f.d (cvtBits src (cvtType (cDst f)) t.ftz (mBit f 0) m r a)
    advanceConv w m) s

/-- The integer that CVTFI writes (R145). -/
def cvtToInt (src : FpType) (dst : Nat × Bool) (m : RMode) (v : Nat) : Nat :=
  let lo : Int := if dst.2 then -(2 ^ (dst.1 - 1) : Int) else 0
  let hi : Int := if dst.2 then (2 ^ (dst.1 - 1) : Int) - 1 else (2 ^ dst.1 : Int) - 1
  match src.decode v with
  | .nan => 0
  | .inf neg => truncInt (if neg then lo else hi) dst.1
  | .fin neg n e =>
    let k : Int := (roundIntMag neg n e m : Nat)
    truncInt (min (max (if neg then -k else k) lo) hi) dst.1

/-- CVTFI (R145): floating to integer, with saturation. -/
def execCvtfi (f : Fields) (s : State) : Host.Outcome State Fault Refusal :=
  issueLane (.cvtfi f) f (fun w => do
    let t ← theTask w
    let src := cvtType (cSrc f)
    let a := trunc (← rdOpnd w (shape (.cvtfi f)).a f.a) src.bits
    wrOpnd w (shape (.cvtfi f)).d f.d (cvtToInt src (cvtInt (cDst f)) (t.fpMode (cRnd f)) a)) s

/-- CVTIF (R144): integer to floating. -/
def execCvtif (f : Fields) (s : State) : Host.Outcome State Fault Refusal :=
  issueLane (.cvtif f) f (fun w => do
    let t ← theTask w
    let src := cvtInt (cSrc f)
    let dst := cvtType (cDst f)
    let v := sgnRead src.2 src.1 (trunc (← rdOpnd w (shape (.cvtif f)).a f.a) src.1)
    wrOpnd w (shape (.cvtif f)).d f.d
      (fpOut dst t.ftz (roundTo dst.fmt (.fin (decide (v < 0)) v.natAbs 0) (t.fpMode (cRnd f)) 0 (mBit f 0)))) s

/-- The format word and the scale byte of CVT8 and UNP8; a word that fails its check traps first (R118). -/
def cvtWord (w : Who) (i : Instr) (f : Fields) : M (Nat × Nat) := do
  let c ← rdOpnd w (shape i).c f.c
  let fw := c % 2 ^ 32
  if fwValid false fw ∧ fwFmt fw = 4 then pure (fw, field c 39 32) else trapNow cBAD_FORMAT

/-- The code of one element in CVT8 (R146). -/
def cvt8Code (fw s r : Nat) (m : RMode) (v : FVal) : Nat :=
  let v := if fwScale fw = 1 then (if s = 0xFF then .nan else v.scale (127 - (s : Int))) else v
  (fwB8 fw).convert v m r (fwSat fw)

/-- CVT8 (R146): into a binary8 variant, or the scale byte of a block. -/
def execCvt8 (f : Fields) (s : State) : Host.Outcome State Fault Refusal :=
  issueLane (.cvt8 f) f (fun w => do
    let (fw, sc) ← cvtWord w (.cvt8 f) f
    let a ← rdOpnd w (shape (.cvt8 f)).a f.a
    let b ← rdOpnd w (shape (.cvt8 f)).b f.b
    let old ← rdOpnd w (shape (.cvt8 f)).d f.d
    let ty := cvtType (cSrc f)
    if mBit f 3 then
      wrOpnd w (shape (.cvt8 f)).d f.d (scaleFor (match ty.decode a with | .fin _ m e => .fin false m e | v => v) (fwB8 fw))
    else
      let m := RMode.ofCode (fwRnd fw)
      let el (e : Nat) : Nat := if cSrc f = 1 then (if e = 0 then a else b) else elemAt ty (if e < 2 then a else b) (e % 2)
      let r0 ← rndBits w 0
      let r1 ← rndBits w 1
      let r2 ← rndBits w 2
      let r3 ← rndBits w 3
      let cd (e r : Nat) : Nat := cvt8Code fw sc r m (ty.decode (el e))
      if cSrc f = 1 then
        let sh := 2 ^ (16 * cDst f)
        let kept := if cDst f = 0 then field old 31 16 * 2 ^ 16 else field old 15 0
        wrOpnd w (shape (.cvt8 f)).d f.d (kept + (cd 0 r0 + 256 * cd 1 r1) * sh)
      else
        wrOpnd w (shape (.cvt8 f)).d f.d (cd 0 r0 + 2 ^ 8 * cd 1 r1 + 2 ^ 16 * cd 2 r2 + 2 ^ 24 * cd 3 r3)
      advanceConv w m) s

/-- One decoded code of UNP8 as bits of the destination (R147). -/
def unp8Bits (fw s : Nat) (dst : FpType) (c : Nat) : Nat :=
  let v := if fwScale fw = 1 then scaledValue (fwB8 fw) c s else (fwB8 fw).decode c
  dst.encode (roundTo dst.fmt v (RMode.ofCodeDet (fwRnd fw)) 0 (fwSat fw))

/-- UNP8 (R147): out of a binary8 variant. -/
def execUnp8 (f : Fields) (s : State) : Host.Outcome State Fault Refusal :=
  issueLane (.unp8 f) f (fun w => do
    let (fw, sc) ← cvtWord w (.unp8 f) f
    let a ← rdOpnd w (shape (.unp8 f)).a f.a
    let dst := cvtType (cSrc f)
    let one (k : Nat) : Nat := unp8Bits fw sc dst (field a (8 * k + 7) (8 * k))
    wrOpnd w (shape (.unp8 f)).d f.d
      (if cSrc f = 1 then one (cDst f) else one (2 * cDst f) + 2 ^ 16 * one (2 * cDst f + 1))) s

/-- PACK2 (R144): two FP32 values into two 16-bit elements. -/
def execPack2 (f : Fields) (s : State) : Host.Outcome State Fault Refusal :=
  issueLane (.pack2 f) f (fun w => do
    let t ← theTask w
    let a ← rdOpnd w (shape (.pack2 f)).a f.a
    let b ← rdOpnd w (shape (.pack2 f)).b f.b
    let m := t.cvtMode (cRnd f)
    let r0 ← rndBits w 0
    let r1 ← rndBits w 1
    let dst := cvtType (cDst f)
    wrOpnd w (shape (.pack2 f)).d f.d
      (cvtBits .fp32 dst t.ftz (mBit f 0) m r0 a + 2 ^ 16 * cvtBits .fp32 dst t.ftz (mBit f 0) m r1 b)
    advanceConv w m) s

/-- UNPK2 (R144): two 16-bit elements to FP32, exactly. -/
def execUnpk2 (f : Fields) (s : State) : Host.Outcome State Fault Refusal :=
  issueLane (.unpk2 f) f (fun w => do
    let a ← rdOpnd w (shape (.unpk2 f)).a f.a
    let src := cvtType (cSrc f)
    let one (k : Nat) : Nat := FpType.fp32.encode (src.decode (elemAt src a k))
    wrOpnd w (shape (.unpk2 f)).d f.d (one 0 + 2 ^ 32 * one 1)) s

end Sys2Proof.Machine
end

