-- ==== Sys2Proof/Machine/Int.lean ====
section
/-! DEFINITION. Integer and address instructions, spaces 0x00 and 0x01 (06 R126 to R134). -/

namespace Sys2Proof.Machine

/-- w of R130: 64 in the .d form and 32 otherwise. -/
def intW (f : Fields) : Nat := if mBit f 7 then 64 else 32

/-- The immediate in place of source B (03 R71): as it stands, or sign-extended in the .d form. -/
def intImm (f : Fields) : Nat := if mBit f 7 then truncInt (signExt f.imm.toNat 32) 64 else f.imm.toNat

/-- Source B: the register, or the immediate of space 0x01. -/
def intB (i : Instr) (f : Fields) (imm : Bool) (w : Who) : M Nat :=
  if imm then pure (intImm f) else do return trunc (← rdOpnd w (shape i).b f.b) (intW f)

/-- An instruction that computes D from a, b and c, each read as a w-bit value (R127, R128). -/
def intOp (i : Instr) (f : Fields) (imm : Bool) (g : Nat → Nat → Nat → Nat → Nat) (s : State) :
    Host.Outcome State Fault Refusal :=
  issueLane i f (fun w => do
    let a := trunc (← rdOpnd w (shape i).a f.a) (intW f)
    let b ← intB i f imm w
    let c := trunc (← rdOpnd w (shape i).c f.c) (intW f)
    wrOpnd w (shape i).d f.d (trunc (g (intW f) a b c) (intW f))) s

/-- IADDC (R131): the sum with the carry in pc, and the carry back to pc. -/
def intAddc (i : Instr) (f : Fields) (imm : Bool) (s : State) : Host.Outcome State Fault Refusal :=
  issueLane i f (fun w => do
    let a := trunc (← rdOpnd w (shape i).a f.a) (intW f)
    let b ← intB i f imm w
    let t := a + b + (← rdOpnd w (shape i).c f.c)
    wrOpnd w (shape i).d f.d (trunc t (intW f))
    wrOpnd w (shape i).c f.c (b2n (carryOut (intW f) t))) s

/-- ICMP (R131): pd receives a COND b. -/
def intCmp (i : Instr) (f : Fields) (imm : Bool) (s : State) : Host.Outcome State Fault Refusal :=
  issueLane i f (fun w => do
    let a := trunc (← rdOpnd w (shape i).a f.a) (intW f)
    let b ← intB i f imm w
    let sg := mBit f 0
    wrOpnd w (shape i).d f.d (b2n (intCond (mField f 3 1) (sgnRead sg (intW f) a) (sgnRead sg (intW f) b)))) s

/-- IDIV and IREM (R132): quotient and remainder. -/
def intDivide (sgn : Bool) (w a b : Nat) : Int × Int :=
  if !sgn then
    if b = 0 then ((2 ^ w - 1 : Nat), a) else ((a / b : Nat), (a % b : Nat))
  else
    let x := signExt a w
    let y := signExt b w
    if y = 0 then (-1, x)
    else
      let q : Int := (x.natAbs / y.natAbs : Nat)
      let q := if 0 ≤ x * y then q else -q
      (q, x - q * y)

/-- High half of the product (R131). -/
def intMulHigh (sgn : Bool) (w a b : Nat) : Nat := truncInt (sgnRead sgn w a * sgnRead sgn w b / (2 ^ w : Int)) w

/-- Minimum or maximum of a and b as SGN reads them. -/
def intMinMax (mx sgn : Bool) (w a b : Nat) : Nat :=
  if decide (sgnRead sgn w a ≤ sgnRead sgn w b) = mx then b else a

/-- Rotate left. -/
def intRot (w a n : Nat) : Nat := a * 2 ^ n % 2 ^ w + a / 2 ^ (w - n)

/-- Leading and trailing zeros, bits reversed. -/
def intClz (w a : Nat) : Nat := if a = 0 then w else w - 1 - a.log2
def intCtz (w a : Nat) : Nat := ((bitsOf w a).head?).getD w
def intBrev (w a : Nat) : Nat := (List.range w).foldl (fun v k => 2 * v + b2n (bitAt a k)) 0

/-- Position and length of a bit field (R133). -/
def fieldSpec (w b : Nat) : Nat × Nat :=
  let pos := field b 7 0
  (pos, if w ≤ pos then 0 else min (field b 15 8) (w - pos))

def intBfx (sgn : Bool) (w a b : Nat) : Nat :=
  let (pos, len) := fieldSpec w b
  let v := a / 2 ^ pos % 2 ^ len
  if len = 0 then 0 else if sgn then truncInt (signExt v len) w else v

def intBfi (w a b c : Nat) : Nat :=
  let (pos, len) := fieldSpec w b
  let mask := if len = 0 then 0 else (2 ^ len - 1) * 2 ^ pos
  (a - (a &&& mask)) + (if len = 0 then 0 else c * 2 ^ pos &&& mask)

/-- SEXT and ZEXT (R134). -/
def intExt (sgn : Bool) (w a b : Nat) : Nat :=
  let n := if w = 64 then b % 64 else b % 32
  if n = 0 then a else if sgn then truncInt (signExt a n) w else a % 2 ^ n

/-- IADD (R131): the wrapped sum. -/
def execIadd (f : Fields) (s : State) : Host.Outcome State Fault Refusal :=
  intOp (.iadd f) f false (fun _ a b _ => a + b) s

/-- IADD with an immediate (R131): the wrapped sum. -/
def execIaddImm (f : Fields) (s : State) : Host.Outcome State Fault Refusal :=
  intOp (.iaddImm f) f true (fun _ a b _ => a + b) s

/-- ISUB (R131): the wrapped difference. -/
def execIsub (f : Fields) (s : State) : Host.Outcome State Fault Refusal :=
  intOp (.isub f) f false (fun w a b _ => a + 2 ^ w - b) s

/-- ISUB with an immediate (R131): the wrapped difference. -/
def execIsubImm (f : Fields) (s : State) : Host.Outcome State Fault Refusal :=
  intOp (.isubImm f) f true (fun w a b _ => a + 2 ^ w - b) s

/-- IADDC (R131): the sum with carry. -/
def execIaddc (f : Fields) (s : State) : Host.Outcome State Fault Refusal :=
  intAddc (.iaddc f) f false s

/-- IADDC with an immediate (R131): the sum with carry. -/
def execIaddcImm (f : Fields) (s : State) : Host.Outcome State Fault Refusal :=
  intAddc (.iaddcImm f) f true s

/-- IMUL (R131): the low half of the product. -/
def execImul (f : Fields) (s : State) : Host.Outcome State Fault Refusal :=
  intOp (.imul f) f false (fun _ a b _ => a * b) s

/-- IMUL with an immediate (R131): the low half of the product. -/
def execImulImm (f : Fields) (s : State) : Host.Outcome State Fault Refusal :=
  intOp (.imulImm f) f true (fun _ a b _ => a * b) s

/-- IMULH (R131): the high half of the product. -/
def execImulh (f : Fields) (s : State) : Host.Outcome State Fault Refusal :=
  intOp (.imulh f) f false (fun w a b _ => intMulHigh (mBit f 0) w a b) s

/-- IMULH with an immediate (R131): the high half of the product. -/
def execImulhImm (f : Fields) (s : State) : Host.Outcome State Fault Refusal :=
  intOp (.imulhImm f) f true (fun w a b _ => intMulHigh (mBit f 0) w a b) s

/-- IMAD (R131): a + c × b. -/
def execImad (f : Fields) (s : State) : Host.Outcome State Fault Refusal :=
  intOp (.imad f) f false (fun _ a b c => a + c * b) s

/-- IMAD with an immediate (R131): a + c × b. -/
def execImadImm (f : Fields) (s : State) : Host.Outcome State Fault Refusal :=
  intOp (.imadImm f) f true (fun _ a b c => a + c * b) s

/-- IDIV (R132): the quotient of R132. -/
def execIdiv (f : Fields) (s : State) : Host.Outcome State Fault Refusal :=
  intOp (.idiv f) f false (fun w a b _ => truncInt (intDivide (mBit f 0) w a b).1 w) s

/-- IDIV with an immediate (R132): the quotient of R132. -/
def execIdivImm (f : Fields) (s : State) : Host.Outcome State Fault Refusal :=
  intOp (.idivImm f) f true (fun w a b _ => truncInt (intDivide (mBit f 0) w a b).1 w) s

/-- IREM (R132): the remainder of R132. -/
def execIrem (f : Fields) (s : State) : Host.Outcome State Fault Refusal :=
  intOp (.irem f) f false (fun w a b _ => truncInt (intDivide (mBit f 0) w a b).2 w) s

/-- IREM with an immediate (R132): the remainder of R132. -/
def execIremImm (f : Fields) (s : State) : Host.Outcome State Fault Refusal :=
  intOp (.iremImm f) f true (fun w a b _ => truncInt (intDivide (mBit f 0) w a b).2 w) s

/-- INEG (R131): the wrapped negation. -/
def execIneg (f : Fields) (s : State) : Host.Outcome State Fault Refusal :=
  intOp (.ineg f) f false (fun w a _ _ => 2 ^ w - a) s

/-- IABS (R131): the wrapped absolute value. -/
def execIabs (f : Fields) (s : State) : Host.Outcome State Fault Refusal :=
  intOp (.iabs f) f false (fun w a _ _ => (signExt a w).natAbs) s

/-- IMIN (R131): the smaller operand. -/
def execImin (f : Fields) (s : State) : Host.Outcome State Fault Refusal :=
  intOp (.imin f) f false (fun w a b _ => intMinMax false (mBit f 0) w a b) s

/-- IMIN with an immediate (R131): the smaller operand. -/
def execIminImm (f : Fields) (s : State) : Host.Outcome State Fault Refusal :=
  intOp (.iminImm f) f true (fun w a b _ => intMinMax false (mBit f 0) w a b) s

/-- IMAX (R131): the larger operand. -/
def execImax (f : Fields) (s : State) : Host.Outcome State Fault Refusal :=
  intOp (.imax f) f false (fun w a b _ => intMinMax true (mBit f 0) w a b) s

/-- IMAX with an immediate (R131): the larger operand. -/
def execImaxImm (f : Fields) (s : State) : Host.Outcome State Fault Refusal :=
  intOp (.imaxImm f) f true (fun w a b _ => intMinMax true (mBit f 0) w a b) s

/-- IAND (R131): bitwise and. -/
def execIand (f : Fields) (s : State) : Host.Outcome State Fault Refusal :=
  intOp (.iand f) f false (fun _ a b _ => a &&& b) s

/-- IAND with an immediate (R131): bitwise and. -/
def execIandImm (f : Fields) (s : State) : Host.Outcome State Fault Refusal :=
  intOp (.iandImm f) f true (fun _ a b _ => a &&& b) s

/-- IOR (R131): bitwise or. -/
def execIor (f : Fields) (s : State) : Host.Outcome State Fault Refusal :=
  intOp (.ior f) f false (fun _ a b _ => a ||| b) s

/-- IOR with an immediate (R131): bitwise or. -/
def execIorImm (f : Fields) (s : State) : Host.Outcome State Fault Refusal :=
  intOp (.iorImm f) f true (fun _ a b _ => a ||| b) s

/-- IXOR (R131): bitwise exclusive or. -/
def execIxor (f : Fields) (s : State) : Host.Outcome State Fault Refusal :=
  intOp (.ixor f) f false (fun _ a b _ => a ^^^ b) s

/-- IXOR with an immediate (R131): bitwise exclusive or. -/
def execIxorImm (f : Fields) (s : State) : Host.Outcome State Fault Refusal :=
  intOp (.ixorImm f) f true (fun _ a b _ => a ^^^ b) s

/-- INOT (R131): the complement. -/
def execInot (f : Fields) (s : State) : Host.Outcome State Fault Refusal :=
  intOp (.inot f) f false (fun w a _ _ => 2 ^ w - 1 - a) s

/-- ISHL (R131): shift left by b mod w. -/
def execIshl (f : Fields) (s : State) : Host.Outcome State Fault Refusal :=
  intOp (.ishl f) f false (fun w a b _ => a * 2 ^ (b % w)) s

/-- ISHL with an immediate (R131): shift left by b mod w. -/
def execIshlImm (f : Fields) (s : State) : Host.Outcome State Fault Refusal :=
  intOp (.ishlImm f) f true (fun w a b _ => a * 2 ^ (b % w)) s

/-- ISHR (R131): logical shift right by b mod w. -/
def execIshr (f : Fields) (s : State) : Host.Outcome State Fault Refusal :=
  intOp (.ishr f) f false (fun w a b _ => a / 2 ^ (b % w)) s

/-- ISHR with an immediate (R131): logical shift right by b mod w. -/
def execIshrImm (f : Fields) (s : State) : Host.Outcome State Fault Refusal :=
  intOp (.ishrImm f) f true (fun w a b _ => a / 2 ^ (b % w)) s

/-- ISAR (R131): arithmetic shift right by b mod w. -/
def execIsar (f : Fields) (s : State) : Host.Outcome State Fault Refusal :=
  intOp (.isar f) f false (fun w a b _ => truncInt (signExt a w / (2 ^ (b % w) : Int)) w) s

/-- ISAR with an immediate (R131): arithmetic shift right by b mod w. -/
def execIsarImm (f : Fields) (s : State) : Host.Outcome State Fault Refusal :=
  intOp (.isarImm f) f true (fun w a b _ => truncInt (signExt a w / (2 ^ (b % w) : Int)) w) s

/-- IROT (R131): rotation left by b mod w. -/
def execIrot (f : Fields) (s : State) : Host.Outcome State Fault Refusal :=
  intOp (.irot f) f false (fun w a b _ => intRot w a (b % w)) s

/-- IROT with an immediate (R131): rotation left by b mod w. -/
def execIrotImm (f : Fields) (s : State) : Host.Outcome State Fault Refusal :=
  intOp (.irotImm f) f true (fun w a b _ => intRot w a (b % w)) s

/-- BFX (R133): the bit field of R133. -/
def execBfx (f : Fields) (s : State) : Host.Outcome State Fault Refusal :=
  intOp (.bfx f) f false (fun w a b _ => intBfx (mBit f 0) w a b) s

/-- BFX with an immediate (R133): the bit field of R133. -/
def execBfxImm (f : Fields) (s : State) : Host.Outcome State Fault Refusal :=
  intOp (.bfxImm f) f true (fun w a b _ => intBfx (mBit f 0) w a b) s

/-- BFI (R133): the inserted bit field of R133. -/
def execBfi (f : Fields) (s : State) : Host.Outcome State Fault Refusal :=
  intOp (.bfi f) f false (fun w a b c => intBfi w a b c) s

/-- BFI with an immediate (R133): the inserted bit field of R133. -/
def execBfiImm (f : Fields) (s : State) : Host.Outcome State Fault Refusal :=
  intOp (.bfiImm f) f true (fun w a b c => intBfi w a b c) s

/-- POPC (R131): the number of one bits. -/
def execPopc (f : Fields) (s : State) : Host.Outcome State Fault Refusal :=
  intOp (.popc f) f false (fun w a _ _ => popCount w a) s

/-- CLZ (R131): the number of leading zeros. -/
def execClz (f : Fields) (s : State) : Host.Outcome State Fault Refusal :=
  intOp (.clz f) f false (fun w a _ _ => intClz w a) s

/-- CTZ (R131): the number of trailing zeros. -/
def execCtz (f : Fields) (s : State) : Host.Outcome State Fault Refusal :=
  intOp (.ctz f) f false (fun w a _ _ => intCtz w a) s

/-- BREV (R131): the bits reversed. -/
def execBrev (f : Fields) (s : State) : Host.Outcome State Fault Refusal :=
  intOp (.brev f) f false (fun w a _ _ => intBrev w a) s

/-- ISEL (R131): a if pc, else b. -/
def execIsel (f : Fields) (s : State) : Host.Outcome State Fault Refusal :=
  intOp (.isel f) f false (fun _ a b c => if c = 1 then a else b) s

/-- ISEL with an immediate (R131): a if pc, else b. -/
def execIselImm (f : Fields) (s : State) : Host.Outcome State Fault Refusal :=
  intOp (.iselImm f) f true (fun _ a b c => if c = 1 then a else b) s

/-- ICMP (R131): the comparison. -/
def execIcmp (f : Fields) (s : State) : Host.Outcome State Fault Refusal :=
  intCmp (.icmp f) f false s

/-- ICMP with an immediate (R131): the comparison. -/
def execIcmpImm (f : Fields) (s : State) : Host.Outcome State Fault Refusal :=
  intCmp (.icmpImm f) f true s

/-- LEA (R131): a + b × 2^SH. -/
def execLea (f : Fields) (s : State) : Host.Outcome State Fault Refusal :=
  intOp (.lea f) f false (fun _ a b _ => a + b * 2 ^ mField f 3 1) s

/-- LEA with an immediate (R131): a + b × 2^SH. -/
def execLeaImm (f : Fields) (s : State) : Host.Outcome State Fault Refusal :=
  intOp (.leaImm f) f true (fun _ a b _ => a + b * 2 ^ mField f 3 1) s

/-- MOV (R131): the source. -/
def execMov (f : Fields) (s : State) : Host.Outcome State Fault Refusal :=
  intOp (.mov f) f false (fun _ a _ _ => a) s

/-- MOVI (R131): the immediate. -/
def execMovi (f : Fields) (s : State) : Host.Outcome State Fault Refusal :=
  intOp (.movi f) f true (fun _ _ b _ => b) s

/-- MOVHI (R131): the immediate above the low half of a. -/
def execMovhi (f : Fields) (s : State) : Host.Outcome State Fault Refusal :=
  intOp (.movhi f) f true (fun _ a _ _ => f.imm.toNat * 2 ^ 32 + a % 2 ^ 32) s

/-- SEXT (R134): a sign-extended from n bits. -/
def execSext (f : Fields) (s : State) : Host.Outcome State Fault Refusal :=
  intOp (.sext f) f false (fun w a b _ => intExt true w a b) s

/-- SEXT with an immediate (R134): a sign-extended from n bits. -/
def execSextImm (f : Fields) (s : State) : Host.Outcome State Fault Refusal :=
  intOp (.sextImm f) f true (fun w a b _ => intExt true w a b) s

/-- ZEXT (R134): a zero-extended from n bits. -/
def execZext (f : Fields) (s : State) : Host.Outcome State Fault Refusal :=
  intOp (.zext f) f false (fun w a b _ => intExt false w a b) s

/-- ZEXT with an immediate (R134): a zero-extended from n bits. -/
def execZextImm (f : Fields) (s : State) : Host.Outcome State Fault Refusal :=
  intOp (.zextImm f) f true (fun w a b _ => intExt false w a b) s

end Sys2Proof.Machine
end

