-- ==== Sys2Proof/Machine/Perform.lean ====
section
/-! DEFINITION. Computations performed out of program order (11 R274; log entry 31). An instruction of spaces 0x00 to 0x04 whose operand is the result
of an access that its agent has passed over is passed over too: it has issued, retired and made its checks, and it writes its destinations when a later
instruction names them. So a later store may be performed before a load whose value has only been computed with. -/

namespace Sys2Proof.Machine

/-- The meaning of an instruction of spaces 0x00 to 0x04, which reads and writes registers and predicates alone. -/
def pureMeaning (i : Instr) : Option (State → Host.Outcome State Fault Refusal) :=
  match i with
  | .iadd f => some (execIadd f)
  | .iaddImm f => some (execIaddImm f)
  | .isub f => some (execIsub f)
  | .isubImm f => some (execIsubImm f)
  | .iaddc f => some (execIaddc f)
  | .iaddcImm f => some (execIaddcImm f)
  | .imul f => some (execImul f)
  | .imulImm f => some (execImulImm f)
  | .imulh f => some (execImulh f)
  | .imulhImm f => some (execImulhImm f)
  | .imad f => some (execImad f)
  | .imadImm f => some (execImadImm f)
  | .idiv f => some (execIdiv f)
  | .idivImm f => some (execIdivImm f)
  | .irem f => some (execIrem f)
  | .iremImm f => some (execIremImm f)
  | .ineg f => some (execIneg f)
  | .iabs f => some (execIabs f)
  | .imin f => some (execImin f)
  | .iminImm f => some (execIminImm f)
  | .imax f => some (execImax f)
  | .imaxImm f => some (execImaxImm f)
  | .iand f => some (execIand f)
  | .iandImm f => some (execIandImm f)
  | .ior f => some (execIor f)
  | .iorImm f => some (execIorImm f)
  | .ixor f => some (execIxor f)
  | .ixorImm f => some (execIxorImm f)
  | .inot f => some (execInot f)
  | .ishl f => some (execIshl f)
  | .ishlImm f => some (execIshlImm f)
  | .ishr f => some (execIshr f)
  | .ishrImm f => some (execIshrImm f)
  | .isar f => some (execIsar f)
  | .isarImm f => some (execIsarImm f)
  | .irot f => some (execIrot f)
  | .irotImm f => some (execIrotImm f)
  | .bfx f => some (execBfx f)
  | .bfxImm f => some (execBfxImm f)
  | .bfi f => some (execBfi f)
  | .bfiImm f => some (execBfiImm f)
  | .popc f => some (execPopc f)
  | .clz f => some (execClz f)
  | .ctz f => some (execCtz f)
  | .brev f => some (execBrev f)
  | .isel f => some (execIsel f)
  | .iselImm f => some (execIselImm f)
  | .icmp f => some (execIcmp f)
  | .icmpImm f => some (execIcmpImm f)
  | .lea f => some (execLea f)
  | .leaImm f => some (execLeaImm f)
  | .mov f => some (execMov f)
  | .movi f => some (execMovi f)
  | .movhi f => some (execMovhi f)
  | .sext f => some (execSext f)
  | .sextImm f => some (execSextImm f)
  | .zext f => some (execZext f)
  | .zextImm f => some (execZextImm f)
  | .fadd f => some (execFadd f)
  | .fsub f => some (execFsub f)
  | .fmul f => some (execFmul f)
  | .ffma f => some (execFfma f)
  | .fmin f => some (execFmin f)
  | .fmax f => some (execFmax f)
  | .fcmp f => some (execFcmp f)
  | .fclass f => some (execFclass f)
  | .frint f => some (execFrint f)
  | .fdiv f => some (execFdiv f)
  | .fsqrt f => some (execFsqrt f)
  | .frcp f => some (execFrcp f)
  | .frsq f => some (execFrsq f)
  | .fexp2 f => some (execFexp2 f)
  | .flog2 f => some (execFlog2 f)
  | .fsin f => some (execFsin f)
  | .fcos f => some (execFcos f)
  | .ftanh f => some (execFtanh f)
  | .fsigm f => some (execFsigm f)
  | .fscale f => some (execFscale f)
  | .fdot2 f => some (execFdot2 f)
  | .cvtff f => some (execCvtff f)
  | .cvtfi f => some (execCvtfi f)
  | .cvtif f => some (execCvtif f)
  | .cvt8 f => some (execCvt8 f)
  | .unp8 f => some (execUnp8 f)
  | .pack2 f => some (execPack2 f)
  | .unpk2 f => some (execUnpk2 f)
  | .qswap f => some (execQswap f)
  | .qbcast f => some (execQbcast f)
  | .gshfl f => some (execGshfl f)
  | .gvote f => some (execGvote f)
  | .gred f => some (execGred f)
  | .gscan f => some (execGscan f)
  | .gmatch f => some (execGmatch f)
  | _ => none

/-! ### What a computation names -/

/-- The fields that an instruction writes. -/
def Shape.outputs (sh : Shape) (f : Fields) : List (Opnd × BitVec 9) :=
  [(sh.d, f.d), (sh.a, f.a), (sh.b, f.b), (sh.c, f.c)].filter (fun p => p.1.wr)

/-- The registers that an instruction writes. -/
def Shape.writes (sh : Shape) (f : Fields) : List (Nat × Nat) := (sh.outputs f).map (fun p => p.1.span p.2)

/-- The predicates that an instruction writes. -/
def Shape.writtenPreds (sh : Shape) (f : Fields) : List Nat :=
  ((sh.outputs f).filter (fun p => p.1.kind == .p)).map (fun p => p.2.toNat)

/-- Whether an instruction names what another one writes. -/
def namesWrites (sh : Shape) (f : Fields) (sh' : Shape) (f' : Fields) : Bool :=
  (sh.named f).any (fun p => (sh'.writes f').any (spansMeet p)) || (sh.namedPreds f).any (fun p => (sh'.writtenPreds f').contains p)

/-- Whether two instructions of an agent keep their order by the registers and predicates that they name. -/
def namesMeet (i j : Instr) : Bool :=
  match i.fields?, j.fields? with
  | some f, some g => namesWrites (shape i) f (shape j) g || namesWrites (shape j) g (shape i) f
  | _, _ => false

/-- Whether an instruction names a register that an access passed over writes. -/
def namesDest (i : Instr) (x : Late) : Bool :=
  match i.fields? with
  | some f => ((shape i).named f).any (fun p => spansMeet p x.dest)
  | none => false

/-- The computations that an agent has passed over. -/
def State.slowOf (s : State) (w : Who) : List Slow := (s.agent w).slow

/-- Whether an instruction keeps its place behind something that its agent has passed over, by what it names. -/
def State.awaits (s : State) (w : Who) (i : Instr) : Bool :=
  (s.lateOf w).any (namesDest i) || (s.slowOf w).any (fun x => namesMeet x.instr i)

/-! ### Performing -/

/-- The agents that perform a computation together. -/
def Slow.members (x : Slow) (task : Nat) : List Who :=
  if x.group.isEmpty then [{ task := task }] else x.group.map (fun k => { task := task, thread := some k })

/-- An agent that does nothing but the computation under way. -/
def Agent.free (a : Agent) : Agent :=
  { a with block := {}, windows := [], waiting := false, parked := none, pending := none, entry := false }

/-- A task in which the members of a computation are alone, as they stood at its issue. -/
def Task.alone (t : Task) (x : Slow) : Task :=
  { t with
    saving := false
    waits := none
    modes := x.modes
    fmtDef := x.fmtDef
    u := { t.u with ag := t.u.ag.free }
    threads := t.threads.zipIdx.map (fun p =>
      if x.group.contains p.2 then { p.1 with ag := p.1.ag.free, convOrd := x.ord } else { p.1 with status := .free }) }

/-- What a computation writes is taken from the task in which it has been executed. -/
def Task.takeOutputs (t : Task) (i : Instr) (f : Fields) (ws : List Who) (t' : Task) : Task :=
  ws.foldl (fun t w => ((shape i).outputs f).foldl (fun t p => t.setOpnd w.thread p.1 p.2 (t'.opnd w.thread p.1 p.2)) t) t

/-- A computation writes its destinations. -/
def State.runSlow (s : State) (task : Nat) (x : Slow) : State :=
  match s.task? task, x.instr.fields?, pureMeaning x.instr with
  | some t, some f, some g =>
    match g { s.modTask task (fun _ => t.alone x) with cur := { task := task, uniform := x.group.isEmpty, threads := x.group } } with
    | .next s' => match s'.task? task with
      | some t' => s.modTask task (fun t => t.takeOutputs x.instr f (x.members task) t')
      | none => s
    | _ => s
  | _, _, _ => s

/-- Perform a computation that the agents of a task have passed over, after the loads and computations before it that it may not precede. The first
argument bounds how many computations stand before one another. -/
def State.performSlow : Nat → State → Nat → Slow → State
  | 0, s, _, _ => s
  | n + 1, s, task, x =>
    let s := (x.members task).foldl (fun s w =>
      let s := s.settleLate w (namesDest x.instr) (s.lateOf w)
      ((s.slowOf w).takeWhile (fun y => y != x)).foldl (fun s y =>
        if namesMeet y.instr x.instr && (s.slowOf w).contains y then State.performSlow n s task y else s) s) s
    (x.members task).foldl (fun s w => s.modAgent w (fun a => { a with slow := a.slow.erase x })) (s.runSlow task x)

/-- How many computations the agents of a task have passed over. -/
def Task.slowCount (t : Task) : Nat := t.u.ag.slow.length + (t.threads.map (fun th => th.ag.slow.length)).sum

/-- Perform those of the computations that an agent has passed over that satisfy a test; a list of their length bounds them. -/
def State.settleSlow (s : State) (w : Who) (p : Slow → Bool) : List Slow → State
  | [] => s
  | _ :: xs =>
    match s.task? w.task, (s.slowOf w).find? p with
    | some t, some x => State.settleSlow (State.performSlow (t.slowCount + 1) s w.task x) w p xs
    | _, _ => s

/-- Before an instruction of an agent: what it has passed over is performed where it is kept in order by the registers and predicates named. -/
def State.settleNames (s : State) (i : Instr) (w : Who) : State :=
  let s := s.settleSlow w (fun x => namesMeet x.instr i) (s.slowOf w)
  s.settleLate w (namesDest i) (s.lateOf w)

/-- Perform every access and every computation that an agent has passed over. -/
def State.settleAgent (s : State) (w : Who) : State :=
  let s := s.settleLate w (fun _ => true) (s.lateOf w)
  s.settleSlow w (fun _ => true) (s.slowOf w)

/-- Before accesses that the race filter checks, the stores that it has checked before are performed, whoever has passed them over (08 R204, R206; 11
R288). -/
def State.settleChecked (s : State) : State := s.settleWhere s.tasks (fun x => x.stores && x.acc.checked && x.seg.watched)

/-- Perform every access and every computation that the agents of a task have passed over; the engine commands that are drained next see the stores
that the race filter has checked. -/
def State.settleTask (s : State) (t : Task) : State :=
  ((none :: (t.threadsWhere (fun _ th => !th.ag.slow.isEmpty || !th.ag.late.isEmpty)).map some)).foldl (fun s th =>
    s.settleAgent { task := t.entry.id, thread := th }) s.settleChecked

/-! ### Passing a computation over -/

/-- The threads of an issue that perform an instruction together: the live threads of a quad or a group for an exchange, else each alone. -/
def passUnits (i : Instr) (t : Task) (ks : List Nat) : List (List Nat) :=
  let n := match i with
    | .qswap _ | .qbcast _ => 4
    | .gshfl _ | .gvote _ | .gred _ | .gscan _ | .gmatch _ => 32
    | _ => 1
  if n = 1 then ks.map (fun k => [k])
  else (((ks.map (fun k => k / n)).eraseDups).map (fun u => ks.filter (fun k => k / n == u))).filter (fun l =>
    (t.liveThreads.filter (fun k => l.any (fun j => j / n == k / n))).all (fun k => l.contains k) && (t.helpersOf l).isEmpty)

/-- The operands on which a trap of an instruction depends: the format word of CVT8 and UNP8 (06 R146, R147). -/
def trapOperands (i : Instr) : List (Nat × Nat) :=
  match i with
  | .cvt8 f | .unp8 f => [(shape i).c.span f.c]
  | _ => []

/-- Whether an agent may pass an instruction over: no check of it fails or suppresses it, and it does not trap. -/
def State.mayPass (s : State) (i : Instr) (f : Fields) (w : Who) : Bool :=
  match s.task? w.task with
  | none => false
  | some t => check i f t w.thread == .ok false
      && !(trapOperands i).any (fun p => (s.lateOf w).any (fun x => spansMeet p x.dest)
          || (s.slowOf w).any (fun x => match x.instr.fields? with
            | some g => ((shape x.instr).writes g).any (spansMeet p)
            | none => false))

/-- The groups of threads of an issue that pass an instruction over: something that it names is not there yet, and each of them may. -/
def State.passGroups (s : State) (i : Instr) (f : Fields) : List (List Nat) :=
  match s.task? s.cur.task with
  | none => []
  | some t =>
    let who (l : List Nat) : List Who := if l.isEmpty then [{ task := s.cur.task }] else l.map (fun k => { task := s.cur.task, thread := some k })
    (if s.cur.uniform then [[]] else passUnits i t (s.cur.threads.filter t.canIssue)).filter (fun l =>
      (who l).any (fun w => s.awaits w i) && (who l).all (fun w => s.mayPass i f w))

/-- The agents whose turn it is. -/
def State.movers (s : State) : List Who :=
  if s.cur.uniform then [{ task := s.cur.task }] else s.cur.threads.map (fun k => { task := s.cur.task, thread := some k })

/-- An instruction of spaces 0x00 to 0x04 whose agents pass it over where they await an operand. It issues in all of them; what it writes there is
written again when it is performed. -/
def passCompute (i : Instr) (g : State → Host.Outcome State Fault Refusal) (s : State) : Host.Outcome State Fault Refusal :=
  match i.fields?, s.task? s.cur.task with
  | some f, some t =>
    let passed := s.passGroups i f
    let passes (w : Who) : Bool := match w.thread with
      | none => !passed.isEmpty
      | some k => passed.any (fun l => l.contains k)
    let note (s : State) (l : List Nat) : State :=
      let x : Slow := { instr := i, group := l, ord := (t.thread (l.headD 0)).convOrd, modes := t.modes, fmtDef := t.fmtDef }
      (x.members s.cur.task).foldl (fun s w => s.modAgent w (fun a => { a with slow := a.slow ++ [x] })) s
    match g ((s.movers.filter (fun w => !passes w)).foldl (fun s w => s.settleNames i w) s) with
    | .next s' => .next (passed.foldl note s')
    | r => r
  | _, _ => g s

end Sys2Proof.Machine
end

