-- ==== Sys2Proof/Machine/Queue.lean ====
section
/-! DEFINITION. The command processor's queues: reading and refusing packets, starting launches, creating sweep tasks, completing trees
(13 R320 to R324; 15 R378 to R386; 08 R194, R205; 17 R434). -/

namespace Sys2Proof.Machine

/-! ### Reading packets (R379, R380) -/

/-- Park a queue on a page that is not present (15 R377, R453). -/
def State.parkQueue (s : State) (ctx q : Nat) (p : Park) : State :=
  (s.raisePageFault ctx 0 p).modQueue ctx q (fun x => { x with parked := some p })

/-- What looking at a queue gives: nothing to do, a new state (parked or disabled), or the packet at its head, once read, with its descriptor. -/
inductive Peek where
  | idle
  | moved (s : State)
  | packet (s : State) (d : QueueDesc) (bytes : List Byte)
  deriving DecidableEq, Repr, Inhabited

/-- Take a doorbell value of a queue whose descriptor has been read (R379): a DEVENQ queue discards it, and one beyond the ring disables the queue
and is not kept. -/
def State.takeDoorbell (s : State) (ctx q : Nat) (d : QueueDesc) (value : Nat) : State :=
  if d.devenq then s
  else if d.ok && decide (d.read + 2 ^ d.logsize < value) then s.disableQueue ctx q
  else s.modQueue ctx q (fun x => { x with doorbell := max x.doorbell value })

/-- Take the value that waits to be compared with READ, and then those given: the largest value written counts (R379). -/
def State.takeDoorbells (s : State) (ctx q : Nat) (d : QueueDesc) (values : List Nat) : State :=
  let old := match s.ctx? ctx with | some c => (c.queue q).unchecked.toList | none => []
  (old ++ values).foldl (fun s v => s.takeDoorbell ctx q d v) (s.modQueue ctx q (fun x => { x with unchecked := none }))

/-- Read a queue's descriptor; one that cannot be read or breaks R378 disables the queue, which is idle until its next notify (R380; log entry
79). -/
def State.readQueue (s : State) (ctx q : Nat) : Peek :=
  match s.ctx? ctx with
  | none => .idle
  | some c =>
    if c.nQueues ≤ q ∨ (c.queue q).parked.isSome ∨ (c.queue q).dead then .idle
    else match s.cpRead ctx (c.queueTab + 64 * q) 64 with
      | .pend p => .moved (s.parkQueue ctx q p)
      | .fault => .moved (s.disableQueue ctx q)
      | .ok bs =>
        let d := queueDesc bs
        match (c.queue q).unchecked with
        | some _ => .moved (s.takeDoorbells ctx q d [])
        | none => if !d.enabled then .idle else if d.ok then .packet s d [] else .moved (s.disableQueue ctx q)

/-- The packet at the head of a queue. It is read once, and performed with the contents that it had at that read (R380). -/
def State.peek (s : State) (ctx q : Nat) : Peek :=
  match s.ctx? ctx, s.readQueue ctx q with
  | some c, .packet _ d _ =>
    let x := c.queue q
    match x.packet with
    | some bs => .packet s d bs
    | none =>
      if x.doorbell ≤ d.read then .idle
      else match s.cpRead ctx (match x.indirect with | some (a, _, k) => a + 128 * k | none => d.packetAt d.read) 128 with
        | .pend p => .moved (s.parkQueue ctx q p)
        | .fault => .moved (s.disableQueue ctx q)
        | .ok bs => .packet (s.modQueue ctx q (fun x => { x with packet := some bs })) d bs
  | _, r => r

/-- Write READ of a queue; where its page cannot be written the queue is disabled (log entry 79). -/
def State.setRead (s : State) (ctx q n : Nat) : State :=
  match s.ctx? ctx with
  | none => s
  | some c => (match s.cpWrite ctx (c.queueTab + 64 * q + 24) (leBytes 8 n) with
    | .ok s => s
    | .fault => s.disableQueue ctx q
    | .pend _ => s.writeDescriptor ctx (c.queueTab + 64 * q + 24) (leBytes 8 n))

/-- Advance past a packet: within an indirect buffer, or in the ring (R380). -/
def State.advanceQueue (s : State) (ctx q : Nat) (d : QueueDesc) : State :=
  match s.ctx? ctx with
  | none => s
  | some c =>
    let s := s.modQueue ctx q (fun x => { x with packet := none, refused := none })
    match (c.queue q).indirect with
    | some (a, n, k) =>
      if k + 1 < n then s.modQueue ctx q (fun x => { x with indirect := some (a, n, k + 1) })
      else (s.modQueue ctx q (fun x => { x with indirect := none })).setRead ctx q (d.read + 1)
    | none => s.setRead ctx q (d.read + 1)

/-! ### Reports (R322, R385, R386) -/

/-- Decrement a signal, with an atomic subtraction at its home slice (13 R324). -/
def State.decrement (s : State) (pa : Nat) : State :=
  let s := s.writeBackEverywhere (pa / 128)
  s.setHome pa (leBytes 8 (ofLE (s.home pa 8) + 2 ^ 64 - 1))

/-- Write a status record, decrement the signal, send the interrupt message. A descriptor that cannot be read loses the record (R453). -/
def State.report (s : State) (ctx q n status signal : Nat) (intr : Bool) : CpRes State :=
  match s.ctx? ctx with
  | none => .ok s
  | some c =>
    let has := signal != 0 && signal % 8 == 0
    let x := if has then s.translateCp ctx signal { r := true, w := true } else .fault
    match x with
    | .pend => .pend { va := signal, write := true, engine := true }
    | _ =>
      let pa? := match x with | .ok pa _ => some pa | _ => none
      let rest (s : State) : State :=
        let s := match pa? with | some pa => s.decrement pa | none => s
        if intr then { s with interrupts := s.interrupts ++ [{ vec := c.intVec, ctx := ctx, queue := q, index := n }] } else s
      match s.cpRead ctx (c.queueTab + 64 * q) 64 with
      | .pend p => .pend p
      | .fault => .ok (rest (s.disableQueue ctx q))
      | .ok bs =>
        let rcd := leBytes 8 n ++ leBytes 4 status ++ leBytes 4 (b2n (has && pa?.isNone))
        match s.cpWrite ctx ((queueDesc bs).statusAt n) rcd with
        | .pend p => .pend p
        | .fault => .ok (rest (s.disableQueue ctx q))
        | .ok s => .ok (rest s)

/-- Refuse a packet with a status; a launch decrements its signal. A page that is not present holds the report, and the packet stays refused. -/
def State.refuse (s : State) (ctx q : Nat) (d : QueueDesc) (bs : List Byte) (status : Nat) : State :=
  let launch := leField bs 0 1 == 1 || leField bs 0 1 == 2
  match s.report ctx q d.read status (if launch then leField bs 72 8 else 0) (launch && bitAt (leField bs 1 1) 0) with
  | .ok s => s.advanceQueue ctx q d
  | .pend p => (s.parkQueue ctx q p).modQueue ctx q (fun x => { x with refused := some status })
  | .fault => s

/-- A packet of a TYPE that a step takes; of one that has been refused, its report is tried again. -/
def State.onPacket (s : State) (ctx q : Nat) (p : Nat → Bool) (g : State → QueueDesc → List Byte → State) : State :=
  match s.peek ctx q with
  | .idle => s
  | .moved s => s
  | .packet s d bs =>
    match (s.ctx? ctx).bind (fun c => (c.queue q).refused) with
    | some st => s.refuse ctx q d bs st
    | none => if p (leField bs 0 1) then g s d bs else s

/-! ### Packets -/

/-- A write to a queue doorbell (R379): the largest value written counts. While the descriptor cannot be read, the largest value waits to be compared
with READ. -/
def State.ringDoorbell (s : State) (ctx q value : Nat) : State :=
  match s.ctx? ctx with
  | none => s
  | some c =>
    if c.nQueues ≤ q then s
    else
      let s := s.modQueue ctx q (fun x => { x with dead := false })
      match s.cpRead ctx (c.queueTab + 64 * q) 64 with
      | .pend p => (s.parkQueue ctx q p).modQueue ctx q (fun x => { x with unchecked := some (max (x.unchecked.getD 0) value) })
      | .fault => (s.disableQueue ctx q).modQueue ctx q (fun x => { x with unchecked := some (max (x.unchecked.getD 0) value) })
      | .ok bs => s.takeDoorbells ctx q (queueDesc bs) [value]

/-- QUEUE_DOORBELL (R379). -/
def execQueueDoorbell (ctx q value : Nat) (s : State) : Host.Outcome State Fault Refusal := .next (s.ringDoorbell ctx q value)

/-- Whether a launch packet keeps the ranges of R382 that the packet alone shows. -/
def launchOk (d : List Byte) : Bool :=
  let sweep := leField d 0 1 == 2
  let aligned (o : Nat) : Bool := leField d o 8 % 8 == 0
  decide (leField d 1 1 < 16) && field (leField d 2 2) 15 10 == 0 && decide (field (leField d 2 2) 9 4 ≤ 31)
  && leField d 56 4 % 64 == 0 && leField d 60 4 % 64 == 0 && aligned 72 && aligned 80 && aligned 88
  && (if sweep then leField d 116 4 != 0 && leField d 120 4 != 0 && leField d 124 4 != 0
      else leField d 104 8 == 0 && leField d 116 12 == 0)

/-- A launch packet is read: it waits for its dependences, or is refused. -/
def State.takeLaunch (s : State) (ctx q ty : Nat) : State :=
  s.onPacket ctx q (fun t => t == ty) (fun s d bs => if launchOk bs then s else s.refuse ctx q d bs stLAUNCH_FORM)

/-- TREE_LAUNCH (R382). -/
def execTreeLaunch (ctx q : Nat) (s : State) : Host.Outcome State Fault Refusal := .next (s.takeLaunch ctx q 1)
/-- SWEEP_LAUNCH (R382). -/
def execSweepLaunch (ctx q : Nat) (s : State) : Host.Outcome State Fault Refusal := .next (s.takeLaunch ctx q 2)

/-- UNKNOWN_PACKET_TYPE (R381). -/
def execUnknownPacketType (ctx q : Nat) (s : State) : Host.Outcome State Fault Refusal :=
  .next (s.onPacket ctx q (fun t => t == 0 || decide (5 ≤ t)) (fun s d bs => s.refuse ctx q d bs stPACKET_FORM))

/-- INDIRECT_BUFFER (R384). -/
def execIndirectBuffer (ctx q : Nat) (s : State) : Host.Outcome State Fault Refusal :=
  .next (s.onPacket ctx q (fun t => t == 4) (fun s d bs =>
    let nested := match s.ctx? ctx with | some c => (c.queue q).indirect.isSome | none => false
    let a := leField bs 8 8
    let n := leField bs 16 4
    if nested || a % 128 != 0 || n == 0 || decide (65535 < n) || leField bs 1 7 != 0 || leField bs 20 108 != 0 then
      s.refuse ctx q d bs stPACKET_FORM
    else s.modQueue ctx q (fun x => { x with packet := none, indirect := some (a, n, 0) })))

/-- Whether a determinism packet keeps the table of R383. Bits [7:2] of byte 2, of which the table says nothing, are to be zero, a DESIGN CHOICE (log
entry 94). -/
def determinismOk (d : List Byte) : Bool :=
  let level := leField d 2 1
  decide (level ≤ 2) && decide (leField d 3 1 ≤ 1) && leField d 1 1 == 0 && leField d 4 4 == 0 && leField d 16 112 == 0
  && leField d 8 8 % 64 == 0 && (level == 2 || (leField d 3 1 == 0 && leField d 8 8 == 0))

/-- DETERMINISM_PACKET (R383, 17 R434): the level of later launches, with the trace that a D2 level records or binds to. Where the header's bytes that a
recording writes cannot be written, the packet is performed without them (DESIGN CHOICE, log entry 102). -/
def execDeterminismPacket (ctx q : Nat) (s : State) : Host.Outcome State Fault Refusal :=
  .next (s.onPacket ctx q (fun t => t == 3) (fun s d bs =>
    let level := leField bs 2 1
    let a := leField bs 8 8
    let bind := leField bs 3 1 == 1
    let set (s : State) (tr : Option Trace) : State :=
      (s.modQueue ctx q (fun x => { x with level := level, trace := tr })).advanceQueue ctx q d
    if !determinismOk bs then s.refuse ctx q d bs stPACKET_FORM
    else if level < 2 then set s none
    else match s.cpRead ctx a 128 with
      | .pend p => s.parkQueue ctx q p
      | .fault => s.refuse ctx q d bs stPACKET_FORM
      | .ok h =>
        if !traceHeaderOk bind h then s.refuse ctx q d bs stPACKET_FORM
        else
          if bind then set { s with nextId := s.nextId + 1 } (some { addr := a, bind := true, binding := s.nextId })
          else
            let part := match s.ctx? ctx with | some c => c.partition | none => 0
            match s.cpWrite ctx (a + 24) (leBytes 1 2 ++ List.replicate 7 0 ++ leBytes 72 (s.partitionMap part)) with
            | .pend p => s.parkQueue ctx q p
            | .fault => set s (some { addr := a, bind := false })
            | .ok s => set s (some { addr := a, bind := false })))

/-! ### Launch start (R320, R380) -/

/-- The binding of one reducer (08 R194), or `none` where it refuses the launch. -/
def bindingOf (r : Reducer) (d : List Byte) : Option (Reducer × Binding) :=
  let width := if 8 ≤ r.kind then 16 else redBits r.type / 8
  if leField d 0 8 % width ≠ 0 ∨ (leField d 8 4 ≠ 0 ∧ r.kind < 9) ∨ leField d 12 4 ≠ 0 then none
  else some (r, { result := leField d 0 8, cap := leField d 8 4 })

/-- The bindings of a tree's reducers. -/
def State.readBindings (s : State) (ctx table : Nat) : List Reducer → CpRes (List (Reducer × Binding))
  | [] => .ok []
  | r :: rs =>
    (s.cpRead ctx (table + 16 * r.index) 16).bind (fun d =>
      match bindingOf r d with
      | none => .fault
      | some b => (State.readBindings s ctx table rs).bind (fun bs => .ok (b :: bs)))

/-- A coverage descriptor (09 R221), or `none` where it breaks a range. -/
def coverageOf (d : List Byte) : Option Coverage :=
  let etype := leField d 43 1
  let w := elemBytes etype
  let es := signExt (leField d 41 1) 8
  let c : Coverage :=
    { base := leField d 0 8, record := leField d 8 8, rowPitch := leField d 16 8, planePitch := leField d 24 8,
      target := leField d 32 4, cinit := leField d 36 1, cmin := leField d 37 1, cmax := leField d 38 1, stepMax := leField d 39 1,
      gain := leField d 40 1, es := es, lattice := leField d 42 1 % 4, errMode := bitAt (leField d 42 1) 2, etype := etype }
  if etype ≤ 7 ∧ c.base % w = 0 ∧ c.record % 16 = 0 ∧ c.rowPitch % w = 0 ∧ c.planePitch % w = 0 ∧ c.cmin ≤ c.cinit ∧ c.cinit ≤ c.cmax
      ∧ 1 ≤ c.stepMax ∧ -32 ≤ es ∧ es ≤ 31 ∧ leField d 42 1 < 8 ∧ leField d 44 20 = 0
  then some c else none

/-- Whether the dependences of a launch are satisfied: its signals read zero (R380). A poisoned one keeps it back no longer: `launchTainted` then refuses
it. -/
def State.depsMet (s : State) (ctx : Nat) (d : List Byte) : CpRes Bool :=
  let one (a : Nat) : CpRes Bool := if a = 0 || s.cpTainted ctx a 8 then .ok true else (s.cpRead ctx a 8).bind (fun bs => .ok (ofLE bs == 0))
  (one (leField d 80 8)).bind (fun x => (one (leField d 88 8)).bind (fun y => .ok (x && y)))

/-- A filter tag that no tree holds (08 R205; log entry 9). -/
def State.freeTag (s : State) : Option Nat :=
  pickFree .filterTag s.tick (((List.range 127).map (· + 1)).filter (fun k => !s.trees.any (fun r => r.tag == some k)))

/-- The next launch ordinal of a context (02 R37). -/
def nextOrdinal (o : W32) : W32 := if o + 1 = 0 then 1 else o + 1

/-- The tree that a launch starts. The bands of a sweep without a descriptor are decided from the start, with code 255 (DESIGN CHOICE, log entry
77). -/
def launchTree (s : State) (ctx q : Nat) (c : Ctx) (n : Nat) (d : List Byte) (rcd : TaskRec) (ntask : Nat)
    (bs : List (Reducer × Binding)) (cov : Option Coverage) (tag : Option Nat) : Tree :=
  let x := c.queue q
  let sweep := leField d 0 1 == 2
  let r : Tree :=
    { id := s.nextId, ctx := ctx, queue := q, index := n, ordinal := nextOrdinal c.ordinal, level := x.level, record := leField d 4 4,
      rcd := rcd, code := leField d 8 8, ntask := ntask, groups := field (leField d 2 2) 3 0 + 1,
      last := lastCount (field (leField d 2 2) 9 4), arg := BitVec.ofNat 64 (leField d 16 8),
      trapVec := BitVec.ofNat 64 (leField d 24 8), seed := BitVec.ofNat 64 (leField d 32 8),
      prio := field (leField d 1 1) 3 2, intr := bitAt (leField d 1 1) 0, signal := leField d 72 8, heapBase := leField d 40 8,
      heapSize := leField d 48 8, carve := leField d 56 4, slice := leField d 60 4, binArea := leField d 96 8,
      binSize := leField d 112 4, counter := 0, bindings := bs, tag := tag, filter := tag.isSome, sweep := sweep,
      ex := leField d 116 4, ey := leField d 120 4, ez := leField d 124 4, cov := cov, trace := x.trace }
  if sweep then
    { r with
      tiles := r.nxt * r.numBands
      bands := (List.range r.numBands).map (fun b => {
        code := match cov with | none => some 255 | some v => if b < 2 then some v.cinit else none
        left := r.nxt }) }
  else r

/-- The deque entry of a seed task (R321). -/
def seedEntry (r : Tree) (id : Nat) : Entry :=
  let a := r.arg.toNat
  { id := id, ctx := r.ctx, tree := r.id, record := r.record, rcd := r.rcd, groups := r.groups, last := r.last, ped := {},
    s := [r.arg, 0, 0, 0], x := [BitVec.ofNat 32 a, BitVec.ofNat 32 (a / 2 ^ 32), 0, 0, 0, 0], trapVec := r.trapVec,
    lo := r.heapBase, hi := r.heapBase + r.heapSize, carve := r.carve, slice := r.slice }

/-- The deque entry of the task of a tile (R321, 08 R202). -/
def tileEntry (r : Tree) (id tile : Nat) : Entry :=
  let p := r.corner tile
  let a := r.arg.toNat
  let top := r.heapBase + r.heapSize
  let b32 (v : Nat) : W32 := BitVec.ofNat 32 v
  { id := id, ctx := r.ctx, tree := r.id, record := r.record, rcd := r.rcd, groups := r.groups, last := r.last,
    ped := { sweep := true, elems := [tile / 1024 % 1024, tile % 1024] },
    s := [BitVec.ofNat 64 tile, BitVec.ofNat 64 (p.x + p.y * 2 ^ 32), BitVec.ofNat 64 p.z, r.arg],
    x := [b32 p.x, b32 p.y, b32 p.z, b32 tile, b32 a, b32 (a / 2 ^ 32)], trapVec := r.trapVec,
    lo := min (r.heapBase + tile * r.carve) top, hi := min (r.heapBase + (tile + 1) * r.carve) top, carve := r.carve,
    slice := r.slice, tile := some tile, cov := ((r.bands.getD (r.bandOf tile) {}).code).getD 255,
    wide := r.cov.any (fun d => d.etype == 3) }

/-- Push a created task on a core of the partition. -/
def State.createOn (s : State) (core : Nat) (e : Entry) : Pushed := { s with nextId := e.id + 1 }.pushCreated core e

/-- Trees in flight. -/
def State.inFlight (s : State) : List Tree := s.trees.filter (fun r => !r.reported)

/-- A launch with everything read starts (R320): the seed task, or the walker. -/
def State.startLaunch (s : State) (core : Nat) (qd : QueueDesc) (r : Tree) : Pushed :=
  let s := { s with nextId := r.id + 1 }
  let s := s.modCtx r.ctx (fun c => { c with ordinal := r.ordinal })
  let s := s.modQueue r.ctx r.queue (fun x => { x with trace := x.trace.map (fun t => { t with launch := t.launch + 1 }) })
  let r := if r.sweep then r else { r with counter := 1 }
  let s := { s with trees := s.trees ++ [r] }
  (if r.sweep then .ok s else s.createOn core (seedEntry r s.nextId)).bind (fun s => .ok (s.advanceQueue r.ctx r.queue qd))

/-- Whether a read for a launch takes a poisoned byte: of its signals, its code object's records, its binding table, its coverage descriptor, or the
header of a trace that binds it (17 R427). -/
def State.launchTainted (s : State) (ctx q : Nat) (c : Ctx) (d : List Byte) : Bool :=
  !s.poison.isEmpty
  && ((leField d 80 8 != 0 && s.cpTainted ctx (leField d 80 8) 8) || (leField d 88 8 != 0 && s.cpTainted ctx (leField d 88 8) 8)
    || s.recordTainted ctx (leField d 8 8) (leField d 4 4)
    || (match s.readRecord ctx (leField d 8 8) (leField d 4 4) with
        | .ok rcd => rcd.reducers.any (fun r => s.cpTainted ctx (leField d 64 8 + 16 * r.index) 16)
        | _ => false)
    || (leField d 0 1 == 2 && leField d 104 8 != 0 && s.cpTainted ctx (leField d 104 8) 64)
    || (c.queue q).trace.any (fun t => t.bind && s.cpTainted ctx t.addr 128))

/-- What a launch needs from memory at its start (R320, R382; 08 R194; 09 R219, R221; 17 R436): the tree, or the status that refuses it.
`fault` stands for LAUNCH_FORM, to which the header of a bound trace that cannot be read leads too (log entry 91). A descriptor that is not 64-byte
aligned refuses it with COVERAGE_FORM (log entry 78), a poisoned byte with UNCORRECTED (log entry 87). -/
def State.launchPlan (s : State) (ctx q : Nat) (c : Ctx) (n : Nat) (d : List Byte) : CpRes (Except Nat Tree) :=
  let sweep := leField d 0 1 == 2
  let code := leField d 8 8
  if s.launchTainted ctx q c d then .ok (.error stUNCORRECTED)
  else (s.cpRead ctx code 96).bind (fun hd =>
    if (codeHeader hd).ntask ≤ leField d 4 4 then .fault
    else (s.readRecord ctx code (leField d 4 4)).bind (fun rcd =>
      if rcd.sweep ≠ sweep ∨ (leField d 64 8 = 0 ∧ rcd.reducers ≠ []) then .fault
      else (s.readBindings ctx (leField d 64 8) rcd.reducers).bind (fun bs =>
        let tag := s.freeTag
        let plan (cov : Option Coverage) : CpRes (Except Nat Tree) :=
          let r := launchTree s ctx q c n d rcd (codeHeader hd).ntask bs cov (if (c.queue q).level = 0 then none else tag)
          if sweep ∧ 2 ^ 20 < r.tiles then .ok (.error stCOVERAGE_FORM)
          else match r.trace with
            | some t =>
              if t.bind then (s.cpRead ctx t.addr 128).bind (fun h =>
                if s.traceMismatch h then .ok (.error stTRACE_MISMATCH) else .ok (.ok r))
              else .ok (.ok r)
            | none => .ok (.ok r)
        let cd := leField d 104 8
        if !sweep || cd == 0 then plan none
        else if cd % 64 ≠ 0 then .ok (.error stCOVERAGE_FORM)
        else match s.cpRead ctx cd 64 with
          | .pend p => .pend p
          | .fault => .ok (.error stCOVERAGE_FORM)
          | .ok bytes =>
            match coverageOf bytes with
            | none => .ok (.error stCOVERAGE_FORM)
            | some v => plan (some v))))

/-- LAUNCH_START (R320, R380): a launch whose dependences are satisfied starts on a core of its partition, or is refused. It waits while
an earlier launch of its queue is in flight and BARRIER is set, and while no filter tag is free (08 R205). -/
def execLaunchStart (ctx q core : Nat) (s : State) : Host.Outcome State Fault Refusal :=
  .next (match s.ctx? ctx, s.readQueue ctx q with
    | some c, .packet _ qd _ =>
      match (c.queue q).refused, (c.queue q).packet with
      | none, some d =>
        if !(leField d 0 1 == 1 || leField d 0 1 == 2) || !launchOk d then s else
        let barrier := bitAt (leField d 1 1) 1 && s.inFlight.any (fun r => r.ctx == ctx && r.queue == q)
        let needTag := (c.queue q).level != 0 && s.freeTag.isNone
        let placed := decide (core < numCores) && s.inPartition core ctx && (s.cluster (clusterOf core)).inService
        if barrier then s
        else match s.depsMet ctx d with
          | .pend p => s.parkQueue ctx q p
          | .fault => s.refuse ctx q qd d stLAUNCH_FORM
          | .ok false => s
          | .ok true =>
            match s.launchPlan ctx q c qd.read d with
            | .pend p => s.parkQueue ctx q p
            | .fault => s.refuse ctx q qd d stLAUNCH_FORM
            | .ok (.error st) => s.refuse ctx q qd d st
            | .ok (.ok r) =>
              if needTag || !placed then s
              else match s.startLaunch core qd r with
                | .ok s' => s'
                | .pend x tr p => if x = ctx then s.parkQueue ctx q p else s.coreWaits core x tr p
      | _, _ => s
    | _, .moved s => s
    | _, _ => s)

/-- SWEEP_TASK_CREATION (R320; 09 R220): the walker creates the next tile's task once the band two before it is complete. -/
def execSweepTaskCreation (tree core : Nat) (s : State) : Host.Outcome State Fault Refusal :=
  .next (match s.tree? tree with
    | none => s
    | some r =>
      let b := r.bandOf r.walker
      let paced := b < 2 || (r.bands.getD (b - 2) {}).complete
      if r.ending.isSome || r.waits.isSome || decide (r.tiles ≤ r.walker) || !paced || !decide (core < numCores) || !s.inPartition core r.ctx
          || !(s.cluster (clusterOf core)).inService then s
      else
        let s1 := s.modTree tree (fun r => { r with walker := r.walker + 1, counter := r.counter + 1 })
        match s1.createOn core (tileEntry r s.nextId r.walker) with
        | .ok s' => s'
        | .pend x tr p =>
          if x = r.ctx then s.treeWaits tree p else s.coreWaits core x tr p)

/-! ### Completion (R322) -/

/-- A result as it is written at RESULT (08 R194). -/
def resultBytes (level : Nat) (r : Reducer) (cap : Nat) (us : List Update) : List Byte :=
  let order := inKeyOrder level us
  let head := leBytes 8 us.length ++ leBytes 1 (b2n (decide (cap < us.length))) ++ List.replicate 7 0
  match r.kind with
  | 8 => leBytes 8 (foldUpdates level 8 r.type us) ++ leBytes 1 (b2n (!us.isEmpty)) ++ List.replicate 7 0
  | 9 => head ++ (order.take cap).flatMap (fun u => leBytes 8 u.value)
  | 10 => head ++ (order.take cap).flatMap (fun u => leBytes 8 u.value ++ leBytes 8 u.digest)
  | k => leBytes (redBits r.type / 8) (foldUpdates level k r.type us)

/-- All updates of a tree to a reducer: those of its views, in ascending tile index (08 R197). -/
def Tree.updatesOf (t : Tree) (r : Reducer) : List Update :=
  (sortBy (fun a b => decide (a.elem ≤ b.elem)) t.tops).flatMap (fun c =>
    (c.views.filter (fun v => v.index == r.index)).flatMap (fun v => (inKeyOrder t.level v.updates).map (fun u => { u with source := .child })))

/-- Write the results of a tree. -/
def State.putResults (s : State) (t : Tree) : List (Reducer × Binding) → CpRes State
  | [] => .ok s
  | (r, b) :: rest =>
    (s.cpWrite t.ctx b.result (resultBytes t.level r b.cap (t.updatesOf r))).bind (fun s => State.putResults s t rest)

/-- Report a tree's status to its queue, with its signal (R322, step 4). A tree that holds a filter tag keeps it until the tag's return. -/
def State.reportTree (s : State) (t : Tree) (status : Nat) : State :=
  match s.report t.ctx t.queue t.index status t.signal t.intr with
  | .ok s =>
    if t.tag.isSome then s.modTree t.id (fun r => { r with ending := some status, reported := true, tops := [] })
    else { s with trees := s.trees.filter (fun r => r.id != t.id) }
  | .pend p => s.treeWaits t.id p
  | .fault => s

/-- TREE_COMPLETE (R322): bin updates, results, the last band's record, the signal and the status; or for an aborted tree the last of these (R323). A
poisoned byte that is read for it makes its status UNCORRECTED (17 R427). -/
def execTreeComplete (tree : Nat) (s : State) : Host.Outcome State Fault Refusal :=
  .next (match s.tree? tree with
    | none => s
    | some t =>
      if t.reported ∨ t.waits.isSome then s
      else match t.ending with
        | some st => s.reportTree t st
        | none =>
          if t.counter ≠ 0 ∨ t.walker < t.tiles then s
          else
            let wait (p : Park) : State := s.treeWaits tree p
            if s.chunksTainted t.ctx ((t.tops.flatMap (fun c => c.views)).flatMap (fun v => v.chunks)) then s.abortTree tree stUNCORRECTED
            else match s.applyBins t.ctx none (sortBy BinUpdate.le (t.tops.flatMap (fun c => c.bins))) with
            | (.pend p, _) => wait p
            | (.ends st, s) => s.abortTree tree st
            | (.ok true, s) => s.abortTree tree stBIN_FAULT
            | (.ok false, s') =>
              match (s'.putResults t t.bindings).bind (fun s => s.writeDue t) with
              | .pend p => wait p
              | .fault => s'.abortTree tree stREDUCER_FAULT
              | .ok s' =>
                if s'.traceTainted t then s'.abortTree tree stUNCORRECTED
                else match s'.traceLeft t with
                | .pend p => wait p
                | left =>
                  let s' := s'.modTree tree (fun r => { r with ending := some (if s'.cpTainted t.ctx t.signal 8 then stUNCORRECTED else if left = .ok true then stTRACE_DIVERGED else stOK), tops := [] })
                  (match s'.tree? tree with
                    | some t => s'.reportTree t (t.ending.getD stOK)
                    | none => s'))

/-- Clear VALID in the postmarks that carry a tag (08 R205). -/
def State.clearTag (s : State) (tag : Nat) : State :=
  let region (a : Nat) : Bool := [0, 1, 2].any (fun d => decide (s.postmarkBase d ≤ a) && decide (a < (d + 1) * dieBytes))
  { s with mem := s.mem.map (fun p =>
      if p.1 % 4 = 3 ∧ region p.1 ∧ p.2.toNat = 2 * tag + 1 then (p.1, BitVec.ofNat 8 (2 * tag)) else p) }

/-- FILTER_TAG_RETURN (08 R205, R208): the tag and pages of a tree that has been reported return to use. -/
def execFilterTagReturn (tag : Nat) (s : State) : Host.Outcome State Fault Refusal :=
  .next (if tag ≠ 0 ∧ tag < 128 ∧ s.trees.any (fun r => r.tag == some tag && r.reported)
    then { s.clearTag tag with trees := s.trees.filter (fun r => !(r.tag == some tag && r.reported)) } else s)

end Sys2Proof.Machine
end

