-- ==== Sys2Proof/Machine/Save.lean ====
section
/-! DEFINITION. The saved image of a task (16 R407 to R411; 08 R455; 14 R367): its bytes, and a task read back from them. -/

namespace Sys2Proof.Machine

/-! ### Bytes at offsets -/

/-- Bytes placed at rising offsets, zeros between them, up to a length. -/
def layout (pos len : Nat) : List (Nat × List Byte) → List Byte
  | [] => List.replicate (len - pos) 0
  | (o, bs) :: rest => List.replicate (o - pos) 0 ++ bs ++ layout (o + bs.length) len rest

/-- Signed and unsigned pieces of a block, read back. -/
def leBool (d : List Byte) (o k : Nat) : Bool := bitAt (leField d o 1) k

/-! ### Records of an agent (R408, R409) -/

/-- A lookahead record. -/
def Window.bytes (w : Window) : List Byte :=
  leBytes 8 (w.left % 16 + (match w.pred with | some p => 2 ^ 4 + 2 ^ 5 * (p % 8) | none => 0) + 2 ^ 8 * (w.first % 512)
    + 2 ^ 17 * ((w.count - 1) % 4) + 2 ^ 19 * b2n w.handler + 2 ^ 20 * b2n w.suspended)
def windowOf (d : List Byte) (o addr : Nat) : Window :=
  let v := leField d o 8
  { left := field v 3 0
    pred := if bitAt v 4 then some (field v 7 5) else none
    first := field v 16 8
    count := if field v 16 8 = 0 then 0 else field v 18 17 + 1
    handler := bitAt v 19
    suspended := bitAt v 20
    addr := addr }

/-- The sixteen lookahead records. Of more than sixteen open windows the oldest stand in the image (DESIGN CHOICE, log entry 75). -/
def windowsBytes (ws : List Window) : List Byte := ((ws.take 16).flatMap Window.bytes) ++ List.replicate (128 - 8 * min ws.length 16) 0
/-- Windows read back. The image gives no slot address to a record: a window keeps the one it had. -/
def windowsOf (d : List Byte) (o : Nat) (old : List Window) : List Window :=
  (List.range 16).filterMap (fun k =>
    if leField d (o + 8 * k) 8 % 16 = 0 then none else some (windowOf d (o + 8 * k) ((old.getD k { left := 0 }).addr)))

def Block.word (b : Block) : Nat := b.left % 16 + 2 ^ 4 * (b.pat % 256) + 2 ^ 12 * b2n b.val
def blockOf (v : Nat) : Block := { left := field v 3 0, pat := field v 11 4, val := bitAt v 12 }

/-- A batch record with its flags below OOB. -/
def batchRecord (ord flags : Nat) (err : Option ErrRec) (oob : Bool) : List Byte :=
  leBytes 4 ord ++ leBytes 4 (flags + 8 * b2n oob + 16 * b2n err.isSome)
  ++ (match err with
    | some e => leBytes 4 e.cause ++ leBytes 4 e.ord ++ leBytes 8 (e.addr.getD 0) ++ leBytes 4 e.later ++ leBytes 4 0
    | none => List.replicate 24 0)
/-- Causes that record an address (R398). -/
def causeHasAddr (c : Nat) : Bool := c == 2 || (decide (7 ≤ c) && decide (c ≤ 10)) || c == 15 || c == 16 || c == 19 || c == 31
def errOf (d : List Byte) (o batch : Nat) : Option ErrRec :=
  if leBool d (o + 4) 4 then
    some { cause := leField d (o + 8) 4, ord := leField d (o + 12) 4, batch := batch,
           addr := if causeHasAddr (leField d (o + 8) 4) then some (leField d (o + 16) 8) else none, later := leField d (o + 24) 4 }
  else none

/-- The sixteen batch records of an agent, and its batch word. -/
def Agent.batchBytes (a : Agent) : List Byte :=
  ((a.closed.take 15).flatMap (fun b => batchRecord b.ord 1 b.err b.oob)) ++ List.replicate (480 - 32 * min a.closed.length 15) 0
  ++ batchRecord ((a.finErr.map (fun e => e.batch)).getD 0) 3 a.finErr a.finOob
def Agent.batchWord (a : Agent) : Nat := a.closed.length + 16 * b2n (a.finErr.isSome || a.finOob)

def parkBytes (p : Option Park) : List Byte :=
  match p with
  | some p => leBytes 8 p.va ++ leBytes 4 (b2n p.write + 2 * b2n p.fetch + 4 * b2n p.engine + 2 ^ 31)
  | none => List.replicate 12 0

/-- The first 80 bytes of the frame of an agent's pending trap, or none. -/
def Task.trapHead (t : Task) (th : Option Nat) : List Byte :=
  match (t.agent th).pending with
  | some p => (t.frameOf th p).take 80
  | none => []
/-- A pending trap read back; whether it is that of a rejected entry, or of the matrix fault record, stands in no field of a
frame. -/
def trapOf (d : List Byte) (o : Nat) (old : Option Trap) : Trap :=
  let fl := leField d (o + 4) 4
  { cause := leField d o 4, uniform := bitAt fl 0, addr := if bitAt fl 1 then some (leField d (o + 32) 8) else none,
    deferred := bitAt fl 3, later := field fl 15 8, pc := leField d (o + 8) 8, insn := wordOfBytes ((d.drop (o + 16)).take 12),
    tid := leField d (o + 28) 4, digest := leField d (o + 48) 8, expand := leField d (o + 56) 4, inner := leField d (o + 60) 4,
    ident := leField d (o + 64) 8, stamp := leField d (o + 72) 8, entry := (old.map (fun t => t.entry)).getD false, matrix := (old.map (fun t => t.matrix)).getD false }

def stackBytes (a : Agent) : List Byte :=
  ((a.stack.take 8).flatMap (fun v => leBytes 8 v.toNat)) ++ List.replicate (64 - 8 * min a.stack.length 8) 0
def stackOfBytes (d : List Byte) (o n : Nat) : List W64 := (List.range n).map (fun k => BitVec.ofNat 64 (leField d (o + 8 * k) 8))

def countsBytes (width : Nat) (m : Sparse Nat) : List Byte := (List.range 16).flatMap (fun k => leBytes width (Sparse.get 0 m k))
def countsOf (d : List Byte) (o width : Nat) : Sparse Nat :=
  (List.range 16).foldl (fun m k => Sparse.put 0 m k (leField d (o + width * k) width)) []

/-! ### Uniform block (R408) -/

def Task.uniformBytes (t : Task) : List Byte :=
  let a := t.u.ag
  layout 0 2048
    [(0, (List.range 64).flatMap (fun k => leBytes 8 (t.reg none k))), (512, leBytes 8 a.pc.toNat), (520, leBytes 1 a.predByte),
     (521, leBytes 1 (b2n a.waiting)), (522, leBytes 2 a.block.word), (524, leBytes 4 t.u.mcmdOrd.toNat),
     (528, leBytes 4 t.u.mconvOrd.toNat), (532, leBytes 4 a.copyOrd.toNat), (536, leBytes 4 a.batchOrd.toNat),
     (540, leBytes 4 (t.u.pedpos.toNat + 2 ^ 16 * b2n t.u.lastUsed)), (544, leBytes 8 t.u.retired.toNat), (552, leBytes 8 t.u.lo),
     (560, leBytes 8 t.u.hi), (568, leBytes 8 t.u.carve), (576, leBytes 8 t.u.slice), (584, stackBytes a),
     (648, leBytes 4 a.stack.length), (652, leBytes 4 a.spilled), (656, windowsBytes a.windows), (784, countsBytes 8 a.counts),
     (912, batchRecord 0 0 a.opened.err a.opened.oob), (944, a.batchBytes), (1456, leBytes 4 a.batchWord),
     (1472, leBytes 64 t.entry.ped.image), (1536, leBytes 8 t.trapVec.toNat), (1544, leBytes 4 t.fmtDef.toNat),
     (1548, leBytes 4 t.modes.toNat), (1552, leBytes 4 t.hstall.toNat), (1560, leBytes 8 t.taskcfg), (1568, leBytes 4 t.u.covN),
     (1572, leBytes 8 t.u.covS), (1580, leBytes 4 (b2n t.u.covDone)), (1584, parkBytes a.parked),
     (1600, t.trapHead none)]

/-- The parts of an agent that both layouts hold, read back from their places. -/
structure AgentAt where
  copyOrd : Nat
  batchOrd : Nat
  stack : Nat
  depth : Nat
  windows : Nat
  counts : Nat
  width : Nat
  opened : Nat
  batches : Nat
  word : Nat
  pending : Nat

/-- An agent read back. Which commands a batch waits for, and whether an open batch has been joined, follow from the task that was saved. One whose stall
begins anew executes its instruction again (10 R254). -/
def Agent.readFrom (old : Agent) (d : List Byte) (o : AgentAt) (pc preds : Nat) (blk : Nat) (waits pend : Bool) : Agent :=
  { old with
    pc := BitVec.ofNat 64 pc
    preds := BitVec.ofNat 8 (preds % 128 / 2 * 2)
    block := blockOf blk
    windows := windowsOf d o.windows old.windows
    stack := stackOfBytes d o.stack (leField d o.depth 4)
    spilled := leField d (o.depth + 4) 4
    copyOrd := BitVec.ofNat 32 (leField d o.copyOrd 4)
    batchOrd := BitVec.ofNat 32 (leField d o.batchOrd 4)
    opened := { old.opened with err := errOf d o.opened (leField d o.batchOrd 4), oob := leBool d (o.opened + 4) 3 }
    closed := (List.range (leField d o.word 4 % 16)).map (fun k =>
      { old.closed.getD k {} with
        ord := leField d (o.batches + 32 * k) 4
        err := errOf d (o.batches + 32 * k) (leField d (o.batches + 32 * k) 4)
        oob := leBool d (o.batches + 32 * k + 4) 3 })
    finErr := errOf d (o.batches + 480) (leField d (o.batches + 480) 4)
    finOob := leBool d (o.batches + 484) 3
    counts := countsOf d o.counts o.width
    waiting := waits && !old.anew
    anew := false
    pending := if pend then some (trapOf d o.pending old.pending) else none
    parked := none }

def uniformAt : AgentAt :=
  { copyOrd := 532, batchOrd := 536, stack := 584, depth := 648, windows := 656, counts := 784, width := 8, opened := 912, batches := 944, word := 1456,
    pending := 1600 }

/-- Read a uniform block back into a task. -/
def Task.readUniform (t : Task) (d : List Byte) : Task :=
  let ped := leField d 1472 64
  let t := (List.range 63).foldl (fun t k => t.setReg none (k + 1) (leField d (8 * (k + 1)) 8)) t
  { t with
    entry := { t.entry with
      ped := { sweep := bitAt ped 5, elems := (List.range (ped % 32)).map (fun k => field ped (16 * k + 31) (16 * k + 16)) } }
    trapVec := BitVec.ofNat 64 (leField d 1536 8)
    fmtDef := BitVec.ofNat 32 (leField d 1544 4)
    modes := BitVec.ofNat 32 (leField d 1548 4)
    hstall := BitVec.ofNat 32 (leField d 1552 4)
    u := { t.u with
      ag := t.u.ag.readFrom d uniformAt (leField d 512 8) (leField d 520 1) (leField d 522 2) (leBool d 521 0) (leField d 1600 4 != 0)
      mcmdOrd := BitVec.ofNat 32 (leField d 524 4)
      mconvOrd := BitVec.ofNat 32 (leField d 528 4)
      pedpos := BitVec.ofNat 16 (leField d 540 2)
      lastUsed := leBool d 542 0
      retired := BitVec.ofNat 64 (leField d 544 8)
      lo := leField d 552 8
      hi := leField d 560 8
      carve := leField d 568 8
      slice := leField d 576 8
      covN := leField d 1568 4
      covS := leField d 1572 8
      covDone := leBool d 1580 0 } }

/-- Whether every byte of the given ranges is zero. -/
def zeros (d : List Byte) (rs : List (Nat × Nat)) : Bool := rs.all (fun r => leField d r.1 r.2 == 0)

/-- The windows, batches and stack of an agent are within their ranges (R408, R409): unused batch records are zero, and the batch word agrees with
the finished record. -/
def agentFieldsOk (d : List Byte) (o : AgentAt) : Bool :=
  decide (leField d o.depth 4 ≤ 8)
  && (List.range 16).all (fun k => decide (leField d (o.windows + 8 * k) 8 < 2 ^ 21))
  && (List.range 16).all (fun k => decide (leField d (o.batches + 32 * k + 4) 4 < 32) && leField d (o.batches + 32 * k + 28) 4 == 0)
  && decide (leField d (o.opened + 4) 4 < 32) && leField d o.opened 4 == 0 && leField d (o.opened + 28) 4 == 0
  && decide (leField d o.word 4 < 32)
  && (List.range 15).all (fun k => decide (k < leField d o.word 4 % 16) || leField d (o.batches + 32 * k) 32 == 0)
  && bitAt (leField d o.word 4) 4 == (leBool d (o.batches + 484) 3 || leBool d (o.batches + 484) 4)

/-- Range and reserved checks of the uniform block (R408, R414). -/
def uniformOk (d : List Byte) : Bool :=
  zeros d [(0, 8), (1460, 12), (1556, 4), (1596, 4), (1680, 368)] && decide (leField d 521 1 ≤ 1) && decide (leField d 522 2 < 2 ^ 13)
  && decide (leField d 540 4 < 2 ^ 17) && decide (leField d 1472 2 < 64) && decide (leField d 1548 4 < 4) && decide (leField d 1560 8 < 2 ^ 35)
  && decide (leField d 1580 4 ≤ 1) && decide (field (leField d 1592 4) 30 3 = 0) && fwValid true (leField d 1544 4)
  && agentFieldsOk d uniformAt

/-! ### Thread records (R409) -/

/-- Bytes of a thread record. -/
def recordBytes (r : TaskRec) : Nat := 1024 + 4 * r.regWords

def Task.threadBytes (t : Task) (k : Nat) : List Byte :=
  let th := t.thread k
  let a := th.ag
  let fl := b2n (th.status == .live) + 2 * b2n (th.status == .helper) + 4 * b2n (th.status == .free) + 8 * b2n a.parked.isSome
    + 16 * b2n a.pending.isSome + 32 * b2n a.waiting
  layout 0 1024
    [(0, leBytes 8 a.pc.toNat), (8, leBytes 1 a.predByte), (9, leBytes 1 fl), (10, leBytes 2 a.block.word),
     (12, leBytes 4 th.convOrd.toNat), (16, stackBytes a), (80, leBytes 4 a.stack.length), (84, leBytes 4 a.spilled),
     (88, leBytes 8 th.cursor), (96, leBytes 8 th.sliceEnd), (104, parkBytes a.parked), (128, windowsBytes a.windows),
     (256, countsBytes 4 a.counts), (320, leBytes 4 th.scaddOrd.toNat), (324, leBytes 4 a.copyOrd.toNat),
     (328, leBytes 4 a.batchOrd.toNat), (332, leBytes 4 a.batchWord), (336, batchRecord 0 0 a.opened.err a.opened.oob),
     (384, a.batchBytes), (896, leBytes 1 th.marker), (904, t.trapHead (some k))]
  ++ (List.range t.entry.rcd.regWords).flatMap (fun k' =>
      leBytes 4 (if k' + 1 ≤ t.allot.regs then t.reg (some k) (k' + 1) else 0))

def threadAt : AgentAt :=
  { copyOrd := 324, batchOrd := 328, stack := 16, depth := 80, windows := 128, counts := 256, width := 4, opened := 336, batches := 384, word := 332,
    pending := 904 }

/-- Read a thread record back into a task. -/
def Task.readThread (t : Task) (k : Nat) (d : List Byte) : Task :=
  let t := (List.range (min t.allot.regs t.entry.rcd.regWords)).foldl (fun t j =>
    t.setReg (some k) (j + 1) (leField d (1024 + 4 * j) 4)) t
  t.modThread k (fun th => { th with
    status := if leBool d 9 0 then .live else if leBool d 9 1 then .helper else .free
    ag := th.ag.readFrom d threadAt (leField d 0 8) (leField d 8 1) (leField d 10 2) (leBool d 9 5) (leBool d 9 4)
    convOrd := BitVec.ofNat 32 (leField d 12 4)
    cursor := leField d 88 8
    sliceEnd := leField d 96 8
    scaddOrd := BitVec.ofNat 32 (leField d 320 4)
    marker := leField d 896 1 })

/-- Range and reserved checks of a thread record; the word after x511 is zero. -/
def threadOk (words : Nat) (d : List Byte) : Bool :=
  zeros d [(116, 12), (368, 16), (897, 7), (984, 40)] && decide (leField d 9 1 < 64) && decide (popCount 3 (leField d 9 1) = 1)
  && decide (leField d 10 2 < 2 ^ 13) && decide (leField d 896 1 < 64) && decide (field (leField d 112 4) 30 3 = 0)
  && agentFieldsOk d threadAt && (List.range 16).all (fun k => decide (leField d (128 + 8 * k) 8 < 2 ^ 19))
  && (words != 512 || leField d 3068 4 == 0)

/-! ### Task block (R410) -/

/-- The configuration and status word of a tile. -/
def TileCfg.word (c : TileCfg) : Nat := (c.rows - 1) + 2 ^ 5 * (c.cols - 1) + 2 ^ 11 * c.width.log2 + 2 ^ 13 * b2n c.ovt
def tileCfgOf (v : Nat) : TileCfg := { rows := field v 4 0 + 1, cols := field v 10 5 + 1, width := 2 ^ field v 12 11, ovt := bitAt v 13 }
def Tile.word (x : Tile) : Nat :=
  x.next.word + 2 ^ 14 * b2n x.valid + 2 ^ 15 * b2n x.dirty + 2 ^ 16 * b2n x.accOvf + 2 ^ 17 * b2n x.poison

def Barrier.bytes (b : Barrier) : List Byte :=
  leBytes 4 b.phase.toNat ++ leBytes 4 (b2n b.uArrived + 2 ^ 8 * b.uPos + 2 ^ 16 * b.lastPos) ++ leBytes 64 b.arrivals ++ leBytes 64 b.votes
  ++ leBytes 64 b.lastVotes ++ List.replicate 56 0
/-- A barrier read back; how many updates precede its phases stays as it was. -/
def Barrier.readFrom (b : Barrier) (d : List Byte) (o : Nat) : Barrier :=
  { b with
    phase := BitVec.ofNat 32 (leField d o 4)
    uArrived := leBool d (o + 4) 0
    uPos := field (leField d (o + 4) 4) 13 8
    lastPos := field (leField d (o + 4) 4) 21 16
    arrivals := leField d (o + 8) 64
    votes := leField d (o + 72) 64
    lastVotes := leField d (o + 136) 64 }

/-- Decision-queue entry at a ring position. -/
def Task.dqAt (t : Task) (k : Nat) : Option DqEntry := t.dq[(k + 16 - t.dqHead % 16) % 16]?

def Task.taskBytes (t : Task) : List Byte :=
  layout 0 8192
    [(0, (List.range 16).flatMap (fun k => leBytes 8 ((t.dqAt k).elim 0 (fun e => e.value.toNat)))),
     (128, (List.range 16).flatMap (fun k => leBytes 64 ((t.dqAt k).elim 0 (fun e => e.readers)))),
     (1152, leBytes 4 (t.dqHead % 16 + 16 * t.dq.length)),
     (1280, (List.range 16).flatMap (fun k => (t.bar k).bytes)),
     (5376, match t.fault with
       | some e => leBytes 4 e.cause ++ leBytes 4 e.ord ++ leBytes 8 (e.addr.getD 0) ++ leBytes 4 e.later
       | none => []),
     (5504, (List.range 64).flatMap (fun h => leBytes 4 (if h < t.holes.length then
        (t.hole h).state.code + 2 ^ 8 * (t.hole h).readers else 0))),
     (5760, (List.range 15).flatMap (fun k => leBytes 8 (if k < t.allot.mtiles then (t.tile false (k + 1)).word else 0))),
     (5880, (List.range 7).flatMap (fun k => leBytes 8 (if k < t.allot.atiles then (t.tile true (k + 1)).word else 0)))]

/-- The state that a code names. -/
def HoleState.ofCode (n : Nat) : HoleState :=
  match n with
  | 0 => .empty
  | 1 => .filling
  | 2 => .ready
  | _ => .draining

/-- A tile with the configuration and status of an image. -/
def Tile.readWord (x : Tile) (v : Nat) : Tile :=
  { x with next := tileCfgOf v, valid := bitAt v 14, dirty := bitAt v 15, accOvf := bitAt v 16, poison := bitAt v 17 }

/-- Read a task block back into a task. -/
def Task.readTask (t : Task) (d : List Byte) : Task :=
  let head := leField d 1152 4 % 16
  let held := field (leField d 1152 4) 8 4
  let t := (List.range 16).foldl (fun t k => t.setBar k ((t.bar k).readFrom d (1280 + 256 * k))) t
  let t := (List.range t.allot.mtiles).foldl (fun t k => t.modTile false (k + 1) (fun x => x.readWord (leField d (5760 + 8 * k) 8))) t
  let t := (List.range t.allot.atiles).foldl (fun t k => t.modTile true (k + 1) (fun x => x.readWord (leField d (5880 + 8 * k) 8))) t
  { t with
    dqHead := head
    dq := (List.range held).map (fun j =>
      { value := BitVec.ofNat 64 (leField d (8 * ((head + j) % 16)) 8), readers := leField d (128 + 64 * ((head + j) % 16)) 64 })
    fault := if leField d 5376 4 = 0 then none else
      some { cause := leField d 5376 4, ord := leField d 5380 4,
             addr := if causeHasAddr (leField d 5376 4) then some (leField d 5384 8) else none, later := leField d 5392 4 }
    holes := (t.holes.zipIdx).map (fun p =>
      let v := leField d (5504 + 4 * p.2) 4
      { p.1 with state := HoleState.ofCode (v % 4), readers := field v 17 8 }) }

def taskOk (d : List Byte) : Bool :=
  zeros d [(1156, 124), (5396, 108), (5936, 2256)] && decide (leField d 1152 4 < 512) && decide (field (leField d 1152 4) 8 4 ≤ 16)
  && (List.range 16).all (fun k =>
    let v := leField d (1284 + 256 * k) 4
    field v 7 1 == 0 && field v 15 14 == 0 && field v 31 22 == 0 && leField d (1480 + 256 * k) 56 == 0)
  && (List.range 64).all (fun h =>
    let v := leField d (5504 + 4 * h) 4
    field v 7 2 == 0 && field v 31 18 == 0 && decide (field v 17 8 ≤ 272))
  && (List.range 22).all (fun k => decide (leField d (5760 + 8 * k) 8 < 2 ^ 18))

/-! ### Engine block (R411) -/

/-- Whether a command is a matrix command. -/
def isMatrix (w : InstrWord) : Bool := (w.toNat / 2 ^ 89) % 128 == 0x20

/-- Whether a field names a tile. -/
def namesTile (o : Opnd) (v : BitVec 9) : Bool :=
  match o.kind with
  | .m | .m1 | .a | .a1 => v != 0
  | _ => false
/-- The configuration word of a field, zero where it names no tile. -/
def cfgWord (o : Opnd) (v : BitVec 9) (c : TileCfg) : Nat := if namesTile o v then c.word else 0
/-- The configuration that a record gives a field. -/
def cfgOf (o : Opnd) (v : BitVec 9) (old : TileCfg) (w : Nat) : TileCfg := if namesTile o v then tileCfgOf w else old

/-- Whether a command is an MMAS, or a CPYT. -/
def Cmd.isMmas (c : Cmd) : Bool := match decode c.word with | .mmas _ => true | _ => false
def Cmd.isCpyt (c : Cmd) : Bool := match decode c.word with | .cpyt _ => true | _ => false
/-- Whether a command belongs to a copy queue. -/
def Cmd.isCopy (c : Cmd) : Bool :=
  match decode c.word with
  | .cpy _ | .cpys _ | .cpyt _ | .cpyg _ | .cpym _ | .cpyd _ => true
  | _ => false

/-- What a record holds of a captured operand: zero where its field names no register. -/
def captured (o : Opnd) (v : Nat) : Nat := if o.kind.regs = 0 then 0 else v

def Cmd.bytes (c : Cmd) (parked : Bool) : List Byte :=
  let sh := shape (decode c.word)
  let f := c.fields
  layout 0 128
    ([(0, bytesOfWord c.word), (12, leBytes 4 c.ord), (16, leBytes 4 (match c.issuer with | some k => k % 512 | none => 2 ^ 9)),
      (20, leBytes 4 c.batch), (24, leBytes 4 (1 + 2 * b2n parked)), (28, leBytes 4 (if c.isMmas then c.step else 0))]
    ++ (if isMatrix c.word then
        [(32, leBytes 4 (cfgWord sh.d f.d c.cfgD)), (36, leBytes 4 (cfgWord sh.a f.a c.cfgA)), (40, leBytes 4 (cfgWord sh.b f.b c.cfgB)),
         (44, leBytes 4 (cfgWord sh.c f.c c.cfgC)), (48, leBytes 4 c.fw), (56, leBytes 8 c.maddr),
         (64, if c.isMmas then (List.range 8).flatMap (fun k => leBytes 8 (c.bitmaps.getD k 0).toNat) else leBytes 8 c.saddr)]
      else if c.isCpyt then
        [(32, leBytes 4 c.d), (40, leBytes 8 c.a), (56, leBytes 8 c.c), (64, (List.range 64).map (fun k => c.desc.getD k 0))]
      else
        [(32, leBytes 8 (captured sh.d c.d)), (40, leBytes 8 (captured sh.a c.a)), (48, leBytes 8 (captured sh.b c.b)),
         (56, leBytes 8 (captured sh.c c.c))]))

/-- A command read back. What its record does not hold, its strand and its conversion ordinal, stays as captured. -/
def Cmd.readFrom (old : Cmd) (d : List Byte) (o : Nat) : Cmd :=
  let g (k n : Nat) : Nat := leField d (o + k) n
  let c := { old with
    word := wordOfBytes ((d.drop o).take 12)
    ord := g 12 4
    issuer := if bitAt (g 16 4) 9 then none else some (g 16 4 % 512)
    batch := g 20 4
    step := g 28 4
    begun := none
    parked := none
    stall := none
    headSince := none }
  let sh := shape (decode c.word)
  let f := c.fields
  if isMatrix c.word then
    { c with
      cfgD := cfgOf sh.d f.d c.cfgD (g 32 4)
      cfgA := cfgOf sh.a f.a c.cfgA (g 36 4)
      cfgB := cfgOf sh.b f.b c.cfgB (g 40 4)
      cfgC := cfgOf sh.c f.c c.cfgC (g 44 4)
      fw := g 48 4
      maddr := g 56 8
      saddr := if c.isMmas then c.saddr else g 64 8
      bitmaps := if c.isMmas then (List.range 8).map (fun k => BitVec.ofNat 64 (g (64 + 8 * k) 8)) else [] }
  else
    { c with
      d := g 32 8
      a := g 40 8
      b := g 48 8
      c := g 56 8
      desc := if c.isCpyt then (d.drop (o + 64)).take 64 else [] }

/-- Whether a record that is marked valid keeps its form (R411): a command of its queue, every byte that the record does not use zero, and an MMAS
at a step where it may stop. -/
def cmdOk (matrix : Bool) (d : List Byte) : Bool :=
  let c := Cmd.readFrom {} d 0
  decide (leField d 16 4 < 1024) && decide (leField d 24 4 < 4)
  && (!leBool d 24 0 || ((if matrix then isMatrix c.word else c.isCopy) && c.bytes (leBool d 24 1) == d
    && (match decode c.word with
      | .mmas f => decide (c.step ≤ (c.steps f).length) && (c.step == (c.steps f).length || mayStopAt (c.steps f) c.step)
      | _ => true)))

def Task.engineBytes (t : Task) : List Byte :=
  let queue (n : Nat) (l : List Cmd) (head : Bool) : List Byte :=
    ((l.take n).zipIdx).flatMap (fun p => p.1.bytes (p.1.parked.isSome || (head && p.2 == 0)))
      ++ List.replicate (128 * (n - min l.length n)) 0
  ((List.range 4).flatMap (fun q => queue 64 (t.copyq.getD q []) false)) ++ queue 16 t.q4 t.q4park.isSome ++ List.replicate 2048 0

/-- Read an engine block back into a task: as many commands as are marked valid, each over the one that was saved there. -/
def Task.readEngine (t : Task) (d : List Byte) : Task :=
  let queue (base n : Nat) (l : List Cmd) : List Cmd :=
    (List.range n).filterMap (fun k =>
      if leBool d (base + 128 * k + 24) 0 then some ((l.getD k default).readFrom d (base + 128 * k)) else none)
  { t with
    copyq := (List.range 4).map (fun q => queue (8192 * q) 64 (t.copyq.getD q []))
    q4 := queue 32768 16 t.q4
    q4park := none }

def engineOk (d : List Byte) : Bool :=
  (List.range 272).all (fun k => cmdOk (decide (256 ≤ k)) ((d.drop (128 * k)).take 128)) && leField d 34816 2048 == 0

/-! ### Tiles, pigeonholes, expansions, views, merge record (R411) -/

/-- Bytes of a tile's contents: multiplicand tiles with their sidecar. -/
def Tile.image (x : Tile) (acc : Bool) : List Byte :=
  if acc then Sparse.read 0 x.data 0 8192 else Sparse.read 0 x.data 0 2048 ++ Sparse.read 127 x.side 0 64
def Tile.readImage (x : Tile) (acc : Bool) (d : List Byte) : Tile :=
  if acc then { x with data := Sparse.write 0 [] 0 (d.take 8192) }
  else { x with data := Sparse.write 0 [] 0 (d.take 2048), side := Sparse.write 127 [] 0 ((d.drop 2048).take 64) }

/-- Place of a tile in the tiles section. -/
def tilePlace (r : TaskRec) (acc : Bool) (n : Nat) : Nat := if acc then 2112 * r.mtiles + 8192 * (n - 1) else 2112 * (n - 1)

/-- An expansion read back from its image (14 R367). -/
def expansionOf (d : List Byte) : Expansion :=
  let h := leField d 0 8
  let lanes (o n : Nat) : Sparse Nat := (List.range 128).foldl (fun m k => Sparse.put 0 m k (leField d (o + n * k) n)) []
  { base := field h 3 0, logn := field h 5 4, op := field h 9 6, d64 := bitAt h 10, total := field h 63 32, round := leField d 8 4,
    dealer := leField d 16 16, arrived := leField d 32 16, done := leField d 48 16, hasVal := leField d 64 16, cur := leField d 80 16,
    start := lanes 96 4, pref := lanes 608 4, acc := lanes 1120 8, val := lanes 2144 8 }

def expansionOk (d : List Byte) : Bool :=
  let h := leField d 0 8
  field h 5 4 != 3 && decide (field h 9 6 ≤ 10) && bitAt h 11 && field h 31 20 == 0 && leField d 12 4 == 0
  && field h 19 12 == popCount 128 (leField d 16 16) && leField d 3168 32 == 0

/-- Whether merges of children are under way, their number, and the children in merge order. -/
def Task.merging (t : Task) : Bool := t.join == .sync || t.join == .exitJoin

/-- The children not yet merged, in merge order. -/
def Task.unmerged (t : Task) (level : Nat) : List Child := if t.merging then (t.mergeOrder level).drop t.joined else []

/-- Bytes of the staged child views of the children not yet merged. A child that has not exited, whose views are with it, takes 320 zero bytes for
each reducer (DESIGN CHOICE, log entry 76). -/
def Task.stagedViews (t : Task) (level staging : Nat) : List Byte :=
  (t.unmerged level).flatMap (fun c =>
    (viewsByIndex t.views).flatMap (fun v => match c.views.find? (fun x => x.index == v.index) with
      | some x => x.image level staging
      | none => List.replicate 320 0))

/-- The children whose views a save stages, in their order. -/
def Task.stagedOrder (t : Task) (level : Nat) : List (Option Nat) := (t.unmerged level).map (fun c => if c.exited then some c.task else none)

def Task.mergeBytes (t : Task) (staging : Nat) : List Byte :=
  leBytes 4 (b2n t.merging) ++ leBytes 4 t.joined ++ leBytes 8 ((t.mergeChunks.head?).elim 0 (fun k => staging + 4096 * k))
  ++ leBytes 4 t.children.length ++ List.replicate 44 0

/-- Whether a merge record keeps its form: the join that was under way, and a next child among its children. -/
def Task.mergeOk (t : Task) (d : List Byte) : Bool :=
  leField d 0 4 == b2n t.merging && decide (leField d 4 4 ≤ t.children.length) && leField d 16 4 == t.children.length && leField d 20 44 == 0

/-- The staged views of the children whose places are given, read back from the bytes of their chain. -/
def State.restoreStaged (s : State) (ctx level staging chunks : Nat) (vs : List View) (bytes : List Byte) :
    List (Option Nat × Nat) → List Child → CpRes (Option (List Child))
  | [], cs => .ok (some cs)
  | (none, _) :: rest, cs => State.restoreStaged s ctx level staging chunks vs bytes rest cs
  | (some id, k) :: rest, cs =>
    let image (j : Nat) : List Byte := (bytes.drop (320 * (vs.length * k + j))).take 320
    let old (v : View) : View := match cs.find? (fun c => c.task == id) with
      | some c => (c.views.find? (fun x => x.index == v.index)).getD { v with updates := [], chunks := [] }
      | none => v
    (s.restoreViews ctx level staging chunks ((vs.zipIdx).map (fun p => (old p.1, image p.2)))).bind (fun new? => match new? with
      | none => .ok none
      | some new => State.restoreStaged s ctx level staging chunks vs bytes rest (cs.map (fun c => if c.task = id then { c with views := new } else c)))

/-! ### The whole image -/

/-- The slot header (R407). -/
def State.slotHeader (s : State) (t : Task) (form : Nat) : List Byte :=
  let sizes := s.slotSizesOf t
  let code := match s.tree? t.entry.tree with | some r => r.code | none => 0
  layout 0 128
    [(0, leBytes 4 0x33585356), (4, leBytes 1 form), (5, leBytes 1 (b2n t.handler.isSome + 2 * b2n t.allot.full)),
     (8, leBytes 4 t.entry.record), (12, leBytes 4 (t.entry.groups - 1)), (16, leBytes 8 code), (24, leBytes 8 (slotSize sizes)),
     (32, (List.range 10).flatMap (fun k => leBytes 4 (slotOffset sizes (k + 2)))), (72, leBytes 1 t.expans.length),
     (80, leBytes 8 t.saves)]

def headerOk (d h : List Byte) : Bool :=
  leField d 0 4 == 0x33585356 && leField d 4 1 == 2 && decide (leField d 5 1 < 4) && leField d 6 2 == 0 && decide (leField d 12 4 ≤ 15)
  && decide (leField d 72 1 ≤ 16) && leField d 73 7 == 0 && leField d 88 40 == 0 && (d.drop 24).take 49 == (h.drop 24).take 49

/-- What a save writes, by offset in the slot. -/
def State.imageWrites (s : State) (t : Task) : List (Nat × List Byte) :=
  let sizes := s.slotSizesOf t
  let at' (n : Nat) : Nat := slotOffset sizes n
  let r := t.entry.rcd
  let level := match s.tree? t.entry.tree with | some x => x.level | none => 1
  let staging := match s.ctx? t.entry.ctx with | some c => c.staging | none => 0
  let tiles (acc : Bool) (n : Nat) : List (Nat × List Byte) :=
    ((List.range n).filter (fun k => (t.tile acc (k + 1)).valid)).map (fun k =>
      (at' 7 + tilePlace r acc (k + 1), (t.tile acc (k + 1)).image acc))
  let spill := sizes.getD 6 0
  [(at' 2, t.uniformBytes), (at' 3, t.taskBytes), (at' 4, t.engineBytes)]
  ++ (List.range t.threads.length).map (fun k => (at' 5 + recordBytes r * k, t.threadBytes k))
  ++ tiles false t.allot.mtiles ++ tiles true t.allot.atiles
  ++ ((List.range t.holes.length).filter (fun h => (t.hole h).state == .filling || (t.hole h).state == .ready)).map (fun h =>
      (at' 8 + t.holeBytes * h, (t.hole h).read 0 t.holeBytes))
  ++ [(at' 6 + spill, List.replicate (roundUp spill 64 - spill) 0), (at' 9, t.expans.flatMap Expansion.image), (at' 10, (viewsByIndex t.views).flatMap (fun v => v.image level staging)), (at' 11, t.mergeBytes staging)]

/-- Write at offsets of a slot, whatever its pages' WR (R394). -/
def State.writeSlot (s : State) (ctx base : Nat) : List (Nat × List Byte) → CpRes State
  | [] => .ok s
  | (o, bs) :: rest => (s.cpWrite ctx (base + o) bs true).bind (fun s => State.writeSlot s ctx base rest)

/-- What follows a read of the staging area at a restore: one that meets a fault ends the tree with REDUCER_FAULT (15 R453), and a layout that is
broken with SAVE_FORM, for which `fault` stands. -/
def CpRes.staged {α β : Type} (r : CpRes (Option α)) (f : α → CpRes (Except Nat β)) : CpRes (Except Nat β) :=
  match r with
  | .ok (some a) => f a
  | .ok none => .fault
  | .pend p => .pend p
  | .fault => .ok (.error stREDUCER_FAULT)

/-- Read the sections of a saved slot and check them (R414): the restored task, the status of a staging area that cannot be read, or `fault` for
SAVE_FORM. -/
def State.readSlot (s : State) (t : Task) : CpRes (Except Nat Task) :=
  let sizes := s.slotSizesOf t
  let at' (n : Nat) : Nat := t.savePtr + slotOffset sizes n
  let r := t.entry.rcd
  let rd (va n : Nat) : CpRes (List Byte) := s.cpRead t.entry.ctx va n
  let level := match s.tree? t.entry.tree with | some x => x.level | none => 1
  let staging := match s.ctx? t.entry.ctx with | some c => c.staging | none => 0
  let chunks := match s.ctx? t.entry.ctx with | some c => c.chunks | none => 0
  (rd (at' 1) 128).bind (fun hd => (rd (at' 2) 2048).bind (fun ud => (rd (at' 3) 8192).bind (fun td => (rd (at' 4) 36864).bind (fun ed =>
  (rd (at' 5) (recordBytes r * t.threads.length)).bind (fun xd => (rd (at' 7) (sizes.getD 7 0)).bind (fun ld =>
  (rd (at' 8) (sizes.getD 8 0)).bind (fun pd => (rd (at' 9) (3200 * t.expans.length)).bind (fun nd =>
  (rd (at' 10) (320 * t.views.length)).bind (fun vd => (rd (at' 11) 64).bind (fun md =>
    let thr (k : Nat) : List Byte := (xd.drop (recordBytes r * k)).take (recordBytes r)
    let view (k : Nat) : List Byte := (vd.drop (320 * k)).take 320
    let exp (k : Nat) : List Byte := (nd.drop (3200 * k)).take 3200
    let ok := headerOk hd (s.slotHeader t 2) && uniformOk ud && taskOk td && engineOk ed
      && (List.range t.threads.length).all (fun k => threadOk r.regWords (thr k)) && (List.range t.expans.length).all (fun k => expansionOk (exp k))
      && t.mergeOk md
    if !ok then .fault
    else (s.restoreViews t.entry.ctx level staging chunks (((viewsByIndex t.views).zipIdx).map (fun p => (p.1, view p.2)))).staged (fun vs =>
      (s.readStaged t.entry.ctx staging chunks (chunks + 1) (leField md 8 8)).staged (fun sd =>
      if sd.length < 320 * t.views.length * t.staged.length then .fault else
      (s.restoreStaged t.entry.ctx level staging chunks (viewsByIndex t.views) sd t.staged.zipIdx t.children).staged (fun cs =>
      let t := ((t.readTask td).readEngine ed).readUniform ud
      let t := (List.range t.threads.length).foldl (fun t k => t.readThread k (thr k)) t
      let t := (List.range t.allot.mtiles).foldl (fun t k => t.modTile false (k + 1) (fun x =>
        if x.valid then x.readImage false (ld.drop (tilePlace r false (k + 1))) else { x with data := [], side := [] })) t
      let t := (List.range t.allot.atiles).foldl (fun t k => t.modTile true (k + 1) (fun x =>
        if x.valid then x.readImage true (ld.drop (tilePlace r true (k + 1))) else { x with data := [] })) t
      .ok (.ok { t with
        holes := (t.holes.zipIdx).map (fun p =>
          if p.1.state == .filling || p.1.state == .ready then
            { p.1 with data := Sparse.write 0 [] 0 ((pd.drop (t.holeBytes * p.2)).take t.holeBytes) }
          else if p.1.state == .draining then p.1
          else { p.1 with data := [] })
        expans := (List.range t.expans.length).map (fun k => expansionOf (exp k))
        views := t.views.map (fun v => (vs.find? (fun x => x.index == v.index)).getD v)
        children := cs
        joined := leField md 4 4
        staged := []
        saves := leField hd 80 8 }))))))))))))))

end Sys2Proof.Machine
end

