-- ==== Sys2Proof/Machine/Service.lean ====
section
/-! DEFINITION. Units of error counting, service messages, and taking a unit of memory or of a link out of service (17 R424, R426, R429, R430). -/

namespace Sys2Proof.Machine

/-! ### Service messages (R430) and counters (R424) -/

/-- Class number of a unit. -/
def unitCode : UnitClass → Nat
  | .cluster => 1
  | .l2Way => 2
  | .cacheWay => 3
  | .channel => 4
  | .dieLane => 5
  | .tihusLane => 6
  | .firmware => 7
def unitOfCode : Nat → Option UnitClass
  | 1 => some .cluster
  | 2 => some .l2Way
  | 3 => some .cacheWay
  | 4 => some .channel
  | 5 => some .dieLane
  | 6 => some .tihusLane
  | 7 => some .firmware
  | _ => none

/-- Whether a number names a unit of a class. The spec gives no number of lanes of a link nor of cache ways but the fields that hold them. -/
def unitExists (c : UnitClass) (n : Nat) : Bool :=
  match c with
  | .cluster => decide (n < numClusters)
  | .l2Way => decide (n < 16 * 384)
  | .cacheWay => decide (n < 65536 * 3)
  | .channel => decide (n < 32 * 12)
  | .dieLane => decide (n < 256 * 3)
  | .tihusLane => decide (n < 2 ^ 32)
  | .firmware => decide (n < 3)

/-- The die whose counter times a unit other than a cluster (R424). -/
def unitDie (c : UnitClass) (n : Nat) : Nat :=
  match c with
  | .cluster => dieOfCluster n
  | .l2Way => n / 16 / 128
  | .cacheWay => n / 65536
  | .channel => n / 32 / 4
  | .dieLane => if n / 256 = 2 then 1 else 0
  | .tihusLane => 0
  | .firmware => n

/-- The reading of a unit's counter. -/
def State.unitCounter (s : State) (c : UnitClass) (n : Nat) : Nat :=
  if c = .cluster then s.cycle n else (s.die (unitDie c n)).ticks.toNat

/-- Post a service message. -/
def State.message (s : State) (kind : Nat) (c : UnitClass) (n : Nat) : State :=
  { s with service := s.service ++ [BitVec.ofNat 128 (kind + 2 ^ 16 * unitCode c + 2 ^ 32 * n + 2 ^ 64 * s.unitCounter c n)] }

/-- Whether a unit is out of service. -/
def State.unitOut (s : State) (c : UnitClass) (n : Nat) : Bool :=
  (c == .cluster && (!(s.cluster n).inService || !(s.cluster n).admits)) || (c == .firmware && !(s.die n).fwUp)
  || s.out.any (fun o => o.cls == c && o.number == n)

/-- A unit other than a cluster and a firmware core is taken out of service (R426): a channel in steps, the others at once. -/
def State.takeLink (s : State) (c : UnitClass) (n : Nat) : State :=
  if s.unitOut c n then s
  else match c with
    | .channel => { s.message 5 c n with out := s.out ++ [{ cls := c, number := n, awaits := true }] }
    | .l2Way | .cacheWay => { s.message 3 c n with out := s.out ++ [{ cls := c, number := n }] }
    | .dieLane | .tihusLane => { s.message 1 c n with out := s.out ++ [{ cls := c, number := n }] }
    | _ => s

end Sys2Proof.Machine
end

