-- ==== Sys2Proof/Machine/Preempt.lean ====
section
/-! DEFINITION. Delivering traps (16 R400), pre-emption and its three forms (R402 to R406), the scheduler's relief (13 R329), and restore
(R412 to R415; 17 R437). -/

namespace Sys2Proof.Machine

/-! ### Trap delivery -/

/-- TRAP_DELIVERY (R400). The uniform stream is at an instruction boundary between two of its instructions, its entry checked and no access
of it parked. -/
def execTrapDelivery (task : Nat) (s : State) : Host.Outcome State Fault Refusal :=
  .next (match s.task? task with
    | none => s
    | some t =>
      let a := t.u.ag
      if t.resident && t.handler.isNone && t.drain.isNone && t.waits.isNone && a.parked.isNone && (!a.entry || a.pending.isSome) then s.deliver task else s)

/-! ### The fixed point of a save (R406; 10 R255; 12 R318) -/

/-- Perform the commands of a copy queue that must be performed before a save. One that parks or waits for a slot stays queued with those after
it. -/
def State.drainQueue (s : State) (task q : Nat) : Nat → State
  | 0 => s
  | n + 1 =>
    match s.copyHead task q with
    | none => s
    | some (t, _) => if mustRun (t.copyq.getD q []) then State.drainQueue (s.serveCopy task q) task q n else s

/-- A versioned access, or a plain move between memory and a tile, that has begun runs to its end (07 R186). -/
def State.finishAttempts (s : State) (task : Nat) : Nat → State
  | 0 => s
  | n + 1 =>
    match s.task? task with
    | none => s
    | some t =>
      match t.q4 with
      | [] => s
      | c :: _ => if ((c.step != 0 && !c.isMmas) || c.begun.isSome) && t.q4park.isNone then State.finishAttempts (s.performMatrix t c) task n else s

/-- Commands of a task that have begun complete: a copy that has passed its translation pass, a versioned access. -/
def State.finishBegun (s : State) (t : Task) : State :=
  let s := [0, 1, 2, 3].foldl (fun s q =>
    match s.copyHead t.entry.id q with
    | some (_, c) => if c.begun.isSome then s.performCopy t.entry.id q else s
    | none => s) s
  s.finishAttempts t.entry.id 65

/-- Perform the requests of one task in its core's collector that wait for no page. -/
def State.collectFor (s : State) (core task : Nat) : State :=
  let (run, rest) := (s.core core).collector.partition (fun g => g.task == task && g.parked.isNone)
  (s.modCore core (fun c => { c with collector := rest })).performRequests core run

/-- The engines reach their fixed points, and the cluster's L1 is written back. -/
def State.settle (s : State) (t : Task) : State :=
  let id := t.entry.id
  let s := ([0, 1, 2, 3].foldl (fun s q => s.drainQueue id q 64) s).finishAttempts id 65
  (s.collectFor t.coreD id).writeBackAll t.cluster

/-- Whether a command that drains a pigeonhole is still queued, which holds a save (10 R255). -/
def Task.draining (t : Task) : Bool := t.copyq.any (fun l => l.any Cmd.drains)

/-! ### Suspended tasks (13 R329) -/

/-- Whether a thread waits at a barrier or at DQGET: what it waits for has not come. -/
def State.waitsIdle (s : State) (t : Task) (k : Nat) : Bool :=
  let a := (t.thread k).ag
  a.waiting && (match decode (s.insnAt t a.pc.toNat) with
    | .bara _ | .barw _ | .dqget _ => true
    | _ => false) && s.stillWaits t (some k)

/-- Whether a task is suspended: its uniform stream waits in SYNC or TEXIT, and each thread has exited or waits. A save under way does not count. -/
def State.isSuspended (s : State) (t : Task) : Bool :=
  let s := s.modTask t.entry.id (fun t => { t with saving := false })
  let t := { t with saving := false }
  t.u.ag.waiting && t.join != .none && t.handler.isNone && t.liveThreads.all (fun k => s.waitsIdle t k)

/-- The condition of a suspended task: every child has completed TEXIT. -/
def Task.conditionMet (t : Task) : Bool := t.children.all (fun c => c.exited)

/-! ### Save (R406) -/

/-- The chunks that a save leaves to the children that are still to exit, one for each CAT or LOG (08 R200, R446; DESIGN CHOICE, log entry 104). -/
def Task.roomLeft (t : Task) : Nat :=
  (t.children.filter (fun c => !c.exited)).length * (t.views.filter (fun v => chunked v.kind)).length

/-- The chunks that the staged child views take, written as a chain (R411; 08 R455). `none` while the staging area has no room. -/
def State.stageMerge (s : State) (t : Task) : Option (CpRes (List Nat × State)) :=
  match s.ctx? t.entry.ctx with
  | none => some .fault
  | some c =>
    let level := match s.tree? t.entry.tree with | some r => r.level | none => 1
    let bytes := t.stagedViews level c.staging
    let need := ceilDiv bytes.length 4032
    let free := s.freeChunks t.entry.ctx
    let ks := pickSome .stagingChunk s.tick need free
    if ks.length < need ∨ (need ≠ 0 ∧ free.length < need + t.roomLeft) then none
    else
      some ((s.putBytesChain t.entry.ctx c.staging ks bytes).bind (fun s => .ok (ks, s)))

/-- An agent as it is saved: its stall or QFENCE begins anew after restore, as does what it has performed ahead. -/
def Agent.atSave (a : Agent) : Agent :=
  { a with stall := none, fence := none, early := [], anew := a.waiting && (a.stall.isSome || a.fence.isSome) }

/-- A task out of its core: what ran on the core is gone, what was saved stays. -/
def Task.toSaved (t : Task) (order : Nat) (suspended : Bool) : Task :=
  { t with
    place := .saved order t.coreD t.slotD
    gslots := []
    drain := none
    saving := false
    restarting := false
    waits := none
    holes := t.holes.map (fun h => { h with banks := [] })
    viewBanks := []
    suspended := suspended
    u := { t.u with ag := t.u.ag.atSave }
    threads := t.threads.map (fun th => { th with ag := th.ag.atSave })
    copyq := t.copyq.map (fun l => l.map (fun c => { c with stall := none }))
    q4 := t.q4.map (fun c => { c with headSince := none }) }

/-- The core of a task forgets it. -/
def State.vacate (s : State) (t : Task) : State :=
  (s.modCore t.coreD (fun c => { c with
      bundles := c.bundles.filter (fun b => b.task != t.entry.id)
      promoted := c.promoted.filter (fun p => p.1 != t.entry.id) })).modCluster t.cluster (fun c => c.forget t.entry.id)

/-- The agents of a task stop issuing, and what they have issued completes (R406, step 1). -/
def State.stopTask (s : State) (t : Task) : State :=
  (s.settleTask t).modTask t.entry.id (fun t => { t with saving := true, waits := none, drain := some (s.cycle t.cluster) })

/-- Write the image of a task whose engines have reached their fixed points, and free what it held (R406, steps 4 and 5). A page that is not
present, or a full staging area, holds the save. -/
def State.writeImage (s0 : State) (t : Task) : State :=
  let hold (p : Park) : State := s0.taskWaits t.entry.id p
  match s0.stageMerge t with
  | none => s0
  | some (.pend p) => hold p
  | some .fault => s0.abortTree t.entry.tree stREDUCER_FAULT
  | some (.ok (ks, s)) =>
    let level := match s.tree? t.entry.tree with | some r => r.level | none => 1
    let t := { t with saves := t.saves + 1, mergeChunks := ks, staged := t.stagedOrder level }
    match s.writeSlot t.entry.ctx t.savePtr (s.imageWrites t ++ [(128, s.slotHeader t 1)]) with
    | .pend p => hold p
    | .fault => s.abortTree t.entry.tree stSAVE_POOL
    | .ok s =>
      let order := s.saveCount
      let s := (({ s with saveCount := order + 1 } : State).modTask t.entry.id (fun _ => t.toSaved order (s.isSuspended t))).vacate t
      match s.ctx? t.entry.ctx with
      | some c => s.checkCapacity c.partition
      | none => s

/-- Whether the collector of a task's core still holds requests of the task, which wait for a page of the filter area. -/
def State.collecting (s : State) (t : Task) : Bool := (s.core t.coreD).collector.any (fun g => g.task == t.entry.id)

/-- Save a resident task (R406). A command that cannot complete yet, a page that is not present and a full staging area hold the save, and
its agents stay stopped; a slot that cannot be written ends the tree. -/
def State.saveTask (s : State) (id : Nat) : State :=
  match s.task? id with
  | none => s
  | some t =>
    if !t.resident then s
    else
      let s := (s.stopTask t).settle t
      match s.task? id with
      | none => s
      | some t => if t.draining || s.collecting t then s else s.writeImage t

/-! ### Flush-and-restart (R404) -/

/-- Cores of a partition that are in service and admit tasks. -/
def State.partitionCores (s : State) (p : Nat) : List Nat :=
  ((s.clusters.filter (fun c => c.2.partition == some p && c.2.inService && c.2.admits)).map (fun c => c.1)).flatMap
    (fun c => [4 * c, 4 * c + 1, 4 * c + 2, 4 * c + 3])

/-- The core that a choice names in a partition. -/
def State.pickCore (s : State) (p choice : Nat) : Option Nat :=
  let cs := s.partitionCores p
  if cs.contains choice then some choice else cs.head?

/-- Place an entry at the old end of a core's deque. One that finds 64 entries on chip spills the oldest 32 first (13 R327); where entries have been
spilled it joins them, as the oldest (DESIGN CHOICE, log entry 44). -/
def State.pushOld (s : State) (core : Nat) (e : Entry) : Pushed :=
  let c := s.core core
  let e := { e with since := s.cycle (clusterOf core) }
  if c.deque.isEmpty then s.push core e
  else if c.spilled = 0 ∧ c.deque.length < 64 then .ok (s.modCore core (fun c => { c with deque := e :: c.deque }))
  else match c.waits with
    | some (x, p) => .pend x 0 p
    | none => (if 64 ≤ c.deque.length - c.spilled then s.spillAll core ((c.deque.drop c.spilled).take 32) else .ok s).bind (fun s =>
        if (s.tree? e.tree).any (fun r => r.ending.isSome) then .ok s
        else s.spillEntry e (fun s k => s.modCore core (fun c => { c with deque := { e with spill := some k } :: c.deque, spilled := c.spilled + 1 })))

/-- A flush has begun and waits for a place of the task's entry: its agents stay stopped, and the cycles that pass try again. -/
def State.holdRestart (s : State) (t : Task) : State :=
  s.modTask t.entry.id (fun t => { t with saving := true, restarting := true, waits := none, drain := some (s.cycle t.cluster) })

/-- Flush a task and place its entry to restart: at D2 on its own core (17 R437), else on a core that the command processor chooses. Its agents
stop, the engine commands that have begun complete, and the rest of its state is discarded. A page of a spill area that is not present, or a partition
without a core that takes the entry, holds the flush; one of another context makes that core wait for it, and the flush is tried again while it does. -/
def State.restartTask (s : State) (t : Task) : State :=
  let s := (s.settleTask t).finishBegun t
  if (s.task? t.entry.id).isNone then s else
  match s.ctx? t.entry.ctx, s.tree? t.entry.tree with
  | some c, some r =>
    let own := r.level == 2 && (s.cluster t.cluster).inService && (s.cluster t.cluster).admits
    match (if own then some t.coreD else s.pickCore c.partition (Config.chosenCore s.saveCount)) with
    | none => s.holdRestart t
    | some core =>
      let e := { t.entry with slot := some t.savePtr, home := some (t.coreD, t.slotD) }
      match (({ s with saveCount := s.saveCount + 1 } : State).dropTask t).pushOld core e with
      | .ok s' => s'
      | .pend x tr p =>
        if x = t.entry.ctx then ((s.holdRestart t).raisePageFault x tr p).modTask t.entry.id (fun t => { t with waits := some p })
        else (s.holdRestart t).coreWaits core x tr p
  | _, _ => s

/-! ### Forms (R403) -/

/-- The forms of a pre-emption. -/
inductive Form where
  | restart | drain | save
  deriving DecidableEq, Repr, Inhabited

/-- The form for a task and a drain budget. -/
def Task.form (t : Task) (budget : Nat) : Form :=
  let r := t.u.retired.toNat
  let h := t.entry.rcd.hint
  if t.entry.rcd.idem && h != 0 && decide (4 * r < h) && !t.spawned && !t.enqueued && t.pendings.isEmpty && t.handler.isNone then .restart
  else if h != 0 && decide (8 * (h - r) ≤ budget) then .drain
  else .save

/-- Pre-empt a task (R403 to R406). -/
def State.preemptTask (s : State) (budget id : Nat) : State :=
  match s.task? id with
  | none => s
  | some t =>
    if !t.resident || t.saving then s
    else match t.form budget with
      | .restart => s.restartTask t
      | .drain => s.modTask id (fun t => { t with drain := some ((s.cycle t.cluster + budget) % 2 ^ 64) })
      | .save => s.saveTask id

/-- A draining task that has not completed TEXIT when its budget has elapsed is saved (R405); a save or a flush that is held is tried again. -/
def State.drainEnds (s : State) (id : Nat) : State :=
  match s.task? id with
  | none => s
  | some t =>
    match t.drain with
    | none => s
    | some e =>
      if t.resident ∧ !(t.saving && t.waits.isSome) ∧ (s.cycle t.cluster + 2 ^ 64 - e) % 2 ^ 64 < 2 ^ 63 then
        (if t.restarting then s.restartTask t else s.saveTask id)
      else s

/-- DRAIN_BUDGET (R405). -/
def execDrainBudget (task : Nat) (s : State) : Host.Outcome State Fault Refusal := .next (s.drainEnds task)

/-! ### Relief (13 R329) -/

/-- Whether 65,536 cluster cycles have passed since a cycle. -/
def State.waitedLong (s : State) (cl since : Nat) : Bool := decide (65536 ≤ (s.cycle cl + 2 ^ 64 - since) % 2 ^ 64)

/-- Tasks of one cluster, youngest first by cycle of start: the cycle at which the task came to the cluster, by the cluster's counter (DEDUCED, log
entry 73). -/
def State.youngestFirst (s : State) (ts : List Task) : List Task :=
  let age (t : Task) : Nat := (s.cycle t.cluster + 2 ^ 64 - t.started) % 2 ^ 64
  sortBy (fun a b => decide (age a ≤ age b)) ts

/-- A core whose new-end entry has waited 65,536 cycles, and which cannot admit it, saves its youngest suspended task. An entry waits from the
last cycle at which its core could admit it. -/
def State.relieveDeque (s : State) (core : Nat) : State :=
  match (s.core core).deque.getLast? with
  | none => s
  | some e =>
    if s.waitedLong (clusterOf core) e.since && !s.canAdmit core e.groups then
      match s.youngestFirst ((s.residents core).filter (fun t => s.isSuspended t && !t.saving)) with
      | [] => s
      | t :: _ => s.saveTask t.entry.id
    else s

/-- DEQUE_RELIEF (R329). -/
def execDequeRelief (core : Nat) (s : State) : Host.Outcome State Fault Refusal := .next (s.relieveDeque core)

/-- Whether a task holds capacity that a request of its cluster lacks. -/
def State.holdsNeeded (s : State) (req u : Task) : Bool :=
  let cl := req.cluster
  let ts := s.tasks.filter (fun x => x.resident && x.cluster == cl)
  (u.coreD == req.coreD && (List.range 32).any (fun l =>
      decide (2048 < s.laneUsed req.coreD l + req.laneNeed l) && decide (0 < u.laneUse l u.allot.regs)))
  || (decide (128 + req.allot.mtiles < (ts.map (fun x => x.allot.mtiles)).sum + req.entry.rcd.mtiles) && decide (0 < u.allot.mtiles))
  || (decide (32 + req.allot.atiles < (ts.map (fun x => x.allot.atiles)).sum + req.entry.rcd.atiles) && decide (0 < u.allot.atiles))
  || (decide (s.openFree cl + s.scratchOf req < s.fullScratch req) && decide (0 < s.scratchOf u))

/-- Save tasks one after another while a request does not fit. -/
def State.relieve (s : State) (req : Task) : List Task → State
  | [] => s
  | u :: us =>
    if s.acquireFits req then s
    else State.relieve (if s.holdsNeeded req u then s.saveTask u.entry.id else s) req us

/-- Where the oldest ACQUIRE of a cluster has waited 65,536 cycles, tasks that do not wait in ACQUIRE and hold capacity it needs are saved,
youngest first, until it fits. -/
def State.relieveAcquire (s : State) (cluster : Nat) : State :=
  match s.oldestAcquire cluster with
  | none => s
  | some req =>
    let acq := (s.cluster cluster).acq
    if acq.any (fun a => a.task == req.entry.id && s.waitedLong cluster a.since) then
      s.relieve req (s.youngestFirst (s.tasks.filter (fun u =>
        u.resident && u.cluster == cluster && !u.saving && !acq.any (fun a => a.task == u.entry.id))))
    else s

/-- ACQUIRE_RELIEF (R329). -/
def execAcquireRelief (cluster : Nat) (s : State) : Host.Outcome State Fault Refusal := .next (s.relieveAcquire cluster)

/-- A cycle of a die: budgets that have elapsed, saves that are held, and work that has been blocked for 65,536 cycles (R329, R405). -/
def State.relieveDie (s : State) (d : Nat) : State :=
  let s := (s.tasks.filter (fun t => t.resident && t.drain.isSome && dieOfCore t.coreD == d)).foldl (fun s t => s.drainEnds t.entry.id) s
  let s := (s.cores.filter (fun p => dieOfCore p.1 == d && !p.2.deque.isEmpty)).foldl (fun s p => s.relieveDeque p.1) s
  (s.clusters.filter (fun p => dieOfCluster p.1 == d && !p.2.acq.isEmpty)).foldl (fun s p => s.relieveAcquire p.1) s

/-! ### Restore (R412 to R414) -/

/-- Whether a core can hold a saved task with the allotment that it held (R413). -/
def State.canHold (s : State) (core : Nat) (t : Task) : Bool :=
  let cl := clusterOf core
  let c := s.cluster cl
  let ts := s.residents core
  let all := s.tasks.filter (fun x => x.resident && x.cluster == cl)
  decide (core < numCores) && c.inService && c.admits && s.inPartition core t.entry.ctx
  && decide (ts.length < 16)
  && decide ((ts.map (fun t => t.entry.groups)).sum + t.entry.groups ≤ 16)
  && (List.range 32).all (fun l => decide (s.laneUsed core l + t.laneUse l t.allot.regs ≤ 2048))
  && decide ((all.map (fun x => x.allot.mtiles)).sum + t.allot.mtiles ≤ 128)
  && decide ((all.map (fun x => x.allot.atiles)).sum + t.allot.atiles ≤ 32)
  && decide (s.scratchOf t ≤ s.openFree cl)
  && c.acq.isEmpty && ts.all (fun t => t.drain.isNone)

/-- A saved task's place in the order of saves. -/
def Task.saveOrder? (t : Task) : Option Nat :=
  match t.place with
  | .saved o _ _ => some o
  | .core .. => none

/-- The core and slot that a saved task left. -/
def Task.home (t : Task) : Nat × Nat :=
  match t.place with
  | .saved _ c k => (c, k)
  | .core c k => (c, k)

/-- Whether a saved task may be restored now: a suspended one only when its condition holds. -/
def Task.mayRestore (t : Task) : Bool := !t.suspended || t.conditionMet

/-- Where a saved task may go on a core, under its tree's trace. -/
def State.placeSaved (s : State) (t : Task) (core : Nat) : PlaceRes :=
  match s.tree? t.entry.tree with
  | none => .wait
  | some r =>
    let free := s.freeTaskSlot core
    match s.placeAgain r t.entry.ped.image core free t.home with
    | .go slot s' => if (s.residents core).any (fun x => x.slotD == slot.getD free) then .wait else .go (some (slot.getD free)) s'
    | x => x

/-- Whether an older saved task of the partition fits on the core. -/
def State.olderFits (s : State) (core order part : Nat) : Bool :=
  s.tasks.any (fun u =>
    (match u.saveOrder? with | some o => decide (o < order) | none => false)
    && (match s.ctx? u.entry.ctx with | some c => c.partition == part | none => false)
    && u.waits.isNone && u.mayRestore && s.canHold core u
    && (match s.placeSaved u core with | .go .. => true | _ => false))

/-- The first poisoned line of a task's slot (17 R427). -/
def State.slotPoison (s : State) (t : Task) : Option Nat :=
  match s.mapCp t.entry.ctx {} (pieces t.savePtr (slotSize (s.slotSizesOf t))) with
  | .ok l => (s.poison.find? (fun k => l.any (fun p => decide (32 * k < p.1 + p.2) && decide (p.1 < 32 * k + 32)))).map (fun k => k / 4)
  | _ => none

/-- A save slot that is being restored meets an uncorrected error: its tree ends, and the unit that holds the line is taken out of service (R427). -/
def State.spoiltSlot (s : State) (t : Task) (line : Nat) : State :=
  let s := s.abortTree t.entry.tree stUNCORRECTED
  match s.spoilers.find? (fun x => x.1 == line) with
  | some (_, c, n) => s.takeLink c n
  | none => s

/-- A task on its new core (R413): its counts of cycles begin, its stalled commands stall anew. -/
def Task.toCore (t : Task) (core slot : Nat) (gslots : List Nat) (now : Nat) : Task :=
  { t with
    place := .core core slot
    gslots := gslots
    started := now
    mergeChunks := []
    suspended := false
    u := { t.u with ag := { t.u.ag with issued := now } }
    threads := t.threads.map (fun th => { th with ag := { th.ag with issued := now } }) }

/-- Restore a saved task on a core in a slot (R413): the slot is marked, read and checked, and the task is installed. `s0` is the state before the
placement, to which a page that is not present holds the restore, with the mark that it has made. -/
def State.restoreOn (s0 s : State) (t : Task) (core slot : Nat) : State :=
  let id := t.entry.id
  let hold (s : State) (p : Park) : State := s.taskWaits id p
  let marked := (s0.cpWrite t.entry.ctx (t.savePtr + 132) [2] true).okOr s0
  match s.cpWrite t.entry.ctx (t.savePtr + 132) [2] true with
  | .pend p => hold s0 p
  | .fault => s.abortTree t.entry.tree stSAVE_POOL
  | .ok s =>
    match (if s.poison.isEmpty then none else s.slotPoison t) with
    | some line => s.spoiltSlot t line
    | none =>
      match s.readSlot t with
      | .pend p => hold marked p
      | .fault => s.abortTree t.entry.tree stSAVE_FORM
      | .ok (.error st) => s.abortTree t.entry.tree st
      | .ok (.ok t') =>
        if s.chunksTainted t.entry.ctx t'.chunksOf then s.abortTree t.entry.tree stUNCORRECTED
        else match s.cpWrite t.entry.ctx (t.savePtr + 132) [0] true with
        | .pend p => hold marked p
        | .fault => s.abortTree t.entry.tree stSAVE_POOL
        | .ok s =>
          let cl := clusterOf core
          let now := s.cycle cl
          let s := s.modTask id (fun _ => t'.toCore core slot (s.freeGroupSlots core t.entry.groups) now)
          let s := if t'.acquiring then s.modCluster cl (fun c => { c with acq := c.acq ++ [{ task := id, since := now }] }) else s
          let s := (s.placeScratch id).acquireAt cl 3
          ([0, 1, 2, 3].foldl (fun s q => s.startHead id q) s).startMatrix id

/-- RESTORE (R413): a saved task is restored on a core that can hold it, oldest save first among those that fit. -/
def execRestore (task core : Nat) (s : State) : Host.Outcome State Fault Refusal :=
  .next (match s.task? task with
    | none => s
    | some t =>
      match t.saveOrder?, s.ctx? t.entry.ctx with
      | some order, some c =>
        if t.waits.isNone && t.mayRestore && s.canHold core t && !s.olderFits core order c.partition then
          match s.placeSaved t core with
          | .go slot s' => s.restoreOn s' t core (slot.getD 0)
          | .wait => s
          | .ends st => s.abortTree t.entry.tree st
          | .pend p => s.taskWaits task p
        else s
      | _, _ => s)

end Sys2Proof.Machine
end

