-- ==== Sys2Proof/Machine/Units.lean ====
section
/-! DEFINITION. Units of the module: error counting and what a lasting fault leads to (17 R424 to R430), start-up (R431 to R433), the
firmware lease (15 R390), gating and thermal protection (01 R26 to R29), write-back by age (11 R281), bundle formation (02 R38), and the
unassigned operation codes (03 R82). -/

namespace Sys2Proof.Machine

/-! ### Instructions and bundles -/

/-- UNASSIGNED_OPCODE (03 R82): FUTURE_OP for MAJOR 0x60 to 0x7F, else ILLEGAL_OP, in every live agent, suppressed or not (R81). -/
def execUnassignedOpcode (w : InstrWord) (s : State) : Host.Outcome State Fault Refusal :=
  let r : TrapReq := { cause := if 0x60 ≤ majorOf w then cFUTURE_OP else cILLEGAL_OP }
  .next (
    if s.cur.uniform then
      match s.task? s.cur.task with
      | none => s
      | some t => if t.held none || t.u.ag.parked.isSome then s else s.takeTrap { task := s.cur.task } t.u.ag.pc.toNat w r
    else
      let done := s.cur.threads.filter (fun k => match s.task? s.cur.task with | some t => t.canIssue k | none => false)
      done.foldl (fun s k =>
        let who : Who := { task := s.cur.task, thread := some k }
        s.takeTrap who (s.agent who).pc.toNat w r) s)

/-- BUNDLE_FORMATION (02 R38): at a cycle that is a multiple of 4. -/
def execBundleFormation (core : Nat) (s : State) : Host.Outcome State Fault Refusal :=
  .next (if core < numCores ∧ s.cycle (clusterOf core) % 4 = 0 then s.formBundles core else s)

/-! ### L1 (11 R281) -/

/-- L1_WRITE_BACK (R281): the dirty bytes of a line reach their home slices: at the latest 65,536 cycles after their store, which the passing
of cycles sees to, and earlier where the line is evicted. -/
def execL1WriteBack (cluster line : Nat) (s : State) : Host.Outcome State Fault Refusal := .next (s.writeBackLine cluster line)

/-- L1_CLEAN_DROP (R281): a clean line is dropped: 65,536 cycles after its fill at the latest, and earlier where it is evicted. -/
def execL1CleanDrop (cluster line : Nat) (s : State) : Host.Outcome State Fault Refusal :=
  .next (match (s.cluster cluster).line? line with
    | none => s
    | some l => if l.dirty = 0 then s.dropLine cluster line else s)

/-! ### Power and heat -/

/-- ISSUE_GATING (01 R26): the power controller gates a die in steps of 1/64 of cycles. -/
def execIssueGating (die level : Nat) (s : State) : Host.Outcome State Fault Refusal :=
  .next (if level ≤ 64 then s.modDie die (fun d => { d with gate := level }) else s)

/-- THERMAL_GATING (R29): a junction at 100 °C makes its die gate issue further. -/
def execThermalGating (die : Nat) (s : State) : Host.Outcome State Fault Refusal := .next (s.modDie die (fun d => { d with hot := true }))

/-- THERMAL_GATING_RELEASE (R29): the hottest junction is below 97 °C. -/
def execThermalGatingRelease (die : Nat) (s : State) : Host.Outcome State Fault Refusal :=
  .next (s.modDie die (fun d => { d with hot := false }))

/-- The module without power: companion memory, and what the flash and the reports off the module hold, stay. -/
def State.dark (s : State) : State :=
  { State.reset with
    mem := s.mem.filter (fun e => decide (hbmBytes ≤ e.1))
    poison := s.poison.filter (fun k => decide (hbmBytes ≤ 32 * k))
    spoilers := s.spoilers
    flash := s.flash
    reports := s.reports
    agenda := s.agenda
    tick := s.tick
    nextId := s.nextId }

/-- THERMAL_TRIP (R29): the module stops all work, reports the trip, and loses memory, contexts and queues. -/
def execThermalTrip (s : State) : Host.Outcome State Fault Refusal :=
  .next { s.dark with power := .tripped, reports := s.reports ++ [0] }

/-! ### Quarantine (R426, R428, R429) -/

/-- Move the entries of a core's deque to other cores of the partition, oldest first. Those that have been spilled are read back first; a page that is
not present holds the core's entries until the replay doorbell (13 R327; 15 R453). -/
def State.moveEntries (s : State) (core p : Nat) : List Entry → State
  | [] => s
  | e :: es =>
    match s.pickCore p (Config.chosenCore e.id) with
    | none => s
    | some k =>
      if !(s.core core).deque.any (fun x => x.id == e.id) then State.moveEntries s core p es
      else if e.spill.isSome && (s.core core).waits.isSome then s
      else match s.readBack e with
        | .pend p => s.coreWaits core e.ctx (s.ordinalOf e) p
        | .ends st => State.moveEntries (s.abortTree e.tree st) core p es
        | .ok => State.moveEntries (((s.takeEntry core e.id).push k { e with spill := none }).orHeld s k) core p es

/-- Quarantine of a cluster begins (R428, steps 1 and 2): it admits nothing more, its entries move, its tasks are saved. -/
def State.beginQuarantine (s : State) (cl : Nat) : State :=
  let s := s.modCluster cl (fun c => { c with admits := false })
  let s := match (s.cluster cl).partition with
    | none => s
    | some p => [0, 1, 2, 3].foldl (fun s k => s.moveEntries (4 * cl + k) p (s.core (4 * cl + k)).deque) s
  (s.tasks.filter (fun t => t.resident && t.cluster == cl)).foldl (fun s t => if t.waits.isSome && t.saving then s else s.saveTask t.entry.id) s

/-- Whether a cluster that is being quarantined has no work left. -/
def State.vacant (s : State) (cl : Nat) : Bool :=
  let c := s.cluster cl
  c.inService && !c.admits && !s.tasks.any (fun t => t.resident && t.cluster == cl)
  && (c.partition.isNone || [0, 1, 2, 3].all (fun k => (s.core (4 * cl + k)).deque.isEmpty) || (s.partitionCores (c.partition.getD 0)).isEmpty)

/-- Quarantine of a cluster ends (steps 3 to 5), and is reported. -/
def State.endQuarantine (s : State) (cl : Nat) : State :=
  let p := (s.cluster cl).partition
  let s := (s.writeBackAll cl).message 1 .cluster cl
  let s := s.modCluster cl (fun c => { c with inService := false, was := p, partition := none, l1 := [], tlb := [] })
  match p with
  | some p => s.checkCapacity p
  | none => s

/-- Go on with quarantines: entries and tasks that were held are tried again, and clusters that are vacant leave service. -/
def State.goQuarantine (s : State) (cl : Nat) : State :=
  let s := if (s.cluster cl).inService && !s.vacant cl then s.beginQuarantine cl else s
  if s.vacant cl then s.endQuarantine cl else s

/-- Clusters whose quarantine is under way. -/
def State.leaving (s : State) : List Nat := (s.clusters.filter (fun c => c.2.inService && !c.2.admits)).map (fun c => c.1)

/-- Firmware goes on with every quarantine under way. -/
def State.goQuarantines (s : State) : State := s.leaving.foldl (fun s cl => s.goQuarantine cl) s

/-- A unit is taken out of service (R426): a cluster and a channel in steps, a firmware core with its lease (15 R390), the others at once. -/
def State.takeOut (s : State) (c : UnitClass) (n : Nat) : State :=
  if s.unitOut c n then s
  else match c with
    | .cluster => (s.modCluster n (fun k => { k with admits := false })).goQuarantine n
    | .firmware =>
      let s := (s.message 1 c n).modDie n (fun d => { d with fwUp := false })
      if s.leader = some n then { s with leader := none } else s
    | _ => s.takeLink c n

/-- The cores of a cluster hold no code (log entry 62). -/
def State.forgetCode (s : State) (cl : Nat) : State :=
  [0, 1, 2, 3].foldl (fun s k => s.modCore (4 * cl + k) (fun c => { c with icache := [] })) s

/-- A unit returns to service (R428, R430): a cluster as after reset, in the partition that it left. Entries that stand in its deques still begin
to wait on its new counter (01 R15, R16). -/
def State.putBack (s : State) (c : UnitClass) (n : Nat) : State :=
  let s := { s with out := s.out.filter (fun o => !(o.cls == c && o.number == n)) }
  let s := match c with
    | .cluster =>
      let s := { s with errs := s.errs.filter (fun e => !(e.cls == c && e.number == n)) }
      let s : State := (s.forgetCode n).modCluster n (fun k => { Cluster.init with partition := k.was, base := (s.die (dieOfCluster n)).ticks.toNat })
      [0, 1, 2, 3].foldl (fun (s : State) k => s.touchDeque (4 * n + k)) s
    | .firmware => s.modDie n (fun d => { d with fwUp := true, leaseSeen := d.ticks })
    | _ => s
  s.message 2 c n

/-- Times of a unit's last two errors. -/
def State.errTimes (s : State) (c : UnitClass) (n : Nat) : List Nat :=
  match s.errs.find? (fun e => e.cls == c && e.number == n) with
  | some e => e.times
  | none => []

/-- Whether an error at a reading t is lasting (R425), by the readings of the last two. -/
def lasting (times : List Nat) (t : Nat) : Bool :=
  match times with
  | [t1, t2] => decide (t1 < t2) && decide (t2 < t) && decide (t - t1 < 2 ^ 34)
  | _ => false

/-- CORRECTED_ERROR (R424 to R426): the error is counted, and a lasting fault takes the unit out of service. -/
def execCorrectedError (cls : UnitClass) (number : Nat) (s : State) : Host.Outcome State Fault Refusal :=
  .next (
    if !unitExists cls number then s
    else
      let t := s.unitCounter cls number
      let old := s.errTimes cls number
      let s := { s with errs := s.errs.filter (fun e => !(e.cls == cls && e.number == number))
                                ++ [{ cls := cls, number := number, times := old.drop (old.length - 1) ++ [t] }] }
      if lasting old t then s.takeOut cls number else s)

/-- The memory units that may hold the line of a physical address (R424, R427, R430): a way of its home slice, a way of its base die's cache, its
channel. The home of a line of companion memory is not given (10 R244). -/
def holdsLine (pa : Nat) (cls : UnitClass) (n : Nat) : Bool :=
  unitExists cls n && match cls with
    | .l2Way => decide (hbmBytes ≤ pa) || n / 16 == homeSlice pa
    | .cacheWay => decide (pa < hbmBytes) && n / 65536 == pa / dieBytes
    | .channel => decide (pa < hbmBytes) && n == channelNumber pa
    | _ => false

/-- Mark the sectors of a line poisoned, by an error of a unit. -/
def State.poisonLine (s : State) (pa : Nat) (cls : UnitClass) (n : Nat) : State :=
  { s with
    spoilers := (pa / 128, cls, n) :: s.spoilers.filter (fun x => x.1 != pa / 128)
    poison := s.poison ++ ((List.range 4).map (fun k => pa / 128 * 4 + k)).filter (fun k => !s.poison.contains k) }

/-- UNCORRECTED_ERROR (R427): in the state of a task it ends the tree, and the unit is quarantined; in memory it poisons the line. Each is reported
with its unit (R430). -/
def execUncorrectedError (target : ErrorTarget) (s : State) : Host.Outcome State Fault Refusal :=
  .next (match target with
    | .task id =>
      match s.task? id with
      | none => s
      | some t =>
        if t.resident then ((s.message 4 .cluster t.cluster).abortTree t.entry.tree stUNCORRECTED).takeOut .cluster t.cluster else s
    | .slot id cls n =>
      match s.task? id with
      | none => s
      | some t =>
        if t.resident || !(cls == .l2Way || cls == .cacheWay || cls == .channel) || !unitExists cls n then s
        else ((s.message 4 cls n).abortTree t.entry.tree stUNCORRECTED).takeOut cls n
    | .line pa cls n =>
      if s.exists? pa && holdsLine pa cls n then (s.message 4 cls n).poisonLine pa cls n else s)

/-! ### The firmware lease (15 R390) -/

/-- Every die sees a renewal of the lease. -/
def State.seeLease (s : State) : State := { s with dies := s.dies.map (fun d => { d with leaseSeen := d.ticks }) }

/-- Cycles of a die's counter since it saw a renewal. -/
def State.leaseAge (s : State) (d : Nat) : Nat := ((s.die d).ticks - (s.die d).leaseSeen).toNat

/-- LEASE_RENEWAL (R390): every 2^21 cycles of the leader's counter. -/
def execLeaseRenewal (s : State) : Host.Outcome State Fault Refusal :=
  .next (match s.leader with
    | none => s
    | some d => if 2 ^ 21 ≤ s.leaseAge d then s.seeLease else s)

/-- Result codes of a management command (R392). -/
def rcOK : Nat := 0
def rcBUSY : Nat := 1
def rcFW_RETRY : Nat := 2
def rcBAD_COMMAND : Nat := 3
def rcREFUSED : Nat := 4

/-- Write the management status. -/
def State.setStatus (s : State) (tag : W32) (result : Nat) : State :=
  { s with mgmtStatus := BitVec.ofNat 64 (tag.toNat + 2 ^ 32 * result) }

/-- LEASE_TAKEOVER (R390): a follower that has seen no renewal for 2^22 cycles takes the lease; a command of the old leader that is not
completed ends with FW_RETRY. -/
def execLeaseTakeover (die : Nat) (s : State) : Host.Outcome State Fault Refusal :=
  .next (
    if decide (die < 3) && s.leader != some die && (s.die die).fwUp && decide (2 ^ 22 ≤ s.leaseAge die) then
      let s := { s.seeLease with leader := some die }
      match s.mgmt with
      | none => s
      | some m => { s.setStatus m.tag rcFW_RETRY with mgmt := none }
    else s)

/-! ### Start-up (R431 to R433) -/

/-- Step 7 is optional, the others mandatory. -/
def optionalStep (n : Nat) : Bool := n == 7

/-- What a step's alternate quarantines: lanes, channels or clusters that fail (log entry 14). -/
def State.failUnits (s : State) (step : Nat) : State :=
  let out (s : State) (c : UnitClass) (k : Nat) : State :=
    (List.range k).foldl (fun s n => if Config.unitFails s.tick step n then
      (match c with
        | .cluster => (s.message 1 c n).modCluster n (fun k => { k with inService := false, admits := false })
        | _ => { s.message 1 c n with out := s.out ++ [{ cls := c, number := n }] })
      else s) s
  match step with
  | 4 => out s .dieLane (256 * 3)
  | 5 => out s .channel (32 * 12)
  | 6 => out s .cluster numClusters
  | _ => s

/-- Record a step's outcome and next method, and go to the next step; after step 9 the module runs. -/
def State.stepDone (s : State) (n outcome method : Nat) : State :=
  { s with
    flash := updAt s.flash (n - 1) (fun _ => { outcome := outcome, method := method })
    power := if n < 9 then .starting (n + 1) else .running }

/-- What the work of a step does to the state: step 8 clears the caches and the postmark regions (R431). -/
def State.stepWork (s : State) (n : Nat) : State :=
  if n = 8 then
    [0, 1, 2].foldl (fun s d => s.clearHome (s.postmarkBase d) ((s.die d).postmarkGiB * gib))
      { s with clusters := s.clusters.map (fun p => (p.1, { p.2 with l1 := [] })) }
  else s

/-- STARTUP (R431, R433): the next step of start-up, whose primary and alternate methods pass or fail as given. A module without power, and one
that has stopped at a step, starts again at step 1. -/
def execStartup (primary alternate : Bool) (s : State) : Host.Outcome State Fault Refusal :=
  .next (match s.power with
    | .running => s
    | .tripped => { s.dark with power := .starting 1 }
    | .stopped _ => { s.dark with power := .starting 1 }
    | .starting n =>
      let m := (s.flash.getD (n - 1) {}).method
      if m = 2 then s.stepDone n 3 2
      else if m = 0 ∧ primary then (s.stepWork n).stepDone n 1 0
      else if optionalStep n then s.stepDone n 2 2
      else if alternate then ((s.failUnits n).stepWork n).stepDone n 4 1
      else { s with power := .stopped n, reports := s.reports ++ [n] })

end Sys2Proof.Machine
end

