-- ==== Sys2Proof/Machine/Mgmt.lean ====
section
/-! DEFINITION. The host's side: the register window, management commands, the replay doorbell and companion accesses (15 R371, R377, R387 to
R393). -/

namespace Sys2Proof.Machine

/-! ### Management commands (R392, R393) -/

/-- Bytes of a command block that a command uses beyond its opcode: offset and length. -/
def usedBytes (opcode : Nat) : Option (List (Nat × Nat)) :=
  match opcode with
  | 1 => some [(8, 1), (16, 24)]
  | 2 => some [(8, 1)]
  | 3 => some [(8, 1), (16, 8)]
  | 4 => some [(8, 4)]
  | 5 => some [(8, 2), (16, 12)]
  | 6 => some []
  | 7 => some [(8, 4)]
  | 8 => some [(8, 2), (12, 5), (24, 8)]
  | 9 => some [(8, 3)]
  | _ => none

/-- Whether a command block has a known opcode and no unused byte that is not zero. The image address of SERVICE_UNIT is used by action 3 only. -/
def blockOk (b : List Byte) : Bool :=
  match usedBytes (leField b 0 4) with
  | none => false
  | some us =>
    let us := if leField b 0 4 = 8 ∧ leField b 16 1 ≠ 3 then [(8, 2), (12, 5)] else us
    (List.range 60).all (fun k => us.any (fun u => decide (u.1 ≤ k + 4) && decide (k + 4 < u.1 + u.2)) || leField b (k + 4) 1 == 0)

/-- The block of the command in progress, where it has the tag and opcode given. -/
def State.command (s : State) (tag : W32) (opcode : Nat) : Option (List Byte) :=
  match s.mgmt, s.leader with
  | some m, some _ => if m.tag = tag ∧ blockOk m.block ∧ leField m.block 0 4 = opcode then some m.block else none
  | _, _ => none

/-- A command is completed with a result. -/
def State.complete (s : State) (tag : W32) (result : Nat) : State := { s.setStatus tag result with mgmt := none }

/-- Perform a command in one go: the state with its effect, or `none` where it is refused. -/
def State.manage (s : State) (tag : W32) (opcode : Nat) (f : List Byte → Option State) : State :=
  match s.command tag opcode with
  | none => s
  | some b =>
    match f b with
    | some s' => s'.complete tag rcOK
    | none => s.complete tag rcREFUSED

/-- Whether a byte of a physical range names no storage in service (15 R375; 17 R429). -/
def State.missingIn (s : State) (pa n : Nat) : Bool := !s.exists? (pa + n - 1) || (s.firstMissing pa n).isSome

/-- Physical memory that firmware reads for a command; `none` where an address names nothing. -/
def State.physical (s : State) (pa n : Nat) : Option (List Byte) :=
  if s.missingIn pa n then none else some (s.home pa n)

/-- BAD_COMMAND (R392). -/
def execBadCommand (tag : W32) (s : State) : Host.Outcome State Fault Refusal :=
  .next (match s.mgmt with
    | some m => if m.tag = tag ∧ s.leader.isSome ∧ blockOk m.block = false then s.complete tag rcBAD_COMMAND else s
    | none => s)

/-- A context from its descriptor (R371) and save pool; `none` where it breaks a range or is not valid. -/
def ctxOf (d : List Byte) (poolBase poolSize : Nat) : Option Ctx :=
  if leField d 0 8 % 4096 = 0 ∧ leField d 8 1 < 64 ∧ leField d 9 1 < 4 ∧ bitAt (leField d 9 1) 0 ∧ 1 ≤ leField d 10 2 ∧ leField d 10 2 ≤ 32
      ∧ leField d 12 4 % 32 = 0 ∧ leField d 12 4 ≤ 65536 ∧ leField d 16 8 % 64 = 0 ∧ leField d 32 4 % 32 = 0 ∧ leField d 40 8 % 4096 = 0
      ∧ leField d 48 8 % 65536 = 0 ∧ leField d 56 8 % 32 = 0 ∧ 1 ≤ leField d 68 4 ∧ leField d 68 4 ≤ 2 ^ 24 ∧ leField d 72 56 = 0
      ∧ poolBase % 65536 = 0 ∧ poolSize % 65536 = 0
  then some
    { ptRoot := leField d 0 8, partition := leField d 8 1, bankCtl := bitAt (leField d 9 1) 1, nQueues := leField d 10 2,
      callSpill := leField d 12 4, queueTab := leField d 16 8, deqSpill := leField d 24 8, deqEnt := leField d 32 4,
      staging := leField d 40 8, chunks := leField d 36 4, filter := leField d 48 8, filterSize := leField d 68 4,
      events := leField d 56 8, intVec := BitVec.ofNat 32 (leField d 64 4), poolBase := poolBase, poolSize := poolSize }
  else none

/-- CREATE_CONTEXT (R393, opcode 1). -/
def execCreateContext (tag : W32) (s : State) : Host.Outcome State Fault Refusal :=
  .next (s.manage tag 1 (fun b =>
    let n := leField b 8 1
    if 64 ≤ n ∨ (s.ctx? n).isSome then none
    else (s.physical (leField b 16 8) 128).bind (fun d =>
      (ctxOf d (leField b 24 8) (leField b 32 8)).map (fun c => { s with ctxs := s.ctxs ++ [(n, c)] }))))

/-- What a context holds in the clusters, cores and dies goes (10 R249; 12 R306; 15 R372). -/
def State.forgetCtx (s : State) (n : Nat) : State :=
  let bank (b : Bank) : Bank := if b.mode = .fifo ∧ b.owner = some n then { b with mode := .scratch, owner := none, fifo := [] } else b
  let s := (s.clusters.map (fun c => c.1)).foldl (fun s k => s.modCluster k (fun c => { c with
    banks := c.banks.map bank
    tlb := c.tlb.filter (fun e => e.ctx != n) })) s
  let s := (s.cores.map (fun c => c.1)).foldl (fun s k => s.modCore k (fun c => { c with
    icache := c.icache.filter (fun l => l.ctx != n)
    waits := c.waits.filter (fun w => w.1 != n) })) s
  { s with
    dies := s.dies.map (fun d => { d with poste := d.poste.filter (fun p => p.ctx != n) })
    ctxs := s.ctxs.filter (fun p => p.1 != n) }

/-- Abort a tree and report it. -/
def State.destroyTree (s : State) (id : Nat) : State :=
  let s := s.abortTree id stABORTED
  match s.tree? id with
  | none => s
  | some t => if t.reported || t.waits.isSome then s else s.reportTree t (t.ending.getD stABORTED)

/-- DESTROY_CONTEXT (R393, opcode 2): its trees are aborted and reported, then it is removed. A page that a report needs holds the command
until the replay doorbell (15 R453). -/
def execDestroyContext (tag : W32) (s : State) : Host.Outcome State Fault Refusal :=
  .next (match s.command tag 2 with
    | none => s
    | some b =>
      let n := leField b 8 1
      if (s.ctx? n).isNone then s.complete tag rcREFUSED
      else
        let s := ((s.inFlight.filter (fun r => r.ctx == n)).map (fun r => r.id)).foldl (fun s id => s.destroyTree id) s
        if s.inFlight.any (fun r => r.ctx == n) then s else (s.forgetCtx n).complete tag rcOK)

/-- Whether a partition holds a context with a tree in flight. -/
def State.partitionBusy (s : State) (p : Nat) : Bool :=
  s.inFlight.any (fun r => match s.ctx? r.ctx with | some c => c.partition == p | none => false)

/-- SET_PARTITION (R393, opcode 3). -/
def execSetPartition (tag : W32) (s : State) : Host.Outcome State Fault Refusal :=
  .next (s.manage tag 3 (fun b =>
    let p := leField b 8 1
    if 64 ≤ p then none
    else (s.physical (leField b 16 8) 72).bind (fun d =>
      let named := bitsOf numClusters (ofLE d)
      let joins := named.filter (fun c => (s.cluster c).partition != some p)
      let leaves := ((s.clusters.filter (fun c => c.2.partition == some p)).map (fun c => c.1)).filter (fun c => !named.contains c)
      let touched := (if joins.isEmpty && leaves.isEmpty then [] else [p]) ++ joins.filterMap (fun c => (s.cluster c).partition)
      if named.any (fun c => s.unitOut .cluster c) || touched.any (fun q => s.partitionBusy q) then none
      else
        let s := leaves.foldl (fun s c => s.modCluster c (fun k => { k with partition := none })) s
        some (joins.foldl (fun s c => (s.forgetCode c).modCluster c (fun k => { k with partition := some p, tlb := [] })) s))))

/-- SET_POWER_CAP (R393, opcode 4). -/
def execSetPowerCap (tag : W32) (s : State) : Host.Outcome State Fault Refusal :=
  .next (s.manage tag 4 (fun b =>
    let w := leField b 8 4
    if 1200 ≤ w ∧ w ≤ 2800 ∧ w % 25 = 0 then some { s with powerCap := w } else none))

/-- Whether a PREEMPT command names a task: by its tree, or by its context and core. -/
def State.preempts (s : State) (b cores : List Byte) (t : Task) : Bool :=
  t.entry.ctx == leField b 9 1
  && (if leField b 8 1 = 0 then s.treeOrdinal t == leField b 16 8 else bitAt (ofLE cores) t.coreD)

/-- PREEMPT (R393, opcode 5; 16 R403): at first each resident task that it names is pre-empted; it completes when none of them is still
draining or held at its save. -/
def execPreempt (tag : W32) (s : State) : Host.Outcome State Fault Refusal :=
  .next (match s.command tag 5 with
    | none => s
    | some b =>
      match (if leField b 8 1 = 0 then some [] else s.physical (leField b 16 8) 288) with
      | none => s.complete tag rcREFUSED
      | some cores =>
        if 1 < leField b 8 1 ∨ (s.ctx? (leField b 9 1)).isNone then s.complete tag rcREFUSED
        else
          let named (s : State) : List Task := s.tasks.filter (fun t => t.resident && s.preempts b cores t)
          let begun := match s.mgmt with | some m => m.begun | none => false
          let s := if begun then s else
            { (named s).foldl (fun s t => s.preemptTask (leField b 24 4) t.entry.id) s with
              mgmt := s.mgmt.map (fun m => { m with begun := true }) }
          if (named s).any (fun t => t.drain.isSome) then s else s.complete tag rcOK)

/-- RESET_STARTUP (R393, opcode 6). -/
def execResetStartup (tag : W32) (s : State) : Host.Outcome State Fault Refusal :=
  .next (s.manage tag 6 (fun _ => some { s with flash := s.flash.map (fun e => { e with method := 0 }) }))

/-- CHANNEL_ACK (R393, opcode 7): the channel leaves service. -/
def execChannelAck (tag : W32) (s : State) : Host.Outcome State Fault Refusal :=
  .next (s.manage tag 7 (fun b =>
    let n := leField b 8 4
    if s.out.any (fun o => o.cls == .channel && o.number == n && o.awaits) then
      some { s.message 1 .channel n with out := s.out.map (fun o => if o.cls = .channel ∧ o.number = n then { o with awaits := false } else o) }
    else none))

/-- Whether a unit is wholly out of service. -/
def State.unitGone (s : State) (c : UnitClass) (n : Nat) : Bool :=
  if c = .cluster then !(s.cluster n).inService
  else if c = .firmware then !(s.die n).fwUp
  else s.out.any (fun o => o.cls == c && o.number == n && !o.awaits)

/-- A unit is taken out of service for actions 2 and 3 (17 R428): a channel at once, since R393 has it leave under R428 and no acknowledgement of the host
could arrive while the command is performed (log entry 88). -/
def State.takeForService (s : State) (c : UnitClass) (n : Nat) : State :=
  if c = .channel then (if s.unitOut c n then s else { s.message 1 c n with out := s.out ++ [{ cls := c, number := n }] }) else s.takeOut c n

/-- SERVICE_UNIT (R393, opcode 8). Where a unit leaves service in steps, actions 2 and 3 go on when it has left; `passes` says whether its
tests succeed. A unit that fails them after action 2 or 3 stays out and the command is refused, as after action 4 (DESIGN CHOICE, log entry 92). -/
def execServiceUnit (tag : W32) (passes : Bool) (s : State) : Host.Outcome State Fault Refusal :=
  .next (match s.command tag 8 with
    | none => s
    | some b =>
      let n := leField b 12 4
      let begun := match s.mgmt with | some m => m.begun | none => false
      match unitOfCode (leField b 8 2) with
      | none => s.complete tag rcREFUSED
      | some c =>
        if !unitExists c n then s.complete tag rcREFUSED
        else match leField b 16 1 with
          | 1 => if s.unitOut c n then s.complete tag rcREFUSED else (s.takeOut c n).complete tag rcOK
          | 4 => if s.unitGone c n && passes then (s.putBack c n).complete tag rcOK else s.complete tag rcREFUSED
          | a =>
            if (a ≠ 2 ∧ a ≠ 3) ∨ (!begun && s.unitOut c n) || (a == 3 && !s.exists? (leField b 24 8)) then s.complete tag rcREFUSED
            else
              let s := if begun then s else { s.takeForService c n with mgmt := s.mgmt.map (fun m => { m with begun := true }) }
              if !s.unitGone c n then s
              else if passes then (s.putBack c n).complete tag rcOK
              else s.complete tag rcREFUSED)

/-- SET_POSTMARK (R393, opcode 9; 10 R246): the regions are set and cleared, and every TLB entry goes. -/
def execSetPostmark (tag : W32) (s : State) : Host.Outcome State Fault Refusal :=
  .next (s.manage tag 9 (fun b =>
    let p (d : Nat) : Nat := leField b (8 + d) 1
    if 21 < p 0 ∨ 21 < p 1 ∨ 21 < p 2 ∨ s.inFlight.any (fun r => r.level != 0) then none
    else
      let s := [0, 1, 2].foldl (fun s d => s.modDie d (fun x => { x with postmarkGiB := p d })) s
      let s := [0, 1, 2].foldl (fun s d => s.clearHome (s.postmarkBase d) (p d * gib)) s
      some ((s.clusters.map (fun c => c.1)).foldl (fun s k => s.modCluster k (fun c => { c with tlb := [] })) s)))

/-! ### The register window (R391) -/

/-- Every access of a context that waits for a page walks again (R377, R453): parks and waits end, and writes that were held are made. One that finds its
page still not present is held again, with a new page-fault event. -/
def State.replay (s : State) (n : Nat) : State :=
  match s.ctx? n with
  | none => s
  | some c =>
    let ag (a : Agent) : Agent := { a with parked := none }
    let task (t : Task) : Task :=
      if t.entry.ctx ≠ n then t
      else if !t.resident then { t with waits := none }
      else { t with
        waits := none
        u := { t.u with ag := ag t.u.ag }
        threads := t.threads.map (fun th => { th with ag := ag th.ag })
        copyq := t.copyq.map (fun l => l.map (fun x => { x with parked := none }))
        q4park := none }
    let tree (r : Tree) : Tree := if r.ctx = n then { r with waits := none } else r
    let core (c : Core) : Core := { c with
      waits := c.waits.filter (fun w => w.1 != n)
      collector := c.collector.map (fun g =>
        if (s.task? g.task).any (fun t => t.entry.ctx == n) then { g with parked := none } else g)
      deque := c.deque.map (fun e => if e.ctx = n then { e with waits := none } else e) }
    let s := { s with
      tasks := s.tasks.map task
      trees := s.trees.map tree
      cores := (s.cores.map (fun (p : Nat × Core) => (p.1, core p.2))).filter (fun (p : Nat × Core) => decide (p.2 ≠ Core.init)) }
    let s := s.modCtx n (fun c => { c with
      faults := []
      heldEvents := []
      queues := (c.queues.map (fun (p : Nat × Queue) => (p.1, { p.2 with parked := none }))).filter (fun (p : Nat × Queue) => decide (p.2 ≠ ({} : Queue))) })
    c.heldEvents.foldl (fun s e =>
      match s.cpWrite n e.1 e.2 with
      | .ok s => s
      | .fault => s
      | .pend p => (s.holdWrite n e.1 e.2).raisePageFault n 0 p) s

/-- REPLAY_DOORBELL (R377, R391). -/
def execReplayDoorbell (ctx : Nat) (s : State) : Host.Outcome State Fault Refusal := .next (s.replay ctx)

/-- A write of the management doorbell (R390, R392): the block is read; without a leader the status is BUSY; while a command is performed the write is
discarded. -/
def State.ringManagement (s : State) (tag : W32) : State :=
  if s.leader.isNone then s.setStatus tag rcBUSY
  else if s.mgmt.isSome then s
  else { s with mgmt := some { tag := tag, block := s.mgmtBlock } }

/-- Clusters in service. -/
def State.clustersIn (s : State) : List Nat := (List.range numClusters).filter (fun c => (s.cluster c).inService)
/-- HBM4E channels out of service. -/
def State.channelsOut (s : State) : List Nat := (s.out.filter (fun o => o.cls == .channel && !o.awaits)).map (fun o => o.number)

/-- The device information block (R389). A channel holds 1.5 GiB (10 R243). While no die holds the lease, the byte of its leader reads 0, a DESIGN CHOICE
(log entry 95). -/
def State.information (s : State) : List Byte :=
  let p (d : Nat) : Nat := (s.die d).postmarkGiB
  let out := s.channelsOut.eraseDups
  leBytes 4 0x33584E49 ++ leBytes 2 1 ++ leBytes 2 2 ++ leBytes 2 s.clustersIn.length
  ++ leBytes 2 (((List.range 12).filter (fun k => !out.any (fun n => n / 32 == k))).map (fun k => 2 ^ k)).sum
  ++ leBytes 4 (s.leader.getD 0) ++ leBytes 8 (hbmBytes - out.length * (3 * gib / 2) - (p 0 + p 1 + p 2) * gib)
  ++ leBytes 1 (p 0) ++ leBytes 1 (p 1) ++ leBytes 1 (p 2) ++ List.replicate 37 0 ++ leBytes 72 ((s.clustersIn.map (fun c => 2 ^ c)).sum)

/-- Service message of one place of the ring: the last posted whose number falls there (R391). -/
def State.ringSlot (s : State) (k : Nat) : Nat :=
  let n := s.service.length
  if n ≤ k then 0 else ((s.service[k + (n - 1 - k) / 256 * 256]?).getD 0).toNat

/-- What a read of the host register window gives at an offset of 8 bytes (R391). -/
def State.windowRead (s : State) (offset : Nat) : Nat :=
  if offset < 136 then leField s.information (offset / 8 * 8) 8
  else if offset / 8 * 8 = 0x1048 then s.mgmtStatus.toNat
  else if 0x2000 ≤ offset ∧ offset < 0x3000 then field (s.ringSlot ((offset - 0x2000) / 16)) (64 * (offset / 8 % 2) + 63) (64 * (offset / 8 % 2))
  else if offset / 8 * 8 = 0x3000 then s.service.length % 2 ^ 64
  else 0

/-- HOST_REGISTER_WINDOW (R391): a write of one location of 8 bytes, or a read, which changes nothing
and gives `State.windowRead`. A write to a location that takes none is
discarded. -/
def execHostRegisterWindow (offset : Nat) (data : Option W64) (s : State) : Host.Outcome State Fault Refusal :=
  .next (match data with
    | none => s
    | some v =>
      if offset % 8 ≠ 0 then s
      else if 0x1000 ≤ offset ∧ offset < 0x1040 then
        { s with mgmtBlock := s.mgmtBlock.take (offset - 0x1000) ++ leBytes 8 v.toNat ++ s.mgmtBlock.drop (offset - 0x1000 + 8) }
      else if offset = 0x1040 then s.ringManagement (v.setWidth 32)
      else if 0x10000 ≤ offset ∧ offset < 0x14000 then s.ringDoorbell ((offset - 0x10000) / 256) (offset % 256 / 8) v.toNat
      else if 0x20000 ≤ offset ∧ offset < 0x20200 then s.replay ((offset - 0x20000) / 8)
      else s)

/-! ### Companion accesses (R387) -/

/-- Whether a byte is WRITE of a DEVENQ queue, which the command processor maintains: it discards what the host writes there (R379). -/
def State.keptByCp (s : State) (pa : Nat) : Bool :=
  s.ctxs.any (fun p => (List.range p.2.nQueues).any (fun q =>
    match s.translateCp p.1 (p.2.queueTab + 64 * q) { r := true } with
    | .ok base _ => decide (base + 16 ≤ pa) && decide (pa < base + 24) && bitAt (Sparse.get 0 s.mem (base + 9)).toNat 1
    | _ => false))

/-- What a companion write of bytes leaves. -/
def State.hostWrite (s : State) (pa : Nat) (bs : List Byte) : State :=
  if (List.range bs.length).any (fun k => s.keptByCp (pa + k)) then
    (bs.zipIdx).foldl (fun x p => if s.keptByCp (pa + p.2) then x else x.setHome (pa + p.2) [p.1]) s
  else s.setHome pa bs

/-- What a companion read receives: the bytes, or `none` for the error response of a poisoned line (17 R427). -/
def State.hostRead (s : State) (pa n : Nat) : Option (List Byte) := if s.poisoned pa n then none else some (s.home pa n)

/-- COMPANION_ACCESS (R387): performed at the home slices. A read changes nothing and receives `State.hostRead`. -/
def execCompanionAccess (pa bytes : Nat) (data : Option Nat) (s : State) : Host.Outcome State Fault Refusal :=
  if s.missingIn pa bytes then .fault .noSuchAddress
  else .next (match data with
    | none => s
    | some v => s.hostWrite pa (leBytes bytes v))

end Sys2Proof.Machine
end

