-- ==== Sys2Proof/Machine/Dispatch.lean ====
section
/-! DEFINITION. Dispatch: one arm per constructor of `Instr`. -/

namespace Sys2Proof.Machine

def exec (i : Instr) (s : State) : Host.Outcome State Fault Refusal :=
  match i with
  | .iadd f => Sys2Proof.Machine.execIadd f s
  | .iaddImm f => Sys2Proof.Machine.execIaddImm f s
  | .isub f => Sys2Proof.Machine.execIsub f s
  | .isubImm f => Sys2Proof.Machine.execIsubImm f s
  | .iaddc f => Sys2Proof.Machine.execIaddc f s
  | .iaddcImm f => Sys2Proof.Machine.execIaddcImm f s
  | .imul f => Sys2Proof.Machine.execImul f s
  | .imulImm f => Sys2Proof.Machine.execImulImm f s
  | .imulh f => Sys2Proof.Machine.execImulh f s
  | .imulhImm f => Sys2Proof.Machine.execImulhImm f s
  | .imad f => Sys2Proof.Machine.execImad f s
  | .imadImm f => Sys2Proof.Machine.execImadImm f s
  | .idiv f => Sys2Proof.Machine.execIdiv f s
  | .idivImm f => Sys2Proof.Machine.execIdivImm f s
  | .irem f => Sys2Proof.Machine.execIrem f s
  | .iremImm f => Sys2Proof.Machine.execIremImm f s
  | .ineg f => Sys2Proof.Machine.execIneg f s
  | .iabs f => Sys2Proof.Machine.execIabs f s
  | .imin f => Sys2Proof.Machine.execImin f s
  | .iminImm f => Sys2Proof.Machine.execIminImm f s
  | .imax f => Sys2Proof.Machine.execImax f s
  | .imaxImm f => Sys2Proof.Machine.execImaxImm f s
  | .iand f => Sys2Proof.Machine.execIand f s
  | .iandImm f => Sys2Proof.Machine.execIandImm f s
  | .ior f => Sys2Proof.Machine.execIor f s
  | .iorImm f => Sys2Proof.Machine.execIorImm f s
  | .ixor f => Sys2Proof.Machine.execIxor f s
  | .ixorImm f => Sys2Proof.Machine.execIxorImm f s
  | .inot f => Sys2Proof.Machine.execInot f s
  | .ishl f => Sys2Proof.Machine.execIshl f s
  | .ishlImm f => Sys2Proof.Machine.execIshlImm f s
  | .ishr f => Sys2Proof.Machine.execIshr f s
  | .ishrImm f => Sys2Proof.Machine.execIshrImm f s
  | .isar f => Sys2Proof.Machine.execIsar f s
  | .isarImm f => Sys2Proof.Machine.execIsarImm f s
  | .irot f => Sys2Proof.Machine.execIrot f s
  | .irotImm f => Sys2Proof.Machine.execIrotImm f s
  | .bfx f => Sys2Proof.Machine.execBfx f s
  | .bfxImm f => Sys2Proof.Machine.execBfxImm f s
  | .bfi f => Sys2Proof.Machine.execBfi f s
  | .bfiImm f => Sys2Proof.Machine.execBfiImm f s
  | .popc f => Sys2Proof.Machine.execPopc f s
  | .clz f => Sys2Proof.Machine.execClz f s
  | .ctz f => Sys2Proof.Machine.execCtz f s
  | .brev f => Sys2Proof.Machine.execBrev f s
  | .isel f => Sys2Proof.Machine.execIsel f s
  | .iselImm f => Sys2Proof.Machine.execIselImm f s
  | .icmp f => Sys2Proof.Machine.execIcmp f s
  | .icmpImm f => Sys2Proof.Machine.execIcmpImm f s
  | .lea f => Sys2Proof.Machine.execLea f s
  | .leaImm f => Sys2Proof.Machine.execLeaImm f s
  | .mov f => Sys2Proof.Machine.execMov f s
  | .movi f => Sys2Proof.Machine.execMovi f s
  | .movhi f => Sys2Proof.Machine.execMovhi f s
  | .sext f => Sys2Proof.Machine.execSext f s
  | .sextImm f => Sys2Proof.Machine.execSextImm f s
  | .zext f => Sys2Proof.Machine.execZext f s
  | .zextImm f => Sys2Proof.Machine.execZextImm f s
  | .fadd f => Sys2Proof.Machine.execFadd f s
  | .fsub f => Sys2Proof.Machine.execFsub f s
  | .fmul f => Sys2Proof.Machine.execFmul f s
  | .ffma f => Sys2Proof.Machine.execFfma f s
  | .fmin f => Sys2Proof.Machine.execFmin f s
  | .fmax f => Sys2Proof.Machine.execFmax f s
  | .fcmp f => Sys2Proof.Machine.execFcmp f s
  | .fclass f => Sys2Proof.Machine.execFclass f s
  | .frint f => Sys2Proof.Machine.execFrint f s
  | .fdiv f => Sys2Proof.Machine.execFdiv f s
  | .fsqrt f => Sys2Proof.Machine.execFsqrt f s
  | .frcp f => Sys2Proof.Machine.execFrcp f s
  | .frsq f => Sys2Proof.Machine.execFrsq f s
  | .fexp2 f => Sys2Proof.Machine.execFexp2 f s
  | .flog2 f => Sys2Proof.Machine.execFlog2 f s
  | .fsin f => Sys2Proof.Machine.execFsin f s
  | .fcos f => Sys2Proof.Machine.execFcos f s
  | .ftanh f => Sys2Proof.Machine.execFtanh f s
  | .fsigm f => Sys2Proof.Machine.execFsigm f s
  | .fscale f => Sys2Proof.Machine.execFscale f s
  | .fdot2 f => Sys2Proof.Machine.execFdot2 f s
  | .cvtff f => Sys2Proof.Machine.execCvtff f s
  | .cvtfi f => Sys2Proof.Machine.execCvtfi f s
  | .cvtif f => Sys2Proof.Machine.execCvtif f s
  | .cvt8 f => Sys2Proof.Machine.execCvt8 f s
  | .unp8 f => Sys2Proof.Machine.execUnp8 f s
  | .pack2 f => Sys2Proof.Machine.execPack2 f s
  | .unpk2 f => Sys2Proof.Machine.execUnpk2 f s
  | .qswap f => Sys2Proof.Machine.execQswap f s
  | .qbcast f => Sys2Proof.Machine.execQbcast f s
  | .gshfl f => Sys2Proof.Machine.execGshfl f s
  | .gvote f => Sys2Proof.Machine.execGvote f s
  | .gred f => Sys2Proof.Machine.execGred f s
  | .gscan f => Sys2Proof.Machine.execGscan f s
  | .gmatch f => Sys2Proof.Machine.execGmatch f s
  | .bra f => Sys2Proof.Machine.execBra f s
  | .brx f => Sys2Proof.Machine.execBrx f s
  | .call f => Sys2Proof.Machine.execCall f s
  | .callx f => Sys2Proof.Machine.execCallx f s
  | .ret f => Sys2Proof.Machine.execRet f s
  | .pblk f => Sys2Proof.Machine.execPblk f s
  | .exit f => Sys2Proof.Machine.execExit f s
  | .yield f => Sys2Proof.Machine.execYield f s
  | .nop f => Sys2Proof.Machine.execNop f s
  | .swtrap f => Sys2Proof.Machine.execSwtrap f s
  | .ld f => Sys2Proof.Machine.execLd f s
  | .st f => Sys2Proof.Machine.execSt f s
  | .atom f => Sys2Proof.Machine.execAtom f s
  | .atomcas f => Sys2Proof.Machine.execAtomcas f s
  | .red f => Sys2Proof.Machine.execRed f s
  | .fence f => Sys2Proof.Machine.execFence f s
  | .pref f => Sys2Proof.Machine.execPref f s
  | .ldh f => Sys2Proof.Machine.execLdh f s
  | .sth f => Sys2Proof.Machine.execSth f s
  | .hwait f => Sys2Proof.Machine.execHwait f s
  | .hset f => Sys2Proof.Machine.execHset f s
  | .hqry f => Sys2Proof.Machine.execHqry f s
  | .bankmode f => Sys2Proof.Machine.execBankmode f s
  | .fifopush f => Sys2Proof.Machine.execFifopush f s
  | .fifopop f => Sys2Proof.Machine.execFifopop f s
  | .holeStall w => Sys2Proof.Machine.execHoleStall w s
  | .cpy f => Sys2Proof.Machine.execCpy f s
  | .cpyt f => Sys2Proof.Machine.execCpyt f s
  | .cpyg f => Sys2Proof.Machine.execCpyg f s
  | .cpys f => Sys2Proof.Machine.execCpys f s
  | .cpym f => Sys2Proof.Machine.execCpym f s
  | .cpyd f => Sys2Proof.Machine.execCpyd f s
  | .seal f => Sys2Proof.Machine.execSeal f s
  | .cwait f => Sys2Proof.Machine.execCwait f s
  | .qfence f => Sys2Proof.Machine.execQfence f s
  | .gath f => Sys2Proof.Machine.execGath f s
  | .scat f => Sys2Proof.Machine.execScat f s
  | .scadd f => Sys2Proof.Machine.execScadd f s
  | .binflush f => Sys2Proof.Machine.execBinflush f s
  | .copyCommandPerformed task q => Sys2Proof.Machine.execCopyCommandPerformed task q s
  | .multicastPark task q => Sys2Proof.Machine.execMulticastPark task q s
  | .multicastDrain task q => Sys2Proof.Machine.execMulticastDrain task q s
  | .collectorWindow core => Sys2Proof.Machine.execCollectorWindow core s
  | .tcfg f => Sys2Proof.Machine.execTcfg f s
  | .tld f => Sys2Proof.Machine.execTld f s
  | .tst f => Sys2Proof.Machine.execTst f s
  | .tzero f => Sys2Proof.Machine.execTzero f s
  | .mma f => Sys2Proof.Machine.execMma f s
  | .mmas f => Sys2Proof.Machine.execMmas f s
  | .tcvt f => Sys2Proof.Machine.execTcvt f s
  | .accrd f => Sys2Proof.Machine.execAccrd f s
  | .accwr f => Sys2Proof.Machine.execAccwr f s
  | .tstat f => Sys2Proof.Machine.execTstat f s
  | .trel f => Sys2Proof.Machine.execTrel f s
  | .matrixCommandPerformed task => Sys2Proof.Machine.execMatrixCommandPerformed task s
  | .matrixHeadAging task => Sys2Proof.Machine.execMatrixHeadAging task s
  | .spawn f => Sys2Proof.Machine.execSpawn f s
  | .spawnl f => Sys2Proof.Machine.execSpawnl f s
  | .sync f => Sys2Proof.Machine.execSync f s
  | .mergeCommand task => Sys2Proof.Machine.execMergeCommand task s
  | .acquire f => Sys2Proof.Machine.execAcquire f s
  | .acquireGrant cluster => Sys2Proof.Machine.execAcquireGrant cluster s
  | .release f => Sys2Proof.Machine.execRelease f s
  | .bara f => Sys2Proof.Machine.execBara f s
  | .barw f => Sys2Proof.Machine.execBarw f s
  | .dqput f => Sys2Proof.Machine.execDqput f s
  | .dqget f => Sys2Proof.Machine.execDqget f s
  | .enq f => Sys2Proof.Machine.execEnq f s
  | .texit f => Sys2Proof.Machine.execTexit f s
  | .pedrd f => Sys2Proof.Machine.execPedrd f s
  | .vupd f => Sys2Proof.Machine.execVupd f s
  | .vread f => Sys2Proof.Machine.execVread f s
  | .logapp f => Sys2Proof.Machine.execLogapp f s
  | .rand f => Sys2Proof.Machine.execRand f s
  | .alloc f => Sys2Proof.Machine.execAlloc f s
  | .allocCfg f => Sys2Proof.Machine.execAllocCfg f s
  | .peddg f => Sys2Proof.Machine.execPeddg f s
  | .xset f => Sys2Proof.Machine.execXset f s
  | .xdeal f => Sys2Proof.Machine.execXdeal f s
  | .xred f => Sys2Proof.Machine.execXred f s
  | .xend f => Sys2Proof.Machine.execXend f s
  | .xqry f => Sys2Proof.Machine.execXqry f s
  | .cvqry f => Sys2Proof.Machine.execCvqry f s
  | .cvqryBand f => Sys2Proof.Machine.execCvqryBand f s
  | .cvprobe f => Sys2Proof.Machine.execCvprobe f s
  | .recon f => Sys2Proof.Machine.execRecon f s
  | .cverr f => Sys2Proof.Machine.execCverr f s
  | .csrrd f => Sys2Proof.Machine.execCsrrd f s
  | .csrwr f => Sys2Proof.Machine.execCsrwr f s
  | .trapret f => Sys2Proof.Machine.execTrapret f s
  | .cycle f => Sys2Proof.Machine.execCycle f s
  | .bkpt f => Sys2Proof.Machine.execBkpt f s
  | .icsync f => Sys2Proof.Machine.execIcsync f s
  | .tlbinv f => Sys2Proof.Machine.execTlbinv f s
  | .trapDelivery task => Sys2Proof.Machine.execTrapDelivery task s
  | .queueDoorbell ctx q value => Sys2Proof.Machine.execQueueDoorbell ctx q value s
  | .treeLaunch ctx q => Sys2Proof.Machine.execTreeLaunch ctx q s
  | .sweepLaunch ctx q => Sys2Proof.Machine.execSweepLaunch ctx q s
  | .determinismPacket ctx q => Sys2Proof.Machine.execDeterminismPacket ctx q s
  | .indirectBuffer ctx q => Sys2Proof.Machine.execIndirectBuffer ctx q s
  | .launchStart ctx q core => Sys2Proof.Machine.execLaunchStart ctx q core s
  | .sweepTaskCreation tree core => Sys2Proof.Machine.execSweepTaskCreation tree core s
  | .taskStart core => Sys2Proof.Machine.execTaskStart core s
  | .steal thief victim => Sys2Proof.Machine.execSteal thief victim s
  | .dequeRelief core => Sys2Proof.Machine.execDequeRelief core s
  | .acquireRelief cluster => Sys2Proof.Machine.execAcquireRelief cluster s
  | .restore task core => Sys2Proof.Machine.execRestore task core s
  | .treeComplete tree => Sys2Proof.Machine.execTreeComplete tree s
  | .replayDoorbell ctx => Sys2Proof.Machine.execReplayDoorbell ctx s
  | .createContext tag => Sys2Proof.Machine.execCreateContext tag s
  | .destroyContext tag => Sys2Proof.Machine.execDestroyContext tag s
  | .setPartition tag => Sys2Proof.Machine.execSetPartition tag s
  | .setPowerCap tag => Sys2Proof.Machine.execSetPowerCap tag s
  | .preempt tag => Sys2Proof.Machine.execPreempt tag s
  | .drainBudget task => Sys2Proof.Machine.execDrainBudget task s
  | .resetStartup tag => Sys2Proof.Machine.execResetStartup tag s
  | .channelAck tag => Sys2Proof.Machine.execChannelAck tag s
  | .serviceUnit tag passes => Sys2Proof.Machine.execServiceUnit tag passes s
  | .setPostmark tag => Sys2Proof.Machine.execSetPostmark tag s
  | .hostRegisterWindow offset data => Sys2Proof.Machine.execHostRegisterWindow offset data s
  | .companionAccess pa bytes data => Sys2Proof.Machine.execCompanionAccess pa bytes data s
  | .l1WriteBack cluster line => Sys2Proof.Machine.execL1WriteBack cluster line s
  | .l1CleanDrop cluster line => Sys2Proof.Machine.execL1CleanDrop cluster line s
  | .issuePromotion core => Sys2Proof.Machine.execIssuePromotion core s
  | .issueGating die level => Sys2Proof.Machine.execIssueGating die level s
  | .thermalGating die => Sys2Proof.Machine.execThermalGating die s
  | .thermalTrip => Sys2Proof.Machine.execThermalTrip s
  | .leaseRenewal => Sys2Proof.Machine.execLeaseRenewal s
  | .leaseTakeover die => Sys2Proof.Machine.execLeaseTakeover die s
  | .correctedError cls number => Sys2Proof.Machine.execCorrectedError cls number s
  | .uncorrectedError target => Sys2Proof.Machine.execUncorrectedError target s
  | .startup primary alternate => Sys2Proof.Machine.execStartup primary alternate s
  | .unassignedOpcode w => Sys2Proof.Machine.execUnassignedOpcode w s
  | .bundleFormation core => Sys2Proof.Machine.execBundleFormation core s
  | .badCommand tag => Sys2Proof.Machine.execBadCommand tag s
  | .unknownPacketType ctx q => Sys2Proof.Machine.execUnknownPacketType ctx q s
  | .thermalGatingRelease die => Sys2Proof.Machine.execThermalGatingRelease die s
  | .filterTagReturn tag => Sys2Proof.Machine.execFilterTagReturn tag s

end Sys2Proof.Machine
end

