-- ==== Sys2Proof/Machine/Late.lean ====
section
/-! DEFINITION. Accesses performed out of program order (11 R272, R274, R275, R280, R288; log entry 31): relaxed and releasing accesses that an
agent passes over and that are performed later, loads that it performs ahead of its other instructions, and what must be performed before an
instruction is executed. -/

namespace Sys2Proof.Machine

/-! ### Passing an access over -/

/-- An agent passes over an access. -/
def passOver (w : Who) (x : Late) : M Unit := modAgent w (fun a => { a with late := a.late ++ [x] })

/-- What lower lanes of the issue under way have passed over and that touches a byte of a range is performed first (10 R258). -/
def State.settleLower (s : State) (w : Who) (pa n : Nat) : State :=
  match w.thread with
  | none => s
  | some k => (s.cur.threads.takeWhile (fun j => j != k)).foldl (fun s j =>
      let v : Who := { task := w.task, thread := some j }
      if (s.lateOf v).any (fun x => x.fresh && x.meets pa n) then s.settleLate v (fun x => x.meets pa n) (s.lateOf v) else s) s

/-- An access that is to be passed over has been translated: lower lanes keep their place, and a check of the race filter sees the stores that it has
checked before (R288). -/
def comeTo (w : Who) (acc : Acc) (g : Seg) : M Unit :=
  modify (fun s =>
    let s := s.settleLower w g.pa g.n
    if s.filtering acc g then s.settleWatched acc.tree g.pa g.n else s)

/-- The bytes of a load that the agent has performed ahead, at most 65,536 cycles ago, and the state in which that is spent. -/
def State.takeEarly (s : State) (w : Who) (pc pa n : Nat) : Option (List Byte × State) :=
  match s.task? w.task with
  | none => none
  | some t =>
    let fits (e : Early) : Bool := e.pc == pc && e.pa == pa && e.bytes.length == n
      && decide ((s.cycle t.cluster + 2 ^ 64 - e.since) % 2 ^ 64 < 65536)
    ((s.agent w).early.find? fits).map (fun e => (e.bytes, s.modAgent w (fun a => { a with early := a.early.erase e })))

/-- LD passed over: its checks and its translation are made, and its value is read later, or has been read ahead. -/
def lateLdBody (f : Fields) (w : Who) : M Flow := do
  let n := accBytes f
  let a ← accAddr w (.ld f) f true n
  let acc ← accOf w f true
  match (← mapFor acc a a n { r := true }) with
  | [g] =>
    comeTo w acc g
    let s ← get
    match s.takeEarly w (s.agent w).pc.toNat g.pa n with
    | some (bs, s) =>
      set s
      wrOpnd w (shape (.ld f)).d f.d (loadExt f (ofLE bs))
    | none =>
      let seen ← (if s.filtering acc g || s.tainted acc.cl g.pa g.n then do
          let (r, s) := s.readSegs acc [g]
          set s
          match r with
          | .error e => accStop acc a false e
          | .ok bs => pure (some bs)
        else pure none : M (Option (List Byte)))
      passOver w { acc := acc, seg := g, op := .load f.d.toNat (shape (.ld f)).d.kind.regs (match mField f 7 5 with | 1 => 8 | 3 => 16 | _ => 0) seen }
    pure .next
  | _ => ldBody f false w

/-- ST passed over: its data are taken, and written later. -/
def lateStBody (f : Fields) (w : Who) : M Unit := do
  let n := accBytes f
  let a ← accAddr w (.st f) f true n
  let v ← rdOpnd w (shape (.st f)).c f.c
  let acc ← accOf w f true
  match (← mapFor acc a a n { w := true }) with
  | [g] =>
    comeTo w acc g
    match (← get).firstRace acc true [g] with
    | some .filterLost => modify (fun s => s.filterOff acc.tree)
    | some e => accStop acc a true e
    | none => pure ()
    passOver w { acc := acc, seg := g, op := .store (leBytes n v) }
  | _ => storeVa acc a (leBytes n v)

/-- ATOM, ATOMCAS or RED passed over: its operands are taken. -/
def lateAtomBody (i : Instr) (f : Fields) (op : Nat → LateOp) (w : Who) : M Unit := do
  let n := accBytes f
  let a ← accAddr w i f false n
  let acc ← accOf w f false
  match (← mapFor acc a a n { r := true, w := true }) with
  | g :: _ =>
    comeTo w acc g
    if (← get).poisoned g.pa n then throw (.endTree stUNCORRECTED)
    passOver w { acc := acc, seg := g, op := op n }
  | [] => throw .wait

/-- FENCE.rel passed over. -/
def lateFenceBody (f : Fields) (w : Who) : M Unit := do
  let acc ← accOf w f false
  passOver w { acc := acc, seg := { va := 0, pa := 0, n := 0, watched := false }, op := .fence }

/-- The meaning of an instruction that is passed over: a relaxed access, a release write or a FENCE.rel, which nothing keeps before a later load of
other bytes (R274, R275), or a computation; none for one that is never passed over. -/
def lateMeaning (i : Instr) : Option (State → Host.Outcome State Fault Refusal) :=
  match i with
  | .ld f => if mField f 4 3 = 0 then some (issueHeld (.ld f) f (lateLdBody f) (ldBody f true)) else none
  | .st f => if mField f 4 3 % 2 = 0 then some (issueLive (.st f) f (lateStBody f)) else none
  | .atom f => if mField f 4 3 % 2 = 0 then some (issueLive (.atom f) f (fun w => do
      let v ← rdOpnd w (shape (.atom f)).c f.c
      lateAtomBody (.atom f) f (fun n => .atom (some f.b.toNat) (trunc v (8 * n)) 0 f.d.toNat (shape (.atom f)).d.kind.regs) w)) else none
  | .atomcas f => if mField f 4 3 % 2 = 0 then some (issueLive (.atomcas f) f (fun w => do
      let cmp ← rdOpnd w (shape (.atomcas f)).b f.b
      let v ← rdOpnd w (shape (.atomcas f)).c f.c
      lateAtomBody (.atomcas f) f (fun n => .atom none (trunc v (8 * n)) (trunc cmp (8 * n)) f.d.toNat (shape (.atomcas f)).d.kind.regs) w))
    else none
  | .red f => if mField f 4 3 % 2 = 0 then some (issueLive (.red f) f (fun w => do
      let v ← rdOpnd w (shape (.red f)).c f.c
      lateAtomBody (.red f) f (fun n => .atom (some f.b.toNat) (trunc v (8 * n)) 0 0 0) w)) else none
  | .fence f => if mField f 4 3 = 2 then some (issueLive (.fence f) f (lateFenceBody f)) else none
  | i => (pureMeaning i).map (passCompute i)

/-! ### What is performed before an instruction -/

/-- Which of the accesses that its agent has passed over are performed before an instruction is executed (R274, R275, R280, R282). -/
inductive Before where
  /-- None, but for loads whose destination it names and accesses to its own bytes. -/
  | free
  /-- What a FENCE.rel precedes: it writes memory, a pigeonhole or a FIFO. -/
  | fenced
  /-- Every load and atomic. -/
  | reads
  /-- Every one. -/
  | own
  /-- Every one of every agent of the task, or of the machine. -/
  | task
  | machine
  deriving DecidableEq, Repr

/-- What an instruction orders. The others order all that precedes them: implicit edges, issues of engine commands (R280, R282). -/
def ordersBefore (i : Instr) (f : Fields) (a : Agent) : Before :=
  let order := mField f 4 3
  match i with
  | .ld _ => .free
  | .st _ | .atom _ | .atomcas _ | .red _ => if 2 ≤ order then .own else .fenced
  | .fence _ => if order = 1 then .reads else .own
  | .fifopush _ => if 2 ≤ order then .own else .fenced
  | .sth _ | .hset _ => .fenced
  | .bra _ | .brx _ | .pblk _ | .nop _ | .yield _ | .swtrap _ | .bkpt _ | .pref _ | .ldh _ | .hwait _ | .hqry _
  | .bankmode _ | .fifopop _ | .dqget _ | .pedrd _ | .seal _ | .cwait _ | .qfence _ | .tstat _ | .vupd _ | .vread _ | .logapp _ | .rand _
  | .alloc _ | .allocCfg _ | .peddg _ | .xset _ | .xdeal _ | .xred _ | .xend _ | .xqry _ | .cvqry _ | .cvqryBand _ | .cverr _ | .csrrd _
  | .csrwr _ | .cycle _ => .free
  | .call _ | .callx _ => if 8 ≤ a.stack.length then .own else .free
  | .ret _ => if a.stack.isEmpty then .own else .free
  | .acquire _ | .release _ | .texit _ => .task
  | .tlbinv _ => .machine
  | i => match i.opcode? with
    | some (major, _) => if major < 5 then .free else .own
    | none => .own

/-- The segment that an access of an agent touches, by whose bytes it stays in order with earlier ones (R272), and how it touches it; none for any
other instruction. -/
def accessSeg (i : Instr) (w : Who) (s : State) : Option (Acc × Seg) :=
  let go (f : Fields) (checked : Bool) (addr : M Nat) (n : Nat) : Option (Acc × Seg) :=
    match (do
      let a ← addr
      let acc ← accOf w f checked
      let segs ← mapFor acc a a n {}
      pure (segs.map (fun g => (acc, g))) : M (List (Acc × Seg))) s with
    | .ok (x :: _) _ => some x
    | _ => none
  match i with
  | .ld f | .st f => go f true (accAddr w i f true (accBytes f)) (accBytes f)
  | .atom f | .atomcas f | .red f => go f false (accAddr w i f false (accBytes f)) (accBytes f)
  | .peddg f => if mField f 1 0 < 2 then none else go { f with mod := 0 } true (rdOpnd w (shape i).a f.a) 64
  | _ => none

/-- Before an instruction of an agent: those loads and computations are performed whose destination it names, and those computations that name its own
destination; then those accesses that touch a byte of its range, and what the race filter must see. -/
def State.settleNamed (s : State) (i : Instr) (w : Who) : State :=
  match s.task? w.task with
  | none => s
  | some _ =>
    let s := s.settleNames i w
    match accessSeg i w s with
    | some (a, g) =>
      let s := s.settleLate w (fun x => x.meets g.pa g.n) (s.lateOf w)
      if s.filtering a g then s.settleWatched a.tree g.pa g.n else s
    | none => s

/-- Before an instruction of an agent: what it orders. -/
def State.settleOrdered (s : State) (i : Instr) (f : Fields) (w : Who) : State :=
  match ordersBefore i f (s.agent w) with
  | .free => s
  | .fenced => s.settleFenced w
  | .reads => s.settleLate w Late.reads (s.lateOf w)
  | .own => s.settleAgent w
  | .task => match s.task? w.task with
    | some t => s.settleTask t
    | none => s
  | .machine => s.settleAll

/-! ### Loads performed ahead -/

/-- Whether a load that follows an instruction may be performed before it. Not where the instruction is an acquire (R275), the target of an implicit
edge or a join of engine commands (R280, R282), reads memory that it does not name as its range, invalidates what fetches and translations read,
or enters or leaves a handler. -/
def leavesEarly (i : Instr) (f : Fields) (a : Agent) : Bool :=
  let order := mField f 4 3
  match i with
  | .ld _ | .st _ | .atom _ | .atomcas _ | .red _ | .fifopop _ => order % 2 == 0
  | .fence _ => order == 2
  | .call _ | .callx _ => decide (a.stack.length < 8)
  | .ret _ => !a.stack.isEmpty
  | .cwait _ | .qfence _ | .tstat _ | .gath _ | .sync _ | .barw _ | .dqget _ | .texit _ | .exit _ | .enq _ | .cvprobe _ | .recon _ | .icsync _
  | .tlbinv _ | .trapret _ | .swtrap _ | .bkpt _ => false
  | _ => true

/-- Whether an instruction issues on a pigeonhole that a command has filled since a load was performed ahead: it joins the command (10 R253; R282). -/
def joinsFill (sh : Shape) (f : Fields) (e : Early) : Bool := (sh.fieldsOf f [.h]).any (fun h => e.holes.contains h)

/-- Before an instruction of an agent, the loads that it has performed ahead and that may not stand before it are forgotten, and performed again when
it comes to them: all where the instruction orders later loads; those that a command which it joins precedes; those whose address it writes; those of
whose bytes it, or a lower lane of its issue, touches one, but for the load itself where it may take them (R272, R274, R282; 10 R258). -/
def State.trimEarly (s : State) (late : Bool) (i : Instr) (f : Fields) (w : Who) : State :=
  if (s.agent w).early.isEmpty then s
  else match s.task? w.task with
    | none => s
    | some t =>
      let sh := t.shapeOf i
      let lower := (s.movers.takeWhile (fun v => v != w)).filterMap (fun v => accessSeg i v s)
      let own := (accessSeg i w s).toList
      let meets (e : Early) (x : Acc × Seg) : Bool := decide (x.2.pa < e.pa + e.bytes.length) && decide (e.pa < x.2.pa + x.2.n)
      let keep (e : Early) : Bool :=
        leavesEarly i f (s.agent w) && !joinsFill sh f e && !e.base.any (fun b => (sh.writes f).any (fun p => spansMeet p b)) && !lower.any (meets e)
          && (!own.any (meets e) || (late && e.pc == (s.agent w).pc.toNat))
      s.modAgent w (fun a => { a with early := a.early.filter keep })

/-- An agent performs the load of its code at an address before it comes to it. It has passed over nothing that touches its bytes or writes its
address, waits for nothing, and the load is one that meets no fault, race or poison (11 R274; log entry 97). -/
def State.foresee (s : State) (w : Who) (pc : Nat) : State :=
  match s.task? w.task with
  | none => s
  | some t =>
    let may := match w.thread with
      | some k => t.canIssue k && !(s.core t.coreD).collector.any (fun g => g.task == w.task && g.thread == k)
      | none => !t.held none && t.u.ag.parked.isNone
    if !t.resident || !may || (s.agent w).waiting || (s.agent w).entry || !isSlotAddr pc || !canonicalVa pc then s
    else match decode (s.insnAt t pc) with
      | .ld f =>
        let sh := shape (.ld f)
        let base := [sh.a.span f.a, sh.b.span f.b]
        let clear (g : Seg) : Bool := !(s.lateOf w).any (fun x => x.meets g.pa g.n || base.any (fun b => spansMeet b x.dest))
          && !(s.slowOf w).any (fun x => match x.instr.fields? with
            | some g => ((shape x.instr).writes g).any (fun p => base.any (spansMeet p))
            | none => false)
        if f.u != w.thread.isNone || !sh.legal f || rangeBad sh f t w.thread.isSome || mField f 4 3 ≠ 0 then s
        else match accessSeg (.ld f) w s with
          | none => s
          | some (a, g) =>
            if !clear g then s
            else
              let s' := if s.filtering a g then s.settleWatched a.tree g.pa g.n else s
              match (do
                let x ← accAddr w (.ld f) f true (accBytes f)
                loadVa a x (accBytes f) : M (List Byte)) s' with
              | .ok bs s' => s'.modAgent w (fun a => { a with
                  early := a.early ++ [{ pc := pc, pa := g.pa, bytes := bs, base := base, since := s.cycle t.cluster }] })
              | .error _ _ => s
      | _ => s

/-! ### Before a turn and an event -/

/-- Whether an instruction makes accesses, checked by the race filter, that it does not name as its range: the points of a sweep (09 R228, R229). -/
def checksMore (i : Instr) : Bool :=
  match i with
  | .cvprobe _ | .recon _ | .texit _ => true
  | _ => false

/-- What precedes the execution of an instruction by the agents whose turn it is. -/
def State.settleBefore (s : State) (i : Instr) : State :=
  match i.fields? with
  | none => s
  | some f =>
    let s := s.movers.foldl (fun s w => s.trimEarly false i f w) s
    let s := if checksMore i then s.settleChecked else s
    s.movers.foldl (fun s w => (s.settleNamed i w).settleOrdered i f w) s

/-- What precedes an instruction that the agents whose turn it is pass over. What they have passed over before stems from earlier issues. A
computation performs by itself what it does not pass over. -/
def State.settlePassing (s : State) (i : Instr) : State :=
  match i.fields? with
  | none => s
  | some f =>
    let s := s.movers.foldl (fun s w => s.trimEarly true i f w) s
    s.movers.foldl (fun s w => (if (pureMeaning i).isSome then s else s.settleNamed i w).modAgent w (fun a =>
      { a with late := a.late.map (fun x => { x with fresh := false }) })) s

/-- Machine events before which every access that has been passed over is performed: units come and go, postmarks move, contexts end. -/
def settlesAll (i : Instr) : Bool :=
  match i with
  | .destroyContext .. | .setPartition .. | .resetStartup .. | .channelAck .. | .serviceUnit .. | .setPostmark .. | .correctedError ..
  | .uncorrectedError .. | .thermalTrip .. => true
  | _ => false

/-- What precedes a machine event: an engine's check must see the stores checked before it (R288), and a handler's entry follows what its task has
done (16 R396, R400). Other events leave accesses passed over as they are. -/
def State.settleForEvent (s : State) (i : Instr) : State :=
  if settlesAll i then s.settleAll
  else match i with
    | .copyCommandPerformed .. | .multicastPark .. | .multicastDrain .. | .matrixCommandPerformed .. | .collectorWindow .. => s.settleChecked
    | .trapDelivery id => match s.task? id with
      | some t => s.settleTask t
      | none => s
    | _ => s

end Sys2Proof.Machine
end

