-- ==== Sys2Proof/Machine/Turn.lean ====
section
/-! DEFINITION. What a choice moves. An agent whose turn it is fetches, decodes and issues; a machine event happens where it is enabled; a cycle of
a die passes. -/

namespace Sys2Proof.Machine

/-- A line that passed in its second copy counts as a corrected error of the core, once its instruction has been executed (03 R63; 17 R424). -/
def noteCorrected (corrected : Bool) (cl : Nat) (r : Host.Outcome State Fault Refusal) : Host.Outcome State Fault Refusal :=
  match corrected, r with
  | true, .next s => execCorrectedError .cluster cl s
  | _, r => r

/-- What an instruction does in the agents whose turn it is: what must come before it is performed, and it is executed, or passed over where it is an
access that may be (11 R274). -/
def execTurn (late : Bool) (i : Instr) (s : State) : Host.Outcome State Fault Refusal :=
  match late, lateMeaning i with
  | true, some g => g (s.settlePassing i)
  | _, _ => exec i (s.settleBefore i)

/-- The turn of a uniform stream that a core's front end has chosen, passing others over. Where an instruction issues, the turn passes (13 R334). -/
def stepUniform (late : Bool) (core : Nat) (passed : List Nat) (s : State) (task : Nat) : Host.Outcome State Fault Refusal :=
  match s.task? task with
  | none => .next s
  | some t =>
    if !t.resident || s.gated t.cluster || t.held none || t.u.ag.parked.isSome then .next s
    else if t.u.ag.entry then .next (s.checkEntry { task := task })
    else match s.fetchFor { task := task } with
      | (.stop x, s') => .next (s'.stopFetch { task := task } x)
      | (.word w c, s') =>
        noteCorrected c t.cluster (execTurn late (decode w) ((s'.noteTurn core (some t) passed).turn { task := task, uniform := true, threads := [] }))

/-- The turn of a bundle. Its members fetch one line (02 R40); a stop of the fetch meets each of them. -/
def stepBundle (late : Bool) (s : State) (core k : Nat) : Host.Outcome State Fault Refusal :=
  match (s.core core).bundles[k]? with
  | none => .next s
  | some b =>
    match s.task? b.task with
    | none => .next s
    | some t =>
      if t.core? != some core || s.gated t.cluster then .next s
      else
        let ks := b.threads.filter (fun j => t.canIssue j)
        match ks with
        | [] => .next s
        | j :: _ =>
          let ks := ks.filter (fun x => (t.thread x).ag.pc == (t.thread j).ag.pc)
          if ks.any (fun x => (t.thread x).ag.entry) then
            .next (ks.foldl (fun s x => if (t.thread x).ag.entry then s.checkEntry { task := b.task, thread := some x } else s) s)
          else match s.fetchFor { task := b.task, thread := some j } with
            | (.stop x, s') => .next (ks.foldl (fun s i => s.stopFetch { task := b.task, thread := some i } x) s')
            | (.word w c, s') =>
              match execTurn late (decode w) ((s'.noteIssue core b.task (t.thread j).ag.pc.toNat ks).turn
                  { task := b.task, uniform := false, threads := ks }) with
              | .next s'' => noteCorrected c t.cluster (.next (s''.pruneBundle core k))
              | r => r

/-- The turn of a core: the bundle that it chooses among those whose operands have arrived (13 R333). -/
def turnCore (passOver : Bool) (s : State) (core : Nat) (late : List Nat) : Host.Outcome State Fault Refusal :=
  match s.chosenBundle core late with
  | none => .next s
  | some k => stepBundle passOver s core k

/-- The turn of a core's front end: the uniform stream that the rotation chooses (02 R44). -/
def turnFront (passOver : Bool) (s : State) (core : Nat) (late : List Nat) : Host.Outcome State Fault Refusal :=
  match s.chosenStream core late with
  | (none, passed) => .next (s.noteTurn core none passed)
  | (some t, passed) => stepUniform passOver core passed s t.entry.id

/-- A cycle of a die passes (01 R13, R15): its counters advance, stalls that have reached their limit end (10 R254), and, in a cycle that is a
multiple of 4, its cores form bundles (02 R38). Spill accesses and reliefs that are due happen (13 R327, R329), the matrix engines choose their
next commands (07 R164), and quarantines under way go on. -/
def State.passCycle (s : State) (d : Nat) : State :=
  ((((((s.tickDie d).endStalls d).touchDie d).formDie d).relieveDie d).arbitrateDie d).goQuarantines

/-- Whether an event of heat acts on a module in start-up as well (01 R29; log entry 69). -/
def isThermal (i : Instr) : Bool :=
  match i with
  | .thermalTrip | .thermalGating _ | .thermalGatingRelease _ => true
  | _ => false

/-- What moves a module that is not running: start-up; heat while it has power; and, once the dies have left reset, their cycles (01 R15, R29;
17 R431, R433; log entry 69). -/
def performIdle (c : Choice) (s : State) : Host.Outcome State Fault Refusal :=
  match c, s.power with
  | .event i, .starting _ => if isThermal i then exec i s else .next s
  | .event i, .stopped _ => if isThermal i then exec i s else .next s
  | .tick d, .starting n => .next (if 3 ≤ n then s.tickDie d else s)
  | _, _ => .next s

/-- A choice moves. -/
def perform (c : Choice) (s : State) : Host.Outcome State Fault Refusal :=
  match c with
  | .event (.startup p a) => exec (.startup p a) s
  | c =>
    if s.power ≠ .running then performIdle c s
    else match c with
      | .issue core late => turnCore false s core late
      | .issueLate core late => turnCore true s core late
      | .rotate core late => turnFront false s core late
      | .rotateLate core late => turnFront true s core late
      | .perform task th n => .next (s.performLate { task := task, thread := th } n)
      | .foresee task th pc => .next (s.foresee { task := task, thread := th } pc)
      | .operandWait task ks => .next (s.awaitOperands task ks)
      | .copyUnit task q write n => .next (if q = 4 then s.settleChecked.matrixUnit task n else s.settleChecked.copyUnit task q write n)
      | .sparseSteps task n => .next (s.settleChecked.runSteps task n)
      | .event i => if isEvent i then exec i (s.settleForEvent i) else .next s
      | .tick d => .next (s.passCycle d)
      | .dropTlb cl n => .next (s.dropTlbEntry cl n)
      | .dropCode core n => .next (s.dropCodeLine core n)
      | .useL1 b => .next { s with hold := b }

end Sys2Proof.Machine
end

