-- ==== Sys2Proof/Machine/Step.lean ====
section
/-! DEFINITION. One step of the module: the next choice moves. -/

namespace Sys2Proof.Machine

/-- One step: the oldest choice of the agenda, or else a free choice or a promised turn (13 R353). -/
def step (s : State) : Host.Outcome State Fault Refusal :=
  match s.agenda with
  | c :: rest => perform c { s with agenda := rest }
  | [] => perform (nextChoice s.tick) { s with tick := s.tick + 1 }

/-- The instruction with the given table bits placed where the next step fetches it. -/
def State.withFetchWord (s : State) (nbits w : Nat) : State := s.placeWord (BitVec.ofNat 96 (w % 2 ^ nbits))

end Sys2Proof.Machine
end

