-- ==== Sys2Proof/Safety.lean ====
section
/-! DEFINITION. The terms of the claims: the invariant of the machine, and an agent whose turn it is and whose instruction has passed the
checks of 03 R81. -/

namespace Sys2Proof

/-- Memory is in its canonical form: addresses rising, no byte equal to what an unlisted address reads as. -/
abbrev Memory.wf (m : Machine.Sparse Byte) : Bool := Machine.Sparse.wf 0 m

open Machine

/-- The L1 of a cluster holds one copy of a line at most, of 128 bytes. -/
def L1Sound (s : State) (cl : Nat) : Prop :=
  ((s.cluster cl).l1.map L1Line.line).Nodup ∧ ∀ l ∈ (s.cluster cl).l1, l.data.length = 128

/-- The invariant of the machine: canonical memory, three dies, and every cluster's L1 sound. -/
def Inv (s : State) : Prop := Memory.wf s.mem = true ∧ s.dies.length = 3 ∧ ∀ cl, L1Sound s cl

/-- It is an agent's turn to issue an instruction, alone: `t` is its task, it is neither held nor parked, and no helper stands in its task. -/
structure Facing (i : Instr) (f : Fields) (w : Who) (t : Machine.Task) (s : State) : Prop where
  fields : i.fields? = some f
  found : s.task? w.task = some t
  cur : s.cur = { task := w.task, uniform := w.thread.isNone, threads := w.thread.toList }
  uniformReady : w.thread = none → t.held none = false ∧ t.u.ag.parked = none
  threadReady : ∀ k, w.thread = some k → t.canIssue k = true
  alone : ∀ k, (t.thread k).status ≠ .helper

/-- It is an agent's turn to perform an instruction, alone: the instruction passes the checks that precede its own entry (03 R81) and is not
suppressed by an open predicate block (03 R78). -/
structure Turn (i : Instr) (f : Fields) (w : Who) (t : Machine.Task) (s : State) : Prop extends Facing i f w t s where
  passes : check i f t w.thread = .ok false

/-- The state after the instruction has had its effect and the agent goes on to the next slot (03 R61, R75, R78). -/
def retired (i : Instr) (f : Fields) (w : Who) (t : Machine.Task) (s' : State) : State :=
  s'.retire w .next (decide (0 < (t.agent w.thread).block.left))
    (openWindow (shape i) f (t.agent w.thread).pc.toNat (w.thread.isNone && t.handler.isSome))

/-- The state after a taken transfer to a slot address (03 R79, R80). -/
def jumped (i : Instr) (f : Fields) (w : Who) (t : Machine.Task) (a : Nat) (s' : State) : State :=
  s'.retire w (.jump a) (decide (0 < (t.agent w.thread).block.left))
    (openWindow (shape i) f (t.agent w.thread).pc.toNat (w.thread.isNone && t.handler.isSome))

/-! ### Integer operands and results (06 R126, R127) -/

/-- w: 64 in the .d form and 32 otherwise (06 R130). -/
def widthOf (f : Fields) : Nat := if bitAt f.mod.toNat 7 then 64 else 32

/-- The w-bit value of a source: of a thread, a register or an even pair; of the uniform stream, the low bits of a register. Register 0 reads 0. -/
def sourceOf (f : Fields) (w : Who) (t : Machine.Task) (v : BitVec 9) : Nat :=
  match w.thread with
  | none => t.reg none v.toNat % 2 ^ widthOf f
  | some k =>
    if widthOf f = 32 then t.reg (some k) v.toNat
    else if v = 0 then 0 else t.reg (some k) v.toNat + 2 ^ 32 * t.reg (some k) (v.toNat + 1)

/-- The immediate in place of source B: as it stands, or sign-extended in the .d form (03 R71). -/
def immediateOf (f : Fields) : Nat := if widthOf f = 64 then (f.imm.signExtend 64).toNat else f.imm.toNat

/-- The state with a w-bit result in the destination: a 32-bit result clears the upper half of a uniform register, a 64-bit result of a thread
fills a pair, and register 0 discards. -/
def withResult (f : Fields) (w : Who) (v : BitVec 9) (x : Nat) (s : State) : State :=
  s.modTask w.task (fun t =>
    if v = 0 then t
    else if w.thread.isSome ∧ widthOf f = 64 then
      (t.setReg w.thread v.toNat (x % 2 ^ 32)).setReg w.thread (v.toNat + 1) (x / 2 ^ 32)
    else t.setReg w.thread v.toNat x)

/-- A register-form instruction, in either executor, completes with the result that the rule computes from sources A, B and C. -/
def Computes (mk : Fields → Instr) (val : Fields → Nat → Nat → Nat → Nat) : Prop :=
  ∀ f w t s, Turn (mk f) f w t s →
    exec (mk f) s = .next (retired (mk f) f w t
      (withResult f w f.d (val f (sourceOf f w t f.a) (sourceOf f w t f.b) (sourceOf f w t f.c)) s))

/-- An immediate-form instruction completes with the result that the rule computes from source A, the immediate and source C. -/
def ComputesImm (mk : Fields → Instr) (val : Fields → Nat → Nat → Nat → Nat) : Prop :=
  ∀ f w t s, Turn (mk f) f w t s →
    exec (mk f) s = .next (retired (mk f) f w t
      (withResult f w f.d (val f (sourceOf f w t f.a) (immediateOf f) (sourceOf f w t f.c)) s))

/-! ### Words and signs -/

/-- S(v): the w-bit value read as two's complement (06 R130). -/
def signedOf (w v : Nat) : Int := (BitVec.ofNat w v).toInt

/-- Trunc(z, w) of an integer (00 R7). -/
def wrapOf (w : Nat) (z : Int) : Nat := (z % (2 ^ w : Int)).toNat

/-- a′ or b′: signed in the .s form, unsigned otherwise (06 R130). -/
def readOf (f : Fields) (v : Nat) : Int := if bitAt f.mod.toNat 0 then signedOf (widthOf f) v else (v : Int)

/-! ### Operands and results of any kind (03 R69) -/

/-- The values of the fields A, B, C and D, each of its kind. -/
def valA (i : Instr) (f : Fields) (w : Who) (t : Machine.Task) : Nat := t.opnd w.thread (shape i).a f.a
def valB (i : Instr) (f : Fields) (w : Who) (t : Machine.Task) : Nat := t.opnd w.thread (shape i).b f.b
def valC (i : Instr) (f : Fields) (w : Who) (t : Machine.Task) : Nat := t.opnd w.thread (shape i).c f.c
def valD (i : Instr) (f : Fields) (w : Who) (t : Machine.Task) : Nat := t.opnd w.thread (shape i).d f.d

/-- The state with a value in the register, pair, quad or predicate that field D names. -/
def putD (i : Instr) (f : Fields) (w : Who) (x : Nat) (s : State) : State :=
  s.modTask w.task (fun t => t.setOpnd w.thread (shape i).d f.d x)

/-- The state with a truth value in predicate p of the agent. -/
def putPred (w : Who) (p : BitVec 9) (v : Bool) (s : State) : State := s.modAgent w (fun a => a.setPred p.toNat v)

/-- An instruction whose whole effect is the value it writes to D. -/
def Yields (mk : Fields → Instr) (val : Fields → Who → Machine.Task → Nat) : Prop :=
  ∀ f w t s, Turn (mk f) f w t s →
    exec (mk f) s = .next (retired (mk f) f w t (putD (mk f) f w (val f w t) s))

/-- Register and immediate form of one integer operation. -/
def ComputesBoth (mk mkImm : Fields → Instr) (val : Fields → Nat → Nat → Nat → Nat) : Prop := Computes mk val ∧ ComputesImm mkImm val

/-- An integer comparison of a and b as SGN reads them, into a predicate. -/
def Compares (mk : Fields → Instr) (source : Fields → Who → Machine.Task → Nat) : Prop :=
  ∀ f w t s, Turn (mk f) f w t s →
    exec (mk f) s = .next (retired (mk f) f w t (putPred w f.d
      (let a := readOf f (sourceOf f w t f.a)
       let b := readOf f (source f w t)
       match field f.mod.toNat 3 1 with
       | 0 => decide (a = b)
       | 1 => decide (a ≠ b)
       | 2 => decide (a < b)
       | 3 => decide (a ≤ b)
       | 4 => decide (b < a)
       | _ => decide (b ≤ a)) s))

/-- A sum with the carry of a predicate, which receives the carry out. -/
def AddsCarry (mk : Fields → Instr) (source : Fields → Who → Machine.Task → Nat) : Prop :=
  ∀ f w t s, Turn (mk f) f w t s →
    exec (mk f) s = .next (retired (mk f) f w t
      (let sum := sourceOf f w t f.a + source f w t + (if (t.agent w.thread).pred f.c.toNat then 1 else 0)
       putPred w f.c (decide (2 ^ widthOf f ≤ sum)) (withResult f w f.d (sum % 2 ^ widthOf f) s)))

/-- A selection by a predicate. -/
def Selects (mk : Fields → Instr) (source : Fields → Who → Machine.Task → Nat) : Prop :=
  ∀ f w t s, Turn (mk f) f w t s →
    exec (mk f) s = .next (retired (mk f) f w t (withResult f w f.d
      (if (t.agent w.thread).pred f.c.toNat then sourceOf f w t f.a else source f w t) s))

/-! ### Elements of floating operands (05 R107 to R110, 06 R135, R136) -/

/-- Each element of the result is the rounded value that the rule computes from the operands' elements, decoded and flushed under FTZ. -/
def elementwise (f : Fields) (t : Machine.Task) (g : Fmt → RMode → FVal → FVal → FVal → FVal) (a b c : Nat) : Nat :=
  let ty := (fpElem f).1
  let el (v k : Nat) : FVal := flush t.ftz ty (ty.decode (elemAt ty v k))
  mapElems ty (fpElem f).2 (fun k => ty.encode (flush t.ftz ty (g ty.fmt (t.fpMode (fRnd f)) (el a k) (el b k) (el c k))))

/-- A floating-point instruction completes with the elements that the rule computes. -/
def Rounds (mk : Fields → Instr) (g : Fmt → RMode → FVal → FVal → FVal → FVal) : Prop :=
  Yields mk (fun f w t => elementwise f t g (valA (mk f) f w t) (valB (mk f) f w t) (valC (mk f) f w t))

/-- r(e) of a thread's next stochastic conversion (05 R122). -/
def randomOf (r : Tree) (t : Machine.Task) (k e : Nat) : Nat :=
  laneRandom r.seed.toNat t.entry.ped (k / 32) (k % 32) (t.thread k).convOrd.toNat e

/-- The thread's conversion ordinal advances after a stochastic conversion (05 R121). -/
def stochasticDone (w : Who) (m : RMode) (s : State) : State :=
  match w.thread with
  | some k => if m = .stochastic then s.modTask w.task (fun t => t.modThread k (fun x => { x with convOrd := x.convOrd + 1 })) else s
  | none => s

/-! ### Exchanges (02 R42, 06 R148) -/

/-- The live threads of one quad (n = 4) or group (n = 32), all of them in the bundle whose turn it is, none held or parked, and each passing the
checks of the exchange, with or without being suppressed by its block. -/
structure LaneUnit (i : Instr) (f : Fields) (n task : Nat) (t : Machine.Task) (ks : List Nat) (s : State) : Prop where
  found : s.task? task = some t
  cur : s.cur = { task := task, uniform := false, threads := ks }
  nonempty : ks ≠ []
  distinct : ks.Nodup
  one : ∀ j ∈ ks, ∀ k ∈ ks, j / n = k / n
  ready : ∀ k ∈ ks, t.canIssue k = true
  whole : ∀ j ∈ ks, ∀ k, t.live k = true → k / n = j / n → k ∈ ks
  checked : ∀ k ∈ ks, ∃ sup, check i f t (some k) = .ok sup
  alone : ∀ k, (t.thread k).status ≠ .helper

/-- The members that take part: those whose block does not suppress the instruction. -/
def partOf (i : Instr) (f : Fields) (t : Machine.Task) (ks : List Nat) : List Nat :=
  ks.filter (fun k => check i f t (some k) = .ok false)

/-- An exchange completes: every participant receives a value computed from the registers as they were, and every member goes on. -/
def Exchanges (mk : Fields → Instr) (n : Nat) (val : Fields → Machine.Task → List Nat → Nat → Nat) : Prop :=
  ∀ f task t ks s, LaneUnit (mk f) f n task t ks s →
    exec (mk f) s = .next (ks.foldl (fun s k =>
      if k ∈ partOf (mk f) f t ks then
        retired (mk f) f ⟨task, some k⟩ t (putD (mk f) f ⟨task, some k⟩ (val f t (partOf (mk f) f t ks) k) s)
      else s.retire ⟨task, some k⟩ .next true (openWindow (shape (mk f)) f (t.agent (some k)).pc.toNat false)) s)

/-! ### Global accesses (10 R241, R242, R256 to R260; 15 R375) -/

/-- The exact effective address: base, index sign-extended from 32 bits, offset. -/
def eaOf (i : Instr) (f : Fields) (w : Who) (t : Machine.Task) (index : Bool) : Int :=
  signedOf 64 (valA i f w t) + (if index then signedOf 32 (valB i f w t) else 0) + f.imm.toInt

/-- The 64-bit address of an exact one. -/
def vaOf (i : Instr) (f : Fields) (w : Who) (t : Machine.Task) (index : Bool) : Nat := wrapOf 64 (eaOf i f w t index)

/-- The accessor of an instruction: its task, its strand, its scope and order. -/
def accessOf (f : Fields) (w : Who) (t : Machine.Task) (checked : Bool) : Acc :=
  { ctx := t.entry.ctx, tree := t.entry.tree, cl := t.cluster, strand := t.strand w.thread, scope := field f.mod.toNat 2 0,
    order := field f.mod.toNat 4 3, checked := checked && field f.mod.toNat 4 3 == 0 }

/-- An access reaches memory: its address is canonical and aligned, its page translates with the permissions needed, its bytes name storage in
service, no poisoned sector is read, and no race is found. The physical address is `pa`, and `s'` is the state after the translation. -/
structure Reaches (i : Instr) (f : Fields) (w : Who) (t : Machine.Task) (s : State) (index checked : Bool) (need : Need) (pa : Nat) (watched : Bool)
    (s' : State) : Prop where
  canonical : -(2 ^ 56 : Int) ≤ eaOf i f w t index ∧ eaOf i f w t index < (2 ^ 56 : Int)
  aligned : vaOf i f w t index % accBytes f = 0
  mapped : s.translate t.entry.ctx t.cluster (vaOf i f w t index) need = (.ok pa watched, s')
  present : s'.firstMissing pa (accBytes f) = none
  sound : need.r = true → s'.poisoned pa (accBytes f) = false
  clear : s'.firstRace (accessOf f w t checked) need.w [{ va := vaOf i f w t index, pa := pa, n := accBytes f, watched := watched }] = none

/-- A byte as the agents of a cluster see it: their own dirty byte, or else the byte at its home. -/
def seen (s : State) (cl pa : Nat) : Byte :=
  match (s.cluster cl).line? (pa / 128) with
  | some l => if bitAt l.dirty (pa % 128) then l.data.getD (pa % 128) 0 else Sparse.get 0 s.mem pa
  | none => Sparse.get 0 s.mem pa

/-- What an operation of a FIFO leaves of the waits behind it: no thread waits behind this one any more (10 R268). -/
def fifoDone (w : Who) (s : State) : State :=
  match w.thread with
  | some k => s.modTask w.task (fun t => { t with threads := t.threads.map (fun x => { x with behind := x.behind.erase k }) })
  | none => s

/-- A pigeonhole access or wait that must stall: LDH where the pigeonhole is not ready, STH where it is not ready without readers, HWAIT where it has not
the state named, HSET where it neither has it nor may take it (10 R253, R254, R266, R267). -/
def HoleWaits (i : Instr) (f : Fields) (w : Who) (t : Machine.Task) : Prop :=
  let h := t.hole f.a.toNat
  let target : HoleState := if f.imm.toNat % 4 = 0 then .empty else .ready
  let o : Int := ((valB i f w t % 2 ^ 32 : Nat) : Int) + f.imm.toInt
  let inside : Prop := 0 ≤ o ∧ o + accBytes f ≤ t.holeBytes ∧ o % accBytes f = 0
  (i = .ldh f ∧ inside ∧ h.state ≠ .ready)
  ∨ (i = .sth f ∧ inside ∧ ¬(h.state = .ready ∧ h.readers = 0))
  ∨ (i = .hwait f ∧ h.state ≠ target)
  ∨ (i = .hset f ∧ h.state ≠ target ∧ ¬(h.state = .empty ∨ (h.state = .ready ∧ h.readers = 0)))

/-- The target of a relative transfer, as a slot number (03 R73). -/
def slotTarget (f : Fields) (w : Who) (t : Machine.Task) : Int := (slotNumber (t.agent w.thread).pc.toNat : Int) + f.imm.toInt

/-- A transfer to an address that passes the check of 03 R65 is taken, and one that does not traps with BAD_TARGET at the instruction; a false
guard makes it do nothing (03 R80). -/
def Transfers (mk : Fields → Instr) (target : Fields → Who → Machine.Task → Nat) (push : Bool) : Prop :=
  ∀ f w t s, Turn (mk f) f w t s →
    (guardHolds f (t.agent w.thread) = false → exec (mk f) s = .next (retired (mk f) f w t s))
    ∧ (guardHolds f (t.agent w.thread) = true →
        (∀ s1, s.checkTarget t (target f w t) = (.pass, s1) → (push = true → (t.agent w.thread).stack.length < 8) →
          exec (mk f) s = .next (jumped (mk f) f w t (target f w t)
            (if push then s1.modAgent w (fun a => { a with stack := a.stack ++ [BitVec.ofNat 64 (nextSlot a.pc.toNat)] })
             else s1)))
        ∧ ∀ s1, s.checkTarget t (target f w t) = (.bad, s1) →
          exec (mk f) s = .next (s.takeTrap w (t.agent w.thread).pc.toNat ((encode (mk f)).getD 0)
            { cause := cBAD_TARGET, addr := some (target f w t) }))

/-- A relative transfer whose target would lie below address 0, or past the last address, traps; else it goes as `Transfers` says. -/
def RelTransfers (mk : Fields → Instr) (push : Bool) : Prop :=
  (∀ f w t s, Turn (mk f) f w t s → guardHolds f (t.agent w.thread) = true →
    (slotTarget f w t < 0 ∨ 2 ^ 64 ≤ addrOfSlot (slotTarget f w t).toNat) →
    ∃ a, exec (mk f) s = .next (s.takeTrap w (t.agent w.thread).pc.toNat ((encode (mk f)).getD 0) { cause := cBAD_TARGET, addr := some a }))
  ∧ ∀ f w t s, Turn (mk f) f w t s → 0 ≤ slotTarget f w t → addrOfSlot (slotTarget f w t).toNat < 2 ^ 64 → guardHolds f (t.agent w.thread) = true →
      let target := addrOfSlot (slotTarget f w t).toNat
      (∀ s1, s.checkTarget t target = (.pass, s1) → (push = true → (t.agent w.thread).stack.length < 8) →
        exec (mk f) s = .next (jumped (mk f) f w t target
          (if push then s1.modAgent w (fun a => { a with stack := a.stack ++ [BitVec.ofNat 64 (nextSlot a.pc.toNat)] }) else s1)))
      ∧ ∀ s1, s.checkTarget t target = (.bad, s1) →
        exec (mk f) s = .next (s.takeTrap w (t.agent w.thread).pc.toNat ((encode (mk f)).getD 0) { cause := cBAD_TARGET, addr := some target })

/-- A call with eight return addresses on chip: the oldest four go to the agent's call spill area, or it traps with STACK_LIMIT where the area has no
room for them (13 R338). -/
def Spills (mk : Fields → Instr) (target : Fields → Who → Machine.Task → Option Nat) : Prop :=
  ∀ f w t s a s1 c, Turn (mk f) f w t s → guardHolds f (t.agent w.thread) = true → target f w t = some a → s.checkTarget t a = (.pass, s1) →
    s1.ctx? t.entry.ctx = some c → 8 ≤ (t.agent w.thread).stack.length →
    let ag := t.agent w.thread
    (c.callSpill < 8 * ag.spilled + 32 →
      exec (mk f) s = .next (s.takeTrap w ag.pc.toNat ((encode (mk f)).getD 0) { cause := cSTACK_LIMIT }))
    ∧ (8 * ag.spilled + 32 ≤ c.callSpill → ∀ segs s2 s3,
        s1.mapRange (Acc.ofTask t w.thread) {} (pieces (s1.spillArea t w.thread + 8 * ag.spilled) 32) = (.ok segs, s2) →
        s2.writeSegs (Acc.ofTask t w.thread) segs ((ag.stack.take 4).flatMap (fun v => leBytes 8 v.toNat)) = .ok s3 →
        exec (mk f) s = .next (jumped (mk f) f w t a (s3.modAgent w (fun x => { x with
          stack := x.stack.drop 4 ++ [BitVec.ofNat 64 (nextSlot x.pc.toNat)], spilled := x.spilled + 4 }))))

/-- A return goes to the newest address of the return stack, which leaves it; an address outside the canonical range, or that no slot has, traps (13
R340). The stack is that of `s'`. -/
def Returns (f : Fields) (w : Who) (t : Machine.Task) (stack : List W64) (s s' : State) : Prop :=
  ∀ rest a, stack = rest ++ [a] →
    (canonicalVa a.toNat = true → isSlotAddr a.toNat = true →
      exec (.ret f) s = .next (jumped (.ret f) f w t a.toNat (s'.modAgent w (fun x => { x with stack := x.stack.dropLast }))))
    ∧ (canonicalVa a.toNat = false ∨ isSlotAddr a.toNat = false →
      exec (.ret f) s = .next (s'.takeTrap w (t.agent w.thread).pc.toNat ((encode (.ret f)).getD 0)
        { cause := cBAD_TARGET, addr := some a.toNat, keep := true }))

/-- The addresses of 32 spilled bytes, oldest first. -/
def fourOf (bs : List Byte) : List W64 := (List.range 4).map (fun k => BitVec.ofNat 64 (ofLE ((bs.drop (8 * k)).take 8)))

/-! ### Copies (12 R292 to R298; 10 R252) -/

/-- A command that fills the pigeonhole may issue, and the pigeonholes then. -/
def canFill (h : Hole) : Prop := h.state = .empty ∨ (h.state = .ready ∧ h.readers = 0)
def filling (k : Nat) (l : List Hole) : List Hole := updAt l k (fun h => { h with state := .filling })

/-- A command that reads the pigeonhole may issue, freeing it afterwards or not, and the pigeonholes then. -/
def canRead (free : Bool) (h : Hole) : Prop := h.state = .ready ∧ (free = true → h.readers = 0)
def reading (free : Bool) (k : Nat) (l : List Hole) : List Hole :=
  updAt l k (fun h => if free then { h with state := .draining } else { h with readers := h.readers + 1 })

/-- The queue number of a copy instruction. -/
def queueOf (f : Fields) : Nat := field f.mod.toNat 1 0

/-- There is room in the queue of a copy instruction, of four queues. -/
def Room (f : Fields) (t : Machine.Task) : Prop := t.copyq.length = 4 ∧ (t.copyq.getD (queueOf f) []).length < 64

/-- After a copy instruction: its command, with its operands captured, is the last of its queue and counts in the open batch; the pigeonholes are
as given; the agent goes on; other queues, registers of every agent and memory are as before. -/
def Queued (i : Instr) (f : Fields) (w : Who) (t : Machine.Task) (s : State) (d a b c : Nat) (desc : List Byte) (holes : List Hole)
    (s' : State) : Prop :=
  ∃ t' cmd, s'.task? w.task = some t' ∧ (t'.copyq.getD (queueOf f) []).length = (t.copyq.getD (queueOf f) []).length + 1
    ∧ (t'.copyq.getD (queueOf f) []).getLast? = some cmd
    ∧ some cmd.word = encode i ∧ cmd.issuer = w.thread ∧ cmd.ord = (t.agent w.thread).copyOrd.toNat
    ∧ cmd.batch = (t.agent w.thread).batchOrd.toNat ∧ cmd.d = d ∧ cmd.a = a ∧ cmd.b = b ∧ cmd.c = c ∧ cmd.desc = desc
    ∧ cmd.strand = t.strand w.thread
    ∧ (∀ q, q ≠ queueOf f → t'.copyq.getD q [] = t.copyq.getD q []) ∧ t'.holes = holes
    ∧ (t'.agent w.thread).copyOrd = (t.agent w.thread).copyOrd + 1
    ∧ (t'.agent w.thread).opened.joined = (t.agent w.thread).opened.joined + 1
    ∧ (t'.agent w.thread).opened.undone = (t.agent w.thread).opened.undone + 1
    ∧ (t'.agent w.thread).pc.toNat = nextSlot (t.agent w.thread).pc.toNat % 2 ^ 64
    ∧ (∀ th r, t'.reg th r = t.reg th r) ∧ s'.mem = s.mem

/-- The head of a copy queue of the uniform stream's open batch, which nothing has begun and nothing holds. -/
structure CopyHead (task q : Nat) (t : Machine.Task) (c : Cmd) (rest : List Cmd) (s : State) : Prop where
  found : s.task? task = some t
  resident : t.resident = true
  going : t.saving = false
  queue : q < t.copyq.length
  head : t.copyq.getD q [] = c :: rest
  free : c.parked = none
  fresh : c.begun = none
  issuer : c.issuer = none
  opened : ∀ b ∈ t.u.ag.closed, b.ord ≠ c.batch

/-- The bytes of ranges that a command reads: the ranges translate and the accesses succeed. -/
def BytesRead (a : Acc) (rs : List (Int × Nat)) (s : State) (bs : List Byte) (s2 : State) : Prop :=
  ∃ segs s1, s.mapAll a { r := true } rs = (.ok segs, s1) ∧ s1.readSegs a segs = (.ok bs, s2)

/-- A copy command has been performed without an error: it has left its queue and its batch, and every register is as before. -/
def Performed (task q : Nat) (t : Machine.Task) (rest : List Cmd) (oob : Bool) (s' : State) (t' : Machine.Task) : Prop :=
  s'.task? task = some t' ∧ (t'.copyq.getD q []).map Cmd.ord = rest.map Cmd.ord ∧ t'.u.ag.opened.undone = t.u.ag.opened.undone - 1
    ∧ t'.u.ag.opened.oob = (t.u.ag.opened.oob || oob) ∧ t'.u.ag.opened.err = t.u.ag.opened.err
    ∧ ∀ th r, t'.reg th r = t.reg th r

/-- Where a byte of a swizzled or a plain pigeonhole range stands (12 R299). -/
def placeIn (f : Fields) (o : Nat) : Nat := if bitAt f.mod.toNat 5 then swz o else o

/-- A pigeonhole holds bytes from an offset on, and its other bytes are those of another. -/
def HoleHolds (f : Fields) (off : Nat) (bs : List Byte) (old new : Hole) : Prop :=
  (∀ k, k < bs.length → Sparse.get 0 new.data (placeIn f (off + k)) = bs.getD k 0)
    ∧ ∀ o, (∀ k, k < bs.length → o ≠ placeIn f (off + k)) → Sparse.get 0 new.data o = Sparse.get 0 old.data o

/-- The state of a pigeonhole that a performed command has filled (10 R252). -/
def filledState (h : Hole) : HoleState := if h.state = .filling then .ready else h.state

/-- A pigeonhole that a performed command has read: it loses its reader, or, where the command frees it, it is empty (10 R252). -/
def GivesBack (free : Bool) (old new : Hole) : Prop :=
  new.data = old.data ∧ (free = false → new.readers = old.readers - 1 ∧ new.state = old.state)
    ∧ (free = true → new.readers = old.readers ∧ new.state = if old.state = .draining then .empty else old.state)

/-! ### Matrix commands (07 R158 to R166) -/

/-- After a matrix instruction: its command is the last of q4 with what it captured; the ordinals advance, the stream goes on; configurations and
pigeonholes are as given; registers and memory are as before. -/
def MatrixQueued (i : Instr) (id : Nat) (t : Machine.Task) (s : State) (c : Cmd) (stochastic : Bool) (holes : List Hole) (s' : State) : Prop :=
  ∃ t' cmd, s'.task? id = some t' ∧ t'.q4.length = t.q4.length + 1 ∧ t'.q4.getLast? = some cmd
    ∧ cmd = { c with word := (encode i).getD 0, ord := t.u.mcmdOrd.toNat, conv := t.u.mconvOrd.toNat, strand := t.strand none,
                     headSince := cmd.headSince }
    ∧ t'.u.mcmdOrd = t.u.mcmdOrd + 1 ∧ t'.u.mconvOrd = t.u.mconvOrd + (if stochastic then 1 else 0) ∧ t'.holes = holes
    ∧ t'.u.ag.pc.toNat = nextSlot t.u.ag.pc.toNat % 2 ^ 64 ∧ (∀ th r, t'.reg th r = t.reg th r) ∧ s'.mem = s.mem

/-- Ranges of bytes whose addresses are all canonical. -/
def CanonicalRanges (rs : List (Int × Nat)) : Prop := ∀ r ∈ rs, r.2 = 0 ∨ (-(2 ^ 56 : Int) ≤ r.1 ∧ r.1 + (r.2 : Int) ≤ (2 ^ 56 : Int))

/-- The format word that SF names: FMTDEF, or the low bits of a register. -/
def wordOf (f : Fields) (t : Machine.Task) : Nat :=
  if f.imm.toNat / 2 ^ 26 = 0 then t.fmtDef.toNat else t.reg none (f.imm.toNat / 2 ^ 26) % 2 ^ 32

/-- The configuration of a tile of kind A (acc) or M that the next command captures. -/
def cfgOf (t : Machine.Task) (acc : Bool) (n : BitVec 9) : TileCfg := (t.tile acc n.toNat).next

/-- What TLD and TST need of memory or the pigeonhole (07 R160, R161, R169): `store` for TST. -/
def TileReady (f : Fields) (t : Machine.Task) (cfg : TileCfg) (hole : BitVec 9) (mem : Nat) (store : Bool) : Prop :=
  let row := cfg.rowBytes
  let stride := if f.imm.toNat % 2 ^ 20 = 0 then row else f.imm.toNat % 2 ^ 20
  let sides := cfg.rows * cfg.blocks
  let sa := if xField f = 0 then 0 else t.reg none (xField f)
  let extent := (cfg.rows - 1) * stride + row
  (store = true → row ≤ stride)
  ∧ (if bitAt f.mod.toNat 6 then
       extent ≤ t.holeBytes ∧ (bitAt f.mod.toNat 4 = true → cfg.rows * stride + sides ≤ t.holeBytes)
       ∧ (if store then canFill (t.hole hole.toNat) else canRead false (t.hole hole.toNat))
     else if bitAt f.mod.toNat 5 then
       mem % 64 = 0 ∧ CanonicalRanges [(signedOf 64 mem, 64 + cfg.rows * row + (if store ∧ bitAt f.mod.toNat 4 then sides else 0))]
     else
       mem % cfg.width = 0 ∧ CanonicalRanges [(signedOf 64 mem, extent)]
       ∧ (bitAt f.mod.toNat 4 = true → CanonicalRanges [(signedOf 64 sa, sides)]))

/-- The pigeonholes after a tile move. -/
def tileHoles (f : Fields) (t : Machine.Task) (hole : BitVec 9) (store : Bool) : List Hole :=
  if bitAt f.mod.toNat 6 then (if store then filling hole.toNat t.holes else reading false hole.toNat t.holes) else t.holes

/-- What ACCRD (store) and ACCWR need (07 R160, R161, R182, R183). -/
def AccReady (f : Fields) (t : Machine.Task) (cfg : TileCfg) (hole : BitVec 9) (mem : Nat) (store : Bool) : Prop :=
  let fw := wordOf f t
  let row := cfg.cols * mmaWidth (fwFmt fw)
  let stride := if f.imm.toNat % 2 ^ 20 = 0 then row else f.imm.toNat % 2 ^ 20
  let extent := (cfg.rows - 1) * stride + row
  fwValid false fw = true ∧ fwFmt fw ≤ 3 ∧ (store = false → fwRnd fw ≠ 5) ∧ (store = true → row ≤ stride)
  ∧ (if bitAt f.mod.toNat 6 then extent ≤ t.holeBytes ∧ (if store then canFill (t.hole hole.toNat) else canRead false (t.hole hole.toNat))
     else mem % mmaWidth (fwFmt fw) = 0 ∧ CanonicalRanges [(signedOf 64 mem, extent)])

/-- The head of the queue of a resident task's matrix commands, which nothing has begun, and which may be performed now. -/
structure MatrixHead (task : Nat) (t : Machine.Task) (c : Cmd) (rest : List Cmd) (s : State) : Prop where
  found : s.task? task = some t
  resident : t.resident = true
  head : t.q4 = c :: rest
  fresh : c.begun = none
  going : t.q4park = none
  still : t.saving = false
  awake : s.gated t.cluster = false
  admitted : s.mayRun t = true

/-- An element of a VALID tile holds bits, as its bytes (07 R155). -/
def Element (x : Tile) (acc : Bool) (width i j bits : Nat) : Prop :=
  x.valid = true ∧ Sparse.read 0 x.data ((if acc then 256 else 64) * i + width * j) width = leBytes width bits

/-- An element of the accumulator that a field names, as bits; a0 reads as +0. -/
def accOf (t : Machine.Task) (n : BitVec 9) (width i j : Nat) : Nat := if n = 0 then 0 else (t.tile true n.toNat).elem true width i j

/-- The value of an element of the multiplicand that a field names; m0 reads as +0. -/
def multOf (t : Machine.Task) (fw : Nat) (n : BitVec 9) (isB : Bool) (i k : Nat) : FVal :=
  if n = 0 then .fin false 0 0 else mmaDecode fw isB ((t.tile false n.toNat).elem false (mmaWidth (fwFmt fw)) i k)

/-- A scale byte of the multiplicand that a field names; m0 has 127. -/
def scaleOf (t : Machine.Task) (n : BitVec 9) (i g : Nat) : Nat := if n = 0 then 127 else (t.tile false n.toNat).scale i g

/-- The exponent of the scale of two scale bytes, none for NaN; a format word without SCALE has 127 twice (07 R176). -/
def mmaScale (fw a b : Nat) : Option Int :=
  if fwScale fw ≠ 1 then some 0 else if a = 255 ∨ b = 255 then none else some ((a : Int) + b - 254)

/-- The products added to an element in the order of its format (07 R174 to R176): one by one in FP64 and FP32, by groups of eight k in FP16 and BF16,
by chunks of 32 k in binary8. The second part is the overflow. -/
def mmaSum (fmt : Nat) (c : FVal) (ps : List (Nat × FVal)) (scale : Nat → Option Int) : FVal × Bool :=
  let group (n g : Nat) : List FVal := (ps.filter (fun p => p.1 / n = g)).map Prod.snd
  let exact (v : FVal) (vs : List FVal) : FVal := vs.foldl (fun x y => x.add .nearestEven y) v
  if fmt = 0 then (ps.foldl (fun v p => roundTo FpType.fp64.fmt (exact v [p.2]) .nearestEven) c, false)
  else if fmt = 1 then (ps.foldl (fun v p => roundTo FpType.fp32.fmt (exact v [p.2]) .nearestEven) c, false)
  else if fmt = 2 ∨ fmt = 3 then
    ([0, 1, 2, 3].foldl (fun v g => if group 8 g = [] then v else roundTo FpType.fp32.fmt (exact v (group 8 g)) .nearestEven) c, false)
  else
    [0, 1].foldl (fun v g =>
      match fp24Sum (group 32 g) with
      | none => v
      | some (x, o) => (roundTo FpType.fp32.fmt (exact v.1 [match scale g with | some k => x.scale k | none => .nan]) .nearestEven, v.2 || o))
      (c, false)

/-- Round a value into the format of a format word, as bits; `e` is the random word of a stochastic rounding (05 R111 to R117). -/
def wordRound (fw : Nat) (v : FVal) (e : Nat) : Nat :=
  if fwFmt fw = 4 then (fwB8 fw).convert v (RMode.ofCode (fwRnd fw)) e (fwSat fw)
  else (fwType fw).encode (roundTo (fwType fw).fmt v (RMode.ofCode (fwRnd fw)) e (fwSat fw))

/-- No agent has passed over an access or a computation, or performed a load ahead (11 R274). -/
def NothingLate (s : State) : Prop := ∀ t ∈ s.tasks, ∀ th, (t.agent th).late = [] ∧ (t.agent th).early = [] ∧ (t.agent th).slow = []

/-! ### Frames -/

/-- Instructions whose only effect is on the registers and predicates that they name as destinations: integer, floating-point and queries. -/
def integerOnly : List (Fields → Instr) :=
  [Instr.iadd, Instr.iaddImm, Instr.isub, Instr.isubImm, Instr.iaddc, Instr.iaddcImm, Instr.imul, Instr.imulImm, Instr.imulh,
   Instr.imulhImm, Instr.imad, Instr.imadImm, Instr.idiv, Instr.idivImm, Instr.irem, Instr.iremImm, Instr.ineg, Instr.iabs, Instr.imin,
   Instr.iminImm, Instr.imax, Instr.imaxImm, Instr.iand, Instr.iandImm, Instr.ior, Instr.iorImm, Instr.ixor, Instr.ixorImm, Instr.inot]
def integerOnly2 : List (Fields → Instr) :=
  [Instr.ishl, Instr.ishlImm, Instr.ishr, Instr.ishrImm, Instr.isar, Instr.isarImm, Instr.irot, Instr.irotImm, Instr.bfx, Instr.bfxImm,
   Instr.bfi, Instr.bfiImm, Instr.popc, Instr.clz, Instr.ctz, Instr.brev, Instr.isel, Instr.iselImm, Instr.icmp, Instr.icmpImm, Instr.lea,
   Instr.leaImm, Instr.mov, Instr.movi, Instr.movhi, Instr.sext, Instr.sextImm, Instr.zext, Instr.zextImm]
def valueOnly : List (Fields → Instr) :=
  [Instr.fadd, Instr.fsub, Instr.fmul, Instr.ffma, Instr.fmin, Instr.fmax, Instr.fcmp, Instr.fclass, Instr.frint, Instr.fdiv, Instr.fsqrt,
   Instr.frcp, Instr.frsq, Instr.fexp2, Instr.flog2, Instr.fsin, Instr.fcos, Instr.ftanh, Instr.fsigm, Instr.fscale, Instr.fdot2,
   Instr.cvtff, Instr.cvtfi, Instr.cvtif, Instr.pack2, Instr.unpk2, Instr.hqry, Instr.xqry, Instr.csrrd, Instr.cycle]
def registerOnly : List (Fields → Instr) := integerOnly ++ integerOnly2 ++ valueOnly

/-- Instructions that, with those, leave every byte of memory as it is, whether they complete, wait or trap. -/
def otherQuiet : List (Fields → Instr) :=
  [Instr.cvt8, Instr.unp8, Instr.qswap, Instr.qbcast, Instr.gshfl, Instr.gvote, Instr.gred, Instr.gscan, Instr.gmatch, Instr.pblk,
   Instr.yield, Instr.nop, Instr.swtrap, Instr.bkpt, Instr.pref, Instr.ldh, Instr.sth, Instr.hwait, Instr.hset, Instr.fifopop, Instr.bara,
   Instr.barw, Instr.dqput, Instr.dqget, Instr.pedrd, Instr.rand, Instr.alloc, Instr.allocCfg, Instr.xset, Instr.xdeal, Instr.xred,
   Instr.xend, Instr.csrwr]
def memoryQuiet : List (Fields → Instr) := registerOnly ++ otherQuiet

/-- Whether an agent's register r is one that the instruction's field D names as a destination. -/
def isDest (i : Instr) (f : Fields) (r : Nat) : Prop :=
  (shape i).d.kind ≠ .p ∧ f.d ≠ 0 ∧ f.d.toNat ≤ r ∧ r < f.d.toNat + (shape i).d.kind.regs

/-- Whether predicate p is one that the instruction writes: in field D, or in field C. -/
def isPredDest (i : Instr) (f : Fields) (p : Nat) : Prop :=
  ((shape i).d.kind = .p ∧ p = f.d.toNat) ∨ ((shape i).c.wr = true ∧ p = f.c.toNat)

/-- What a task holds beside its agents' registers, predicates and progress is as before. -/
def SameTask (t t' : Machine.Task) : Prop :=
  t'.entry = t.entry ∧ t'.place = t.place ∧ t'.allot = t.allot ∧ t'.savePtr = t.savePtr ∧ t'.trapVec = t.trapVec ∧ t'.fmtDef = t.fmtDef
  ∧ t'.modes = t.modes ∧ t'.hstall = t.hstall ∧ t'.holes = t.holes ∧ t'.mtile = t.mtile ∧ t'.atile = t.atile ∧ t'.fault = t.fault ∧ t'.dq = t.dq
  ∧ t'.bars = t.bars ∧ t'.copyq = t.copyq ∧ t'.q4 = t.q4 ∧ t'.views = t.views ∧ t'.bins = t.bins ∧ t'.expans = t.expans
  ∧ t'.children = t.children ∧ t'.handler = t.handler ∧ t'.u.pedpos = t.u.pedpos ∧ t'.u.lo = t.u.lo ∧ t'.u.hi = t.u.hi

/-- Memory, the units and every other tree, context and task are as before. -/
def SameElsewhere (id : Nat) (s s' : State) : Prop :=
  s'.mem = s.mem ∧ s'.poison = s.poison ∧ s'.clusters = s.clusters ∧ s'.cores = s.cores ∧ s'.dies = s.dies ∧ s'.trees = s.trees
  ∧ s'.ctxs = s.ctxs ∧ s'.power = s.power ∧ s'.out = s.out ∧ s'.service = s.service ∧ s'.interrupts = s.interrupts
  ∧ ∀ other, other ≠ id → s'.task? other = s.task? other

/-- Instructions that quads, groups or deal sets issue together (02 R42; 14 R356). -/
def together : Instr → Bool
  | .qswap _ | .qbcast _ | .gshfl _ | .gvote _ | .gred _ | .gscan _ | .gmatch _ | .xset _ | .xdeal _ | .xend _ => true
  | _ => false

/-- The state with the choices given for the next steps. -/
def withAgenda (l : List Choice) (s : State) : State := { s with agenda := l }

/-! ### Queues, tasks and commands of the module -/

/-- The next packet of a queue, read: its descriptor keeps 15 R378, it is enabled and not parked, no launch of it waits, and a doorbell is ahead. -/
structure NextPacket (ctx q : Nat) (c : Ctx) (bytes bs : List Byte) (s : State) : Prop where
  found : s.ctx? ctx = some c
  queue : q < c.nQueues
  free : (c.queue q).parked = none ∧ (c.queue q).packet = none
  settled : (c.queue q).dead = false ∧ (c.queue q).unchecked = none ∧ (c.queue q).refused = none
  desc : s.cpRead ctx (c.queueTab + 64 * q) 64 = .ok bytes
  sound : (queueDesc bytes).enabled = true ∧ (queueDesc bytes).ok = true
  ahead : (queueDesc bytes).read < (c.queue q).doorbell
  packet : s.cpRead ctx (match (c.queue q).indirect with
    | some (a, _, k) => a + 128 * k
    | none => (queueDesc bytes).packetAt (queueDesc bytes).read) 128 = .ok bs

/-- An entry has started on a core: its task is resident there, its agents stand at their entries, not checked yet, with the registers that its
creation gives them (13 R321). -/
def Started (core slot save : Nat) (e : Entry) (s' : State) : Prop :=
  ∃ t', s'.task? e.id = some t' ∧ t'.entry = e ∧ t'.place = .core core slot ∧ t'.savePtr = save ∧ t'.trapVec = e.trapVec ∧ t'.allot = {}
    ∧ t'.u.ag.pc = BitVec.ofNat 64 e.rcd.uentry ∧ t'.u.ag.entry = true
    ∧ (∀ j v, e.s[j]? = some v → t'.reg none (j + 1) = v.toNat)
    ∧ t'.threads.length = 32 * e.groups
    ∧ ∀ k, k < 32 * e.groups →
        (t'.thread k).status = (if k / 32 + 1 < e.groups ∨ k % 32 < e.last then .live else if k % 32 / 4 * 4 < e.last then .helper else .free)
        ∧ (t'.thread k).ag.pc = BitVec.ofNat 64 e.rcd.lentry
        ∧ ((t'.thread k).status ≠ .free → ∀ j v, e.x[j]? = some v → t'.reg (some k) (j + 1) = v.toNat)

/-- What an entry of the deque of a core `holder` needs to start on a core: the core admits it, no trace binds its tree, it waits for no page, a save
slot is free, and its views can be written to the chunks of the staging area in which they stand. -/
structure CanStart (core holder : Nat) (e : Entry) (r : Tree) (c : Ctx) (save : Nat) (s : State) : Prop where
  tree : s.tree? e.tree = some r
  untraced : r.trace = none
  fresh : e.home = none ∧ e.slot = none ∧ e.spill = none ∧ e.waits = none ∧ s.task? e.id = none
  context : s.ctx? e.ctx = some c
  slot : c.slotFor (slotSize (slotSizes e.rcd e.groups r.bindings.length c.callSpill)) s.tick = some save
  staged : ∃ s2, ((s.takeEntry holder e.id).modCtx e.ctx (fun c => { c with
      slots := (save, slotSize (slotSizes e.rcd e.groups r.bindings.length c.callSpill)) :: c.slots.filter (fun p => p.1 != save) })).putPreViews
    e.ctx r.level (r.reducers.map freshView) ((s.takeEntry holder e.id).preChunksFor e.ctx r.bindings.length) = .ok s2
  admits : s.canAdmit core e.groups = true
  partition : s.inPartition core e.ctx = true

/-- A management command is complete with a result (15 R392). -/
def Completes (tag : W32) (result : Nat) (s' : State) : Prop :=
  s'.mgmtStatus = BitVec.ofNat 64 (tag.toNat + 2 ^ 32 * result) ∧ s'.mgmt = none

end Sys2Proof
end

