-- ==== Sys2Proof/Certificates/Slice0/Obligations.lean ====
section
/-! DEFINITION. The statements for the provers. Each formalises rules of spec/ over the machine; where one rests on the model's own choice, its
docstring names the log entry. -/

open Sys2Proof Sys2Proof.Machine

/-! ### Encoding, fetch and the order of checks -/

/-- 03 R67, R82 to R84: decoding reads back every field of every instruction that can be written, with every operand at every value. -/
def Obligations.DecodeOfEncode : Prop :=
  ∀ i, i.fields?.isSome = true → i.splitOk = true → ∃ w, encode i = some w ∧ decode w = i

/-- 03 R67, R82: a word with an assigned opcode is the encoding of the instruction it decodes to, but for the MOD bit 0 that tells apart the two forms
of CVQRY and of ALLOC, which stands in the MOD field of either. -/
def Obligations.EncodeOfDecode : Prop :=
  ∀ w : InstrWord, (∀ v, decode w ≠ .unassignedOpcode v) → encode (decode w) = some w

/-! ### Spaces 0x00 and 0x01: integers (06 R130 to R134) -/

/-- R131: sums, differences, products, negation, magnitude and scaled addresses wrap modulo 2^w. -/
def Obligations.IntegerSums : Prop :=
  ComputesBoth .iadd .iaddImm (fun f a b _ => (a + b) % 2 ^ widthOf f)
  ∧ ComputesBoth .isub .isubImm (fun f a b _ => wrapOf (widthOf f) ((a : Int) - b))
  ∧ ComputesBoth .imul .imulImm (fun f a b _ => a * b % 2 ^ widthOf f)
  ∧ ComputesBoth .imad .imadImm (fun f a b c => (a + c * b) % 2 ^ widthOf f)
  ∧ ComputesBoth .lea .leaImm (fun f a b _ => (a + b * 2 ^ field f.mod.toNat 3 1) % 2 ^ widthOf f)
  ∧ Computes .ineg (fun f a _ _ => wrapOf (widthOf f) (-(a : Int)))
  ∧ Computes .iabs (fun f a _ _ => (signedOf (widthOf f) a).natAbs % 2 ^ widthOf f)
  ∧ Computes .mov (fun _ a _ _ => a)
  ∧ ComputesImm .movi (fun _ _ b _ => b)
  ∧ ComputesImm .movhi (fun f a _ _ => f.imm.toNat * 2 ^ 32 + a % 2 ^ 32)

/-- R131, R132: IMULH is the high half of the product; IDIV and IREM answer for a zero divisor and otherwise divide toward zero. -/
def Obligations.IntegerDivision : Prop :=
  ComputesBoth .imulh .imulhImm (fun f a b _ => wrapOf (widthOf f) (readOf f a * readOf f b / (2 ^ widthOf f : Int)))
  ∧ ComputesBoth .idiv .idivImm (fun f a b _ =>
      if b = 0 then 2 ^ widthOf f - 1 else wrapOf (widthOf f) (Int.tdiv (readOf f a) (readOf f b)))
  ∧ ComputesBoth .irem .iremImm (fun f a b _ =>
      if b = 0 then a else wrapOf (widthOf f) (Int.tmod (readOf f a) (readOf f b)))

/-- R131: logic, shifts and rotations, which take the shift count modulo w. -/
def Obligations.IntegerLogic : Prop :=
  ComputesBoth .iand .iandImm (fun _ a b _ => a &&& b)
  ∧ ComputesBoth .ior .iorImm (fun _ a b _ => a ||| b)
  ∧ ComputesBoth .ixor .ixorImm (fun _ a b _ => a ^^^ b)
  ∧ Computes .inot (fun f a _ _ => (~~~ BitVec.ofNat (widthOf f) a).toNat)
  ∧ ComputesBoth .ishl .ishlImm (fun f a b _ => a * 2 ^ (b % widthOf f) % 2 ^ widthOf f)
  ∧ ComputesBoth .ishr .ishrImm (fun f a b _ => a / 2 ^ (b % widthOf f))
  ∧ ComputesBoth .isar .isarImm (fun f a b _ => wrapOf (widthOf f) (signedOf (widthOf f) a / (2 ^ (b % widthOf f) : Int)))
  ∧ ComputesBoth .irot .irotImm (fun f a b _ => ((BitVec.ofNat (widthOf f) a).rotateLeft (b % widthOf f)).toNat)

/-- R133, R134: bit fields, and extension from n bits. R131: counts of bits, and the bits reversed. -/
def Obligations.IntegerFields : Prop :=
  (
    (let len (f : Fields) (b : Nat) : Nat := if widthOf f ≤ b % 256 then 0 else min (b / 256 % 256) (widthOf f - b % 256)
     ComputesBoth .bfx .bfxImm (fun f a b _ =>
        let x := a / 2 ^ (b % 256) % 2 ^ len f b
        if len f b = 0 then 0 else if bitAt f.mod.toNat 0 then wrapOf (widthOf f) (signedOf (len f b) x) else x)
     ∧ ComputesBoth .bfi .bfiImm (fun f a b c =>
        let mask := (2 ^ len f b - 1) * 2 ^ (b % 256)
        (a &&& ((2 ^ widthOf f - 1) ^^^ mask)) ||| (c * 2 ^ (b % 256) &&& mask)))
    ∧ (let n (f : Fields) (b : Nat) : Nat := if widthOf f = 64 then b % 64 else b % 32
       ComputesBoth .sext .sextImm (fun f a b _ => if n f b = 0 then a else wrapOf (widthOf f) (signedOf (n f b) (a % 2 ^ n f b)))
       ∧ ComputesBoth .zext .zextImm (fun f a b _ => if n f b = 0 then a else a % 2 ^ n f b)))
  ∧ (
    Computes .popc (fun f a _ _ => ((List.range (widthOf f)).filter (fun k => a.testBit k)).length)
    ∧ Computes .clz (fun f a _ _ => ((List.range (widthOf f)).takeWhile (fun k => !a.testBit (widthOf f - 1 - k))).length)
    ∧ Computes .ctz (fun f a _ _ => ((List.range (widthOf f)).takeWhile (fun k => !a.testBit k)).length)
    ∧ Computes .brev (fun f a _ _ => (BitVec.ofNat (widthOf f) a).reverse.toNat))

/-- R131: minimum and maximum, selection, comparison into a predicate, and the sum with carry. -/
def Obligations.IntegerChoices : Prop :=
  ComputesBoth .imin .iminImm (fun f a b _ => if readOf f a ≤ readOf f b then a else b)
  ∧ ComputesBoth .imax .imaxImm (fun f a b _ => if readOf f a ≤ readOf f b then b else a)
  ∧ Selects .isel (fun f w t => sourceOf f w t f.b) ∧ Selects .iselImm (fun f _ _ => immediateOf f)
  ∧ Compares .icmp (fun f w t => sourceOf f w t f.b) ∧ Compares .icmpImm (fun f _ _ => immediateOf f)
  ∧ AddsCarry .iaddc (fun f w t => sourceOf f w t f.b) ∧ AddsCarry .iaddcImm (fun f _ _ => immediateOf f)

/-! ### Spaces 0x02 and 0x03: floating point and conversions (06 R135 to R147) -/

/-- R136: the exact result of each element rounded once; a rounding to an integral value keeps the format. -/
def Obligations.FloatArithmetic : Prop :=
  Rounds .fadd (fun fmt m a b _ => roundTo fmt (a.add m b) m)
  ∧ Rounds .fsub (fun fmt m a b _ => roundTo fmt (a.add m b.neg) m)
  ∧ Rounds .fmul (fun fmt m a b _ => roundTo fmt (a.mul b) m)
  ∧ Rounds .ffma (fun fmt m a b c => roundTo fmt ((a.mul b).add m c) m)
  ∧ Rounds .fdiv (fun fmt m a b _ => fdivRound fmt m a b)
  ∧ Rounds .fsqrt (fun fmt m a _ _ => fsqrtRound fmt m a)
  ∧ Rounds .frint (fun _ m a _ _ => frintVal m a)

/-- R110: rounding downward never exceeds the value and rounding upward never falls below it, and a value of a standard format rounds to itself in
every mode but for the choice of its representation. -/
def Obligations.RoundingBrackets : Prop :=
  (∀ (ty : FpType) (v : FVal),
    FVal.lt v (roundTo ty.fmt v .towardNeg) = false ∧ FVal.lt (roundTo ty.fmt v .towardPos) v = false)
  ∧ ∀ (ty : FpType) (m : RMode) (b : Nat), ty.decode b ≠ .nan → FVal.eqv (roundTo ty.fmt (ty.decode b) m) (ty.decode b) = true

/-- R137: minimum, maximum, comparison and class. A NaN gives way to the other operand, and -0 is less than +0. R138, R141, R142: the table-evaluated
functions rounded in their final step; FSCALE rounds a × 2^k once; FDOT2 adds two exact products to an FP32 value and rounds once. That the tables are
computed is the model's reading (log entry 5), and so is k held within 5,000 of zero, which changes no result (log entry 39). -/
def Obligations.FloatComparisonsAndFunctions : Prop :=
  (
    (∀ mx : Bool, Yields (if mx then .fmax else .fmin) (fun f w t =>
      let ty := (fpElem f).1
      let x (k : Nat) := flush t.ftz ty (ty.decode (elemAt ty (valA (.fmin f) f w t) k))
      let y (k : Nat) := flush t.ftz ty (ty.decode (elemAt ty (valB (.fmin f) f w t) k))
      mapElems ty (fpElem f).2 (fun k => ty.encode
        (if x k = .nan then y k else if y k = .nan then x k
         else if FVal.lt (x k) (y k) || (FVal.eqv (x k) (y k) && ((x k).isNeg || !(y k).isNeg)) then (if mx then y k else x k)
         else (if mx then x k else y k)))))
    ∧ (∀ f w t s, Turn (.fcmp f) f w t s →
        exec (.fcmp f) s = .next (retired (.fcmp f) f w t (putPred w f.d
          (let ty := (fpElem f).1
           let a := flush t.ftz ty (ty.decode (valA (.fcmp f) f w t))
           let b := flush t.ftz ty (ty.decode (valB (.fcmp f) f w t))
           match field f.mod.toNat 1 0 with
           | 0 => FVal.eqv a b
           | 1 => FVal.lt a b
           | 2 => FVal.lt a b || FVal.eqv a b
           | _ => decide (a = .nan ∨ b = .nan)) s)))
    ∧ Yields .fclass (fun f w t =>
        let cl (k : Nat) : Nat := 2 ^ fpClass (fpElem f).1 t.ftz (elemAt (fpElem f).1 (valA (.fclass f) f w t) k)
        if (fpElem f).2 = 1 then cl 0 else cl 0 + 2 ^ 16 * cl 1))
  ∧ (
    Rounds .frcp (fun fmt m a _ _ => roundTo fmt (ApproxFn.rcp.apply a) m)
    ∧ Rounds .frsq (fun fmt m a _ _ => roundTo fmt (ApproxFn.rsq.apply a) m)
    ∧ Rounds .fexp2 (fun fmt m a _ _ => roundTo fmt (ApproxFn.exp2.apply a) m)
    ∧ Rounds .flog2 (fun fmt m a _ _ => roundTo fmt (ApproxFn.log2.apply a) m)
    ∧ Rounds .fsin (fun fmt m a _ _ => roundTo fmt (ApproxFn.sin.apply a) m)
    ∧ Rounds .fcos (fun fmt m a _ _ => roundTo fmt (ApproxFn.cos.apply a) m)
    ∧ Rounds .ftanh (fun fmt m a _ _ => roundTo fmt (ApproxFn.tanh.apply a) m)
    ∧ Rounds .fsigm (fun fmt m a _ _ => roundTo fmt (ApproxFn.sigm.apply a) m)
    ∧ Yields .fscale (fun f w t =>
        let ty := (fpElem f).1
        mapElems ty (fpElem f).2 (fun k => ty.encode (flush t.ftz ty (roundTo ty.fmt
          ((flush t.ftz ty (ty.decode (elemAt ty (valA (.fscale f) f w t) k))).scale (scaleBy f (valB (.fscale f) f w t) k))
          (t.fpMode (fRnd f))))))
    ∧ Yields .fdot2 (fun f w t =>
        let ty := (fpElem f).1
        let m := t.fpMode (fRnd f)
        let x (v k : Nat) : FVal := flush t.ftz ty (ty.decode (elemAt ty v k))
        let a := valA (.fdot2 f) f w t
        let b := valB (.fdot2 f) f w t
        let c := flush t.ftz .fp32 (FpType.fp32.decode (valC (.fdot2 f) f w t))
        FpType.fp32.encode (flush t.ftz .fp32
          (roundTo FpType.fp32.fmt ((c.add m ((x a 0).mul (x b 0))).add m ((x a 1).mul (x b 1))) m))))

/-- R121, R144 to R147: conversions. A stochastic rounding takes its bits from R122 and advances the thread's conversion ordinal; every other leaves
it. A format word must be valid. -/
def Obligations.Conversions : Prop :=
  (∀ f k id t s r, Turn (.cvtff f) f ⟨id, some k⟩ t s → s.tree? t.entry.tree = some r →
    exec (.cvtff f) s = .next (retired (.cvtff f) f ⟨id, some k⟩ t
      (let m := t.cvtMode (cRnd f)
       stochasticDone ⟨id, some k⟩ m (putD (.cvtff f) f ⟨id, some k⟩
         (cvtBits (cvtType (cSrc f)) (cvtType (cDst f)) t.ftz (mBit f 0) m (randomOf r t k 0)
           (valA (.cvtff f) f ⟨id, some k⟩ t % 2 ^ (cvtType (cSrc f)).bits)) s))))
  ∧ Yields .cvtfi (fun f w t =>
      let v := (cvtType (cSrc f)).decode (valA (.cvtfi f) f w t % 2 ^ (cvtType (cSrc f)).bits)
      let width := (cvtInt (cDst f)).1
      let lo : Int := if (cvtInt (cDst f)).2 then -(2 ^ (width - 1) : Int) else 0
      let hi : Int := if (cvtInt (cDst f)).2 then (2 ^ (width - 1) : Int) - 1 else (2 ^ width : Int) - 1
      match v with
      | .nan => 0
      | .inf neg => wrapOf width (if neg then lo else hi)
      | .fin neg m e =>
        let z : Int := if neg then -(roundIntMag neg m e (t.fpMode (cRnd f)) : Int) else roundIntMag neg m e (t.fpMode (cRnd f))
        wrapOf width (if z < lo then lo else if hi < z then hi else z))
  ∧ Yields .cvtif (fun f w t =>
      let width := (cvtInt (cSrc f)).1
      let x := valA (.cvtif f) f w t % 2 ^ width
      let v : Int := if (cvtInt (cSrc f)).2 then signedOf width x else x
      let dst := cvtType (cDst f)
      dst.encode (flush t.ftz dst (roundTo dst.fmt (.fin (decide (v < 0)) v.natAbs 0) (t.fpMode (cRnd f)) 0 (mBit f 0))))
  ∧ (∀ f k id t s r, Turn (.pack2 f) f ⟨id, some k⟩ t s → s.tree? t.entry.tree = some r →
      exec (.pack2 f) s = .next (retired (.pack2 f) f ⟨id, some k⟩ t
        (let m := t.cvtMode (cRnd f)
         let one (e v : Nat) := cvtBits .fp32 (cvtType (cDst f)) t.ftz (mBit f 0) m (randomOf r t k e) v
         stochasticDone ⟨id, some k⟩ m (putD (.pack2 f) f ⟨id, some k⟩
           (one 0 (valA (.pack2 f) f ⟨id, some k⟩ t) + 2 ^ 16 * one 1 (valB (.pack2 f) f ⟨id, some k⟩ t)) s))))
  ∧ Yields .unpk2 (fun f w t =>
      let src := cvtType (cSrc f)
      let one (k : Nat) : Nat := FpType.fp32.encode (src.decode (elemAt src (valA (.unpk2 f) f w t) k))
      one 0 + 2 ^ 32 * one 1)
  ∧ (∀ f k id t s r fw sc, Turn (.cvt8 f) f ⟨id, some k⟩ t s → s.tree? t.entry.tree = some r →
      fw = valC (.cvt8 f) f ⟨id, some k⟩ t % 2 ^ 32 → sc = valC (.cvt8 f) f ⟨id, some k⟩ t / 2 ^ 32 % 256 →
      fwValid false fw = true → fwFmt fw = 4 →
      let w : Who := ⟨id, some k⟩
      let a := valA (.cvt8 f) f w t
      let b := valB (.cvt8 f) f w t
      let old := valD (.cvt8 f) f w t
      let m := RMode.ofCode (fwRnd fw)
      let code (e v : Nat) : Nat := cvt8Code fw sc (randomOf r t k e) m ((cvtType (cSrc f)).decode v)
      exec (.cvt8 f) s = .next (retired (.cvt8 f) f w t
        (if bitAt f.mod.toNat 3 then
           putD (.cvt8 f) f w (scaleFor (match FpType.fp32.decode a with | .fin _ n e => .fin false n e | v => v) (fwB8 fw)) s
         else stochasticDone w m (putD (.cvt8 f) f w
           (if cSrc f = 1 then
              (if cDst f = 0 then old / 2 ^ 16 * 2 ^ 16 + (code 0 a + 2 ^ 8 * code 1 b)
               else old % 2 ^ 16 + 2 ^ 16 * (code 0 a + 2 ^ 8 * code 1 b))
            else code 0 (a % 2 ^ 16) + 2 ^ 8 * code 1 (a / 2 ^ 16) + 2 ^ 16 * code 2 (b % 2 ^ 16) + 2 ^ 24 * code 3 (b / 2 ^ 16)) s))))
  ∧ (∀ f w t s fw sc, Turn (.unp8 f) f w t s →
      fw = valC (.unp8 f) f w t % 2 ^ 32 → sc = valC (.unp8 f) f w t / 2 ^ 32 % 256 → fwValid false fw = true → fwFmt fw = 4 →
      let byte (k : Nat) : Nat := valA (.unp8 f) f w t / 2 ^ (8 * k) % 256
      exec (.unp8 f) s = .next (retired (.unp8 f) f w t (putD (.unp8 f) f w
        (if cSrc f = 1 then unp8Bits fw sc .fp32 (byte (cDst f))
         else unp8Bits fw sc (cvtType (cSrc f)) (byte (2 * cDst f)) + 2 ^ 16 * unp8Bits fw sc (cvtType (cSrc f)) (byte (2 * cDst f + 1))) s)))
  ∧ ∀ f w t s fw, Turn (.cvt8 f) f w t s → fw = valC (.cvt8 f) f w t % 2 ^ 32 → (fwValid false fw = false ∨ fwFmt fw ≠ 4) →
      exec (.cvt8 f) s = .next (s.takeTrap w (t.agent w.thread).pc.toNat ((encode (.cvt8 f)).getD 0) { cause := cBAD_FORMAT })

/-! ### Space 0x04: exchanges (06 R148 to R153) -/

/-- R42, R150 to R153: the exchanges of quads and groups. A value comes from the registers as they stood before any destination was written; of a
group, only participants are read. That a member whose instruction a predicate block suppresses opens its window (log entry 16), and that a fold over
one value keeps its bits (log entry 30), are the model's reading. -/
def Obligations.ExchangeValues : Prop :=
  (let a (mk : Fields → Instr) (f : Fields) (t : Machine.Task) (k : Nat) : Nat := t.opnd (some k) (shape (mk f)).a f.a
   let sel (f : Fields) : Nat := field f.mod.toNat 1 0
   let lane (k : Nat) : Nat := k % 32
   Exchanges .qswap 4 (fun f t _ k => a .qswap f t (k ^^^ sel f))
   ∧ Exchanges .qbcast 4 (fun f t _ k => a .qbcast f t (k / 4 * 4 + sel f))
   ∧ Exchanges .gshfl 32 (fun f t part k =>
       let n := t.opnd (some k) (shape (.gshfl f)).b f.b % 32
       let from' : Option Nat := if sel f = 0 then some n else if sel f = 1 then (if n ≤ lane k then some (lane k - n) else none)
         else if sel f = 2 then some (lane k + n) else some (lane k ^^^ n)
       match from' with
       | some j => if j < 32 ∧ ∃ p ∈ part, lane p = j then a .gshfl f t (k / 32 * 32 + j) else a .gshfl f t k
       | none => a .gshfl f t k)
   ∧ Exchanges .gvote 32 (fun f t part _ =>
       if sel f = 0 then (if ∀ k ∈ part, a .gvote f t k = 1 then 1 else 0)
       else if sel f = 1 then (if ∃ k ∈ part, a .gvote f t k = 1 then 1 else 0)
       else ofBits ((part.filter (fun k => a .gvote f t k = 1)).map lane))
   ∧ Exchanges .gmatch 32 (fun f t part k => ofBits ((part.filter (fun j => a .gmatch f t j = a .gmatch f t k)).map lane))
   ∧ Exchanges .gred 32 (fun f t part _ => redFold (field f.mod.toNat 3 0) (widthOf f) (exFp f) (part.map (a .gred f t)))
   ∧ Exchanges .gscan 32 (fun f t part k =>
       redFold (field f.mod.toNat 3 0) (widthOf f) (exFp f)
         ((part.filter (fun j => if bitAt f.mod.toNat 4 then j < k else j ≤ k)).map (a .gscan f t))))

/-! ### Space 0x08: control (03 R65, R73, R78 to R80; 13 R340 to R342) -/

/-- R73, R80, R338, R340: branches, calls and returns, their guards and the check of their targets. A call with eight return addresses on chip spills
four of them, or traps with STACK_LIMIT; a return takes the newest address, of which four are reloaded where all have been spilled, and traps with
BAD_TARGET where it is no slot's address, a reload before it standing. That a spill needs no page with WR is the model's reading (log entry 65). -/
def Obligations.ControlTransfers : Prop :=
  RelTransfers .bra false ∧ RelTransfers .call true
  ∧ (∀ f w t s, Turn (.bra f) f w t s → guardHolds f (t.agent w.thread) = false → exec (.bra f) s = .next (retired (.bra f) f w t s))
  ∧ (∀ f w t s, Turn (.call f) f w t s → guardHolds f (t.agent w.thread) = false → exec (.call f) s = .next (retired (.call f) f w t s))
  ∧ Transfers .brx (fun f w t => valA (.brx f) f w t) false
  ∧ Transfers .callx (fun f w t => valA (.callx f) f w t) true
  ∧ Spills .call (fun f w t => if 0 ≤ slotTarget f w t ∧ addrOfSlot (slotTarget f w t).toNat < 2 ^ 64 then some (addrOfSlot (slotTarget f w t).toNat)
      else none)
  ∧ Spills .callx (fun f w t => some (valA (.callx f) f w t))
  ∧ ∀ f w t s, Turn (.ret f) f w t s →
      let a := t.agent w.thread
      (guardHolds f a = false → exec (.ret f) s = .next (retired (.ret f) f w t s))
      ∧ (guardHolds f a = true → Returns f w t a.stack s s)
      ∧ (guardHolds f a = true → a.stack = [] → a.spilled = 0 →
          exec (.ret f) s = .next (s.takeTrap w a.pc.toNat ((encode (.ret f)).getD 0) { cause := cRET_EMPTY }))
      ∧ (guardHolds f a = true → a.stack = [] → 4 ≤ a.spilled → ∀ segs s1 bs s2,
          s.mapRange (Acc.ofTask t w.thread) { r := true } (pieces (s.spillArea t w.thread + 8 * (a.spilled - 4)) 32) = (.ok segs, s1) →
          s1.readSegs (Acc.ofTask t w.thread) segs = (.ok bs, s2) →
          Returns f w t (fourOf bs) s (s2.modAgent w (fun x => { x with stack := fourOf bs, spilled := x.spilled - 4 })))

/-- R78, R265, R342: PBLK opens a block of CNT + 1 instructions with its pattern and the predicate's value; NOP and PREF change nothing; YIELD changes
only whom its core chooses next. -/
def Obligations.BlocksAndHints : Prop :=
  (∀ f w t s, Turn (.pblk f) f w t s →
    exec (.pblk f) s = .next (retired (.pblk f) f w t (s.modAgent w (fun a => { a with
      block := { left := field f.mod.toNat 2 0 + 1, pat := f.imm.toNat % 256, val := a.pred (field f.mod.toNat 5 3) } }))))
  ∧ (∀ f w t s, Turn (.nop f) f w t s → exec (.nop f) s = .next (retired (.nop f) f w t s))
  ∧ (∀ f w t s, Turn (.pref f) f w t s → exec (.pref f) s = .next (retired (.pref f) f w t s))
  ∧ (∀ f w t s, Turn (.yield f) f w t s →
      ∃ g, exec (.yield f) s = .next (retired (.yield f) f w t (s.modCore t.coreD g))
        ∧ ∀ c, (w.thread ≠ none → (g c).greedy = none) ∧ (w.thread = none → w.task ∈ (g c).yielded) ∧ (g c).deque = c.deque
            ∧ (g c).bundles = c.bundles ∧ (g c).collector = c.collector ∧ (g c).icache = c.icache)

/-- R342, R396, R421: SWTRAP and BKPT retire, and trap with the code in the identity of the trap: the instruction counts in an open block, in the
lookahead windows, and for a uniform stream among the retired ones; the agent is held with its pc at the instruction. -/
def Obligations.SoftwareTraps : Prop :=
  ∀ (brk : Bool) f w t s, (w.thread = none → t.handler = none) →
    let i : Instr := if brk then .bkpt f else .swtrap f
    Turn i f w t s →
    ∃ s' t' p, exec i s = .next s' ∧ s'.task? w.task = some t' ∧ (t'.agent w.thread).pending = some p
      ∧ p.cause = (if brk then 30 else 29) ∧ p.pc = (t.agent w.thread).pc.toNat ∧ p.ident = f.imm.toNat % 65536
      ∧ some p.insn = encode i ∧ p.addr = none ∧ p.uniform = w.thread.isNone ∧ (t'.agent w.thread).pc = (t.agent w.thread).pc
      ∧ (t'.agent w.thread).block = (if 0 < (t.agent w.thread).block.left then (t.agent w.thread).block.step else (t.agent w.thread).block)
      ∧ (t'.agent w.thread).windows = ageWindows (t.agent w.thread).windows
      ∧ t'.u.retired = t.u.retired + (if w.thread = none then 1 else 0) ∧ s'.mem = s.mem

/-! ### Space 0x10: memory, pigeonholes, banks (10 R241 to R268) -/

/-- R241, R242, R257, R260: a load that reaches memory reads the bytes from the address on, extends them by WIDTH, and acquires by its ORDER. R248,
R260: a load that reaches memory changes no byte as the agents of its cluster see it, and no register but those of its destination. -/
def Obligations.Loads : Prop :=
  (
    (∀ f w t s pa watched s1, Turn (.ld f) f w t s → Reaches (.ld f) f w t s true true { r := true } pa watched s1 →
      let a := accessOf f w t true
      let seg : Seg := { va := vaOf (.ld f) f w t true, pa := pa, n := accBytes f, watched := watched }
      let (bytes, s2) := s1.loadBytes t.cluster pa (s1.usesL1 t.cluster a.scope && !s1.filtering a seg) (accBytes f)
      let width := if f.u then 64 else 32
      let v := match field f.mod.toNat 7 5 with
        | 1 => wrapOf width (signedOf 8 (ofLE bytes))
        | 3 => wrapOf width (signedOf 16 (ofLE bytes))
        | _ => ofLE bytes
      exec (.ld f) s = .next (retired (.ld f) f w t (putD (.ld f) f w v (if a.order % 2 = 1 then s2.acquireAt t.cluster a.scope else s2))))
    ∧ ∀ (s : State) cl pa n, (∀ k, k < n → (s.cluster cl).line? ((pa + k) / 128) = none) →
        s.loadBytes cl pa false n = (s.home pa n, s))
  ∧ (
    ∀ f w t s pa watched s1 s', Turn (.ld f) f w t s → Reaches (.ld f) f w t s true true { r := true } pa watched s1 → L1Sound s t.cluster →
      exec (.ld f) s = .next s' →
      (∀ a, seen s' t.cluster a = seen s t.cluster a) ∧ s'.trees = s.trees ∧ s'.ctxs = s.ctxs ∧ s'.cores = s.cores
      ∧ (∀ id, id ≠ w.task → s'.task? id = s.task? id)
      ∧ ∃ t', s'.task? w.task = some t' ∧ SameTask t t'
        ∧ (∀ th r, ¬ (th = w.thread ∧ isDest (.ld f) f r) → t'.reg th r = t.reg th r)
        ∧ (∀ p, (t'.agent w.thread).pred p = (t.agent w.thread).pred p) ∧ ∀ th, th ≠ w.thread → t'.agent th = t.agent th)

/-- R241, R242: an access whose exact address is not canonical, or not a multiple of its width, traps with MEM_FAULT and the address. -/
def Obligations.AccessFaults : Prop :=
  ∀ (mk : Fields → Instr) (index : Bool) f w t s,
    (mk, index) ∈ [(Instr.ld, true), (Instr.st, true), (Instr.atom, false), (Instr.atomcas, false), (Instr.red, false)] →
    Turn (mk f) f w t s →
    (¬(-(2 ^ 56 : Int) ≤ eaOf (mk f) f w t index ∧ eaOf (mk f) f w t index < (2 ^ 56 : Int)) ∨ vaOf (mk f) f w t index % accBytes f ≠ 0) →
    exec (mk f) s = .next (s.takeTrap w (t.agent w.thread).pc.toNat ((encode (mk f)).getD 0)
      { cause := cMEM_FAULT, addr := some (vaOf (mk f) f w t index) })

/-- R260, R281: a store that reaches memory, after the release of its ORDER. The bytes stored are those of C, lowest first; every other byte reads as
before to the agents of the cluster, and every register keeps its value. -/
def Obligations.Stores : Prop :=
  ∀ f w t s pa watched s1, Turn (.st f) f w t s → Reaches (.st f) f w t s true true { w := true } pa watched s1 → L1Sound s t.cluster →
    s1.filtering (accessOf f w t true) { va := vaOf (.st f) f w t true, pa := pa, n := accBytes f, watched := watched } = false →
    ∃ s2, exec (.st f) s = .next (retired (.st f) f w t s2)
      ∧ (∀ k, k < accBytes f → seen s2 t.cluster (pa + k) = BitVec.ofNat 8 (valC (.st f) f w t / 256 ^ k))
      ∧ (∀ a, a < pa ∨ pa + accBytes f ≤ a → seen s2 t.cluster a = seen s t.cluster a)
      ∧ s2.tasks = s.tasks
      ∧ (s1.usesL1 t.cluster (field f.mod.toNat 2 0) = false ∨ watched = true →
          ∀ k, k < accBytes f → Sparse.get 0 s2.mem (pa + k) = BitVec.ofNat 8 (valC (.st f) f w t / 256 ^ k))

/-- R261 to R263, R281: an atomic, after every cluster has written back its dirty bytes of the line, returns the old value and stores the new one at
the home slice; RED returns nothing, and ATOMCAS stores only where the old value is the one compared. R264, R281: FENCE writes back for a release and
drops clean lines for an acquire, at scopes wider than the cluster, and nothing else. -/
def Obligations.AtomicsAndFences : Prop :=
  (
    let stored (f : Fields) (t : Machine.Task) (pa : Nat) (s : State) (v : Nat) : State :=
      let a := field f.mod.toNat 4 3
      let scope := field f.mod.toNat 2 0
      let s := ((if 2 ≤ a then s.releaseAt t.cluster scope else s).storeBytes t.cluster pa false (leBytes (accBytes f) v))
      if a % 2 = 1 then s.acquireAt t.cluster scope else s
    let before (pa : Nat) (s : State) : State := s.writeBackEverywhere (pa / 128)
    (∀ f w t s pa watched s1, Turn (.atom f) f w t s → Reaches (.atom f) f w t s false false { r := true, w := true } pa watched s1 →
      let old := ofLE ((before pa s1).home pa (accBytes f))
      exec (.atom f) s = .next (retired (.atom f) f w t (putD (.atom f) f w old
        (stored f t pa (before pa s1) (atomNew f.b.toNat (accBytes f) old (valC (.atom f) f w t % 2 ^ (8 * accBytes f)))))))
    ∧ (∀ f w t s pa watched s1, Turn (.red f) f w t s → Reaches (.red f) f w t s false false { r := true, w := true } pa watched s1 →
      let old := ofLE ((before pa s1).home pa (accBytes f))
      exec (.red f) s = .next (retired (.red f) f w t
        (stored f t pa (before pa s1) (atomNew f.b.toNat (accBytes f) old (valC (.red f) f w t % 2 ^ (8 * accBytes f))))))
    ∧ (∀ f w t s pa watched s1, Turn (.atomcas f) f w t s → Reaches (.atomcas f) f w t s false false { r := true, w := true } pa watched s1 →
      let m := 2 ^ (8 * accBytes f)
      let old := ofLE ((before pa s1).home pa (accBytes f))
      old = valB (.atomcas f) f w t % m →
      exec (.atomcas f) s = .next (retired (.atomcas f) f w t (putD (.atomcas f) f w old
        (stored f t pa (before pa s1) (valC (.atomcas f) f w t % m)))))
    ∧ (∀ f w t s pa watched s1, Turn (.atomcas f) f w t s → Reaches (.atomcas f) f w t s false false { r := true, w := true } pa watched s1 →
      let old := ofLE ((before pa s1).home pa (accBytes f))
      old ≠ valB (.atomcas f) f w t % 2 ^ (8 * accBytes f) →
      ∃ s2, exec (.atomcas f) s = .next (retired (.atomcas f) f w t (putD (.atomcas f) f w old s2))
        ∧ s2.mem = (before pa s1).mem ∧ s2.tasks = s.tasks))
  ∧ (
    (∀ f w t s, Turn (.fence f) f w t s →
      let order := field f.mod.toNat 4 3
      let wide := 2 ≤ field f.mod.toNat 2 0
      exec (.fence f) s = .next (retired (.fence f) f w t
        (let s := if 2 ≤ order ∧ wide then s.writeBackAll t.cluster else s
         if order % 2 = 1 ∧ wide then s.dropClean t.cluster else s)))
    ∧ (∀ (s : State) cl, L1Sound s cl →
        (∀ l ∈ ((s.writeBackAll cl).cluster cl).l1, l.dirty = 0)
        ∧ ∀ a, seen (s.writeBackAll cl) cl a = seen s cl a)
    ∧ ∀ (s : State) cl a, L1Sound s cl → seen (s.dropClean cl) cl a = seen s cl a)

/-- R252, R266, R267: pigeonhole accesses in the state and range they need; outside the range LDH and STH trap. HQRY reads D[2] as stepping B does, by
erratum 4 of R439 (log entry 29). R253, R254, R266, R267: LDH, STH, HWAIT and HSET of a pigeonhole in a state that they do not take stall, and trap
with HOLE_STALL when the limit of 256 × HSTALL cycles, as it stood when the stall began, has passed. -/
def Obligations.Pigeonholes : Prop :=
  (
    let off (i : Instr) (f : Fields) (w : Who) (t : Machine.Task) : Int := ((valB i f w t % 2 ^ 32 : Nat) : Int) + f.imm.toInt
    let inside (i : Instr) (f : Fields) (w : Who) (t : Machine.Task) : Prop :=
      0 ≤ off i f w t ∧ off i f w t + accBytes f ≤ t.holeBytes ∧ off i f w t % accBytes f = 0
    let target (f : Fields) : HoleState := if f.imm.toNat % 4 = 0 then .empty else .ready
    (∀ f w t s, Turn (.ldh f) f w t s → inside (.ldh f) f w t → (t.hole f.a.toNat).state = .ready →
      exec (.ldh f) s = .next (retired (.ldh f) f w t (putD (.ldh f) f w
        (loadExt f (ofLE ((t.hole f.a.toNat).read (off (.ldh f) f w t).toNat (accBytes f)))) s)))
    ∧ (∀ f w t s, Turn (.sth f) f w t s → inside (.sth f) f w t → (t.hole f.a.toNat).state = .ready → (t.hole f.a.toNat).readers = 0 →
      exec (.sth f) s = .next (retired (.sth f) f w t (s.modTask w.task (fun t' => t'.modHole f.a.toNat
        (fun h => h.write (off (.sth f) f w t).toNat (leBytes (accBytes f) (valC (.sth f) f w t)))))))
    ∧ (∀ f w t s, Turn (.ldh f) f w t s → ¬ inside (.ldh f) f w t →
        exec (.ldh f) s = .next (s.takeTrap w (t.agent w.thread).pc.toNat ((encode (.ldh f)).getD 0) { cause := cHOLE_RANGE }))
    ∧ (∀ f w t s, Turn (.sth f) f w t s → ¬ inside (.sth f) f w t →
        exec (.sth f) s = .next (s.takeTrap w (t.agent w.thread).pc.toNat ((encode (.sth f)).getD 0) { cause := cHOLE_RANGE }))
    ∧ (∀ f w t s, Turn (.hwait f) f w t s → (t.hole f.a.toNat).state = target f → exec (.hwait f) s = .next (retired (.hwait f) f w t s))
    ∧ (∀ f w t s, Turn (.hset f) f w t s →
        ((t.hole f.a.toNat).state = target f
          ∨ ((t.hole f.a.toNat).state = .empty ∨ ((t.hole f.a.toNat).state = .ready ∧ (t.hole f.a.toNat).readers = 0))) →
        exec (.hset f) s = .next (retired (.hset f) f w t
          (if (t.hole f.a.toNat).state = target f then s
           else s.modTask w.task (fun t' => t'.modHole f.a.toNat (fun h => { h with state := target f })))))
    ∧ Yields .hqry (fun f _ t =>
        (match (t.hole f.a.toNat).state with | .empty => 0 | .filling => 1 | .ready => 2 | .draining => 3)
          + (if 0 < (t.hole f.a.toNat).readers then 4 else 0)))
  ∧ (
    ∀ (mk : Fields → Instr) f w t s, mk ∈ [Instr.ldh, .sth, .hwait, .hset] → Turn (mk f) f w t s → HoleWaits (mk f) f w t →
      ((t.agent w.thread).stall = none →
        exec (mk f) s = .next (s.modAgent w (fun a => { a with
          stall := some { since := s.cycle t.cluster, limit := t.hstall.toNat * 256 }, waiting := true })))
      ∧ ∀ st, (t.agent w.thread).stall = some st →
        let elapsed := (s.cycle t.cluster + 2 ^ 64 - st.since) % 2 ^ 64
        ((st.limit = 0 ∨ elapsed < st.limit) → exec (mk f) s = .next (s.modAgent w (fun a => { a with waiting := true })))
        ∧ (st.limit ≠ 0 → st.limit ≤ elapsed →
            exec (mk f) s = .next (s.takeTrap w (t.agent w.thread).pc.toNat ((encode (mk f)).getD 0) { cause := cHOLE_STALL })))

/-- R249, R250, R268: BANKMODE gives the banks of its mask their mode where no pigeonhole, view or FIFO entry stands in them and no other BANKMODE is
under way; FIFOPUSH adds at the end of a bank's queue and FIFOPOP takes from its head. -/
def Obligations.Banks : Prop :=
  (∀ f w t s c, Turn (.bankmode f) f w t s → s.ctx? t.entry.ctx = some c → c.bankCtl = true →
    let cl := s.cluster t.cluster
    let mask := valA (.bankmode f) f w t
    let mode := BankMode.ofCode (f.imm.toNat % 4)
    cl.switchers = [] → cl.banks.length = 64 → (∀ b ∈ cl.banks, b.closing = none) →
    (∀ k, k < 64 → mask.testBit k = true → (cl.banks.getD k {}).mode = mode ∨ (cl.banks.getD k {}).mode = .cache
      ∨ ((cl.banks.getD k {}).mode = .fifo ∧ (cl.banks.getD k {}).owner = some t.entry.ctx ∧ (cl.banks.getD k {}).fifo = [])
      ∨ (cl.banks.getD k {}).mode = .scratch) →
    (∀ x ∈ s.tasks, x.resident = true → x.cluster = t.cluster → ∀ p ∈ x.pieces, mask.testBit p.1 = false ∨ (cl.banks.getD p.1 {}).mode = mode) →
    ∃ s', exec (.bankmode f) s = .next s'
      ∧ ∀ k, k < 64 → ((s'.cluster t.cluster).banks.getD k {}) =
          (if mask.testBit k = true ∧ (cl.banks.getD k {}).mode ≠ mode then
            { mode := mode, owner := if mode = .fifo then some t.entry.ctx else none } else cl.banks.getD k {}))
  ∧ (∀ f w t s, Turn (.fifopush f) f w t s →
      let k := f.imm.toNat % 64
      let b := (s.cluster t.cluster).banks.getD k {}
      b.mode = .fifo → b.owner = some t.entry.ctx → b.fifo.length < 2048 → (∀ j, w.thread = some j → (t.thread j).behind = []) →
      exec (.fifopush f) s = .next (retired (.fifopush f) f w t
        ((if 2 ≤ field f.mod.toNat 4 3 then (fifoDone w s).releaseAt t.cluster (field f.mod.toNat 2 0) else fifoDone w s).modCluster t.cluster (fun c => { c with
          banks := updAt c.banks k (fun b => { b with
            fifo := b.fifo ++ [BitVec.ofNat 128 (valC (.fifopush f) f w t % 2 ^ (8 * accBytes f))] }) }))))
  ∧ (∀ f w t s v rest, Turn (.fifopop f) f w t s →
      let k := f.imm.toNat % 64
      let b := (s.cluster t.cluster).banks.getD k {}
      b.mode = .fifo → b.owner = some t.entry.ctx → b.fifo = v :: rest → (∀ j, w.thread = some j → (t.thread j).behind = []) →
      exec (.fifopop f) s = .next (retired (.fifopop f) f w t (putD (.fifopop f) f w (v.toNat % 2 ^ (8 * accBytes f))
        (let s := (fifoDone w s).modCluster t.cluster (fun c => { c with banks := updAt c.banks k (fun b => { b with fifo := rest }) })
         if field f.mod.toNat 4 3 = 1 then s.acquireAt t.cluster (field f.mod.toNat 2 0) else s))))

/-! ### Space 0x18: copies (12 R292 to R318) -/

/-- R292, R293, R297, R298, R301 to R305, R307, R308: a copy instruction whose pigeonholes are in the states and ranges needed and whose queue has
room enters its queue with its operands captured, and reserves its pigeonholes. -/
def Obligations.CopiesEnterQueues : Prop :=
  (∀ f w t s, Turn (.cpy f) f w t s → Room f t →
    let n := valB (.cpy f) f w t % 2 ^ 32
    let toHole := bitAt f.mod.toNat 7
    let fromHole := bitAt f.mod.toNat 6
    let free := bitAt f.mod.toNat 4
    (toHole = true → f.imm.toNat % 2 ^ 16 + n ≤ t.holeBytes ∧ canFill (t.hole f.d.toNat)) →
    (fromHole = true → f.imm.toNat / 2 ^ 16 + n ≤ t.holeBytes ∧ canRead free (t.hole f.a.toNat)) →
    ∃ s', exec (.cpy f) s = .next s' ∧ Queued (.cpy f) f w t s (if toHole then 0 else valD (.cpy f) f w t)
      (if fromHole then 0 else valA (.cpy f) f w t) n 0 []
      ((fun l => if toHole then filling f.d.toNat l else l) (if fromHole then reading free f.a.toNat t.holes else t.holes)) s')
  ∧ (∀ f w t s, Turn (.cpys f) f w t s → Room f t →
    let n := valB (.cpys f) f w t % 2 ^ 32
    let toHole := bitAt f.mod.toNat 7
    (toHole = true → f.imm.toNat % 2 ^ 16 + n ≤ t.holeBytes ∧ canFill (t.hole f.d.toNat)) →
    ∃ s', exec (.cpys f) s = .next s' ∧ Queued (.cpys f) f w t s (if toHole then 0 else valD (.cpys f) f w t) 0 n
      (valC (.cpys f) f w t % 2 ^ 32) [] (if toHole then filling f.d.toNat t.holes else t.holes) s')
  ∧ (∀ f w t s, Turn (.cpyg f) f w t s → Room f t →
    let n := valC (.cpyg f) f w t % 2 ^ 32
    n * (f.imm.toNat % 2 ^ 16) ≤ t.holeBytes → valB (.cpyg f) f w t % 4 = 0 → canFill (t.hole f.d.toNat) →
    ∃ s', exec (.cpyg f) s = .next s' ∧ Queued (.cpyg f) f w t s 0 (valA (.cpyg f) f w t) (valB (.cpyg f) f w t) (valC (.cpyg f) f w t) []
      (filling f.d.toNat t.holes) s')
  ∧ (∀ f w t s, Turn (.cpym f) f w t s → Room f t → f.imm.toNat / 2 ^ 16 + f.imm.toNat % 2 ^ 13 ≤ t.holeBytes →
      canRead (bitAt f.mod.toNat 4) (t.hole f.b.toNat) →
    ∃ s', exec (.cpym f) s = .next s' ∧ Queued (.cpym f) f w t s 0 (valA (.cpym f) f w t) 0 (valC (.cpym f) f w t % 2 ^ 32) []
      (reading (bitAt f.mod.toNat 4) f.b.toNat t.holes) s')
  ∧ (∀ f w t s, Turn (.cpyd f) f w t s → Room f t → f.imm.toNat / 2 ^ 16 + f.imm.toNat % 2 ^ 13 ≤ t.holeBytes →
      canFill (t.hole f.d.toNat) →
    ∃ s', exec (.cpyd f) s = .next s' ∧ Queued (.cpyd f) f w t s 0 (valA (.cpyd f) f w t) 0 0 [] (filling f.d.toNat t.holes) s')
  ∧ (∀ f w t s pa watched s1 desc s2, Turn (.cpyt f) f w t s → Room f t →
      let a := valA (.cpyt f) f w t
      let c := valC (.cpyt f) f w t
      let store := bitAt f.mod.toNat 3
      let free := bitAt f.mod.toNat 4
      a % 64 = 0 → canonicalVa a = true → s.translate t.entry.ctx t.cluster a { r := true } = (.ok pa watched, s1) →
      s1.firstMissing pa 64 = none → s1.poisoned pa 64 = false → s1.loadBytes t.cluster pa (s1.usesL1 t.cluster 0) 64 = (desc, s2) → s2.mem = s.mem →
      descOk desc = true → f.imm.toNat % 2 ^ 16 % descE desc = 0 → f.imm.toNat % 2 ^ 16 + descBytes desc ≤ t.holeBytes →
      (if store then canRead free (t.hole f.b.toNat) else canFill (t.hole f.b.toNat)) →
    ∃ s', exec (.cpyt f) s = .next s' ∧ Queued (.cpyt f) f w t s (c / 2 ^ 64 % 2 ^ 32) a 0 (c % 2 ^ 64) desc
      (if store then reading free f.b.toNat t.holes else filling f.b.toNat t.holes) s')

/-- R293, R315 to R317: SEAL closes the open batch under the next ordinal; CWAIT goes on once few enough sealed batches are unfinished, gives the OOB
bit and clears the record, and traps with the record where it holds an error (erratum 3 of R439: 15 waits as 14); QFENCE goes on when its queues hold
nothing. -/
def Obligations.CopyBatches : Prop :=
  (∀ f w t s, Turn (.seal f) f w t s → (t.agent w.thread).closed.length < 15 →
    exec (.seal f) s = .next (retired (.seal f) f w t (putD (.seal f) f w (t.agent w.thread).batchOrd.toNat (s.modAgent w Agent.sealOpen))))
  ∧ (∀ a : Agent, a.sealOpen.batchOrd = a.batchOrd + 1 ∧ a.sealOpen.opened = {}
      ∧ (0 < a.opened.undone → a.closed = [] → a.sealOpen.closed = [{ a.opened with ord := a.batchOrd.toNat }]))
  ∧ (∀ f w t s, Turn (.cwait f) f w t s → (t.agent w.thread).closed.length ≤ min (f.imm.toNat % 16) 14 → (t.agent w.thread).finErr = none →
    exec (.cwait f) s = .next (retired (.cwait f) f w t (putD (.cwait f) f w (if (t.agent w.thread).finOob then 1 else 0)
      (s.modAgent w (fun a => { a with finErr := none, finOob := false })))))
  ∧ (∀ f w t s e, Turn (.cwait f) f w t s → (t.agent w.thread).closed.length ≤ min (f.imm.toNat % 16) 14 →
      (t.agent w.thread).finErr = some e →
      e.cause ≠ 29 → e.cause ≠ 30 →
    exec (.cwait f) s = .next ((s.modAgent w (fun a => { a with finErr := none, finOob := false })).takeTrap w
      (t.agent w.thread).pc.toNat ((encode (.cwait f)).getD 0)
      { cause := e.cause, addr := e.addr, ident := e.ord + 2 ^ 32 * e.batch, deferred := true, later := e.later, keep := true }))
  ∧ (∀ f w t s, Turn (.qfence f) f w t s → (t.agent w.thread).fence = none → t.fault = none →
      (∀ q, q < 4 → f.imm.toNat.testBit q = true → t.copyq.getD q [] = []) → (f.imm.toNat.testBit 4 = true → t.q4 = []) →
      (f.imm.toNat.testBit 5 = true → ∀ g ∈ (s.core t.coreD).collector, g.task ≠ t.entry.id) →
      (f.imm.toNat.testBit 7 = true → t.join = .none) →
    exec (.qfence f) s = .next (retired (.qfence f) f w t (s.modAgent w (fun a => { a with fence := none }))))

/-- R310 to R314: GATH and SCAT enter the collector of their core, GATH's thread waiting for its value; SCADD's update joins the pending set, or ends
the tree with BIN_STAGING where the bin area is full (its capacity is open, log entry 8); BINFLUSH applies the thread's updates in the order of R313.
-/
def Obligations.GatherAndScatter : Prop :=
  let ea (i : Instr) (f : Fields) (w : Who) (t : Machine.Task) (shift : Nat) : Int :=
    signedOf 64 (valA i f w t) + signedOf 32 (valB i f w t) * (2 ^ shift : Int) + f.imm.toInt
  let good (i : Instr) (f : Fields) (w : Who) (t : Machine.Task) (shift n : Nat) : Prop :=
    -(2 ^ 56 : Int) ≤ ea i f w t shift ∧ ea i f w t shift < (2 ^ 56 : Int) ∧ wrapOf 64 (ea i f w t shift) % n = 0
  (∀ f k id t s pa watched s1, Turn (.gath f) f ⟨id, some k⟩ t s →
    let w : Who := ⟨id, some k⟩
    let shift := field f.mod.toNat 3 2
    good (.gath f) f w t shift (gatherBytes f) →
    s.translate t.entry.ctx t.cluster (wrapOf 64 (ea (.gath f) f w t shift)) { r := true } = (.ok pa watched, s1) →
    s1.firstMissing pa (gatherBytes f) = none →
    (s.core t.coreD).collector.length < 256 → (∀ g ∈ (s.core t.coreD).collector, ¬(g.task = id ∧ g.thread = k ∧ g.write = false)) →
    exec (.gath f) s = .next ((s1.modCore t.coreD (fun c => { c with collector := c.collector ++
        [{ task := id, thread := k, write := false, ea := wrapOf 64 (ea (.gath f) f w t shift), pa := some pa, bytes := gatherBytes f,
           dest := f.d.toNat, strand := t.strand (some k), watched := watched, entered := s1.cycle t.cluster, lead := k }] })).modAgent w
      (fun a => { a with waiting := true })))
  ∧ (∀ f k id t s pa watched s1, Turn (.scat f) f ⟨id, some k⟩ t s →
    let w : Who := ⟨id, some k⟩
    let shift := field f.mod.toNat 3 2
    good (.scat f) f w t shift (gatherBytes f) →
    s.translate t.entry.ctx t.cluster (wrapOf 64 (ea (.scat f) f w t shift)) { w := true } = (.ok pa watched, s1) →
    s1.firstMissing pa (gatherBytes f) = none →
    (s.core t.coreD).collector.length < 256 →
    exec (.scat f) s = .next (retired (.scat f) f w t ((s1.modCore t.coreD (fun c => { c with collector := c.collector ++
        [{ task := id, thread := k, write := true, ea := wrapOf 64 (ea (.scat f) f w t shift), pa := some pa, bytes := gatherBytes f,
           value := valC (.scat f) f w t % 2 ^ (8 * gatherBytes f), ord := (t.agent (some k)).copyOrd.toNat,
           batch := (t.agent (some k)).batchOrd.toNat, strand := t.strand (some k), watched := watched,
           entered := s1.cycle t.cluster }] })).modAgent w Agent.joinBatch)))
  ∧ (∀ f k id t s r pa watched s1 page segs, Turn (.scadd f) f ⟨id, some k⟩ t s → s.tree? t.entry.tree = some r →
    pickFree .binArea s.tick (List.range r.binSize) = some page → s1.mapCp r.ctx { w := true } [(r.binArea + 65536 * page, 1)] = .ok segs →
    let w : Who := ⟨id, some k⟩
    let type := field f.mod.toNat 1 0
    good (.scadd f) f w t 0 (binBytes type) →
    s.translate t.entry.ctx t.cluster (wrapOf 64 (ea (.scadd f) f w t 0)) { r := true, w := true } = (.ok pa watched, s1) →
    s1.firstMissing pa (binBytes type) = none →
    exec (.scadd f) s = .next
      (if Config.binCapacity (65536 * r.binSize) ≤ s.binCount r.id then s1.abortTree t.entry.tree 7
       else retired (.scadd f) f w t (s1.modTask id (fun t' =>
         { t'.modThread k (fun x => { x with scaddOrd := x.scaddOrd + 1 }) with
           bins := t'.bins ++ [{ addr := wrapOf 64 (ea (.scadd f) f w t 0), value := valC (.scadd f) f w t % 2 ^ (8 * binBytes type),
                                 type := type, ped := t.entry.ped, thread := k, ord := (t.thread k).scaddOrd.toNat, seq := t.seq,
                                 place := some (r.binArea + 65536 * page) }]
           seq := t'.seq + 1 }))))
  ∧ (∀ f k id t s s1, Turn (.binflush f) f ⟨id, some k⟩ t s →
      s.applyBins t.entry.ctx (some t.cluster) (sortBy BinUpdate.le (t.bins.filter (fun u => u.thread == k))) = (.ok false, s1) →
      exec (.binflush f) s = .next (retired (.binflush f) f ⟨id, some k⟩ t
        (s1.modTask id (fun t' => { t' with bins := t'.bins.filter (fun u => !(u.thread == k)) }))))
  ∧ (∀ f id t s s1, Turn (.binflush f) f ⟨id, none⟩ t s →
      s.applyBins t.entry.ctx (some t.cluster) (sortBy BinUpdate.le (t.bins.filter t.dueBins)) = (.ok false, s1) →
      exec (.binflush f) s = .next (retired (.binflush f) f ⟨id, none⟩ t
        (s1.modTask id (fun t' => { t' with bins := t'.bins.filter (fun u => !t.dueBins u) }))))

/-- R252, R298, R300 to R305: what the copy engines do with the head of a queue that meets no fault. CPY moves the bytes of a range or of a pigeonhole
to the other or to the same kind, CPYS repeats its pattern, CPYT fills a pigeonhole with a window, FILL standing for the elements out of bounds, or
writes those in bounds from one, and CPYG gathers the rows that its index list names, zeros standing for those that do not exist, which sets OOB. The
pigeonholes go from filling to ready, or lose their reader, or empty; other bytes stand. That a CPYT writes its elements in element order, so that of
elements which overlap in memory the last remains, is the model's reading (log entry 21). R254, R307, R308, R310, R311: CPYM takes a free slot of its
die, CPYD drains the slot of its key, and either ends with HOLE_STALL when its stall has reached its limit and no slot serves it; an old or a full
collector window performs its requests in order, a GATH's value to its thread and a SCAT's bytes to memory, while one whose check needs a page that is
not present stays; a stall that has reached its limit traps. -/
def Obligations.CopyEngines : Prop :=
  (
    (∀ s task q t c rest f bs s2, CopyHead task q t c rest s → decode c.word = .cpy f → bitAt f.mod.toNat 7 = true → f.d.toNat < t.holes.length →
        (bitAt f.mod.toNat 6 = true → f.a ≠ f.d ∧ bs = (t.hole f.a.toNat).gather (holeOffsets f (f.imm.toNat / 2 ^ 16) c.b) ∧ s2 = s) →
        (bitAt f.mod.toNat 6 = false → BytesRead (c.acc t) [(signedOf 64 c.a, c.b)] s bs s2) → bs.length = c.b →
      ∃ s' t', exec (.copyCommandPerformed task q) s = .next s' ∧ Performed task q t rest false s' t'
        ∧ HoleHolds f (f.imm.toNat % 2 ^ 16) bs (t.hole f.d.toNat) (t'.hole f.d.toNat) ∧ (t'.hole f.d.toNat).state = filledState (t.hole f.d.toNat)
        ∧ (bitAt f.mod.toNat 6 = true → f.a.toNat < t.holes.length → GivesBack (bitAt f.mod.toNat 4) (t.hole f.a.toNat) (t'.hole f.a.toNat))
        ∧ s'.mem = s2.mem)
    ∧ (∀ s task q t c rest f sg dg bs s1 s2 s3, CopyHead task q t c rest s → decode c.word = .cpy f → bitAt f.mod.toNat 7 = false →
        (bitAt f.mod.toNat 6 = true →
          s1 = s ∧ s3 = s2 ∧ bs = (t.hole f.a.toNat).gather (holeOffsets f (f.imm.toNat / 2 ^ 16) c.b)) →
        (bitAt f.mod.toNat 6 = false →
          s.mapAll (c.acc t) { r := true } [(signedOf 64 c.a, c.b)] = (.ok [sg], s1) ∧ s2.readSegs (c.acc t) [sg] = (.ok bs, s3)) →
        s1.mapAll (c.acc t) { w := true } [(signedOf 64 c.d, c.b)] = (.ok [dg], s2) → bs.length = c.b → dg.n = c.b →
        s3.firstRace (c.acc t) true [dg] = none → s3.filtering (c.acc t) dg = false → L1Sound s t.cluster →
      ∃ s' t', exec (.copyCommandPerformed task q) s = .next s' ∧ Performed task q t rest false s' t'
        ∧ (∀ k, k < c.b → seen s' t.cluster (dg.pa + k) = bs.getD k 0)
        ∧ (∀ a, a < dg.pa ∨ dg.pa + c.b ≤ a → seen s' t.cluster a = seen s t.cluster a)
        ∧ (bitAt f.mod.toNat 6 = true → f.a.toNat < t.holes.length → GivesBack (bitAt f.mod.toNat 4) (t.hole f.a.toNat) (t'.hole f.a.toNat)))
    ∧ (∀ s task q t c rest f, CopyHead task q t c rest s → decode c.word = .cpys f → bitAt f.mod.toNat 7 = true → f.d.toNat < t.holes.length →
      ∃ s' t', exec (.copyCommandPerformed task q) s = .next s' ∧ Performed task q t rest false s' t'
        ∧ (∀ k, k < c.b → Sparse.get 0 (t'.hole f.d.toNat).data (f.imm.toNat % 2 ^ 16 + k)
            = BitVec.ofNat 8 (c.c / 2 ^ (8 * ((f.imm.toNat % 2 ^ 16 + k) % 4))))
        ∧ (∀ k, k < f.imm.toNat % 2 ^ 16 ∨ f.imm.toNat % 2 ^ 16 + c.b ≤ k →
            Sparse.get 0 (t'.hole f.d.toNat).data k = Sparse.get 0 (t.hole f.d.toNat).data k)
        ∧ (t'.hole f.d.toNat).state = filledState (t.hole f.d.toNat) ∧ s'.mem = s.mem)
    ∧ (∀ s task q t c rest f dg s1, CopyHead task q t c rest s → decode c.word = .cpys f → bitAt f.mod.toNat 7 = false →
        s.mapAll (c.acc t) { w := true } [(signedOf 64 c.d, c.b)] = (.ok [dg], s1) → dg.n = c.b →
        s1.firstRace (c.acc t) true [dg] = none → s1.filtering (c.acc t) dg = false → L1Sound s t.cluster →
      ∃ s' t', exec (.copyCommandPerformed task q) s = .next s' ∧ Performed task q t rest false s' t'
        ∧ (∀ k, k < c.b → seen s' t.cluster (dg.pa + k) = BitVec.ofNat 8 (c.c / 2 ^ (8 * ((c.d + k) % 4))))
        ∧ (∀ a, a < dg.pa ∨ dg.pa + c.b ≤ a → seen s' t.cluster a = seen s t.cluster a))
    ∧ (∀ s task q t c rest f bs s2, CopyHead task q t c rest s → decode c.word = .cpyt f → bitAt f.mod.toNat 3 = false →
        f.b.toNat < t.holes.length →
        let e := descE c.desc
        let els := windowElems c.desc (f.imm.toNat % 2 ^ 16) (c.c % 2 ^ 32) (c.c / 2 ^ 32 % 2 ^ 32) c.d
        let inb := els.filter (fun x => x.1)
        BytesRead (c.acc t) (inb.map (fun x => (x.2.1, e))) s bs s2 → bs.length = e * inb.length → c.desc.length = 64 → e ≤ 8 →
      ∃ s' t', exec (.copyCommandPerformed task q) s = .next s' ∧ Performed task q t rest false s' t'
        ∧ (∀ m x b, inb[m]? = some x → b < e →
            Sparse.get 0 (t'.hole f.b.toNat).data (placeIn f (x.2.2 + b)) = bs.getD (m * e + b) 0)
        ∧ (∀ x ∈ els, x.1 = false → ∀ b, b < e → Sparse.get 0 (t'.hole f.b.toNat).data (placeIn f (x.2.2 + b)) = c.desc.getD (48 + b) 0)
        ∧ (t'.hole f.b.toNat).state = filledState (t.hole f.b.toNat) ∧ s'.mem = s2.mem)
    ∧ (∀ s task q t c rest f ws s1 s2, CopyHead task q t c rest s → decode c.word = .cpyt f → bitAt f.mod.toNat 3 = true →
        f.b.toNat < t.holes.length →
        let e := descE c.desc
        let inb := (windowElems c.desc (f.imm.toNat % 2 ^ 16) (c.c % 2 ^ 32) (c.c / 2 ^ 32 % 2 ^ 32) c.d).filter (fun x => x.1)
        s.mapAll (c.acc t) { w := true } (inb.map (fun x => (x.2.1, e))) = (.ok ws, s1) →
        s1.writeSegs (c.acc t) ws (inb.flatMap (fun x => (t.hole f.b.toNat).gather (holeOffsets f x.2.2 e))) = .ok s2 →
      ∃ s' t', exec (.copyCommandPerformed task q) s = .next s' ∧ Performed task q t rest false s' t'
        ∧ GivesBack (bitAt f.mod.toNat 4) (t.hole f.b.toNat) (t'.hole f.b.toNat) ∧ s'.mem = s2.mem ∧ s'.clusters = s2.clusters)
    ∧ (∀ (desc : List Byte) off o0 o1 o2 i j k, i < descBox desc 0 → j < descBox desc 1 → k < descBox desc 2 →
        let e := descE desc
        let at' := (k * descBox desc 1 + j) * descBox desc 0 + i
        let c0 := signedOf 32 (o0 % 2 ^ 32) + (i : Int)
        let c1 := signedOf 32 (o1 % 2 ^ 32) + (j : Int)
        let c2 := signedOf 32 (o2 % 2 ^ 32) + (k : Int)
        let within (c : Int) (n : Nat) : Bool := decide (0 ≤ c ∧ c < (descField desc (8 + 4 * n) 4 : Nat))
        (windowElems desc off (o0 % 2 ^ 32) (o1 % 2 ^ 32) (o2 % 2 ^ 32))[at']? = some (within c0 0 && within c1 1 && within c2 2,
          signedOf 64 (descField desc 0 8) + c0 * e + c1 * signedOf 64 (descField desc 24 8) + c2 * signedOf 64 (descField desc 32 8),
          off + at' * e))
    ∧ ∀ s task q t c rest f ix bs s1 s2, CopyHead task q t c rest s → decode c.word = .cpyg f → f.d.toNat < t.holes.length →
        let n := c.c % 2 ^ 32
        let r : Nat := f.imm.toNat % 2 ^ 16
        0 < n → 0 < r → BytesRead (c.acc t) [(signedOf 64 c.b, 4 * n)] s ix s1 → ix.length = 4 * n →
        let row (k : Nat) : Nat := ofLE ((ix.drop (4 * k)).take 4)
        let some' := (List.range n).filter (fun k => decide (row k < c.c / 2 ^ 32))
        BytesRead (c.acc t) (some'.map (fun k => (signedOf 64 c.a + (row k : Int) * (r : Int), r))) s1 bs s2 → bs.length = r * some'.length →
      ∃ s' t', exec (.copyCommandPerformed task q) s = .next s'
        ∧ Performed task q t rest (decide (∃ k, k < n ∧ c.c / 2 ^ 32 ≤ row k)) s' t'
        ∧ (∀ m k b, some'[m]? = some k → b < r → Sparse.get 0 (t'.hole f.d.toNat).data (placeIn f (k * r + b)) = bs.getD (m * r + b) 0)
        ∧ (∀ k b, k < n → c.c / 2 ^ 32 ≤ row k → b < r → Sparse.get 0 (t'.hole f.d.toNat).data (placeIn f (k * r + b)) = 0)
        ∧ (t'.hole f.d.toNat).state = filledState (t.hole f.d.toNat) ∧ s'.mem = s2.mem)
  ∧ (
    (∀ s task q t c rest f, CopyHead task q t c rest s → decode c.word = .cpym f → c.c ≠ 0 → s.posteFor t.entry.ctx (BitVec.ofNat 64 c.a) = none →
        dieOfCore t.coreD < s.dies.length → (s.die (dieOfCore t.coreD)).poste.length < 32 → s.nextCpym (dieOfCore t.coreD) (t, q, c) = true →
      ∃ s' t', exec (.multicastPark task q) s = .next s' ∧ Performed task q t rest false s' t'
        ∧ (s'.die (dieOfCore t.coreD)).poste = (s.die (dieOfCore t.coreD)).poste ++
            [{ ctx := t.entry.ctx, key := BitVec.ofNat 64 c.a, receivers := c.c,
               data := (t.hole f.b.toNat).read (f.imm.toNat / 2 ^ 16) (f.imm.toNat % 2 ^ 13) }])
    ∧ (∀ s task q t c rest f d p, CopyHead task q t c rest s → decode c.word = .cpyd f →
        s.posteFor t.entry.ctx (BitVec.ofNat 64 c.a) = some (d, p) →
        p.data.length = f.imm.toNat % 2 ^ 13 → f.d.toNat < t.holes.length →
      ∃ s' t', exec (.multicastDrain task q) s = .next s' ∧ Performed task q t rest false s' t'
        ∧ (t'.hole f.d.toNat).gather (holeOffsets f (f.imm.toNat / 2 ^ 16) (f.imm.toNat % 2 ^ 13)) = p.data
        ∧ (p.receivers = 1 → (s'.die d).poste.length < (s.die d).poste.length))
    ∧ (∀ s task q t c rest st, CopyHead task q t c rest s → c.stall = some st → st.limit ≠ 0 →
        st.limit ≤ (s.cycle t.cluster + 2 ^ 64 - st.since) % 2 ^ 64 → t.u.ag.opened.err = none →
        ((∃ f, decode c.word = .cpym f ∧ c.c ≠ 0 ∧ ((s.posteFor t.entry.ctx (BitVec.ofNat 64 c.a)).isSome = true ∨ 32 ≤ (s.die (dieOfCore t.coreD)).poste.length))
          ∨ (∃ f, decode c.word = .cpyd f ∧ s.posteFor t.entry.ctx (BitVec.ofNat 64 c.a) = none)) →
      ∃ s' t', exec (.holeStall (.queue task q)) s = .next s' ∧ s'.task? task = some t' ∧ (t'.copyq.getD q []).length = rest.length
        ∧ t'.u.ag.opened.err = some { cause := 20, ord := c.ord, batch := c.batch, addr := none } ∧ s'.mem = s.mem)
    ∧ (∀ s core g gs, (s.core core).collector = g :: gs → (∀ x ∈ g :: gs, x.parked = none) →
        (gs.length < 255 ∧ (s.cycle (clusterOf core) + 2 ^ 64 - g.entered) % 2 ^ 64 < 64 → exec (.collectorWindow core) s = .next s)
        ∧ (255 ≤ gs.length ∨ 64 ≤ (s.cycle (clusterOf core) + 2 ^ 64 - g.entered) % 2 ^ 64 → (∀ x ∈ g :: gs, x.write = true) →
            exec (.collectorWindow core) s = .next ((g :: gs).foldl State.runGather (s.modCore core (fun c => { c with collector := [] })))))
    ∧ (∀ s g t pa, s.task? g.task = some t → g.pa = some pa → g.write = true → g.bytes ≤ 8 → L1Sound s t.cluster →
        let a : Acc := { Acc.ofTask t none with strand := g.strand, checked := true, engine := true }
        let seg : Seg := { va := g.ea, pa := pa, n := g.bytes, watched := g.watched }
        s.firstRace a true [seg] = none → s.filtering a seg = false →
      ∃ s1, s.runGather g = s1.modAgent ⟨g.task, some g.thread⟩ (fun x => x.performed g.batch none false) ∧ s1.tasks = s.tasks
        ∧ (∀ k, k < g.bytes → seen s1 t.cluster (pa + k) = BitVec.ofNat 8 (g.value / 256 ^ k))
        ∧ ∀ b, b < pa ∨ pa + g.bytes ≤ b → seen s1 t.cluster b = seen s t.cluster b)
    ∧ (∀ s core g t pa bs s1, (s.core core).collector = [g] → 64 ≤ (s.cycle (clusterOf core) + 2 ^ 64 - g.entered) % 2 ^ 64 →
        s.task? g.task = some t → t.helpersOf [g.thread] = [] → g.pa = some pa → g.write = false → g.parked = none →
        (s.modCore core (fun c => { c with collector := [] })).readSegs
          { Acc.ofTask t none with strand := g.strand, checked := true, engine := true }
          [{ va := g.ea, pa := pa, n := g.bytes, watched := g.watched }] = (.ok bs, s1) →
        exec (.collectorWindow core) s = .next ((s1.modTask g.task (fun t' => t'.setRegs (some g.thread) g.dest (g.bytes / 4) (ofLE bs))).retire
          ⟨g.task, some g.thread⟩ .next (decide (0 < (t.thread g.thread).ag.block.left)) []))
    ∧ (∀ s core, (∀ g ∈ (s.core core).collector, g.parked.isSome = true) → exec (.collectorWindow core) s = .next s)
    ∧ (∀ (mk : Fields → Instr) f s w t st, mk ∈ [Instr.ldh, .sth, .hwait, .hset] →
        decode (s.insnAt t (t.agent w.thread).pc.toNat) = mk f →
        Turn (mk f) f w t { s with cur := { task := w.task, uniform := w.thread.isNone, threads := w.thread.toList } } → HoleWaits (mk f) f w t →
        t.resident = true → (t.agent w.thread).stall = some st → (t.agent w.thread).waiting = true → (w.thread = none → t.handler = none) →
        st.limit ≠ 0 → st.limit ≤ (s.cycle t.cluster + 2 ^ 64 - st.since) % 2 ^ 64 →
      exec (.holeStall (.agent w.task w.thread)) s
        = .next (s.takeTrap w (t.agent w.thread).pc.toNat ((encode (mk f)).getD 0) { cause := cHOLE_STALL }))
    ∧ ∀ s task th t st, s.task? task = some t → (t.agent th).stall = some st →
        (st.limit = 0 ∨ (s.cycle t.cluster + 2 ^ 64 - st.since) % 2 ^ 64 < st.limit) → exec (.holeStall (.agent task th)) s = .next s)

/-! ### Space 0x20: matrices (07 R154 to R184) -/

/-- R158 to R161, R165 to R169, R173, R178, R181 to R183: a matrix instruction with valid shapes, ranges and format word captures what it needs and
enters q4. R162, R184: TSTAT, once q4 is empty, writes the tile's shape and status and the next ordinal, or traps with the fault record, which stands
until the handler is entered. -/
def Obligations.MatrixQueueAndStatus : Prop :=
  (
    (∀ f id t s, Turn (.tcfg f) f ⟨id, none⟩ t s → t.q4.length < 16 →
      let acc := bitAt f.mod.toNat 7
      let cfg : TileCfg := { rows := f.imm.toNat % 32 + 1, cols := f.imm.toNat / 32 % 64 + 1, width := 2 ^ (f.imm.toNat / 2 ^ 11 % 4),
                             ovt := acc && (if field f.mod.toNat 6 5 = 0 then false else if field f.mod.toNat 6 5 = 1 then true
                                            else t.modes.toNat.testBit 1) }
      cfg.ok acc = true →
      ∃ s', exec (.tcfg f) s = .next s' ∧ MatrixQueued (.tcfg f) id t s { cfgD := cfg } false t.holes s'
        ∧ ∃ t', s'.task? id = some t' ∧ cfgOf t' acc f.d = cfg)
    ∧ (∀ (rel : Bool) f id t s, Turn (if rel then .trel f else .tzero f) f ⟨id, none⟩ t s → t.q4.length < 16 →
      ∃ s', exec (if rel then .trel f else .tzero f) s = .next s'
        ∧ MatrixQueued (if rel then .trel f else .tzero f) id t s { cfgD := cfgOf t (bitAt f.mod.toNat 7) f.d } false t.holes s')
    ∧ (∀ f id t s, Turn (.tld f) f ⟨id, none⟩ t s → t.q4.length < 16 →
      let cfg := cfgOf t (bitAt f.mod.toNat 7) f.d
      let mem := if bitAt f.mod.toNat 6 then 0 else valA (.tld f) f ⟨id, none⟩ t
      TileReady f t cfg f.a mem false →
      ∃ s', exec (.tld f) s = .next s' ∧ MatrixQueued (.tld f) id t s
        { cfgD := cfg, fw := wordOf f t, maddr := mem, saddr := if xField f = 0 then 0 else t.reg none (xField f) } false
        (tileHoles f t f.a false) s')
    ∧ (∀ f id t s, Turn (.tst f) f ⟨id, none⟩ t s → t.q4.length < 16 →
      let cfg := cfgOf t (bitAt f.mod.toNat 7) f.a
      let mem := if bitAt f.mod.toNat 6 then 0 else valD (.tst f) f ⟨id, none⟩ t
      TileReady f t cfg f.d mem true →
      ∃ s', exec (.tst f) s = .next s' ∧ MatrixQueued (.tst f) id t s
        { cfgA := cfg, fw := wordOf f t, maddr := mem, saddr := if xField f = 0 then 0 else t.reg none (xField f) } false
        (tileHoles f t f.d true) s')
    ∧ (∀ (sparse : Bool) f id t s, let i : Instr := if sparse then .mmas f else .mma f
      Turn i f ⟨id, none⟩ t s → t.q4.length < 16 →
      fwValid true (wordOf f t) = true → fwRnd (wordOf f t) = 0 → fwSat (wordOf f t) = false →
      mmaShapeOk f (fwFmt (wordOf f t)) (cfgOf t true f.d) (cfgOf t false f.a) (cfgOf t false f.b) (cfgOf t true f.c) = true →
      ∃ s', exec i s = .next s' ∧ MatrixQueued i id t s
        { cfgD := cfgOf t true f.d, cfgA := cfgOf t false f.a, cfgB := cfgOf t false f.b, cfgC := cfgOf t true f.c, fw := wordOf f t,
          bitmaps := if sparse then (List.range 8).map (fun k => BitVec.ofNat 64 (t.reg none (xField f + k))) else [] } false t.holes s')
    ∧ (∀ f id t s, Turn (.tcvt f) f ⟨id, none⟩ t s → t.q4.length < 16 → fwValid false (wordOf f t) = true →
      (cfgOf t false f.d).width = mmaWidth (fwFmt (wordOf f t)) → (cfgOf t false f.d).rows = (cfgOf t true f.a).rows →
      (cfgOf t false f.d).cols = (cfgOf t true f.a).cols →
      ∃ s', exec (.tcvt f) s = .next s' ∧ MatrixQueued (.tcvt f) id t s
        { cfgD := cfgOf t false f.d, cfgA := cfgOf t true f.a, fw := wordOf f t } (fwRnd (wordOf f t) == 5) t.holes s')
    ∧ (∀ f id t s, Turn (.accrd f) f ⟨id, none⟩ t s → t.q4.length < 16 →
      let mem := if bitAt f.mod.toNat 6 then 0 else valD (.accrd f) f ⟨id, none⟩ t
      AccReady f t (cfgOf t true f.a) f.d mem true →
      ∃ s', exec (.accrd f) s = .next s' ∧ MatrixQueued (.accrd f) id t s { cfgA := cfgOf t true f.a, fw := wordOf f t, maddr := mem }
        (fwRnd (wordOf f t) == 5) (tileHoles f t f.d true) s')
    ∧ (∀ f id t s, Turn (.accwr f) f ⟨id, none⟩ t s → t.q4.length < 16 →
      let mem := if bitAt f.mod.toNat 6 then 0 else valA (.accwr f) f ⟨id, none⟩ t
      AccReady f t (cfgOf t true f.d) f.a mem false →
      ∃ s', exec (.accwr f) s = .next s' ∧ MatrixQueued (.accwr f) id t s { cfgD := cfgOf t true f.d, fw := wordOf f t, maddr := mem }
        false (tileHoles f t f.a false) s'))
  ∧ (
    (∀ f id t s, Turn (.tstat f) f ⟨id, none⟩ t s → t.q4 = [] → t.fault = none →
      let acc := bitAt f.mod.toNat 7
      let x := t.tile acc f.a.toNat
      let bit (b : Bool) : Nat := if b then 1 else 0
      exec (.tstat f) s = .next (retired (.tstat f) f ⟨id, none⟩ t (putD (.tstat f) f ⟨id, none⟩
        ((x.next.rows - 1) + 2 ^ 5 * (x.next.cols - 1) + 2 ^ 11 * Nat.log2 x.next.width + 2 ^ 13 * bit acc + 2 ^ 14 * bit x.valid
          + 2 ^ 15 * bit x.dirty + 2 ^ 16 * bit x.accOvf + 2 ^ 17 * bit x.poison + 2 ^ 18 * bit x.next.ovt + 2 ^ 32 * t.u.mcmdOrd.toNat) s)))
    ∧ ∀ f id t s e, Turn (.tstat f) f ⟨id, none⟩ t s → t.q4 = [] → t.fault = some e →
      exec (.tstat f) s = .next (s.takeTrap ⟨id, none⟩ t.u.ag.pc.toNat ((encode (.tstat f)).getD 0)
        { cause := e.cause, addr := e.addr, ident := e.ord, deferred := true, later := e.later, keep := true, matrix := true }))

/-- R156, R159, R164, R167, R168, R173 to R179: what the engine does with the head of q4. TCFG and TREL leave the tile not VALID, TZERO leaves zeros.
MMA and MMAS write every element as its products, those of MMAS that its bitmaps take, added in the format's order, and leave their destination VALID
and DIRTY with the overflow and poison of their sources, ACC_OVF setting no POISON (log entry 46); an element without a product is the encoding of c's
value, a NaN the default NaN (log entry 71). A head that has waited 8,192 cycles enters the reservation table when the arbiter chooses it. R169, R171,
R172, R181 to R183: what TLD, TST, TCVT, ACCRD and ACCWR move when the engine performs them without a fault. TLD.v and TST.all make one attempt at a
time: an odd VERSION begins the next one, or is TILE_TORN at the 65th; an even one lets TLD.v read the object, whose shape must be the tile's, and
lets TST.all write it whole, with VERSION two higher. -/
def Obligations.MatrixEngine : Prop :=
  (
    (∀ s task t c rest f, MatrixHead task t c rest s → decode c.word = .tzero f →
      ∃ s' t', exec (.matrixCommandPerformed task) s = .next s' ∧ s'.task? task = some t' ∧ t'.q4.length = rest.length
        ∧ (let x := t'.tile (bitAt f.mod.toNat 7) f.d.toNat
           x.valid = true ∧ x.dirty = true ∧ x.accOvf = false ∧ x.poison = false
           ∧ (∀ r j, x.elem (bitAt f.mod.toNat 7) c.cfgD.width r j = 0) ∧ ∀ r g, x.scale r g = 127) ∧ t'.fault = t.fault ∧ s'.mem = s.mem)
    ∧ (∀ s task t c rest f, MatrixHead task t c rest s → (decode c.word = .tcfg f ∨ decode c.word = .trel f) →
      ∃ s' t', exec (.matrixCommandPerformed task) s = .next s' ∧ s'.task? task = some t' ∧ t'.q4.length = rest.length
        ∧ (let x := t'.tile (bitAt f.mod.toNat 7) f.d.toNat
           x.valid = false ∧ x.dirty = false ∧ x.accOvf = false ∧ x.poison = false) ∧ s'.mem = s.mem)
    ∧ (∀ s task t c rest f (sparse : Bool), MatrixHead task t c rest s → decode c.word = (if sparse then .mmas f else .mma f) → c.step = 0 →
        c.cfgD.ok true = true →
        let k := if f.a = 0 ∧ f.b = 0 then 0 else if f.a = 0 then c.cfgB.cols else c.cfgA.cols
        let ty := mmaAcc (fwFmt c.fw)
        let taken (i j q : Nat) : Bool := !sparse || ((c.bitmaps.getD (i / 8) 0).getLsbD q && (c.bitmaps.getD (4 + j / 8) 0).getLsbD q)
        let result (i j : Nat) : FVal × Bool := mmaSum (fwFmt c.fw) (ty.decode (accOf t f.c c.cfgD.width i j))
          (((List.range k).filter (taken i j)).map (fun q => (q, (multOf t c.fw f.a false i q).mul (multOf t c.fw f.b true j q))))
          (fun g => mmaScale c.fw (scaleOf t f.a i g) (scaleOf t f.b j g))
        let anyOver : Prop := ∃ i j, i < c.cfgD.rows ∧ j < c.cfgD.cols ∧ (result i j).2 = true
      ∃ s' t', exec (.matrixCommandPerformed task) s = .next s' ∧ s'.task? task = some t' ∧ t'.q4.length = rest.length
        ∧ (let x := t'.tile true f.d.toNat
           x.valid = true ∧ x.dirty = true
           ∧ (∀ i j, i < c.cfgD.rows → j < c.cfgD.cols → Element x true c.cfgD.width i j (ty.encode (result i j).1))
           ∧ (x.accOvf = true ↔ (f.c ≠ 0 ∧ (t.tile true f.c.toNat).accOvf = true) ∨ anyOver)
           ∧ (x.poison = true ↔ (f.a ≠ 0 ∧ (t.tile false f.a.toNat).poison = true) ∨ (f.b ≠ 0 ∧ (t.tile false f.b.toNat).poison = true)
                ∨ (f.c ≠ 0 ∧ (t.tile true f.c.toNat).poison = true)))
        ∧ (anyOver → c.cfgD.ovt = true → t.fault = none → t'.fault = some { cause := 17, ord := c.ord, addr := none })
        ∧ (¬anyOver ∨ c.cfgD.ovt = false → t'.fault = t.fault) ∧ s'.mem = s.mem)
    ∧ ∀ s task t c, s.task? task = some t → s.q4Head t = some c → s.agedHead t = true → s.arbiterChoice t.cluster = some t →
      ∃ s', exec (.matrixHeadAging task) s = .next s' ∧ (s'.cluster t.cluster).table = (s.cluster t.cluster).table ++ [(task, c.ord)]
        ∧ s'.mem = s.mem)
  ∧ (
    (∀ s task t c rest f bs, MatrixHead task t c rest s → decode c.word = .tld f → bitAt f.mod.toNat 5 = false →
        let acc := bitAt f.mod.toNat 7
        let row := c.cfgD.rowBytes
        let stride := if f.imm.toNat % 2 ^ 20 = 0 then row else f.imm.toNat % 2 ^ 20
        let side := if bitAt f.mod.toNat 4 then c.cfgD.rows * c.cfgD.blocks else 0
        c.cfgD.ok acc = true →
        (bitAt f.mod.toNat 6 = true → bs = (List.range c.cfgD.rows).flatMap (fun r => (t.hole f.a.toNat).read (r * stride) row)
            ++ (t.hole f.a.toNat).read (c.cfgD.rows * stride) side) →
        (bitAt f.mod.toNat 6 = false → ∃ s1, BytesRead (c.matAcc t f false) ((List.range c.cfgD.rows).map (fun r =>
            (signedOf 64 c.maddr + (r * stride : Nat), row)) ++ (if bitAt f.mod.toNat 4 then [(signedOf 64 c.saddr, side)] else [])) s bs s1) →
        bs.length = c.cfgD.rows * row + side →
      ∃ s' t', exec (.matrixCommandPerformed task) s = .next s' ∧ s'.task? task = some t' ∧ t'.q4.length = rest.length ∧ t'.fault = t.fault
        ∧ (let x := t'.tile acc f.d.toNat
           x.valid = true ∧ x.dirty = true ∧ x.poison = false ∧ x.accOvf = (t.tile acc f.d.toNat).accOvf
           ∧ (∀ r k, r < c.cfgD.rows → k < row → Sparse.get 0 x.data ((if acc then 256 else 64) * r + k) = bs.getD (r * row + k) 0)
           ∧ (∀ r g, r < c.cfgD.rows → g < c.cfgD.blocks → acc = false →
                x.scale r g = if bitAt f.mod.toNat 4 then (bs.getD (c.cfgD.rows * row + r * c.cfgD.blocks + g) 0).toNat else 127))
        ∧ (bitAt f.mod.toNat 6 = true → f.a.toNat < t.holes.length → GivesBack false (t.hole f.a.toNat) (t'.hole f.a.toNat)))
    ∧ (∀ s task t c rest f, MatrixHead task t c rest s → decode c.word = .tst f → bitAt f.mod.toNat 5 = false →
        let acc := bitAt f.mod.toNat 7
        let row := c.cfgA.rowBytes
        let stride := if f.imm.toNat % 2 ^ 20 = 0 then row else f.imm.toNat % 2 ^ 20
        let x := t.tile acc f.a.toNat
        let el (r k : Nat) : Byte := if x.valid then Sparse.get 0 x.data ((if acc then 256 else 64) * r + k) else 0
        let bs := (List.range c.cfgA.rows).flatMap (fun r => (List.range row).map (el r))
        let side := if bitAt f.mod.toNat 4 then (List.range c.cfgA.rows).flatMap (fun r => (List.range c.cfgA.blocks).map (fun g =>
          BitVec.ofNat 8 (x.scale r g))) else []
        c.cfgA.ok acc = true → row ≤ stride →
        (bitAt f.mod.toNat 6 = true → f.d.toNat < t.holes.length →
          ∃ s' t', exec (.matrixCommandPerformed task) s = .next s' ∧ s'.task? task = some t' ∧ t'.q4.length = rest.length ∧ t'.fault = t.fault
            ∧ (∀ r k, r < c.cfgA.rows → k < row → Sparse.get 0 (t'.hole f.d.toNat).data (r * stride + k) = el r k)
            ∧ (∀ k, k < side.length → Sparse.get 0 (t'.hole f.d.toNat).data (c.cfgA.rows * stride + k) = side.getD k 0)
            ∧ (t'.hole f.d.toNat).state = filledState (t.hole f.d.toNat)
            ∧ (t'.tile acc f.a.toNat).dirty = false ∧ s'.mem = s.mem)
        ∧ ∀ ws s1 s2, bitAt f.mod.toNat 6 = false →
          s.mapAll (c.matAcc t f true) { w := true } ((List.range c.cfgA.rows).map (fun r => (signedOf 64 c.maddr + (r * stride : Nat), row))
            ++ (if bitAt f.mod.toNat 4 then [(signedOf 64 c.saddr, side.length)] else [])) = (.ok ws, s1) →
          (if bitAt f.mod.toNat 0 then s1.releaseAt t.cluster (field f.mod.toNat 3 1) else s1).writeSegs (c.matAcc t f true) ws (bs ++ side)
            = .ok s2 →
          ∃ s' t', exec (.matrixCommandPerformed task) s = .next s' ∧ s'.task? task = some t' ∧ t'.q4.length = rest.length ∧ t'.fault = t.fault
            ∧ (t'.tile acc f.a.toNat).dirty = false ∧ s'.mem = s2.mem)
    ∧ (∀ s task t c rest f r, MatrixHead task t c rest s → decode c.word = .tcvt f → s.tree? t.entry.tree = some r → c.cfgD.ok false = true →
        c.cfgD.cols = c.cfgA.cols →
        let y := t.tile true f.a.toNat
        let ty : FpType := if c.cfgA.width = 8 then .fp64 else .fp32
        let value (i j : Nat) : FVal := ty.decode (y.elem true c.cfgA.width i j)
        let scale (i : Nat) : Nat := if fwScale c.fw = 1 then scaleFor (amax ((List.range c.cfgA.cols).map (value i))) (fwB8 c.fw) else 127
      ∃ s' t', exec (.matrixCommandPerformed task) s = .next s' ∧ s'.task? task = some t' ∧ t'.q4.length = rest.length ∧ t'.fault = t.fault
        ∧ (let x := t'.tile false f.d.toNat
           x.valid = true ∧ x.dirty = true ∧ x.poison = y.poison
           ∧ (∀ i j, i < c.cfgA.rows → j < c.cfgA.cols → Element x false c.cfgD.width i j (wordRound c.fw
                ((value i j).scale (127 - (scale i : Int))) (matrixRandom r.seed.toNat t.entry.ped c.conv (32 * i + j))))
           ∧ ∀ i, i < c.cfgA.rows → x.scale i 0 = scale i % 256 ∧ x.scale i 1 = 127) ∧ s'.mem = s.mem)
    ∧ (∀ s task t c rest f r, MatrixHead task t c rest s → decode c.word = .accrd f → s.tree? t.entry.tree = some r →
        let w := mmaWidth (fwFmt c.fw)
        let row := c.cfgA.cols * w
        let stride := if f.imm.toNat % 2 ^ 20 = 0 then row else f.imm.toNat % 2 ^ 20
        let y := t.tile true f.a.toNat
        let ty : FpType := if c.cfgA.width = 8 then .fp64 else .fp32
        let value (i j : Nat) : List Byte := leBytes w (wordRound c.fw (ty.decode (y.elem true c.cfgA.width i j))
          (matrixRandom r.seed.toNat t.entry.ped c.conv (32 * i + j)))
        let left (x : Tile) : Prop := if bitAt f.mod.toNat 5
          then x.valid = true ∧ x.dirty = true ∧ x.accOvf = false ∧ ∀ i j, x.elem true c.cfgA.width i j = 0
          else x.valid = y.valid ∧ x.dirty = false ∧ x.accOvf = y.accOvf ∧ x.data = y.data
        row ≤ stride →
        (bitAt f.mod.toNat 6 = true → f.d.toNat < t.holes.length →
          ∃ s' t', exec (.matrixCommandPerformed task) s = .next s' ∧ s'.task? task = some t' ∧ t'.q4.length = rest.length ∧ t'.fault = t.fault
            ∧ (∀ i j k, i < c.cfgA.rows → j < c.cfgA.cols → k < w →
                Sparse.get 0 (t'.hole f.d.toNat).data (i * stride + j * w + k) = (value i j).getD k 0)
            ∧ (t'.hole f.d.toNat).state = filledState (t.hole f.d.toNat) ∧ left (t'.tile true f.a.toNat) ∧ s'.mem = s.mem)
        ∧ ∀ ws s1 s2, bitAt f.mod.toNat 6 = false →
          s.mapAll (c.matAcc t f true) { w := true } ((List.range c.cfgA.rows).map (fun i => (signedOf 64 c.maddr + (i * stride : Nat), row)))
            = (.ok ws, s1) →
          (if bitAt f.mod.toNat 0 then s1.releaseAt t.cluster (field f.mod.toNat 3 1) else s1).writeSegs (c.matAcc t f true) ws
            ((List.range c.cfgA.rows).flatMap (fun i => (List.range c.cfgA.cols).flatMap (value i))) = .ok s2 →
          ∃ s' t', exec (.matrixCommandPerformed task) s = .next s' ∧ s'.task? task = some t' ∧ t'.q4.length = rest.length ∧ t'.fault = t.fault
            ∧ left (t'.tile true f.a.toNat) ∧ s'.mem = s2.mem)
    ∧ (∀ s task t c rest f h s1, MatrixHead task t c rest s → decode c.word = .tld f → bitAt f.mod.toNat 5 = true → bitAt f.mod.toNat 6 = false →
        let acc := bitAt f.mod.toNat 7
        let a : Acc := { c.matAcc t f false with checked := false, scope := 4, order := 0 }
        let base := signedOf 64 c.maddr
        let n := descField h 8 1 * descField h 9 1 * descField h 10 1
        let side := if bitAt (descField h 11 1) 0 then descField h 8 1 * ((descField h 9 1 + 31) / 32) else 0
        let Faults (cause : Nat) : Prop := ∃ s' t', exec (.matrixCommandPerformed task) s = .next s' ∧ s'.task? task = some t'
          ∧ t'.q4.length = rest.length ∧ t'.fault = some { cause := cause, ord := c.ord, addr := some c.maddr }
          ∧ (t'.tile acc f.d.toNat).poison = true
        c.cfgD.ok acc = true → s.homeRead a [(base, 8), (base + 12, 4)] = (.ok h, s1) → h.length = 12 →
        (ofLE (h.take 8) % 2 = 1 →
          (c.step < 64 → ∃ s' t', exec (.matrixCommandPerformed task) s = .next s' ∧ s'.task? task = some t'
            ∧ t'.q4 = { c with step := c.step + 1 } :: rest ∧ t'.fault = t.fault ∧ t'.tile acc f.d.toNat = t.tile acc f.d.toNat)
          ∧ (64 ≤ c.step → t.fault = none → Faults cTILE_TORN))
        ∧ (ofLE (h.take 8) % 2 = 0 → ∀ bs s2,
            (s1.acquireAt t.cluster (field f.mod.toNat 3 1)).homeRead a [(base + 64, n + side)] = (.ok bs, s2) → bs.length = n + side →
            (descField h 8 1 ≠ c.cfgD.rows ∨ descField h 9 1 ≠ c.cfgD.cols ∨ descField h 10 1 ≠ c.cfgD.width → t.fault = none → Faults cTILE_SHAPE)
            ∧ (descField h 8 1 = c.cfgD.rows → descField h 9 1 = c.cfgD.cols → descField h 10 1 = c.cfgD.width →
              ∃ s' t', exec (.matrixCommandPerformed task) s = .next s' ∧ s'.task? task = some t' ∧ t'.q4.length = rest.length ∧ t'.fault = t.fault
                ∧ (let x := t'.tile acc f.d.toNat
                   x.valid = true ∧ x.dirty = true ∧ x.poison = false ∧ x.accOvf = (t.tile acc f.d.toNat).accOvf
                   ∧ (∀ r k, r < c.cfgD.rows → k < c.cfgD.rowBytes →
                        Sparse.get 0 x.data ((if acc then 256 else 64) * r + k) = bs.getD (r * c.cfgD.rowBytes + k) 0)
                   ∧ ∀ r g, r < c.cfgD.rows → g < c.cfgD.blocks → acc = false →
                        x.scale r g = if bitAt (descField h 11 1) 0 then (bs.getD (n + r * c.cfgD.blocks + g) 0).toNat else 127))))
    ∧ (∀ s task t c rest f, MatrixHead task t c rest s → decode c.word = .tst f → bitAt f.mod.toNat 5 = true → bitAt f.mod.toNat 6 = false →
        let acc := bitAt f.mod.toNat 7
        let a : Acc := { c.matAcc t f true with checked := false, scope := 4, order := 0 }
        let base := signedOf 64 c.maddr
        let x := t.tile acc f.a.toNat
        let el (r k : Nat) : Byte := if x.valid then Sparse.get 0 x.data ((if acc then 256 else 64) * r + k) else 0
        let body := (List.range c.cfgA.rows).flatMap (fun r => (List.range c.cfgA.rowBytes).map (el r))
          ++ (if bitAt f.mod.toNat 4 then (List.range c.cfgA.rows).flatMap (fun r => (List.range c.cfgA.blocks).map (fun g =>
            BitVec.ofNat 8 (x.scale r g))) else [])
        c.cfgA.ok acc = true → ∀ version s1, s.mapAll a { r := true, w := true } [(base, 8)] = (.ok version, s1) →
        (∀ va s2, s1.mapAll a { w := true } [(base, 64 + body.length)] = (.error (.fault va), s2) → t.fault = none →
          ∃ s' t', exec (.matrixCommandPerformed task) s = .next s' ∧ s'.task? task = some t' ∧ t'.q4.length = rest.length
            ∧ t'.fault = some { cause := cMEM_FAULT, ord := c.ord, addr := some va } ∧ s'.mem = s.mem)
        ∧ ∀ segs s2 h s3, s1.mapAll a { w := true } [(base, 64 + body.length)] = (.ok segs, s2) →
          (s2.homeSegs segs).readSegs a version = (.ok h, s3) →
          (ofLE h % 2 = 1 →
            (c.step < 64 → ∃ s' t', exec (.matrixCommandPerformed task) s = .next s' ∧ s'.task? task = some t'
              ∧ t'.q4 = { c with step := c.step + 1 } :: rest ∧ t'.fault = t.fault ∧ s'.mem = s3.mem)
            ∧ (64 ≤ c.step → t.fault = none → ∃ s' t', exec (.matrixCommandPerformed task) s = .next s' ∧ s'.task? task = some t'
                ∧ t'.q4.length = rest.length ∧ t'.fault = some { cause := cTILE_TORN, ord := c.ord, addr := some c.maddr } ∧ s'.mem = s3.mem))
          ∧ (ofLE h % 2 = 0 → ∀ s4,
              ((s3.releaseAt t.cluster (field f.mod.toNat 3 1)).acquireAt t.cluster (field f.mod.toNat 3 1)).writeSegs a segs
                (leBytes 8 (ofLE h + 2) ++ leBytes 4 c.fw ++ [BitVec.ofNat 8 c.cfgA.rows, BitVec.ofNat 8 c.cfgA.cols, BitVec.ofNat 8 c.cfgA.width,
                  if bitAt f.mod.toNat 4 then 1 else 0] ++ List.replicate 48 0 ++ body) = .ok s4 →
              ∃ s' t', exec (.matrixCommandPerformed task) s = .next s' ∧ s'.task? task = some t' ∧ t'.q4.length = rest.length ∧ t'.fault = t.fault
                ∧ (t'.tile acc f.a.toNat).dirty = false ∧ s'.mem = s4.mem))
    ∧ ∀ s task t c rest f bs, MatrixHead task t c rest s → decode c.word = .accwr f → c.cfgD.ok true = true →
        let w := mmaWidth (fwFmt c.fw)
        let row := c.cfgD.cols * w
        let stride := if f.imm.toNat % 2 ^ 20 = 0 then row else f.imm.toNat % 2 ^ 20
        let ty : FpType := if c.cfgD.width = 8 then .fp64 else .fp32
        (bitAt f.mod.toNat 6 = true → bs = (List.range c.cfgD.rows).flatMap (fun r => (t.hole f.a.toNat).read (r * stride) row)) →
        (bitAt f.mod.toNat 6 = false → ∃ s1, BytesRead (c.matAcc t f false)
            ((List.range c.cfgD.rows).map (fun r => (signedOf 64 c.maddr + (r * stride : Nat), row))) s bs s1) →
        bs.length = c.cfgD.rows * row →
      ∃ s' t', exec (.matrixCommandPerformed task) s = .next s' ∧ s'.task? task = some t' ∧ t'.q4.length = rest.length ∧ t'.fault = t.fault
        ∧ (let x := t'.tile true f.d.toNat
           x.valid = true ∧ x.dirty = true ∧ x.accOvf = false ∧ x.poison = false
           ∧ ∀ i j, i < c.cfgD.rows → j < c.cfgD.cols → Element x true c.cfgD.width i j (ty.encode (roundTo ty.fmt
               ((fwType c.fw).decode (ofLE ((bs.drop (i * row + j * w)).take w))) (RMode.ofCode (fwRnd c.fw)) 0 (fwSat c.fw))))
        ∧ (bitAt f.mod.toNat 6 = true → f.a.toNat < t.holes.length → GivesBack false (t.hole f.a.toNat) (t'.hole f.a.toNat)))

/-! ### Space 0x28: tasks (13 R343 to R352) -/

/-- R58, R322, R344, R345: SPAWN creates a child task record, its element, its arguments and its region, and answers the element; SPAWNL creates one
for each lane of the vote mask, with its rank and its lane among the arguments, and answers how many. Either traps at the pedigree's limit. -/
def Obligations.Spawning : Prop :=
  (∀ f id t s r d, Turn (.spawn f) f ⟨id, none⟩ t s → s.tree? t.entry.tree = some r → r.trace = none →
    let rc := valA (.spawn f) f ⟨id, none⟩ t
    let arg := valB (.spawn f) f ⟨id, none⟩ t
    rc < r.ntask → s.recordTainted t.entry.ctx r.code rc = false → s.readRecord t.entry.ctx r.code rc = .ok d → d.sweep = false → (∀ x ∈ d.reducers, x ∈ r.reducers) →
    t.entry.ped.elems.length < 31 → t.u.pedpos.toNat % 1024 + (if t.u.lastUsed then 1 else 0) + 1 ≤ 1024 →
    (s.core t.coreD).deque.length - (s.core t.coreD).spilled < 64 →
    ∃ s' t' e, exec (.spawn f) s = .next s' ∧ s'.task? id = some t' ∧ (s'.core t.coreD).deque = (s.core t.coreD).deque ++ [e]
      ∧ e.id = s.nextId ∧ e.ctx = t.entry.ctx ∧ e.tree = t.entry.tree ∧ e.record = rc ∧ e.rcd = d ∧ e.parent = some id
      ∧ e.groups = f.imm.toNat % 16 + 1 ∧ e.last = (if f.imm.toNat / 16 % 64 = 0 then 32 else f.imm.toNat / 16 % 64)
      ∧ e.ped.elems = t.entry.ped.elems ++ [t.u.pedpos.toNat]
      ∧ e.s = [BitVec.ofNat 64 arg, 0, 0, 0] ∧ e.x = [BitVec.ofNat 32 arg, BitVec.ofNat 32 (arg / 2 ^ 32), 0, 0, 0, 0]
      ∧ (t.u.lo ≤ t.u.hi → t.u.carve ≤ t.u.hi - t.u.lo → e.lo = t.u.hi - t.u.carve ∧ e.hi = t.u.hi ∧ t'.u.hi = t.u.hi - t.u.carve)
      ∧ t'.children = t.children ++ [{ task := s.nextId, elem := t.u.pedpos.toNat }]
      ∧ (f.d ≠ 0 → t'.reg none f.d.toNat = t.u.pedpos.toNat)
      ∧ (t.u.pedpos.toNat % 1024 < 1023 → t'.u.pedpos = t.u.pedpos + 1)
      ∧ (s'.tree? t.entry.tree).map (fun q => q.counter) = some (r.counter + 1))
  ∧ (∀ f id t s r d, Turn (.spawnl f) f ⟨id, none⟩ t s → s.tree? t.entry.tree = some r → r.trace = none →
    let rc := valA (.spawnl f) f ⟨id, none⟩ t
    let arg := valB (.spawnl f) f ⟨id, none⟩ t
    let lanes := bitsOf 32 (t.voteMask f.c.toNat (f.imm.toNat / 16 % 16))
    let n := lanes.length
    f.imm.toNat / 16 % 16 < t.entry.groups →
    rc < r.ntask → s.recordTainted t.entry.ctx r.code rc = false → s.readRecord t.entry.ctx r.code rc = .ok d → d.sweep = false → (∀ x ∈ d.reducers, x ∈ r.reducers) →
    t.entry.ped.elems.length < 31 → t.u.pedpos.toNat % 1024 + (if t.u.lastUsed then 1 else 0) + n ≤ 1024 →
    (s.core t.coreD).deque.length - (s.core t.coreD).spilled + n ≤ 64 →
    ∃ s' t', exec (.spawnl f) s = .next s' ∧ s'.task? id = some t'
      ∧ t'.children = t.children ++ (List.range n).map (fun m => { task := s.nextId + m, elem := t.u.pedpos.toNat + m })
      ∧ (s'.core t.coreD).deque.length = (s.core t.coreD).deque.length + n
      ∧ (∀ m l, lanes[m]? = some l → ∃ e, (s'.core t.coreD).deque[(s.core t.coreD).deque.length + m]? = some e
          ∧ e.id = s.nextId + m ∧ e.ctx = t.entry.ctx ∧ e.tree = t.entry.tree ∧ e.record = rc ∧ e.rcd = d ∧ e.parent = some id
          ∧ e.groups = f.imm.toNat % 16 + 1 ∧ e.last = (if f.imm.toNat / 256 % 64 = 0 then 32 else f.imm.toNat / 256 % 64)
          ∧ e.ped.elems = t.entry.ped.elems ++ [t.u.pedpos.toNat + m]
          ∧ e.s = [BitVec.ofNat 64 arg, BitVec.ofNat 64 m, BitVec.ofNat 64 l, 0]
          ∧ e.x = [BitVec.ofNat 32 arg, BitVec.ofNat 32 (arg / 2 ^ 32), BitVec.ofNat 32 m, BitVec.ofNat 32 l, 0, 0])
      ∧ (f.d ≠ 0 → t'.reg none f.d.toNat = n)
      ∧ (s'.tree? t.entry.tree).map (fun q => q.counter) = some (r.counter + n))
  ∧ (∀ f id t s r d, Turn (.spawn f) f ⟨id, none⟩ t s → s.tree? t.entry.tree = some r → valA (.spawn f) f ⟨id, none⟩ t < r.ntask →
      s.recordTainted t.entry.ctx r.code (valA (.spawn f) f ⟨id, none⟩ t) = false →
      s.readRecord t.entry.ctx r.code (valA (.spawn f) f ⟨id, none⟩ t) = .ok d → d.sweep = false → (∀ x ∈ d.reducers, x ∈ r.reducers) →
      (31 ≤ t.entry.ped.elems.length ∨ 1024 < t.u.pedpos.toNat % 1024 + (if t.u.lastUsed then 1 else 0) + 1) →
      exec (.spawn f) s = .next (s.takeTrap ⟨id, none⟩ t.u.ag.pc.toNat ((encode (.spawn f)).getD 0) { cause := cPEDIGREE_LIMIT }))
  ∧ ∀ f id t s r d, Turn (.spawnl f) f ⟨id, none⟩ t s → s.tree? t.entry.tree = some r → f.imm.toNat / 16 % 16 < t.entry.groups →
      valA (.spawnl f) f ⟨id, none⟩ t < r.ntask →
      s.recordTainted t.entry.ctx r.code (valA (.spawnl f) f ⟨id, none⟩ t) = false →
      s.readRecord t.entry.ctx r.code (valA (.spawnl f) f ⟨id, none⟩ t) = .ok d → d.sweep = false → (∀ x ∈ d.reducers, x ∈ r.reducers) →
      let n := (bitsOf 32 (t.voteMask f.c.toNat (f.imm.toNat / 16 % 16))).length
      0 < n → (31 ≤ t.entry.ped.elems.length ∨ 1024 < t.u.pedpos.toNat % 1024 + (if t.u.lastUsed then 1 else 0) + n) →
      exec (.spawnl f) s = .next (s.takeTrap ⟨id, none⟩ t.u.ag.pc.toNat ((encode (.spawnl f)).getD 0) { cause := cPEDIGREE_LIMIT })

/-- R199, R346: SYNC goes on once every child has exited and been merged: the children are gone, the next sync block begins. In the last sync block it
traps. A merge takes the views of the next child; where the task's own views stand in the staging area they are written there again (log entry 85). -/
def Obligations.Joining : Prop :=
  (∀ f id t s, Turn (.sync f) f ⟨id, none⟩ t s → t.u.pedpos.toNat / 1024 ≠ 63 →
    (∀ c ∈ t.children, c.exited = true ∧ c.bins = []) → t.joined = t.children.length → (∀ u ∈ t.bins, t.dueBins u = false) →
    ∃ s' t', exec (.sync f) s = .next s' ∧ s'.task? id = some t' ∧ t'.children = [] ∧ t'.join = .none ∧ t'.joined = 0
      ∧ t'.u.pedpos.toNat = (t.u.pedpos.toNat / 1024 + 1) * 1024 ∧ t'.u.lastUsed = false ∧ t'.bins = t.bins
      ∧ t'.u.ag.pc.toNat = nextSlot t.u.ag.pc.toNat % 2 ^ 64 ∧ ∀ r, t'.reg none r = t.reg none r)
  ∧ (∀ f id t s, Turn (.sync f) f ⟨id, none⟩ t s → t.u.pedpos.toNat / 1024 = 63 →
      exec (.sync f) s = .next (s.takeTrap ⟨id, none⟩ t.u.ag.pc.toNat ((encode (.sync f)).getD 0) { cause := cPEDIGREE_LIMIT }))
  ∧ ∀ s task t r c vs s1 s2, s.task? task = some t → s.tree? t.entry.tree = some r → t.resident = true → t.join = .sync →
      (t.mergeOrder r.level)[t.joined]? = some c → c.exited = true → t.saving = false → t.waits = none →
      s.chunksTainted t.entry.ctx ((t.views ++ c.views).flatMap (fun v => v.chunks) ++ t.preChunks) = false →
      s.mergeViews t.entry.ctx r.level t.views c.views = .ok (vs, s1) → s1.putPreViews t.entry.ctx r.level vs t.preChunks = .ok s2 →
      exec (.mergeCommand task) s = .next (s2.modTask task (fun t => { t with
        views := vs
        joined := t.joined + 1
        children := t.children.map (fun x => if x.task = c.task then { x with views := [] } else x) }))

/-- R330, R331, R332, R347: ACQUIRE passes with the full allotment and asks for it without, or traps where no cluster could give it; the grant gives
it to the oldest request that fits, with the registers that it adds zero; RELEASE lowers it once what it gives up is idle. -/
def Obligations.Allotments : Prop :=
  (∀ f id t s, Turn (.acquire f) f ⟨id, none⟩ t s → t.allot.full = true →
    exec (.acquire f) s = .next (retired (.acquire f) f ⟨id, none⟩ t s))
  ∧ (∀ f id t s, Turn (.acquire f) f ⟨id, none⟩ t s → t.allot.full = false → s.acquireNever t = true → t.acquiring = false →
      exec (.acquire f) s = .next (s.takeTrap ⟨id, none⟩ t.u.ag.pc.toNat ((encode (.acquire f)).getD 0) { cause := cALLOT_NEVER }))
  ∧ (∀ f id t s, Turn (.acquire f) f ⟨id, none⟩ t s → t.allot.full = false → s.acquireNever t = false →
      (∀ a ∈ (s.cluster t.cluster).acq, a.task ≠ id) →
      ∃ s' t', exec (.acquire f) s = .next s' ∧ s'.task? id = some t' ∧ t'.acquiring = true ∧ t'.u.ag.waiting = true ∧ t'.u.ag.pc = t.u.ag.pc
        ∧ (s'.cluster t.cluster).acq = (s.cluster t.cluster).acq ++ [{ task := id, since := s.cycle t.cluster }])
  ∧ (∀ s cl t r, s.oldestAcquire cl = some t → s.tree? t.entry.tree = some r → t.waits = none → s.acquireFits t = true →
      s.chunksTainted t.entry.ctx t.preChunks = false → s.readChunks t.entry.ctx t.preChunks = .ok () →
      exec (.acquireGrant cl) s = .next (((s.modTask t.entry.id (fun t => t.grant r.bindings.length)).placeScratch t.entry.id).modCluster cl (fun c => { c with acq := c.acq.filter (fun a => a.task != t.entry.id) })))
  ∧ (∀ (t : Machine.Task) n, (t.grant n).allot =
      { regs := t.entry.rcd.regs, mtiles := t.entry.rcd.mtiles, atiles := t.entry.rcd.atiles, holes := t.entry.rcd.holes, views := n, full := true })
  ∧ (∀ (t : Machine.Task) n k r, t.allot.regs < r → (t.grant n).reg (some k) r = 0)
  ∧ (∀ f id t s, Turn (.release f) f ⟨id, none⟩ t s → t.q4 = [] →
      t.mayLower (f.imm.toNat % 2 ^ 9) (f.imm.toNat / 2 ^ 9 % 2 ^ 4) (f.imm.toNat / 2 ^ 13 % 2 ^ 3) (f.imm.toNat / 2 ^ 16 % 2 ^ 7) = true →
      (∀ h ∈ t.holes.drop (f.imm.toNat / 2 ^ 16 % 2 ^ 7), (h.state = .empty ∨ h.state = .ready) ∧ h.readers = 0) →
      exec (.release f) s = .next (retired (.release f) f ⟨id, none⟩ t (s.modTask id (fun t' =>
        t'.lower (f.imm.toNat % 2 ^ 9) (f.imm.toNat / 2 ^ 9 % 2 ^ 4) (f.imm.toNat / 2 ^ 13 % 2 ^ 3) (f.imm.toNat / 2 ^ 16 % 2 ^ 7)))))
  ∧ (∀ f id t s, Turn (.release f) f ⟨id, none⟩ t s →
      t.mayLower (f.imm.toNat % 2 ^ 9) (f.imm.toNat / 2 ^ 9 % 2 ^ 4) (f.imm.toNat / 2 ^ 13 % 2 ^ 3) (f.imm.toNat / 2 ^ 16 % 2 ^ 7) = false →
      exec (.release f) s = .next (s.takeTrap ⟨id, none⟩ t.u.ag.pc.toNat ((encode (.release f)).getD 0) { cause := cILLEGAL_OP }))

/-- R335, R336, R348: BARA arrives with its vote; BARW arrives and goes on when its arrival completes the phase, or waits, and goes on when the phase
has completed; a uniform BARW receives the vote mask of its group. A phase completes at the arrival of its last participant. R337, R349, R352: DQPUT
adds a value for the threads that live; DQGET takes the oldest value that its thread has not read; PEDRD reads the pedigree. -/
def Obligations.BarriersAndDecisions : Prop :=
  (
    let vote (f : Fields) (w : Who) (t : Machine.Task) : Bool := w.thread.isSome && (t.agent w.thread).pred (f.mod.toNat % 8)
    let hasGroup (f : Fields) (w : Who) (t : Machine.Task) : Prop := w.thread = none → f.imm.toNat % 16 < t.entry.groups
    (∀ f w t s, Turn (.bara f) f w t s → (t.bar f.a.toNat).arrived w.thread = false →
      exec (.bara f) s = .next (retired (.bara f) f w t (s.modTask w.task (fun t' => t'.arrive w.thread f.a.toNat (vote f w t')))))
    ∧ (∀ f w t s, Turn (.barw f) f w t s → hasGroup f w t → (t.bar f.a.toNat).arrived w.thread = false → (t.agent w.thread).waiting = false →
        ((t.arrive w.thread f.a.toNat (vote f w t)).bar f.a.toNat).arrived w.thread = false →
        let s1 := s.modTask w.task (fun t' => (t'.arrive w.thread f.a.toNat (vote f w t')).barReturn w.thread f.a.toNat)
        exec (.barw f) s = .next (retired (.barw f) f w t (if w.thread = none then
          putD (.barw f) f w ((t.arrive w.thread f.a.toNat (vote f w t)).voteMask f.a.toNat (f.imm.toNat % 16)) s1 else s1)))
    ∧ (∀ f w t s, Turn (.barw f) f w t s → hasGroup f w t → (t.bar f.a.toNat).arrived w.thread = false → (t.agent w.thread).waiting = true →
        let s1 := s.modTask w.task (fun t' => t'.barReturn w.thread f.a.toNat)
        exec (.barw f) s = .next (retired (.barw f) f w t (if w.thread = none then
          putD (.barw f) f w (t.voteMask f.a.toNat (f.imm.toNat % 16)) s1 else s1)))
    ∧ (∀ f w t s, Turn (.barw f) f w t s → hasGroup f w t → (t.bar f.a.toNat).arrived w.thread = true →
        exec (.barw f) s = .next (s.modAgent w (fun a => { a with waiting := true })))
    ∧ (∀ f id t s, Turn (.barw f) f ⟨id, none⟩ t s → t.entry.groups ≤ f.imm.toNat % 16 →
        exec (.barw f) s = .next (s.takeTrap ⟨id, none⟩ t.u.ag.pc.toNat ((encode (.barw f)).getD 0) { cause := cILLEGAL_OP }))
    ∧ (∀ (t : Machine.Task) n v, t.join = .none → (∀ k, t.live k = true → bitAt (t.bar n).arrivals k = true) →
        ((t.arrive none n v).bar n).phase = (t.bar n).phase + 1 ∧ ((t.arrive none n v).bar n).arrivals = 0
        ∧ ((t.arrive none n v).bar n).lastPos = t.u.pedpos.toNat / 1024)
    ∧ ∀ (t : Machine.Task) n k v, t.join = .none → (t.bar n).uArrived = false →
        ((t.arrive (some k) n v).bar n).phase = (t.bar n).phase ∧ bitAt ((t.arrive (some k) n v).bar n).arrivals k = true)
  ∧ (
    (∀ f id t s, Turn (.dqput f) f ⟨id, none⟩ t s → t.dq.length < 16 →
      exec (.dqput f) s = .next (retired (.dqput f) f ⟨id, none⟩ t (s.modTask id (fun t' => Task.freeDq { t' with dq := t'.dq ++ [{ value := BitVec.ofNat 64 (valA (.dqput f) f ⟨id, none⟩ t), readers := ofBits t'.liveThreads }] }))))
    ∧ (∀ f id k t s before e after, Turn (.dqget f) f ⟨id, some k⟩ t s → t.dq = before ++ e :: after →
        (∀ x ∈ before, bitAt x.readers k = false) → bitAt e.readers k = true →
        exec (.dqget f) s = .next (retired (.dqget f) f ⟨id, some k⟩ t ((putD (.dqget f) f ⟨id, some k⟩ e.value.toNat s).modTask id (fun t' =>
          Task.freeDq { t' with dq := updAt t'.dq (t'.dq.idxOf e) (fun x => { x with readers := clearBit x.readers k }) }))))
    ∧ (∀ (t : Machine.Task), (Task.freeDq t).dq = t.dq.filter (fun e => e.readers != 0))
    ∧ Yields .pedrd (fun f _ t =>
        let n := f.imm.toNat % 64
        if n = 0 then t.entry.ped.header else if n = 32 then t.u.pedpos.toNat else t.entry.ped.elems.getD (n - 1) 0))

/-- R295, R322, R351: TEXIT of a task without live threads, pending work or children removes the task, counts it down in its tree, and hands its views
to its parent. R341: EXIT ends its thread, once its batches are finished and none holds an error: the thread is live no more and free or a helper, and
the others keep their status. -/
def Obligations.Exits : Prop :=
  (
    ∀ f id t s r, Turn (.texit f) f ⟨id, none⟩ t s → s.tree? t.entry.tree = some r → t.liveThreads = [] → t.u.ag.opened.joined = 0 →
      t.u.ag.closed = [] → t.u.ag.finErr = none → t.q4 = [] → t.fault = none → (∀ g ∈ (s.core t.coreD).collector, g.task ≠ id) →
      t.children = [] → t.joined = 0 → t.entry.tile = none →
      ∃ s', exec (.texit f) s = .next s' ∧ s'.task? id = none ∧ (s'.tree? t.entry.tree).map (fun q => q.counter) = some (r.counter - 1)
        ∧ ∀ p q, t.entry.parent = some p → p ≠ id → s.task? p = some q →
            ∃ q', s'.task? p = some q' ∧ ∀ c ∈ q'.children, c.task = id → c.exited = true ∧ c.views = t.views ∧ c.bins = t.bins)
  ∧ (
    ∀ f k t s id, Turn (.exit f) f ⟨id, some k⟩ t s → (t.thread k).ag.opened.joined = 0 → (t.thread k).ag.closed = [] →
      (t.thread k).ag.finErr = none →
      ∃ s' t', exec (.exit f) s = .next s' ∧ s'.task? id = some t' ∧ t'.live k = false ∧ (∀ j, j ≠ k → t'.live j = t.live j)
        ∧ s'.mem = s.mem ∧ ∀ b, bitAt (t'.bar b).arrivals k = true → bitAt (t.bar b).arrivals k = true)

/-- R350: ENQ answers 1 with nothing written where the queue is full, and otherwise 0 with the packet's bytes in its slot, the queue's WRITE advanced
and the command processor told. -/
def Obligations.Enqueuing : Prop :=
  let direct (t : Machine.Task) : Acc := { Acc.ofTask t none with scope := 3 }
  (∀ f id t s c dbytes s1 bytes s2, Turn (.enq f) f ⟨id, none⟩ t s → s.ctx? t.entry.ctx = some c →
    let q := valA (.enq f) f ⟨id, none⟩ t
    let p := valB (.enq f) f ⟨id, none⟩ t
    p % 64 = 0 → canonicalVa p = true → canonicalVa (p + 127) = true → q < c.nQueues →
    loadVa (direct t) (c.queueTab + 64 * q) 64 s = .ok dbytes s1 → (queueDesc dbytes).enabled = true → (queueDesc dbytes).devenq = true →
    loadVa (Acc.ofTask t none) p 128 s1 = .ok bytes s2 → 2 ^ (queueDesc dbytes).logsize ≤ (queueDesc dbytes).write - (queueDesc dbytes).read →
    exec (.enq f) s = .next (retired (.enq f) f ⟨id, none⟩ t (putD (.enq f) f ⟨id, none⟩ 1
      ((s2.modTask id (fun t => { t with enqueued := true })).releaseAt t.cluster 3))))
  ∧ (∀ f id t s c dbytes s1 bytes s2 s3 s4, Turn (.enq f) f ⟨id, none⟩ t s → s.ctx? t.entry.ctx = some c →
    let q := valA (.enq f) f ⟨id, none⟩ t
    let p := valB (.enq f) f ⟨id, none⟩ t
    let d := queueDesc dbytes
    p % 64 = 0 → canonicalVa p = true → canonicalVa (p + 127) = true → q < c.nQueues →
    loadVa (direct t) (c.queueTab + 64 * q) 64 s = .ok dbytes s1 → d.enabled = true → d.devenq = true →
    loadVa (Acc.ofTask t none) p 128 s1 = .ok bytes s2 → d.write - d.read < 2 ^ d.logsize →
    storeVa (direct t) (d.packetAt d.write) bytes ((s2.modTask id (fun t => { t with enqueued := true })).releaseAt t.cluster 3) = .ok () s3 →
    s3.cpWrite t.entry.ctx (c.queueTab + 64 * q + 16) (leBytes 8 (d.write + 1)) = .ok s4 →
    exec (.enq f) s = .next (retired (.enq f) f ⟨id, none⟩ t (putD (.enq f) f ⟨id, none⟩ 0
      (s4.modQueue t.entry.ctx q (fun x => { x with doorbell := max x.doorbell (d.write + 1), dead := false })))))
  ∧ ∀ f id t s c, Turn (.enq f) f ⟨id, none⟩ t s → s.ctx? t.entry.ctx = some c → valB (.enq f) f ⟨id, none⟩ t % 64 = 0 →
      canonicalVa (valB (.enq f) f ⟨id, none⟩ t) = true → canonicalVa (valB (.enq f) f ⟨id, none⟩ t + 127) = true →
      c.nQueues ≤ valA (.enq f) f ⟨id, none⟩ t →
      exec (.enq f) s = .next (s.takeTrap ⟨id, none⟩ t.u.ag.pc.toNat ((encode (.enq f)).getD 0) { cause := cBAD_QUEUE })

/-! ### Space 0x29: determinism (08 R191 to R215) -/

/-- R195, R210 to R212: VUPD and LOGAPP add an update with its key to a view and count it; VREAD folds the updates that its agent sees. -/
def Obligations.Reducers : Prop :=
  (∀ f w t s r v, Turn (.vupd f) f w t s → s.tree? t.entry.tree = some r → t.views.find? (fun x => x.index == f.imm.toNat) = some v →
    v.kind ≤ 8 → atypeOk v (field f.mod.toNat 2 0) = true →
    let n := Sparse.get 0 (t.agent w.thread).counts v.index
    let u : Update := { seq := t.seq, source := (match w.thread with | none => .uniform | some k => .thread k), strand := t.strand w.thread,
                        rank := (if w.thread = none then 0 else 1), group := w.thread.getD 0 / 32, lane := w.thread.getD 0 % 32, count := n,
                        atype := field f.mod.toNat 2 0, value := valA (.vupd f) f w t % 2 ^ redBits (field f.mod.toNat 2 0) }
    exec (.vupd f) s = .next (retired (.vupd f) f w t ((s.modTask w.task (fun t' => { t' with views := t'.views.map (fun x => if x.index = v.index then { v with updates := v.updates ++ [u] } else x), seq := t'.seq + 1 })).modAgent w
      (fun a => { a with counts := Sparse.put 0 a.counts v.index (n + 1) }))))
  ∧ (∀ f w t s r v v' s1, Turn (.logapp f) f w t s → s.tree? t.entry.tree = some r →
      t.views.find? (fun x => x.index == f.imm.toNat) = some v → v.kind = 10 →
      let n := Sparse.get 0 (t.agent w.thread).counts v.index
      let u : Update := { seq := t.seq, source := (match w.thread with | none => .uniform | some k => .thread k), strand := t.strand w.thread,
                          rank := (if w.thread = none then 0 else 1), group := w.thread.getD 0 / 32, lane := w.thread.getD 0 % 32, count := n,
                          atype := 3, value := valA (.logapp f) f w t, digest := t.entry.ped.digest }
      s.placeUpdate t r.level { v with updates := v.updates ++ [u] } = .ok v' s1 →
      exec (.logapp f) s = .next (retired (.logapp f) f w t ((s1.modTask w.task (fun t' => { t' with views := t'.views.map (fun x => if x.index = v'.index then v' else x), seq := t'.seq + 1 })).modAgent w
        (fun a => { a with counts := Sparse.put 0 a.counts v.index (n + 1) }))))
  ∧ (∀ f w t s r v, Turn (.vread f) f w t s → s.tree? t.entry.tree = some r → t.views.find? (fun x => x.index == f.imm.toNat) = some v →
      field f.mod.toNat 2 0 = (if 9 ≤ v.kind then 3 else v.type) →
      exec (.vread f) s = .next (retired (.vread f) f w t (putD (.vread f) f w
        (foldUpdates r.level v.kind v.type (v.updates.filter (fun u => u.visible t w.thread))) s)))

/-- R213 to R215: RAND by key and counter, ALLOC from the region of its agent with the trap where it is exhausted, ALLOC.cfg, and the digests of
PEDDG. -/
def Obligations.RandomAndRegions : Prop :=
  (∀ f w t s r, Turn (.rand f) f w t s → s.tree? t.entry.tree = some r →
    let raw := bitAt f.mod.toNat 0
    let keyed := bitAt f.mod.toNat 1
    let k := w.thread.getD 0
    let top := 0x52440000 + (if w.thread = none then 0x200 else 0) + 0x20 * (k / 32) + k % 32
    exec (.rand f) s = .next (retired (.rand f) f w t (putD (.rand f) f w
      (km (if keyed then valC (.rand f) f w t else r.seed.toNat ^^^ 0x6B8D2F47A1C3E59B)
          (if raw then valA (.rand f) f w t
           else t.entry.ped.digest + valB (.rand f) f w t % 2 ^ 32 * 2 ^ 64 + top * 2 ^ 96)) s)))
  ∧ (∀ f w t s, Turn (.alloc f) f w t s →
    let size := valA (.alloc f) f w t
    let align := 2 ^ (f.imm.toNat % 16)
    let cur := match w.thread with | some k => (t.thread k).cursor | none => t.u.lo
    let top := match w.thread with | some k => (t.thread k).sliceEnd | none => t.u.hi
    let a := (cur + align - 1) / align * align
    let n := (size + 15) / 16 * 16
    (size < 2 ^ 32 → a + n ≤ top →
      exec (.alloc f) s = .next (retired (.alloc f) f w t ((putD (.alloc f) f w a s).modTask w.task (fun t' => match w.thread with
        | some k => t'.modThread k (fun x => { x with cursor := a + n })
        | none => { t' with u := { t'.u with lo := a + n } }))))
    ∧ ((2 ^ 32 ≤ size ∨ top < a + n) →
      exec (.alloc f) s = .next (s.takeTrap w (t.agent w.thread).pc.toNat ((encode (.alloc f)).getD 0) { cause := cALLOC_EXHAUSTED })))
  ∧ (∀ f id t s, Turn (.allocCfg f) f ⟨id, none⟩ t s →
      exec (.allocCfg f) s = .next (retired (.allocCfg f) f ⟨id, none⟩ t (s.modTask id (fun t' => { t' with u := { t'.u with carve := valA (.allocCfg f) f ⟨id, none⟩ t, slice := valB (.allocCfg f) f ⟨id, none⟩ t } }))))
  ∧ (∀ f w t s, Turn (.peddg f) f w t s → f.mod.toNat < 2 →
      exec (.peddg f) s = .next (retired (.peddg f) f w t (putD (.peddg f) f w
        (if f.mod.toNat = 0 then t.entry.ped.digest
         else t.entry.ped.strandDigest (w.thread.map (fun k => (t.thread k).marker)) t.u.pedpos.toNat) s)))

/-! ### Space 0x2A: expansion (14 R354 to R365) -/

/-- R359, R360, R362 to R365: the expand unit, where one thread of the deal set lives: XSET opens an expansion of the length given, XDEAL deals the
next iteration or says that none is left, XRED holds a value for the current one, XEND closes the expansion with the fold, and XQRY reads it. The rank
that XQRY.self gives a thread that is no dealer is the model's choice, a free value (log entry 10). XSTATE names the groups with an open expansion and
its base groups. -/
def Obligations.Expansions : Prop :=
  let only (t : Machine.Task) (k base groups : Nat) : Prop := ∀ j, t.live j = true → base ≤ j / 32 → j / 32 < base + groups → j = k
  (∀ f id k t s, Turn (.xset f) f ⟨id, some k⟩ t s → s.instrAt t k = .xset f → t.expans = [] →
    let g := 2 ^ field f.mod.toNat 5 4
    let base := k / 32 / g * g
    base + g ≤ t.entry.groups → only t k base g →
    ∃ s' t' e, exec (.xset f) s = .next s' ∧ s'.task? id = some t' ∧ t'.expans = [e] ∧ e.base = base ∧ e.logn = field f.mod.toNat 5 4
      ∧ e.op = field f.mod.toNat 3 0 ∧ e.d64 = bitAt f.mod.toNat 7 ∧ e.total = valB (.xset f) f ⟨id, some k⟩ t ∧ e.round = 0
      ∧ e.dealer = 2 ^ (k - 32 * base) ∧ Sparse.get 0 e.start (k - 32 * base) = valA (.xset f) f ⟨id, some k⟩ t
      ∧ (t'.thread k).ag.pc.toNat = nextSlot (t.thread k).ag.pc.toNat % 2 ^ 64)
  ∧ (∀ f id k t s e, Turn (.xdeal f) f ⟨id, some k⟩ t s → s.instrAt t k = .xdeal f → t.expans = [e] → e.covers k = true → e.logn ≤ 2 →
      bitAt e.dealer (e.lane k) = true → bitAt e.done (e.lane k) = false → only t k e.base e.groups →
      ∃ s' t' e', exec (.xdeal f) s = .next s' ∧ s'.task? id = some t' ∧ t'.expans = [e'] ∧ e'.round = e.round + 1
        ∧ (f.d ≠ 0 → t'.regs (some k) f.d.toNat 2 = (match e.deal (e.lane k) with | some (o, i) => o + 2 ^ 32 * i | none => 0xFFFFFFFF) % 2 ^ 64)
        ∧ (f.c.toNat ≠ 0 → f.c.toNat < 7 → (t'.thread k).ag.pred f.c.toNat = (e.deal (e.lane k)).isSome)
        ∧ (bitAt e'.done (e.lane k) = true ↔ e.deal (e.lane k) = none)
        ∧ (t'.thread k).ag.pc.toNat = nextSlot (t.thread k).ag.pc.toNat % 2 ^ 64)
  ∧ (∀ f id k t s e, Turn (.xred f) f ⟨id, some k⟩ t s → t.expansion k = some e → field f.mod.toNat 3 0 = e.op → bitAt f.mod.toNat 7 = e.d64 →
      bitAt e.cur (e.lane k) = true → bitAt e.hasVal (e.lane k) = false →
      exec (.xred f) s = .next (retired (.xred f) f ⟨id, some k⟩ t (s.modTask id (fun t' => t'.modExpansion e.base (fun x => { x with val := Sparse.put 0 x.val (e.lane k) (valA (.xred f) f ⟨id, some k⟩ t), hasVal := x.hasVal ||| 2 ^ e.lane k })))))
  ∧ (∀ f id k t s e, Turn (.xend f) f ⟨id, some k⟩ t s → s.instrAt t k = .xend f → t.expans = [e] → e.covers k = true →
      bitAt f.mod.toNat 7 = e.d64 → bitAt e.dealer (e.lane k) = true → only t k e.base e.groups →
      ∃ s' t', exec (.xend f) s = .next s' ∧ s'.task? id = some t' ∧ t'.expans = []
        ∧ (f.d ≠ 0 → t'.regs (some k) f.d.toNat (if e.d64 then 2 else 1) = Sparse.get 0 e.foldHeld.acc (e.lane k) % 2 ^ xBits e.d64)
        ∧ (t'.thread k).ag.pc.toNat = nextSlot (t.thread k).ag.pc.toNat % 2 ^ 64)
  ∧ Yields .xqry (fun f w t =>
      match t.expansion (32 * (match w.thread with | some k => k / 32 | none => f.imm.toNat / 2 ^ 16 % 16)) with
      | none => 0
      | some e => e.query (f.imm.toNat % 16) (e.lane (w.thread.getD 0)) (f.imm.toNat / 2 ^ 8 % 2 ^ 7))
  ∧ ∀ (t : Machine.Task) g, g < 16 → (∀ e ∈ t.expans, e.base < 16) →
      (bitAt t.xstate g = true ↔ ∃ e ∈ t.expans, e.covers (32 * g) = true) ∧ (bitAt t.xstate (16 + g) = true ↔ ∃ e ∈ t.expans, e.base = g)

/-! ### Space 0x2B: coverage (09 R224 to R239) -/

/-- R236 to R239: the coverage instructions in a task of a sweep: the class of a point, the state of a band, the reconstruction of a point and of the
tile, and one sample more. -/
def Obligations.Coverage : Prop :=
  let at3 (i : Instr) (f : Fields) (w : Who) (t : Machine.Task) : Point :=
    { x := valA i f w t % 2 ^ 32, y := valB i f w t % 2 ^ 32, z := valC i f w t % 2 ^ 32 }
  (∀ f w t s r tile, Turn (.cvqry f) f w t s → s.tree? t.entry.tree = some r → t.entry.tile = some tile →
    exec (.cvqry f) s = .next (retired (.cvqry f) f w t (putD (.cvqry f) f w
      (match r.classOf tile t.entry.cov (at3 (.cvqry f) f w t) with
       | .covered => 3 | .orphan => 5 | .probe => 9 | .filled => 0 | .outside => 16) s)))
  ∧ (∀ f id t s r tile, Turn (.cvqryBand f) f ⟨id, none⟩ t s → s.tree? t.entry.tree = some r → t.entry.tile = some tile →
      exec (.cvqryBand f) s = .next (retired (.cvqryBand f) f ⟨id, none⟩ t (putD (.cvqryBand f) f ⟨id, none⟩
        (match r.bands[valA (.cvqryBand f) f ⟨id, none⟩ t]? with
         | none => 0
         | some b => (match b.code with | some c => c % 256 + 256 | none => 0) + (if b.complete then 512 else 0)) s)))
  ∧ (∀ f w t s r tile d v s1, Turn (.cvprobe f) f w t s → s.tree? t.entry.tree = some r → t.entry.tile = some tile → r.cov = some d →
      (r.classOf tile t.entry.cov (at3 (.cvprobe f) f w t) = .probe ∨ r.classOf tile t.entry.cov (at3 (.cvprobe f) f w t) = .filled) →
      recPoint { Acc.ofTask t w.thread with checked := true } r d tile t.entry.cov (at3 (.cvprobe f) f w t) s = .ok v s1 →
      exec (.cvprobe f) s = .next (retired (.cvprobe f) f w t (s1.modTask w.task (fun t' => t'.setRegs w.thread f.d.toNat (if d.etype = 3 then 2 else 1) v))))
  ∧ (∀ f w t s r tile d, Turn (.cvprobe f) f w t s → s.tree? t.entry.tree = some r → t.entry.tile = some tile → r.cov = some d →
      (let k := r.classOf tile t.entry.cov (at3 (.cvprobe f) f w t); k = .covered ∨ k = .orphan ∨ k = .outside) →
      exec (.cvprobe f) s = .next (retired (.cvprobe f) f w t s))
  ∧ (∀ f id t s r tile d es s1, Turn (.recon f) f ⟨id, none⟩ t s → s.tree? t.entry.tree = some r → t.entry.tile = some tile →
      r.cov = some d → reconPoints { Acc.ofTask t none with checked := true } r d tile t.entry.cov (!t.u.covDone && !d.errMode) (r.points tile) s = .ok es s1 →
      exec (.recon f) s = .next (retired (.recon f) f ⟨id, none⟩ t (s1.modTask id (fun t' =>
        { t' with u := { es.foldl Uniform.sample t'.u with covDone := true } }))))
  ∧ (∀ a r d tile c ps (s s1 : State) es, reconPoints a r d tile c false ps s = .ok es s1 → es = [])
  ∧ (∀ f w t s r tile d, Turn (.cverr f) f w t s → s.tree? t.entry.tree = some r → t.entry.tile = some tile → r.cov = some d →
      exec (.cverr f) s = .next (retired (.cverr f) f w t (s.modTask w.task (fun t' => { t' with u := { t'.u with covN := min (t'.u.covN + 1) (2 ^ 32 - 1), covS := min (t'.u.covS + valA (.cverr f) f w t) (2 ^ 64 - 1) } }))))

/-! ### Space 0x30: system (02 R54 to R56; 16 R416 to R423) -/

/-- R54, R417, R418, R420: control registers are read and written whole; MODES keeps two bits, and a format word that is not valid traps. The low 13
bits of the TID that a uniform stream reads are a free value (log entry 11). -/
def Obligations.ControlRegisters : Prop :=
  (∀ f w t s, Turn (.csrrd f) f w t s →
    exec (.csrrd f) s = .next (retired (.csrrd f) f w t (putD (.csrrd f) f w
      (match f.imm.toNat % 2 ^ 12 with
       | 0x000 => t.coreD + 2 ^ 12 * t.slotD + 2 ^ 16 * t.entry.ctx + 2 ^ 32 * s.treeOrdinal t
       | 0x001 => (match w.thread with | some k => t.tid k | none => (Config.uniformTid t.u.retired.toNat).toNat % 2 ^ 13)
       | 0x002 => t.taskcfg
       | 0x00B => t.u.pedpos.toNat
       | 0x00C => (match s.tree? t.entry.tree with | some r => r.level | none => 0)
       | 0x00D => t.savePtr
       | 0x00E => t.trapVec.toNat
       | 0x00F => t.entry.cov
       | 0x010 => t.xstate
       | 0x011 => t.fmtDef.toNat
       | 0x012 => t.modes.toNat
       | 0x013 => t.hstall.toNat
       | n => t.entry.ped.image / 2 ^ (64 * (n - 3)) % 2 ^ 64) s)))
  ∧ (∀ f id t s, Turn (.csrwr f) f ⟨id, none⟩ t s →
      let n := f.imm.toNat % 2 ^ 12
      let v := valA (.csrwr f) f ⟨id, none⟩ t
      (n = 0x011 → fwValid true (v % 2 ^ 32) = true) →
      exec (.csrwr f) s = .next (retired (.csrwr f) f ⟨id, none⟩ t (s.modTask id (fun t' =>
        if n = 0x00E then { t' with trapVec := BitVec.ofNat 64 v }
        else if n = 0x011 then { t' with fmtDef := BitVec.ofNat 32 v }
        else if n = 0x012 then { t' with modes := BitVec.ofNat 32 (v % 4) }
        else { t' with hstall := BitVec.ofNat 32 v }))))
  ∧ (∀ f id t s, Turn (.csrwr f) f ⟨id, none⟩ t s → f.imm.toNat % 2 ^ 12 = 0x011 → fwValid true (valA (.csrwr f) f ⟨id, none⟩ t % 2 ^ 32) = false →
      exec (.csrwr f) s = .next (s.takeTrap ⟨id, none⟩ t.u.ag.pc.toNat ((encode (.csrwr f)).getD 0) { cause := cBAD_FORMAT }))
  ∧ (∀ f w t s, Turn (.cycle f) f w t s →
      exec (.cycle f) s = .next (retired (.cycle f) f w t (putD (.cycle f) f w (s.cycle t.cluster) s)))

/-- R419: TRAPRET leaves the handler: s1, the uniform stream's block and the windows that were suspended come back, and the handler's windows go. The
trapped agent goes on at the instruction, or after it with skip, which counts in an open block, or for a software trap; a rejected entry is checked
again; a kill ends the thread of the frame; a kill of the uniform stream's own trap, or an abort, ends the tree. That a kill waits until the thread's
batches are finished (log entry 52), and that a skip ages no window (log entry 17), are the model's reading. -/
def Obligations.TrapReturn : Prop :=
  let back (t t' : Machine.Task) (h : Handler) : Prop :=
    t'.handler = none ∧ t'.reg none 1 = h.s1.toNat ∧ (∀ r, r ≠ 1 → t'.reg none r = t.reg none r)
    ∧ t'.u.ag.windows = (t.u.ag.windows.filter (fun w => !w.handler)).map (fun w => { w with suspended := false })
  let retires (h : Handler) : Prop := h.trap.cause = 29 ∨ h.trap.cause = 30
  (∀ f id t s h k, Turn (.trapret f) f ⟨id, none⟩ t s → t.handler = some h → h.trap.uniform = false → h.trap.tid % 512 = k → k < t.threads.length →
    f.imm.toNat < 2 →
    ∃ s' t', exec (.trapret f) s = .next s' ∧ s'.task? id = some t' ∧ back t t' h ∧ t'.u.ag.pc = h.upc ∧ t'.u.ag.block = h.block
      ∧ (t'.thread k).ag.pending = none ∧ s'.mem = s.mem ∧ (∀ j, j ≠ k → t'.thread j = t.thread j)
      ∧ (h.trap.entry = false →
          (t'.thread k).ag.pc = (if retires h ∨ f.imm.toNat = 1 then BitVec.ofNat 64 (nextSlot h.trap.pc) else BitVec.ofNat 64 h.trap.pc)
          ∧ (t'.thread k).ag.block = (if ¬retires h ∧ f.imm.toNat = 1 then (t.thread k).ag.block.step else (t.thread k).ag.block)
          ∧ (t'.thread k).ag.entry = (t.thread k).ag.entry)
      ∧ (h.trap.entry = true → (t'.thread k).ag.pc = BitVec.ofNat 64 h.trap.pc ∧ (t'.thread k).ag.entry = true))
  ∧ (∀ f id t s h, Turn (.trapret f) f ⟨id, none⟩ t s → t.handler = some h → h.trap.uniform = true → f.imm.toNat < 2 →
    ∃ s' t', exec (.trapret f) s = .next s' ∧ s'.task? id = some t' ∧ back t t' h ∧ s'.mem = s.mem ∧ t'.threads = t.threads
      ∧ (h.trap.entry = false →
          t'.u.ag.pc = (if retires h ∨ f.imm.toNat = 1 then BitVec.ofNat 64 (nextSlot h.trap.pc) else BitVec.ofNat 64 h.trap.pc)
          ∧ t'.u.ag.block = (if ¬retires h ∧ f.imm.toNat = 1 then h.block.step else h.block) ∧ t'.u.ag.entry = false)
      ∧ (h.trap.entry = true → t'.u.ag.pc = BitVec.ofNat 64 h.trap.pc ∧ t'.u.ag.block = h.block ∧ t'.u.ag.entry = true))
  ∧ (∀ f id t s h k, Turn (.trapret f) f ⟨id, none⟩ t s → t.handler = some h → h.trap.uniform = false → h.trap.tid % 512 = k → k < t.threads.length →
    f.imm.toNat = 2 → (t.thread k).ag.opened.joined = 0 →
    ((t.thread k).ag.closed = [] →
      ∃ s' t', exec (.trapret f) s = .next s' ∧ s'.task? id = some t' ∧ back t t' h ∧ t'.u.ag.pc = h.upc ∧ t'.u.ag.block = h.block
        ∧ t'.live k = false ∧ (t'.thread k).ag.pending = none ∧ (t'.thread k).ag.finErr = none ∧ (∀ j, j ≠ k → t'.live j = t.live j)
        ∧ s'.mem = s.mem)
    ∧ ((t.thread k).ag.closed ≠ [] → exec (.trapret f) s = .next (s.modAgent ⟨id, none⟩ (fun a => { a with waiting := true }))))
  ∧ ∀ f id t s h, Turn (.trapret f) f ⟨id, none⟩ t s → t.handler = some h → (f.imm.toNat = 3 ∨ (h.trap.uniform = true ∧ f.imm.toNat = 2)) →
      exec (.trapret f) s = .next (s.abortTree t.entry.tree 4)

/-- R88, R422, R423: ICSYNC writes back the stores that its stream sees and leaves no decoded line of the context in the cores of its partition;
TLBINV leaves no translation of the range, or none of the context in its general form. -/
def Obligations.Invalidations : Prop :=
  (∀ f id t s c, Turn (.icsync f) f ⟨id, none⟩ t s → s.ctx? t.entry.ctx = some c →
    ∃ s', exec (.icsync f) s = .next s' ∧ (∀ l ∈ (s'.cluster t.cluster).l1, l.dirty = 0)
      ∧ (L1Sound s t.cluster → ∀ a, seen s' t.cluster a = seen s t.cluster a ∧ Sparse.get 0 s'.mem a = seen s t.cluster a)
      ∧ ∀ core, (s.cluster (clusterOf core)).partition = some c.partition →
          (s'.core core).icache = (s.core core).icache.filter (fun l => l.ctx != t.entry.ctx))
  ∧ (∀ f id t s c, Turn (.tlbinv f) f ⟨id, none⟩ t s → s.ctx? t.entry.ctx = some c → t.u.ag.fence = none →
      (∀ p ∈ s.cores, p.2.collector = []) →
    let base := valA (.tlbinv f) f ⟨id, none⟩ t / 65536 * 65536
    let n := valB (.tlbinv f) f ⟨id, none⟩ t % 2 ^ 32 * 65536
    ∃ s', exec (.tlbinv f) s = .next s' ∧ s'.mem = s.mem
      ∧ ∀ cl, (s.cluster cl).partition = some c.partition →
          (s'.cluster cl).tlb = (s.cluster cl).tlb.filter (fun e => e.ctx != t.entry.ctx || !(f.mod == 1 || e.meets base n)))

/-! ### Fetch, checks and issue (03 R61 to R65, R75, R78, R81, R82; 02 R47) -/

/-- R81, R87: a step runs the decoded instruction. The uniform stream that a core's front end chooses, or the members at one program counter of the
bundle that a core chooses, fetch the word of their slot, and the step is `exec` of what it decodes to, after the accesses passed over that must come
before it have been performed. An access that may itself be passed over (`late`) leaves memory as it is, joins the accesses of its agent, and is
performed when its turn comes; a computation whose operand is not there yet is passed over likewise. Which stream and which bundle a core chooses rest
on the model's choices and readings too (log entries 1 and 63); that and how accesses and computations are passed over is its reading of 11 R274 (log
entry 31). -/
def Obligations.StepRunsInstruction : Prop :=
  (∀ (s s1 : State) core l (late : Bool) t p w c rest, s.power = .running →
    s.agenda = (if late then .rotateLate core l else .rotate core l) :: rest →
    (withAgenda rest s).chosenStream core l = (some t, p) → s.task? t.entry.id = some t → s.gated t.cluster = false → t.u.ag.entry = false →
    (withAgenda rest s).fetchFor { task := t.entry.id } = (.word w c, s1) →
    let turn := (s1.noteTurn core (some t) p).turn { task := t.entry.id, uniform := true, threads := [] }
    ((late = true → (lateMeaning (decode w)).isNone = true) →
      step s = noteCorrected c t.cluster (exec (decode w) (turn.settleBefore (decode w))))
    ∧ ∀ g, late = true → lateMeaning (decode w) = some g → step s = noteCorrected c t.cluster (g (turn.settlePassing (decode w))))
  ∧ (∀ (s s1 s2 : State) core ll (late : Bool) k b t j l w c rest, s.power = .running →
    s.agenda = (if late then .issueLate core ll else .issue core ll) :: rest →
    (withAgenda rest s).chosenBundle core ll = some k →
    (s.core core).bundles[k]? = some b → s.task? b.task = some t → t.core? = some core → s.gated t.cluster = false →
    b.threads.filter t.canIssue = j :: l → (∀ x ∈ j :: l, (t.thread x).ag.entry = false) →
    (withAgenda rest s).fetchFor { task := b.task, thread := some j } = (.word w c, s1) →
    let ks := (j :: l).filter (fun x => (t.thread x).ag.pc = (t.thread j).ag.pc)
    let turn := (s1.noteIssue core b.task (t.thread j).ag.pc.toNat ks).turn { task := b.task, uniform := false, threads := ks }
    ((late = true → (lateMeaning (decode w)).isNone = true) → exec (decode w) (turn.settleBefore (decode w)) = .next s2 →
      step s = noteCorrected c t.cluster (.next (s2.pruneBundle core k)))
    ∧ ∀ g, late = true → lateMeaning (decode w) = some g → g (turn.settlePassing (decode w)) = .next s2 →
      step s = noteCorrected c t.cluster (.next (s2.pruneBundle core k)))
  ∧ (∀ (s s1 : State) w t pa bytes, s.task? w.task = some t → canonicalVa (t.agent w.thread).pc.toNat = true →
    s.readLine t (t.agent w.thread).pc.toNat = (.ok pa bytes, s1) → lineReservedOk bytes = true → lineParityOk bytes = true →
    (s.fetchFor w).1 = .word (lineSlot bytes (slotOf (t.agent w.thread).pc.toNat)) ((s1.core t.coreD).refetch.contains pa))
  ∧ (∀ (s s1 : State) t va pa wt, s.translate t.entry.ctx t.cluster (va / 64 * 64) { x := true } = (.ok pa wt, s1) →
    (∀ l ∈ (s1.core t.coreD).icache, l.ctx ≠ t.entry.ctx ∨ l.pa ≠ pa) → s1.firstMissing pa 64 = none → s1.poisoned pa 64 = false →
    s.readLine t va = (.ok pa (s1.home pa 64), s1))
  ∧ (∀ (s : State) i, NothingLate s → s.settleBefore i = s)
  ∧ (noteCorrected false = fun _ r => r)
  ∧ (∀ f w t s pa s1 g, Turn (.st f) f w t s → Reaches (.st f) f w t s true true { w := true } pa false s1 → lateMeaning (.st f) = some g →
    ∃ s' t' x, g s = .next s' ∧ s'.mem = s.mem ∧ s'.clusters = s1.clusters ∧ s'.task? w.task = some t'
      ∧ (t'.agent w.thread).late = (t.agent w.thread).late ++ [x] ∧ x.seg.pa = pa ∧ x.seg.n = accBytes f
      ∧ x.op = .store (leBytes (accBytes f) (valC (.st f) f w t)) ∧ (∀ th r, t'.reg th r = t.reg th r)
      ∧ (t'.agent w.thread).pc.toNat = nextSlot (t.agent w.thread).pc.toNat % 2 ^ 64)
  ∧ ∀ (s : State) (w : Who) t x bs rest, s.power = .running → s.agenda = .perform w.task w.thread 0 :: rest → s.task? w.task = some t →
      (t.agent w.thread).late = [x] → x.op = .store bs → bs.length = x.seg.n → x.seg.watched = false → x.acc.order < 2 → L1Sound s x.acc.cl →
      ∃ s' t', step s = .next s' ∧ s'.task? w.task = some t' ∧ (t'.agent w.thread).late = []
        ∧ ∀ k, k < bs.length → seen s' x.acc.cl (x.seg.pa + k) = bs.getD k 0

/-- R63, R65, R81: a line whose word breaks its form, an address that is not canonical and a page that does not let code be fetched trap at the
instruction. A line that breaks a parity leaves the core's caches and is fetched once more: a second copy that passes counts as a corrected error, and
one that breaks a parity too traps and stays in no cache. A task's entry is checked before its first instruction. -/
def Obligations.LineChecks : Prop :=
  ∀ (s : State) w t, s.task? w.task = some t →
    let pc := (t.agent w.thread).pc.toNat
    (canonicalVa pc = false → s.fetchFor w = (.stop (.trap 0 { cause := cLINE_FETCH, addr := some pc }), s))
    ∧ (∀ s1, canonicalVa pc = true → s.readLine t pc = (.fault, s1) →
        s.fetchFor w = (.stop (.trap 0 { cause := cLINE_FETCH, addr := some pc }), s1))
    ∧ (∀ insn q, s.stopFetch w (.trap insn q) = s.takeTrap w pc insn q)
    ∧ (∀ pa bytes s1, canonicalVa pc = true → s.readLine t pc = (.ok pa bytes, s1) →
        let res := s.fetchFor w
        let second := (s1.core t.coreD).refetch.contains pa
        let broken := (∃ k, k < 5 ∧ field (lineWord bytes) (26 + k) (26 + k) ≠ parityBit 96 (lineSlot bytes k).toNat)
          ∨ field (lineWord bytes) 31 31 ≠ parityBit 31 (lineWord bytes)
        (field (lineWord bytes) 25 10 ≠ 0 → res.1 = .stop (.trap (lineSlot bytes (slotOf pc)) { cause := cILLEGAL_LINE }))
        ∧ (field (lineWord bytes) 25 10 = 0 → ¬broken → res.1 = .word (lineSlot bytes (slotOf pc)) second)
        ∧ (field (lineWord bytes) 25 10 = 0 → broken → second = false → res.1 = .stop .again
            ∧ (∀ l ∈ (res.2.core t.coreD).icache, l.pa ≠ pa) ∧ (res.2.core t.coreD).refetch.contains pa = true)
        ∧ (field (lineWord bytes) 25 10 = 0 → broken → second = true →
            res.1 = .stop (.trap (lineSlot bytes (slotOf pc)) { cause := cLINE_PARITY, addr := some (pc / 64 * 64) })
            ∧ ∀ core, ∀ l ∈ (res.2.core core).icache, l.pa ≠ pa))
    ∧ (∀ s1, s.checkTarget t pc = (.pass, s1) → s.checkEntry w = s1.modAgent w (fun a => { a with entry := false }))
    ∧ ((canonicalVa pc = false ∨ isSlotAddr pc = false) →
        s.checkEntry w = (s.takeTrap w pc 0 { cause := cBAD_TARGET, addr := some pc }).modAgent w (fun a => { a with
          pending := a.pending.map (fun p => { p with entry := true }) }))

/-- R75, R81: the checks precede the effect of every instruction, in an agent that issues alone. A form or name that is not legal traps at it; a name
in an open window traps with LOOKAHEAD, which closes the window; a suppressed instruction goes on with no effect of its own, though its lookahead
field opens its window (log entry 16). R82: an operation code that is not assigned traps in its agent: FUTURE_OP in the range kept for later, and
ILLEGAL_OP elsewhere. -/
def Obligations.ChecksPrecede : Prop :=
  (
    ∀ i f w t s, Facing i f w t s → (w.thread = none ∨ together i = false) →
      let pc := (t.agent w.thread).pc.toNat
      (∀ r, check i f t w.thread = .trap r → exec i s = .next (s.takeTrap w pc ((encode i).getD 0) r))
      ∧ (∀ wd, check i f t w.thread = .window wd →
          exec i s = .next ((s.modAgent w (fun a => { a with windows := a.windows.erase wd })).takeTrap w pc ((encode i).getD 0)
            { cause := cLOOKAHEAD, ident := wd.addr }))
      ∧ (check i f t w.thread = .ok true →
          exec i s = .next (s.retire w .next true (openWindow (shape i) f pc (w.thread.isNone && t.handler.isSome)))))
  ∧ (
    (∀ w, decodeOp (majorOf w) (minorOf w) (Fields.ofWord w) = none → decode w = .unassignedOpcode w)
    ∧ (∀ w : InstrWord, 0x60 ≤ majorOf w → decode w = .unassignedOpcode w)
    ∧ (∀ w id t s, s.task? id = some t → s.cur = { task := id, uniform := true, threads := [] } → t.held none = false → t.u.ag.parked = none →
        exec (.unassignedOpcode w) s = .next (s.takeTrap { task := id } t.u.ag.pc.toNat w { cause := if 0x60 ≤ majorOf w then 3 else 4 }))
    ∧ ∀ w id k t s, s.task? id = some t → s.cur = { task := id, uniform := false, threads := [k] } → t.canIssue k = true →
        exec (.unassignedOpcode w) s = .next (s.takeTrap { task := id, thread := some k } (t.thread k).ag.pc.toNat w
          { cause := if 0x60 ≤ majorOf w then 3 else 4 }))

/-- R52, R68, R69, R75, R78, R81: what the checks are, on IADD in a thread: the executor, the unused fields, the allotment and the windows, in this
order. R75: the window of a load counts the instructions that retire after it and then is gone; a name of its destination meets it until then. -/
def Obligations.AllotmentAndWindows : Prop :=
  (
    ∀ f (t : Machine.Task) k,
      let a := (t.thread k).ag
      let wide := bitAt f.mod.toNat 7
      let legal := f.u = false ∧ f.c = 0 ∧ f.imm = 0 ∧ f.mod.toNat % 128 = 0 ∧ f.la = 0
        ∧ (wide = true → f.d.toNat % 2 = 0 ∧ f.a.toNat % 2 = 0 ∧ f.b.toNat % 2 = 0)
      let top (v : BitVec 9) : Nat := if wide = true ∧ v ≠ 0 then v.toNat + 1 else v.toNat
      0 < t.allot.regs →
      (f.u = true ∨ f.c ≠ 0 ∨ f.imm ≠ 0 ∨ f.mod.toNat % 128 ≠ 0 ∨ f.la ≠ 0 ∨ (wide = true ∧ f.d.toNat % 2 = 1) →
        check (.iadd f) f t (some k) = .trap { cause := cILLEGAL_OP })
      ∧ (legal → f.ret = 0 → (t.allot.regs < top f.d ∨ t.allot.regs < top f.a ∨ t.allot.regs < top f.b) →
        check (.iadd f) f t (some k) = .trap { cause := cREG_RANGE })
      ∧ (legal → f.ret = 0 → top f.d ≤ t.allot.regs → top f.a ≤ t.allot.regs → top f.b ≤ t.allot.regs → a.windows = [] →
        check (.iadd f) f t (some k) = .ok (decide (0 < a.block.left) && (bitAt a.block.pat 0 != a.block.val))))
  ∧ (
    (∀ f pc h, f.u = false → field f.mod.toNat 7 5 = 0 → 0 < f.la.toNat → f.d ≠ 0 →
      openWindow (shape (.ld f)) f pc h = [{ left := f.la.toNat, pred := none, first := f.d.toNat, count := 1, handler := h, addr := pc }])
    ∧ (∀ f pc h, f.la = 0 → openWindow (shape (.ld f)) f pc h = [])
    ∧ (∀ f pc h, f.u = false → 0 < f.la.toNat → f.d = 0 → ∃ v, openWindow (shape (.ld f)) f pc h = [v] ∧ v.left = f.la.toNat ∧ v.addr = pc
        ∧ ∀ sh g, v.meets sh g = false)
    ∧ (∀ v : Window, v.suspended = false →
        (1 < v.left → ageWindows [v] = [{ v with left := v.left - 1 }]) ∧ (v.left ≤ 1 → ageWindows [v] = []))
    ∧ ∀ (g : Fields) (v : Window), v.suspended = false → v.count = 1 → g.u = false → bitAt g.mod.toNat 7 = false →
        (g.a.toNat = v.first ∨ g.b.toNat = v.first ∨ g.d.toNat = v.first) → 0 < v.first → v.meets (shape (.iadd g)) g = true)

/-- R47: register 0 reads 0 and a write of it is discarded, p0 reads false and p7 true; any other register or predicate reads as it was last written.
R43: a helper of the thread's quad performs an instruction that a thread performs, in its own registers. -/
def Obligations.Registers : Prop :=
  (
    (∀ (t : Machine.Task) th v, t.reg th 0 = 0 ∧ t.setReg th 0 v = t)
    ∧ (∀ (t : Machine.Task) k r v, k < t.threads.length → r ≠ 0 → (t.setReg (some k) r v).reg (some k) r = v % 2 ^ 32)
    ∧ (∀ (t : Machine.Task) r v, r ≠ 0 → (t.setReg none r v).reg none r = v % 2 ^ 64)
    ∧ (∀ (t : Machine.Task) th th' r r' v, th ≠ th' ∨ r ≠ r' → (t.setReg th r v).reg th' r' = t.reg th' r')
    ∧ (∀ a : Agent, a.pred 0 = false ∧ a.pred 7 = true)
    ∧ (∀ (a : Agent) p v, 1 ≤ p → p ≤ 6 → (a.setPred p v).pred p = v)
    ∧ (∀ (a : Agent) p v, p = 0 ∨ p = 7 → a.setPred p v = a)
    ∧ ∀ (a : Agent) p q v, p ≠ q → (a.setPred p v).pred q = a.pred q)
  ∧ (
    ∀ f id k h (t : Machine.Task) s, s.task? id = some t → s.cur = { task := id, uniform := false, threads := [k] } → t.canIssue k = true →
      (t.thread h).status = .helper → h < t.threads.length → h / 4 = k / 4 → (∀ j, (t.thread j).status = .helper → j = h) →
      check (.iadd f) f t (some k) = .ok false → check (.iadd f) f t (some h) = .ok false →
      let sum (w : Who) : Nat := (sourceOf f w t f.a + sourceOf f w t f.b) % 2 ^ widthOf f
      let s1 := retired (.iadd f) f ⟨id, some k⟩ t (withResult f ⟨id, some k⟩ f.d (sum ⟨id, some k⟩) s)
      exec (.iadd f) s = .next ((withResult f ⟨id, some h⟩ f.d (sum ⟨id, some h⟩) s1).retire ⟨id, some h⟩ .next
        (decide (0 < (t.thread h).ag.block.left)) []))

/-! ### Frames -/

/-- R47, R60: an arithmetic, conversion or query instruction that completes changes its destinations and its own agent's progress, and nothing else:
every other register, predicate, agent, task, unit, tree and context, and every byte of memory, is as before. -/
def Obligations.RegisterFrames : Prop :=
  ∀ mk ∈ registerOnly, ∀ f w t s s', Turn (mk f) f w t s → exec (mk f) s = .next s' →
    SameElsewhere w.task s s'
    ∧ ∃ t', s'.task? w.task = some t' ∧ SameTask t t'
      ∧ (∀ th r, ¬ (th = w.thread ∧ isDest (mk f) f r) → t'.reg th r = t.reg th r)
      ∧ (∀ p, ¬ isPredDest (mk f) f p → (t'.agent w.thread).pred p = (t.agent w.thread).pred p)
      ∧ ((t'.agent w.thread).stack = (t.agent w.thread).stack ∧ (t'.agent w.thread).spilled = (t.agent w.thread).spilled
          ∧ (t'.agent w.thread).copyOrd = (t.agent w.thread).copyOrd ∧ (t'.agent w.thread).opened = (t.agent w.thread).opened)
      ∧ ∀ th, th ≠ w.thread → t'.agent th = t.agent th

/-- R241, R248, R400: whether they complete, wait or trap, these instructions leave every byte of memory as it was, at its home and as the agents of
every cluster see it: arithmetic, exchanges, pigeonhole accesses, barriers, decision queues, expansions, control registers. (A tree that a trap ends
performs the stores that its agents have passed over, log entry 31; here there are none.) -/
def Obligations.MemoryFrames : Prop :=
  ∀ mk ∈ memoryQuiet, ∀ f s s', NothingLate s → exec (mk f) s = .next s' →
    s'.mem = s.mem ∧ ((∀ cl, L1Sound s cl) → ∀ cl a, seen s' cl a = seen s cl a)

/-! ### Traps (16 R396 to R401) -/

/-- R396, R399 to R401: taking a trap. The agent is held with what its frame will say; registers, memory and every other agent are as they were. A
uniform stream that traps in its handler ends its tree with HANDLER_TRAP. R401: a uniform stream that traps while its handler is active ends its tree.
-/
def Obligations.TrapTaken : Prop :=
  (
    ∀ s w t pc word r, State.task? s w.task = some t →
      (w.thread = none → t.handler = none) → (∀ k, w.thread = some k → k < t.threads.length) →
      let s' := s.takeTrap w pc word r
      s'.mem = s.mem ∧ s'.trees = s.trees ∧ s'.clusters = s.clusters ∧ (∀ id, id ≠ w.task → s'.task? id = s.task? id)
      ∧ (∃ t' p, s'.task? w.task = some t' ∧ (t'.agent w.thread).pending = some p ∧ p.cause = r.cause ∧ p.pc = pc ∧ p.insn = word
          ∧ p.addr = r.addr ∧ p.ident = r.ident ∧ p.uniform = w.thread.isNone ∧ p.stamp = s.cycle t.cluster ∧ p.digest = t.entry.ped.digest
          ∧ (∀ k, w.thread = some k → p.tid = k + 512 * t.gslots.getD (k / 32) 0)
          ∧ t'.held w.thread = true ∧ (∀ k, w.thread = some k → t'.canIssue k = false)
          ∧ (t'.agent w.thread).pc = (t.agent w.thread).pc ∧ (t'.agent w.thread).preds = (t.agent w.thread).preds
          ∧ (∀ th r, t'.reg th r = t.reg th r) ∧ ∀ th, th ≠ w.thread → t'.agent th = t.agent th))
  ∧ (
    ∀ s id t pc word r tr, State.task? s id = some t → t.handler.isSome = true → s.tree? t.entry.tree = some tr → tr.ending = none →
      let s' := s.takeTrap { task := id } pc word r
      s' = s.abortTree t.entry.tree 11
      ∧ (∀ x ∈ s'.tasks, x.entry.tree ≠ t.entry.tree) ∧ (∀ c ∈ s'.cores, ∀ e ∈ c.2.deque, e.tree ≠ t.entry.tree)
      ∧ (∃ tr', s'.tree? t.entry.tree = some tr' ∧ tr'.ending = some 11) ∧ (NothingLate s → s'.mem = s.mem))

/-- R162, R399, R400: delivery writes the frame of the pending trap with the smallest STAMP at SAVEPTR and enters the handler at TRAPVEC with s1 the
frame's address, clearing the matrix fault record that it reports; without a vector, or with one that fails its check, the tree ends with UNHANDLED.
That a stall or a QFENCE of the uniform stream begins anew when it comes back is the model's reading (log entry 37). R407, with the fields of R408,
R409, R411 and 14 R367: the bytes of a saved image. The slot header, the uniform block, a thread record and an expand image hold the task's state at
their places, and what is read back from a block is what was written. -/
def Obligations.TrapDelivery : Prop :=
  (
    (∀ id (t : Machine.Task) s th p s1, s.task? id = some t → t.resident = true → t.handler = none → t.drain = none → t.waits = none → t.u.ag.parked = none →
      (t.u.ag.entry = false ∨ t.u.ag.pending.isSome = true) → t.firstPending = some (th, p) →
      let lanes := match th with
        | none => 0
        | some k => ofBits ((t.threadsWhere (fun j x => j / 32 == k / 32 &&
            match x.ag.pending with | some q => q.cause == p.cause && q.pc == p.pc | none => false)).map (fun j => j % 32))
      let bytes := p.frame lanes (decide (1 < t.pendings.length)) t.u.ag.pc.toNat (t.reg none 1) t.u.ag.block
      (s.writeBackAll t.cluster).cpWrite t.entry.ctx t.savePtr bytes true = .ok s1 →
      (∀ s2, t.trapVec ≠ 0 → (s1.dropClean t.cluster).checkTarget t t.trapVec.toNat = (.pass, s2) →
        ∃ s' t', exec (.trapDelivery id) s = .next s' ∧ s'.mem = s1.mem ∧ s'.task? id = some t' ∧ t'.u.ag.pc = t.trapVec
          ∧ t'.handler = some { trap := p, upc := t.u.ag.pc, s1 := BitVec.ofNat 64 (t.reg none 1), block := t.u.ag.block,
                                waiting := t.u.ag.waiting && t.u.ag.stall.isNone && t.u.ag.fence.isNone }
          ∧ t'.reg none 1 = t.savePtr % 2 ^ 64 ∧ (∀ r, r ≠ 1 → t'.reg none r = t.reg none r) ∧ (∀ k r, t'.reg (some k) r = t.reg (some k) r)
          ∧ t'.u.ag.block = {} ∧ t'.fault = (if p.matrix then none else t.fault) ∧ (∀ wd ∈ t'.u.ag.windows, wd.suspended = true) ∧ (th = none → t'.u.ag.pending = none)
          ∧ ∀ k, t'.agent (some k) = t.agent (some k))
      ∧ (t.trapVec = 0 → exec (.trapDelivery id) s = .next ((s1.dropClean t.cluster).abortTree t.entry.tree 12))
      ∧ ∀ s2, t.trapVec ≠ 0 → (s1.dropClean t.cluster).checkTarget t t.trapVec.toNat = (.bad, s2) → exec (.trapDelivery id) s = .next (s2.abortTree t.entry.tree 12))
    ∧ ∀ (p : Trap) lanes more upc s1 blk,
        let fr := p.frame lanes more upc s1 blk
        fr.length = 128 ∧ leField fr 0 4 = p.cause % 2 ^ 32 ∧ leField fr 8 8 = p.pc % 2 ^ 64 ∧ leField fr 16 12 = p.insn.toNat
        ∧ leField fr 28 4 = p.tid % 2 ^ 32 ∧ leField fr 32 8 = p.addr.getD 0 % 2 ^ 64 ∧ leField fr 40 4 = lanes % 2 ^ 32
        ∧ leField fr 48 8 = p.digest % 2 ^ 64 ∧ leField fr 64 8 = p.ident % 2 ^ 64 ∧ leField fr 72 8 = p.stamp % 2 ^ 64
        ∧ leField fr 80 8 = upc % 2 ^ 64 ∧ leField fr 88 8 = s1 % 2 ^ 64)
  ∧ (
    (∀ (s : State) t form r, s.tree? t.entry.tree = some r →
      let h := s.slotHeader t form
      let sizes := s.slotSizesOf t
      h.length = 128 ∧ leField h 0 4 = 0x33585356 ∧ leField h 4 1 = form % 256 ∧ leField h 5 1 = b2n t.handler.isSome + 2 * b2n t.allot.full
      ∧ leField h 6 2 = 0 ∧ leField h 8 4 = t.entry.record % 2 ^ 32 ∧ leField h 12 4 = (t.entry.groups - 1) % 2 ^ 32
      ∧ leField h 16 8 = r.code % 2 ^ 64 ∧ leField h 24 8 = slotSize sizes % 2 ^ 64
      ∧ (∀ k, k < 10 → leField h (32 + 4 * k) 4 = slotOffset sizes (k + 2) % 2 ^ 32)
      ∧ leField h 72 1 = t.expans.length % 256 ∧ leField h 73 7 = 0 ∧ leField h 80 8 = t.saves % 2 ^ 64 ∧ leField h 88 40 = 0)
    ∧ (∀ (s : State) t, let sizes := s.slotSizesOf t
        (slotOffset sizes 2, t.uniformBytes) ∈ s.imageWrites t ∧ (slotOffset sizes 3, t.taskBytes) ∈ s.imageWrites t
        ∧ (slotOffset sizes 4, t.engineBytes) ∈ s.imageWrites t
        ∧ (∀ k, k < t.threads.length → (slotOffset sizes 5 + (1024 + 4 * t.entry.rcd.regWords) * k, t.threadBytes k) ∈ s.imageWrites t)
        ∧ (slotOffset sizes 9, t.expans.flatMap Expansion.image) ∈ s.imageWrites t)
    ∧ (∀ t : Machine.Task, let d := t.uniformBytes
        d.length = 2048 ∧ (∀ k, k < 64 → leField d (8 * k) 8 = t.reg none k) ∧ leField d 512 8 = t.u.ag.pc.toNat
        ∧ (∀ k, k < 8 → bitAt (leField d 520 1) k = t.u.ag.pred k) ∧ leField d 521 1 = b2n t.u.ag.waiting
        ∧ leField d 524 4 = t.u.mcmdOrd.toNat ∧ leField d 528 4 = t.u.mconvOrd.toNat ∧ leField d 532 4 = t.u.ag.copyOrd.toNat
        ∧ leField d 536 4 = t.u.ag.batchOrd.toNat ∧ leField d 540 2 = t.u.pedpos.toNat ∧ leField d 544 8 = t.u.retired.toNat
        ∧ leField d 552 8 = t.u.lo % 2 ^ 64 ∧ leField d 560 8 = t.u.hi % 2 ^ 64 ∧ leField d 648 4 = t.u.ag.stack.length % 2 ^ 32
        ∧ leField d 1472 64 = t.entry.ped.image ∧ leField d 1536 8 = t.trapVec.toNat ∧ leField d 1544 4 = t.fmtDef.toNat
        ∧ leField d 1548 4 = t.modes.toNat ∧ leField d 1552 4 = t.hstall.toNat ∧ leField d 1560 8 = t.taskcfg % 2 ^ 64 ∧ leField d 1680 368 = 0)
    ∧ (∀ (t : Machine.Task) k, let d := t.threadBytes k
        let th := t.thread k
        d.length = 1024 + 4 * t.entry.rcd.regWords
        ∧ (∀ j, 1 ≤ j → j ≤ t.entry.rcd.regWords → leField d (1024 + 4 * (j - 1)) 4 = if j ≤ t.allot.regs then t.reg (some k) j else 0)
        ∧ leField d 0 8 = th.ag.pc.toNat ∧ (∀ p, p < 8 → bitAt (leField d 8 1) p = th.ag.pred p)
        ∧ bitAt (leField d 9 1) 0 = (th.status == .live) ∧ bitAt (leField d 9 1) 1 = (th.status == .helper)
        ∧ bitAt (leField d 9 1) 2 = (th.status == .free) ∧ bitAt (leField d 9 1) 3 = th.ag.parked.isSome
        ∧ bitAt (leField d 9 1) 4 = th.ag.pending.isSome ∧ bitAt (leField d 9 1) 5 = th.ag.waiting
        ∧ leField d 12 4 = th.convOrd.toNat ∧ leField d 80 4 = th.ag.stack.length % 2 ^ 32 ∧ leField d 88 8 = th.cursor % 2 ^ 64
        ∧ leField d 96 8 = th.sliceEnd % 2 ^ 64 ∧ leField d 320 4 = th.scaddOrd.toNat ∧ leField d 896 1 = th.marker % 256
        ∧ leField d 984 40 = 0)
    ∧ (∀ t u : Machine.Task, let v := u.readUniform t.uniformBytes
        (∀ r, r < 64 → v.reg none r = t.reg none r) ∧ v.u.ag.pc = t.u.ag.pc ∧ (∀ p, v.u.ag.pred p = t.u.ag.pred p)
        ∧ (u.u.ag.anew = false → v.u.ag.waiting = t.u.ag.waiting) ∧ v.trapVec = t.trapVec ∧ v.fmtDef = t.fmtDef ∧ v.modes = t.modes ∧ v.hstall = t.hstall
        ∧ v.u.mcmdOrd = t.u.mcmdOrd ∧ v.u.mconvOrd = t.u.mconvOrd ∧ v.u.pedpos = t.u.pedpos ∧ v.u.retired = t.u.retired
        ∧ v.u.ag.copyOrd = t.u.ag.copyOrd ∧ v.u.ag.batchOrd = t.u.ag.batchOrd ∧ v.u.lo = t.u.lo % 2 ^ 64 ∧ v.u.hi = t.u.hi % 2 ^ 64
        ∧ (t.u.ag.stack.length ≤ 8 → v.u.ag.stack = t.u.ag.stack) ∧ ∀ k r, v.reg (some k) r = u.reg (some k) r)
    ∧ (∀ (t u : Machine.Task) k, k < u.threads.length → u.allot = t.allot → u.entry.rcd = t.entry.rcd → let v := u.readThread k (t.threadBytes k)
        (∀ r, r ≤ t.allot.regs → r ≤ t.entry.rcd.regWords → v.reg (some k) r = t.reg (some k) r) ∧ (v.thread k).ag.pc = (t.thread k).ag.pc
        ∧ (∀ p, (v.thread k).ag.pred p = (t.thread k).ag.pred p) ∧ ((u.thread k).ag.anew = false → (v.thread k).ag.waiting = (t.thread k).ag.waiting)
        ∧ (v.thread k).status = (t.thread k).status ∧ (v.thread k).convOrd = (t.thread k).convOrd ∧ (v.thread k).scaddOrd = (t.thread k).scaddOrd
        ∧ (v.thread k).cursor = (t.thread k).cursor % 2 ^ 64 ∧ (v.thread k).sliceEnd = (t.thread k).sliceEnd % 2 ^ 64
        ∧ ((t.thread k).ag.stack.length ≤ 8 → (v.thread k).ag.stack = (t.thread k).ag.stack)
        ∧ (∀ r, v.reg none r = u.reg none r) ∧ ∀ j, j ≠ k → v.thread j = u.thread j)
    ∧ ∀ e : Expansion, e.base < 16 → e.logn < 4 → e.op < 16 → e.width < 256 → e.total < 2 ^ 32 → e.round < 2 ^ 32 →
        e.dealer < 2 ^ 128 → e.arrived < 2 ^ 128 → e.done < 2 ^ 128 → e.hasVal < 2 ^ 128 → e.cur < 2 ^ 128 →
        let d := e.image
        let x := expansionOf d
        d.length = 3200 ∧ x.base = e.base ∧ x.logn = e.logn ∧ x.op = e.op ∧ x.d64 = e.d64 ∧ x.total = e.total ∧ x.round = e.round
        ∧ x.dealer = e.dealer ∧ x.arrived = e.arrived ∧ x.done = e.done ∧ x.hasVal = e.hasVal ∧ x.cur = e.cur
        ∧ ∀ k, k < 128 → Sparse.get 0 x.start k = Sparse.get 0 e.start k % 2 ^ 32 ∧ Sparse.get 0 x.pref k = Sparse.get 0 e.pref k % 2 ^ 32
            ∧ Sparse.get 0 x.acc k = Sparse.get 0 e.acc k % 2 ^ 64 ∧ Sparse.get 0 x.val k = Sparse.get 0 e.val k % 2 ^ 64)

/-! ### The invariant -/

/-- The invariant holds at reset. -/
def Obligations.ResetInv : Prop := Sys2Proof.Inv State.reset

/-- R243, R248: every step keeps the invariant: memory canonical, three dies, and the L1 of every cluster with one copy of a line, of 128 bytes. -/
def Obligations.StepKeepsInv : Prop := ∀ s s', Sys2Proof.Inv s → step s = .next s' → Sys2Proof.Inv s'

/-! ### Queues and packets (15 R378 to R386) -/

/-- R379, R453: a write to a queue doorbell. A queue that a device fills discards it, a value beyond the ring disables the queue, and any other counts
where it is the largest; a value that cannot be compared with READ yet, since the descriptor's page is not present, is kept until it can, the largest
of them. That a value is compared and counts whether or not the queue is enabled, and that one which cannot be compared is kept, is the model's
reading (log entry 58); that the ring of a descriptor which breaks R378 bounds nothing, and that a write ends a disabled queue's rest, are its choice
(log entry 79). R377, R387, R391, R392: what the host does to the module's registers and memory: its window, the management doorbell, a replay of
parked accesses and accesses to companion and HBM addresses. What a read of its window and of companion memory gives is the model's choice (log entry
33); that the doorbell only records a command, which an event of its own performs (log entry 32), and that without a leader BUSY answers it whatever
command is open (log entry 61), are its reading. -/
def Obligations.HostInterface : Prop :=
  (
    (∀ ctx q v s c bs, State.ctx? s ctx = some c → q < c.nQueues → s.cpRead ctx (c.queueTab + 64 * q) 64 = .ok bs →
      let d := queueDesc bs
      let heard := (s.modQueue ctx q (fun x => { x with dead := false })).modQueue ctx q (fun x => { x with unchecked := none })
      (bitAt (leField bs 9 1) 1 = true →
        ∃ s' c', exec (.queueDoorbell ctx q v) s = .next s' ∧ s'.ctx? ctx = some c' ∧ (c'.queue q).doorbell = (c.queue q).doorbell
          ∧ (∀ p, p ≠ q → c'.queue p = c.queue p) ∧ s'.mem = s.mem ∧ s'.tasks = s.tasks)
      ∧ (bitAt (leField bs 9 1) 1 = false → d.ok = true → (c.queue q).unchecked = none → leField bs 24 8 + 2 ^ leField bs 8 1 < v →
          exec (.queueDoorbell ctx q v) s = .next (heard.disableQueue ctx q))
      ∧ (bitAt (leField bs 9 1) 1 = false → v ≤ leField bs 24 8 + 2 ^ leField bs 8 1 →
          (∀ u, (c.queue q).unchecked = some u → u ≤ leField bs 24 8 + 2 ^ leField bs 8 1) →
          ∃ s' c', exec (.queueDoorbell ctx q v) s = .next s' ∧ s'.ctx? ctx = some c'
            ∧ (c'.queue q).doorbell = max (max (c.queue q).doorbell ((c.queue q).unchecked.getD 0)) v ∧ (c'.queue q).unchecked = none
            ∧ (∀ p, p ≠ q → c'.queue p = c.queue p) ∧ s'.mem = s.mem ∧ s'.tasks = s.tasks))
    ∧ (∀ ctx q v p (s : State) c, s.ctx? ctx = some c → q < c.nQueues → s.cpRead ctx (c.queueTab + 64 * q) 64 = .pend p →
        ∃ s' c', exec (.queueDoorbell ctx q v) s = .next s' ∧ s'.ctx? ctx = some c' ∧ (c'.queue q).doorbell = (c.queue q).doorbell
          ∧ (c'.queue q).unchecked = some (max ((c.queue q).unchecked.getD 0) v) ∧ (c'.queue q).parked = some p)
    ∧ (∀ ctx q v (s : State), ctx < 64 → q < 32 →
        exec (.hostRegisterWindow (0x10000 + 256 * ctx + 8 * q) (some v)) s = exec (.queueDoorbell ctx q v.toNat) s)
    ∧ ∀ ctx v (s : State), ctx < 64 → exec (.hostRegisterWindow (0x20000 + 8 * ctx) (some v)) s = exec (.replayDoorbell ctx) s)
  ∧ (
    (∀ o (s : State), exec (.hostRegisterWindow o none) s = .next s)
    ∧ (∀ o v (s : State), s.mgmtBlock.length = 64 → o % 8 = 0 → 0x1000 ≤ o → o < 0x1040 →
        ∃ s', exec (.hostRegisterWindow o (some v)) s = .next s' ∧ s'.mgmtBlock.length = 64
          ∧ leField s'.mgmtBlock (o - 0x1000) 8 = v.toNat
          ∧ (∀ k, k < o - 0x1000 ∨ o - 0x1000 + 8 ≤ k → s'.mgmtBlock[k]? = s.mgmtBlock[k]?) ∧ s'.mem = s.mem ∧ s'.mgmt = s.mgmt)
    ∧ (∀ v (s : State), s.leader.isSome = true → s.mgmt = none →
        ∃ s', exec (.hostRegisterWindow 0x1040 (some v)) s = .next s' ∧ s'.mgmt = some { tag := v.setWidth 32, block := s.mgmtBlock }
          ∧ s'.mgmtStatus = s.mgmtStatus)
    ∧ (∀ v (s : State), s.leader = none →
        ∃ s', exec (.hostRegisterWindow 0x1040 (some v)) s = .next s' ∧ s'.mgmtStatus = BitVec.ofNat 64 (v.toNat % 2 ^ 32 + 2 ^ 32)
          ∧ s'.mgmt = s.mgmt)
    ∧ (∀ v (s : State), s.leader.isSome = true → s.mgmt.isSome = true → exec (.hostRegisterWindow 0x1040 (some v)) s = .next s)
    ∧ (∀ (s : State), s.windowRead 0x1048 = s.mgmtStatus.toNat ∧ s.windowRead 0 % 2 ^ 48 = 0x33584E49 + 2 ^ 32 ∧ s.windowRead 0x1000 = 0
        ∧ s.windowRead 0x3000 = s.service.length % 2 ^ 64)
    ∧ (∀ ctx (s : State) c, s.ctx? ctx = some c → c.heldEvents = [] →
        ∃ s' c', exec (.replayDoorbell ctx) s = .next s' ∧ s'.mem = s.mem ∧ s'.ctx? ctx = some c' ∧ c'.faults = []
          ∧ (∀ q, (c'.queue q).parked = none) ∧ (∀ r ∈ s'.trees, r.ctx = ctx → r.waits = none)
          ∧ (∀ k, (∀ e ∈ (s'.core k).deque, e.ctx = ctx → e.waits = none) ∧ ∀ w, (s'.core k).waits = some w → w.1 ≠ ctx)
          ∧ ∀ t ∈ s'.tasks, t.entry.ctx = ctx → t.waits = none ∧ (t.resident = true →
              t.u.ag.parked = none ∧ (∀ th ∈ t.threads, th.ag.parked = none) ∧ t.q4park = none ∧ ∀ l ∈ t.copyq, ∀ x ∈ l, x.parked = none))
    ∧ (∀ pa n v (s : State), 0 < n → (∀ k, k < n → s.exists? (pa + k) = true) →
        exec (.companionAccess pa n none) s = .next s
        ∧ ∃ s', exec (.companionAccess pa n (some v)) s = .next s' ∧ s'.tasks = s.tasks ∧ s'.clusters = s.clusters
          ∧ (∀ k, k < n → Sparse.get 0 s'.mem (pa + k) =
              if s.keptByCp (pa + k) then Sparse.get 0 s.mem (pa + k) else BitVec.ofNat 8 (v / 256 ^ k))
          ∧ ∀ a, a < pa ∨ pa + n ≤ a → Sparse.get 0 s'.mem a = Sparse.get 0 s.mem a)
    ∧ ∀ pa n d (s : State), (s.exists? pa = false ∨ (s.out ≠ [] ∧ ∃ k, k < n ∧ s.exists? (pa + k) = false)) → exec (.companionAccess pa n d) s = .fault .noSuchAddress)

/-- R381 to R385: packets. A launch that keeps its ranges waits in its queue, and one that does not is refused with LAUNCH_FORM; the other packets
take effect, or are refused with PACKET_FORM; a refusal writes a status record and passes on, and one whose record's page is not present is kept. A
determinism packet of level 2 reads its trace buffer's header: a recording writes STEPPING and CLUSTERS there, a binding is noted, and a header that
breaks 17 R434 or cannot be read refuses it. That one with a bit of byte 2 above bit 1 set is refused is the model's choice (log entry 94). A report
writes the record, decrements the signal that it can reach, and sends the message. -/
def Obligations.Packets : Prop :=
  (∀ ctx q c bytes bs s, NextPacket ctx q c bytes bs s →
    let d := queueDesc bytes
    let ty := leField bs 0 1
    let s1 := s.modQueue ctx q (fun x => { x with packet := some bs })
    (∀ i, (i = .treeLaunch ctx q ∧ ty = 1) ∨ (i = .sweepLaunch ctx q ∧ ty = 2) →
      (launchOk bs = true → ∃ s' c', exec i s = .next s' ∧ s'.ctx? ctx = some c' ∧ (c'.queue q).packet = some bs ∧ s'.mem = s.mem
        ∧ s'.trees = s.trees ∧ s'.tasks = s.tasks)
      ∧ (launchOk bs = false → exec i s = .next (s1.refuse ctx q d bs 1)))
    ∧ (ty = 0 ∨ 5 ≤ ty → exec (.unknownPacketType ctx q) s = .next (s1.refuse ctx q d bs 2))
    ∧ (ty = 4 → (c.queue q).indirect = none → leField bs 8 8 % 128 = 0 → leField bs 16 4 ≠ 0 → leField bs 16 4 ≤ 65535 → leField bs 1 7 = 0 →
        leField bs 20 108 = 0 →
        ∃ s' c', exec (.indirectBuffer ctx q) s = .next s' ∧ s'.ctx? ctx = some c'
          ∧ (c'.queue q).indirect = some (leField bs 8 8, leField bs 16 4, 0) ∧ s'.mem = s.mem)
    ∧ (ty = 4 → ((c.queue q).indirect.isSome = true ∨ leField bs 8 8 % 128 ≠ 0 ∨ leField bs 16 4 = 0 ∨ 65535 < leField bs 16 4) →
        exec (.indirectBuffer ctx q) s = .next (s1.refuse ctx q d bs 2))
    ∧ (ty = 3 → leField bs 2 1 < 2 → leField bs 1 1 = 0 → leField bs 3 5 = 0 → leField bs 8 120 = 0 →
        exec (.determinismPacket ctx q) s = .next ((s1.modQueue ctx q (fun x => { x with level := leField bs 2 1, trace := none })).advanceQueue ctx q d))
    ∧ (ty = 3 → (2 < leField bs 2 1 ∨ leField bs 1 1 ≠ 0 ∨ 1 < leField bs 3 1 ∨ leField bs 4 4 ≠ 0 ∨ leField bs 16 112 ≠ 0) →
        exec (.determinismPacket ctx q) s = .next (s1.refuse ctx q d bs 2))
    ∧ (ty = 3 → leField bs 2 1 < 2 → (leField bs 3 1 ≠ 0 ∨ leField bs 8 8 ≠ 0) → exec (.determinismPacket ctx q) s = .next (s1.refuse ctx q d bs 2))
    ∧ (ty = 3 → leField bs 8 8 % 64 ≠ 0 → exec (.determinismPacket ctx q) s = .next (s1.refuse ctx q d bs 2))
    ∧ (ty = 3 → leField bs 2 1 = 2 → leField bs 1 1 = 0 → leField bs 3 1 ≤ 1 → leField bs 4 4 = 0 → leField bs 16 112 = 0 → leField bs 8 8 % 64 = 0 →
        let a := leField bs 8 8
        (∀ p, s1.cpRead ctx a 128 = .pend p → exec (.determinismPacket ctx q) s = .next (s1.parkQueue ctx q p))
        ∧ (s1.cpRead ctx a 128 = .fault → exec (.determinismPacket ctx q) s = .next (s1.refuse ctx q d bs 2))
        ∧ ∀ h, s1.cpRead ctx a 128 = .ok h →
          let form : Prop := leField h 0 4 = 0x33585452 ∧ leField h 4 4 ≤ 1 ∧ leField h 8 8 ≠ 0 ∧ leField h 25 7 = 0 ∧ leField h 104 24 = 0
            ∧ (leField bs 3 1 = 0 → leField h 4 4 = 0 ∧ leField h 16 8 = 0 ∧ leField h 24 1 = 0 ∧ leField h 32 72 = 0)
          (¬form → exec (.determinismPacket ctx q) s = .next (s1.refuse ctx q d bs 2))
          ∧ (form → leField bs 3 1 = 1 → exec (.determinismPacket ctx q) s = .next
              ((({ s1 with nextId := s1.nextId + 1 } : State).modQueue ctx q (fun x => { x with
                level := 2, trace := some { addr := a, bind := true, binding := s1.nextId } })).advanceQueue ctx q d))
          ∧ ∀ s2, form → leField bs 3 1 = 0 →
              s1.cpWrite ctx (a + 24) (leBytes 1 2 ++ List.replicate 7 0 ++ leBytes 72 (s1.partitionMap c.partition)) = .ok s2 →
              exec (.determinismPacket ctx q) s = .next
                ((s2.modQueue ctx q (fun x => { x with level := 2, trace := some { addr := a, bind := false } })).advanceQueue ctx q d))
    ∧ (ty ≠ 1 → exec (.treeLaunch ctx q) s = .next s1) ∧ (ty ≠ 2 → exec (.sweepLaunch ctx q) s = .next s1))
  ∧ (∀ (s : State) p cl, (s.clusters.map Prod.fst).Nodup →
      (bitAt (s.partitionMap p) cl = true ↔ (s.cluster cl).partition = some p ∧ (s.cluster cl).inService = true))
  ∧ (∀ ctx q c bytes bs p s, NextPacket ctx q c bytes bs s → leField bs 0 1 = 0 →
      (s.modQueue ctx q (fun x => { x with packet := some bs })).report ctx q (queueDesc bytes).read 2 0 false = .pend p →
      ∃ s' c', exec (.unknownPacketType ctx q) s = .next s' ∧ s'.ctx? ctx = some c' ∧ (c'.queue q).refused = some 2
        ∧ (c'.queue q).packet = some bs ∧ (c'.queue q).parked = some p)
  ∧ ∀ ctx q n st (s : State) c bytes s1, s.ctx? ctx = some c → s.cpRead ctx (c.queueTab + 64 * q) 64 = .ok bytes →
      let told := s1.interrupts ++ [{ vec := c.intVec, ctx := ctx, queue := q, index := n }]
      (s.cpWrite ctx ((queueDesc bytes).statusAt n) (leBytes 8 n ++ leBytes 4 st ++ leBytes 4 0) = .ok s1 →
        s.report ctx q n st 0 false = .ok s1 ∧ s.report ctx q n st 0 true = .ok { s1 with interrupts := told }
        ∧ ∀ sg pa ch, sg ≠ 0 → sg % 8 = 0 → s.translateCp ctx sg { r := true, w := true } = .ok pa ch →
            s.report ctx q n st sg false = .ok (s1.decrement pa))
      ∧ ∀ sg, sg ≠ 0 → sg % 8 = 0 → s.translateCp ctx sg { r := true, w := true } = .fault →
          s.cpWrite ctx ((queueDesc bytes).statusAt n) (leBytes 8 n ++ leBytes 4 st ++ leBytes 4 1) = .ok s1 →
          s.report ctx q n st sg false = .ok s1

/-! ### Trees (13 R320 to R323; 08 R205; 09 R220) -/

/-- R320, R322, R323: a tree launch whose dependences are satisfied starts with its seed task in a deque, a sweep launch with a counter of 0 and its
walker at the first tile; a walker creates the next tile's task; a tree whose work is done writes the last band's record, is reported and gone, and a
tag returns to use. -/
def Obligations.TreesStartAndEnd : Prop :=
  (∀ ctx q core (s : State) c qd d r, s.ctx? ctx = some c → s.readQueue ctx q = .packet s qd [] → (c.queue q).refused = none →
    (c.queue q).packet = some d → (leField d 0 1 = 1 ∨ leField d 0 1 = 2) → launchOk d = true →
    (bitAt (leField d 1 1) 1 = false ∨ ∀ x ∈ s.trees, x.reported = true ∨ x.ctx ≠ ctx ∨ x.queue ≠ q) →
    s.depsMet ctx d = .ok true → s.launchPlan ctx q c qd.read d = .ok (.ok r) →
    ((c.queue q).level = 0 ∨ s.freeTag.isSome = true) → core < 2304 → s.inPartition core ctx = true → (s.cluster (core / 4)).inService = true →
    (∀ x ∈ s.trees, x.id ≠ r.id) → r.sweep = false → r.trace = none → (s.core core).deque.length < 64 →
    ∃ s' e, exec (.launchStart ctx q core) s = .next s' ∧ s'.tree? r.id = some { r with counter := 1 }
      ∧ (s'.core core).deque.getLast? = some e ∧ (s'.core core).deque.length = (s.core core).deque.length + 1
      ∧ e.tree = r.id ∧ e.rcd = r.rcd ∧ e.groups = r.groups ∧ e.last = r.last ∧ e.ped = {} ∧ e.s = [r.arg, 0, 0, 0]
      ∧ e.lo = r.heapBase ∧ e.hi = r.heapBase + r.heapSize)
  ∧ (∀ ctx q core (s : State) c qd d r, s.ctx? ctx = some c → s.readQueue ctx q = .packet s qd [] → (c.queue q).refused = none →
    (c.queue q).packet = some d → leField d 0 1 = 2 → launchOk d = true →
    (bitAt (leField d 1 1) 1 = false ∨ ∀ x ∈ s.trees, x.reported = true ∨ x.ctx ≠ ctx ∨ x.queue ≠ q) →
    s.depsMet ctx d = .ok true → s.launchPlan ctx q c qd.read d = .ok (.ok r) →
    ((c.queue q).level = 0 ∨ s.freeTag.isSome = true) → core < 2304 → s.inPartition core ctx = true → (s.cluster (core / 4)).inService = true →
    (∀ x ∈ s.trees, x.id ≠ r.id) →
    ∃ s', exec (.launchStart ctx q core) s = .next s' ∧ s'.tree? r.id = some r ∧ r.sweep = true ∧ r.counter = 0 ∧ r.walker = 0
      ∧ (∀ k, (s'.core k).deque = (s.core k).deque) ∧ s'.tasks = s.tasks)
  ∧ (∀ ctx q core (s : State) c qd d, s.ctx? ctx = some c → s.readQueue ctx q = .packet s qd [] → (c.queue q).refused = none →
    (c.queue q).packet = some d → (leField d 0 1 = 1 ∨ leField d 0 1 = 2) → launchOk d = true →
      (s.depsMet ctx d = .ok false → exec (.launchStart ctx q core) s = .next s)
      ∧ (bitAt (leField d 1 1) 1 = true → (∃ x ∈ s.trees, x.reported = false ∧ x.ctx = ctx ∧ x.queue = q) →
          exec (.launchStart ctx q core) s = .next s)
      ∧ ∀ st, bitAt (leField d 1 1) 1 = false → s.depsMet ctx d = .ok true → s.launchPlan ctx q c qd.read d = .ok (.error st) →
          exec (.launchStart ctx q core) s = .next (s.refuse ctx q qd d st))
  ∧ (∀ tree core (s : State) r, s.tree? tree = some r → r.ending = none → r.waits = none → r.trace = none → r.walker < r.tiles →
      (r.bandOf r.walker < 2 ∨ (r.bands.getD (r.bandOf r.walker - 2) {}).complete = true) → core < 2304 → s.inPartition core r.ctx = true →
      (s.cluster (core / 4)).inService = true → (s.core core).deque.length < 64 →
      ∃ s' r' e, exec (.sweepTaskCreation tree core) s = .next s' ∧ s'.tree? tree = some r' ∧ r'.walker = r.walker + 1
        ∧ r'.counter = r.counter + 1 ∧ (s'.core core).deque.getLast? = some e ∧ e.tree = r.id ∧ e.tile = some r.walker
        ∧ e.ped = { sweep := true, elems := [r.walker / 1024 % 1024, r.walker % 1024] })
  ∧ (∀ tree core (s : State) r, s.tree? tree = some r → (r.tiles ≤ r.walker ∨ r.ending.isSome = true) →
      exec (.sweepTaskCreation tree core) s = .next s)
  ∧ (∀ tree (s s1 : State) r, s.tree? tree = some r → r.reported = false → r.waits = none → r.ending = none → r.counter = 0 → r.tiles ≤ r.walker → r.bindings = [] → s.poison = [] →
      r.trace = none → (∀ c ∈ r.tops, c.bins = []) → r.tag = none → r.due = none →
      (s.modTree tree (fun x => { x with ending := some 0, tops := [] })).report r.ctx r.queue r.index 0 r.signal r.intr = .ok s1 →
      ∃ s', exec (.treeComplete tree) s = .next s' ∧ s'.tree? tree = none ∧ s'.mem = s1.mem ∧ s'.interrupts = s1.interrupts)
  ∧ (∀ tree (s s1 s2 : State) r cov b, s.tree? tree = some r → r.reported = false → r.waits = none → r.ending = none → r.counter = 0 →
      r.tiles ≤ r.walker → r.bindings = [] → s.poison = [] → r.trace = none → (∀ c ∈ r.tops, c.bins = []) → r.tag = none →
      r.due = some b → r.cov = some cov → cov.record ≠ 0 → s.cpWrite r.ctx (cov.record + 16 * b) (r.bands.getD b {}).entry = .ok s2 →
      (s2.modTree tree (fun x => { x with ending := some 0, tops := [] })).report r.ctx r.queue r.index 0 r.signal r.intr = .ok s1 →
      ∃ s', exec (.treeComplete tree) s = .next s' ∧ s'.tree? tree = none ∧ s'.mem = s1.mem ∧ s'.interrupts = s1.interrupts)
  ∧ (∀ x : Band, x.entry.length = 16 ∧ leField x.entry 0 1 = x.code.getD 0 % 256 ∧ leField x.entry 1 3 = 0 ∧ leField x.entry 4 4 = x.n % 2 ^ 32
      ∧ leField x.entry 8 8 = x.s % 2 ^ 64)
  ∧ (∀ tree (s : State) r, s.tree? tree = some r → r.ending = none → (r.counter ≠ 0 ∨ r.walker < r.tiles) → exec (.treeComplete tree) s = .next s)
  ∧ (∀ tree (s s1 : State) r st, s.tree? tree = some r → r.reported = false → r.waits = none → r.ending = some st → r.tag = none →
      s.report r.ctx r.queue r.index st r.signal r.intr = .ok s1 →
      ∃ s', exec (.treeComplete tree) s = .next s' ∧ s'.tree? tree = none ∧ s'.mem = s1.mem)
  ∧ ∀ tag (s : State) r, r ∈ s.trees → r.tag = some tag → r.reported = true → tag ≠ 0 → tag < 128 →
      ∃ s', exec (.filterTagReturn tag) s = .next s' ∧ (∀ x ∈ s'.trees, x.tag = some tag → x.reported = false) ∧ s'.tasks = s.tasks
        ∧ ∀ a, (∀ d, d < 3 → a < s.postmarkBase d ∨ (d + 1) * dieBytes ≤ a) → Sparse.get 0 s'.mem a = Sparse.get 0 s.mem a

/-! ### Scheduling (13 R326 to R330; 16 R403 to R405, R413) -/

/-- R321, R326, R328: a core that admits the newest entry of its deque starts it; an idle core takes the oldest entry of the nearest victim. Which
slots and chunks it takes is the model's choice (log entry 9). R329, R403 to R405, R413: relief saves the youngest suspended task, or those that hold
what a request lacks, once 65,536 cycles have passed; a drain ends when its budget has elapsed, and a save or a flush that was held is then tried
again; a saved task is restored where it fits. How long a core has been unable to admit an entry, and which task is the youngest, are the model's
reading (log entries 60 and 73). R404, R406, R413: a save that its pages let through writes the image and then the header, and frees the core; a
restore installs the task that the slot gives on its new core; a flush completes the commands that have begun, discards the rest of the task, and
places its entry at the old end of the deque of a core of its partition. Which core is the model's choice (log entry 12); that a restored task counts
as started when it came to its core (log entry 73), and that it keeps what no field of the image holds (log entry 57), are its reading. -/
def Obligations.Scheduling : Prop :=
  (
    (∀ core s e rest r c save, CanStart core core e r c save s → (s.core core).waits = none → (s.core core).deque = rest ++ [e] → (s.core core).spilled ≤ rest.length →
      ∃ s', exec (.taskStart core) s = .next s' ∧ Started core (s.freeTaskSlot core) save e s' ∧ ∀ x ∈ (s'.core core).deque, x.id ≠ e.id)
    ∧ (∀ core (s : State), (s.core core).waits.isSome = true → exec (.taskStart core) s = .next s)
    ∧ (∀ core (s : State), (s.core core).deque = [] → (s.core core).spilled = 0 →
        ∃ s', exec (.taskStart core) s = .next s' ∧ s'.tasks = s.tasks ∧ s'.mem = s.mem)
    ∧ (∀ thief victim s e rest r c save, CanStart thief victim e r c save s → (s.core thief).waits = none → thief ≠ victim → (s.core thief).deque = [] → s.canAdmit thief 1 = true →
        (s.core victim).deque = e :: rest → (s.core victim).spilled ≤ rest.length → (∀ p ∈ s.cores, ringOf thief p.1 < ringOf thief victim → s.stealable thief p.1 = none) →
        ∃ s', exec (.steal thief victim) s = .next s' ∧ Started thief (s.freeTaskSlot thief) save e s' ∧ ∀ x ∈ (s'.core victim).deque, x.id ≠ e.id)
    ∧ ∀ thief victim (s : State), (s.core thief).deque ≠ [] → exec (.steal thief victim) s = .next s)
  ∧ (
    (∀ core (s : State) e, (s.core core).deque.getLast? = some e →
      ((s.cycle (core / 4) + 2 ^ 64 - e.since) % 2 ^ 64 < 65536 ∨ s.canAdmit core e.groups = true → exec (.dequeRelief core) s = .next s)
      ∧ (65536 ≤ (s.cycle (core / 4) + 2 ^ 64 - e.since) % 2 ^ 64 → s.canAdmit core e.groups = false →
          ∀ t l, s.youngestFirst ((s.residents core).filter (fun t => s.isSuspended t && !t.saving)) = t :: l →
            exec (.dequeRelief core) s = .next (s.saveTask t.entry.id)))
    ∧ (∀ cluster (s : State) req, s.oldestAcquire cluster = some req →
        ((∀ a ∈ (s.cluster cluster).acq, a.task = req.entry.id → (s.cycle cluster + 2 ^ 64 - a.since) % 2 ^ 64 < 65536) →
          exec (.acquireRelief cluster) s = .next s)
        ∧ ∀ a ∈ (s.cluster cluster).acq, a.task = req.entry.id → 65536 ≤ (s.cycle cluster + 2 ^ 64 - a.since) % 2 ^ 64 →
            (s.acquireFits req = true → exec (.acquireRelief cluster) s = .next s)
            ∧ exec (.acquireRelief cluster) s = .next (s.relieve req (s.youngestFirst (s.tasks.filter (fun u =>
                u.resident && u.cluster == cluster && !u.saving && !(s.cluster cluster).acq.any (fun a => a.task == u.entry.id))))))
    ∧ (∀ id (s : State) t e, s.task? id = some t → t.drain = some e → t.resident = true → (t.saving = false ∨ t.waits = none) →
        ((s.cycle t.cluster + 2 ^ 64 - e) % 2 ^ 64 < 2 ^ 63 →
          (t.restarting = false → exec (.drainBudget id) s = .next (s.saveTask id))
          ∧ (t.restarting = true → exec (.drainBudget id) s = .next (s.restartTask t)))
        ∧ (2 ^ 63 ≤ (s.cycle t.cluster + 2 ^ 64 - e) % 2 ^ 64 → exec (.drainBudget id) s = .next s))
    ∧ (∀ id (s : State) t, s.task? id = some t → t.drain = none → exec (.drainBudget id) s = .next s)
    ∧ (∀ id core (s : State) t order c slot s1, s.task? id = some t → t.waits = none → t.saveOrder? = some order → s.ctx? t.entry.ctx = some c →
        (t.suspended = true → ∀ x ∈ t.children, x.exited = true) → s.canHold core t = true → s.olderFits core order c.partition = false →
        s.placeSaved t core = .go (some slot) s1 → exec (.restore id core) s = .next (s.restoreOn s1 t core slot))
    ∧ ∀ id core (s : State) t, s.task? id = some t → (t.resident = true ∨ s.canHold core t = false) → exec (.restore id core) s = .next s)
  ∧ (
    (∀ id (s s1 : State) t t1, s.task? id = some t → t.resident = true → (s.stopTask t).settle t = s1 → s1.task? id = some t1 →
      t1.draining = false → s1.collecting t1 = false → s.saveTask id = s1.writeImage t1)
    ∧ (∀ (s s1 s2 : State) t ks level c, s.task? t.entry.id = some t → s.stageMerge t = some (.ok (ks, s1)) →
        (∃ r, s1.tree? t.entry.tree = some r ∧ r.level = level) → s2.ctx? t.entry.ctx = some c → (s2.task? t.entry.id).isSome = true →
        let u := { t with saves := t.saves + 1, mergeChunks := ks, staged := t.stagedOrder level }
        s1.writeSlot t.entry.ctx t.savePtr (s1.imageWrites u ++ [(128, s1.slotHeader u 1)]) = .ok s2 →
        ∃ (s3 : State) (t' : Machine.Task), s.writeImage t = s3.checkCapacity c.partition ∧ s3.mem = s2.mem ∧ s3.task? t.entry.id = some t'
          ∧ t'.place = .saved s2.saveCount t.coreD t.slotD ∧ s3.saveCount = s2.saveCount + 1 ∧ t'.saves = t.saves + 1 ∧ t'.allot = t.allot
          ∧ (∀ th r, t'.reg th r = t.reg th r)
          ∧ (∀ th, (t'.agent th).pc = (t.agent th).pc ∧ (t'.agent th).preds = (t.agent th).preds ∧ (t'.agent th).waiting = (t.agent th).waiting
              ∧ (t'.agent th).pending = (t.agent th).pending ∧ (t'.agent th).stall = none)
          ∧ ∀ b ∈ (s3.core t.coreD).bundles, b.task ≠ t.entry.id)
    ∧ (∀ (s0 s s1 s2 : State) t t1 core slot, s.cpWrite t.entry.ctx (t.savePtr + 132) [2] true = .ok s1 → s1.poison = [] →
        s1.readSlot t = .ok (.ok t1) → t1.entry.id = t.entry.id → s1.cpWrite t.entry.ctx (t.savePtr + 132) [0] true = .ok s2 →
        (s2.task? t.entry.id).isSome = true →
        ∃ s' t', s0.restoreOn s t core slot = s' ∧ s'.mem = s2.mem ∧ s'.task? t.entry.id = some t' ∧ t'.place = .core core slot ∧ t'.entry = t1.entry
          ∧ t'.started = s2.cycle (core / 4) ∧ t'.suspended = false ∧ t'.allot = t1.allot ∧ t'.fault = t1.fault ∧ t'.dq = t1.dq ∧ t'.bars = t1.bars
          ∧ t'.expans = t1.expans ∧ t'.views = t1.views ∧ t'.children = t1.children ∧ (∀ th r, t'.reg th r = t1.reg th r)
          ∧ ∀ th, (t'.agent th).pc = (t1.agent th).pc ∧ (t'.agent th).preds = (t1.agent th).preds ∧ (t'.agent th).windows = (t1.agent th).windows
              ∧ (t'.agent th).stack = (t1.agent th).stack ∧ (t'.agent th).waiting = (t1.agent th).waiting
              ∧ (t'.agent th).pending = (t1.agent th).pending)
    ∧ ∀ budget id (s s1 : State) t c r core, s.task? id = some t → t.resident = true → t.saving = false → t.form budget = .restart →
        (s.settleTask t).finishBegun t = s1 → (s1.task? id).isSome = true → s1.ctx? t.entry.ctx = some c → s1.tree? t.entry.tree = some r →
        r.level ≠ 2 → s1.pickCore c.partition (Config.chosenCore s1.saveCount) = some core → (s1.core core).spilled = 0 →
        (s1.core core).deque.length < 64 → (s1.clusters.map Prod.fst).Nodup →
        let s' := s.preemptTask budget id
        s'.task? id = none ∧ s'.mem = s1.mem ∧ s'.trees = s1.trees ∧ s'.ctxs = s1.ctxs
        ∧ (s1.cluster (core / 4)).partition = some c.partition ∧ (s1.cluster (core / 4)).inService = true
        ∧ ∃ e, (s'.core core).deque = e :: (s1.core core).deque
          ∧ e = { t.entry with slot := some t.savePtr, home := some (t.coreD, t.slotD), since := e.since })

/-! ### Management commands (15 R392, R393) -/

/-- R371, R372, R393: contexts and partitions. That the TLB entries and decoded lines of a destroyed context go with it is the model's reading (log
entry 62). -/
def Obligations.ContextCommands : Prop :=
  (∀ tag (s : State) b d c, s.command tag 1 = some b → leField b 8 1 < 64 → s.ctx? (leField b 8 1) = none →
    s.physical (leField b 16 8) 128 = some d → ctxOf d (leField b 24 8) (leField b 32 8) = some c →
    ∃ s', exec (.createContext tag) s = .next s' ∧ Completes tag 0 s' ∧ s'.ctx? (leField b 8 1) = some c
      ∧ (∀ m, m ≠ leField b 8 1 → s'.ctx? m = s.ctx? m) ∧ s'.mem = s.mem)
  ∧ (∀ tag (s : State) b, s.command tag 1 = some b → (64 ≤ leField b 8 1 ∨ (s.ctx? (leField b 8 1)).isSome = true) →
      ∃ s', exec (.createContext tag) s = .next s' ∧ Completes tag 4 s' ∧ s'.ctxs = s.ctxs)
  ∧ (∀ tag (s : State) b c, s.command tag 2 = some b → s.ctx? (leField b 8 1) = some c →
      (∀ r ∈ s.trees, r.reported = true ∨ r.ctx ≠ leField b 8 1) →
      ∃ s', exec (.destroyContext tag) s = .next s' ∧ Completes tag 0 s' ∧ s'.ctx? (leField b 8 1) = none
        ∧ (∀ m, m ≠ leField b 8 1 → s'.ctx? m = s.ctx? m) ∧ s'.mem = s.mem
        ∧ (∀ cl, ∀ e ∈ (s'.cluster cl).tlb, e.ctx ≠ leField b 8 1) ∧ (∀ k, ∀ l ∈ (s'.core k).icache, l.ctx ≠ leField b 8 1)
        ∧ (∀ k w, (s'.core k).waits = some w → w.1 ≠ leField b 8 1)
        ∧ ∀ cl, ∀ x ∈ (s'.cluster cl).banks, x.mode = .fifo → x.owner ≠ some (leField b 8 1))
  ∧ (∀ tag (s : State) b, s.command tag 2 = some b → s.ctx? (leField b 8 1) = none →
      ∃ s', exec (.destroyContext tag) s = .next s' ∧ Completes tag 4 s' ∧ s'.ctxs = s.ctxs)
  ∧ (∀ tag (s : State) b d, s.command tag 3 = some b → (s.clusters.map Prod.fst).Nodup → leField b 8 1 < 64 →
      s.physical (leField b 16 8) 72 = some d → (∀ cl, cl < 576 → bitAt (ofLE d) cl = true → s.unitOut .cluster cl = false) →
      (∀ p, s.partitionBusy p = false) →
      ∃ s', exec (.setPartition tag) s = .next s' ∧ Completes tag 0 s' ∧ s'.mem = s.mem
        ∧ ∀ cl, cl < 576 → (s'.cluster cl).partition =
            (if bitAt (ofLE d) cl then some (leField b 8 1)
             else if (s.cluster cl).partition = some (leField b 8 1) then none else (s.cluster cl).partition))
  ∧ (∀ tag (s : State) b d cl, s.command tag 3 = some b → s.physical (leField b 16 8) 72 = some d → cl < 576 → bitAt (ofLE d) cl = true →
      s.unitOut .cluster cl = true → ∃ s', exec (.setPartition tag) s = .next s' ∧ Completes tag 4 s' ∧ s'.clusters = s.clusters)
  ∧ (∀ tag (s : State) b, s.command tag 5 = some b → leField b 8 1 ≤ 1 → (leField b 8 1 = 1 → (s.physical (leField b 16 8) 288).isSome = true) →
      (s.ctx? (leField b 9 1)).isSome = true → (∀ t ∈ s.tasks, t.resident = false ∨ t.entry.ctx ≠ leField b 9 1) →
      ∃ s', exec (.preempt tag) s = .next s' ∧ Completes tag 0 s' ∧ s'.tasks = s.tasks)
  ∧ (∀ tag (s : State) b, s.command tag 5 = some b → (s.ctx? (leField b 9 1) = none ∨ 1 < leField b 8 1) →
      ∃ s', exec (.preempt tag) s = .next s' ∧ Completes tag 4 s' ∧ s'.tasks = s.tasks)
  ∧ ∀ tag (s : State) b m t, s.command tag 5 = some b → s.mgmt = some m → m.begun = false → leField b 8 1 = 0 →
      (s.ctx? (leField b 9 1)).isSome = true → s.tasks = [t] → t.resident = true → t.saving = false → t.entry.ctx = leField b 9 1 →
      s.treeOrdinal t = leField b 16 8 → t.form (leField b 24 4) = .drain →
      ∃ s' t', exec (.preempt tag) s = .next s' ∧ s'.mgmt = some { m with begun := true } ∧ s'.tasks = [t']
        ∧ t'.drain = some ((s.cycle t.cluster + leField b 24 4) % 2 ^ 64)

/-- R246, R393: the commands for power, start-up, channels, units and postmarks; a bad block is answered with BAD_COMMAND, and without a command
nothing happens. SERVICE_UNIT takes a unit of any class out of service, tests it, loads or re-calibrates it, and returns it; a cluster leaves once it
holds no task and no entry, and actions 2 and 3 go on when their unit has left. What SERVICE_UNIT refuses beyond R428 (log entry 64), that a channel
leaves at once for actions 2 and 3 (log entry 88), and that a unit which fails its test after them stays out with REFUSED (log entry 92), are the
model's. -/
def Obligations.UnitCommands : Prop :=
  (∀ tag (s : State) b, s.command tag 4 = some b →
    let w := leField b 8 4
    (1200 ≤ w → w ≤ 2800 → w % 25 = 0 → ∃ s', exec (.setPowerCap tag) s = .next s' ∧ Completes tag 0 s' ∧ s'.powerCap = w)
    ∧ (w < 1200 ∨ 2800 < w ∨ w % 25 ≠ 0 → ∃ s', exec (.setPowerCap tag) s = .next s' ∧ Completes tag 4 s' ∧ s'.powerCap = s.powerCap))
  ∧ (∀ tag (s : State) b, s.command tag 6 = some b →
      ∃ s', exec (.resetStartup tag) s = .next s' ∧ Completes tag 0 s' ∧ s'.flash.map FlashEntry.outcome = s.flash.map FlashEntry.outcome
        ∧ ∀ e ∈ s'.flash, e.method = 0)
  ∧ (∀ tag (s : State) b, s.command tag 7 = some b →
      ((∃ o ∈ s.out, o.cls = .channel ∧ o.number = leField b 8 4 ∧ o.awaits = true) →
        ∃ s', exec (.channelAck tag) s = .next s' ∧ Completes tag 0 s' ∧ s'.unitGone .channel (leField b 8 4) = true
          ∧ s'.service.length = s.service.length + 1)
      ∧ ((∀ o ∈ s.out, o.cls = .channel → o.number = leField b 8 4 → o.awaits = false) →
        ∃ s', exec (.channelAck tag) s = .next s' ∧ Completes tag 4 s' ∧ s'.out = s.out))
  ∧ (∀ tag passes (s : State) b m cls, s.command tag 8 = some b → s.mgmt = some m → unitOfCode (leField b 8 2) = some cls →
      let n := leField b 12 4
      let act := leField b 16 1
      let Ends (result : Nat) (s' : State) : Prop := exec (.serviceUnit tag passes) s = .next s' ∧ Completes tag result s'
      let Refused : Prop := ∃ s', Ends 4 s' ∧ s'.out = s.out ∧ s'.clusters = s.clusters ∧ s'.dies = s.dies
      let Returned (messages : Nat) : Prop := ∃ s', Ends 0 s' ∧ s'.unitOut cls n = false ∧ s'.mem = s.mem
        ∧ s'.service.length = s.service.length + messages
      unitExists cls n = true → s.dies.length = 3 →
      (act = 1 → s.unitOut cls n = true → Refused)
      ∧ (act = 1 → s.unitOut cls n = false → cls ≠ .cluster →
          ∃ s', Ends 0 s' ∧ s'.unitOut cls n = true ∧ s'.service.length = s.service.length + 1 ∧ s'.mem = s.mem ∧ s'.tasks = s.tasks)
      ∧ (act = 1 → s.unitOut cls n = false → cls = .cluster → (∀ t ∈ s.tasks, t.resident = false ∨ t.cluster ≠ n) →
          (∀ k, k < 4 → (s.core (4 * n + k)).deque = []) →
          ∃ s', Ends 0 s' ∧ (s'.cluster n).inService = false ∧ (s'.cluster n).partition = none ∧ (s'.cluster n).was = (s.cluster n).partition)
      ∧ (act = 4 → s.unitGone cls n = true → (passes = true → Returned 1) ∧ (passes = false → Refused))
      ∧ (act = 4 → s.unitGone cls n = false → Refused)
      ∧ (act = 2 ∨ (act = 3 ∧ s.exists? (leField b 24 8) = true) →
          (m.begun = false → s.unitOut cls n = true → Refused)
          ∧ (m.begun = false → s.unitOut cls n = false → cls ≠ .cluster → (passes = true → Returned 2)
              ∧ (passes = false → ∃ s', Ends 4 s' ∧ s'.unitGone cls n = true ∧ s'.service.length = s.service.length + 1))
          ∧ (m.begun = true → s.unitGone cls n = false → exec (.serviceUnit tag passes) s = .next s)
          ∧ (m.begun = true → s.unitGone cls n = true → (passes = true → Returned 1) ∧ (passes = false → Refused)))
      ∧ (act = 3 → s.exists? (leField b 24 8) = false → Refused))
  ∧ (∀ tag passes (s : State) b, s.command tag 8 = some b → s.dies.length = 3 →
      (leField b 8 2 = 0 ∨ 7 < leField b 8 2 ∨ leField b 16 1 = 0 ∨ 4 < leField b 16 1
        ∨ (∃ cls, unitOfCode (leField b 8 2) = some cls ∧ unitExists cls (leField b 12 4) = false)) →
      ∃ s', exec (.serviceUnit tag passes) s = .next s' ∧ Completes tag 4 s' ∧ s'.out = s.out)
  ∧ (∀ k, unitOfCode k = [none, some .cluster, some .l2Way, some .cacheWay, some .channel, some .dieLane, some .tihusLane, some .firmware].getD k none)
  ∧ (∀ tag (s : State) b, s.command tag 9 = some b → s.dies.length = 3 →
      let p (d : Nat) : Nat := leField b (8 + d) 1
      ((∀ d, d < 3 → p d ≤ 21) → (∀ r ∈ s.trees, r.reported = true ∨ r.level = 0) →
        ∃ s', exec (.setPostmark tag) s = .next s' ∧ Completes tag 0 s' ∧ (∀ d, d < 3 → (s'.die d).postmarkGiB = p d)
          ∧ (∀ d a, d < 3 → (d + 1) * dieBytes - p d * gib ≤ a → a < (d + 1) * dieBytes → Sparse.get 0 s'.mem a = 0)
          ∧ (∀ a, (∀ d, d < 3 → a < (d + 1) * dieBytes - p d * gib ∨ (d + 1) * dieBytes ≤ a) → Sparse.get 0 s'.mem a = Sparse.get 0 s.mem a)
          ∧ ∀ cl, (s'.cluster cl).tlb = [])
      ∧ ((∃ d, d < 3 ∧ 21 < p d) ∨ (∃ r ∈ s.trees, r.reported = false ∧ r.level ≠ 0) →
          ∃ s', exec (.setPostmark tag) s = .next s' ∧ Completes tag 4 s' ∧ s'.dies = s.dies ∧ s'.mem = s.mem))
  ∧ (∀ tag (s : State) m, s.mgmt = some m → m.tag = tag → s.leader.isSome = true → blockOk m.block = false →
      ∃ s', exec (.badCommand tag) s = .next s' ∧ Completes tag 3 s' ∧ s'.mem = s.mem ∧ s'.ctxs = s.ctxs)
  ∧ ∀ tag passes i (s : State), s.mgmt = none →
      i ∈ [Instr.createContext tag, .destroyContext tag, .setPartition tag, .setPowerCap tag, .preempt tag, .resetStartup tag, .channelAck tag,
           .serviceUnit tag passes, .setPostmark tag, .badCommand tag] → exec i s = .next s

/-! ### Units of the module (01 R26 to R29; 02 R38; 11 R281; 13 R333; 15 R390; 17 R424 to R433) -/

/-- R38, R281, R333: bundles hold ready threads of one task at one program counter, one of each lane, and every ready thread stands in one; a thread
that waits long is promoted, and of the promoted bundles that are ready the oldest issues, then the one of the lower slot; write-back and clean drops
of the L1 change no byte that its cluster sees. That a waiting thread is ready where its instruction, executed once more, would no longer wait is the
model's reading (log entry 22); when write-backs and drops come is its choice (log entry 31). -/
def Obligations.BundlesAndLines : Prop :=
  (∀ core (s : State), core < 2304 → s.cycle (core / 4) % 4 = 0 →
    ∃ s', exec (.bundleFormation core) s = .next s' ∧ s'.tasks = s.tasks ∧ s'.mem = s.mem
      ∧ (∀ b ∈ (s'.core core).bundles, ∃ t ∈ s.residents core, t.entry.id = b.task ∧ ∀ j ∈ b.threads, s.isReady t (some j) = true
          ∧ ∀ k ∈ b.threads, (t.thread j).ag.pc = (t.thread k).ag.pc ∧ (j ≠ k → j % 32 ≠ k % 32))
      ∧ ∀ t ∈ s.residents core, t.threads.length ≤ 32 * t.entry.groups → ∀ k, s.isReady t (some k) = true →
          ∃ b ∈ (s'.core core).bundles, b.task = t.entry.id ∧ k ∈ b.threads)
  ∧ (∀ core (s : State), s.cycle (core / 4) % 4 ≠ 0 → exec (.bundleFormation core) s = .next s)
  ∧ (∀ core (s : State),
      ∃ s', exec (.issuePromotion core) s = .next s' ∧ s'.tasks = s.tasks ∧ s'.mem = s.mem ∧ (s'.core core).bundles = (s.core core).bundles
        ∧ (∀ p ∈ (s.core core).promoted, p ∈ (s'.core core).promoted)
        ∧ ∀ b ∈ (s.core core).bundles, 4096 ≤ s.bundleAge b → ∀ k ∈ s.readyMembers b, (b.task, k) ∈ (s'.core core).promoted)
  ∧ (∀ core late (s : State), (∃ x ∈ s.readyBundles core late, s.isPromoted core x.1 = true) →
      ∃ b n, s.chosenBundle core late = some n ∧ (b, n) ∈ s.readyBundles core late ∧ s.isPromoted core b = true
        ∧ ∀ x ∈ s.readyBundles core late, s.isPromoted core x.1 = true →
            s.bundleAge x.1 ≤ s.bundleAge b ∧ (s.bundleAge x.1 = s.bundleAge b → s.bundleSlot b ≤ s.bundleSlot x.1))
  ∧ (∀ cl line (s : State), L1Sound s cl →
      ∃ s', exec (.l1WriteBack cl line) s = .next s' ∧ (∀ l ∈ (s'.cluster cl).l1, l.line = line → l.dirty = 0)
        ∧ (∀ a, seen s' cl a = seen s cl a) ∧ s'.tasks = s.tasks)
  ∧ (∀ cl line (s : State) l, L1Sound s cl → (s.cluster cl).line? line = some l →
      (l.dirty = 0 → ∃ s', exec (.l1CleanDrop cl line) s = .next s' ∧ (s'.cluster cl).line? line = none
        ∧ (∀ a, seen s' cl a = seen s cl a) ∧ s'.mem = s.mem ∧ s'.tasks = s.tasks)
      ∧ (l.dirty ≠ 0 → exec (.l1CleanDrop cl line) s = .next s))

/-- R26, R29, R390, R424 to R427: gating, the thermal trip, the firmware lease, and counted and uncorrected errors. A whole die gated at 64 steps is
the model's reading (log entry 13), as are the state of memory after a trip (log entry 2), the end of a command whose leader is lost (log entry 61),
and which units can hold a line or a slot that an uncorrected error meets (log entry 64). R29, R431 to R433: a step of start-up passes by its primary
method, or by the recorded alternate; an optional step is skipped, a mandatory one stops the module and is reported; step 8 clears the caches and the
postmark regions, and no other byte; a tripped or stopped module starts again at step 1; heat trips a module that starts, and from step 3 on its
counters run. Which units an alternate quarantines is open (log entry 14); that a stopped module starts again at step 1 is the model's reading (log
entry 34), and so are the cycles and the heat of a module that starts (log entry 69). -/
def Obligations.UnitsAndStartup : Prop :=
  (
    (∀ d g (s : State), d < 3 → s.dies.length = 3 →
      (g ≤ 64 → ∃ s', exec (.issueGating d g) s = .next s' ∧ (s'.die d).gate = g ∧ (∀ e, e ≠ d → s'.die e = s.die e) ∧ s'.mem = s.mem
          ∧ (g = 64 → ∀ cl, cl / 192 = d → s'.gated cl = true))
      ∧ (64 < g → exec (.issueGating d g) s = .next s)
      ∧ (∃ s', exec (.thermalGating d) s = .next s' ∧ (s'.die d).hot = true ∧ s'.mem = s.mem)
      ∧ (∃ s', exec (.thermalGatingRelease d) s = .next s' ∧ (s'.die d).hot = false ∧ s'.mem = s.mem))
    ∧ (∀ (s : State), ∃ s', exec .thermalTrip s = .next s' ∧ s'.power = .tripped ∧ s'.reports = s.reports ++ [0] ∧ s'.tasks = [] ∧ s'.trees = []
        ∧ s'.ctxs = [] ∧ s'.flash = s.flash ∧ (∀ a, a < hbmBytes → Sparse.get 0 s'.mem a = 0)
        ∧ ∀ a, hbmBytes ≤ a → Sparse.get 0 s'.mem a = Sparse.get 0 s.mem a)
    ∧ (∀ (s : State) d, s.leader = some d →
        (2 ^ 21 ≤ ((s.die d).ticks - (s.die d).leaseSeen).toNat →
          ∃ s', exec .leaseRenewal s = .next s' ∧ (∀ x ∈ s'.dies, x.leaseSeen = x.ticks) ∧ s'.leader = some d)
        ∧ (((s.die d).ticks - (s.die d).leaseSeen).toNat < 2 ^ 21 → exec .leaseRenewal s = .next s))
    ∧ (∀ d (s : State), d < 3 → (s.die d).fwUp = true → s.leader ≠ some d →
        (2 ^ 22 ≤ ((s.die d).ticks - (s.die d).leaseSeen).toNat →
          ∃ s', exec (.leaseTakeover d) s = .next s' ∧ s'.leader = some d ∧ s'.mgmt = none ∧ (∀ x ∈ s'.dies, x.leaseSeen = x.ticks)
            ∧ ∀ m, s.mgmt = some m → s'.mgmtStatus = BitVec.ofNat 64 (m.tag.toNat + 2 ^ 32 * 2))
        ∧ (((s.die d).ticks - (s.die d).leaseSeen).toNat < 2 ^ 22 → exec (.leaseTakeover d) s = .next s))
    ∧ (∀ cls n (s : State), unitExists cls n = true →
        let now := s.unitCounter cls n
        let old := s.errTimes cls n
        (lasting old now = false →
          ∃ s', exec (.correctedError cls n) s = .next s' ∧ s'.errTimes cls n = old.drop (old.length - 1) ++ [now]
            ∧ (∀ c m, (c, m) ≠ (cls, n) → s'.errTimes c m = s.errTimes c m) ∧ s'.out = s.out ∧ s'.service = s.service)
        ∧ (lasting old now = true ↔ ∃ t1 t2, old = [t1, t2] ∧ t1 < t2 ∧ t2 < now ∧ now - t1 < 2 ^ 34)
        ∧ (∀ t1 t2, old = [t1, t2] → t1 < t2 → t2 < now → now - t1 < 2 ^ 34 → (cls = .dieLane ∨ cls = .tihusLane ∨ cls = .l2Way ∨ cls = .cacheWay ∨ cls = .channel) →
            ∃ s', exec (.correctedError cls n) s = .next s' ∧ s'.unitOut cls n = true))
    ∧ (∀ (s : State) pa cls n, s.exists? pa = true → holdsLine pa cls n = true →
        ∃ s', exec (.uncorrectedError (.line pa cls n)) s = .next s' ∧ s'.mem = s.mem ∧ s'.tasks = s.tasks
          ∧ s'.service.length = s.service.length + 1 ∧ ∀ k, k < 128 → s'.poisoned (pa / 128 * 128 + k) 1 = true)
    ∧ (∀ (s : State) id t cls n, s.task? id = some t → t.resident = false → (cls = .l2Way ∨ cls = .cacheWay ∨ cls = .channel) →
        unitExists cls n = true →
        exec (.uncorrectedError (.slot id cls n)) s = .next (((s.message 4 cls n).abortTree t.entry.tree 15).takeOut cls n))
    ∧ ∀ id (s : State) t, s.task? id = some t → t.resident = true →
        exec (.uncorrectedError (.task id)) s =
          .next (((s.message 4 .cluster t.cluster).abortTree t.entry.tree 15).takeOut .cluster t.cluster))
  ∧ (
    (∀ p a n (s : State), s.power = .starting n → 1 ≤ n → n ≤ 9 → s.flash.length = 9 →
      let next : Power := if n < 9 then .starting (n + 1) else .running
      ((s.flash.getD (n - 1) {}).method = 0 → p = true →
        ∃ s', exec (.startup p a) s = .next s' ∧ s'.power = next ∧ s'.flash[n - 1]? = some { outcome := 1, method := 0 }
          ∧ (n ≠ 8 → s'.mem = s.mem)
          ∧ (n = 8 →
              (∀ cl, (s'.cluster cl).l1 = [])
              ∧ (∀ d x, d < 3 → s.postmarkBase d ≤ x → x < s.postmarkBase d + (s.die d).postmarkGiB * gib → Sparse.get 0 s'.mem x = 0)
              ∧ ∀ x, (∀ d, d < 3 → x < s.postmarkBase d ∨ s.postmarkBase d + (s.die d).postmarkGiB * gib ≤ x) →
                  Sparse.get 0 s'.mem x = Sparse.get 0 s.mem x))
      ∧ ((s.flash.getD (n - 1) {}).method = 0 → p = false → n = 7 →
        ∃ s', exec (.startup p a) s = .next s' ∧ s'.power = next ∧ s'.flash[n - 1]? = some { outcome := 2, method := 2 })
      ∧ ((s.flash.getD (n - 1) {}).method = 0 → p = false → n ≠ 7 → a = true →
        ∃ s', exec (.startup p a) s = .next s' ∧ s'.power = next ∧ s'.flash[n - 1]? = some { outcome := 4, method := 1 })
      ∧ ((s.flash.getD (n - 1) {}).method = 0 → p = false → n ≠ 7 → a = false →
        ∃ s', exec (.startup p a) s = .next s' ∧ s'.power = .stopped n ∧ s'.reports = s.reports ++ [n])
      ∧ ((s.flash.getD (n - 1) {}).method = 1 → n ≠ 7 →
        (a = true → ∃ s', exec (.startup p a) s = .next s' ∧ s'.power = next ∧ s'.flash[n - 1]? = some { outcome := 4, method := 1 })
        ∧ (a = false → ∃ s', exec (.startup p a) s = .next s' ∧ s'.power = .stopped n ∧ s'.reports = s.reports ++ [n] ∧ s'.flash = s.flash))
      ∧ ((s.flash.getD (n - 1) {}).method = 2 →
        ∃ s', exec (.startup p a) s = .next s' ∧ s'.power = next ∧ s'.flash[n - 1]? = some { outcome := 3, method := 2 }))
    ∧ (∀ p a (s : State), s.power = .running → exec (.startup p a) s = .next s)
    ∧ (∀ p a n (s : State), s.power = .tripped ∨ s.power = .stopped n →
        ∃ s', exec (.startup p a) s = .next s' ∧ s'.power = .starting 1 ∧ s'.flash = s.flash ∧ ∀ x, x < hbmBytes → Sparse.get 0 s'.mem x = 0)
    ∧ (∀ (s : State) i rest n, s.power = .starting n ∨ s.power = .stopped n → isThermal i = true → s.agenda = .event i :: rest →
        step s = exec i (withAgenda rest s))
    ∧ (∀ (s : State) d rest n, s.power = .starting n → s.agenda = .tick d :: rest →
        step s = .next (if 3 ≤ n then (withAgenda rest s).tickDie d else withAgenda rest s))
    ∧ ∀ (s : State) c rest, s.power ≠ .running → s.agenda = c :: rest → (∀ p a, c ≠ .event (.startup p a)) →
        (∀ i, isThermal i = true → c ≠ .event i) → (∀ d, c ≠ .tick d) → step s = .next (withAgenda rest s))

/-! ### Words of the spec (03 R67 to R73, and the encoded examples of each space) -/

/-- R67: the words printed in the encoded examples of the sections decode to the instructions that they stand for, one of every space that prints
one. -/
def Obligations.DecodeWords : Prop :=
  let t (d a b c : BitVec 9) (mod : BitVec 8) (imm : BitVec 32) : Fields :=
    { u := false, la := 0, ret := 0, d := d, a := a, b := b, c := c, mod := mod, imm := imm }
  let u (d a b c : BitVec 9) (mod : BitVec 8) (imm : BitVec 32) : Fields :=
    { u := true, la := 0, ret := 0, d := d, a := a, b := b, c := c, mod := mod, imm := imm }
  decode 0x00000802_01800100_00000000 = .iadd (t 4 2 3 0 0 0)
  ∧ decode 0x02000406_00001C05_00000064 = .icmpImm (t 2 6 0 0 5 100)
  ∧ decode 0x04000802_01000100_00000000 = .fadd (t 4 2 2 0 0 0)
  ∧ decode 0x0600220D_00040448_00000000 = .cvt8 (t 17 13 0 16 0x48 0)
  ∧ decode 0x10000000_0000061B_00000003 = .pblk (t 0 0 0 0 0x1B 3)
  ∧ decode 0x10000000_000003E8_00000007 = .call (t 0 0 0 0 0xE8 7)
  ∧ decode 0x20001002_028001AA_00000040 = .ld (t 8 2 5 0 0xAA 64)
  ∧ decode 0x20000003_00000A00_00000002 = .hwait (t 0 3 0 0 0 2)
  ∧ decode 0x31000604_03020321_00000100 = .cpyg (u 3 4 6 8 0x21 256)
  ∧ decode 0x41000201_01004500_14000000 = .mma (u 1 1 2 1 0 0x14000000)
  ∧ decode 0x51000806_03800100_00000001 = .spawn (u 4 6 7 0 0 1)
  ∧ decode 0x52001000_03000400_00000000 = .rand (t 8 0 6 0 0 0)
  ∧ decode 0x54000005_03000118_00000000 = .xset (t 0 5 6 0 0x18 0)
  ∧ decode 0x54001400_00004200_00000000 = .xdeal (t 10 0 0 1 0 0)
  ∧ decode 0x56001004_02818100_00000000 = .cvqry (t 8 4 5 6 0 0)
  ∧ decode 0x60001200_00000100_00000011 = .csrrd (t 9 0 0 0 0 0x11)
  ∧ decode 0x61000000_00000300_00000002 = .trapret (u 0 0 0 0 0 2)
end

