-- ==== Sys2Proof/Laws/Sparse.lean ====
section
/-! SUPPORT. The sparse maps that hold memory and register files: reading after writing, and the canonical form that every
operation keeps. -/

namespace Sys2Proof.Machine

theorem Sparse.wfFrom_mono {α : Type} [DecidableEq α] {d : α} {m : Sparse α} {lo lo' : Nat} (h : Sparse.wfFrom d lo m = true)
    (hl : lo' ≤ lo) : Sparse.wfFrom d lo' m = true := by
  cases m with
  | nil => rfl
  | cons e m =>
    obtain ⟨k, v⟩ := e
    simp only [Sparse.wfFrom, Bool.and_eq_true, decide_eq_true_eq] at h ⊢
    exact ⟨⟨by omega, h.1.2⟩, h.2⟩

theorem Sparse.get_eq_default_of_lt {α : Type} [DecidableEq α] {d : α} {m : Sparse α} {lo a : Nat}
    (h : Sparse.wfFrom d lo m = true) (ha : a < lo) : Sparse.get d m a = d := by
  induction m generalizing lo with
  | nil => rfl
  | cons e m ih =>
    obtain ⟨k, v⟩ := e
    simp only [Sparse.wfFrom, Bool.and_eq_true, decide_eq_true_eq] at h
    simp only [Sparse.get]
    rw [if_neg (by omega)]
    exact ih h.2 (by omega)

theorem Sparse.get_enter_same {α : Type} (d : α) (m : Sparse α) (a : Nat) (v : α) : Sparse.get d (Sparse.enter m a v) a = v := by
  induction m with
  | nil => simp [Sparse.enter, Sparse.get]
  | cons e m ih =>
    obtain ⟨k, w⟩ := e
    simp only [Sparse.enter]
    split
    · simp [Sparse.get]
    · split
      · simp [Sparse.get]
      · simp only [Sparse.get, if_neg ‹_›, ih]

theorem Sparse.get_enter_other {α : Type} (d : α) (m : Sparse α) {a b : Nat} (v : α) (hab : b ≠ a) :
    Sparse.get d (Sparse.enter m a v) b = Sparse.get d m b := by
  induction m with
  | nil => simp [Sparse.enter, Sparse.get, hab]
  | cons e m ih =>
    obtain ⟨k, w⟩ := e
    simp only [Sparse.enter]
    split
    · simp [Sparse.get, hab]
    · split
      · subst_vars
        simp [Sparse.get, hab]
      · simp only [Sparse.get, ih]

theorem Sparse.get_filter_ne {α : Type} (d : α) (m : Sparse α) (a b : Nat) :
    Sparse.get d (m.filter (fun e => e.1 != a)) b = if b = a then d else Sparse.get d m b := by
  induction m with
  | nil => simp [Sparse.get]
  | cons e m ih =>
    obtain ⟨k, w⟩ := e
    simp only [List.filter]
    split
    · simp only [Sparse.get, ih]
      split
      · subst_vars
        split <;> simp_all
      · rfl
    · simp only [ih, Sparse.get]
      split
      · rfl
      · rw [if_neg]
        simp_all

/-- A value reads back as set. -/
theorem Sparse.get_put_same {α : Type} [DecidableEq α] (d : α) (m : Sparse α) (a : Nat) (v : α) :
    Sparse.get d (Sparse.put d m a v) a = v := by
  unfold Sparse.put
  split
  · simp [Sparse.get_filter_ne, *]
  · exact Sparse.get_enter_same d m a v

/-- Another key reads as before. -/
theorem Sparse.get_put_other {α : Type} [DecidableEq α] (d : α) (m : Sparse α) {a b : Nat} (v : α) (hab : b ≠ a) :
    Sparse.get d (Sparse.put d m a v) b = Sparse.get d m b := by
  unfold Sparse.put
  split
  · simp [Sparse.get_filter_ne, hab]
  · exact Sparse.get_enter_other d m v hab

/-- Dropping entries keeps the canonical form. -/
theorem Sparse.wfFrom_filter {α : Type} [DecidableEq α] {d : α} {m : Sparse α} {lo : Nat} (p : Nat × α → Bool)
    (h : Sparse.wfFrom d lo m = true) : Sparse.wfFrom d lo (m.filter p) = true := by
  induction m generalizing lo with
  | nil => rfl
  | cons e m ih =>
    obtain ⟨k, v⟩ := e
    simp only [Sparse.wfFrom, Bool.and_eq_true, decide_eq_true_eq] at h
    simp only [List.filter]
    split
    · simp only [Sparse.wfFrom, Bool.and_eq_true, decide_eq_true_eq]; exact ⟨h.1, ih h.2⟩
    · exact Sparse.wfFrom_mono (ih h.2) (by omega)

theorem Sparse.wfFrom_enter {α : Type} [DecidableEq α] {d : α} {m : Sparse α} {lo : Nat} (a : Nat) (v : α)
    (h : Sparse.wfFrom d lo m = true) (ha : lo ≤ a) (hv : v ≠ d) : Sparse.wfFrom d lo (Sparse.enter m a v) = true := by
  induction m generalizing lo with
  | nil => simp [Sparse.enter, Sparse.wfFrom, ha, hv]
  | cons e m ih =>
    obtain ⟨k, w⟩ := e
    simp only [Sparse.wfFrom, Bool.and_eq_true, decide_eq_true_eq] at h
    simp only [Sparse.enter]
    split
    · simp only [Sparse.wfFrom, Bool.and_eq_true, decide_eq_true_eq]
      exact ⟨⟨ha, hv⟩, ⟨by omega, h.1.2⟩, h.2⟩
    · split
      · subst_vars
        simp only [Sparse.wfFrom, Bool.and_eq_true, decide_eq_true_eq]
        exact ⟨⟨ha, hv⟩, h.2⟩
      · simp only [Sparse.wfFrom, Bool.and_eq_true, decide_eq_true_eq]
        exact ⟨h.1, ih h.2 (by omega)⟩

theorem Sparse.wfFrom_put {α : Type} [DecidableEq α] {d : α} {m : Sparse α} {lo : Nat} (a : Nat) (v : α)
    (h : Sparse.wfFrom d lo m = true) (ha : lo ≤ a) : Sparse.wfFrom d lo (Sparse.put d m a v) = true := by
  unfold Sparse.put
  split
  · exact Sparse.wfFrom_filter _ h
  · exact Sparse.wfFrom_enter a v h ha ‹_›

/-- Setting a value keeps the canonical form. -/
theorem Sparse.wf_put {α : Type} [DecidableEq α] {d : α} {m : Sparse α} (a : Nat) (v : α) (h : Sparse.wf d m = true) :
    Sparse.wf d (Sparse.put d m a v) = true := Sparse.wfFrom_put a v h (Nat.zero_le a)

/-- Changing a value keeps the canonical form. -/
theorem Sparse.wf_modify {α : Type} [DecidableEq α] {d : α} {m : Sparse α} (a : Nat) (f : α → α) (h : Sparse.wf d m = true) :
    Sparse.wf d (Sparse.modify d m a f) = true := Sparse.wf_put a _ h

/-- Writing a list of values keeps the canonical form. -/
theorem Sparse.wf_write {α : Type} [DecidableEq α] {d : α} {m : Sparse α} (a : Nat) (vs : List α) (h : Sparse.wf d m = true) :
    Sparse.wf d (Sparse.write d m a vs) = true := by
  induction vs generalizing m a with
  | nil => exact h
  | cons v vs ih => exact ih (a + 1) (Sparse.wf_put a v h)

/-- Changing values to others than the default keeps the canonical form. -/
theorem Sparse.wfFrom_map {α : Type} [DecidableEq α] {d : α} {m : Sparse α} {lo : Nat} (f : Nat × α → Nat × α)
    (hk : ∀ e, (f e).1 = e.1) (hv : ∀ e, e.2 ≠ d → (f e).2 ≠ d) (h : Sparse.wfFrom d lo m = true) :
    Sparse.wfFrom d lo (m.map f) = true := by
  induction m generalizing lo with
  | nil => rfl
  | cons e m ih =>
    have he1 := hk e
    have he2 := hv e
    obtain ⟨k, v⟩ := e
    simp only [Sparse.wfFrom, Bool.and_eq_true, decide_eq_true_eq] at h
    simp only [List.map]
    have : f (k, v) = (k, (f (k, v)).2) := by ext <;> simp_all
    rw [this]
    simp only [Sparse.wfFrom, Bool.and_eq_true, decide_eq_true_eq]
    exact ⟨⟨h.1.1, he2 h.1.2⟩, ih h.2⟩

/-- A value outside the written range reads as before. -/
theorem Sparse.get_write_outside {α : Type} [DecidableEq α] (d : α) (m : Sparse α) (a b : Nat) (vs : List α)
    (h : b < a ∨ a + vs.length ≤ b) : Sparse.get d (Sparse.write d m a vs) b = Sparse.get d m b := by
  induction vs generalizing m a with
  | nil => rfl
  | cons v vs ih =>
    simp only [List.length_cons] at h
    rw [Sparse.write, ih _ _ (by omega), Sparse.get_put_other _ _ _ (by omega)]

/-- A value inside the written range reads as written. -/
theorem Sparse.get_write_inside {α : Type} [DecidableEq α] (d : α) (m : Sparse α) (a k : Nat) (vs : List α) (hk : k < vs.length) :
    Sparse.get d (Sparse.write d m a vs) (a + k) = vs[k] := by
  induction vs generalizing m a k with
  | nil => simp at hk
  | cons v vs ih =>
    rw [Sparse.write]
    cases k with
    | zero =>
      rw [Sparse.get_write_outside _ _ _ _ _ (by omega)]
      exact Sparse.get_put_same d m a v
    | succ k =>
      have := ih (Sparse.put d m a v) (a + 1) k (by simpa using hk)
      simpa [Nat.add_assoc, Nat.add_comm 1 k] using this

/-- Reading back the written range. -/
theorem Sparse.read_write {α : Type} [DecidableEq α] (d : α) (m : Sparse α) (a : Nat) (vs : List α) :
    Sparse.read d (Sparse.write d m a vs) a vs.length = vs := by
  induction vs generalizing m a with
  | nil => rfl
  | cons v vs ih =>
    simp only [List.length_cons, Sparse.read, Sparse.write]
    rw [ih, Sparse.get_write_outside _ _ _ _ _ (by omega), Sparse.get_put_same d m a v]

/-- A range that a write does not meet reads as before. -/
theorem Sparse.read_write_apart {α : Type} [DecidableEq α] (d : α) (m : Sparse α) (a b n : Nat) (vs : List α)
    (h : b + n ≤ a ∨ a + vs.length ≤ b) : Sparse.read d (Sparse.write d m a vs) b n = Sparse.read d m b n := by
  induction n generalizing b with
  | zero => rfl
  | succ n ih =>
    simp only [Sparse.read]
    rw [ih _ (by omega), Sparse.get_write_outside _ _ _ _ _ (by omega)]

end Sys2Proof.Machine
end

