-- ==== Sys2Proof/Laws/State.lean ====
section
/-! SUPPORT. What each update of the state leaves as it was, field by field, and how lookups see an update. -/

namespace Sys2Proof.Machine

@[simp] theorem State.modTask_power (s : State) (id : Nat) (f : Task → Task) : (s.modTask id f).power = s.power := rfl
@[simp] theorem State.modTask_flash (s : State) (id : Nat) (f : Task → Task) : (s.modTask id f).flash = s.flash := rfl
@[simp] theorem State.modTask_powerCap (s : State) (id : Nat) (f : Task → Task) : (s.modTask id f).powerCap = s.powerCap := rfl
@[simp] theorem State.modTask_spoilers (s : State) (id : Nat) (f : Task → Task) : (s.modTask id f).spoilers = s.spoilers := rfl
@[simp] theorem State.modTask_mem (s : State) (id : Nat) (f : Task → Task) : (s.modTask id f).mem = s.mem := rfl
@[simp] theorem State.modTask_poison (s : State) (id : Nat) (f : Task → Task) : (s.modTask id f).poison = s.poison := rfl
@[simp] theorem State.modTask_mgmtBlock (s : State) (id : Nat) (f : Task → Task) : (s.modTask id f).mgmtBlock = s.mgmtBlock := rfl
@[simp] theorem State.modTask_mgmtStatus (s : State) (id : Nat) (f : Task → Task) : (s.modTask id f).mgmtStatus = s.mgmtStatus := rfl
@[simp] theorem State.modTask_mgmt (s : State) (id : Nat) (f : Task → Task) : (s.modTask id f).mgmt = s.mgmt := rfl
@[simp] theorem State.modTask_service (s : State) (id : Nat) (f : Task → Task) : (s.modTask id f).service = s.service := rfl
@[simp] theorem State.modTask_interrupts (s : State) (id : Nat) (f : Task → Task) : (s.modTask id f).interrupts = s.interrupts := rfl
@[simp] theorem State.modTask_reports (s : State) (id : Nat) (f : Task → Task) : (s.modTask id f).reports = s.reports := rfl
@[simp] theorem State.modTask_errs (s : State) (id : Nat) (f : Task → Task) : (s.modTask id f).errs = s.errs := rfl
@[simp] theorem State.modTask_out (s : State) (id : Nat) (f : Task → Task) : (s.modTask id f).out = s.out := rfl
@[simp] theorem State.modTask_leader (s : State) (id : Nat) (f : Task → Task) : (s.modTask id f).leader = s.leader := rfl
@[simp] theorem State.modTask_dies (s : State) (id : Nat) (f : Task → Task) : (s.modTask id f).dies = s.dies := rfl
@[simp] theorem State.modTask_clusters (s : State) (id : Nat) (f : Task → Task) : (s.modTask id f).clusters = s.clusters := rfl
@[simp] theorem State.modTask_cores (s : State) (id : Nat) (f : Task → Task) : (s.modTask id f).cores = s.cores := rfl
@[simp] theorem State.modTask_ctxs (s : State) (id : Nat) (f : Task → Task) : (s.modTask id f).ctxs = s.ctxs := rfl
@[simp] theorem State.modTask_trees (s : State) (id : Nat) (f : Task → Task) : (s.modTask id f).trees = s.trees := rfl
@[simp] theorem State.modTask_cur (s : State) (id : Nat) (f : Task → Task) : (s.modTask id f).cur = s.cur := rfl
@[simp] theorem State.modTask_agenda (s : State) (id : Nat) (f : Task → Task) : (s.modTask id f).agenda = s.agenda := rfl
@[simp] theorem State.modTask_tick (s : State) (id : Nat) (f : Task → Task) : (s.modTask id f).tick = s.tick := rfl
@[simp] theorem State.modTask_hold (s : State) (id : Nat) (f : Task → Task) : (s.modTask id f).hold = s.hold := rfl
@[simp] theorem State.modTask_nextId (s : State) (id : Nat) (f : Task → Task) : (s.modTask id f).nextId = s.nextId := rfl
@[simp] theorem State.modTask_saveCount (s : State) (id : Nat) (f : Task → Task) : (s.modTask id f).saveCount = s.saveCount := rfl

@[simp] theorem State.modTree_power (s : State) (id : Nat) (f : Tree → Tree) : (s.modTree id f).power = s.power := rfl
@[simp] theorem State.modTree_flash (s : State) (id : Nat) (f : Tree → Tree) : (s.modTree id f).flash = s.flash := rfl
@[simp] theorem State.modTree_powerCap (s : State) (id : Nat) (f : Tree → Tree) : (s.modTree id f).powerCap = s.powerCap := rfl
@[simp] theorem State.modTree_spoilers (s : State) (id : Nat) (f : Tree → Tree) : (s.modTree id f).spoilers = s.spoilers := rfl
@[simp] theorem State.modTree_mem (s : State) (id : Nat) (f : Tree → Tree) : (s.modTree id f).mem = s.mem := rfl
@[simp] theorem State.modTree_poison (s : State) (id : Nat) (f : Tree → Tree) : (s.modTree id f).poison = s.poison := rfl
@[simp] theorem State.modTree_mgmtBlock (s : State) (id : Nat) (f : Tree → Tree) : (s.modTree id f).mgmtBlock = s.mgmtBlock := rfl
@[simp] theorem State.modTree_mgmtStatus (s : State) (id : Nat) (f : Tree → Tree) : (s.modTree id f).mgmtStatus = s.mgmtStatus := rfl
@[simp] theorem State.modTree_mgmt (s : State) (id : Nat) (f : Tree → Tree) : (s.modTree id f).mgmt = s.mgmt := rfl
@[simp] theorem State.modTree_service (s : State) (id : Nat) (f : Tree → Tree) : (s.modTree id f).service = s.service := rfl
@[simp] theorem State.modTree_interrupts (s : State) (id : Nat) (f : Tree → Tree) : (s.modTree id f).interrupts = s.interrupts := rfl
@[simp] theorem State.modTree_reports (s : State) (id : Nat) (f : Tree → Tree) : (s.modTree id f).reports = s.reports := rfl
@[simp] theorem State.modTree_errs (s : State) (id : Nat) (f : Tree → Tree) : (s.modTree id f).errs = s.errs := rfl
@[simp] theorem State.modTree_out (s : State) (id : Nat) (f : Tree → Tree) : (s.modTree id f).out = s.out := rfl
@[simp] theorem State.modTree_leader (s : State) (id : Nat) (f : Tree → Tree) : (s.modTree id f).leader = s.leader := rfl
@[simp] theorem State.modTree_dies (s : State) (id : Nat) (f : Tree → Tree) : (s.modTree id f).dies = s.dies := rfl
@[simp] theorem State.modTree_clusters (s : State) (id : Nat) (f : Tree → Tree) : (s.modTree id f).clusters = s.clusters := rfl
@[simp] theorem State.modTree_cores (s : State) (id : Nat) (f : Tree → Tree) : (s.modTree id f).cores = s.cores := rfl
@[simp] theorem State.modTree_ctxs (s : State) (id : Nat) (f : Tree → Tree) : (s.modTree id f).ctxs = s.ctxs := rfl
@[simp] theorem State.modTree_tasks (s : State) (id : Nat) (f : Tree → Tree) : (s.modTree id f).tasks = s.tasks := rfl
@[simp] theorem State.modTree_cur (s : State) (id : Nat) (f : Tree → Tree) : (s.modTree id f).cur = s.cur := rfl
@[simp] theorem State.modTree_agenda (s : State) (id : Nat) (f : Tree → Tree) : (s.modTree id f).agenda = s.agenda := rfl
@[simp] theorem State.modTree_tick (s : State) (id : Nat) (f : Tree → Tree) : (s.modTree id f).tick = s.tick := rfl
@[simp] theorem State.modTree_hold (s : State) (id : Nat) (f : Tree → Tree) : (s.modTree id f).hold = s.hold := rfl
@[simp] theorem State.modTree_nextId (s : State) (id : Nat) (f : Tree → Tree) : (s.modTree id f).nextId = s.nextId := rfl
@[simp] theorem State.modTree_saveCount (s : State) (id : Nat) (f : Tree → Tree) : (s.modTree id f).saveCount = s.saveCount := rfl

@[simp] theorem State.modCtx_power (s : State) (c : Nat) (f : Ctx → Ctx) : (s.modCtx c f).power = s.power := rfl
@[simp] theorem State.modCtx_flash (s : State) (c : Nat) (f : Ctx → Ctx) : (s.modCtx c f).flash = s.flash := rfl
@[simp] theorem State.modCtx_powerCap (s : State) (c : Nat) (f : Ctx → Ctx) : (s.modCtx c f).powerCap = s.powerCap := rfl
@[simp] theorem State.modCtx_spoilers (s : State) (c : Nat) (f : Ctx → Ctx) : (s.modCtx c f).spoilers = s.spoilers := rfl
@[simp] theorem State.modCtx_mem (s : State) (c : Nat) (f : Ctx → Ctx) : (s.modCtx c f).mem = s.mem := rfl
@[simp] theorem State.modCtx_poison (s : State) (c : Nat) (f : Ctx → Ctx) : (s.modCtx c f).poison = s.poison := rfl
@[simp] theorem State.modCtx_mgmtBlock (s : State) (c : Nat) (f : Ctx → Ctx) : (s.modCtx c f).mgmtBlock = s.mgmtBlock := rfl
@[simp] theorem State.modCtx_mgmtStatus (s : State) (c : Nat) (f : Ctx → Ctx) : (s.modCtx c f).mgmtStatus = s.mgmtStatus := rfl
@[simp] theorem State.modCtx_mgmt (s : State) (c : Nat) (f : Ctx → Ctx) : (s.modCtx c f).mgmt = s.mgmt := rfl
@[simp] theorem State.modCtx_service (s : State) (c : Nat) (f : Ctx → Ctx) : (s.modCtx c f).service = s.service := rfl
@[simp] theorem State.modCtx_interrupts (s : State) (c : Nat) (f : Ctx → Ctx) : (s.modCtx c f).interrupts = s.interrupts := rfl
@[simp] theorem State.modCtx_reports (s : State) (c : Nat) (f : Ctx → Ctx) : (s.modCtx c f).reports = s.reports := rfl
@[simp] theorem State.modCtx_errs (s : State) (c : Nat) (f : Ctx → Ctx) : (s.modCtx c f).errs = s.errs := rfl
@[simp] theorem State.modCtx_out (s : State) (c : Nat) (f : Ctx → Ctx) : (s.modCtx c f).out = s.out := rfl
@[simp] theorem State.modCtx_leader (s : State) (c : Nat) (f : Ctx → Ctx) : (s.modCtx c f).leader = s.leader := rfl
@[simp] theorem State.modCtx_dies (s : State) (c : Nat) (f : Ctx → Ctx) : (s.modCtx c f).dies = s.dies := rfl
@[simp] theorem State.modCtx_clusters (s : State) (c : Nat) (f : Ctx → Ctx) : (s.modCtx c f).clusters = s.clusters := rfl
@[simp] theorem State.modCtx_cores (s : State) (c : Nat) (f : Ctx → Ctx) : (s.modCtx c f).cores = s.cores := rfl
@[simp] theorem State.modCtx_trees (s : State) (c : Nat) (f : Ctx → Ctx) : (s.modCtx c f).trees = s.trees := rfl
@[simp] theorem State.modCtx_tasks (s : State) (c : Nat) (f : Ctx → Ctx) : (s.modCtx c f).tasks = s.tasks := rfl
@[simp] theorem State.modCtx_cur (s : State) (c : Nat) (f : Ctx → Ctx) : (s.modCtx c f).cur = s.cur := rfl
@[simp] theorem State.modCtx_agenda (s : State) (c : Nat) (f : Ctx → Ctx) : (s.modCtx c f).agenda = s.agenda := rfl
@[simp] theorem State.modCtx_tick (s : State) (c : Nat) (f : Ctx → Ctx) : (s.modCtx c f).tick = s.tick := rfl
@[simp] theorem State.modCtx_hold (s : State) (c : Nat) (f : Ctx → Ctx) : (s.modCtx c f).hold = s.hold := rfl
@[simp] theorem State.modCtx_nextId (s : State) (c : Nat) (f : Ctx → Ctx) : (s.modCtx c f).nextId = s.nextId := rfl
@[simp] theorem State.modCtx_saveCount (s : State) (c : Nat) (f : Ctx → Ctx) : (s.modCtx c f).saveCount = s.saveCount := rfl

@[simp] theorem State.modCluster_power (s : State) (c : Nat) (f : Cluster → Cluster) : (s.modCluster c f).power = s.power := rfl
@[simp] theorem State.modCluster_flash (s : State) (c : Nat) (f : Cluster → Cluster) : (s.modCluster c f).flash = s.flash := rfl
@[simp] theorem State.modCluster_powerCap (s : State) (c : Nat) (f : Cluster → Cluster) : (s.modCluster c f).powerCap = s.powerCap := rfl
@[simp] theorem State.modCluster_spoilers (s : State) (c : Nat) (f : Cluster → Cluster) : (s.modCluster c f).spoilers = s.spoilers := rfl
@[simp] theorem State.modCluster_mem (s : State) (c : Nat) (f : Cluster → Cluster) : (s.modCluster c f).mem = s.mem := rfl
@[simp] theorem State.modCluster_poison (s : State) (c : Nat) (f : Cluster → Cluster) : (s.modCluster c f).poison = s.poison := rfl
@[simp] theorem State.modCluster_mgmtBlock (s : State) (c : Nat) (f : Cluster → Cluster) : (s.modCluster c f).mgmtBlock = s.mgmtBlock := rfl
@[simp] theorem State.modCluster_mgmtStatus (s : State) (c : Nat) (f : Cluster → Cluster) : (s.modCluster c f).mgmtStatus = s.mgmtStatus := rfl
@[simp] theorem State.modCluster_mgmt (s : State) (c : Nat) (f : Cluster → Cluster) : (s.modCluster c f).mgmt = s.mgmt := rfl
@[simp] theorem State.modCluster_service (s : State) (c : Nat) (f : Cluster → Cluster) : (s.modCluster c f).service = s.service := rfl
@[simp] theorem State.modCluster_interrupts (s : State) (c : Nat) (f : Cluster → Cluster) : (s.modCluster c f).interrupts = s.interrupts := rfl
@[simp] theorem State.modCluster_reports (s : State) (c : Nat) (f : Cluster → Cluster) : (s.modCluster c f).reports = s.reports := rfl
@[simp] theorem State.modCluster_errs (s : State) (c : Nat) (f : Cluster → Cluster) : (s.modCluster c f).errs = s.errs := rfl
@[simp] theorem State.modCluster_out (s : State) (c : Nat) (f : Cluster → Cluster) : (s.modCluster c f).out = s.out := rfl
@[simp] theorem State.modCluster_leader (s : State) (c : Nat) (f : Cluster → Cluster) : (s.modCluster c f).leader = s.leader := rfl
@[simp] theorem State.modCluster_dies (s : State) (c : Nat) (f : Cluster → Cluster) : (s.modCluster c f).dies = s.dies := rfl
@[simp] theorem State.modCluster_cores (s : State) (c : Nat) (f : Cluster → Cluster) : (s.modCluster c f).cores = s.cores := rfl
@[simp] theorem State.modCluster_ctxs (s : State) (c : Nat) (f : Cluster → Cluster) : (s.modCluster c f).ctxs = s.ctxs := rfl
@[simp] theorem State.modCluster_trees (s : State) (c : Nat) (f : Cluster → Cluster) : (s.modCluster c f).trees = s.trees := rfl
@[simp] theorem State.modCluster_tasks (s : State) (c : Nat) (f : Cluster → Cluster) : (s.modCluster c f).tasks = s.tasks := rfl
@[simp] theorem State.modCluster_cur (s : State) (c : Nat) (f : Cluster → Cluster) : (s.modCluster c f).cur = s.cur := rfl
@[simp] theorem State.modCluster_agenda (s : State) (c : Nat) (f : Cluster → Cluster) : (s.modCluster c f).agenda = s.agenda := rfl
@[simp] theorem State.modCluster_tick (s : State) (c : Nat) (f : Cluster → Cluster) : (s.modCluster c f).tick = s.tick := rfl
@[simp] theorem State.modCluster_hold (s : State) (c : Nat) (f : Cluster → Cluster) : (s.modCluster c f).hold = s.hold := rfl
@[simp] theorem State.modCluster_nextId (s : State) (c : Nat) (f : Cluster → Cluster) : (s.modCluster c f).nextId = s.nextId := rfl
@[simp] theorem State.modCluster_saveCount (s : State) (c : Nat) (f : Cluster → Cluster) : (s.modCluster c f).saveCount = s.saveCount := rfl

@[simp] theorem State.modCore_power (s : State) (k : Nat) (f : Core → Core) : (s.modCore k f).power = s.power := rfl
@[simp] theorem State.modCore_flash (s : State) (k : Nat) (f : Core → Core) : (s.modCore k f).flash = s.flash := rfl
@[simp] theorem State.modCore_powerCap (s : State) (k : Nat) (f : Core → Core) : (s.modCore k f).powerCap = s.powerCap := rfl
@[simp] theorem State.modCore_spoilers (s : State) (k : Nat) (f : Core → Core) : (s.modCore k f).spoilers = s.spoilers := rfl
@[simp] theorem State.modCore_mem (s : State) (k : Nat) (f : Core → Core) : (s.modCore k f).mem = s.mem := rfl
@[simp] theorem State.modCore_poison (s : State) (k : Nat) (f : Core → Core) : (s.modCore k f).poison = s.poison := rfl
@[simp] theorem State.modCore_mgmtBlock (s : State) (k : Nat) (f : Core → Core) : (s.modCore k f).mgmtBlock = s.mgmtBlock := rfl
@[simp] theorem State.modCore_mgmtStatus (s : State) (k : Nat) (f : Core → Core) : (s.modCore k f).mgmtStatus = s.mgmtStatus := rfl
@[simp] theorem State.modCore_mgmt (s : State) (k : Nat) (f : Core → Core) : (s.modCore k f).mgmt = s.mgmt := rfl
@[simp] theorem State.modCore_service (s : State) (k : Nat) (f : Core → Core) : (s.modCore k f).service = s.service := rfl
@[simp] theorem State.modCore_interrupts (s : State) (k : Nat) (f : Core → Core) : (s.modCore k f).interrupts = s.interrupts := rfl
@[simp] theorem State.modCore_reports (s : State) (k : Nat) (f : Core → Core) : (s.modCore k f).reports = s.reports := rfl
@[simp] theorem State.modCore_errs (s : State) (k : Nat) (f : Core → Core) : (s.modCore k f).errs = s.errs := rfl
@[simp] theorem State.modCore_out (s : State) (k : Nat) (f : Core → Core) : (s.modCore k f).out = s.out := rfl
@[simp] theorem State.modCore_leader (s : State) (k : Nat) (f : Core → Core) : (s.modCore k f).leader = s.leader := rfl
@[simp] theorem State.modCore_dies (s : State) (k : Nat) (f : Core → Core) : (s.modCore k f).dies = s.dies := rfl
@[simp] theorem State.modCore_clusters (s : State) (k : Nat) (f : Core → Core) : (s.modCore k f).clusters = s.clusters := rfl
@[simp] theorem State.modCore_ctxs (s : State) (k : Nat) (f : Core → Core) : (s.modCore k f).ctxs = s.ctxs := rfl
@[simp] theorem State.modCore_trees (s : State) (k : Nat) (f : Core → Core) : (s.modCore k f).trees = s.trees := rfl
@[simp] theorem State.modCore_tasks (s : State) (k : Nat) (f : Core → Core) : (s.modCore k f).tasks = s.tasks := rfl
@[simp] theorem State.modCore_cur (s : State) (k : Nat) (f : Core → Core) : (s.modCore k f).cur = s.cur := rfl
@[simp] theorem State.modCore_agenda (s : State) (k : Nat) (f : Core → Core) : (s.modCore k f).agenda = s.agenda := rfl
@[simp] theorem State.modCore_tick (s : State) (k : Nat) (f : Core → Core) : (s.modCore k f).tick = s.tick := rfl
@[simp] theorem State.modCore_hold (s : State) (k : Nat) (f : Core → Core) : (s.modCore k f).hold = s.hold := rfl
@[simp] theorem State.modCore_nextId (s : State) (k : Nat) (f : Core → Core) : (s.modCore k f).nextId = s.nextId := rfl
@[simp] theorem State.modCore_saveCount (s : State) (k : Nat) (f : Core → Core) : (s.modCore k f).saveCount = s.saveCount := rfl

@[simp] theorem State.modDie_power (s : State) (d : Nat) (f : Die → Die) : (s.modDie d f).power = s.power := rfl
@[simp] theorem State.modDie_flash (s : State) (d : Nat) (f : Die → Die) : (s.modDie d f).flash = s.flash := rfl
@[simp] theorem State.modDie_powerCap (s : State) (d : Nat) (f : Die → Die) : (s.modDie d f).powerCap = s.powerCap := rfl
@[simp] theorem State.modDie_spoilers (s : State) (d : Nat) (f : Die → Die) : (s.modDie d f).spoilers = s.spoilers := rfl
@[simp] theorem State.modDie_mem (s : State) (d : Nat) (f : Die → Die) : (s.modDie d f).mem = s.mem := rfl
@[simp] theorem State.modDie_poison (s : State) (d : Nat) (f : Die → Die) : (s.modDie d f).poison = s.poison := rfl
@[simp] theorem State.modDie_mgmtBlock (s : State) (d : Nat) (f : Die → Die) : (s.modDie d f).mgmtBlock = s.mgmtBlock := rfl
@[simp] theorem State.modDie_mgmtStatus (s : State) (d : Nat) (f : Die → Die) : (s.modDie d f).mgmtStatus = s.mgmtStatus := rfl
@[simp] theorem State.modDie_mgmt (s : State) (d : Nat) (f : Die → Die) : (s.modDie d f).mgmt = s.mgmt := rfl
@[simp] theorem State.modDie_service (s : State) (d : Nat) (f : Die → Die) : (s.modDie d f).service = s.service := rfl
@[simp] theorem State.modDie_interrupts (s : State) (d : Nat) (f : Die → Die) : (s.modDie d f).interrupts = s.interrupts := rfl
@[simp] theorem State.modDie_reports (s : State) (d : Nat) (f : Die → Die) : (s.modDie d f).reports = s.reports := rfl
@[simp] theorem State.modDie_errs (s : State) (d : Nat) (f : Die → Die) : (s.modDie d f).errs = s.errs := rfl
@[simp] theorem State.modDie_out (s : State) (d : Nat) (f : Die → Die) : (s.modDie d f).out = s.out := rfl
@[simp] theorem State.modDie_leader (s : State) (d : Nat) (f : Die → Die) : (s.modDie d f).leader = s.leader := rfl
@[simp] theorem State.modDie_clusters (s : State) (d : Nat) (f : Die → Die) : (s.modDie d f).clusters = s.clusters := rfl
@[simp] theorem State.modDie_cores (s : State) (d : Nat) (f : Die → Die) : (s.modDie d f).cores = s.cores := rfl
@[simp] theorem State.modDie_ctxs (s : State) (d : Nat) (f : Die → Die) : (s.modDie d f).ctxs = s.ctxs := rfl
@[simp] theorem State.modDie_trees (s : State) (d : Nat) (f : Die → Die) : (s.modDie d f).trees = s.trees := rfl
@[simp] theorem State.modDie_tasks (s : State) (d : Nat) (f : Die → Die) : (s.modDie d f).tasks = s.tasks := rfl
@[simp] theorem State.modDie_cur (s : State) (d : Nat) (f : Die → Die) : (s.modDie d f).cur = s.cur := rfl
@[simp] theorem State.modDie_agenda (s : State) (d : Nat) (f : Die → Die) : (s.modDie d f).agenda = s.agenda := rfl
@[simp] theorem State.modDie_tick (s : State) (d : Nat) (f : Die → Die) : (s.modDie d f).tick = s.tick := rfl
@[simp] theorem State.modDie_hold (s : State) (d : Nat) (f : Die → Die) : (s.modDie d f).hold = s.hold := rfl
@[simp] theorem State.modDie_nextId (s : State) (d : Nat) (f : Die → Die) : (s.modDie d f).nextId = s.nextId := rfl
@[simp] theorem State.modDie_saveCount (s : State) (d : Nat) (f : Die → Die) : (s.modDie d f).saveCount = s.saveCount := rfl

@[simp] theorem State.modAgent_power (s : State) (w : Who) (f : Agent → Agent) : (s.modAgent w f).power = s.power := rfl
@[simp] theorem State.modAgent_flash (s : State) (w : Who) (f : Agent → Agent) : (s.modAgent w f).flash = s.flash := rfl
@[simp] theorem State.modAgent_powerCap (s : State) (w : Who) (f : Agent → Agent) : (s.modAgent w f).powerCap = s.powerCap := rfl
@[simp] theorem State.modAgent_spoilers (s : State) (w : Who) (f : Agent → Agent) : (s.modAgent w f).spoilers = s.spoilers := rfl
@[simp] theorem State.modAgent_mem (s : State) (w : Who) (f : Agent → Agent) : (s.modAgent w f).mem = s.mem := rfl
@[simp] theorem State.modAgent_poison (s : State) (w : Who) (f : Agent → Agent) : (s.modAgent w f).poison = s.poison := rfl
@[simp] theorem State.modAgent_mgmtBlock (s : State) (w : Who) (f : Agent → Agent) : (s.modAgent w f).mgmtBlock = s.mgmtBlock := rfl
@[simp] theorem State.modAgent_mgmtStatus (s : State) (w : Who) (f : Agent → Agent) : (s.modAgent w f).mgmtStatus = s.mgmtStatus := rfl
@[simp] theorem State.modAgent_mgmt (s : State) (w : Who) (f : Agent → Agent) : (s.modAgent w f).mgmt = s.mgmt := rfl
@[simp] theorem State.modAgent_service (s : State) (w : Who) (f : Agent → Agent) : (s.modAgent w f).service = s.service := rfl
@[simp] theorem State.modAgent_interrupts (s : State) (w : Who) (f : Agent → Agent) : (s.modAgent w f).interrupts = s.interrupts := rfl
@[simp] theorem State.modAgent_reports (s : State) (w : Who) (f : Agent → Agent) : (s.modAgent w f).reports = s.reports := rfl
@[simp] theorem State.modAgent_errs (s : State) (w : Who) (f : Agent → Agent) : (s.modAgent w f).errs = s.errs := rfl
@[simp] theorem State.modAgent_out (s : State) (w : Who) (f : Agent → Agent) : (s.modAgent w f).out = s.out := rfl
@[simp] theorem State.modAgent_leader (s : State) (w : Who) (f : Agent → Agent) : (s.modAgent w f).leader = s.leader := rfl
@[simp] theorem State.modAgent_dies (s : State) (w : Who) (f : Agent → Agent) : (s.modAgent w f).dies = s.dies := rfl
@[simp] theorem State.modAgent_clusters (s : State) (w : Who) (f : Agent → Agent) : (s.modAgent w f).clusters = s.clusters := rfl
@[simp] theorem State.modAgent_cores (s : State) (w : Who) (f : Agent → Agent) : (s.modAgent w f).cores = s.cores := rfl
@[simp] theorem State.modAgent_ctxs (s : State) (w : Who) (f : Agent → Agent) : (s.modAgent w f).ctxs = s.ctxs := rfl
@[simp] theorem State.modAgent_trees (s : State) (w : Who) (f : Agent → Agent) : (s.modAgent w f).trees = s.trees := rfl
@[simp] theorem State.modAgent_cur (s : State) (w : Who) (f : Agent → Agent) : (s.modAgent w f).cur = s.cur := rfl
@[simp] theorem State.modAgent_agenda (s : State) (w : Who) (f : Agent → Agent) : (s.modAgent w f).agenda = s.agenda := rfl
@[simp] theorem State.modAgent_tick (s : State) (w : Who) (f : Agent → Agent) : (s.modAgent w f).tick = s.tick := rfl
@[simp] theorem State.modAgent_hold (s : State) (w : Who) (f : Agent → Agent) : (s.modAgent w f).hold = s.hold := rfl
@[simp] theorem State.modAgent_nextId (s : State) (w : Who) (f : Agent → Agent) : (s.modAgent w f).nextId = s.nextId := rfl
@[simp] theorem State.modAgent_saveCount (s : State) (w : Who) (f : Agent → Agent) : (s.modAgent w f).saveCount = s.saveCount := rfl

@[simp] theorem State.setHome_power (s : State) (pa : Nat) (bs : List Byte) : (s.setHome pa bs).power = s.power := rfl
@[simp] theorem State.setHome_flash (s : State) (pa : Nat) (bs : List Byte) : (s.setHome pa bs).flash = s.flash := rfl
@[simp] theorem State.setHome_powerCap (s : State) (pa : Nat) (bs : List Byte) : (s.setHome pa bs).powerCap = s.powerCap := rfl
@[simp] theorem State.setHome_spoilers (s : State) (pa : Nat) (bs : List Byte) : (s.setHome pa bs).spoilers = s.spoilers := rfl
@[simp] theorem State.setHome_mgmtBlock (s : State) (pa : Nat) (bs : List Byte) : (s.setHome pa bs).mgmtBlock = s.mgmtBlock := rfl
@[simp] theorem State.setHome_mgmtStatus (s : State) (pa : Nat) (bs : List Byte) : (s.setHome pa bs).mgmtStatus = s.mgmtStatus := rfl
@[simp] theorem State.setHome_mgmt (s : State) (pa : Nat) (bs : List Byte) : (s.setHome pa bs).mgmt = s.mgmt := rfl
@[simp] theorem State.setHome_service (s : State) (pa : Nat) (bs : List Byte) : (s.setHome pa bs).service = s.service := rfl
@[simp] theorem State.setHome_interrupts (s : State) (pa : Nat) (bs : List Byte) : (s.setHome pa bs).interrupts = s.interrupts := rfl
@[simp] theorem State.setHome_reports (s : State) (pa : Nat) (bs : List Byte) : (s.setHome pa bs).reports = s.reports := rfl
@[simp] theorem State.setHome_errs (s : State) (pa : Nat) (bs : List Byte) : (s.setHome pa bs).errs = s.errs := rfl
@[simp] theorem State.setHome_out (s : State) (pa : Nat) (bs : List Byte) : (s.setHome pa bs).out = s.out := rfl
@[simp] theorem State.setHome_leader (s : State) (pa : Nat) (bs : List Byte) : (s.setHome pa bs).leader = s.leader := rfl
@[simp] theorem State.setHome_dies (s : State) (pa : Nat) (bs : List Byte) : (s.setHome pa bs).dies = s.dies := rfl
@[simp] theorem State.setHome_clusters (s : State) (pa : Nat) (bs : List Byte) : (s.setHome pa bs).clusters = s.clusters := rfl
@[simp] theorem State.setHome_cores (s : State) (pa : Nat) (bs : List Byte) : (s.setHome pa bs).cores = s.cores := rfl
@[simp] theorem State.setHome_ctxs (s : State) (pa : Nat) (bs : List Byte) : (s.setHome pa bs).ctxs = s.ctxs := rfl
@[simp] theorem State.setHome_trees (s : State) (pa : Nat) (bs : List Byte) : (s.setHome pa bs).trees = s.trees := rfl
@[simp] theorem State.setHome_tasks (s : State) (pa : Nat) (bs : List Byte) : (s.setHome pa bs).tasks = s.tasks := rfl
@[simp] theorem State.setHome_cur (s : State) (pa : Nat) (bs : List Byte) : (s.setHome pa bs).cur = s.cur := rfl
@[simp] theorem State.setHome_agenda (s : State) (pa : Nat) (bs : List Byte) : (s.setHome pa bs).agenda = s.agenda := rfl
@[simp] theorem State.setHome_tick (s : State) (pa : Nat) (bs : List Byte) : (s.setHome pa bs).tick = s.tick := rfl
@[simp] theorem State.setHome_hold (s : State) (pa : Nat) (bs : List Byte) : (s.setHome pa bs).hold = s.hold := rfl
@[simp] theorem State.setHome_nextId (s : State) (pa : Nat) (bs : List Byte) : (s.setHome pa bs).nextId = s.nextId := rfl
@[simp] theorem State.setHome_saveCount (s : State) (pa : Nat) (bs : List Byte) : (s.setHome pa bs).saveCount = s.saveCount := rfl

/-! ### Lookups -/

theorem find_map_same {α : Type} (l : List α) (key : α → Nat) (k : Nat) (f : α → α) (hf : ∀ a, key (f a) = key a) :
    (l.map (fun a => if key a = k then f a else a)).find? (fun a => key a == k) = (l.find? (fun a => key a == k)).map f := by
  induction l with
  | nil => rfl
  | cons a l ih =>
    simp only [List.map, List.find?]
    by_cases h : key a = k
    · have := hf a
      simp [h, this]
    · have h' : (key a == k) = false := by simpa using h
      simp only [h, if_false, h', ih]

theorem find_map_ne {α : Type} (l : List α) (key : α → Nat) {k j : Nat} (f : α → α) (hf : ∀ a, key (f a) = key a)
    (hj : j ≠ k) :
    (l.map (fun a => if key a = k then f a else a)).find? (fun a => key a == j) = l.find? (fun a => key a == j) := by
  induction l with
  | nil => rfl
  | cons a l ih =>
    simp only [List.map, List.find?]
    by_cases h : key a = k
    · have h1 : (key (f a) == j) = false := by rw [hf, h]; simpa using Ne.symm hj
      have h2 : (k == j) = false := by simpa using Ne.symm hj
      simp only [h, if_true, h1, h2, ih]
    · simp only [h, if_false]
      split <;> simp_all

/-- A task changed is found changed. -/
theorem State.task?_modTask (s : State) (id : Nat) (f : Task → Task) (hf : ∀ t, (f t).entry.id = t.entry.id) :
    (s.modTask id f).task? id = (s.task? id).map f := find_map_same s.tasks (fun t => t.entry.id) id f hf

/-- Another task is found as it was. -/
theorem State.task?_modTask_ne (s : State) {id j : Nat} (f : Task → Task) (hf : ∀ t, (f t).entry.id = t.entry.id) (hj : j ≠ id) :
    (s.modTask id f).task? j = s.task? j := find_map_ne s.tasks (fun t => t.entry.id) f hf hj

/-- A tree changed is found changed. -/
theorem State.tree?_modTree (s : State) (id : Nat) (f : Tree → Tree) (hf : ∀ t, (f t).id = t.id) :
    (s.modTree id f).tree? id = (s.tree? id).map f := find_map_same s.trees (fun t => t.id) id f hf

@[simp] theorem State.cluster_modTask (s : State) (id : Nat) (f : Task → Task) (c : Nat) : (s.modTask id f).cluster c = s.cluster c := rfl
@[simp] theorem State.core_modTask (s : State) (id : Nat) (f : Task → Task) (k : Nat) : (s.modTask id f).core k = s.core k := rfl
@[simp] theorem State.die_modTask (s : State) (id : Nat) (f : Task → Task) (d : Nat) : (s.modTask id f).die d = s.die d := rfl
@[simp] theorem State.cycle_modTask (s : State) (id : Nat) (f : Task → Task) (c : Nat) : (s.modTask id f).cycle c = s.cycle c := rfl
@[simp] theorem State.home_modTask (s : State) (id : Nat) (f : Task → Task) (pa n : Nat) : (s.modTask id f).home pa n = s.home pa n := rfl
@[simp] theorem State.tree?_modTask (s : State) (id j : Nat) (f : Task → Task) : (s.modTask id f).tree? j = s.tree? j := rfl
@[simp] theorem State.ctx?_modTask (s : State) (id c : Nat) (f : Task → Task) : (s.modTask id f).ctx? c = s.ctx? c := rfl

/-! ### Registers and agents of a task -/

@[simp] theorem Task.modThread_entry (t : Task) (k : Nat) (f : Thread → Thread) : (t.modThread k f).entry = t.entry := rfl
@[simp] theorem Task.modThread_u (t : Task) (k : Nat) (f : Thread → Thread) : (t.modThread k f).u = t.u := rfl
@[simp] theorem Task.modAgent_entry (t : Task) (th : Option Nat) (f : Agent → Agent) : (t.modAgent th f).entry = t.entry := by
  cases th <;> rfl
@[simp] theorem Task.modAgent_place (t : Task) (th : Option Nat) (f : Agent → Agent) : (t.modAgent th f).place = t.place := by
  cases th <;> rfl
@[simp] theorem Task.setReg_entry (t : Task) (th : Option Nat) (r v : Nat) : (t.setReg th r v).entry = t.entry := by
  unfold Task.setReg; split
  · rfl
  · cases th <;> rfl
@[simp] theorem Task.setReg_place (t : Task) (th : Option Nat) (r v : Nat) : (t.setReg th r v).place = t.place := by
  unfold Task.setReg; split
  · rfl
  · cases th <;> rfl

theorem foldl_keeps {α β γ : Type} (g : β → γ) (f : β → α → β) (hf : ∀ b a, g (f b a) = g b) (l : List α) (b : β) :
    g (l.foldl f b) = g b := by
  induction l generalizing b with
  | nil => rfl
  | cons a l ih => rw [List.foldl_cons, ih, hf]

@[simp] theorem Task.setRegs_entry (t : Task) (th : Option Nat) (r n v : Nat) : (t.setRegs th r n v).entry = t.entry := by
  unfold Task.setRegs; split
  · rfl
  · exact foldl_keeps (fun t : Task => t.entry) _ (fun _ _ => Task.setReg_entry ..) _ _
@[simp] theorem Task.setRegs_place (t : Task) (th : Option Nat) (r n v : Nat) : (t.setRegs th r n v).place = t.place := by
  unfold Task.setRegs; split
  · rfl
  · exact foldl_keeps (fun t : Task => t.place) _ (fun _ _ => Task.setReg_place ..) _ _
@[simp] theorem Task.setOpnd_entry (t : Task) (th : Option Nat) (o : Opnd) (v : BitVec 9) (x : Nat) :
    (t.setOpnd th o v x).entry = t.entry := by
  unfold Task.setOpnd; split <;> simp
@[simp] theorem Task.setOpnd_place (t : Task) (th : Option Nat) (o : Opnd) (v : BitVec 9) (x : Nat) :
    (t.setOpnd th o v x).place = t.place := by
  unfold Task.setOpnd; split <;> simp

/-- Element k of a list changed at k. -/
theorem getD_updAt_same {α : Type} (l : List α) (k : Nat) (f : α → α) (d : α) (h : k < l.length) :
    (updAt l k f).getD k d = f (l.getD k d) := by
  induction l generalizing k with
  | nil => simp at h
  | cons a l ih =>
    cases k with
    | zero => rfl
    | succ k => simpa [updAt] using ih k (by simpa using h)

theorem getD_updAt_ne {α : Type} (l : List α) {k j : Nat} (f : α → α) (d : α) (h : j ≠ k) :
    (updAt l k f).getD j d = l.getD j d := by
  induction l generalizing k j with
  | nil => rfl
  | cons a l ih =>
    cases k with
    | zero =>
      cases j with
      | zero => exact absurd rfl h
      | succ j => rfl
    | succ k =>
      cases j with
      | zero => rfl
      | succ j => simpa [updAt] using ih (k := k) (j := j) (by omega)

@[simp] theorem length_updAt {α : Type} (l : List α) (k : Nat) (f : α → α) : (updAt l k f).length = l.length := by
  induction l generalizing k with
  | nil => rfl
  | cons a l ih => cases k <;> simp [updAt, ih]

/-! ### Memory -/

/-- Every memory operation keeps the canonical form: a write at home. -/
theorem State.setHome_wf (s : State) (pa : Nat) (bs : List Byte) (h : Sparse.wf 0 s.mem = true) :
    Sparse.wf 0 (s.setHome pa bs).mem = true := Sparse.wf_write pa bs h

/-- Zeroing a range keeps the canonical form. -/
theorem State.clearHome_wf (s : State) (pa n : Nat) (h : Sparse.wf 0 s.mem = true) : Sparse.wf 0 (s.clearHome pa n).mem = true :=
  Sparse.wfFrom_filter _ h

/-- What is written at home is read back. -/
theorem State.home_setHome (s : State) (pa : Nat) (bs : List Byte) :
    (s.setHome pa bs).home pa bs.length = bs := Sparse.read_write 0 s.mem pa bs

/-- Bytes apart from those written read as before. -/
theorem State.home_setHome_apart (s : State) (pa b n : Nat) (bs : List Byte) (h : b + n ≤ pa ∨ pa + bs.length ≤ b) :
    (s.setHome pa bs).home b n = s.home b n := Sparse.read_write_apart 0 s.mem pa b n bs h

end Sys2Proof.Machine
end

