-- ==== Sys2Proof/Laws/Issue.lean ====
section
/-! SUPPORT. What the issue of an instruction does: the one equation for an agent whose turn it is, and how bodies run. -/

namespace Sys2Proof

open Machine

/-! ### Running bodies -/

namespace Machine

@[simp] theorem run_pure {α : Type} (a : α) (s : State) : (pure a : M α) s = .ok a s := rfl
theorem run_bind {α β : Type} (m : M α) (g : α → M β) (s : State) :
    (m >>= g) s = match m s with | .ok a s' => g a s' | .error e s' => .error e s' := by
  show EStateM.bind m g s = _
  unfold EStateM.bind
  split <;> simp_all
@[simp] theorem run_bind_ok {α β : Type} {m : M α} {g : α → M β} {s s' : State} {a : α} (h : m s = .ok a s') :
    (m >>= g) s = g a s' := by rw [run_bind, h]
@[simp] theorem run_get (s : State) : (get : M State) s = .ok s s := rfl
@[simp] theorem run_modify (g : State → State) (s : State) : (modify g : M Unit) s = .ok () (g s) := rfl
@[simp] theorem run_modTask (w : Who) (g : Task → Task) (s : State) : modTask w g s = .ok () (s.modTask w.task g) := rfl
@[simp] theorem run_modAgent (w : Who) (g : Agent → Agent) (s : State) : modAgent w g s = .ok () (s.modAgent w g) := rfl
@[simp] theorem run_throw {α : Type} (e : Stop) (s : State) : (throw e : M α) s = .error e s := rfl

theorem run_theTask {w : Who} {s : State} {t : Task} (h : s.task? w.task = some t) : theTask w s = .ok t s := by
  unfold theTask
  simp only [run_bind, run_get, h, run_pure]

theorem run_rdOpnd {w : Who} {s : State} {t : Task} (h : s.task? w.task = some t) (o : Opnd) (v : BitVec 9) :
    rdOpnd w o v s = .ok (t.opnd w.thread o v) s := by
  unfold rdOpnd
  simp only [run_bind, run_theTask h, run_pure]

@[simp] theorem run_wrOpnd (w : Who) (o : Opnd) (v : BitVec 9) (x : Nat) (s : State) :
    wrOpnd w o v x s = .ok () (s.modTask w.task (fun t => t.setOpnd w.thread o v x)) := rfl

theorem run_seq {body : Who → M Unit} {w : Who} {s s' : State} (h : body w s = .ok () s') : seq body w s = .ok .next s' := by
  unfold seq
  simp only [run_bind, h, run_pure]

/-! ### Helpers -/

theorem Task.helpersOf_eq_nil {t : Task} (ks : List Nat) (h : ∀ k, (t.thread k).status ≠ .helper) : t.helpersOf ks = [] := by
  unfold Task.helpersOf Task.threadsWhere idxWhere
  rw [List.filter_eq_nil_iff]
  intro k _
  simp [h k]

theorem issueHelpers_none {i : Instr} {f : Fields} {b : Option (Who → M Flow)} {id : Nat} {ks : List Nat} {s : State}
    (h : ∀ t, s.task? id = some t → ∀ k, (t.thread k).status ≠ .helper) : issueHelpers i f b id ks s = s := by
  unfold issueHelpers
  split
  · rfl
  · next t ht => rw [Task.helpersOf_eq_nil ks (h t ht)]; rfl

/-! ### Statuses of threads -/

theorem Task.status_modThread (t : Task) (k j : Nat) (g : Thread → Thread) (hg : ∀ x, (g x).status = x.status) :
    ((t.modThread k g).thread j).status = (t.thread j).status := by
  unfold Task.modThread Task.thread
  show ((updAt t.threads k g).getD j _).status = _
  by_cases h : j = k
  · subst h
    by_cases hl : j < t.threads.length
    · rw [getD_updAt_same _ _ _ _ hl, hg]
    · have : (updAt t.threads j g) = t.threads := by
        clear hg
        generalize t.threads = l at hl
        induction l generalizing j with
        | nil => rfl
        | cons a l ih =>
          cases j with
          | zero => simp at hl
          | succ j => simp only [updAt]; rw [ih j (by simpa using hl)]
      rw [this]
  · rw [getD_updAt_ne _ _ _ h]

@[simp] theorem Task.status_modAgent (t : Task) (th : Option Nat) (g : Agent → Agent) (j : Nat) :
    ((t.modAgent th g).thread j).status = (t.thread j).status := by
  cases th with
  | none => rfl
  | some k => exact Task.status_modThread t k j _ (fun _ => rfl)

@[simp] theorem Task.status_setReg (t : Task) (th : Option Nat) (r v j : Nat) :
    ((t.setReg th r v).thread j).status = (t.thread j).status := by
  unfold Task.setReg
  split
  · rfl
  · cases th with
    | none => rfl
    | some k => exact Task.status_modThread t k j _ (fun _ => rfl)

@[simp] theorem Task.status_setRegs (t : Task) (th : Option Nat) (r n v j : Nat) :
    ((t.setRegs th r n v).thread j).status = (t.thread j).status := by
  unfold Task.setRegs
  split
  · rfl
  · exact foldl_keeps (fun t : Task => (t.thread j).status) _ (fun _ _ => Task.status_setReg ..) _ _

@[simp] theorem Task.status_setOpnd (t : Task) (th : Option Nat) (o : Opnd) (v : BitVec 9) (x j : Nat) :
    ((t.setOpnd th o v x).thread j).status = (t.thread j).status := by
  unfold Task.setOpnd
  split <;> simp

/-! ### Retirement -/

/-- What retirement does to the agent's task. -/
def retireTask (w : Who) (fl : Flow) (inBlock : Bool) (win : List Window) (now : Nat → Nat) (t : Task) : Task :=
  let t := t.modAgent w.thread (fun a => a.retire fl inBlock win (now t.cluster))
  if w.thread.isNone then { t with u := { t.u with retired := t.u.retired + 1 } } else t

theorem State.retire_eq (s : State) (w : Who) (fl : Flow) (inBlock : Bool) (win : List Window) :
    s.retire w fl inBlock win = s.modTask w.task (retireTask w fl inBlock win s.cycle) := rfl

@[simp] theorem retireTask_entry (w : Who) (fl : Flow) (b : Bool) (win : List Window) (now : Nat → Nat) (t : Task) :
    (retireTask w fl b win now t).entry = t.entry := by
  unfold retireTask
  split <;> simp

@[simp] theorem retireTask_status (w : Who) (fl : Flow) (b : Bool) (win : List Window) (now : Nat → Nat) (t : Task) (j : Nat) :
    ((retireTask w fl b win now t).thread j).status = (t.thread j).status := by
  unfold retireTask
  split
  · exact Task.status_modAgent ..
  · exact Task.status_modAgent ..

/-- Retirement leaves the task's lookup defined, with what it does to it. -/
theorem State.task?_retire {s : State} {w : Who} {t : Task} (fl : Flow) (b : Bool) (win : List Window)
    (h : s.task? w.task = some t) : (s.retire w fl b win).task? w.task = some (retireTask w fl b win s.cycle t) := by
  rw [State.retire_eq, State.task?_modTask _ _ _ (by simp), h]
  rfl

/-! ### Issue -/

theorem issueAgent_completes {i : Instr} {f : Fields} {w : Who} {t : Task} {s s' : State} {body : Who → M Flow} {fl : Flow}
    (found : s.task? w.task = some t) (passes : check i f t w.thread = .ok false) (hb : body w s = .ok fl s') :
    issueAgent i f body w s = (s'.retire w fl (decide (0 < (t.agent w.thread).block.left))
      (openWindow (shape i) f (t.agent w.thread).pc.toNat (w.thread.isNone && t.handler.isSome)), true) := by
  unfold issueAgent
  simp only [found, passes, hb, State.conclude]

end Machine

/-- The issue of an instruction in an agent whose turn it is, where its effect comes to an end. -/
theorem issue_completes {i : Instr} {f : Fields} {w : Who} {t t' : Task} {s s' : State} {body : Who → M Flow} {fl : Flow}
    {h : Option (Who → M Flow)} (T : Turn i f w t s) (hb : body w s = .ok fl s') (found' : s'.task? w.task = some t')
    (alone' : ∀ k, (t'.thread k).status ≠ .helper) :
    issue i f body h s = .next (s'.retire w fl (decide (0 < (t.agent w.thread).block.left))
      (openWindow (shape i) f (t.agent w.thread).pc.toNat (w.thread.isNone && t.handler.isSome))) := by
  have ha := issueAgent_completes T.found T.passes hb
  obtain ⟨task, thread⟩ := w
  unfold issue
  cases thread with
  | none =>
    have hr := T.uniformReady rfl
    have hf := T.found
    simp only at hf
    simp only [T.cur, Option.isNone_none, if_true, hf, hr.1, hr.2, Option.isSome_none, Bool.or_false, Bool.false_eq_true, if_false]
    rw [ha]
    rfl
  | some k =>
    have hr := T.threadReady k rfl
    have hf := T.found
    simp only at hf
    simp only [T.cur, Option.isNone_some, Bool.false_eq_true, if_false, Option.toList, issueThreads, hf, hr, if_true, ha]
    rw [issueHelpers_none]
    intro t'' h''
    rw [State.task?_retire (t := t') (w := ⟨task, some k⟩) _ _ _ found'] at h''
    cases h''
    intro j
    rw [retireTask_status]
    exact alone' j

/-- An instruction whose effect is to change its own task, leaving statuses of threads as they were. -/
theorem issueLane_completes {i : Instr} {f : Fields} {w : Who} {t : Task} {s : State} {body : Who → M Unit} {g : Task → Task}
    (T : Turn i f w t s) (hb : body w s = .ok () (s.modTask w.task g)) (hid : ∀ x, (g x).entry.id = x.entry.id)
    (hst : ∀ x k, ((g x).thread k).status = (x.thread k).status) :
    issueLane i f body s = .next (retired i f w t (s.modTask w.task g)) := by
  refine issue_completes (t' := g t) T (run_seq hb) ?_ ?_
  · rw [State.task?_modTask _ _ _ hid, T.found]; rfl
  · intro k; rw [hst]; exact T.alone k

theorem issueLive_completes {i : Instr} {f : Fields} {w : Who} {t : Task} {s : State} {body : Who → M Unit} {g : Task → Task}
    (T : Turn i f w t s) (hb : body w s = .ok () (s.modTask w.task g)) (hid : ∀ x, (g x).entry.id = x.entry.id)
    (hst : ∀ x k, ((g x).thread k).status = (x.thread k).status) :
    issueLive i f body s = .next (retired i f w t (s.modTask w.task g)) := by
  refine issue_completes (t' := g t) T (run_seq hb) ?_ ?_
  · rw [State.task?_modTask _ _ _ hid, T.found]; rfl
  · intro k; rw [hst]; exact T.alone k

end Sys2Proof
end

