-- ==== Sys2Proof/Laws/Int.lean ====
section
/-! SUPPORT. Integer instructions (06 R127, R130): how their operands read, how their results are written, and that one whose turn it is completes. -/

namespace Sys2Proof

open Machine

/-- The executor of an instruction whose turn it is. -/
theorem turn_u {i : Instr} {f : Fields} {w : Who} {t : Machine.Task} {s : State} (T : Turn i f w t s) : f.u = w.thread.isNone := by
  have h := T.passes
  unfold check at h
  simp only at h
  split at h
  · simp at h
  · next h1 =>
    simp only [Bool.or_eq_true, not_or, bne_iff_ne, ne_eq, not_not] at h1
    exact h1.1.1.1

/-- Its form is legal. -/
theorem turn_legal {i : Instr} {f : Fields} {w : Who} {t : Machine.Task} {s : State} (T : Turn i f w t s) : (t.shapeOf i).legal f = true := by
  have h := T.passes
  unfold check at h
  simp only at h
  split at h
  · simp at h
  · next h1 =>
    simp only [Bool.or_eq_true, not_or, Bool.not_eq_true', Bool.not_eq_false] at h1
    exact h1.1.1.2

theorem field_eq (v h l : Nat) : field v h l = v / 2 ^ l % 2 ^ (h + 1 - l) := rfl

theorem regs_one (t : Machine.Task) (th : Option Nat) (r : Nat) : t.regs th r 1 = t.reg th r := by
  unfold Task.regs
  split
  · subst_vars; simp [Task.reg]
  · simp

theorem regs_two (t : Machine.Task) (th : Option Nat) (r : Nat) : t.regs th r 2 = if r = 0 then 0 else t.reg th r + t.reg th (r + 1) * 2 ^ (if th.isSome then 32 else 64) := by
  unfold Task.regs
  split
  · rfl
  · simp [List.range_succ]

theorem reg_lt (t : Machine.Task) (th : Option Nat) (r : Nat) : t.reg th r < 2 ^ (if th.isSome then 32 else 64) := by
  unfold Task.reg
  split
  · positivity
  · cases th with
    | none => exact BitVec.isLt _
    | some k => exact BitVec.isLt _

/-- Reading an integer source. -/
theorem opnd_int (f : Fields) (w : Who) (t : Machine.Task) (v : BitVec 9) (hu : f.u = w.thread.isNone) :
    trunc (t.opnd w.thread (rd (if f.u then .s else .x2 (mBit f 7))) v) (intW f) = sourceOf f w t v := by
  unfold trunc intW sourceOf widthOf Task.opnd rd mBit
  obtain ⟨task, th⟩ := w
  cases th with
  | none =>
    simp only [Option.isNone_none] at hu
    simp only [hu, if_true, Kind.regs, regs_one]
  | some k =>
    simp only [Option.isNone_some] at hu
    simp only [hu, Bool.false_eq_true, if_false]
    by_cases h : bitAt f.mod.toNat 7 = true
    · simp only [h, Kind.x2, if_true, Kind.regs, regs_two, Option.isSome_some]
      have h1 := reg_lt t (some k) v.toNat
      have h2 := reg_lt t (some k) (v.toNat + 1)
      simp only [Option.isSome_some, if_true] at h1 h2
      by_cases hv : v = 0
      · simp [hv]
      · have : v.toNat ≠ 0 := by intro hh; exact hv (BitVec.eq_of_toNat_eq (by simpa using hh))
        simp only [this, hv, if_false]
        norm_num
        rw [Nat.mod_eq_of_lt (by omega)]; ring
    · have h1 := reg_lt t (some k) v.toNat
      simp only [Option.isSome_some, if_true] at h1
      simp only [Bool.not_eq_true] at h
      simpa [h, Kind.x2, Kind.regs, regs_one] using h1

/-- Writing an integer result. -/
theorem setOpnd_int (f : Fields) (w : Who) (t : Machine.Task) (v : BitVec 9) (x : Nat) (hu : f.u = w.thread.isNone) :
    t.setOpnd w.thread (wr (if f.u then .s else .x2 (mBit f 7))) v x =
      if v = 0 then t
      else if w.thread.isSome ∧ widthOf f = 64 then
        (t.setReg w.thread v.toNat (x % 2 ^ 32)).setReg w.thread (v.toNat + 1) (x / 2 ^ 32)
      else t.setReg w.thread v.toNat x := by
  unfold Task.setOpnd wr mBit
  have hv : v.toNat = 0 ↔ v = 0 := ⟨fun hh => BitVec.eq_of_toNat_eq (by simpa using hh), fun h => by simp [h]⟩
  obtain ⟨task, th⟩ := w
  cases th with
  | none =>
    simp only [Option.isNone_none] at hu
    simp only [hu, if_true, Kind.regs, Task.setRegs, hv]
    simp
  | some k =>
    simp only [Option.isNone_some] at hu
    simp only [hu, Bool.false_eq_true, if_false]
    unfold widthOf
    by_cases h : bitAt f.mod.toNat 7 = true
    · simp only [h, Kind.x2, if_true, Kind.regs, Task.setRegs, hv]
      split
      · rfl
      · simp only [List.range_succ, List.range_zero, List.nil_append, List.foldl_append, List.foldl_cons, List.foldl_nil, Option.isSome_some, if_true, and_self]
        have hr : ∀ (u : Machine.Task) r, u.setReg (some k) r x = u.setReg (some k) r (x % 2^32) := by
          intro u r
          have : BitVec.ofNat 32 x = BitVec.ofNat 32 (x % 2 ^ 32) := BitVec.eq_of_toNat_eq (by simp)
          unfold Task.setReg; rw [this]
        simp only [Nat.mul_zero, Nat.pow_zero, Nat.div_one, Nat.add_zero, Nat.mul_one]
        rw [hr]
    · simp only [Bool.not_eq_true] at h
      simp [h, Kind.x2, Kind.regs, Task.setRegs, hv]

/-- The immediate of an integer instruction. -/
theorem imm_eq (f : Fields) : intImm f = immediateOf f := by
  unfold intImm immediateOf widthOf mBit
  by_cases h : bitAt f.mod.toNat 7 = true
  · simp only [h, if_true]
    have := f.imm.isLt
    have e : signExt f.imm.toNat 32 = f.imm.toInt := by
      unfold signExt
      rw [BitVec.toInt_eq_toNat_cond]
      simp
      split <;> split <;> omega
    rw [e]
    unfold truncInt
    rw [BitVec.toNat_signExtend]
    simp [BitVec.msb_eq_decide]
    rw [BitVec.toInt_eq_toNat_cond]
    split <;> split <;> omega
  · simp [h]

theorem imm_lt (f : Fields) : immediateOf f < 2 ^ widthOf f := by
  unfold immediateOf widthOf
  split <;> split <;> first | (exact BitVec.isLt _) | simp_all

theorem width_eq (f : Fields) : intW f = widthOf f := rfl

theorem opnd_none (t : Machine.Task) (th : Option Nat) (v : BitVec 9) : t.opnd th {} v = 0 := by
  unfold Task.opnd Kind.regs Task.regs
  split <;> simp_all

/-- An integer instruction in an agent whose turn it is. -/
theorem intOp_completes {i : Instr} {f : Fields} {w : Who} {t : Machine.Task} {s : State} {imm : Bool}
    {g : Nat → Nat → Nat → Nat → Nat} (T : Turn i f w t s)
    (hd : (shape i).d = wr (if f.u then .s else .x2 (mBit f 7))) :
    intOp i f imm g s = .next (retired i f w t (withResult f w f.d
      (g (widthOf f) (trunc (t.opnd w.thread (shape i).a f.a) (intW f))
        (if imm then immediateOf f else trunc (t.opnd w.thread (shape i).b f.b) (intW f))
        (trunc (t.opnd w.thread (shape i).c f.c) (intW f)) % 2 ^ widthOf f) s)) := by
  unfold intOp
  rw [issueLane_completes T (g := fun t' => t'.setOpnd w.thread (wr (if f.u then .s else .x2 (mBit f 7))) f.d
      (trunc (g (intW f) (trunc (t.opnd w.thread (shape i).a f.a) (intW f))
        (if imm then intImm f else trunc (t.opnd w.thread (shape i).b f.b) (intW f))
        (trunc (t.opnd w.thread (shape i).c f.c) (intW f))) (intW f)))]
  · congr 2
    unfold withResult
    congr 1
    funext t'
    rw [setOpnd_int f w t' f.d _ (turn_u T)]
    simp only [imm_eq, width_eq, trunc]
  · cases imm
    all_goals simp only [run_bind, run_rdOpnd T.found, run_pure, intB, Bool.false_eq_true, if_false, if_true, hd, run_wrOpnd]
  · intro x; simp
  · intro x k; simp

/-- The meaning of an integer instruction over D, A, B and C of one width. -/
theorem computes_intOp {mk : Fields → Instr} {g : Nat → Nat → Nat → Nat → Nat}
    (hs : ∀ f, (shape (mk f)).d = wr (if f.u then .s else .x2 (mBit f 7)))
    (ha : ∀ f, (shape (mk f)).a = rd (if f.u then .s else .x2 (mBit f 7))) (hb : ∀ f, (shape (mk f)).b = rd (if f.u then .s else .x2 (mBit f 7)))
    (hc : ∀ f, (shape (mk f)).c = rd (if f.u then .s else .x2 (mBit f 7)))
    (he : ∀ f s, exec (mk f) s = intOp (mk f) f false g s) :
    Computes mk (fun f a b c => g (widthOf f) a b c % 2 ^ widthOf f) := by
  intro f w t s T
  rw [he, intOp_completes T (hs f), ha, hb, hc]
  simp only [opnd_int f w t _ (turn_u T)]
  rfl

end Sys2Proof
end

