-- ==== Sys2Proof/Laws/Memory.lean ====
section
/-! SUPPORT. Every operation over memory keeps its canonical form: addresses strictly rising, and no byte listed that an unlisted address
reads as (10 R243; log entry 2). -/

namespace Sys2Proof.Machine

/-- The memory of a state is in its canonical form. -/
structure State.MemOk (s : State) : Prop where
  wf : Sparse.wf 0 s.mem = true

theorem State.memOk_of_mem {s s' : State} (h : s.MemOk) (e : s'.mem = s.mem) : s'.MemOk := by
  exact ⟨by rw [e]; exact h.wf⟩

theorem State.modCluster_memOk {s : State} {cl : Nat} {f : Cluster → Cluster} (h : s.MemOk) : (s.modCluster cl f).MemOk :=
  State.memOk_of_mem h (State.modCluster_mem ..)

theorem foldl_memOk {α : Type} (f : State → α → State) (hf : ∀ s a, s.MemOk → (f s a).MemOk) (l : List α) {s : State} (h : s.MemOk) :
    (l.foldl f s).MemOk := by
  induction l generalizing s with
  | nil => exact h
  | cons a l ih => exact ih (hf s a h)

theorem State.reset_memOk : State.reset.MemOk := ⟨rfl⟩

theorem State.setHome_memOk {s : State} (pa : Nat) (bs : List Byte) (h : s.MemOk) : (s.setHome pa bs).MemOk := ⟨s.setHome_wf pa bs h.wf⟩

theorem State.scrub_memOk {s : State} (pa n : Nat) (h : s.MemOk) : (s.scrub pa n).MemOk := ⟨h.wf⟩

theorem State.clearHome_memOk {s : State} (pa n : Nat) (h : s.MemOk) : (s.clearHome pa n).MemOk := ⟨s.clearHome_wf pa n h.wf⟩

/-! ### Home slices and the L1 -/

theorem State.writeBackLine_memOk {s : State} (cl line : Nat) (h : s.MemOk) : (s.writeBackLine cl line).MemOk := by
  unfold State.writeBackLine
  split
  · exact h
  · apply State.modCluster_memOk
    refine foldl_memOk _ (fun s q h => ?_) _ (foldl_memOk _ (fun s k h => State.setHome_memOk _ _ h) _ h)
    split
    · exact State.scrub_memOk _ _ h
    · exact h

theorem State.writeBackAll_memOk {s : State} (cl : Nat) (h : s.MemOk) : (s.writeBackAll cl).MemOk :=
  foldl_memOk _ (fun _ _ h => State.writeBackLine_memOk _ _ h) _ h

theorem State.dropLine_memOk {s : State} (cl line : Nat) (h : s.MemOk) : (s.dropLine cl line).MemOk :=
  State.modCluster_memOk (State.writeBackLine_memOk cl line h)

theorem State.dropClean_memOk {s : State} (cl : Nat) (h : s.MemOk) : (s.dropClean cl).MemOk := State.modCluster_memOk h

theorem State.fillLine_memOk {s : State} (cl line : Nat) (h : s.MemOk) : (s.fillLine cl line).MemOk := by
  unfold State.fillLine
  dsimp only
  split
  · exact h
  · apply State.modCluster_memOk
    split
    · split
      · exact State.dropLine_memOk _ _ h
      · exact h
    · exact h

theorem State.loadByte_memOk {s : State} (cl pa : Nat) (l1 : Bool) (h : s.MemOk) : (s.loadByte cl pa l1).2.MemOk := by
  have hs : State.MemOk (if l1 then s.fillLine cl (pa / 128) else s) := by
    split
    · exact State.fillLine_memOk _ _ h
    · exact h
  unfold State.loadByte
  dsimp only
  split
  · exact hs
  · split
    · exact hs
    · exact State.modCluster_memOk hs

theorem State.storeByte_memOk {s : State} (cl pa : Nat) (v : Byte) (l1 : Bool) (h : s.MemOk) : (s.storeByte cl pa v l1).MemOk := by
  have hs : State.MemOk (if l1 then s.fillLine cl (pa / 128) else s.setHome pa [v]) := by
    split
    · exact State.fillLine_memOk _ _ h
    · exact State.setHome_memOk _ _ h
  unfold State.storeByte
  dsimp only
  split
  · exact hs
  · split
    · exact State.modCluster_memOk hs
    · exact hs

theorem State.getBytes_memOk {s : State} (cl pa : Nat) (l1 : Bool) (n : Nat) (h : s.MemOk) : (s.getBytes cl pa l1 n).2.MemOk := by
  induction n generalizing s pa with
  | zero => exact h
  | succ n ih => exact ih (pa + 1) (State.loadByte_memOk cl pa l1 h)

theorem State.putBytes_memOk {s : State} (cl pa : Nat) (l1 : Bool) (bs : List Byte) (h : s.MemOk) : (s.putBytes cl pa l1 bs).MemOk := by
  induction bs generalizing s pa with
  | nil => exact h
  | cons b bs ih => exact ih (pa + 1) (State.storeByte_memOk cl pa b l1 h)

theorem State.writeBackWhere_memOk {s : State} (cl pa n : Nat) (p : L1Line → Bool) (h : s.MemOk) : (s.writeBackWhere cl pa n p).MemOk := by
  unfold State.writeBackWhere
  split
  · exact h
  · refine foldl_memOk _ (fun s k h => ?_) _ h
    split
    · split
      · exact State.writeBackLine_memOk _ _ h
      · exact h
    · exact h

theorem State.writeBackEverywhere_memOk {s : State} (line : Nat) (h : s.MemOk) : (s.writeBackEverywhere line).MemOk :=
  foldl_memOk _ (fun _ _ h => State.writeBackLine_memOk _ _ h) _ h

theorem State.loadBytes_memOk {s : State} (cl pa : Nat) (l1 : Bool) (n : Nat) (h : s.MemOk) : (s.loadBytes cl pa l1 n).2.MemOk :=
  State.getBytes_memOk _ _ _ _ (State.writeBackWhere_memOk _ _ _ _ h)

theorem State.storeBytes_memOk {s : State} (cl pa : Nat) (l1 : Bool) (bs : List Byte) (h : s.MemOk) : (s.storeBytes cl pa l1 bs).MemOk := by
  refine State.putBytes_memOk _ _ _ _ ?_
  split
  · exact h
  · exact State.writeBackWhere_memOk _ _ _ _ h

theorem State.releaseAt_memOk {s : State} (cl scope : Nat) (h : s.MemOk) : (s.releaseAt cl scope).MemOk := by
  unfold State.releaseAt
  split
  · exact State.writeBackAll_memOk cl h
  · exact h

theorem State.acquireAt_memOk {s : State} (cl scope : Nat) (h : s.MemOk) : (s.acquireAt cl scope).MemOk := by
  unfold State.acquireAt
  split
  · exact State.dropClean_memOk cl h
  · exact h

theorem State.translate_memOk {s : State} (ctx cl va : Nat) (need : Need) (h : s.MemOk) : (s.translate ctx cl va need).2.MemOk := by
  unfold State.translate
  dsimp only
  split
  · exact h
  · split
    · exact h
    · split
      · exact h
      · exact h
      · exact State.modCluster_memOk h

/-! ### The command processor and firmware -/

theorem State.putPieces_memOk {s : State} (l : List (Nat × Nat)) (bs : List Byte) (h : s.MemOk) : (s.putPieces l bs).MemOk := by
  induction l generalizing s bs with
  | nil => exact h
  | cons p l ih => exact ih _ (State.setHome_memOk _ _ h)

theorem State.cpWrite_memOk {s s' : State} {ctx va : Nat} {bs : List Byte} {any : Bool} (h : s.MemOk)
    (he : s.cpWrite ctx va bs any = .ok s') : s'.MemOk := by
  unfold State.cpWrite at he
  split at he
  · cases he
  · generalize s.mapCp ctx _ _ = r at he
    cases r with
    | ok l => cases he; exact State.putPieces_memOk _ _ h
    | pend v => cases he
    | fault => cases he

theorem CpRes.okOr_memOk {r : CpRes State} {s : State} (h : s.MemOk) (hr : ∀ s', r = .ok s' → s'.MemOk) : (r.okOr s).MemOk := by
  cases r with
  | ok s' => exact hr s' rfl
  | pend v => exact h
  | fault => exact h

theorem State.modCtx_memOk {s : State} {ctx : Nat} {f : Ctx → Ctx} (h : s.MemOk) : (s.modCtx ctx f).MemOk :=
  State.memOk_of_mem h (State.modCtx_mem ..)

theorem State.modTree_memOk {s : State} {tree : Nat} {f : Tree → Tree} (h : s.MemOk) : (s.modTree tree f).MemOk :=
  State.memOk_of_mem h (State.modTree_mem ..)

theorem State.holdWrite_memOk {s : State} (ctx va : Nat) (bs : List Byte) (h : s.MemOk) : (s.holdWrite ctx va bs).MemOk := State.modCtx_memOk h

theorem State.countEvent_memOk {s : State} (ctx : Nat) (h : s.MemOk) : (s.countEvent ctx).MemOk := State.modCtx_memOk h

theorem State.noteFault_memOk {s : State} (ctx page : Nat) (h : s.MemOk) : (s.noteFault ctx page).MemOk := State.modCtx_memOk h

theorem State.writeEvent_memOk {next : Nat → State → State} (hn : ∀ v s, s.MemOk → (next v s).MemOk) {s : State} (ctx va : Nat) (bs : List Byte)
    (h : s.MemOk) : (s.writeEvent next ctx va bs).MemOk := by
  rw [State.writeEvent]
  generalize hw : s.cpWrite ctx va bs = r
  cases r with
  | ok s' => exact State.cpWrite_memOk h hw
  | fault => exact h
  | pend v =>
    dsimp only
    split
    · exact h
    · split
      · exact State.holdWrite_memOk _ _ _ h
      · exact hn _ _ (State.noteFault_memOk _ _ (State.holdWrite_memOk _ _ _ h))

theorem State.logEvent_memOk {next : Nat → State → State} (hn : ∀ v s, s.MemOk → (next v s).MemOk) {s : State} (ctx code tree value flags : Nat)
    (h : s.MemOk) : (s.logEvent next ctx code tree value flags).MemOk := by
  unfold State.logEvent
  split
  · exact h
  · exact State.writeEvent_memOk hn _ _ _ (State.countEvent_memOk _ h)

theorem State.putEvent_memOk {s : State} (ctx code tree value flags : Nat) (h : s.MemOk) : (s.putEvent ctx code tree value flags).MemOk := by
  apply State.logEvent_memOk _ _ _ _ _ _ h
  intro v s h
  apply State.logEvent_memOk _ _ _ _ _ _ h
  intro v s h
  exact State.logEvent_memOk (fun _ _ h => h) _ _ _ _ _ h

theorem State.raisePageFault_memOk {s : State} (ctx tree : Nat) (p : Park) (h : s.MemOk) : (s.raisePageFault ctx tree p).MemOk := by
  unfold State.raisePageFault
  cases s.ctx? ctx with
  | none => exact h
  | some c =>
    dsimp only
    split
    · exact h
    · apply State.putEvent_memOk
      exact State.memOk_of_mem h (State.modCtx_mem ..)

theorem State.writeDescriptor_memOk {s : State} (ctx va : Nat) (bs : List Byte) (h : s.MemOk) : (s.writeDescriptor ctx va bs).MemOk := by
  rw [State.writeDescriptor]
  generalize hw : s.cpWrite ctx va bs = r
  cases r with
  | ok s' => exact State.cpWrite_memOk h hw
  | fault => exact h
  | pend v => exact State.raisePageFault_memOk _ _ _ (State.modCtx_memOk h)

theorem State.disableQueue_memOk {s : State} (ctx q : Nat) (h : s.MemOk) : (s.disableQueue ctx q).MemOk := by
  unfold State.disableQueue
  split
  · exact h
  · apply State.putEvent_memOk
    split
    · exact State.modCtx_memOk (State.writeDescriptor_memOk _ _ _ h)
    · exact State.modCtx_memOk h

/-! ### The race filter -/

theorem State.filterOff_memOk {s : State} (tree : Nat) (h : s.MemOk) : (s.filterOff tree).MemOk := by
  unfold State.filterOff
  cases s.tree? tree with
  | none => exact h
  | some t =>
    apply State.putEvent_memOk
    exact State.memOk_of_mem h (State.modTree_mem ..)

theorem State.snd_memOk {i : Option Nat} {s : State} (h : s.MemOk) : ((i, s) : Option Nat × State).2.MemOk := h

theorem CpRes.bind_memOk {r : CpRes State} {f : State → CpRes State} {s' : State} (hr : ∀ s, r = .ok s → s.MemOk)
    (hf : ∀ s s', s.MemOk → f s = .ok s' → s'.MemOk) (e : r.bind f = .ok s') : s'.MemOk := by
  cases r with
  | ok s => exact hf s s' (hr s rfl) e
  | pend v => cases e
  | fault => cases e

theorem State.clearTail_memOk {s s' : State} {t : Tree} {c : Ctx} {page : Nat} (h : s.MemOk) (e : s.clearTail t c page = .ok s') : s'.MemOk := by
  unfold State.clearTail at e
  split at e
  · cases e; exact h
  · exact State.cpWrite_memOk h e

theorem State.enterStrand_memOk {s : State} (tree : Nat) (t : Tree) (st : Strand) (i : Nat) (c : Ctx) (page : Nat) (h : s.MemOk) :
    (s.enterStrand tree t st i c page).2.MemOk := by
  rw [State.enterStrand]
  split
  · next hw => exact State.snd_memOk (State.modTree_memOk (CpRes.bind_memOk (fun _ e => State.clearTail_memOk h e)
      (fun _ _ hs e => State.cpWrite_memOk hs e) hw))
  · exact State.snd_memOk (State.filterOff_memOk _ h)

theorem State.strandId_memOk {s : State} (tree : Nat) (st : Strand) (h : s.MemOk) : (s.strandId tree st).2.MemOk := by
  unfold State.strandId
  split
  · exact h
  · split
    · exact h
    · dsimp only
      split
      · exact h
      · split
        · exact State.filterOff_memOk _ h
        · split
          · exact State.filterOff_memOk _ h
          · exact State.enterStrand_memOk _ _ _ _ _ _ h

theorem State.mark_memOk {s : State} (tree : Nat) (st : Strand) (pa n : Nat) (h : s.MemOk) : (s.mark tree st pa n).MemOk := by
  have hi := State.strandId_memOk tree st h
  unfold State.mark
  split
  · next he => simpa [he] using hi
  · next i s' he =>
    have hi : s'.MemOk := by simpa [he] using hi
    split
    · exact hi
    · exact foldl_memOk _ (fun s k h => State.setHome_memOk _ _ h) _ hi

theorem State.clearTag_memOk {s : State} (tag : Nat) (h0 : tag ≠ 0) (h1 : tag < 128) (h : s.MemOk) : (s.clearTag tag).MemOk := by
  refine ⟨Sparse.wfFrom_map _ (fun e => ?_) (fun e he => ?_) h.wf⟩
  · dsimp only; split <;> rfl
  · dsimp only
    split
    · intro hz
      have := congrArg BitVec.toNat hz
      have h2 : 2 * tag < 2 ^ 8 := by omega
      rw [BitVec.toNat_ofNat, Nat.mod_eq_of_lt h2] at this
      have : 2 * tag = 0 := this
      omega
    · exact he

/-- A module that loses power keeps companion memory alone. -/
theorem State.dark_memOk {s : State} (h : s.MemOk) : s.dark.MemOk := ⟨Sparse.wfFrom_filter _ h.wf⟩

/-! ### Accesses of agents and engines, at once or later (11 R262, R274, R275) -/

theorem State.readNow_memOk {s : State} (a : Acc) (segs : List Seg) (h : s.MemOk) : (s.readNow a segs).2.MemOk := by
  unfold State.readNow
  split
  · exact h
  · suffices ∀ (l : List Seg) (r : Except AccErr (List Byte) × State), r.2.MemOk →
        (l.foldl (fun r g => match r with
          | (.error e, s) => (.error e, s)
          | (.ok bs, s) =>
            let (more, s) := s.loadBytes a.cl g.pa (s.usesL1 a.cl a.scope && !s.filtering a g) g.n
            (.ok (bs ++ more), s)) r).2.MemOk from this segs _ h
    intro l
    induction l with
    | nil => exact fun _ hr => hr
    | cons g l ih =>
      rintro ⟨_ | bs, s⟩ hr
      · exact ih _ hr
      · exact ih _ (State.loadBytes_memOk _ _ _ _ hr)

theorem State.readSegs_memOk {s : State} (a : Acc) (segs : List Seg) (h : s.MemOk) : (s.readSegs a segs).2.MemOk := by
  unfold State.readSegs
  split
  · exact State.readNow_memOk _ _ (State.filterOff_memOk _ h)
  · exact h
  · exact State.readNow_memOk _ _ h

theorem State.writeNow_memOk {s : State} (a : Acc) (segs : List Seg) (bs : List Byte) (h : s.MemOk) : (s.writeNow a segs bs).MemOk := by
  unfold State.writeNow
  generalize hp : (s, bs) = p
  have hq : p.1.MemOk := by rw [← hp]; exact h
  clear hp h
  induction segs generalizing p with
  | nil => exact hq
  | cons g l ih =>
    obtain ⟨s, bs⟩ := p
    rw [List.foldl_cons]
    refine ih _ ?_
    have h1 : (if s.filtering a g then s.mark a.tree a.strand g.pa g.n else s).MemOk := by
      split
      · exact State.mark_memOk _ _ _ _ hq
      · exact hq
    dsimp only
    generalize (if s.filtering a g then s.mark a.tree a.strand g.pa g.n else s) = s1 at h1
    split
    · exact State.storeBytes_memOk _ _ _ _ h1
    · exact State.scrub_memOk _ _ (State.storeBytes_memOk _ _ _ _ h1)

theorem State.writeSegs_memOk {s s' : State} {a : Acc} {segs : List Seg} {bs : List Byte} (h : s.MemOk) (e : s.writeSegs a segs bs = .ok s') :
    s'.MemOk := by
  unfold State.writeSegs at e
  split at e <;> cases e
  · exact State.writeNow_memOk _ _ _ (State.filterOff_memOk _ h)
  · exact State.writeNow_memOk _ _ _ h

theorem State.atomHome_memOk {s : State} (a : Acc) (pa n : Nat) (f : Nat → Option Nat) (h : s.MemOk) : (s.atomHome a pa n f).2.MemOk := by
  unfold State.atomHome
  dsimp only
  have h1 : (if (f (ofLE (s.home pa n))).isSome && decide (2 ≤ a.order) then s.releaseAt a.cl a.scope else s).MemOk := by
    split
    · exact State.releaseAt_memOk _ _ h
    · exact h
  generalize (if (f (ofLE (s.home pa n))).isSome && decide (2 ≤ a.order) then s.releaseAt a.cl a.scope else s) = s1 at h1
  have h2 : (match f (ofLE (s.home pa n)) with
      | some v => s1.storeBytes a.cl pa false (leBytes n v)
      | none => (s1.loadBytes a.cl pa false n).2).MemOk := by
    split
    · exact State.storeBytes_memOk _ _ _ _ h1
    · exact State.loadBytes_memOk _ _ _ _ h1
  split
  · exact State.acquireAt_memOk _ _ h2
  · exact h2

theorem State.storeLate_memOk {s : State} (x : Late) (h : s.MemOk) : (s.storeLate x).MemOk := by
  unfold State.storeLate
  split
  · refine State.writeNow_memOk _ _ _ ?_
    split
    · exact State.releaseAt_memOk _ _ h
    · exact h
  · exact State.atomHome_memOk _ _ _ _ (State.writeBackEverywhere_memOk _ h)
  · exact State.releaseAt_memOk _ _ h
  · exact h

theorem State.settleStores_memOk {s : State} (tree : Nat) (h : s.MemOk) : (s.settleStores tree).MemOk :=
  foldl_memOk _ (fun _ _ h => foldl_memOk _ (fun _ _ h => State.storeLate_memOk _ h) _ h) _ h

theorem State.modTask_memOk {s : State} {id : Nat} {f : Task → Task} (h : s.MemOk) : (s.modTask id f).MemOk := State.memOk_of_mem h rfl

theorem State.endTask_memOk {s : State} (t : Task) (h : s.MemOk) : (s.endTask t).MemOk := by
  refine State.memOk_of_mem h ?_
  unfold State.endTask State.dropTask
  cases t.core? <;> rfl

theorem State.abortTree_memOk {s : State} (tree status : Nat) (h : s.MemOk) : (s.abortTree tree status).MemOk := by
  unfold State.abortTree
  split
  · exact h
  · split
    · exact h
    · exact State.modTree_memOk (State.memOk_of_mem (foldl_memOk _ (fun _ _ h => State.endTask_memOk _ h) _ (State.settleStores_memOk _ h)) rfl)

theorem State.readLate_memOk {s : State} (x : Late) (seen : Option (List Byte)) (h : s.MemOk) : (s.readLate x seen).2.MemOk := by
  unfold State.readLate
  split
  · exact h
  · exact State.loadBytes_memOk _ _ _ _ h

theorem State.performOne_memOk {s : State} (w : Who) (n : Nat) (h : s.MemOk) : (s.performOne w n).MemOk := by
  unfold State.performOne
  split
  · next t x _ _ =>
    have h1 : (s.modAgent w (fun a => { a with late := a.late.eraseIdx n })).MemOk := State.modTask_memOk h
    dsimp only
    generalize (s.modAgent w (fun a => { a with late := a.late.eraseIdx n })) = s1 at h1
    split
    · exact State.storeLate_memOk _ h1
    · exact State.storeLate_memOk _ h1
    · split
      · exact State.abortTree_memOk _ _ h1
      · exact State.modTask_memOk (State.readLate_memOk _ _ h1)
    · split
      · exact State.abortTree_memOk _ _ (State.writeBackEverywhere_memOk _ h1)
      · exact State.modTask_memOk (State.atomHome_memOk _ _ _ _ (State.writeBackEverywhere_memOk _ h1))
  · exact h

theorem State.performFirst_memOk {s : State} (w : Who) (m : Nat) (h : s.MemOk) : (s.performFirst w m).MemOk := by
  induction m generalizing s with
  | zero => exact h
  | succ m ih => exact ih (State.performOne_memOk _ _ h)

theorem State.performLate_memOk {s : State} (w : Who) (n : Nat) (h : s.MemOk) : (s.performLate w n).MemOk :=
  State.performOne_memOk _ _ (State.performFirst_memOk _ _ h)

theorem State.settleLate_memOk {s : State} (w : Who) (p : Late → Bool) (l : List Late) (h : s.MemOk) : (s.settleLate w p l).MemOk := by
  induction l generalizing s with
  | nil => exact h
  | cons x l ih =>
    unfold State.settleLate
    split
    · exact h
    · exact ih (State.performLate_memOk _ _ h)

theorem State.settleWhere_memOk {s : State} (ts : List Task) (p : Late → Bool) (h : s.MemOk) : (s.settleWhere ts p).MemOk :=
  foldl_memOk _ (fun _ _ h => foldl_memOk _ (fun _ _ h => State.settleLate_memOk _ _ _ h) _ h) _ h

theorem State.settleChecked_memOk {s : State} (h : s.MemOk) : s.settleChecked.MemOk := State.settleWhere_memOk _ _ h

/-! ### Computations passed over: they write registers and predicates of their task alone -/

theorem State.runSlow_frame (s : State) (task : Nat) (x : Slow) : s.runSlow task x = s ∨ ∃ f, s.runSlow task x = s.modTask task f := by
  unfold State.runSlow
  repeat' split
  all_goals first | exact .inl rfl | exact .inr ⟨_, rfl⟩

theorem State.runSlow_memOk {s : State} (task : Nat) (x : Slow) (h : s.MemOk) : (s.runSlow task x).MemOk := by
  obtain e | ⟨f, e⟩ := s.runSlow_frame task x <;> rw [e]
  · exact h
  · exact State.modTask_memOk h

theorem State.performSlow_memOk {s : State} (n task : Nat) (x : Slow) (h : s.MemOk) : (s.performSlow n task x).MemOk := by
  induction n generalizing s x with
  | zero => exact h
  | succ n ih =>
    refine foldl_memOk _ (fun _ _ h => State.modTask_memOk h) _ (State.runSlow_memOk _ _ (foldl_memOk _ (fun s w h => ?_) _ h))
    refine foldl_memOk _ (fun s y h => ?_) _ (State.settleLate_memOk _ _ _ h)
    split
    · exact ih _ h
    · exact h

theorem State.settleSlow_memOk {s : State} (w : Who) (p : Slow → Bool) (l : List Slow) (h : s.MemOk) : (s.settleSlow w p l).MemOk := by
  induction l generalizing s with
  | nil => exact h
  | cons x l ih =>
    unfold State.settleSlow
    split
    · exact ih (State.performSlow_memOk _ _ _ h)
    · exact h

theorem State.settleAgent_memOk {s : State} (w : Who) (h : s.MemOk) : (s.settleAgent w).MemOk :=
  State.settleSlow_memOk _ _ _ (State.settleLate_memOk _ _ _ h)

theorem State.settleTask_memOk {s : State} (t : Task) (h : s.MemOk) : (s.settleTask t).MemOk :=
  foldl_memOk _ (fun _ _ h => State.settleAgent_memOk _ h) _ (State.settleChecked_memOk h)

/-! ### Commands that have begun, band records, start-up -/

theorem State.readBegun_memOk {s : State} (a : Acc) (segs : List Seg) (h : s.MemOk) : (s.readBegun a segs).2.MemOk := by
  unfold State.readBegun
  split
  · exact h
  · exact State.readSegs_memOk _ _ h

theorem State.writeBegun_memOk {s s' : State} {a : Acc} {before segs : List Seg} {bs : List Byte} (h : s.MemOk)
    (e : s.writeBegun a before segs bs = .ok s') : s'.MemOk := by
  unfold State.writeBegun at e
  split at e
  · cases e
  · generalize hw : s.writeSegs a segs bs = r at e
    cases r with
    | error _ => cases e
    | ok s1 =>
      cases e
      dsimp only
      split
      · exact State.writeSegs_memOk h hw
      · exact foldl_memOk _ (fun _ _ h => foldl_memOk _ (fun _ _ h => State.scrub_memOk _ _ h) _ h) _ (State.writeSegs_memOk h hw)

theorem State.writeBand_memOk {s s' : State} {r : Tree} {b : Nat} (h : s.MemOk) (e : s.writeBand r b = .ok s') : s'.MemOk := by
  unfold State.writeBand at e
  split at e
  · cases e; exact h
  · exact State.cpWrite_memOk h e

theorem State.writeDue_memOk {s s' : State} {r : Tree} (h : s.MemOk) (e : s.writeDue r = .ok s') : s'.MemOk := by
  unfold State.writeDue at e
  split at e
  · cases e; exact h
  · exact State.writeBand_memOk h e

theorem State.stepWork_memOk {s : State} (n : Nat) (h : s.MemOk) : (s.stepWork n).MemOk := by
  unfold State.stepWork
  split
  · exact foldl_memOk _ (fun _ _ h => State.clearHome_memOk _ _ h) _ (State.memOk_of_mem h rfl)
  · exact h

/-- A request noted as awaited changes the collectors alone. -/
theorem State.awaitRequests_frame (s : State) (w : Who) (p : GatherReq → Bool) :
    s.awaitRequests w p = s ∨ ∃ cs, s.awaitRequests w p = { s with cores := cs } := by
  unfold State.awaitRequests
  split
  · exact .inr ⟨_, rfl⟩
  · exact .inl rfl

end Sys2Proof.Machine
end

