-- ==== Sys2Proof/Laws/Places.lean ====
section
/-! SUPPORT. What taking a free place can do (log entry 9): it takes one of them, and takes one wherever there is one. -/

namespace Sys2Proof.Machine

theorem pickFree_mem {p : Config.Place} {tick k : Nat} {l : List Nat} (h : pickFree p tick l = some k) : k ∈ l := by
  unfold pickFree at h
  split at h
  · cases h
  · cases h; exact List.mem_cons_self
  · exact List.mem_of_getElem? h

theorem pickFree_isSome {p : Config.Place} {tick : Nat} {l : List Nat} (h : l ≠ []) : (pickFree p tick l).isSome = true := by
  unfold pickFree
  split
  · exact absurd rfl h
  · rfl
  · have hl := List.length_pos_iff.mpr h
    rw [List.getElem?_eq_getElem (Nat.mod_lt _ hl)]; rfl

theorem pickSome_subset {p : Config.Place} {tick n : Nat} {l : List Nat} : ∀ k ∈ pickSome p tick n l, k ∈ l := by
  induction n generalizing l with
  | zero => simp [pickSome]
  | succ n ih =>
    intro k hk
    unfold pickSome at hk
    split at hk
    · cases hk
    · next h =>
      rcases List.mem_cons.mp hk with rfl | hk
      · exact pickFree_mem h
      · exact List.mem_of_mem_erase (ih k hk)

theorem pickSome_length {p : Config.Place} {tick n : Nat} {l : List Nat} : (pickSome p tick n l).length = min n l.length := by
  induction n generalizing l with
  | zero => simp [pickSome]
  | succ n ih =>
    unfold pickSome
    split
    · next h =>
      have : l = [] := by
        by_contra hl
        have := pickFree_isSome (p := p) (tick := tick) hl
        simp [h] at this
      simp [this]
    · next h =>
      have hm := pickFree_mem h
      have := List.length_pos_of_mem hm
      simp [ih, List.length_erase_of_mem hm]; omega

theorem pickSome_nodup {p : Config.Place} {tick n : Nat} {l : List Nat} (hl : l.Nodup) : (pickSome p tick n l).Nodup := by
  induction n generalizing l with
  | zero => simp [pickSome]
  | succ n ih =>
    unfold pickSome
    split
    · simp
    · refine List.nodup_cons.mpr ⟨fun hk => ?_, ih (hl.erase _)⟩
      exact (List.Nodup.not_mem_erase hl) (pickSome_subset _ hk)

end Sys2Proof.Machine
end

