-- ==== Sys2Proof/Laws/Save.lean ====
section
/-! SUPPORT. Reading a saved slot gives back the same task: no section of it holds the task's identity. -/

namespace Sys2Proof.Machine

/-- A fold whose every step keeps a task's identity keeps it. -/
theorem foldl_id {α : Type} (f : Task → α → Task) (h : ∀ t a, (f t a).entry.id = t.entry.id) (l : List α) (t : Task) :
    (l.foldl f t).entry.id = t.entry.id := by
  induction l generalizing t with
  | nil => rfl
  | cons a l ih => exact (ih _).trans (h t a)

@[simp] theorem Task.setBar_id (t : Task) (n : Nat) (b : Barrier) : (t.setBar n b).entry.id = t.entry.id := rfl
@[simp] theorem Task.modThread_id (t : Task) (k : Nat) (f : Thread → Thread) : (t.modThread k f).entry.id = t.entry.id := rfl
@[simp] theorem Task.modTile_id (t : Task) (acc : Bool) (n : Nat) (f : Tile → Tile) : (t.modTile acc n f).entry.id = t.entry.id := by
  cases acc <;> rfl
@[simp] theorem Task.setReg_id (t : Task) (th : Option Nat) (r v : Nat) : (t.setReg th r v).entry.id = t.entry.id := by
  unfold Task.setReg
  split
  · rfl
  · cases th <;> rfl
@[simp] theorem Task.readUniform_id (t : Task) (d : List Byte) : (t.readUniform d).entry.id = t.entry.id :=
  foldl_id _ (fun _ _ => Task.setReg_id ..) _ t
@[simp] theorem Task.readThread_id (t : Task) (k : Nat) (d : List Byte) : (t.readThread k d).entry.id = t.entry.id :=
  foldl_id _ (fun _ _ => Task.setReg_id ..) _ t
@[simp] theorem Task.readEngine_id (t : Task) (d : List Byte) : (t.readEngine d).entry.id = t.entry.id := rfl
@[simp] theorem Task.readTask_id (t : Task) (d : List Byte) : (t.readTask d).entry.id = t.entry.id :=
  ((foldl_id _ (fun _ _ => Task.modTile_id ..) _ _).trans (foldl_id _ (fun _ _ => Task.modTile_id ..) _ _)).trans
    (foldl_id _ (fun _ _ => Task.setBar_id ..) _ t)

theorem foldl_modTile_id (acc : Bool) (f : Nat → Tile → Tile) (l : List Nat) (t : Task) :
    (l.foldl (fun t k => t.modTile acc (k + 1) (f k)) t).entry.id = t.entry.id := foldl_id _ (fun _ _ => Task.modTile_id ..) l t
theorem foldl_readThread_id (g : Nat → List Byte) (l : List Nat) (t : Task) :
    (l.foldl (fun t k => t.readThread k (g k)) t).entry.id = t.entry.id := foldl_id _ (fun _ _ => Task.readThread_id ..) l t

theorem CpRes.bind_ok {α β : Type} {x : CpRes α} {f : α → CpRes β} {b : β} (h : x.bind f = .ok b) : ∃ a, x = .ok a ∧ f a = .ok b := by
  cases x with
  | ok a => exact ⟨a, rfl, h⟩
  | pend va => cases h
  | fault => cases h

theorem CpRes.staged_ok {α β : Type} {x : CpRes (Option α)} {f : α → CpRes (Except Nat β)} {b : β} (h : x.staged f = .ok (.ok b)) :
    ∃ a, x = .ok (some a) ∧ f a = .ok (.ok b) := by
  cases x with
  | ok a => cases a with
    | none => cases h
    | some a => exact ⟨a, rfl, h⟩
  | pend va => cases h
  | fault => cases h

theorem State.readSlot_id {s : State} {t t' : Task} (h : s.readSlot t = .ok (.ok t')) : t'.entry.id = t.entry.id := by
  unfold State.readSlot at h
  obtain ⟨hd, -, h⟩ := CpRes.bind_ok h
  obtain ⟨ud, -, h⟩ := CpRes.bind_ok h
  obtain ⟨td, -, h⟩ := CpRes.bind_ok h
  obtain ⟨ed, -, h⟩ := CpRes.bind_ok h
  obtain ⟨xd, -, h⟩ := CpRes.bind_ok h
  obtain ⟨ld, -, h⟩ := CpRes.bind_ok h
  obtain ⟨pd, -, h⟩ := CpRes.bind_ok h
  obtain ⟨nd, -, h⟩ := CpRes.bind_ok h
  obtain ⟨vd, -, h⟩ := CpRes.bind_ok h
  obtain ⟨md, -, h⟩ := CpRes.bind_ok h
  simp only at h
  split at h
  · cases h
  · obtain ⟨vs, -, h⟩ := CpRes.staged_ok h
    obtain ⟨sd, -, h⟩ := CpRes.staged_ok h
    split at h
    · cases h
    obtain ⟨cs, -, h⟩ := CpRes.staged_ok h
    have e := congrArg (fun x : Task => x.entry.id) (Except.ok.inj (CpRes.ok.inj h))
    simp only [foldl_modTile_id, foldl_readThread_id, Task.readUniform_id, Task.readEngine_id, Task.readTask_id] at e
    exact e.symm

theorem Sparse.get_outside {m : Sparse Byte} {a : Nat} (h : ∀ e ∈ m, e.1 ≠ a) : Sparse.get 0 m a = 0 := by
  induction m with
  | nil => rfl
  | cons e m ih =>
    rw [Sparse.get, if_neg (Ne.symm (h e (by simp)))]
    exact ih (fun e he => h e (by simp [he]))
theorem Sparse.read_outside {m : Sparse Byte} {n a : Nat} (h : ∀ e ∈ m, e.1 < a ∨ a + n ≤ e.1) : Sparse.read 0 m a n = List.replicate n 0 := by
  induction n generalizing a with
  | zero => rfl
  | succ n ih =>
    rw [Sparse.read, Sparse.get_outside (fun e he => by have := h e he; omega), ih (fun e he => by have := h e he; omega)]
    rfl
theorem Sparse.read_append (m : Sparse Byte) (n k a : Nat) : Sparse.read 0 m a (n + k) = Sparse.read 0 m a n ++ Sparse.read 0 m (a + n) k := by
  induction n generalizing a with
  | zero => simp [Sparse.read]
  | succ n ih => rw [show n + 1 + k = (n + k) + 1 by omega, Sparse.read, Sparse.read, ih (a + 1), show a + 1 + n = a + (n + 1) by omega]; rfl

/-- The slot of a task of one thread, without tiles, pigeonholes, views, expansions or staged children, is read where its sections are read and keep
their forms. -/
theorem State.readSlot_ok {s : State} {t : Task} {n : Nat} {h u x d e m : List Byte} (hx0 : t.expans.length = 0) (hv0 : t.views = [])
    (ht1 : t.threads.length = 1) (e5 : recordBytes t.entry.rcd * t.threads.length = n) (e7 : (s.slotSizesOf t).getD 7 0 = 0)
    (e8 : (s.slotSizesOf t).getD 8 0 = 0) (hst : t.staged = [])
    (rd : Nat → Nat → CpRes (List Byte)) (hr : rd = fun k len => s.cpRead t.entry.ctx (t.savePtr + slotOffset (s.slotSizesOf t) k) len)
    (r1 : rd 1 128 = .ok h) (hh : headerOk h (s.slotHeader t 2) = true) (r2 : rd 2 2048 = .ok u) (hu : uniformOk u = true)
    (r5 : rd 5 n = .ok x) (hx : threadOk t.entry.rcd.regWords (x.take (recordBytes t.entry.rcd)) = true)
    (r3 : rd 3 8192 = .ok d) (hd : taskOk d = true) (r4 : rd 4 36864 = .ok e) (he : engineOk e = true)
    (r11 : rd 11 64 = .ok m) (hm : t.mergeOk m = true) (m0 : leField m 8 8 = 0)
    (r7 : rd 7 0 = .ok []) (r8 : rd 8 0 = .ok []) (r9 : rd 9 0 = .ok []) (r10 : rd 10 0 = .ok []) :
    ∃ t', s.readSlot t = .ok (.ok t') := by
  subst hr
  have staged (ctx st ch k : Nat) : s.readStaged ctx st ch k 0 = .ok (some []) := by cases k <;> rfl
  unfold State.readSlot
  simp only [e5, e7, e8, hx0, hv0, List.length_nil, Nat.mul_zero, r1, r2, r3, r4, r5, r7, r8, r9, r10, r11, CpRes.bind]
  simp only [hh, hu, hd, he, hm, ht1, List.range_succ, List.range_zero, List.nil_append, List.all_cons, List.all_nil, Nat.mul_zero,
    List.drop_zero, hx, Bool.and_true, Bool.not_true, m0, hst]
  rw [if_neg (by decide)]
  simp only [State.restoreViews, staged, State.restoreStaged, viewsByIndex, sortBy, List.foldr_nil, List.zipIdx_nil, List.map_nil, CpRes.staged, List.length_nil,
    Nat.mul_zero, Nat.lt_irrefl, if_false]
  exact ⟨_, rfl⟩

end Sys2Proof.Machine
end

