-- ==== Sys2Proof/Machine/Loader.lean ====
section
/-! DEFINITION. What the loader of this part refuses, by the bytes of a code object (03 R86; 04 R104 to R106; 08 R193; 17 R439) or of a Polaux
container (03 R89 to R91). The loader runs on the host, and no step calls it (log entry 66). -/

namespace Sys2Proof.Machine

/-- Load errors (R86, R91, R106). -/
inductive LoadError where
  | versionUnsupported | objectForm | erratumReliance | polauxForm
  deriving DecidableEq, Repr

/-! ### Code objects -/

/-- Whether n bytes at an offset lie within an object. An offset equal to the object's length lies in it where no byte is asked for (the model's
choice: log entry 66). -/
def lies (d : List Byte) (o n : Nat) : Bool := decide (o + n ≤ d.length)

/-- A full register allotment (02 R50, R55). -/
def regsOk (n : Nat) : Bool := n == 24 || n == 511 || (decide (16 ≤ n ∧ n ≤ 496) && n % 16 == 0)

/-- A kind with one of its types (08 R193). -/
def reducerOk (kind type : Nat) : Bool :=
  match kind with
  | 1 | 5 | 6 | 7 => decide (type ≤ 3)
  | 2 => decide (4 ≤ type ∧ type ≤ 7)
  | 3 | 4 | 8 => decide (type ≤ 7)
  | 9 | 10 => type == 3
  | _ => false

/-- Erratum-reliance entries that this stepping lets load: present in its table and not corrected (R439). -/
def erratumPresent (n : Nat) : Bool := n == 3 || n == 4

/-- A reducer table (R105): reserved bits, kinds and types, indices distinct. -/
def reducersOk (rs : List Nat) : Bool :=
  rs.all (fun r => field r 31 20 == 0 && reducerOk (field r 11 4) (field r 19 12)) && decide ((rs.map (fun r => field r 3 0)).Nodup)

/-- The task record at an offset of an object (R105). The model's choices (log entry 66): of the string table, which has no stated form or size,
the first byte of NAME must lie in the object; an entry at CODESIZE or above is refused though it lie in the object (R106). -/
def recordOk (d : List Byte) (o : Nat) : Bool :=
  let g (k n : Nat) : Nat := leField d (o + k) n
  let sweep := bitAt (g 30 1) 1
  lies d (leField d 64 8 + g 0 8) 1
  && g 8 8 % 64 == 0 && g 16 8 % 64 == 0 && decide (g 8 8 < leField d 40 8) && decide (g 16 8 < leField d 40 8)
  && regsOk (g 24 2) && decide (g 26 1 ≤ 15) && decide (g 27 1 ≤ 7) && decide (g 28 1 ≤ 64) && decide (g 29 1 ≤ 16) && g 29 1 == g 48 4
  && decide (g 30 1 < 4) && g 31 1 == 0
  && (if g 28 1 = 0 then g 32 4 == 0 else g 32 4 % 128 == 0 && decide (128 ≤ g 32 4 ∧ g 32 4 ≤ 65536))
  && (if g 48 4 = 0 then g 40 8 == 0 else lies d (g 40 8) (4 * g 48 4))
  && reducersOk ((List.range (min (g 48 4) 16)).map (fun k => leField d (g 40 8 + 4 * k) 4))
  && (if sweep then g 52 2 != 0 && g 54 2 != 0 && g 56 2 != 0 else g 52 6 == 0) && g 58 6 == 0

/-- The header of an object, and every part that it names (R104, R105). A Polaux map has no layout beyond its place: SEGMAP and STROFF may equal
the object's length, as may the offset of an empty part (the model's choice: log entry 66). -/
def objectOk (d : List Byte) : Bool :=
  let g (k n : Nat) : Nat := leField d k n
  lies d 0 96 && g 0 4 == 0x33584E47 && g 4 2 == 1 && g 6 2 == 0 && g 80 16 == 0
  && decide (1 ≤ g 8 4 ∧ g 8 4 ≤ 65535) && decide (g 12 4 ≤ 255)
  && lies d (g 16 8) (64 * g 8 4) && lies d (g 24 8) (4 * g 12 4)
  && g 32 8 % 64 == 0 && g 40 8 % 64 == 0 && lies d (g 32 8) (g 40 8) && lies d (g 48 8) (g 56 8) && lies d (g 64 8) 0 && lies d (g 72 8) 0
  && (List.range (min (g 8 4) 65535)).all (fun k => recordOk d (g 16 8 + 64 * k))

/-- The first error of a code object, in the order of R106. -/
def objectError (d : List Byte) : Option LoadError :=
  if 1 < leField d 4 2 then some .versionUnsupported
  else if !objectOk d then some .objectForm
  else if (List.range (leField d 12 4)).any (fun k => !erratumPresent (leField d (leField d 24 8 + 4 * k) 4)) then some .erratumReliance
  else none

/-! ### Polaux containers -/

/-- A segment (R90). -/
structure Segment where
  body : Nat
  count : Nat
  kind : Nat
  flags : Nat
  sel : Nat
  succA : Nat
  succB : Nat
  rest : Nat
  deriving DecidableEq, Repr

def segmentAt (d : List Byte) (n : Nat) : Segment :=
  let g (k m : Nat) : Nat := leField d (32 + 16 * n + k) m
  { body := g 0 4, count := g 4 2, kind := g 6 1, flags := g 7 1, sel := g 8 2, succA := g 10 2, succB := g 12 2, rest := g 14 2 }

/-- The instructions of a segment's body. -/
def Segment.instrs (g : Segment) (d : List Byte) : List Instr :=
  (List.range g.count).map (fun k => decode (wordOfBytes ((d.drop (g.body + 12 * k)).take 12)))

/-- An instruction that no body holds: a transfer, an exit or TRAPRET. -/
def leavesBody : Instr → Bool
  | .bra _ | .brx _ | .call _ | .callx _ | .ret _ | .exit _ | .texit _ | .trapret _ => true
  | _ => false

/-- How many instructions after it an instruction reaches: those of its lookahead window or of its predicate block (R75, R78). -/
def reach (i : Instr) (f : Fields) : Nat :=
  match i with
  | .pblk _ => mField f 2 0 + 1
  | _ => if (openWindow (shape i) f 0 false).isEmpty then 0 else f.la.toNat

/-- One instruction of a body of n instructions, at k. -/
def bodyInstrOk (scratch n k : Nat) (i : Instr) : Bool :=
  match i.fields? with
  | none => false
  | some f => !leavesBody i && decide (k + reach i f < n) && !((shape i).named f).any (fun p => spansMeet p (scratch, 1))

/-- A successor in range, in the same stream (R91). -/
def successorOk (d : List Byte) (nseg flags n : Nat) : Bool := decide (n < nseg) && (segmentAt d n).flags == flags

/-- A segment of a container (R90, R91). -/
def segmentOk (d : List Byte) (n : Nat) : Bool :=
  let g := segmentAt d n
  let nseg := leField d 6 2
  let scratch := if g.flags = 1 then leField d 14 2 else leField d 12 2
  g.body % 4 == 0 && lies d g.body (12 * g.count) && decide (g.kind ≤ 3) && decide (g.flags ≤ 1) && g.rest == 0
  && (match g.kind with
    | 2 => decide (g.sel ≤ 7)
    | 3 => decide (g.sel < if g.flags = 1 then 64 else 512)
    | _ => g.sel == 0)
  && (if g.kind = 1 ∨ g.kind = 2 then successorOk d nseg g.flags g.succA else true)
  && (if g.kind = 2 then successorOk d nseg g.flags g.succB else g.succB == 0)
  && ((g.instrs d).zipIdx).all (fun p => bodyInstrOk scratch g.count p.2 p.1)

/-- The error of a Polaux container, if any (R86, R89 to R91). Which error a field out of its range gives, and that VERSION 0 is accepted, are DESIGN
CHOICES (log entry 86). -/
def polauxError (d : List Byte) : Option LoadError :=
  let g (k n : Nat) : Nat := leField d k n
  if 1 < g 4 2 then some .versionUnsupported
  else if lies d 0 32 && g 0 4 == 0x584C4F50 && g 16 16 == 0 && decide (1 ≤ g 6 2) && lies d 32 (16 * g 6 2)
      && decide (1 ≤ g 12 2 ∧ g 12 2 ≤ 511) && decide (1 ≤ g 14 2 ∧ g 14 2 ≤ 63)
      && successorOk d (g 6 2) 0 (g 8 2) && successorOk d (g 6 2) 1 (g 10 2)
      && (List.range (g 6 2)).all (fun n => segmentOk d n) then none
  else some .polauxForm

end Sys2Proof.Machine
end

