-- ==== Sys2Proof/Tests/Slice0.lean ====
section
/-! SUPPORT. Tests: words decoded, ill-formed terms refused, values from the tables and examples of spec/, and for every statement a state
that meets its hypotheses. -/

namespace Sys2Proof.Tests

open Machine

set_option Elab.async false

/-! ### Instructions and states -/

/-- Fields of a word. -/
def F (u : Bool) (d a b c : BitVec 9) (mod : BitVec 8 := 0) (imm : BitVec 32 := 0) : Fields :=
  { u := u, la := 0, ret := 0, d := d, a := a, b := b, c := c, mod := mod, imm := imm }

/-- A resident task of one live thread, in a tile of a sweep, with four pigeonholes and two views. -/
def T : Machine.Task :=
  { demoTask 1 with
    entry := { (demoTask 1).entry with tile := some 0, rcd := { (demoTask 1).entry.rcd with
      reducers := [{ index := 0, kind := 0, type := 0 }, { index := 1, kind := 10, type := 3 }] } }
    threads := [{ ag := { pc := 0x44 } }]
    holes := [{}, {}, {}, {}]
    allot := { regs := 511, mtiles := 15, atiles := 7, holes := 4, views := 2, full := true }
    views := [{ index := 0, kind := 0, type := 0 }, { index := 1, kind := 10, type := 3 }] }

/-- The module running with that task in a context whose first page is mapped, with a NOP marked as a target at 0x44, its uniform stream or
its thread having its turn. -/
def S (th : Option Nat) (t : Machine.Task) : State :=
  let s := demoTables.foldl (fun s p => s.setHome p.1 (leBytes 8 p.2)) State.reset
  let s := s.setHome 0x200040 (mkLine [0x10000000_00000900_00000000] 1)
  { s with
    power := .running
    clusters := [(0, { partition := some 0 })]
    ctxs := [(0, demoCtx)]
    trees := [demoTree 1]
    tasks := [t]
    cur := { task := 1, uniform := th.isNone, threads := th.toList }
    nextId := 2 }

/-- The conditions of `Facing` and of `Turn`, computed. -/
def faces (i : Instr) (f : Fields) (w : Who) (t : Machine.Task) (s : State) : Bool :=
  decide (i.fields? = some f) && decide (s.task? w.task = some t)
  && decide (s.cur = { task := w.task, uniform := w.thread.isNone, threads := w.thread.toList })
  && (w.thread.isSome || (!t.held none && t.u.ag.parked.isNone))
  && (match w.thread with | some k => t.canIssue k | none => true)
  && t.threads.all (fun x => decide (x.status ≠ .helper))
def turns (i : Instr) (f : Fields) (w : Who) (t : Machine.Task) (s : State) : Bool :=
  faces i f w t s && decide (check i f t w.thread = .ok false)

theorem facing_of_faces {i : Instr} {f : Fields} {w : Who} {t : Machine.Task} {s : State} (h : faces i f w t s = true) : Facing i f w t s := by
  simp only [faces, Bool.and_eq_true, decide_eq_true_eq, List.all_eq_true] at h
  obtain ⟨⟨⟨⟨⟨h1, h2⟩, h3⟩, h4⟩, h5⟩, h6⟩ := h
  refine ⟨h1, h2, h3, ?_, ?_, ?_⟩
  · intro hw; simpa [hw] using h4
  · intro k hk; simpa [hk] using h5
  · intro k
    unfold Task.thread
    by_cases hk : k < t.threads.length
    · rw [List.getD_eq_getElem _ _ hk]; exact h6 _ (List.getElem_mem hk)
    · rw [List.getD_eq_default _ _ (by omega)]; decide

theorem turn_of_turns {i : Instr} {f : Fields} {w : Who} {t : Machine.Task} {s : State} (h : turns i f w t s = true) : Turn i f w t s := by
  simp only [turns, Bool.and_eq_true, decide_eq_true_eq] at h
  exact ⟨facing_of_faces h.1, h.2⟩

/-- An instruction has its turn in a task, by its U bit in the uniform stream or in thread 0. -/
def onTask (t : Machine.Task) (i : Instr) : Bool :=
  match i.fields? with
  | some f => let th := if f.u then none else some 0; turns i f { task := 1, thread := th } t (S th t)
  | none => false
def on (i : Instr) : Bool := onTask T i

/-! ### Turns: every form of these statements has its turn in some state -/

theorem witness_IntegerSums_turns :
    [.iadd (F false 2 2 2 0), .iadd (F true 2 2 2 0), .iaddImm (F false 2 2 0 0), .iaddImm (F true 2 2 0 0), .isub (F false 2 2 2 0), .isub
     (F true 2 2 2 0), .isubImm (F false 2 2 0 0), .isubImm (F true 2 2 0 0), .imul (F false 2 2 2 0), .imul (F true 2 2 2 0), .imulImm (F
     false 2 2 0 0), .imulImm (F true 2 2 0 0), .imad (F false 2 2 2 2), .imad (F true 2 2 2 2), .imadImm (F false 2 2 0 2), .imadImm (F
     true 2 2 0 2), .lea (F false 2 2 2 0), .lea (F true 2 2 2 0), .leaImm (F false 2 2 0 0), .leaImm (F true 2 2 0 0), .ineg (F false 2 2 0
     0), .ineg (F true 2 2 0 0), .iabs (F false 2 2 0 0), .iabs (F true 2 2 0 0), .mov (F false 2 2 0 0), .mov (F true 2 2 0 0), .movi (F
     false 2 0 0 0), .movi (F true 2 0 0 0), .movhi (F false 2 2 0 0 128), .movhi (F true 2 2 0 0 128)].all on = true := by decide
theorem witness_IntegerDivision_turns :
    [.imulh (F false 2 2 2 0), .imulh (F true 2 2 2 0), .imulhImm (F false 2 2 0 0), .imulhImm (F true 2 2 0 0), .idiv (F false 2 2 2 0),
     .idiv (F true 2 2 2 0), .idivImm (F false 2 2 0 0), .idivImm (F true 2 2 0 0), .irem (F false 2 2 2 0), .irem (F true 2 2 2 0),
     .iremImm (F false 2 2 0 0), .iremImm (F true 2 2 0 0)].all on = true := by decide
theorem witness_IntegerLogic_turns :
    [.iand (F false 2 2 2 0), .iand (F true 2 2 2 0), .iandImm (F false 2 2 0 0), .iandImm (F true 2 2 0 0), .ior (F false 2 2 2 0), .ior (F
     true 2 2 2 0), .iorImm (F false 2 2 0 0), .iorImm (F true 2 2 0 0), .ixor (F false 2 2 2 0), .ixor (F true 2 2 2 0), .ixorImm (F false
     2 2 0 0), .ixorImm (F true 2 2 0 0), .inot (F false 2 2 0 0), .inot (F true 2 2 0 0), .ishl (F false 2 2 2 0), .ishl (F true 2 2 2 0),
     .ishlImm (F false 2 2 0 0), .ishlImm (F true 2 2 0 0), .ishr (F false 2 2 2 0), .ishr (F true 2 2 2 0), .ishrImm (F false 2 2 0 0),
     .ishrImm (F true 2 2 0 0), .isar (F false 2 2 2 0), .isar (F true 2 2 2 0), .isarImm (F false 2 2 0 0), .isarImm (F true 2 2 0 0),
     .irot (F false 2 2 2 0), .irot (F true 2 2 2 0), .irotImm (F false 2 2 0 0), .irotImm (F true 2 2 0 0)].all on = true := by decide
theorem witness_IntegerFields_turns :
    [.bfx (F false 2 2 2 0), .bfx (F true 2 2 2 0), .bfxImm (F false 2 2 0 0), .bfxImm (F true 2 2 0 0), .bfi (F false 2 2 2 2), .bfi (F
     true 2 2 2 2), .bfiImm (F false 2 2 0 2), .bfiImm (F true 2 2 0 2), .sext (F false 2 2 2 0), .sext (F true 2 2 2 0), .sextImm (F false
     2 2 0 0), .sextImm (F true 2 2 0 0), .zext (F false 2 2 2 0), .zext (F true 2 2 2 0), .zextImm (F false 2 2 0 0), .zextImm (F true 2 2
     0 0), .popc (F false 2 2 0 0), .popc (F true 2 2 0 0), .clz (F false 2 2 0 0), .clz (F true 2 2 0 0), .ctz (F false 2 2 0 0), .ctz (F
     true 2 2 0 0), .brev (F false 2 2 0 0), .brev (F true 2 2 0 0)].all on = true := by decide
theorem witness_IntegerChoices_turns :
    [.imin (F false 2 2 2 0), .imin (F true 2 2 2 0), .iminImm (F false 2 2 0 0), .iminImm (F true 2 2 0 0), .imax (F false 2 2 2 0), .imax
     (F true 2 2 2 0), .imaxImm (F false 2 2 0 0), .imaxImm (F true 2 2 0 0), .isel (F false 2 2 2 2), .isel (F true 2 2 2 2), .iselImm (F
     false 2 2 0 2), .iselImm (F true 2 2 0 2), .icmp (F false 2 2 2 0), .icmp (F true 2 2 2 0), .icmpImm (F false 2 2 0 0), .icmpImm (F
     true 2 2 0 0), .iaddc (F false 2 2 2 2), .iaddc (F true 2 2 2 2), .iaddcImm (F false 2 2 0 2), .iaddcImm (F true 2 2 0 2)].all on = true := by decide
theorem witness_FloatArithmetic_turns :
    [.fadd (F false 2 2 2 0), .fsub (F false 2 2 2 0), .fmul (F false 2 2 2 0), .ffma (F false 2 2 2 2), .fdiv (F false 2 2 2 0), .fsqrt (F
     false 2 2 0 0), .frint (F false 2 2 0 0)].all on = true := by decide
theorem witness_FloatComparisonsAndFunctions_turns :
    [.fmin (F false 2 2 2 0), .fmax (F false 2 2 2 0), .fcmp (F false 2 2 2 0), .fclass (F false 2 2 0 0), .frcp (F false 2 2 0 0), .frsq (F
     false 2 2 0 0), .fexp2 (F false 2 2 0 0), .flog2 (F false 2 2 0 0), .fsin (F false 2 2 0 0), .fcos (F false 2 2 0 0), .ftanh (F false 2
     2 0 0), .fsigm (F false 2 2 0 0), .fscale (F false 2 2 2 0), .fdot2 (F false 2 2 2 2 64)].all on = true := by decide
theorem witness_Conversions_turns :
    [.cvtff (F false 2 2 0 0), .cvtfi (F false 2 2 0 0), .cvtif (F false 2 2 0 0), .pack2 (F false 2 2 2 0 96), .unpk2 (F false 2 2 0 0
     144), .cvt8 (F false 2 2 2 2 64), .unp8 (F false 2 2 0 2 64)].all on = true := by decide
theorem witness_BlocksAndHints_turns :
    [.pblk (F false 0 0 0 0), .pblk (F true 0 0 0 0), .nop (F false 0 0 0 0), .nop (F true 0 0 0 0), .pref (F false 2 2 2 0), .pref (F true
     2 2 2 0), .yield (F false 0 0 0 0), .yield (F true 0 0 0 0)].all on = true := by decide
theorem witness_SoftwareTraps_turns :
    [.swtrap (F false 0 0 0 0), .swtrap (F true 0 0 0 0), .bkpt (F false 0 0 0 0), .bkpt (F true 0 0 0 0)].all on = true := by decide
theorem witness_ControlTransfers_turns :
    [.bra (F false 0 0 0 0), .bra (F true 0 0 0 0), .brx (F false 0 2 0 0), .brx (F true 0 2 0 0), .call (F false 0 0 0 0), .call (F true 0
     0 0 0), .callx (F false 0 2 0 0), .callx (F true 0 2 0 0), .ret (F false 0 0 0 0), .ret (F true 0 0 0 0)].all on = true := by decide
theorem witness_Pigeonholes_turns :
    [.ldh (F false 2 1 2 0), .ldh (F true 2 1 2 0), .sth (F false 0 1 2 2), .sth (F true 0 1 2 2), .hwait (F false 0 1 0 0), .hwait (F true
     0 1 0 0 0 2), .hset (F false 0 1 0 0), .hset (F true 0 1 0 0 0 2), .hqry (F false 2 1 0 0), .hqry (F true 2 1 0 0)].all on = true := by decide
theorem witness_CopiesEnterQueues_turns :
    [.cpy (F false 2 2 2 0), .cpy (F true 2 2 2 0), .cpys (F false 2 0 2 2), .cpys (F true 2 0 2 2), .cpyg (F true 1 2 2 2 0 4), .cpym (F
     true 0 2 1 2 0 16), .cpyd (F true 1 2 0 0 0 16), .cpyt (F true 0 2 1 2)].all on = true := by decide
theorem witness_CopyBatches_turns :
    [.seal (F false 2 0 0 0), .seal (F true 2 0 0 0), .cwait (F false 2 0 0 0), .cwait (F true 2 0 0 0), .qfence (F false 0 0 0 0), .qfence
     (F true 0 0 0 0)].all on = true := by decide
theorem witness_GatherAndScatter_turns :
    [.gath (F false 2 2 2 0), .scat (F false 0 2 2 2), .scadd (F false 0 2 2 2), .binflush (F false 0 0 0 0), .binflush (F true 0 0 0 0)].all on = true := by decide
theorem witness_MatrixQueueAndStatus_turns :
    [.tcfg (F true 2 0 0 0), .trel (F true 2 0 0 0), .tzero (F true 2 0 0 0), .tld (F true 2 2 0 0), .tst (F true 2 2 0 0), .mma (F true 2 2
     2 2), .mmas (F true 2 2 2 2 0 1048576), .tcvt (F true 2 2 0 0), .accrd (F true 2 2 0 0), .accwr (F true 2 2 0 0), .tstat (F true 2 2 0
     0)].all on = true := by decide
theorem witness_Reducers_turns :
    [.vupd (F false 0 2 0 0), .vupd (F true 0 2 0 0), .logapp (F false 0 2 0 0 0 1), .logapp (F true 0 2 0 0 0 1), .vread (F false 2 0 0 0),
     .vread (F true 2 0 0 0)].all on = true := by decide
theorem witness_RandomAndRegions_turns :
    [.rand (F false 4 0 2 0), .rand (F true 2 0 2 0), .alloc (F false 2 2 0 0 0 8), .alloc (F true 2 2 0 0 0 8), .allocCfg (F true 0 2 2 0
     1), .peddg (F false 2 0 0 0), .peddg (F true 2 0 0 0)].all on = true := by decide
theorem witness_Expansions_turns :
    [.xqry (F false 2 0 0 0), .xqry (F true 2 0 0 0)].all on = true := by decide
theorem witness_Coverage_turns :
    [.cvqry (F false 2 2 2 2), .cvqry (F true 2 2 2 2), .cvqryBand (F true 2 2 0 0 1), .cvprobe (F false 2 2 2 2), .recon (F true 0 0 0 0),
     .cverr (F false 0 2 0 0)].all on = true := by decide
theorem witness_ControlRegisters_turns :
    [.csrrd (F false 2 0 0 0 0 1), .csrrd (F true 2 0 0 0), .csrwr (F true 0 2 0 0 0 17), .cycle (F false 2 0 0 0), .cycle (F true 2 0 0 0)].all on = true := by decide
theorem witness_Invalidations_turns :
    [.icsync (F true 0 0 0 0), .tlbinv (F true 0 2 2 0)].all on = true := by decide
theorem witness_AtomicsAndFences_turns :
    [.fence (F false 0 0 0 0 8), .fence (F true 0 0 0 0 8)].all on = true := by decide
/-! ### Witnesses: encoding, floating point, conversions, exchanges, transfers -/

theorem turns_exist {l : List Instr} (h : l.all on = true) (i : Instr) (hi : i ∈ l) : ∃ f w t s, Turn i f w t s := by
  have h' := List.all_eq_true.1 h i hi
  unfold on onTask at h'
  split at h'
  · exact ⟨_, _, _, _, turn_of_turns h'⟩
  · cases h'

def ready {α : Type} (x : CpRes α) : Bool := match x with | .ok _ => true | _ => false
theorem ready_ok {α : Type} {x : CpRes α} (h : ready x = true) : ∃ a, x = .ok a := by
  unfold ready at h
  split at h
  · exact ⟨_, rfl⟩
  · cases h

theorem some_state {α β : Type} {p : α × β} {x : α} (h : p.1 = x) : ∃ s1, p = (x, s1) := ⟨p.2, by cases p; cases h; rfl⟩

/-- The agents of task 1. -/
abbrev U : Who := { task := 1, thread := none }
abbrev W0 : Who := { task := 1, thread := some 0 }

/-- T with values in the registers of thread 0 and of the uniform stream. -/
def Tr (x : Sparse W32) (u : Sparse W64) (t : Machine.Task := T) : Machine.Task :=
  { t with threads := updAt t.threads 0 (fun k => { k with x := x }), u := { t.u with s := u } }

theorem witness_DecodeOfEncode : ∃ i : Instr, i.fields?.isSome = true ∧ i.splitOk = true := ⟨.iadd (F false 511 1 2 0), by decide⟩
theorem witness_EncodeOfDecode : ∃ w : InstrWord, ∀ v, decode w ≠ .unassignedOpcode v :=
  ⟨0x10000000_00000900_00000000, by intro v; rw [show decode 0x10000000_00000900_00000000 = .nop (F false 0 0 0 0) by decide]; nofun⟩
theorem witness_RoundingBrackets : FpType.fp32.decode 0x3F800000 ≠ .nan := by decide

/-- Registers for CVT8 and UNP8: the format word in x4 and the scale byte in x5. -/
def T8 (fw : W32) : Machine.Task := Tr [(2, 0x3F800000), (4, fw), (5, 127)] []
theorem witness_Conversions :
    (∃ f t s r, Turn (.cvtff f) f W0 t s ∧ s.tree? t.entry.tree = some r) ∧
    (∃ f t s r, Turn (.pack2 f) f W0 t s ∧ s.tree? t.entry.tree = some r) ∧
    (∃ f t s r, Turn (.cvt8 f) f W0 t s ∧ s.tree? t.entry.tree = some r
      ∧ (let fw := valC (.cvt8 f) f W0 t % 2 ^ 32; fwValid false fw = true ∧ fwFmt fw = 4)) ∧
    (∃ f t s, Turn (.unp8 f) f W0 t s ∧ (let fw := valC (.unp8 f) f W0 t % 2 ^ 32; fwValid false fw = true ∧ fwFmt fw = 4)) ∧
    (∃ f t s, Turn (.cvt8 f) f W0 t s ∧ fwValid false (valC (.cvt8 f) f W0 t % 2 ^ 32) = false) :=
  ⟨⟨F false 2 2 0 0 0x50, T, S (some 0) T, demoTree 1, turn_of_turns (by decide), by decide⟩,
   ⟨F false 2 2 2 0 0x60, T, S (some 0) T, demoTree 1, turn_of_turns (by decide), by decide⟩,
   ⟨F false 2 2 2 4 0x40, T8 0x94, S (some 0) (T8 0x94), demoTree 1, turn_of_turns (by decide), by decide, by decide⟩,
   ⟨F false 2 2 0 4 0x40, T8 0x94, S (some 0) (T8 0x94), turn_of_turns (by decide), by decide⟩,
   ⟨F false 2 2 2 4 0x40, T8 0x80000000, S (some 0) (T8 0x80000000), turn_of_turns (by decide), by decide⟩⟩

/-- A task with the threads given live, and others free; the thread `sup` is in a predicate block that suppresses its next instruction. -/
def Tg (n : Nat) (sup : Option Nat := none) (t : Machine.Task := T) : Machine.Task :=
  { t with threads := (List.range 32).map (fun k =>
      { status := if k < n then .live else .free,
        ag := { pc := 0x44, block := if sup = some k then { left := 1, pat := 1, val := false } else {} } }) }

/-- The conditions of `LaneUnit`, computed. -/
def unitOf (i : Instr) (f : Fields) (n task : Nat) (t : Machine.Task) (ks : List Nat) (s : State) : Bool :=
  decide (s.task? task = some t) && decide (s.cur = { task := task, uniform := false, threads := ks }) && !ks.isEmpty && decide ks.Nodup
  && ks.all (fun j => ks.all (fun k => decide (j / n = k / n)) && t.canIssue j
      && (match check i f t (some j) with | .ok _ => true | _ => false)
      && (List.range t.threads.length).all (fun k => !t.live k || decide (k / n ≠ j / n) || ks.contains k))
  && t.threads.all (fun x => decide (x.status ≠ .helper))

theorem live_lt {t : Machine.Task} {k : Nat} (h : t.live k = true) : k < t.threads.length := by
  by_contra hn
  simp only [Task.live, Task.thread, List.getD_eq_default _ _ (Nat.le_of_not_lt hn)] at h
  cases h

theorem laneUnit_of_unitOf {i : Instr} {f : Fields} {n task : Nat} {t : Machine.Task} {ks : List Nat} {s : State}
    (h : unitOf i f n task t ks s = true) : LaneUnit i f n task t ks s := by
  simp only [unitOf, Bool.and_eq_true, decide_eq_true_eq, List.all_eq_true, Bool.not_eq_true'] at h
  obtain ⟨⟨⟨⟨⟨h1, h2⟩, h3⟩, h4⟩, h5⟩, h6⟩ := h
  refine ⟨h1, h2, by intro e; simp [e] at h3, h4, fun j hj k hk => (h5 j hj).1.1.1 k hk, fun k hk => (h5 k hk).1.1.2, ?_, ?_, ?_⟩
  · intro j hj k hk hjk
    have := (h5 j hj).2 k (List.mem_range.2 (live_lt hk))
    simpa [hk, hjk] using this
  · intro k hk
    have := (h5 k hk).1.2
    split at this
    · exact ⟨_, by assumption⟩
    · cases this
  · intro k
    unfold Task.thread
    by_cases hk : k < t.threads.length
    · rw [List.getD_eq_getElem _ _ hk]; exact h6 _ (List.getElem_mem hk)
    · rw [List.getD_eq_default _ _ (by omega)]; decide

/-- The state in which the first n threads of the task make up a bundle. -/
def Sg (n : Nat) (t : Machine.Task) : State := { S (some 0) t with cur := { task := 1, uniform := false, threads := List.range n } }
def exchangeOn (i : Instr) (n m : Nat) (sup : Option Nat) : Bool :=
  match i.fields? with | some f => unitOf i f n 1 (Tg m sup) (List.range m) (Sg m (Tg m sup)) | none => false

theorem witness_ExchangeValues_quads :
    [Instr.qswap (F false 2 2 0 0 1), .qbcast (F false 2 2 0 0 3)].all (fun i => exchangeOn i 4 4 none && exchangeOn i 4 3 (some 1)) = true := by decide
theorem witness_ExchangeValues_groups :
    [Instr.gshfl (F false 2 2 2 0), .gvote (F false 2 2 0 0 2), .gmatch (F false 2 2 0 0), .gred (F false 2 2 0 0 10),
     .gscan (F false 2 2 0 0 16)].all (fun i => exchangeOn i 32 2 none && exchangeOn i 32 5 (some 4)) = true := by decide

/-- T whose thread 0 has the given return stack. -/
def Tk (l : List W64) (preds : BitVec 8 := 0) : Machine.Task :=
  { T with threads := [{ ag := { pc := 0x44, stack := l, preds := preds } }] }
theorem witness_ControlTransfers_guard :
    Turn (.bra (F false 0 0 0 0 0x88)) (F false 0 0 0 0 0x88) W0 T (S (some 0) T) ∧ guardHolds (F false 0 0 0 0 0x88) (T.agent (some 0)) = false :=
  ⟨turn_of_turns (by decide), by decide⟩
theorem witness_ControlTransfers_relative :
    (let f := F false 0 0 0 0 0xB8 (-1)
     Turn (.bra f) f W0 T (S (some 0) T) ∧ guardHolds f (T.agent (some 0)) = true ∧ 0 ≤ slotTarget f W0 T) ∧
    (let f := F false 0 0 0 0 0 (-1000)
     Turn (.call f) f W0 T (S (some 0) T) ∧ guardHolds f (T.agent (some 0)) = true ∧ slotTarget f W0 T < 0) ∧
    (∃ s1, (S (some 0) T).checkTarget T 0x44 = (.pass, s1)) ∧ (∃ s1, (S (some 0) T).checkTarget T 0x41 = (.bad, s1)) ∧
    (T.agent (some 0)).stack.length < 8 :=
  ⟨⟨turn_of_turns (by decide), by decide, by decide⟩, ⟨turn_of_turns (by decide), by decide, by decide⟩,
   some_state (by decide +kernel), some_state (by decide +kernel), by decide⟩
theorem witness_ControlTransfers_return :
    (let f := F false 0 0 0 0
     Turn (.ret f) f W0 (Tk [0x50]) (S (some 0) (Tk [0x50])) ∧ guardHolds f ((Tk [0x50]).agent (some 0)) = true
     ∧ canonicalVa 0x50 = true ∧ isSlotAddr 0x50 = true) ∧
    (let f := F false 0 0 0 0
     Turn (.ret f) f W0 (Tk []) (S (some 0) (Tk [])) ∧ guardHolds f ((Tk []).agent (some 0)) = true
     ∧ ((Tk []).agent (some 0)).stack = [] ∧ ((Tk []).agent (some 0)).spilled = 0) :=
  ⟨⟨turn_of_turns (by decide), by decide⟩, ⟨turn_of_turns (by decide), by decide⟩⟩
theorem witness_SoftwareTraps : W0.thread = none → T.handler = none := by decide

/-! ### Witnesses: accesses, pigeonholes, banks, copies -/

theorem reaches_of {i : Instr} {f : Fields} {w : Who} {t : Machine.Task} {s : State} {index checked : Bool} {need : Need} {pa : Nat} {watched : Bool}
    (h1 : -(2 ^ 56 : Int) ≤ eaOf i f w t index ∧ eaOf i f w t index < (2 ^ 56 : Int)) (h2 : vaOf i f w t index % accBytes f = 0)
    (h3 : (s.translate t.entry.ctx t.cluster (vaOf i f w t index) need).1 = .ok pa watched)
    (h4 : (let s1 := (s.translate t.entry.ctx t.cluster (vaOf i f w t index) need).2
      s1.firstMissing pa (accBytes f) = none ∧ s1.poisoned pa (accBytes f) = false))
    (h5 : (s.translate t.entry.ctx t.cluster (vaOf i f w t index) need).2.firstRace (accessOf f w t checked) need.w
      [{ va := vaOf i f w t index, pa := pa, n := accBytes f, watched := watched }] = none) :
    Reaches i f w t s index checked need pa watched (s.translate t.entry.ctx t.cluster (vaOf i f w t index) need).2 :=
  ⟨h1, h2, Prod.ext h3 rfl, h4.1, fun _ => h4.2, h5⟩

theorem l1Sound_of_empty {s : State} {cl : Nat} (h : (s.cluster cl).l1 = []) : L1Sound s cl := by
  unfold L1Sound; rw [h]; exact ⟨List.nodup_nil, nofun⟩

/-- T with a value in s2 and in the pair x2 and x3. -/
def Tv (v : W64) (t : Machine.Task := T) : Machine.Task :=
  Tr (Sparse.put 0 (Sparse.put 0 [] 2 (v.setWidth 32)) 3 ((v >>> 32).setWidth 32)) (Sparse.put 0 [] 2 v) t

theorem witness_Loads :
    let f := F false 4 2 0 0 0x80
    let t := Tv 0xFF
    let s := S (some 0) t
    Turn (.ld { f with imm := 1 }) { f with imm := 1 } W0 t s
    ∧ (∃ s1, Reaches (.ld { f with imm := 1 }) { f with imm := 1 } W0 t s true true { r := true } 0x200100 false s1) ∧ L1Sound s t.cluster :=
  ⟨turn_of_turns (by decide),
   ⟨_, reaches_of (by decide) (by decide) (by decide +kernel) (by decide +kernel) (by decide +kernel)⟩, l1Sound_of_empty (by decide)⟩
theorem witness_Loads_home : ((S none T).cluster 0).line? (0x200100 / 128) = none := by decide

theorem witness_Stores :
    let f := F true 0 2 0 2 0xB0
    let t := Tv 0x100
    let s := S none t
    Turn (.st f) f U t s ∧ L1Sound s t.cluster ∧ ∃ s1, Reaches (.st f) f U t s true true { w := true } 0x200100 false s1
      ∧ s1.filtering (accessOf f U t true) { va := vaOf (.st f) f U t true, pa := 0x200100, n := accBytes f, watched := false } = false
      ∧ s1.usesL1 t.cluster (field f.mod.toNat 2 0) = false :=
  ⟨turn_of_turns (by decide), l1Sound_of_empty (by decide),
   ⟨_, reaches_of (by decide) (by decide) (by decide +kernel) (by decide +kernel) (by decide +kernel), by decide +kernel, by decide +kernel⟩⟩

theorem witness_AtomicsAndFences :
    let f := F true 4 2 0 2 0xBA
    let t := Tv 0x100
    let s := S none t
    (Turn (.atom f) f U t s ∧ ∃ s1, Reaches (.atom f) f U t s false false { r := true, w := true } 0x200100 false s1) ∧
    (Turn (.red { f with d := 0, mod := 0xB0 }) { f with d := 0, mod := 0xB0 } U t s
      ∧ ∃ s1, Reaches (.red { f with d := 0, mod := 0xB0 }) { f with d := 0, mod := 0xB0 } U t s false false { r := true, w := true } 0x200100 false s1) ∧
    (Turn (.atomcas f) f U t s ∧ ∃ s1, Reaches (.atomcas f) f U t s false false { r := true, w := true } 0x200100 false s1
      ∧ ofLE ((s1.writeBackLine t.cluster (0x200100 / 128)).home 0x200100 (accBytes f)) = valB (.atomcas f) f U t % 2 ^ (8 * accBytes f)) ∧
    (Turn (.atomcas { f with b := 2 }) { f with b := 2 } U t s
      ∧ ∃ s1, Reaches (.atomcas { f with b := 2 }) { f with b := 2 } U t s false false { r := true, w := true } 0x200100 false s1
      ∧ ofLE ((s1.writeBackLine t.cluster (0x200100 / 128)).home 0x200100 (accBytes f))
        ≠ valB (.atomcas { f with b := 2 }) { f with b := 2 } U t % 2 ^ (8 * accBytes f)) :=
  ⟨⟨turn_of_turns (by decide), ⟨_, reaches_of (by decide) (by decide) (by decide +kernel) (by decide +kernel) (by decide +kernel)⟩⟩,
   ⟨turn_of_turns (by decide), ⟨_, reaches_of (by decide) (by decide) (by decide +kernel) (by decide +kernel) (by decide +kernel)⟩⟩,
   ⟨turn_of_turns (by decide), ⟨_, reaches_of (by decide) (by decide) (by decide +kernel) (by decide +kernel) (by decide +kernel), by decide +kernel⟩⟩,
   ⟨turn_of_turns (by decide), ⟨_, reaches_of (by decide) (by decide) (by decide +kernel) (by decide +kernel) (by decide +kernel), by decide +kernel⟩⟩⟩

/-- The agent of an instruction, by its U bit. -/
def who (f : Fields) : Who := if f.u then U else W0
/-- An instruction with its turn in a task, and a condition. -/
def onWith (t : Machine.Task) (i : Instr) (p : Fields → Who → Bool) : Bool :=
  match i.fields? with | some f => onTask t i && p f (who f) | none => false

theorem witness_AccessFaults_alignment :
    [(Instr.ld (F true 4 2 0 0 0xA0), true), (.st (F true 0 2 0 4 0xA0), true), (.atom (F true 4 2 0 4 0xA0), false),
     (.atomcas (F true 4 2 4 4 0xA0), false), (.red (F true 0 2 0 4 0xA0), false)].all (fun x => onWith (Tv 0x101) x.1 (fun f w =>
      vaOf x.1 f w (Tv 0x101) x.2 % accBytes f != 0)) = true := by decide
theorem witness_AccessFaults_canonical :
    [(Instr.ld (F false 4 2 0 0 0xA0 (-1)), true), (.st (F true 0 2 0 4 0xA0 (-1)), true), (.atom (F true 4 2 0 4 0xA0 (-1)), false),
     (.atomcas (F true 4 2 4 4 0xA0 (-1)), false), (.red (F true 0 2 0 4 0xA0 (-1)), false)].all (fun x =>
      onWith (Tv 0xFF00000000000000) x.1 (fun f w => decide (eaOf x.1 f w (Tv 0xFF00000000000000) x.2 < -(2 ^ 56 : Int)))) = true := by decide

/-- T with pigeonhole 1 in a state. -/
def Th (st : HoleState) (readers : Nat := 0) (t : Machine.Task := T) : Machine.Task :=
  { t with holes := [{}, { state := st, readers := readers }, { state := .ready }, {}] }
def holeOff (i : Instr) (f : Fields) (w : Who) (t : Machine.Task) : Int := ((valB i f w t % 2 ^ 32 : Nat) : Int) + f.imm.toInt
theorem witness_Pigeonholes_access :
    [Instr.ldh (F true 4 1 2 0 0xA0 120), .sth (F true 0 1 2 4 0xA0 120), .ldh (F false 4 1 0 0 0 127), .sth (F false 0 1 0 4 0 127)].all (fun i =>
      onWith (Th .ready) i (fun f w => decide (0 ≤ holeOff i f w (Th .ready)) && decide (holeOff i f w (Th .ready) + accBytes f ≤ (Th .ready).holeBytes)
        && decide (holeOff i f w (Th .ready) % accBytes f = 0))) = true := by decide
theorem witness_Pigeonholes_range :
    [Instr.ldh (F false 4 1 0 0 0 128), .sth (F false 0 1 0 4 0 (-1)), .ldh (F true 4 1 0 0 0xA0 2)].all (fun i =>
      onWith (Th .ready) i (fun f w => decide (holeOff i f w (Th .ready) < 0) || decide ((Th .ready).holeBytes < holeOff i f w (Th .ready) + accBytes f)
        || decide (holeOff i f w (Th .ready) % accBytes f ≠ 0))) = true := by decide
theorem witness_Pigeonholes_state :
    onTask (Th .empty) (.hwait (F true 0 1 0 0)) = true ∧ onTask (Th .ready) (.hwait (F false 0 1 0 0 0 2)) = true
    ∧ onTask (Th .ready) (.hset (F true 0 1 0 0 0 0)) = true ∧ onTask (Th .empty) (.hset (F true 0 1 0 0 0 2)) = true
    ∧ onTask (Th .draining) (.hwait (F true 0 1 0 0)) = true ∧ (U.thread = none → ((Th .draining).agent U.thread).stall = none)
    ∧ onTask { Th .filling with u := { T.u with ag := { pc := 0x44, stall := some { since := 0, limit := 256 } } } } (.hwait (F true 0 1 0 0)) = true := by
  decide

/-- A state with some of its parts replaced. -/
def withTask (id : Nat) (g : Machine.Task → Machine.Task) (s : State) : State := s.modTask id g
def ctxOf0 (s : State) : Ctx := ((s.ctx? 0).getD demoCtx)

theorem witness_Banks_mode :
    let f := F true 0 2 0 0 0 2
    let t := Tv 0x8000000000000001
    let s := S none t
    Turn (.bankmode f) f U t s ∧ s.ctx? t.entry.ctx = some demoCtx ∧ demoCtx.bankCtl = true ∧ (s.cluster t.cluster).switchers = []
    ∧ (s.cluster t.cluster).banks.length = 64 ∧ (∀ b ∈ (s.cluster t.cluster).banks, b.closing = none)
    ∧ (∀ k, k < 64 → (valA (.bankmode f) f U t).testBit k = true → ((s.cluster t.cluster).banks.getD k {}).mode = .cache
        ∨ ((s.cluster t.cluster).banks.getD k {}).mode = .scratch)
    ∧ (∀ x ∈ s.tasks, x.resident = true → x.cluster = t.cluster → ∀ p ∈ x.pieces, (valA (.bankmode f) f U t).testBit p.1 = false) :=
  ⟨turn_of_turns (by decide), by decide, by decide, by decide, by decide, by decide, by decide, by decide⟩
/-- A state whose bank 63 is a FIFO of context 0 with the given entries. -/
def Sfifo (th : Option Nat) (l : List (BitVec 128)) (t : Machine.Task) : State :=
  (S th t).modCluster 0 (fun c => { c with banks := updAt c.banks 63 (fun _ => { mode := .fifo, owner := some 0, fifo := l }) })
theorem witness_Banks_fifo :
    (let f := F true 0 0 0 2 0xC1 63
     turns (.fifopush f) f U T (Sfifo none [] T) = true ∧ (Sfifo none [] T).cluster 0 = (Sfifo none [] T).cluster 0
     ∧ (((Sfifo none [] T).cluster 0).banks.getD 63 {}) = { mode := .fifo, owner := some 0 }) ∧
    (let f := F false 4 0 0 0 0xC0 63
     turns (.fifopop f) f W0 T (Sfifo (some 0) [5, 6] T) = true
     ∧ (((Sfifo (some 0) [5, 6] T).cluster 0).banks.getD 63 {}) = { mode := .fifo, owner := some 0, fifo := [5, 6] }) := by decide

/-- Copies: pigeonhole 1 empty and pigeonhole 2 ready, each wholly used. -/
theorem witness_CopiesEnterQueues :
    (let t := Tv 128 (Th .empty)
     onTask t (.cpy (F true 1 2 2 0 0xD3)) = true ∧ onTask t (.cpy (F false 2 2 4 0 0x02)) = true ∧ onTask t (.cpys (F true 1 0 2 2 0x82)) = true
     ∧ onTask t (.cpym (F true 0 2 2 4 0x13 (0x00700010))) = true ∧ onTask t (.cpyd (F true 1 2 0 0 0x23 0x00700010)) = true
     ∧ Room (F true 1 2 2 0 0xD3) t ∧ canFill (t.hole 1) ∧ canRead true (t.hole 2)) ∧
    (let t := Tv 8 (Th .empty)
     onTask t (.cpyg (F true 1 2 2 2 0x20 16)) = true ∧ valC (.cpyg (F true 1 2 2 2 0x20 16)) (F true 1 2 2 2 0x20 16) U t % 2 ^ 32 * 16 ≤ t.holeBytes) := by
  refine ⟨⟨by decide, by decide, by decide, by decide, by decide, ⟨by decide, by decide⟩, .inl (by decide), ⟨by decide, by decide⟩⟩, by decide, by decide⟩
theorem witness_CopiesEnterQueues_window :
    let f := F true 0 2 1 2
    let t := Tv 0x100 (Th .empty)
    let s := S none t
    Turn (.cpyt f) f U t s ∧ valA (.cpyt f) f U t % 64 = 0 ∧ canonicalVa (valA (.cpyt f) f U t) = true
    ∧ (∃ s1, s.translate t.entry.ctx t.cluster (valA (.cpyt f) f U t) { r := true } = (.ok 0x200100 false, s1))
    ∧ (let s1 := (s.translate t.entry.ctx t.cluster (valA (.cpyt f) f U t) { r := true }).2
       let p := s1.loadBytes t.cluster 0x200100 (s1.usesL1 t.cluster 0) 64
       s1.poisoned 0x200100 64 = false ∧ p.2.mem = s.mem ∧ descOk p.1 = true ∧ f.imm.toNat % 2 ^ 16 % descE p.1 = 0
       ∧ f.imm.toNat % 2 ^ 16 + descBytes p.1 ≤ t.holeBytes) :=
  ⟨turn_of_turns (by decide), by decide, by decide, some_state (by decide +kernel), by decide +kernel⟩

/-- T whose uniform stream has n finished-in-part sealed batches and a record. -/
def Tb (n : Nat) (e : Option ErrRec) : Machine.Task :=
  { T with u := { T.u with ag := { pc := 0x44, closed := (List.range n).map (fun k => { ord := k, joined := 1, undone := 1 }), finErr := e } } }
theorem witness_CopyBatches :
    onTask (Tb 14 none) (.seal (F true 4 0 0 0)) = true ∧ onTask (Tb 14 none) (.cwait (F true 4 0 0 0 0 15)) = true
    ∧ onTask (Tb 0 (some { cause := 16 })) (.cwait (F true 0 0 0 0 0 0)) = true ∧ onTask T (.qfence (F true 0 0 0 0 0 255)) = true
    ∧ (0 < ({ opened := { joined := 1, undone := 1 } } : Agent).opened.undone) := by decide

/-- T with a pending bin update of its thread. -/
def Tbin : Machine.Task := { T with bins := [{ addr := 0x100, value := 5, type := 0, ped := {}, thread := 0, ord := 0, seq := 0 }] }
theorem witness_GatherAndScatter :
    (∃ s1, (S (some 0) T).translate 0 0 0x100 { r := true } = (.ok 0x200100 false, s1))
    ∧ (∃ s1, (S (some 0) T).translate 0 0 0x100 { r := true, w := true } = (.ok 0x200100 false, s1))
    ∧ [Instr.gath (F false 4 2 0 0 0x0C 0x100), .scat (F false 0 2 0 4 0x0C 0x100), .scadd (F false 0 2 0 4 1 0x100)].all (onTask T) = true
    ∧ (∀ p ∈ (S (some 0) T).cores, p.2.collector = []) :=
  ⟨some_state (by decide +kernel), some_state (by decide +kernel), by decide, by decide⟩
theorem witness_GatherAndScatter_bins :
    pickFree .binArea (S (some 0) T).tick (List.range (demoTree 1).binSize) = some 0
    ∧ (∃ segs, ((S (some 0) T).translate 0 0 0x100 { r := true, w := true }).2.mapCp (demoTree 1).ctx { w := true }
        [((demoTree 1).binArea + 65536 * 0, 1)] = .ok segs) := ⟨by decide, ready_ok (by decide +kernel)⟩
theorem witness_GatherAndScatter_flush :
    Turn (.binflush (F false 0 0 0 0)) (F false 0 0 0 0) W0 Tbin (S (some 0) Tbin)
    ∧ (∃ s1, (S (some 0) Tbin).applyBins 0 (some 0) (sortBy BinUpdate.le (Tbin.bins.filter (fun u => u.thread == 0))) = (.ok false, s1))
    ∧ Turn (.binflush (F true 0 0 0 0)) (F true 0 0 0 0) U Tbin (S none Tbin)
    ∧ (∃ s1, (S none Tbin).applyBins 0 (some 0) (sortBy BinUpdate.le (Tbin.bins.filter Tbin.dueBins)) = (.ok false, s1)) :=
  ⟨turn_of_turns (by decide), some_state (by decide +kernel), turn_of_turns (by decide), some_state (by decide +kernel)⟩

/-- T with a copy command at the head of q1. -/
def Tq (i : Instr) (c : Cmd) (st : HoleState) : Machine.Task :=
  { Th st with copyq := [[], [{ c with word := (encode i).getD 0 }], [], []] }
theorem witness_CopyEngines_commands :
    (let t := Tq (.cpys (F true 1 0 2 2 0x81 124)) { b := 4 } .filling
     (S none t).task? 1 = some t ∧ t.resident = true ∧ (∃ c, t.copyq.getD 1 [] = c :: [] ∧ c.parked = none ∧ c.issuer = none
       ∧ decode c.word = .cpys (F true 1 0 2 2 0x81 124) ∧ ∀ b ∈ t.u.ag.closed, b.ord ≠ c.batch)) ∧
    (let t := Tq (.cpym (F true 0 2 2 4 0x11 0x00700010)) { a := 7, c := 2 } .empty
     (S none t).task? 1 = some t ∧ (∃ c, t.copyq.getD 1 [] = c :: [] ∧ c.parked = none ∧ c.c ≠ 0 ∧ c.stall = none
       ∧ decode c.word = .cpym (F true 0 2 2 4 0x11 0x00700010) ∧ (S none t).posteFor 0 (BitVec.ofNat 64 c.a) = none
       ∧ (S none t).nextCpym 0 (t, 1, c) = true)
     ∧ dieOfCore t.coreD < (S none t).dies.length ∧ ((S none t).die (dieOfCore t.coreD)).poste.length < 32) ∧
    (let t := Tq (.cpyd (F true 1 2 0 0 0x21 0x00700010)) { a := 7 } .filling
     let p : Poste := { ctx := 0, key := 7, data := List.replicate 16 1, receivers := 1 }
     let s := (S none t).modDie 2 (fun d => { d with poste := [p] })
     s.task? 1 = some t ∧ (∃ c, t.copyq.getD 1 [] = c :: [] ∧ c.parked = none ∧ c.stall = none
       ∧ decode c.word = .cpyd (F true 1 2 0 0 0x21 0x00700010) ∧ s.posteFor 0 (BitVec.ofNat 64 c.a) = some (2, p))
     ∧ p.data.length = (0x00700010 : W32).toNat % 2 ^ 13) := by
  refine ⟨⟨by decide, by decide, _, rfl, by decide, by decide, by decide, by decide⟩,
    ⟨by decide, ⟨_, rfl, by decide, by decide, by decide, by decide, by decide, by decide⟩, by decide, by decide⟩,
    by decide, ⟨_, rfl, by decide, by decide, by decide, by decide⟩, by decide⟩

/-- T whose thread waits in GATH, its request 64 cycles old. -/
def Sgath : State :=
  ((S (some 0) T).modDie 0 (fun d => { d with ticks := 64 })).modCore 0 (fun c => { c with
    collector := [{ task := 1, thread := 0, write := false, ea := 0x100, pa := some 0x200100, bytes := 4, dest := 4 }] })
theorem witness_CopyEngines_window :
    (∃ g, (Sgath.core 0).collector = [g] ∧ 64 ≤ (Sgath.cycle (clusterOf 0) + 2 ^ 64 - g.entered) % 2 ^ 64 ∧ Sgath.task? g.task = some T
      ∧ T.helpersOf [g.thread] = [] ∧ g.pa = some 0x200100 ∧ g.write = false
      ∧ ∃ bs s1, (Sgath.modCore 0 (fun c => { c with collector := [] })).readSegs
          { Acc.ofTask T none with strand := g.strand, checked := true, engine := true }
          [{ va := g.ea, pa := 0x200100, n := g.bytes, watched := g.watched }] = (.ok bs, s1)) :=
  ⟨_, rfl, by decide, by decide, by decide, by decide, by decide, ⟨[0, 0, 0, 0], some_state (by decide +kernel)⟩⟩
/-- T whose uniform stream stalls with a limit of 256 cycles from cycle 0. -/
def Tst : Machine.Task := { T with u := { T.u with ag := { pc := 0x44, stall := some { since := 0, limit := 256 }, waiting := true } } }
def Sst : State := (S none Tst).modDie 0 (fun d => { d with ticks := 256 })
theorem witness_CopyEngines_stall :
    Sst.task? 1 = some Tst ∧ Tst.resident = true ∧ (Tst.agent none).stall = some { since := 0, limit := 256 } ∧ (Tst.agent none).waiting = true
    ∧ Tst.held none = false ∧ Tst.handler = none ∧ 256 ≤ (Sst.cycle Tst.cluster + 2 ^ 64 - 0) % 2 ^ 64 := by decide

/-! ### Witnesses: matrices, tasks, determinism -/

/-- Tiles m1, m2 of 2 × 4 and 2 × 4 FP32 elements, a1 and a2 of 2 × 2 FP32 accumulators, all VALID; s2 holds 0x100. -/
def Tm (st : HoleState := .ready) : Machine.Task :=
  let m : TileCfg := { rows := 2, cols := 4, width := 4 }
  let a : TileCfg := { rows := 2, cols := 2, width := 4 }
  Tv 0x100 { Th st with
    mtile := [(1, { next := m, valid := true }), (2, { next := m, valid := true }), (3, { next := { a with width := 4 } })]
    atile := [(1, { next := a, valid := true }), (2, { next := a, valid := true })] }
theorem witness_MatrixQueueAndStatus_shapes :
    onTask T (.tcfg (F true 15 0 0 0 0 0x7FF)) = true ∧ ({ rows := 32, cols := 64, width := 1 } : TileCfg).ok false = true
    ∧ onTask T (.tcfg (F true 7 0 0 0 0xA0 (0x1BFF))) = true ∧ ({ rows := 32, cols := 32, width := 8, ovt := true } : TileCfg).ok true = true
    ∧ onTask (Tm) (.mma (F true 1 1 2 1)) = true ∧ onTask (Tm) (.mmas (F true 1 1 2 1 0 0x800000)) = true
    ∧ fwValid true (wordOf (F true 1 1 2 1) Tm) = true ∧ fwRnd (wordOf (F true 1 1 2 1) Tm) = 0 ∧ fwSat (wordOf (F true 1 1 2 1) Tm) = false
    ∧ mmaShapeOk (F true 1 1 2 1) (fwFmt (wordOf (F true 1 1 2 1) Tm)) (cfgOf Tm true 1) (cfgOf Tm false 1) (cfgOf Tm false 2) (cfgOf Tm true 1) = true
    ∧ onTask Tm (.tcvt (F true 3 1 0 0)) = true ∧ (cfgOf Tm false 3).width = mmaWidth (fwFmt (wordOf (F true 3 1 0 0) Tm))
    ∧ (cfgOf Tm false 3).rows = (cfgOf Tm true 1).rows ∧ (cfgOf Tm false 3).cols = (cfgOf Tm true 1).cols := by decide
theorem witness_MatrixQueueAndStatus_moves :
    (let f := F true 1 1 0 0 0x40
     onTask Tm (.tld f) = true ∧ TileReady f Tm (cfgOf Tm false 1) 1 0 false) ∧
    (let f := F true 1 2 0 0 0x20
     onTask Tm (.tld f) = true ∧ TileReady f Tm (cfgOf Tm false 1) 2 0x100 false) ∧
    (let f := F true 2 1 0 0 0x10 0x200000
     onTask Tm (.tst f) = true ∧ TileReady f Tm (cfgOf Tm false 1) 2 0x100 true) ∧
    (let f := F true 1 1 0 0 0x40 64
     onTask (Tm .empty) (.tst f) = true ∧ TileReady f (Tm .empty) (cfgOf (Tm .empty) false 1) 1 0 true) ∧
    (let f := F true 1 1 0 0 0x40 120
     onTask (Tm .empty) (.accrd f) = true ∧ AccReady f (Tm .empty) (cfgOf (Tm .empty) true 1) 1 0 true) ∧
    (let f := F true 1 2 0 0 0
     onTask Tm (.accwr f) = true ∧ AccReady f Tm (cfgOf Tm true 1) 2 0x100 false) := by
  refine ⟨⟨by decide, ?_⟩, ⟨by decide, ?_⟩, ⟨by decide, ?_⟩, ⟨by decide, ?_⟩, ⟨by decide, ?_⟩, ⟨by decide, ?_⟩⟩ <;>
    ((first | unfold TileReady | unfold AccReady); unfold CanonicalRanges canFill canRead; dsimp only; decide)
theorem witness_MatrixQueueAndStatus_status :
    onTask T (.tstat (F true 4 1 0 0 0x80)) = true ∧ T.q4 = [] ∧ T.fault = none
    ∧ onTask { T with fault := some { cause := 17, ord := 3 } } (.tstat (F true 4 1 0 0 0x80)) = true := by decide

/-- Tm with one matrix command in its queue. -/
def Tmq (i : Instr) (c : Cmd) : Machine.Task := { Tm with q4 := [{ c with word := (encode i).getD 0 }] }
def headOf (i : Instr) (c : Cmd) : Bool :=
  let t := Tmq i c
  let s := S none t
  decide (s.task? 1 = some t) && t.resident && t.q4park.isNone && !t.saving && !s.gated t.cluster && s.mayRun t
    && decide (decode ((encode i).getD 0) = i) && c.begun.isNone
theorem matrixHead_of {i : Instr} {c : Cmd} (h : headOf i c = true) :
    MatrixHead 1 (Tmq i c) { c with word := (encode i).getD 0 } [] (S none (Tmq i c)) ∧ decode ((encode i).getD 0) = i := by
  simp only [headOf, Bool.and_eq_true, decide_eq_true_eq, Bool.not_eq_true', Option.isNone_iff_eq_none] at h
  obtain ⟨⟨⟨⟨⟨⟨⟨h1, h2⟩, h3⟩, h4⟩, h5⟩, h6⟩, h7⟩, h8⟩ := h
  exact ⟨⟨h1, h2, rfl, h8, h3, h4, h5, h6⟩, h7⟩
theorem witness_MatrixEngine :
    headOf (.tzero (F true 1 0 0 0 0x80)) { cfgD := { rows := 2, cols := 2, width := 8 } } = true
    ∧ headOf (.tcfg (F true 1 0 0 0)) {} = true ∧ headOf (.trel (F true 7 0 0 0 0x80)) {} = true
    ∧ headOf (.mma (F true 1 1 2 1)) { fw := 1, cfgD := (cfgOf Tm true 1), cfgA := cfgOf Tm false 1, cfgB := cfgOf Tm false 2, cfgC := cfgOf Tm true 1 } = true
    ∧ (let t := Tmq (.tzero (F true 1 0 0 0)) { headSince := some 0 }
       let s := (S none t).modDie 0 (fun d => { d with ticks := 8192 })
       s.task? 1 = some t ∧ s.agedHead t = true ∧ s.reserved t = false ∧ (s.cluster t.cluster).table.length < 32) := by decide

/-! ### Witnesses: tasks, determinism -/

theorem record_ok {s : State} {c k n : Nat} {l : List Reducer}
    (h : (match s.readRecord c k n with | .ok d => !d.sweep && d.reducers.all (fun x => l.contains x) | _ => false) = true) :
    ∃ d, s.readRecord c k n = .ok d ∧ d.sweep = false ∧ ∀ x ∈ d.reducers, x ∈ l := by
  split at h
  · simp only [Bool.and_eq_true, Bool.not_eq_true', List.all_eq_true, List.contains_iff_mem] at h
    exact ⟨_, by assumption, h.1, h.2⟩
  · cases h
theorem witness_Spawning :
    let f := F true 4 0 2 0 0 0x0F
    let t := Tv 5
    let s := S none t
    (∃ d, s.readRecord t.entry.ctx (demoTree 1).code 0 = .ok d ∧ d.sweep = false ∧ ∀ x ∈ d.reducers, x ∈ (demoTree 1).reducers)
    ∧ Turn (.spawn f) f U t s ∧ Turn (.spawnl { f with c := 15 }) { f with c := 15 } U t s ∧ s.tree? t.entry.tree = some (demoTree 1)
    ∧ (demoTree 1).trace = none ∧ valA (.spawn f) f U t < (demoTree 1).ntask ∧ t.entry.ped.elems.length < 31
    ∧ (bitsOf 32 (t.voteMask 15 0)).length = 0 ∧ t.u.pedpos.toNat % 1024 + (if t.u.lastUsed then 1 else 0) + 1 ≤ 1024
    ∧ (s.core t.coreD).deque.length - (s.core t.coreD).spilled < 64 :=
  ⟨record_ok (by decide +kernel), turn_of_turns (by decide), turn_of_turns (by decide), by decide⟩
/-- Tasks at the two limits of 02 R58. -/
theorem witness_Spawning_limits :
    (let t : Machine.Task := { T with u := { T.u with ag := { pc := 0x44 }, pedpos := 1023, lastUsed := true } }
     onTask t (.spawn (F true 4 0 2 0)) = true ∧ 1024 < t.u.pedpos.toNat % 1024 + (if t.u.lastUsed then 1 else 0) + 1)
    ∧ (let t : Machine.Task := { T with entry := { T.entry with ped := { elems := List.replicate 31 0 } } }
       onTask t (.spawn (F true 4 0 2 0)) = true ∧ 31 ≤ t.entry.ped.elems.length) := by decide

/-- T with a child that has exited. -/
def Tc (j : Join) (pos : BitVec 16) : Machine.Task :=
  { T with children := [{ task := 9, elem := 0, exited := true }], join := j, joined := if j = .sync then 0 else 1,
           u := { T.u with ag := { pc := 0x44 }, pedpos := pos } }
theorem witness_Joining :
    onTask (Tc .none 0xF800) (.sync (F true 0 0 0 0)) = true ∧ onTask (Tc .none 0xFC00) (.sync (F true 0 0 0 0)) = true
    ∧ (Tc .none 0xF800).u.pedpos.toNat / 1024 = 62 ∧ (Tc .none 0xFC00).u.pedpos.toNat / 1024 = 63
    ∧ (∀ c ∈ (Tc .none 0xF800).children, c.exited = true ∧ c.bins = []) ∧ (Tc .none 0xF800).joined = (Tc .none 0xF800).children.length
    ∧ (S none (Tc .sync 0)).task? 1 = some (Tc .sync 0) ∧ (Tc .sync 0).resident = true
    ∧ ((Tc .sync 0).mergeOrder (demoTree 1).level)[(Tc .sync 0).joined]? = some { task := 9, elem := 0, exited := true } := by decide
theorem witness_Joining_merge :
    ∃ vs s1, (S none (Tc .sync 0)).mergeViews 0 (demoTree 1).level (Tc .sync 0).views [] = .ok (vs, s1) :=
  ⟨(Tc .sync 0).views, S none (Tc .sync 0), rfl⟩

/-- T before its full allotment, with a record of so many pigeonholes. -/
def Ta (holes holeBytes : Nat) : Machine.Task :=
  { T with allot := {}, entry := { T.entry with rcd := { T.entry.rcd with regs := 32, holes := holes, holeBytes := holeBytes } } }
def Sacq (t : Machine.Task) : State := (S none t).modCluster 0 (fun c => { c with acq := [{ task := 1, since := 0 }] })
theorem witness_Allotments :
    onTask T (.acquire (F true 0 0 0 0)) = true ∧ T.allot.full = true
    ∧ onTask (Ta 64 65536) (.acquire (F true 0 0 0 0)) = true ∧ (Ta 64 65536).allot.full = false ∧ (S none (Ta 64 65536)).acquireNever (Ta 64 65536) = true
    ∧ onTask (Ta 4 128) (.acquire (F true 0 0 0 0)) = true ∧ (S none (Ta 4 128)).acquireNever (Ta 4 128) = false
    ∧ (Sacq (Ta 4 128)).oldestAcquire 0 = some (Ta 4 128) ∧ (Sacq (Ta 4 128)).acquireFits (Ta 4 128) = true
    ∧ onTask T (.release (F true 0 0 0 0 0 0x00020218)) = true
    ∧ (∀ h ∈ T.holes.drop 2, (h.state = .empty ∨ h.state = .ready) ∧ h.readers = 0) := by decide

theorem witness_BarriersAndDecisions :
    onTask T (.bara (F false 0 15 0 0 7)) = true ∧ (T.bar 15).arrived (some 0) = false
    ∧ onTask T (.barw (F true 4 15 0 0)) = true ∧ (T.agent none).waiting = false
    ∧ ((T.arrive (some 0) 15 true).bar 15).arrived (some 0) = true
    ∧ (let t := T.arrive none 3 false
       onTask t (.barw (F false 0 3 0 0 1)) = true ∧ ((t.arrive (some 0) 3 true).bar 3).arrived (some 0) = false ∧ (t.bar 3).arrived none = true
       ∧ onTask t (.barw (F true 4 3 0 0)) = true)
    ∧ (let t : Machine.Task := { T with threads := [{ ag := { pc := 0x44, waiting := true } }] }
       onTask t (.barw (F false 0 3 0 0)) = true ∧ (t.bar 3).arrived (some 0) = false) := by decide
theorem witness_DecisionQueue :
    (let t : Machine.Task := { T with dq := List.replicate 15 { value := 1, readers := 2 } }
     onTask t (.dqput (F true 0 2 0 0)) = true ∧ t.dq.length < 16)
    ∧ (let t : Machine.Task := { T with dq := [{ value := 1, readers := 2 }, { value := 7, readers := 1 }] }
       onTask t (.dqget (F false 510 0 0 0)) = true ∧ bitAt 2 0 = false ∧ bitAt 1 0 = true)
    ∧ onTask T (.pedrd (F true 4 0 0 0 0 32)) = true := by decide

/-- T with no live thread, a child of task 7. -/
def Tx : Machine.Task := { T with threads := [{ status := .free }], entry := { T.entry with parent := some 7, tile := none } }
def Tp : Machine.Task := { T with entry := { T.entry with id := 7 }, children := [{ task := 1, elem := 0 }] }
def Sx : State := { S none Tx with tasks := [Tx, Tp] }
theorem witness_Exits :
    turns (.texit (F true 0 0 0 0)) (F true 0 0 0 0) U Tx Sx = true ∧ Tx.liveThreads = [] ∧ Sx.task? 7 = some Tp ∧ Tx.fault = none
    ∧ Sx.tree? Tx.entry.tree = some (demoTree 1) ∧ (∀ g ∈ (Sx.core Tx.coreD).collector, g.task ≠ 1)
    ∧ onTask T (.exit (F false 0 0 0 0)) = true ∧ (T.thread 0).ag.opened.joined = 0 ∧ (T.thread 0).ag.closed = [] := by decide

/-- A queue descriptor at 0x1000: a ring at 0x4000 of 16 packets, with WRITE and READ and statuses at 0x6000. -/
def qdesc (flags write read : Nat) : List Byte := leBytes 8 0x4000 ++ leBytes 8 (4 + 256 * flags) ++ leBytes 8 write ++ leBytes 8 read ++ leBytes 8 0x6000
def Sq (th : Option Nat) (t : Machine.Task) (flags write read : Nat) : State := (S th t).setHome 0x201000 (qdesc flags write read)
theorem witness_Enqueuing :
    (let f := F true 4 0 2 0
     let t := Tv 0x100
     turns (.enq f) f U t (Sq none t 3 16 0) = true ∧ (Sq none t 3 16 0).ctx? 0 = some demoCtx ∧ valA (.enq f) f U t < demoCtx.nQueues
     ∧ valB (.enq f) f U t % 64 = 0 ∧ canonicalVa (valB (.enq f) f U t + 127) = true) ∧
    (let f := F true 4 2 2 0
     onTask (Tv 0x100) (.enq f) = true ∧ demoCtx.nQueues ≤ valA (.enq f) f U (Tv 0x100)) := by decide
theorem load_ok {a : Acc} {va n : Nat} {s : State} (h : (match loadVa a va n s with | .ok _ _ => true | _ => false) = true) :
    ∃ b s1, loadVa a va n s = .ok b s1 := by
  split at h
  · exact ⟨_, _, by assumption⟩
  · cases h
theorem witness_Enqueuing_memory :
    let t := Tv 0x100
    let s := Sq none t 3 15 0
    (∃ b s1, loadVa { Acc.ofTask t none with scope := 3 } 0x1000 64 s = .ok b s1) ∧ (∃ b s1, loadVa (Acc.ofTask t none) 0x100 128 s = .ok b s1)
    ∧ (queueDesc (s.home 0x201000 64)).enabled = true ∧ (queueDesc (s.home 0x201000 64)).devenq = true
    ∧ (queueDesc (s.home 0x201000 64)).write - (queueDesc (s.home 0x201000 64)).read < 2 ^ (queueDesc (s.home 0x201000 64)).logsize
    ∧ (match storeVa { Acc.ofTask t none with scope := 3 } ((queueDesc (s.home 0x201000 64)).packetAt 15) (List.replicate 128 0) s with
        | .ok _ _ => true | _ => false) = true
    ∧ (match s.cpWrite 0 0x1010 (leBytes 8 16) true with | .ok _ => true | _ => false) = true :=
  ⟨load_ok (by decide +kernel), load_ok (by decide +kernel), by decide +kernel⟩

theorem witness_Reducers :
    [Instr.vupd (F false 0 2 0 0), .vread (F true 4 0 0 0), .vread (F false 4 0 0 0 3 1), .logapp (F true 0 2 0 0 0 1)].all (onTask T) = true
    ∧ T.views.find? (fun x => x.index == 0) = some { index := 0, kind := 0, type := 0 }
    ∧ T.views.find? (fun x => x.index == 1) = some { index := 1, kind := 10, type := 3 }
    ∧ atypeOk { index := 0, kind := 0, type := 0 } 0 = true ∧ (S none T).tree? T.entry.tree = some (demoTree 1) := by decide
/-- T whose log stands in chunk 0 of the staging area. -/
def Tlog : Machine.Task := { T with views := [{ index := 0, kind := 0, type := 0 }, { index := 1, kind := 10, type := 3, chunks := [0] }] }
theorem witness_Reducers_log :
    onTask Tlog (.logapp (F true 0 2 0 0 0 1)) = true
    ∧ Tlog.views.find? (fun x => x.index == 1) = some { index := 1, kind := 10, type := 3, chunks := [0] }
    ∧ (match (S none Tlog).placeUpdate Tlog (demoTree 1).level { index := 1, kind := 10, type := 3, chunks := [0], updates :=
      [{ seq := 0, source := .uniform, strand := [], rank := 0, count := 0, atype := 3, value := 0 }] } with | .ok _ _ => true | _ => false) = true := by
  decide +kernel

theorem witness_RandomAndRegions :
    (let t : Machine.Task := Tr [(4, 16)] [(2, 24)] { T with u := { T.u with ag := { pc := 0x44 }, lo := 5, hi := 48 } }
     onTask t (.alloc (F true 4 2 0 0 0 4)) = true ∧ valA (.alloc (F true 4 2 0 0 0 4)) (F true 4 2 0 0 0 4) U t = 24
     ∧ (5 + 16 - 1) / 16 * 16 + (24 + 15) / 16 * 16 ≤ t.u.hi
     ∧ onTask t (.alloc (F false 4 4 0 0 0 12)) = true ∧ (t.thread 0).sliceEnd = 0)
    ∧ onTask T (.peddg (F true 4 0 0 0 1)) = true ∧ onTask T (.peddg (F false 4 0 0 0 1)) = true := by decide

/-- T with an expansion of its thread, over n iterations. -/
def Te (e : Expansion) : Machine.Task := { T with expans := [e] }
def e1 (n : Nat) : Expansion := { base := 0, logn := 0, op := 0, d64 := false, total := n, dealer := 1 }
/-- S with a word of code at 0x44. -/
def Sw (i : Instr) (t : Machine.Task) : State := (S (some 0) t).setHome 0x200040 (mkLine [(encode i).getD 0] 1)
def turnsAt (i : Instr) (t : Machine.Task) : Bool :=
  match i.fields? with | some f => turns i f W0 t (Sw i t) && decide ((Sw i t).instrAt t 0 = i) | none => false
theorem witness_Expansions :
    turnsAt (.xset (F false 0 0 2 0 0x00)) T = true ∧ T.expans = [] ∧ 0 + 1 ≤ T.entry.groups
    ∧ turnsAt (.xdeal (F false 4 0 0 1)) (Te (e1 2)) = true ∧ turnsAt (.xdeal (F false 4 0 0 1)) (Te (e1 0)) = true
    ∧ (e1 2).covers 0 = true ∧ (e1 2).logn ≤ 2 ∧ bitAt (e1 2).dealer ((e1 2).lane 0) = true ∧ bitAt (e1 2).done ((e1 2).lane 0) = false
    ∧ turnsAt (.xred (F false 0 4 0 0 0)) (Te { e1 2 with cur := 1 }) = true
    ∧ (Te { e1 2 with cur := 1 }).expansion 0 = some { e1 2 with cur := 1 }
    ∧ turnsAt (.xend (F false 4 0 0 0)) (Te { e1 2 with cur := 1, hasVal := 1, val := [(0, 5)] }) = true := by decide +kernel
theorem witness_Expansions_only : ∀ j, T.live j = true → 0 ≤ j / 32 → j / 32 < 0 + 1 → j = 0 := by
  intro j h _ _
  have := live_lt h
  have : T.threads.length = 1 := rfl
  omega

/-! ### Witnesses: coverage, system, fetch, traps -/

/-- A coverage descriptor of FP32 elements at 0x2000, and a sweep's tree of tiles of 16 × 16 points with it. -/
def cov0 : Coverage :=
  { base := 0x2000, record := 0x3000, rowPitch := 64, planePitch := 4096, target := 0, cinit := 255, cmin := 1, cmax := 255, stepMax := 1,
    gain := 0, es := 0, lattice := 0, errMode := false, etype := 0 }
def Rc (tx ty : Nat) : Tree :=
  { demoTree 1 with rcd := { (demoTree 1).rcd with tx := tx, ty := ty, tz := 1 }, sweep := true, ex := 32, ey := ty, ez := 1, tiles := 32 / tx,
                    cov := some cov0, bands := [{ code := some 64, complete := true }] }
/-- A task of tile 0 under code 64, at the point whose coordinates are in registers 4, 5 and 6. -/
def Tcv (x y : Nat) : Machine.Task :=
  Tr [(4, BitVec.ofNat 32 x), (5, BitVec.ofNat 32 y)] [(4, BitVec.ofNat 64 x), (5, BitVec.ofNat 64 y)] { T with entry := { T.entry with cov := 64 } }
def Scv (th : Option Nat) (t : Machine.Task) (tx : Nat := 16) (ty : Nat := 16) : State := { S th t with trees := [Rc tx ty] }
def onCov (i : Instr) (t : Machine.Task) : Bool :=
  match i.fields? with | some f => turns i f (who f) t (Scv (who f).thread t) | none => false
theorem witness_Coverage_points :
    [Instr.cvqry (F true 8 4 5 6), .cvprobe (F false 8 4 5 6), .cvqryBand (F true 8 7 0 0 1), .cverr (F false 0 4 0 0), .recon (F true 0 0 0 0)].all
      (fun i => onCov i (Tcv 12 3)) = true
    ∧ (Rc 16 16).classOf 0 64 ⟨12, 3, 0⟩ = .probe ∧ (Rc 16 16).classOf 0 64 ⟨1, 0, 0⟩ = .filled ∧ (Rc 16 16).classOf 0 64 ⟨0, 0, 0⟩ = .covered
    ∧ (Rc 16 16).classOf 0 1 ⟨9, 0, 0⟩ = .orphan ∧ (Rc 16 16).classOf 0 64 ⟨16, 0, 0⟩ = .outside
    ∧ (Scv none (Tcv 12 3)).tree? 1 = some (Rc 16 16) ∧ (Tcv 12 3).entry.tile = some 0 := by decide +kernel
theorem witness_Coverage_values :
    (match recPoint { Acc.ofTask (Tcv 12 3) (some 0) with checked := true } (Rc 16 16) cov0 0 64 ⟨12, 3, 0⟩ (Scv (some 0) (Tcv 12 3)) with
      | .ok _ _ => true | _ => false) = true
    ∧ (match reconPoints { Acc.ofTask (Tcv 0 0) none with checked := true } (Rc 4 1) cov0 0 64 true ((Rc 4 1).points 0) (Scv none (Tcv 0 0) 4 1) with
        | .ok _ _ => true | _ => false) = true
    ∧ (match reconPoints { Acc.ofTask (Tcv 0 0) none with checked := true } (Rc 16 16) cov0 0 64 true [⟨12, 3, 0⟩] (Scv none (Tcv 0 0)) with
        | .ok es _ => !es.isEmpty | _ => false) = true
    ∧ (match reconPoints { Acc.ofTask (Tcv 0 0) none with checked := true } (Rc 16 16) cov0 0 64 false [⟨12, 3, 0⟩] (Scv none (Tcv 0 0)) with
        | .ok _ _ => true | _ => false) = true := by decide +kernel

theorem witness_ControlRegisters :
    [Instr.csrrd (F true 4 0 0 0 0 0x13), .csrrd (F false 4 0 0 0 0 0x12), .csrwr (F true 0 2 0 0 0 0x0E), .csrwr (F true 0 2 0 0 0 0x13)].all (onTask T) = true
    ∧ onTask (Tv 1) (.csrwr (F true 0 2 0 0 0 0x11)) = true ∧ fwValid true (valA (.csrwr (F true 0 2 0 0 0 0x11)) (F true 0 2 0 0 0 0x11) U (Tv 1) % 2 ^ 32) = true
    ∧ onTask (Tv 5) (.csrwr (F true 0 2 0 0 0 0x11)) = true
    ∧ fwValid true (valA (.csrwr (F true 0 2 0 0 0 0x11)) (F true 0 2 0 0 0 0x11) U (Tv 5) % 2 ^ 32) = false := by decide

/-- T whose handler is active for a trap. -/
def Thd (p : Trap) : Machine.Task :=
  { T with handler := some { trap := p, upc := 0x50, s1 := 9, block := {} }, threads := [{ ag := { pc := 0x44, pending := some p } }] }
theorem witness_TrapReturn :
    onTask (Thd { cause := 8, tid := 0, pc := 0x44 }) (.trapret (F true 0 0 0 0 0 0)) = true
    ∧ onTask (Thd { cause := 29, tid := 0, pc := 0x44 }) (.trapret (F true 0 0 0 0 0 1)) = true
    ∧ onTask (Thd { cause := 8, uniform := true, pc := 0x44 }) (.trapret (F true 0 0 0 0 0 1)) = true
    ∧ onTask (Thd { cause := 8, uniform := true, pc := 0x44 }) (.trapret (F true 0 0 0 0 0 2)) = true
    ∧ onTask (Thd { cause := 8, pc := 0x44 }) (.trapret (F true 0 0 0 0 0 3)) = true ∧ (0 : Nat) < (Thd { cause := 8 }).threads.length := by decide
theorem witness_Invalidations :
    onTask T (.tlbinv (F true 0 0 0 0 1)) = true ∧ (S none T).ctx? T.entry.ctx = some demoCtx ∧ T.u.ag.fence = none := by decide

/-- T's uniform stream, or thread 0 in a bundle, chosen for the next step. -/
def Sstep (c : Choice) : State := { (S none T).modCore 0 (fun k => { k with bundles := [{ task := 1, threads := [0] }] }) with agenda := [c] }
theorem witness_StepRunsInstruction_uniform :
    let s := Sstep (.rotate 0 [])
    s.power = .running ∧ s.agenda = [.rotate 0 []] ∧ (withAgenda [] s).chosenStream 0 [] = (some T, []) ∧ s.task? 1 = some T ∧ s.gated T.cluster = false
    ∧ T.u.ag.entry = false ∧ (lateMeaning (decode 0x10000000_00000900_00000000)).isNone = true
    ∧ ∃ s1, (withAgenda [] s).fetchFor { task := 1 } = (.word 0x10000000_00000900_00000000 false, s1) :=
  ⟨by decide, by decide, by decide +kernel, by decide, by decide, by decide, by decide, some_state (by decide +kernel)⟩
/-- A core with two streams that are ready: the one after the slot that issued last is chosen. -/
theorem witness_StepRunsInstruction_turn :
    (let t : Machine.Task := { T with place := .core 0 9, entry := { T.entry with id := 2 } }
     let s : State := ({ S none T with tasks := [t, T] } : State).modCore 0 (fun c => { c with lastSlot := 9 })
     (s.chosenStream 0 []).1 = some T ∧ (s.chosenStream 0 [1]).1 = some t) := by decide +kernel
theorem witness_StepRunsInstruction_settle :
    (∀ t, (S none T).task? (S none T).cur.task = some t → ∀ th, (t.agent th).late = []) ∧ ∀ f, Instr.nop (F false 0 0 0 0) ≠ .tlbinv f := by
  refine ⟨?_, nofun⟩
  intro t h th
  obtain rfl : t = T := by have : (S none T).task? (S none T).cur.task = some T := by decide
                           exact (Option.some.inj (h.symm.trans this))
  match th with
  | none => rfl
  | some 0 => rfl
  | some (k + 1) => rfl
theorem next_ok {o : Host.Outcome State Fault Refusal} (h : (match o with | .next _ => true | _ => false) = true) : ∃ s2, o = .next s2 := by
  split at h
  · exact ⟨_, rfl⟩
  · cases h
theorem witness_StepRunsInstruction_bundle :
    let s := Sstep (.issue 0 [])
    (s.core 0).bundles[0]? = some { task := 1, threads := [0] } ∧ T.core? = some 0 ∧ (withAgenda [] s).chosenBundle 0 [] = some 0
    ∧ [0].filter T.canIssue = [0] ∧ (∀ x ∈ [0], (T.thread x).ag.entry = false)
    ∧ (∃ s1, (withAgenda [] s).fetchFor { task := 1, thread := some 0 } = (.word 0x10000000_00000900_00000000 false, s1))
    ∧ ∃ s2, exec (decode 0x10000000_00000900_00000000) ((((withAgenda [] s).fetchFor { task := 1, thread := some 0 }).2.noteIssue 0 1
        (T.thread 0).ag.pc.toNat [0]).turn { task := 1, uniform := false, threads := [0] }) = .next s2 :=
  ⟨by decide, by decide, by decide +kernel, by decide, by decide, some_state (by decide +kernel), next_ok (by decide +kernel)⟩
theorem witness_StepRunsInstruction_line :
    (∃ s1, (S none T).readLine T 0x44 = (.ok 0x200040 (mkLine [0x10000000_00000900_00000000] 1), s1)) ∧ canonicalVa 0x44 = true
    ∧ lineReservedOk (mkLine [0x10000000_00000900_00000000] 1) = true ∧ lineParityOk (mkLine [0x10000000_00000900_00000000] 1) = true
    ∧ ((S none T).translate 0 0 0x40 { x := true }).1 = .ok 0x200040 false ∧ ((S none T).core 0).icache = []
    ∧ (let s1 := ((S none T).translate 0 0 0x40 { x := true }).2; s1.firstMissing 0x200040 64 = none ∧ s1.poisoned 0x200040 64 = false) :=
  ⟨some_state (by decide +kernel), by decide, by decide +kernel, by decide +kernel, by decide +kernel, by decide, by decide +kernel⟩

/-- T at another address. -/
def Tpc (pc : W64) : Machine.Task := { T with u := { T.u with ag := { pc := pc, entry := true } } }
theorem witness_LineChecks :
    (S none (Tpc 0x0200000000000000)).task? 1 = some (Tpc 0x0200000000000000) ∧ canonicalVa 0x0200000000000000 = false ∧ isSlotAddr 0x45 = false
    ∧ (∃ s1, (S none (Tpc 0x10004)).readLine (Tpc 0x10004) 0x10004 = (.fault, s1))
    ∧ (∃ s1, ((S none T).setHome 0x200041 [8]).readLine T 0x44 = (.ok 0x200040 (((S none T).setHome 0x200041 [8]).home 0x200040 64), s1))
    ∧ field (lineWord (((S none T).setHome 0x200041 [8]).home 0x200040 64)) 25 10 ≠ 0
    ∧ field (lineWord (((S none T).setHome 0x200044 [1]).home 0x200040 64)) 26 26 ≠ parityBit 96 (lineSlot (((S none T).setHome 0x200044 [1]).home 0x200040 64) 0).toNat
    ∧ field (lineWord (((S none T).setHome 0x200044 [1]).home 0x200040 64)) 25 10 = 0
    ∧ (∃ s1, (S none T).checkTarget T 0x44 = (.pass, s1))
    ∧ ((S none T).core 0).refetch.contains 0x200040 = false
    ∧ (((S none T).modCore 0 (fun c => { c with refetch := [0x200040] })).core 0).refetch.contains 0x200040 = true :=
  ⟨by decide, by decide, by decide, some_state (by decide +kernel), some_state (by decide +kernel), by decide +kernel, by decide +kernel, by decide +kernel,
   some_state (by decide +kernel), by decide, by decide⟩

/-- T's thread with a window on x4, or in a block that suppresses. -/
def Tw (ag : Agent) : Machine.Task := { T with threads := [{ ag := { ag with pc := 0x44 } }] }
def facesOn (t : Machine.Task) (i : Instr) : Bool := match i.fields? with | some f => faces i f (who f) t (S (who f).thread t) | none => false
theorem witness_ChecksPrecede :
    facesOn T (.iadd (F true 1 2 3 4)) = true ∧ check (.iadd (F true 1 2 3 4)) (F true 1 2 3 4) T none = .trap { cause := 4 }
    ∧ facesOn (Tw { windows := [{ left := 2, first := 4, count := 1, addr := 0x50 }] }) (.iadd (F false 1 4 3 0)) = true
    ∧ check (.iadd (F false 1 4 3 0)) (F false 1 4 3 0) (Tw { windows := [{ left := 2, first := 4, count := 1, addr := 0x50 }] }) (some 0)
        = .window { left := 2, first := 4, count := 1, addr := 0x50 }
    ∧ facesOn (Tw { block := { left := 1, pat := 1, val := false } }) (.iadd (F false 1 4 3 0)) = true
    ∧ check (.iadd (F false 1 4 3 0)) (F false 1 4 3 0) (Tw { block := { left := 1, pat := 1, val := false } }) (some 0) = .ok true
    ∧ together (.iadd (F false 1 4 3 0)) = false := by decide
theorem witness_ChecksPrecede_unassigned :
    decodeOp (majorOf 0x60000000_0000FF00_00000000) (minorOf 0x60000000_0000FF00_00000000) (Fields.ofWord 0x60000000_0000FF00_00000000) = none
    ∧ 0x60 ≤ majorOf 0xC0000000_00000000_00000000
    ∧ (S none T).task? 1 = some T ∧ (S none T).cur = { task := 1, uniform := true, threads := [] } ∧ T.held none = false ∧ T.u.ag.parked = none
    ∧ (S (some 0) T).cur = { task := 1, uniform := false, threads := [0] } ∧ T.canIssue 0 = true := by decide
theorem witness_AllotmentAndWindows :
    (F false 511 2 3 0).u = false ∧ (F false 511 2 3 0).c = 0 ∧ ({ T with allot := { T.allot with regs := 510 } } : Machine.Task).allot.regs < (F false 511 2 3 0).d.toNat
    ∧ 0 < T.allot.regs ∧ ({ left := 1, first := 4, count := 1 } : Window).suspended = false ∧ field (F false 4 2 0 0 0x80).mod.toNat 7 5 = 4
    ∧ field (F false 4 2 0 0 0x18).mod.toNat 7 5 = 0 := by decide

/-- A live thread with a helper in its quad. -/
def Thelp : Machine.Task := { T with threads := [{ ag := { pc := 0x44 } }, { status := .helper, ag := { pc := 0x44 } }] }
theorem witness_Registers :
    (S (some 0) Thelp).task? 1 = some Thelp ∧ (S (some 0) Thelp).cur = { task := 1, uniform := false, threads := [0] } ∧ Thelp.canIssue 0 = true
    ∧ (Thelp.thread 1).status = .helper ∧ 1 < Thelp.threads.length ∧ 1 / 4 = 0 / 4
    ∧ check (.iadd (F false 1 4 3 0)) (F false 1 4 3 0) Thelp (some 0) = .ok false ∧ check (.iadd (F false 1 4 3 0)) (F false 1 4 3 0) Thelp (some 1) = .ok false := by
  decide
theorem witness_Registers_helpers : ∀ j, (Thelp.thread j).status = .helper → j = 1 := by
  intro j h
  match j with
  | 0 => exact absurd h (by decide)
  | 1 => rfl
  | j + 2 => exact absurd h (by simp [Thelp, Task.thread])

theorem witness_RegisterFrames :
    ∃ s', Turn (.hqry (F true 4 1 0 0)) (F true 4 1 0 0) U T (S none T) ∧ exec (.hqry (F true 4 1 0 0)) (S none T) = .next s' := by
  obtain ⟨s', h⟩ := next_ok (o := exec (.hqry (F true 4 1 0 0)) (S none T)) (by decide +kernel)
  exact ⟨s', turn_of_turns (by decide), h⟩
theorem witness_MemoryFrames : ∃ s', exec (.csrwr (F true 0 2 0 0 0 0x0E)) (S none T) = .next s' := next_ok (by decide +kernel)

theorem witness_TrapTaken :
    (S none T).task? 1 = some T ∧ T.handler = none ∧ (0 : Nat) < T.threads.length ∧ (Thd { cause := 8 }).handler.isSome = true
    ∧ (S none (Thd { cause := 8 })).tree? (Thd { cause := 8 }).entry.tree = some (demoTree 1) ∧ (demoTree 1).ending = none := by decide

/-- T with a pending trap of its thread and a vector. -/
def Tpend (vec : W64) : Machine.Task :=
  { T with trapVec := vec, savePtr := 0x8000, threads := [{ ag := { pc := 0x44, pending := some { cause := 8, pc := 0x44 } } }] }
theorem witness_TrapDelivery :
    (S none (Tpend 0x44)).task? 1 = some (Tpend 0x44) ∧ (Tpend 0x44).firstPending = some (some 0, { cause := 8, pc := 0x44 })
    ∧ (Tpend 0x44).handler = none ∧ (Tpend 0x44).drain = none ∧ (Tpend 0x44).u.ag.entry = false ∧ (Tpend 0).trapVec = 0
    ∧ (match (S none (Tpend 0x44)).cpWrite 0 0x8000 (List.replicate 128 0) true with | .ok _ => true | _ => false) = true
    ∧ ((S none (Tpend 0x44)).checkTarget (Tpend 0x44) 0x44).1 = .pass ∧ ((S none (Tpend 0x48)).checkTarget (Tpend 0x48) 0x48).1 = .bad := by
  decide +kernel

/-- The machine before the first step of its start-up, which passes. -/
def Sup : State := { State.reset with agenda := [.event (.startup true true)] }
theorem witness_StepKeepsInv : ∃ s', Inv Sup ∧ step Sup = .next s' := by
  obtain ⟨s', h⟩ := next_ok (o := step Sup) (by decide +kernel)
  exact ⟨s', ⟨by decide, by decide, fun cl => l1Sound_of_empty rfl⟩, h⟩
/-! ### Witnesses: the host, queues, trees, scheduling, commands, units -/

/-- The module running with a context whose queue 0 has its descriptor at 0x1000 and the packet at 0x4000, and a doorbell. -/
def Sp (flags : Nat) (packet : List Byte) (x : Queue := { doorbell := 1 }) : State :=
  let s := ((S none T).setHome 0x201000 (qdesc flags 1 0)).setHome 0x204000 packet
  { s with ctxs := [(0, { demoCtx with queues := [(0, x)] })], tasks := [], trees := [] }
def treePacket : List Byte := leBytes 8 1 ++ leBytes 8 0x800

theorem witness_HostInterface_doorbells :
    (Sp 1 []).ctx? 0 = some { demoCtx with queues := [(0, { doorbell := 1 })] } ∧ 0 < demoCtx.nQueues
    ∧ (∃ bs, (Sp 1 []).cpRead 0 0x1000 64 = .ok bs) ∧ (let bs := (Sp 1 []).home 0x201000 64
        bitAt (leField bs 9 1) 1 = false ∧ bitAt (leField bs 9 1) 0 = true ∧ (queueDesc bs).ok = true ∧ leField bs 24 8 + 2 ^ leField bs 8 1 = 16)
    ∧ bitAt (leField ((Sp 3 []).home 0x201000 64) 9 1) 1 = true :=
  ⟨by decide, by decide, ready_ok (by decide +kernel), by decide +kernel, by decide +kernel⟩
theorem witness_HostInterface_registers :
    State.reset.mgmtBlock.length = 64 ∧ (0x1038 : Nat) % 8 = 0 ∧ State.reset.leader.isSome = true ∧ State.reset.mgmt = none
    ∧ ({ State.reset with leader := none } : State).leader = none ∧ demoCtx.heldEvents = [] := by decide
theorem witness_HostInterface_companion :
    State.reset.exists? (576 * 2 ^ 30 - 1) = true ∧ State.reset.exists? (2 ^ 50) = true ∧ State.reset.exists? (2 ^ 51 - 1) = true
    ∧ State.reset.exists? (576 * 2 ^ 30) = false ∧ State.reset.exists? (2 ^ 51) = false := by decide

/-- The conditions of `NextPacket`, but for the bytes read. -/
theorem nextPacket_of {ctx q : Nat} {c : Ctx} {s : State} {b1 b2 : List Byte} (h1 : s.ctx? ctx = some c) (h2 : q < c.nQueues)
    (h3 : (c.queue q).parked = none ∧ (c.queue q).packet = none)
    (h8 : (c.queue q).dead = false ∧ (c.queue q).unchecked = none ∧ (c.queue q).refused = none) (h4 : s.cpRead ctx (c.queueTab + 64 * q) 64 = .ok b1)
    (h5 : (queueDesc b1).enabled = true ∧ (queueDesc b1).ok = true) (h6 : (queueDesc b1).read < (c.queue q).doorbell)
    (h7 : s.cpRead ctx (match (c.queue q).indirect with | some (a, _, k) => a + 128 * k | none => (queueDesc b1).packetAt (queueDesc b1).read) 128 = .ok b2) :
    NextPacket ctx q c b1 b2 s := ⟨h1, h2, h3, h8, h4, h5, h6, h7⟩
theorem witness_Packets_launch :
    NextPacket 0 0 { demoCtx with queues := [(0, { doorbell := 1 })] } ((Sp 1 treePacket).home 0x201000 64) ((Sp 1 treePacket).home 0x204000 128) (Sp 1 treePacket)
    ∧ leField ((Sp 1 treePacket).home 0x204000 128) 0 1 = 1 ∧ launchOk ((Sp 1 treePacket).home 0x204000 128) = true :=
  ⟨nextPacket_of (by decide) (by decide) (by decide) (by decide) (by decide +kernel) (by decide +kernel) (by decide +kernel) (by decide +kernel), by decide +kernel, by decide +kernel⟩
theorem witness_Packets_forms :
    launchOk (leBytes 4 0x1001) = false ∧ launchOk (leBytes 8 2 ++ List.replicate 108 0 ++ leBytes 8 0x100000001 ++ leBytes 4 1) = true
    ∧ leField (leBytes 8 3) 2 1 < 2 ∧ 2 < leField (leBytes 8 0x30003) 2 1 ∧ 5 ≤ leField (leBytes 8 5) 0 1
    ∧ (let bs := leBytes 8 4 ++ leBytes 8 0x5000 ++ leBytes 8 65535 ++ List.replicate 104 0
       leField bs 8 8 % 128 = 0 ∧ leField bs 16 4 ≠ 0 ∧ leField bs 16 4 ≤ 65535 ∧ leField bs 1 7 = 0 ∧ leField bs 20 108 = 0) := by decide +kernel
theorem witness_Packets_report :
    (∃ b, (Sp 1 []).cpRead 0 0x1000 64 = .ok b) ∧ (∃ l, (Sp 1 []).mapCp 0 { w := true } (pieces ((queueDesc ((Sp 1 []).home 0x201000 64)).statusAt 0) 16) = .ok l) :=
  ⟨ready_ok (by decide +kernel), ready_ok (by decide +kernel)⟩

/-- A launch packet that has been read, over a code object of zeros but for its count of tasks. -/
def Sl (packet : List Byte) : State := (Sp 1 [] { doorbell := 1, packet := some packet }).setHome 0x200808 [1]
def plan (packet : List Byte) : CpRes (Except Nat Tree) :=
  (Sl packet).launchPlan 0 0 { demoCtx with queues := [(0, { doorbell := 1, packet := some packet })] } 0 (packet)
def pkt (flags : Nat) : List Byte := leBytes 8 (1 + 256 * flags) ++ leBytes 8 0x800 ++ List.replicate 112 0
theorem witness_TreesStartAndEnd_launch :
    (match plan (pkt 0) with | .ok (.ok r) => !r.sweep && r.trace.isNone && decide (∀ x ∈ (Sl (pkt 0)).trees, x.id ≠ r.id) | _ => false) = true
    ∧ (match (Sl (pkt 0)).readQueue 0 0 with | .packet _ _ [] => true | _ => false) = true ∧ leField (pkt 0) 0 1 = 1 ∧ launchOk (pkt 0) = true ∧ (Sl (pkt 0)).depsMet 0 (pkt 0) = .ok true
    ∧ bitAt (leField (pkt 0) 1 1) 1 = false ∧ (Sl (pkt 0)).inPartition 3 0 = true
    ∧ ((Sl (pkt 0)).cluster (3 / 4)).inService = true ∧ ((Sl (pkt 0)).core 3).deque.length < 64 := by decide +kernel
theorem witness_TreesStartAndEnd_tag : (Sl (pkt 0)).freeTag.isSome = true := pickFree_isSome (by decide +kernel)
theorem witness_TreesStartAndEnd_waits :
    (let p := leBytes 8 1 ++ leBytes 8 0x800 ++ List.replicate 64 0 ++ leBytes 8 0x1000 ++ List.replicate 40 0
     (Sl p).depsMet 0 p = .ok false)
    ∧ bitAt (leField (pkt 2) 1 1) 1 = true ∧ (demoTree 1).reported = false ∧ (demoTree 1).ctx = 0 ∧ (demoTree 1).queue = 0
    ∧ (let p := leBytes 8 2 ++ leBytes 8 0x800 ++ List.replicate 100 0 ++ leBytes 8 0x100000001 ++ leBytes 4 1
       match (Sl p).launchPlan 0 0 { demoCtx with queues := [(0, { doorbell := 1, packet := some p })] } 0 p with
       | .ok (.error _) => false | .fault => true | _ => false) = true := by decide +kernel

/-- A sweep whose second tile is next, with a walker on core 0; and trees at their end. -/
def Rw : Tree := { Rc 16 16 with walker := 1 }
def Sr (r : Tree) : State := { S none T with trees := [r], tasks := [] }
theorem witness_TreesStartAndEnd_sweep :
    (Sr Rw).tree? 1 = some Rw ∧ Rw.ending = none ∧ Rw.trace = none ∧ Rw.walker < Rw.tiles ∧ Rw.bandOf Rw.walker < 2 ∧ (Sr Rw).inPartition 0 Rw.ctx = true
    ∧ ((Sr Rw).cluster 0).inService = true ∧ ((Sr Rw).core 0).deque.length < 64 ∧ Rc 16 16 ≠ Rw
    ∧ ({ Rw with walker := 2 } : Tree).tiles ≤ ({ Rw with walker := 2 } : Tree).walker := by decide
theorem witness_TreesStartAndEnd_end :
    (let r : Tree := { demoTree 1 with counter := 0 }
     (Sq none T 1 1 0).tree? 1 = some (demoTree 1) ∧ r.reported = false ∧ r.ending = none ∧ r.tiles ≤ r.walker ∧ r.bindings = [] ∧ r.trace = none
     ∧ (∀ c ∈ r.tops, c.bins = []) ∧ r.tag = none)
    ∧ (∃ s1, ((Sq none T 1 1 0).modTree 1 (fun x => { x with ending := some 0, tops := [] })).report 0 0 0 0 0 false = .ok s1)
    ∧ (∃ s1, (Sq none T 1 1 0).report 0 0 0 4 0 false = .ok s1) ∧ (demoTree 1).counter ≠ 0
    ∧ ({ demoTree 1 with tag := some 127, reported := true } : Tree).tag = some 127 :=
  ⟨by decide, ready_ok (by decide +kernel), ready_ok (by decide +kernel), by decide, rfl⟩

/-- A deque entry of tree 1, and a state with it in the deque of core 1, whose context has room for its save slot. -/
def e0 (since : Nat := 0) : Entry := { id := 5, ctx := 0, tree := 1, record := 0, groups := 2, last := 3, since := since }
def bigCtx : Ctx := { demoCtx with poolSize := 0x30000 }
def Se (core : Nat) : State :=
  { (S none T).modCore core (fun c => { c with deque := [e0] }) with ctxs := [(0, bigCtx)] }
theorem witness_Scheduling_start (core : Nat) (h : core = 1 ∨ core = 0) : CanStart core 1 e0 (demoTree 1) bigCtx 0 (Se 1) := by
  rcases h with rfl | rfl
  · exact ⟨by decide, by decide, by decide, by decide, by decide, ready_ok (by decide +kernel), by decide +kernel, by decide⟩
  · exact ⟨by decide, by decide, by decide, by decide, by decide, ready_ok (by decide +kernel), by decide +kernel, by decide⟩
theorem witness_Scheduling_steal :
    ((Se 1).core 1).deque = [] ++ [e0] ∧ ((Se 1).core 1).spilled ≤ 0 ∧ ((Se 1).core 2).deque = [] ∧ (Se 1).canAdmit 0 1 = true
    ∧ (∀ p ∈ (Se 1).cores, ringOf 0 p.1 < ringOf 0 1 → (Se 1).stealable 0 p.1 = none) := by decide +kernel
/-- Task 1 in SYNC with a child, its thread gone, as the youngest suspended task of core 0 that holds 15 groups of thread slots. -/
def Tsus : Machine.Task :=
  { T with threads := [{ status := .free }], join := .sync, children := [{ task := 9, elem := 0 }], entry := { T.entry with groups := 15 },
           u := { T.u with ag := { pc := 0x44, waiting := true } } }
def Srel : State :=
  (({ S none Tsus with ctxs := [(0, bigCtx)] } : State).modCore 0 (fun c => { c with deque := [e0] })).modDie 0 (fun d => { d with ticks := 65536 })
theorem witness_Scheduling_relief :
    (Srel.core 0).deque.getLast? = some e0 ∧ 65536 ≤ (Srel.cycle 0 + 2 ^ 64 - e0.since) % 2 ^ 64 ∧ Srel.canAdmit 0 e0.groups = false
    ∧ Srel.youngestFirst ((Srel.residents 0).filter (fun t => Srel.isSuspended t && !t.saving)) = [Tsus]
    ∧ ((Sacq (Ta 4 128)).modDie 0 (fun d => { d with ticks := 65536 })).oldestAcquire 0 = some (Ta 4 128) := by decide +kernel
theorem witness_Scheduling_restore :
    (let t : Machine.Task := { T with place := .saved 0 0 3 }
     let s : State := { S none t with ctxs := [(0, bigCtx)] }
     s.task? 1 = some t ∧ t.saveOrder? = some 0 ∧ s.canHold 2 t = true ∧ s.olderFits 2 0 0 = false
     ∧ (match s.placeSaved t 2 with | .go (some _) _ => true | _ => false) = true ∧ s.canHold 4 t = false)
    ∧ (let t : Machine.Task := { T with drain := some 100 }
       (S none t).task? 1 = some t ∧ 2 ^ 63 ≤ ((S none t).cycle 0 + 2 ^ 64 - 100) % 2 ^ 64
       ∧ (((S none t).modDie 0 (fun d => { d with ticks := 100 })).cycle 0 + 2 ^ 64 - 100) % 2 ^ 64 = 0) := by decide +kernel

/-- The module with a command of tag 7 in progress; a context image at 0x10000 and a mask of cluster 575 at 0x20000 of memory. -/
def block (l : List (Nat × Nat)) : List Byte := (l.flatMap (fun p => leBytes p.1 p.2)) ++ List.replicate (64 - (l.map Prod.fst).sum) 0
def Sm (b : List Byte) (s : State := State.reset) : State :=
  { s with power := .running, mgmt := some { tag := 7, block := b } }
def ctxImage : List Byte :=
  leBytes 8 0x1000 ++ leBytes 2 0x0100 ++ leBytes 2 1 ++ leBytes 4 64 ++ leBytes 8 0x1000 ++ leBytes 8 0 ++ leBytes 8 0 ++ leBytes 8 0 ++ leBytes 8 0
    ++ leBytes 8 0 ++ leBytes 4 0 ++ leBytes 4 1 ++ List.replicate 56 0
theorem witness_ContextCommands_create :
    (let s := Sm (block [(8, 1), (8, 63), (8, 0x10000), (8, 0), (8, 0x10000)]) (State.reset.setHome 0x10000 ctxImage)
     ∃ b, s.command 7 1 = some b ∧ leField b 8 1 = 63 ∧ s.ctx? 63 = none ∧ (s.physical (leField b 16 8) 128).isSome = true
       ∧ (((s.physical (leField b 16 8) 128).bind (fun d => ctxOf d (leField b 24 8) (leField b 32 8))).isSome = true))
    ∧ (let s := Sm (block [(8, 1), (8, 64), (8, 0x10000), (8, 0), (8, 0x10000)])
       ∃ b, s.command 7 1 = some b ∧ 64 ≤ leField b 8 1) :=
  ⟨⟨_, rfl, by decide +kernel⟩, ⟨_, rfl, by decide +kernel⟩⟩
theorem witness_ContextCommands_partition :
    (let s := Sm (block [(8, 3), (8, 63), (8, 0x20000)]) (State.reset.setHome 0x20047 [0x80])
     ∃ b, s.command 7 3 = some b ∧ (s.clusters.map Prod.fst).Nodup ∧ leField b 8 1 < 64 ∧ (s.physical (leField b 16 8) 72).isSome = true
       ∧ bitAt (ofLE (s.home 0x20000 72)) 575 = true ∧ s.unitOut .cluster 575 = false)
    ∧ (let s := (Sm (block [(8, 3), (8, 63), (8, 0x20000)]) (State.reset.setHome 0x20000 [1])).modCluster 0 (fun c => { c with inService := false })
       ∃ b, s.command 7 3 = some b ∧ bitAt (ofLE (s.home 0x20000 72)) 0 = true ∧ s.unitOut .cluster 0 = true) :=
  ⟨⟨_, rfl, by decide +kernel⟩, ⟨_, rfl, by decide +kernel⟩⟩
theorem witness_ContextCommands_busy (p : Nat) : (Sm []).partitionBusy p = false := by rfl
theorem witness_ContextCommands_destroy :
    (∃ b, (Sm (block [(8, 2), (8, 0)]) (Se 1)).command 7 2 = some b ∧ leField b 8 1 = 0 ∧ (Se 1).ctx? 0 = some bigCtx)
    ∧ (∃ b, (Sm (block [(8, 2), (8, 63)])).command 7 2 = some b ∧ (Sm []).ctx? (leField b 8 1) = none)
    ∧ (∀ r ∈ (Sm []).trees, r.reported = true ∨ r.ctx ≠ 0) := ⟨⟨_, rfl, by decide⟩, ⟨_, rfl, by decide⟩, by decide⟩
theorem witness_ContextCommands_preempt :
    (∃ b, (Sm (block [(8, 5), (8, 0x0001), (8, 0x20000)]) { Se 1 with tasks := [] }).command 7 5 = some b ∧ leField b 8 1 = 1 ∧ leField b 9 1 = 0
      ∧ ((Sm [] { Se 1 with tasks := [] }).physical 0x20000 288).isSome = true)
    ∧ (∃ b, (Sm (block [(8, 5), (8, 0x0002)])).command 7 5 = some b ∧ 1 < leField b 8 1)
    ∧ (let t : Machine.Task := { T with entry := { T.entry with rcd := { T.entry.rcd with hint := 10 } } }
       let s := Sm (block [(8, 5), (8, 0), (8, 1), (8, 80)]) { S none t with ctxs := [(0, bigCtx)] }
       (∃ b, s.command 7 5 = some b ∧ leField b 8 1 = 0 ∧ s.treeOrdinal t = leField b 16 8 ∧ t.form (leField b 24 4) = .drain) ∧ s.tasks = [t]) :=
  ⟨⟨_, rfl, by decide +kernel⟩, ⟨_, rfl, by decide +kernel⟩, ⟨_, rfl, by decide +kernel⟩, rfl⟩

def lane : OutUnit := { cls := .dieLane, number := 767 }
theorem witness_UnitCommands :
    (∃ b, (Sm (block [(8, 4), (8, 1200)])).command 7 4 = some b ∧ leField b 8 4 = 1200) ∧ (∃ b, (Sm (block [(8, 4), (8, 2801)])).command 7 4 = some b ∧ leField b 8 4 = 2801)
    ∧ (∃ b, (Sm (block [(8, 6)])).command 7 6 = some b)
    ∧ (∃ b, (Sm (block [(8, 7), (8, 3)])).command 7 7 = some b ∧ leField b 8 4 = 3)
    ∧ (∃ b, (Sm (block [(8, 8), (8, 5 + 767 * 2 ^ 32), (8, 1)])).command 7 8 = some b ∧ leField b 8 2 = 5 ∧ leField b 12 4 = 767 ∧ leField b 16 1 = 1)
    ∧ (∃ b, (Sm (block [(8, 8), (8, 5 + 767 * 2 ^ 32), (8, 4)])).command 7 8 = some b ∧ leField b 16 1 = 4)
    ∧ (∃ b, (Sm (block [(8, 8), (8, 8), (8, 1)])).command 7 8 = some b ∧ 7 < leField b 8 2)
    ∧ (∃ b, (Sm (block [(8, 9), (8, 0x150000)])).command 7 9 = some b ∧ leField b 8 1 ≤ 21 ∧ leField b 10 1 = 21)
    ∧ (∃ b, (Sm (block [(8, 9), (8, 22)])).command 7 9 = some b ∧ 21 < leField b 8 1)
    ∧ blockOk (block [(8, 10)]) = false ∧ blockOk (block [(8, 6), (8, 1)]) = false
    ∧ (Sm []).unitOut .dieLane 767 = false ∧ ({ Sm [] with out := [lane] } : State).unitGone .dieLane 767 = true
    ∧ (∃ o ∈ [({ cls := .channel, number := 3, awaits := true } : OutUnit)], o.cls = .channel ∧ o.number = 3 ∧ o.awaits = true)
    ∧ (Sm []).dies.length = 3 ∧ (∀ r ∈ (Sm []).trees, r.reported = true ∨ r.level = 0) :=
  ⟨⟨_, rfl, by decide +kernel⟩, ⟨_, rfl, by decide +kernel⟩, ⟨_, rfl⟩, ⟨_, rfl, by decide +kernel⟩, ⟨_, rfl, by decide +kernel⟩, ⟨_, rfl, by decide +kernel⟩,
   ⟨_, rfl, by decide +kernel⟩, ⟨_, rfl, by decide +kernel⟩, ⟨_, rfl, by decide +kernel⟩, by decide +kernel⟩

/-- Two bundles of core 0, thread 0 of which waits since 4,096 cycles. -/
def Sb : State := (Sstep (.issue 0 [])).modDie 0 (fun d => { d with ticks := 4096 })
theorem witness_BundlesAndLines :
    Sb.cycle (0 / 4) % 4 = 0 ∧ T.threads.length ≤ 32 * T.entry.groups ∧ (Sb.modDie 0 (fun d => { d with ticks := 3 })).cycle 0 % 4 ≠ 0
    ∧ (∃ b ∈ (Sb.core 0).bundles, 4096 ≤ Sb.bundleAge b ∧ Sb.readyMembers b = [0])
    ∧ ∃ x ∈ Sb.readyBundles 0 [], Sb.isPromoted 0 x.1 = true := by decide +kernel
def oneLine (dirty : Bitmap) : State :=
  (S none T).modCluster 0 (fun c => { c with l1 := [{ line := 5, data := List.replicate 128 1, dirty := dirty }] })
theorem witness_BundlesAndLines_lines : L1Sound (oneLine 1) 0 ∧ L1Sound (oneLine 0) 0 ∧ ∃ l, ((oneLine 1).cluster 0).line? 5 = some l ∧ l.dirty ≠ 0 :=
  ⟨⟨by decide +kernel, by decide +kernel⟩, ⟨by decide +kernel, by decide +kernel⟩, ⟨_, rfl, by decide +kernel⟩⟩

theorem witness_UnitsAndStartup :
    State.reset.dies.length = 3 ∧ State.reset.leader = some 0 ∧ 2 ^ 21 ≤ ((State.reset.modDie 0 (fun d => { d with ticks := 2 ^ 21 })).die 0).ticks.toNat
    ∧ (State.reset.die 2).fwUp = true ∧ State.reset.leader ≠ some 2 ∧ 2 ^ 22 ≤ ((State.reset.modDie 2 (fun d => { d with ticks := 2 ^ 22 })).die 2).ticks.toNat
    ∧ unitExists .channel 383 = true ∧ lasting [0, 5] 9 = true ∧ lasting [5] 9 = false ∧ lasting [5, 5] 9 = false ∧ lasting [0, 9] 9 = false
    ∧ lasting [9, 9] 9 = false ∧ lasting [1, 2] (2 ^ 34) = true ∧ lasting [0, 2] (2 ^ 34) = false ∧ lasting [7, 5] 9 = false
    ∧ holdsLine 0 .l2Way 0 = true ∧ holdsLine hbmBytes .channel 3 = false
    ∧ isThermal .thermalTrip = true ∧ State.reset.errTimes .channel 3 = []
    ∧ State.reset.exists? 0 = true ∧ (S none T).task? 1 = some T ∧ T.resident = true
    ∧ State.reset.power = .starting 1 ∧ State.reset.flash.length = 9 ∧ (State.reset.flash.getD 8 {}).method = 0
    ∧ ({ State.reset with flash := List.replicate 9 { outcome := 2, method := 2 } } : State).flash.getD 6 {} = { outcome := 2, method := 2 }
    ∧ Sup.power ≠ .running ∧ (S none T).power = .running := by decide +kernel
theorem witness_UnitsAndStartup_channel : holdsLine 0 .channel (channelNumber 0) = true := by
  have h : stackOf 0 = 0 := by decide
  have h2 : unitExists .channel (channelNumber 0) = true := by simp [unitExists, channelNumber, h]; omega
  simp [holdsLine, h2, hbmBytes, gib]

/-! ### Witnesses of clauses on copies, multicast, matrices, fetch, saves -/

/-- A state whose task 1 has the copy command at the head of q1. -/
def copyOn (i : Instr) (c : Cmd) (t : Machine.Task) : Bool :=
  let u : Machine.Task := { t with copyq := [[], [{ c with word := (encode i).getD 0 }], [], []] }
  let s := S none u
  decide (s.task? 1 = some u) && u.resident && !u.saving && c.parked.isNone && c.begun.isNone && c.issuer.isNone && u.u.ag.closed.isEmpty
    && decide (decode ((encode i).getD 0) = i)
/-- T with a copy command at the head of q1, over the pigeonholes of Th. -/
def Tcq (i : Instr) (c : Cmd) (st : HoleState) : Machine.Task := { Th st 1 with copyq := [[], [{ c with word := (encode i).getD 0 }], [], []] }
theorem witness_CopyEngines_heads :
    copyOn (.cpy (F true 1 2 2 0 0x93)) { a := 0x100, b := 8 } (Th .filling) = true ∧ copyOn (.cpy (F true 1 2 2 0 0xD3)) { b := 8 } (Th .filling) = true
    ∧ copyOn (.cpy (F true 2 1 2 0 0x41)) { d := 0x100, b := 8 } (Th .ready 1) = true ∧ copyOn (.cpy (F true 2 2 2 0 1)) { d := 0x100, a := 0x200, b := 8 } T = true
    ∧ copyOn (.cpys (F true 2 0 2 2 1)) { d := 0x100, b := 8, c := 5 } T = true ∧ copyOn (.cpyt (F true 0 2 1 2 1)) {} (Th .filling) = true
    ∧ copyOn (.cpyt (F true 0 2 1 2 9)) {} (Th .ready 1) = true ∧ copyOn (.cpyg (F true 1 2 2 2 1 4)) { a := 0x100, b := 0x200, c := 1 + 2 ^ 32 } (Th .filling) = true
    ∧ copyOn (.cpym (F true 0 2 1 4 1 16)) { a := 7, c := 2 } (Th .ready 1) = true ∧ copyOn (.cpyd (F true 1 2 0 0 1 16)) { a := 7 } (Th .filling) = true := by
  decide
/-- Ranges that a command reads and writes. -/
def reads (rs : List (Int × Nat)) (s : State) : Bool :=
  let a : Acc := { Acc.ofTask T none with checked := true, engine := true }
  match s.mapAll a { r := true } rs with
  | (.ok segs, s1) => (match s1.readSegs a segs with | (.ok bs, _) => decide (bs.length = (rs.map Prod.snd).sum) | _ => false)
  | _ => false
def writes (va n : Nat) (s : State) : Bool :=
  let a : Acc := { Acc.ofTask T none with checked := true, engine := true }
  match s.mapAll a { w := true } [((va : Int), n)] with
  | (.ok [g], s1) => decide (g.n = n) && (s1.firstRace a true [g]).isNone && !s1.filtering a g
    && (match s1.writeSegs a [g] (List.replicate n 1) with | .ok _ => true | _ => false)
  | _ => false
theorem witness_CopyEngines_ranges :
    reads [(0x100, 8)] (S none T) = true ∧ reads [(0x200, 4), (0x100, 4)] (S none T) = true ∧ writes 0x100 8 (S none T) = true := by decide +kernel

theorem witness_CopyEngines_stalls :
    (let t := Tcq (.cpyd (F true 1 2 0 0 1 16)) { a := 7, stall := some { since := 0, limit := 256 } } .filling
     let s := (S none t).modDie 0 (fun d => { d with ticks := 256 })
     s.task? 1 = some t ∧ 256 ≤ (s.cycle t.cluster + 2 ^ 64 - 0) % 2 ^ 64 ∧ t.u.ag.opened.err = none ∧ s.posteFor 0 7 = none)
    ∧ (let t := Tcq (.cpym (F true 0 2 1 4 1 16)) { a := 7, c := 2, stall := some { since := 0, limit := 256 } } .ready
       let p : Poste := { ctx := 0, key := 7, data := [], receivers := 1 }
       let s := (S none t).modDie 0 (fun d => { d with ticks := 256, poste := [p] })
       ∃ c, t.copyq.getD 1 [] = [c] ∧ c.c ≠ 0 ∧ (s.posteFor t.entry.ctx (BitVec.ofNat 64 c.a)).isSome = true) :=
  ⟨by decide +kernel, _, rfl, by decide +kernel⟩

/-- A request of SCAT, and a window of 256 requests. -/
def scatReq : GatherReq := { task := 1, thread := 0, write := true, ea := 0x100, pa := some 0x200100, bytes := 4, value := 9 }
theorem witness_CopyEngines_scat :
    (S none T).task? scatReq.task = some T ∧ scatReq.bytes ≤ 8 ∧ L1Sound (S none T) T.cluster
    ∧ (S none T).firstRace { Acc.ofTask T none with checked := true, engine := true } true [{ va := 0x100, pa := 0x200100, n := 4, watched := false }] = none
    ∧ (S none T).filtering { Acc.ofTask T none with checked := true, engine := true } { va := 0x100, pa := 0x200100, n := 4, watched := false } = false
    ∧ 255 ≤ (List.replicate 255 scatReq).length ∧ ∀ x ∈ scatReq :: List.replicate 255 scatReq, x.write = true :=
  ⟨by decide, by decide, l1Sound_of_empty (by decide), by decide +kernel, by decide +kernel, le_of_eq List.length_replicate.symm, by
    intro x hx
    rcases List.mem_cons.1 hx with rfl | h
    · rfl
    · rw [List.eq_of_mem_replicate h]; rfl⟩

/-- A thread stalls in each pigeonhole instruction, its limit reached or not. -/
def Thw (since : Nat) : Machine.Task :=
  { Th .filling with threads := [{ ag := { pc := 0x44, stall := some { since := since, limit := 256 }, waiting := true } }] }
def stallsOn (i : Instr) : Bool :=
  match i.fields? with
  | some f => turns i f W0 (Thw 0) ((Sw i (Thw 0)).modDie 0 (fun d => { d with ticks := 256 }))
      && decide (decode ((Sw i (Thw 0)).insnAt (Thw 0) 0x44) = i)
  | none => false
theorem witness_Pigeonholes_stalls :
    [Instr.ldh (F false 4 1 0 0), .sth (F false 0 1 0 4), .hwait (F false 0 1 0 0 0 2), .hset (F false 0 1 0 0 0 2)].all stallsOn = true
    ∧ HoleWaits (.ldh (F false 4 1 0 0)) (F false 4 1 0 0) W0 (Thw 0)
    ∧ HoleWaits (.sth (F false 0 1 0 4)) (F false 0 1 0 4) W0 (Th .ready 1)
    ∧ HoleWaits (.hwait (F false 0 1 0 0)) (F false 0 1 0 0) W0 (Th .draining)
    ∧ HoleWaits (.hset (F false 0 1 0 0)) (F false 0 1 0 0) W0 (Th .ready 1) := by
  refine ⟨by decide +kernel, .inl ⟨rfl, by decide, by decide⟩, .inr (.inl ⟨rfl, by decide, by decide⟩), .inr (.inr (.inl ⟨rfl, by decide⟩)),
    .inr (.inr (.inr ⟨rfl, by decide, by decide⟩))⟩

theorem witness_MatrixEngine_moves :
    headOf (.tld (F true 1 2 0 0 0x10)) { cfgD := cfgOf Tm false 1, maddr := 0x100, saddr := 0x200 } = true
    ∧ headOf (.tld (F true 1 1 0 0 0x40)) { cfgD := cfgOf Tm false 1 } = true ∧ headOf (.tst (F true 2 1 0 0)) { cfgA := cfgOf Tm false 1, maddr := 0x100 } = true
    ∧ headOf (.tst (F true 1 1 0 0 0x40)) { cfgA := cfgOf Tm false 1 } = true
    ∧ headOf (.tcvt (F true 3 1 0 0)) { cfgD := { rows := 2, cols := 2, width := 4 }, cfgA := cfgOf Tm true 1, fw := 1 } = true
    ∧ headOf (.accrd (F true 1 1 0 0 0x40)) { cfgA := cfgOf Tm true 1, fw := 1 } = true ∧ headOf (.accrd (F true 2 1 0 0 0x20)) { cfgA := cfgOf Tm true 1, fw := 1 } = true
    ∧ headOf (.accwr (F true 1 1 0 0 0x40)) { cfgD := cfgOf Tm true 1, fw := 1 } = true ∧ headOf (.accwr (F true 1 2 0 0)) { cfgD := cfgOf Tm true 1, fw := 1, maddr := 0x100 } = true
    ∧ headOf (.mmas (F true 1 1 2 1 0 0x800000)) { fw := 1, cfgD := cfgOf Tm true 1, cfgA := cfgOf Tm false 1, cfgB := cfgOf Tm false 2, cfgC := cfgOf Tm true 1, bitmaps := List.replicate 8 5 } = true := by decide
theorem witness_MatrixEngine_ranges :
    reads [(0x100, 16), (0x110, 16), (0x200, 2)] (S none T) = true ∧ writes 0x100 32 (S none T) = true := by decide +kernel
theorem witness_MatrixEngine_aging :
    (let t := Tmq (.tzero (F true 1 0 0 0)) { headSince := some 0 }
     let s := (S none t).modDie 0 (fun d => { d with ticks := 8192 })
     (∃ c, s.q4Head t = some c) ∧ s.agedHead t = true ∧ s.arbiterChoice t.cluster = some t) := ⟨⟨_, rfl⟩, by decide +kernel⟩

theorem witness_Spawning_lanes :
    let f := F true 4 0 2 15 0 0x000
    let t : Machine.Task := { T with bars := Sparse.put {} T.bars 15 { T.bar 15 with lastVotes := 5 } }
    onTask t (.spawnl f) = true ∧ f.imm.toNat / 16 % 16 < t.entry.groups ∧ bitsOf 32 (t.voteMask f.c.toNat 0) = [0, 2] ∧ t.u.pedpos.toNat % 1024 + 0 + 2 ≤ 1024
    ∧ (let u : Machine.Task := { t with u := { t.u with pedpos := 1023 } }
       onTask u (.spawnl f) = true ∧ 1024 < u.u.pedpos.toNat % 1024 + 0 + (bitsOf 32 (u.voteMask f.c.toNat 0)).length) := by decide
theorem witness_MemoryFrames_late : NothingLate (S none T) := by
  intro t h th
  obtain rfl : t = T := by simpa [S] using h
  match th with
  | none => exact ⟨rfl, rfl, rfl⟩
  | some 0 => exact ⟨rfl, rfl, rfl⟩
  | some (k + 1) => exact ⟨rfl, rfl, rfl⟩

/-- The trees and saved tasks that a restore, a save and a flush meet. -/
def Tsave : Machine.Task := { T with savePtr := 0x8000, allot := {}, views := [], holes := [], entry := { T.entry with tile := none } }
theorem witness_Scheduling_save :
    (S none Tsave).task? 1 = some Tsave ∧ Tsave.resident = true ∧ Tsave.draining = false ∧ (∃ ks s1, (S none Tsave).stageMerge Tsave = some (.ok (ks, s1)))
    ∧ (∃ r, (S none Tsave).tree? Tsave.entry.tree = some r ∧ r.level = (demoTree 1).level) :=
  ⟨by decide, by decide, by decide, ⟨[], S none Tsave, by decide +kernel⟩, ⟨demoTree 1, by decide, rfl⟩⟩
/-- T with a drain hint and a count of retired instructions. -/
def Tf (idem : Bool) (hint r : Nat) (spawned : Bool) : Machine.Task :=
  { T with spawned := spawned, u := { T.u with retired := BitVec.ofNat 64 r },
           entry := { T.entry with rcd := { T.entry.rcd with idem := idem, hint := hint } } }
theorem witness_Scheduling_restart :
    (let t : Machine.Task := Tf true 40000 6000 false
     let s : State := { S none t with ctxs := [(0, bigCtx)] }
     let s1 := (s.settleTask t).finishBegun t
     t.form 20000 = .restart ∧ (s1.task? 1).isSome = true ∧ s1.ctx? 0 = some bigCtx ∧ s1.tree? t.entry.tree = some (demoTree 1) ∧ (demoTree 1).level ≠ 2
     ∧ (s1.core 0).spilled = 0 ∧ (s1.core 0).deque.length < 64 ∧ (s1.clusters.map Prod.fst).Nodup ∧ s1.partitionCores 0 = [0, 1, 2, 3]) := by decide +kernel
theorem pickCore_some {s : State} {p n : Nat} (h : s.partitionCores p ≠ []) : ∃ k, s.pickCore p n = some k := by
  unfold State.pickCore
  cases hc : s.partitionCores p with
  | nil => exact absurd hc h
  | cons a l => exact ⟨_, (apply_ite some _ _ _).symm⟩

/-- 16 R407, R408, R409 by hand: MAGIC and FORM, registers, predicates and flags at their bytes. -/
def Timg : Machine.Task :=
  Tr [(3, 0xA1B2C3D4)] [(2, 0x1122334455667788)] { T with u := { T.u with ag := { pc := 0x44, preds := 0x0A } } }
theorem test_image_uniform :
    (let d := Timg.uniformBytes
     leField d 16 8 = 0x1122334455667788 ∧ leField d 512 8 = 0x44 ∧ leField d 520 1 = 0x8A ∧ leField d 1680 48 = 0) := by decide +kernel
theorem test_image_thread :
    (let d := Timg.threadBytes 0
     leField d 1032 4 = 0xA1B2C3D4 ∧ leField d 0 8 = 0x44 ∧ leField d 8 1 = 0x80 ∧ leField d 9 1 = 1) := by decide +kernel
theorem test_image_header :
    (let h := (S none T).slotHeader T 1
     h.take 6 = [0x56, 0x53, 0x58, 0x33, 1, 2] ∧ leField h 32 4 = 256 ∧ leField h 36 4 = 2304) := by decide +kernel

/-! #### A saved slot that reads -/

/-- A saved task of one thread, whose slot lies at 0x20000 in a page of 2 MiB. -/
def Tsl : Machine.Task :=
  { T with place := .saved 0 0 0, savePtr := 0x20000, allot := {}, views := [], holes := [], entry := { T.entry with tile := none, rcd := {} } }
/-- The bytes of the tables, and of the slot with its FORM. -/
def slotCells (f : Byte) : Sparse Byte :=
  [(65536, 1), (65538, 2), (131072, 1), (131074, 3), (196608, 1), (196610, 4), (262144, 31), (262146, 32), (2097216, 1), (2097219, 4),
    (2097225, 9), (2097231, 16)]
  ++ [(2228352, 86), (2228353, 83), (2228354, 88), (2228355, 51), (2228356, f), (2228378, 2), (2228385, 1), (2228389, 9), (2228393, 41),
    (2228397, 185), (2228401, 73), (2228402, 1), (2228404, 64), (2228405, 81), (2228406, 1), (2228408, 64), (2228409, 81), (2228410, 1),
    (2228412, 64), (2228413, 81)]
  ++ [(2228414, 1), (2228416, 192), (2228417, 93), (2228418, 1), (2228420, 192), (2228421, 93), (2228422, 1), (2228432, 1), (2228992, 68),
    (2229000, 128), (2229908, 3), (2230024, 1), (2230040, 24), (2275584, 68), (2275592, 128), (2275593, 1), (2276452, 3)]
def Ssl (f : Byte) : State := { S none Tsl with mem := slotCells f }
/-- The read of a section of the slot. -/
def slotRead (n len : Nat) : CpRes (List Byte) := (Ssl 2).cpRead Tsl.entry.ctx (Tsl.savePtr + slotOffset ((Ssl 2).slotSizesOf Tsl) n) len
theorem slotRead_of {n len : Nat} (pa : Nat)
    (hm : (Ssl 2).mapCp 0 { r := true } (pieces (Tsl.savePtr + slotOffset ((Ssl 2).slotSizesOf Tsl) n) len) = .ok [(pa, len)]) :
    slotRead n len = .ok (Sparse.read 0 (slotCells 2) pa len) := by
  have hc : (Ssl 2).ctx? 0 = some demoCtx := by decide +kernel
  show (Ssl 2).cpRead 0 _ _ = _
  simp only [State.cpRead, hc, hm, CpRes.bind, List.flatMap_cons, List.flatMap_nil, List.append_nil, State.home]
  rfl
theorem slotRead_zeros {n len : Nat} (pa : Nat)
    (hm : (Ssl 2).mapCp 0 { r := true } (pieces (Tsl.savePtr + slotOffset ((Ssl 2).slotSizesOf Tsl) n) len) = .ok [(pa, len)])
    (hz : ∀ e ∈ slotCells 2, e.1 < pa ∨ pa + len ≤ e.1) : slotRead n len = .ok (List.replicate len 0) := by
  rw [slotRead_of pa hm, Sparse.read_outside hz]
theorem ofLE_zeros (n : Nat) : ofLE (List.replicate n (0 : Byte)) = 0 := by
  induction n with
  | zero => rfl
  | succ n ih => rw [List.replicate_succ, ofLE, ih]; rfl
theorem slot_engine : engineOk (List.replicate 36864 0) = true := by
  simp only [engineOk, leField, List.drop_replicate, List.take_replicate, ofLE_zeros, Bool.and_eq_true, List.all_eq_true, List.mem_range,
    beq_self_eq_true, and_true]
  intro k hk
  rw [show min 128 (36864 - 128 * k) = 128 by omega]
  exact (by decide +kernel : ∀ b, cmdOk b (List.replicate 128 0) = true) _
theorem slot_task : taskOk (List.replicate 8192 0) = true := by
  simp only [taskOk, zeros, leField, List.drop_replicate, List.take_replicate, ofLE_zeros]
  decide +kernel
def slotUniform : List Byte :=
  List.replicate 512 0 ++ ([68, 0, 0, 0, 0, 0, 0, 0, 128] ++ (List.replicate 907 0 ++ ([3] ++ (List.replicate 115 0 ++ ([1] ++
    (List.replicate 15 0 ++ ([24] ++ List.replicate 487 0)))))))
theorem slot_uniform : slotRead 2 2048 = .ok slotUniform ∧ uniformOk slotUniform = true := by
  refine ⟨?_, by decide +kernel⟩
  rw [slotRead_of 0x220100 (by decide +kernel), show 2048 = 512 + (9 + (907 + (1 + (115 + (1 + (15 + (1 + 487))))))) by rfl]
  simp only [Sparse.read_append]
  rw [Sparse.read_outside (a := 0x220100) (by decide +kernel), Sparse.read_outside (n := 907) (by decide +kernel),
    Sparse.read_outside (n := 115) (by decide +kernel), Sparse.read_outside (n := 15) (by decide +kernel), Sparse.read_outside (n := 487) (by decide +kernel)]
  decide +kernel
def slotThread : List Byte := [68, 0, 0, 0, 0, 0, 0, 0, 128, 1] ++ (List.replicate 858 0 ++ ([3] ++ List.replicate 283 0))
theorem slot_thread : slotRead 5 1152 = .ok slotThread ∧ threadOk Tsl.entry.rcd.regWords (slotThread.take 1152) = true := by
  refine ⟨?_, by decide +kernel⟩
  rw [slotRead_of 0x22B900 (by decide +kernel), show 1152 = 10 + (858 + (1 + 283)) by rfl]
  simp only [Sparse.read_append]
  rw [Sparse.read_outside (n := 858) (by decide +kernel), Sparse.read_outside (n := 283) (by decide +kernel)]
  decide +kernel
theorem slot_others : headerOk (Sparse.read 0 (slotCells 2) 0x220080 128) ((Ssl 2).slotHeader Tsl 2) = true ∧ Tsl.mergeOk (List.replicate 64 0) = true
    ∧ recordBytes Tsl.entry.rcd * Tsl.threads.length = 1152 ∧ ((Ssl 2).slotSizesOf Tsl).getD 7 0 = 0 ∧ ((Ssl 2).slotSizesOf Tsl).getD 8 0 = 0
    ∧ slotRead 7 0 = .ok [] ∧ slotRead 8 0 = .ok [] ∧ slotRead 9 0 = .ok [] ∧ slotRead 10 0 = .ok [] := by decide +kernel
theorem slot_read : ∃ t, (Ssl 2).readSlot Tsl = .ok (.ok t) :=
  let ⟨hd, hm, e5, e7, e8, r7, r8, r9, r10⟩ := slot_others
  State.readSlot_ok rfl rfl rfl e5 e7 e8 rfl slotRead rfl (slotRead_of 0x220080 (by decide +kernel)) hd slot_uniform.1 slot_uniform.2
    slot_thread.1 slot_thread.2 (slotRead_zeros 0x220900 (by decide +kernel) (by decide +kernel)) slot_task
    (slotRead_zeros 0x222900 (by decide +kernel) (by decide +kernel)) slot_engine
    (slotRead_zeros 0x235DC0 (by decide +kernel) (by decide +kernel)) hm (by decide +kernel) r7 r8 r9 r10
theorem witness_Scheduling_restores :
    (Ssl 1).cpWrite Tsl.entry.ctx (Tsl.savePtr + 132) [2] true = .ok (Ssl 2) ∧ (Ssl 2).poison = []
    ∧ (∃ t, (Ssl 2).readSlot Tsl = .ok (.ok t) ∧ t.entry.id = Tsl.entry.id)
    ∧ ∃ s2, (Ssl 2).cpWrite Tsl.entry.ctx (Tsl.savePtr + 132) [0] true = .ok s2 ∧ (s2.task? Tsl.entry.id).isSome = true :=
  let ⟨t, ht⟩ := slot_read
  ⟨by decide +kernel, by decide, ⟨t, ht, State.readSlot_id ht⟩, (Ssl 0).setHome 0x220084 [0], by decide +kernel, by decide +kernel⟩
/-- The machine with the second page of context 0 not present, for its queue table, or for the status records of its queue. -/
def pendPage (s : State) : State := s.setHome 0x50008 (leBytes 8 (2 ^ 63 + 2))
def Spq : State := { pendPage (Sp 1 []) with ctxs := [(0, { demoCtx with queueTab := 0x10000 })] }
theorem witness_HostInterface_unchecked :
    Spq.ctx? 0 = some { demoCtx with queueTab := 0x10000 } ∧ 0 < ({ demoCtx with queueTab := 0x10000 } : Ctx).nQueues
    ∧ Spq.cpRead 0 0x10000 64 = .pend { va := 0x10000, write := false, engine := true } := by decide +kernel
def Sps (packet : List Byte) : State := pendPage ((Sp 1 packet).setHome 0x201020 (leBytes 8 0x10000))
theorem witness_Packets_refused :
    NextPacket 0 0 { demoCtx with queues := [(0, { doorbell := 1 })] } ((Sps []).home 0x201000 64) ((Sps []).home 0x204000 128) (Sps [])
    ∧ leField ((Sps []).home 0x204000 128) 0 1 = 0
    ∧ ((Sps []).modQueue 0 0 (fun x => { x with packet := some ((Sps []).home 0x204000 128) })).report 0 0
        (queueDesc ((Sps []).home 0x201000 64)).read 2 0 false = .pend { va := 0x10000, write := true, engine := true } :=
  ⟨nextPacket_of (by decide) (by decide) (by decide) (by decide) (by decide +kernel) (by decide +kernel) (by decide +kernel) (by decide +kernel),
   by decide +kernel, by decide +kernel⟩
theorem witness_Packets_signal :
    (Sp 1 []).cpRead 0 0x1000 64 = .ok ((Sp 1 []).home 0x201000 64)
    ∧ (∃ s1, (Sp 1 []).cpWrite 0 ((queueDesc ((Sp 1 []).home 0x201000 64)).statusAt 0) (leBytes 8 0 ++ leBytes 4 0 ++ leBytes 4 0) = .ok s1)
    ∧ (Sp 1 []).translateCp 0 0x9000 { r := true, w := true } = .ok 0x209000 false
    ∧ (Sp 1 []).translateCp 0 0x20000 { r := true, w := true } = .fault
    ∧ ∃ s1, (Sp 1 []).cpWrite 0 ((queueDesc ((Sp 1 []).home 0x201000 64)).statusAt 0) (leBytes 8 0 ++ leBytes 4 0 ++ leBytes 4 1) = .ok s1 :=
  ⟨by decide +kernel, ready_ok (by decide +kernel), by decide +kernel, by decide +kernel, ready_ok (by decide +kernel)⟩
theorem witness_TrapDelivery_frame :
    (Tpend 0x44).resident = true ∧ (Tpend 0x44).waits = none ∧ (Tpend 0x44).u.ag.parked = none
    ∧ (match ((S none (Tpend 0x44)).writeBackAll 0).cpWrite 0 0x8000 (List.replicate 128 0) true with
       | .ok s1 => decide (((s1.dropClean 0).checkTarget (Tpend 0x44) 0x44).1 = .pass) && decide (((s1.dropClean 0).checkTarget (Tpend 0x48) 0x48).1 = .bad)
       | _ => false) = true := by decide +kernel
/-- A line that breaks a parity, its second copy due. -/
def Sbroken : State := ((S none T).setHome 0x200044 [1]).modCore 0 (fun c => { c with refetch := [0x200040] })
theorem witness_LineChecks_second :
    ∃ s1, Sbroken.readLine T 0x44 = (.ok 0x200040 (Sbroken.home 0x200040 64), s1) ∧ (s1.core 0).refetch.contains 0x200040 = true := by
  obtain ⟨s1, h⟩ := some_state (p := Sbroken.readLine T 0x44) (x := .ok 0x200040 (Sbroken.home 0x200040 64)) (by decide +kernel)
  refine ⟨s1, h, ?_⟩
  have : s1 = (Sbroken.readLine T 0x44).2 := by rw [h]
  rw [this]
  decide +kernel
theorem witness_UnitsAndStartup_starting :
    ({ State.reset with power := .starting 3, agenda := [.tick 0, .event .thermalTrip] } : State).agenda = [.tick 0, .event .thermalTrip]
    ∧ isThermal .thermalTrip = true ∧ isThermal (.startup true true) = false := by decide
theorem witness_UnitsAndStartup_slot :
    (Ssl 1).task? 1 = some Tsl ∧ Tsl.resident = false ∧ unitExists .channel 383 = true ∧ unitExists .cacheWay 196607 = true := by decide
theorem witness_Scheduling_waits :
    (((S none T).modCore 1 (fun c => { c with waits := some (0, { va := 0x10000, write := true, engine := true }) })).core 1).waits.isSome = true
    ∧ ((S none T).core 1).deque = [] ∧ ((S none T).core 1).spilled = 0 := by decide
theorem witness_TreesStartAndEnd_queue : ∃ qd, (Sl (pkt 0)).readQueue 0 0 = .packet (Sl (pkt 0)) qd [] :=
  ⟨queueDesc ((Sl (pkt 0)).home 0x201000 64), by decide +kernel⟩
/-- Ranges that a command of the engines reads, and one that it writes. -/
theorem witness_CopyEngines_bytes :
    ∃ bs s2, BytesRead { Acc.ofTask T none with checked := true, engine := true } [(0x200, 4), (0x100, 4)] (S none T) bs s2 ∧ bs.length = 8 := by
  let a : Acc := { Acc.ofTask T none with checked := true, engine := true }
  let segs : List Seg := [{ va := 0x200, pa := 0x200200, n := 4, watched := false }, { va := 0x100, pa := 0x200100, n := 4, watched := false }]
  obtain ⟨s1, h1⟩ := some_state (p := (S none T).mapAll a { r := true } [(0x200, 4), (0x100, 4)]) (x := .ok segs) (by decide +kernel)
  have e : s1 = ((S none T).mapAll a { r := true } [(0x200, 4), (0x100, 4)]).2 := by rw [h1]
  obtain ⟨s2, h2⟩ := some_state (p := s1.readSegs a segs) (x := .ok (List.replicate 8 0)) (by rw [e]; decide +kernel)
  exact ⟨_, s2, ⟨segs, s1, h1, h2⟩, List.length_replicate⟩

/-! ### Witnesses of clauses on accesses passed over, returns from traps, merges, grants and saves -/

/-- st.w64 [s2], s2, in a uniform stream whose s2 holds 0x100, and the word of it at 0x44. -/
def fSt : Fields := F true 0 2 0 2 0xB0
def Slate : State := { (S none (Tv 0x100)).setHome 0x200040 (mkLine [(encode (.st fSt)).getD 0] 1) with agenda := [.rotateLate 0 []] }
theorem witness_StepRunsInstruction_late :
    (withAgenda [] Slate).chosenStream 0 [] = (some (Tv 0x100), []) ∧ Slate.task? 1 = some (Tv 0x100) ∧ Slate.gated 0 = false
    ∧ (lateMeaning (decode ((encode (.st fSt)).getD 0))).isSome = true ∧ (lateMeaning (.st fSt)).isSome = true
    ∧ ∃ s1, (withAgenda [] Slate).fetchFor { task := 1 } = (.word ((encode (.st fSt)).getD 0) false, s1) :=
  ⟨by decide +kernel, by decide, by decide, by decide, by decide, some_state (by decide +kernel)⟩
/-- A thread that passes over a store of its bundle. -/
def fStx : Fields := F false 0 2 0 2 0x90
def SlateX : State :=
  { ((S none (Tr [(2, 0x100)] [])).modCore 0 (fun k => { k with bundles := [{ task := 1, threads := [0] }] })).setHome 0x200040
      (mkLine [(encode (.st fStx)).getD 0] 1) with agenda := [.issueLate 0 []] }
theorem witness_StepRunsInstruction_late_bundle :
    let s := SlateX
    let t := Tr [(2, 0x100)] []
    (withAgenda [] s).chosenBundle 0 [] = some 0 ∧ s.task? 1 = some t ∧ [0].filter t.canIssue = [0]
    ∧ (let p := (withAgenda [] s).fetchFor { task := 1, thread := some 0 }
       (match p.1 with | .word w c => decide (w = (encode (.st fStx)).getD 0) && !c | _ => false) = true
       ∧ (match lateMeaning (decode ((encode (.st fStx)).getD 0)) with
          | some g => (match g (((p.2.noteIssue 0 1 (t.thread 0).ag.pc.toNat [0]).turn { task := 1, uniform := false, threads := [0] }).settlePassing
              (decode ((encode (.st fStx)).getD 0))) with | .next _ => true | _ => false)
          | none => false) = true) := by decide +kernel
/-- A uniform stream that has passed over the store of eight bytes at 0x100. -/
def lateSt : Late :=
  { acc := Acc.ofTask T none, seg := { va := 0x100, pa := 0x200100, n := 8, watched := false }, op := .store (leBytes 8 0x1122334455667788) }
def Tlate : Machine.Task := { T with u := { T.u with ag := { pc := 0x44, late := [lateSt] } } }
def Sperf : State := { S none Tlate with agenda := [.perform 1 none 0] }
theorem witness_StepRunsInstruction_perform :
    Sperf.power = .running ∧ Sperf.agenda = [.perform U.task U.thread 0] ∧ Sperf.task? 1 = some Tlate ∧ (Tlate.agent none).late = [lateSt]
    ∧ (leBytes 8 0x1122334455667788).length = lateSt.seg.n ∧ lateSt.seg.watched = false ∧ lateSt.acc.order < 2 ∧ L1Sound Sperf lateSt.acc.cl :=
  ⟨by decide, rfl, by decide, rfl, by decide, rfl, by decide, l1Sound_of_empty (by decide)⟩
/-- 11 R274: the store is seen once it is performed, and not before. -/
theorem test_perform_store :
    seen Sperf 0 0x200100 = 0 ∧ (match step Sperf with | .next s => decide (seen s 0 0x200100 = 0x88 ∧ seen s 0 0x200107 = 0x11) | _ => false) = true := by
  decide +kernel

theorem witness_TrapReturn_entry :
    onTask (Thd { cause := 5, tid := 0, pc := 0x44, entry := true }) (.trapret (F true 0 0 0 0 0 0)) = true
    ∧ onTask (Thd { cause := 5, uniform := true, pc := 0x44, entry := true }) (.trapret (F true 0 0 0 0 0 0)) = true := by decide
/-- T whose handler is active for a trap of its thread, which has these sealed batches. -/
def Tkill (l : List Batch) : Machine.Task :=
  { T with handler := some { trap := { cause := 8, tid := 0, pc := 0x44 }, upc := 0x50, s1 := 9, block := {} },
           threads := [{ ag := { pc := 0x44, closed := l, pending := some { cause := 8, tid := 0, pc := 0x44 } } }] }
theorem witness_TrapReturn_kill :
    onTask (Tkill []) (.trapret (F true 0 0 0 0 0 2)) = true ∧ ((Tkill []).thread 0).ag.opened.joined = 0 ∧ ((Tkill []).thread 0).ag.closed = []
    ∧ onTask (Tkill [{ ord := 0, joined := 1, undone := 1 }]) (.trapret (F true 0 0 0 0 0 2)) = true
    ∧ ((Tkill [{ ord := 0, joined := 1, undone := 1 }]).thread 0).ag.closed ≠ [] := by decide

theorem witness_Spawning_sound : (S none (Tv 5)).recordTainted (Tv 5).entry.ctx (demoTree 1).code 5 = false := by decide
theorem witness_Joining_sound :
    (S none (Tc .sync 0)).chunksTainted 0 (T.views.flatMap (fun v : View => v.chunks) ++ T.preChunks) = false
    ∧ (S none (Tc .sync 0)).putPreViews 0 (demoTree 1).level T.views T.preChunks = .ok (S none (Tc .sync 0)) := ⟨by decide, rfl⟩
theorem witness_Allotments_grant :
    (Ta 4 128).waits = none ∧ (Sacq (Ta 4 128)).chunksTainted 0 (Ta 4 128).preChunks = false
    ∧ (Sacq (Ta 4 128)).readChunks 0 (Ta 4 128).preChunks = .ok () ∧ (Ta 4 128).allot.regs < 32 := ⟨rfl, by decide, rfl, by decide⟩

theorem witness_HostInterface_gap :
    (let s : State := { State.reset with out := [{ cls := .channel, number := channelNumber 0x100 }] }
     s.exists? 0x100 = false ∧ s.out ≠ []) ∧ (∀ k, k < 8 → State.reset.exists? (0x100 + k) = true) := by
  refine ⟨⟨?_, nofun⟩, by decide⟩
  simp [State.exists?, State.channelOut, hbmBytes, gib]
theorem witness_Scheduling_drain (t : Machine.Task) (h : t = { T with drain := some 100 } ∨ t = { T with drain := some 100, restarting := true }) :
    (S none t).task? 1 = some t ∧ t.resident = true ∧ (t.saving = false ∨ t.waits = none) := by
  rcases h with rfl | rfl <;> decide
theorem witness_Scheduling_collected : (S none Tsave).collecting Tsave = false ∧ T.saving = false ∧ (S none T).poison = [] := by decide
theorem witness_UnitsAndStartup_recorded :
    (let s : State := { Sup with power := .starting 3, flash := updAt Sup.flash 2 (fun _ => { outcome := 4, method := 1 }) }
     s.power = .starting 3 ∧ s.flash.length = 9 ∧ (s.flash.getD (3 - 1) {}).method = 1) := by decide

/-! ### Witnesses of clauses on call spills, versioned tiles, collectors, queues and units -/

/-- T, with a small slot at address 0, whose thread 0 has the given return stack, four of its addresses spilled n times. -/
def Tspill (l : List W64) (n : Nat) : Machine.Task :=
  { T with savePtr := 0, threads := [{ ag := { pc := 0x44, stack := l, spilled := 4 * n } }],
           entry := { T.entry with rcd := { regs := 24 } } }
/-- The same, in a page of 2 MiB. -/
def Sspill (t : Machine.Task) : State := (S (some 0) t).setHome 0x40000 (leBytes 8 0x20001F)
def spillsOn (t : Machine.Task) : Bool :=
  let a := Acc.ofTask t (some 0)
  let s := Sspill t
  let s1 := (s.checkTarget t 0x44).2
  decide ((s.checkTarget t 0x44).1 = .pass) && decide (s1.ctx? 0 = some demoCtx) && decide (8 ≤ (t.agent (some 0)).stack.length)
  && (match s1.mapRange a {} (pieces (s1.spillArea t (some 0) + 8 * (t.agent (some 0)).spilled) 32) with
      | (.ok segs, s2) => (match s2.writeSegs a segs (((t.agent (some 0)).stack.take 4).flatMap (fun v => leBytes 8 v.toNat)) with | .ok _ => true | _ => false)
      | _ => false)
theorem witness_ControlTransfers_spill :
    turns (.callx (F false 0 2 0 0)) (F false 0 2 0 0) W0 (Tspill (List.replicate 8 0x50) 0) (Sspill (Tspill (List.replicate 8 0x50) 0)) = true
    ∧ turns (.call (F false 0 0 0 0)) (F false 0 0 0 0) W0 (Tspill (List.replicate 8 0x50) 2) (Sspill (Tspill (List.replicate 8 0x50) 2)) = true
    ∧ spillsOn (Tspill (List.replicate 8 0x50) 0) = true ∧ spillsOn (Tspill (List.replicate 8 0x50) 1) = true
    ∧ 8 * 4 + 32 ≤ demoCtx.callSpill ∧ demoCtx.callSpill < 8 * 8 + 32
    ∧ 0 ≤ slotTarget (F false 0 0 0 0) W0 (Tspill [] 0) ∧ addrOfSlot (slotTarget (F false 0 0 0 0) W0 (Tspill [] 0)).toNat = 0x44 := by decide +kernel
theorem witness_ControlTransfers_reload :
    let t := Tspill [] 1
    let s := Sspill t
    Turn (.ret (F false 0 0 0 0)) (F false 0 0 0 0) W0 t s ∧ (t.agent (some 0)).stack = [] ∧ 4 ≤ (t.agent (some 0)).spilled
    ∧ (match s.mapRange (Acc.ofTask t (some 0)) { r := true } (pieces (s.spillArea t (some 0) + 8 * (4 - 4)) 32) with
       | (.ok segs, s1) => (match s1.readSegs (Acc.ofTask t (some 0)) segs with
          | (.ok bs, _) => decide (fourOf bs = [0, 0, 0] ++ [0]) && !(isSlotAddr 0)
          | _ => false)
       | _ => false) = true
    ∧ canonicalVa 0x50 = true ∧ isSlotAddr 0x50 = true ∧ isSlotAddr 0x51 = false :=
  ⟨turn_of_turns (by decide), by decide, by decide, by decide +kernel, by decide, by decide, by decide⟩

/-- A tile object of 2 × 4 FP32 elements at 0x100 with the given version, read and written by TLD.v and TST.all. -/
def Sobj (i : Instr) (c : Cmd) (version : Nat) : State :=
  (S none (Tmq i c)).setHome 0x200100 (leBytes 8 version ++ leBytes 4 1 ++ [2, 4, 4, 0])
def versioned (i : Instr) (c : Cmd) (store : Bool) (version : Nat) : Bool :=
  let t := Tmq i c
  let s := Sobj i c version
  let x := { c with word := (encode i).getD 0 }
  let a : Acc := { x.matAcc t x.fields store with checked := false, scope := 4, order := 0 }
  decide (s.task? 1 = some t) && t.resident && !s.gated t.cluster && s.mayRun t && decide (decode x.word = i)
  && bitAt x.fields.mod.toNat 5 && !bitAt x.fields.mod.toNat 6
  && (if store then match s.mapAll a { r := true, w := true } [(signedOf 64 c.maddr, 8)] with
      | (.ok v, s1) => (match s1.mapAll a { w := true } [(signedOf 64 c.maddr, 64 + 32)] with
        | (.ok segs, s2) => (match (s2.homeSegs segs).readSegs a v with
          | (.ok h, s3) => decide (ofLE h = version)
              && (match ((s3.releaseAt t.cluster 0).acquireAt t.cluster 0).writeSegs a segs (List.replicate 96 0) with | .ok _ => true | _ => false)
          | _ => false)
        | _ => false)
      | _ => false
     else match s.homeRead a [(signedOf 64 c.maddr, 8), (signedOf 64 c.maddr + 12, 4)] with
      | (.ok h, s1) => decide (h.length = 12 ∧ ofLE (h.take 8) = version ∧ descField h 8 1 = 2 ∧ descField h 9 1 = 4 ∧ descField h 10 1 = 4)
          && (match (s1.acquireAt t.cluster 0).homeRead a [(signedOf 64 c.maddr + 64, 32)] with | (.ok bs, _) => decide (bs.length = 32) | _ => false)
      | _ => false)
theorem witness_MatrixEngine_versions :
    [0, 1].all (fun v => versioned (.tld (F true 1 2 0 0 0x20)) { cfgD := cfgOf Tm false 1, maddr := 0x100, step := 63 + v } false v
      && versioned (.tst (F true 2 1 0 0 0x20)) { cfgA := cfgOf Tm false 1, maddr := 0x100, step := 63 + v } true v) = true
    ∧ (cfgOf Tm false 1).ok false = true ∧ (cfgOf Tm false 1).rows = 2 ∧ (cfgOf Tm false 1).cols = 4 ∧ (cfgOf Tm false 1).width = 4
    ∧ (cfgOf Tm false 3).cols = 2 ∧ Tm.fault = none := by decide +kernel
theorem witness_MatrixEngine_versions_fault :
    (let i := Instr.tst (F true 2 1 0 0 0x20)
     let c : Cmd := { cfgA := cfgOf Tm false 1, maddr := 0xFFC0 }
     let a : Acc := { c.matAcc (Tmq i c) (F true 2 1 0 0 0x20) true with checked := false, scope := 4, order := 0 }
     match (Sobj i c 0).mapAll a { r := true, w := true } [(0xFFC0, 8)] with
     | (.ok _, s1) => (match s1.mapAll a { w := true } [(0xFFC0, 64 + 32)] with | (.error e, _) => decide (e = .fault 0x10000) | _ => false)
     | _ => false) = true := by decide +kernel

theorem witness_CopyEngines_parked :
    (∀ x ∈ scatReq :: List.replicate 255 scatReq, x.parked = none) ∧ (∀ g ∈ (Sgath.core 0).collector, g.parked = none)
    ∧ ∀ g ∈ ((S none T).modCore 0 (fun c => { c with collector := [{ scatReq with parked := some 0x10000 }] }) |>.core 0).collector, g.parked.isSome = true := by
  refine ⟨?_, by decide, by decide⟩
  intro x hx
  rcases List.mem_cons.1 hx with rfl | h
  · rfl
  · rw [List.eq_of_mem_replicate h]; rfl
theorem witness_HostInterface_kept :
    (Sp 1 [] { doorbell := 1, unchecked := some 16 }).ctx? 0 = some { demoCtx with queues := [(0, { doorbell := 1, unchecked := some 16 })] }
    ∧ (∃ bs, (Sp 1 [] { doorbell := 1, unchecked := some 16 }).cpRead 0 0x1000 64 = .ok bs)
    ∧ (let bs := (Sp 1 []).home 0x201000 64; (16 : Nat) ≤ leField bs 24 8 + 2 ^ leField bs 8 1) := ⟨by decide, ready_ok (by decide +kernel), by decide +kernel⟩
/-- R379: a smaller value rung later leaves the largest that waited. -/
theorem test_doorbell_kept :
    (match exec (.queueDoorbell 0 0 9) (Sp 1 [] { doorbell := 1, unchecked := some 12 }) with
     | .next s => (s.ctx? 0).map (fun c => ((c.queue 0).doorbell, (c.queue 0).unchecked))
     | _ => none) = some (12, none) := by decide +kernel

/-- A determinism packet of level 2 whose trace buffer stands at 0x6000, and the buffer's header. -/
def tracePacket (bind : Nat) (level : Nat := 2) : List Byte := leBytes 8 (3 + 2 ^ 16 * level + 2 ^ 24 * bind) ++ leBytes 8 0x6000
def Strace (packet header : List Byte) : State := (Sp 1 packet).setHome 0x206000 header
def traceOn (packet header : List Byte) : Bool :=
  let s := Strace packet header
  let bs := s.home 0x204000 128
  let s1 := s.modQueue 0 0 (fun x => { x with packet := some bs })
  decide (s.cpRead 0 0x1000 64 = .ok (s.home 0x201000 64)) && decide (s.cpRead 0 0x4000 128 = .ok bs)
  && decide (leField bs 0 1 = 3 ∧ leField bs 1 1 = 0 ∧ leField bs 3 1 ≤ 1 ∧ leField bs 4 4 = 0 ∧ leField bs 16 112 = 0 ∧ leField bs 8 8 = 0x6000)
  && decide (s1.cpRead 0 0x6000 128 = .ok (s.home 0x206000 128))
  && (match s1.cpWrite 0 (0x6000 + 24) (leBytes 1 2 ++ List.replicate 7 0 ++ leBytes 72 (s1.partitionMap 0)) with | .ok _ => true | _ => false)
def traceHead : List Byte := leBytes 8 0x33585452 ++ leBytes 8 16
theorem witness_Packets_trace :
    traceOn (tracePacket 0) traceHead = true ∧ traceOn (tracePacket 1) traceHead = true ∧ traceOn (tracePacket 0) [] = true
    ∧ (let h := (Strace (tracePacket 0) traceHead).home 0x206000 128
       leField h 0 4 = 0x33585452 ∧ leField h 4 4 ≤ 1 ∧ leField h 8 8 ≠ 0 ∧ leField h 25 7 = 0 ∧ leField h 104 24 = 0 ∧ leField h 16 8 = 0 ∧ leField h 24 1 = 0
       ∧ leField h 32 72 = 0)
    ∧ leField ((Strace (tracePacket 0) []).home 0x206000 128) 0 4 ≠ 0x33585452 ∧ leField (tracePacket 0 4) 2 1 = 4 ∧ leField (tracePacket 1 1) 3 1 ≠ 0
    ∧ (S none T).clusters.map Prod.fst = [0] ∧ (S none T).partitionMap 0 = 1
    ∧ (Strace (tracePacket 0) []).cpRead 0 0x20000 128 = .fault ∧ (Sps []).cpRead 0 0x10000 128 = .pend { va := 0x10000, write := false, engine := true } := by
  decide +kernel

/-- A sweep launch of one tile, over a code object whose record 0 is a sweep task's. -/
def sweepPkt : List Byte := leBytes 8 2 ++ leBytes 8 0x800 ++ List.replicate 100 0 ++ leBytes 8 0x100000001 ++ leBytes 4 1
def Ssw : State := ((Sl sweepPkt).setHome 0x20081E [2]).setHome 0x200834 [1, 0, 1, 0, 1, 0]
def sweepTree : Option Tree :=
  match Ssw.launchPlan 0 0 { demoCtx with queues := [(0, { doorbell := 1, packet := some sweepPkt })] } 0 sweepPkt with
  | .ok (.ok r) => some r
  | _ => none
theorem witness_TreesStartAndEnd_sweepLaunch :
    (match sweepTree with | some r => r.sweep && decide (r.tiles = 1) && decide (∀ x ∈ Ssw.trees, x.id ≠ r.id) | none => false) = true
    ∧ (match Ssw.readQueue 0 0 with | .packet _ _ [] => true | _ => false) = true ∧ leField sweepPkt 0 1 = 2 ∧ launchOk sweepPkt = true
    ∧ Ssw.depsMet 0 sweepPkt = .ok true ∧ bitAt (leField sweepPkt 1 1) 1 = false ∧ Ssw.inPartition 3 0 = true ∧ (Ssw.cluster 0).inService = true := by
  decide +kernel
theorem witness_TreesStartAndEnd_due :
    (let r : Tree := { Rc 16 16 with counter := 0, walker := (Rc 16 16).tiles, due := some 0 }
     let s : State := { Sq none T 1 1 0 with trees := [r], tasks := [] }
     match r.cov with
     | some cov => decide (s.tree? 1 = some r ∧ r.reported = false ∧ r.waits = none ∧ r.ending = none ∧ r.tiles ≤ r.walker ∧ r.bindings = [] ∧ s.poison = []
         ∧ r.trace = none ∧ r.tag = none ∧ cov.record ≠ 0 ∧ r.tops = [])
       && (match s.cpWrite r.ctx (cov.record + 16 * 0) (r.bands.getD 0 {}).entry with
           | .ok s2 => ready ((s2.modTree 1 (fun x => { x with ending := some 0, tops := [] })).report r.ctx r.queue r.index 0 r.signal r.intr)
           | _ => false)
     | none => false) = true := by decide +kernel
/-- R322, step 3: the record of the last band is written at the completion, before the status. -/
theorem test_band_record :
    (match exec (.treeComplete 1) { Sq none T 1 1 0 with tasks := [], trees := [{ Rc 16 16 with counter := 0, walker := (Rc 16 16).tiles, due := some 0 }] } with
     | .next s => (s.home 0x203000 4, s.trees.length)
     | _ => ([], 9)) = ([64, 0, 0, 0], 0) := by decide +kernel
/-- Commands of SERVICE_UNIT on units of every class. -/
def unitBlock (cls n act : Nat) : List Byte := block [(8, 8), (8, cls + n * 2 ^ 32), (8, act)]
def unitOn (cls n act : Nat) : Bool :=
  match (Sm (unitBlock cls n act)).command 7 8, unitOfCode cls with
  | some b, some c => decide (leField b 8 2 = cls ∧ leField b 12 4 = n ∧ leField b 16 1 = act) && unitExists c n && !(Sm []).unitOut c n
  | _, _ => false
theorem witness_UnitCommands_units :
    [(1, 575), (2, 6143), (3, 196607), (4, 383), (5, 767), (6, 4294967295), (7, 2)].all (fun p => unitOn p.1 p.2 1 && unitOn p.1 p.2 2 && unitOn p.1 p.2 3 && unitOn p.1 p.2 4) = true
    ∧ (Sm []).exists? 0 = true ∧ (Sm []).exists? (2 ^ 51) = false ∧ unitExists .cluster 576 = false ∧ unitOfCode 1 = some .cluster
    ∧ (∀ k, k < 4 → ((Sm []).core (4 * 575 + k)).deque = []) ∧ (Sm []).tasks = []
    ∧ (let s : State := (Sm []).modCluster 575 (fun c => { c with inService := false })
       s.unitGone .cluster 575 = true ∧ s.unitOut .cluster 575 = true)
    ∧ (let s : State := { Sm [] with out := [{ cls := .channel, number := 3, awaits := true }] }
       s.unitGone .channel 3 = false ∧ s.unitOut .channel 3 = true)
    ∧ ({ Sm [] with mgmt := some { tag := 7, block := unitBlock 1 575 2, begun := true } } : State).command 7 8 = (Sm (unitBlock 1 575 2)).command 7 8 := by
  decide +kernel
theorem witness_UnitsAndStartup_clear :
    (let s : State := (({ State.reset with power := .starting 8 } : State).modDie 2 (fun d => { d with postmarkGiB := 21 })).setHome (3 * dieBytes - 1) [7]
     s.power = .starting 8 ∧ s.flash.length = 9 ∧ (s.flash.getD 7 {}).method = 0 ∧ s.postmarkBase 2 ≤ 3 * dieBytes - 1
     ∧ 3 * dieBytes - 1 < s.postmarkBase 2 + (s.die 2).postmarkGiB * gib ∧ s.postmarkBase 0 + (s.die 0).postmarkGiB * gib ≤ 3 * dieBytes - 1) := by decide +kernel
/-- R431, step 8: a byte of a postmark region reads zero, and one below it stands. -/
theorem test_startup_clears :
    (match exec (.startup true true) ((({ State.reset with power := .starting 8 } : State).modDie 2 (fun d => { d with postmarkGiB := 1 })).setHome
        (3 * dieBytes - gib - 1) [7, 9]) with
     | .next s => (Sparse.get 0 s.mem (3 * dieBytes - gib - 1), Sparse.get 0 s.mem (3 * dieBytes - gib))
     | _ => (0, 1)) = (7, 0) := by decide +kernel

/-- The thread's load of 4 bytes at 0x100 into x4 has been passed over. -/
def lateLd : Late :=
  { acc := Acc.ofTask T (some 0), seg := { va := 0x100, pa := 0x200100, n := 4, watched := false }, op := .load 4 1 0 none }
def Sslow : State :=
  let t : Machine.Task := { Tr [(4, 7)] [] with threads := [{ ag := { pc := 0x44, late := [lateLd] } }] }
  (S (some 0) t).setHome 0x200100 [40]
/-- R274: an addition of the value of a load passed over is passed over too; the load is still to come, and the sum is written with it. -/
theorem test_computation_passed :
    (match passCompute (.iaddImm (F false 5 4 0 0 0 2)) (execIaddImm (F false 5 4 0 0 0 2)) Sslow with
     | .next s =>
       let s' := s.settleAgent W0
       ((s.agent W0).late.length, (s.agent W0).slow.length, (s.agent W0).pc, (s'.agent W0).slow.length, (s'.task? 1).map (fun t => t.reg (some 0) 5))
     | _ => (9, 9, 0, 9, none)) = (1, 1, 0x50, 0, some 42) := by decide +kernel

/-! ### Words printed in the sections of spec/, and one built for each space that prints none -/

/-- FADD x4, x2, x2 and EXIT of the assembled task of 04. -/
theorem test_decode_fadd : decode 0x04000802_01000100_00000000 = .fadd (F false 4 2 2 0) := by decide
theorem test_decode_exit : decode 0x10000000_00000700_00000000 = .exit (F false 0 0 0 0) := by decide
/-- NOP and PBLK p3, count 4, pattern 0b0011, of 03. -/
theorem test_decode_nop : decode 0x10000000_00000900_00000000 = .nop (F false 0 0 0 0) := by decide
theorem test_decode_pblk : decode 0x10000000_0000061B_00000003 = .pblk (F false 0 0 0 0 0x1B 3) := by decide
/-- icmp.le of an immediate, of 06; isel of an immediate, of 18. -/
theorem test_decode_icmp : decode 0x02000406_00001C05_00000064 = .icmpImm (F false 2 6 0 0 5 100) := by decide
theorem test_decode_isel : decode 0x02004022_00005B00_00000000 = .iselImm (F false 32 34 0 1) := by decide
/-- cvt8.f32.sfor x17, x13, x16 and accrd h0, a1, 0, of 18. -/
theorem test_decode_cvt8 : decode 0x0600220D_00040448_00000000 = .cvt8 (F false 17 13 0 16 0x48) := by decide
theorem test_decode_accrd : decode 0x41000001_00000840_00000000 = .accrd (F true 0 1 0 0 0x40) := by decide
/-- qswap.x1 x5, x4, by R67 and R149: MAJOR 0x04, MINOR 1, D 5, A 4, MOD 1. -/
theorem test_decode_qswap : decode 0x08000A04_00000101_00000000 = .qswap (F false 5 4 0 0 1) := by decide
/-- ld.w64.acq.die and hwait.ready, of 10; st.w64 of 19; ldh.w32 of 19. -/
theorem test_decode_ld : decode 0x20001002_028001AA_00000040 = .ld (F false 8 2 5 0 0xAA 64) := by decide
theorem test_decode_st : decode 0x21000010_000282A0_00000000 = .st (F true 0 16 0 10 0xA0) := by decide
theorem test_decode_ldh : decode 0x20001A00_03800880_00000000 = .ldh (F false 13 0 7 0 0x80) := by decide
/-- cpyg.q1.swz of 12, and cpy.q1.swz [s11], h1, s10, of 19. -/
theorem test_decode_cpyg : decode 0x31000604_03020321_00000100 = .cpyg (F true 3 4 6 8 0x21 256) := by decide
theorem test_decode_cpy : decode 0x31001601_05000161_00000000 = .cpy (F true 11 1 10 0 0x61) := by decide
/-- mma a1, m1, m2, a1, s5, of 07. -/
theorem test_decode_mma : decode 0x41000201_01004500_14000000 = .mma (F true 1 1 2 1 0 0x14000000) := by decide
/-- spawn s4, s6, s7, 2, of 13. -/
theorem test_decode_spawn : decode 0x51000806_03800100_00000001 = .spawn (F true 4 6 7 0 0 1) := by decide
/-- rand of 08, rand.x.k of 18, alloc s12, s13, 6 of 19. -/
theorem test_decode_rand : decode 0x52002810_00030403_00000000 = .rand (F false 20 16 0 12 3) := by decide
theorem test_decode_alloc : decode 0x5300180D_00000500_00000006 = .alloc (F true 12 13 0 0 0 6) := by decide
/-- xset.fadd.g2 x10, x11, xred.fadd x18 and xend x20, of 20. -/
theorem test_decode_xset : decode 0x5400000A_05800118_00000000 = .xset (F false 0 10 11 0 0x18) := by decide
theorem test_decode_xred : decode 0x54000012_00000308_00000000 = .xred (F false 0 18 0 0 8) := by decide
theorem test_decode_xend : decode 0x54002800_00000400_00000000 = .xend (F false 20 0 0 0) := by decide
/-- The two forms that MOD bit 0 tells apart (08 R209, 09 R235). -/
theorem test_decode_split :
    decode 0x52000000_00000501_00000000 = .allocCfg (F false 0 0 0 0 1) ∧ decode 0x57001004_00000101_00000000 = .cvqryBand (F true 8 4 0 0 1) := by decide
/-- csrrd and trapret of 16. -/
theorem test_decode_csrrd : decode 0x60001200_00000100_00000011 = .csrrd (F false 9 0 0 0 0 0x11) := by decide
/-- The bytes of IADD x4, x2, x3 in memory, and the line word of 03's example line. -/
theorem test_line :
    (mkLine [0x00000802_01800100_00000000, 0x10000000_00000900_00000000, 0x10000000_00000900_00000000, 0x10000000_00000900_00000000,
      0x10000000_00000900_00000000] 1).take 16
      = [0x01, 0x00, 0x00, 0x7C, 0x00, 0x00, 0x00, 0x00, 0x00, 0x01, 0x80, 0x01, 0x02, 0x08, 0x00, 0x00] := by decide
/-- An unassigned MINOR, and a MAJOR kept for later (R82). -/
theorem test_decode_unassigned :
    decode 0x00000000_0000FF00_00000000 = .unassignedOpcode 0x00000000_0000FF00_00000000
    ∧ decode 0xC0000000_00000100_00000000 = .unassignedOpcode 0xC0000000_00000100_00000000 := by decide

/-! ### Ill-formed terms, one for each check of `Instr.wellFormed` -/

theorem test_wellFormed : (Instr.iadd (F false 4 2 3 0)).wellFormed = true := by decide
theorem test_illFormed_executor : (Instr.fadd (F true 4 2 3 0)).wellFormed = false := by decide
theorem test_illFormed_d : (Instr.iadd (F true 64 2 3 0)).wellFormed = false := by decide
theorem test_illFormed_pair : (Instr.iadd (F false 4 2 3 0 0x80)).wellFormed = false := by decide
theorem test_illFormed_unused : (Instr.iadd (F false 4 2 3 1)).wellFormed = false := by decide
theorem test_illFormed_mod : (Instr.iadd (F false 4 2 3 0 1)).wellFormed = false := by decide
theorem test_illFormed_imm : (Instr.iadd (F false 4 2 3 0 0 1)).wellFormed = false := by decide
theorem test_illFormed_la : (Instr.iadd { F false 4 2 3 0 with la := 1 }).wellFormed = false := by decide
theorem test_illFormed_ret : (Instr.tzero { F true 1 0 0 0 with ret := 1 }).wellFormed = false := by decide
theorem test_illFormed_split : (Instr.alloc (F true 1 2 0 0 1)).wellFormed = false := by decide
theorem test_illFormed_fields : (Instr.unassignedOpcode 0).wellFormed = false := by decide

/-! ### Values from the tables and examples of spec/ -/

/-- What thread 0 holds in a register after an instruction on T with the given registers. -/
def after (i : Instr) (x : Sparse W32) (r : Nat) : Option Nat :=
  match exec i (S (some 0) (Tr x [])) with
  | .next s => (s.task? 1).map (fun t => t.reg (some 0) r)
  | _ => none

/-- The table of 06 R132. -/
theorem test_idiv_signed : after (.idiv (F false 4 2 3 0 1)) [(2, 0xFFFFFFF9), (3, 2)] 4 = some 0xFFFFFFFD := by decide +kernel
theorem test_irem_signed : after (.irem (F false 4 2 3 0 1)) [(2, 0xFFFFFFF9), (3, 2)] 4 = some 0xFFFFFFFF := by decide +kernel
theorem test_idiv_least : after (.idiv (F false 4 2 3 0 1)) [(2, 0x80000000), (3, 0xFFFFFFFF)] 4 = some 0x80000000 := by decide +kernel
theorem test_idiv_unsigned : after (.idiv (F false 4 2 3 0)) [(2, 0xFFFFFFF9), (3, 2)] 4 = some 0x7FFFFFFC := by decide +kernel
theorem test_idiv_zero : after (.idiv (F false 4 2 0 0)) [(2, 5)] 4 = some 0xFFFFFFFF := by decide +kernel
theorem test_irem_zero : after (.irem (F false 4 2 0 0 1)) [(2, 5)] 4 = some 5 := by decide +kernel
/-- R131, R133, R134 by hand: a wrapped sum, the sign of a field, and an extension from 0 bits. -/
theorem test_iadd_wraps : after (.iadd (F false 2 2 3 0)) [(2, 0xFFFFFFFF), (3, 2)] 2 = some 1 := by decide +kernel
theorem test_iadd_pair : after (.iadd (F false 4 2 6 0 0x80)) [(2, 0xFFFFFFFF), (6, 1)] 5 = some 1 := by decide +kernel
theorem test_bfx_signed : after (.bfxImm (F false 4 2 0 0 1 0x0404)) [(2, 0x000000F0)] 4 = some 0xFFFFFFFF := by decide +kernel
theorem test_bfx_position : after (.bfxImm (F false 4 2 0 0 0 0x0820)) [(2, 0xFFFFFFFF)] 4 = some 0 := by decide +kernel
theorem test_sext_zero : after (.sextImm (F false 4 2 0 0 0 32)) [(2, 0x80000001)] 4 = some 0x80000001 := by decide +kernel
theorem test_ishl_modulo : after (.ishlImm (F false 4 2 0 0 0 33)) [(2, 0x80000001)] 4 = some 2 := by decide +kernel
/-- FRCP of 3.0 and FDIV of 1.0 by 3.0 (06). -/
theorem test_frcp : after (.frcp (F false 4 2 0 0)) [(2, 0x40400000)] 4 = some 0x3EAAAAAA := by decide +kernel
theorem test_fdiv : after (.fdiv (F false 4 2 3 0)) [(2, 0x3F800000), (3, 0x40400000)] 4 = some 0x3EAAAAAB := by decide +kernel
/-- The block-scaled pair of 06. -/
theorem test_cvt8_scale : after (.cvt8 (F false 8 9 0 6 0x48)) [(6, 0x30C4), (9, 0x406CCCCD)] 8 = some 0x79 := by decide +kernel
theorem test_cvt8_pair :
    after (.cvt8 (F false 10 4 5 6 0x40)) [(4, 0x3E99999A), (5, 0x406CCCCD), (6, 0x30C4), (7, 121), (10, 0xABCD0000)] 10 = some 0xABCD7F62 := by decide +kernel
theorem test_unp8 : after (.unp8 (F false 8 4 0 6 0x40)) [(4, 0x62), (6, 0x30C4), (7, 121)] 8 = some 0x3EA00000 := by decide +kernel
/-- The group of 06's example: lanes 0 to 2 live with 5, 7, 5, lane 3 a helper with 2. -/
def Sgroup : State :=
  let x (v : W32) : Sparse W32 := if v = 0 then [] else [(4, v)]
  let t := { T with threads := (List.range 32).map (fun k =>
    { status := if k = 3 then .helper else .live, ag := { pc := 0x44 },
      x := Sparse.put 0 (x (if k = 1 then 7 else if k = 0 ∨ k = 2 then 5 else if k = 3 then 2 else 0)) 8 3 }) }
  { S (some 0) t with cur := { task := 1, uniform := false, threads := (List.range 32).filter (fun k => k != 3) } }
def groupAfter (i : Instr) (r : Nat) : List Nat :=
  match exec i Sgroup with
  | .next s => (match s.task? 1 with | some t => [0, 1, 2, 3].map (fun k => t.reg (some k) r) | none => [])
  | _ => []
theorem test_gred : groupAfter (.gred (F false 5 4 0 0)) 5 = [17, 17, 17, 17] := by decide +kernel
theorem test_qbcast : groupAfter (.qbcast (F false 6 4 0 0 3)) 6 = [2, 2, 2, 2] := by decide +kernel
theorem test_gshfl : groupAfter (.gshfl (F false 7 4 8 0 2)) 7 = [5, 0, 0, 0] := by decide +kernel
theorem test_gmatch : groupAfter (.gmatch (F false 9 4 0 0)) 9 = [5, 2, 5, 0] := by decide +kernel
/-- Encoding 0.3 into signed P4 (05): nearest even, toward zero, toward minus infinity of −0.3, and stochastic. -/
def e4m (w : Nat) (x : W32) : Option Nat := after (.cvt8 (F false 10 4 0 6 0x40)) [(4, x), (6, BitVec.ofNat 32 w), (7, 127)] 10
theorem test_b8_nearest : e4m 0x00C4 0x3E99999A = some 0x32 := by decide +kernel
theorem test_b8_zero : e4m 0x02C4 0xBE99999A = some 0xB1 := by decide +kernel
theorem test_b8_down : e4m 0x06C4 0xBE99999A = some 0xB2 := by decide +kernel
/-- The digest of a seed's pedigree (08), the bytes of D's pedigree (02), and the header of a sweep's tile (02). -/
theorem test_digest : ({} : Pedigree).digest = 0x2C9B74E1A85F06D3 := by decide +kernel
theorem test_pedigree : (leBytes 64 ({ elems := [0x0400, 0x0800] } : Pedigree).image).take 7 = [2, 0, 0, 4, 0, 8, 0] := by decide +kernel
theorem test_pedigree_sweep : (leBytes 64 ({ sweep := true, elems := [1, 5] } : Pedigree).image).take 8 = [0x22, 0, 1, 0, 5, 0, 0, 0] := by decide +kernel
/-- The stack and home slice of 15's walk. -/
theorem test_home : stackOf 0x00400123BCDE = 4 ∧ homeSlice 0x00400123BCDE = 254 := by decide +kernel
/-- The drain decisions of 16's example. -/
theorem test_form :
    (Tf true 40000 6000 false).form 20000 = .restart ∧ (Tf true 40000 12000 false).form 20000 = .save
    ∧ (Tf false 50000 48000 true).form 20000 = .drain ∧ (Tf true 0 900 false).form 20000 = .save := by decide +kernel
/-- ALLOC of 100 bytes with alignment 2^6 (08). -/
theorem test_alloc :
    (match exec (.alloc (F true 4 2 0 0 0 6)) (S none (Tr [] [(2, 100)] { T with u := { T.u with lo := 0x10002000, hi := 0x10010000 } })) with
     | .next s => (s.task? 1).map (fun t => (t.reg none 4, t.u.lo))
     | _ => none) = some (0x10002000, 0x10002070) := by decide +kernel

/-! ### The loader (04 R104 to R106; 03 R89 to R91) -/

/-- An object of one task record with 24 registers, one line of code, one name and one erratum-reliance entry. -/
def objectOf (version erratum : Nat) : List Byte :=
  layout 0 257 [(0, leBytes 4 0x33584E47), (4, leBytes 2 version), (8, leBytes 4 1), (12, leBytes 4 1), (16, leBytes 8 96), (24, leBytes 8 160),
    (32, leBytes 8 192), (40, leBytes 8 64), (64, leBytes 8 256), (120, leBytes 2 24), (160, leBytes 4 erratum)]
theorem test_object_version : objectError (objectOf 2 3) = some .versionUnsupported := by decide +kernel
theorem test_object_errata :
    objectError (objectOf 1 4) = none ∧ objectError (objectOf 1 2) = some .erratumReliance
    ∧ objectError (objectOf 1 4 |>.set 31 1) = some .objectForm := by decide +kernel

/-- A container of a lane segment that exits and a uniform segment that names the given successor. -/
def containerOf (succ : Nat) : List Byte :=
  layout 0 64 [(0, leBytes 4 0x584C4F50), (4, leBytes 2 1), (6, leBytes 2 2), (10, leBytes 2 1), (12, leBytes 2 5), (14, leBytes 2 6),
    (54, leBytes 1 1), (55, leBytes 1 1), (58, leBytes 2 succ)]
theorem test_container : polauxError (containerOf 1) = none ∧ polauxError (containerOf 0) = some .polauxForm := by decide +kernel

end Sys2Proof.Tests
end

section
/-! SUPPORT. O59: what the units of the module do, gating and heat, the firmware lease, counted and uncorrected errors (01 R26, R29; 15 R390;
17 R424 to R427), and what each step of start-up does (17 R431 to R433). -/

namespace Sys2Proof.Machine

/-! ### Sparse maps and lists -/

/-- Keeping the entries of some keys keeps the values there. -/
theorem Sparse.get_filter_key {α : Type} (d : α) (m : Sparse α) (p : Nat → Bool) (a : Nat) :
    Sparse.get d (m.filter (fun e => p e.1)) a = if p a then Sparse.get d m a else d := by
  induction m with
  | nil => simp [Sparse.get]
  | cons e m ih =>
    obtain ⟨k, v⟩ := e
    by_cases hk : p k = true <;> by_cases ha : a = k
    · subst ha
      simp [hk, Sparse.get]
    · simp [hk, Sparse.get, ha, ih]
    · subst ha
      simp [hk, ih]
    · simp [hk, Sparse.get, ha, ih]

/-- A change of every value, the default with them, changes what is read at each key. -/
theorem Sparse.get_map_values {α : Type} (d : α) (m : Sparse α) (f : α → α) (a : Nat) :
    Sparse.get (f d) (m.map (fun e => (e.1, f e.2))) a = f (Sparse.get d m a) := by
  induction m with
  | nil => rfl
  | cons e m ih =>
    simp only [List.map_cons, Sparse.get, ih]
    split <;> rfl

theorem getElem?_updAt_same {α : Type} (l : List α) (k : Nat) (f : α → α) : (updAt l k f)[k]? = l[k]?.map f := by
  induction l generalizing k with
  | nil => rfl
  | cons a l ih =>
    cases k with
    | zero => rfl
    | succ k => simpa [updAt] using ih k

/-! ### Dies -/

theorem State.die_modDie_same (s : State) {d : Nat} (f : Die → Die) (h : d < s.dies.length) : (s.modDie d f).die d = f (s.die d) :=
  getD_updAt_same s.dies d f {} h

theorem State.die_modDie_ne (s : State) {d e : Nat} (f : Die → Die) (h : e ≠ d) : (s.modDie d f).die e = s.die e :=
  getD_updAt_ne s.dies f {} h

/-! ### Gating and heat (01 R26, R29) -/

theorem exec_issueGating (d g : Nat) (s : State) :
    exec (.issueGating d g) s = .next (if g ≤ 64 then s.modDie d (fun x => { x with gate := g }) else s) := rfl
theorem exec_thermalGating (d : Nat) (s : State) : exec (.thermalGating d) s = .next (s.modDie d (fun x => { x with hot := true })) := rfl
theorem exec_thermalGatingRelease (d : Nat) (s : State) :
    exec (.thermalGatingRelease d) s = .next (s.modDie d (fun x => { x with hot := false })) := rfl
theorem exec_thermalTrip (s : State) : exec .thermalTrip s = .next { s.dark with power := .tripped, reports := s.reports ++ [0] } := rfl

/-- A die whose every step of 64 is gated lets none of its clusters issue, hot or not. -/
theorem State.gated_of_gate {s : State} {cl : Nat} (h : (s.die (dieOfCluster cl)).gate = 64) : s.gated cl = true := by
  simp [State.gated, h]

/-- Of memory, a module without power keeps what the companion holds (log entry 2). -/
theorem State.get_dark (s : State) (a : Nat) : Sparse.get 0 s.dark.mem a = if hbmBytes ≤ a then Sparse.get 0 s.mem a else 0 :=
  (Sparse.get_filter_key 0 s.mem (fun k => decide (hbmBytes ≤ k)) a).trans (by simp)

/-! ### The firmware lease (15 R390) -/

theorem exec_leaseRenewal {s : State} {d : Nat} (h : s.leader = some d) :
    exec .leaseRenewal s = .next (if 2 ^ 21 ≤ s.leaseAge d then s.seeLease else s) := by
  change execLeaseRenewal s = _
  simp only [execLeaseRenewal, h]

theorem State.leaseSeen_seeLease (s : State) : ∀ x ∈ s.seeLease.dies, x.leaseSeen = x.ticks := by
  simp [State.seeLease]

/-- The state in which a die has taken the lease over: a command that was not completed has ended with FW_RETRY. -/
def State.ledBy (s : State) (d : Nat) : State :=
  { s.seeLease with
    leader := some d
    mgmt := none
    mgmtStatus := match s.mgmt with
      | none => s.mgmtStatus
      | some m => BitVec.ofNat 64 (m.tag.toNat + 2 ^ 32 * 2) }

theorem exec_leaseTakeover {s : State} {d : Nat} (hd : d < 3) (hup : (s.die d).fwUp = true) (hl : s.leader ≠ some d) :
    exec (.leaseTakeover d) s = .next (if 2 ^ 22 ≤ s.leaseAge d then s.ledBy d else s) := by
  change execLeaseTakeover d s = _
  have hb : (s.leader != some d) = true := by simpa using hl
  simp only [execLeaseTakeover, hd, hup, hb, decide_true, Bool.true_and, decide_eq_true_eq]
  split
  · cases hm : s.mgmt <;> simp [State.ledBy, State.seeLease, State.setStatus, rcFW_RETRY, hm]
  · rfl

/-! ### Counted errors (17 R424 to R426) -/

/-- The state in which an error of a unit has been counted, at the reading of its counter. -/
def State.counted (s : State) (c : UnitClass) (n : Nat) : State :=
  { s with errs := s.errs.filter (fun e => !(e.cls == c && e.number == n))
      ++ [{ cls := c, number := n, times := (s.errTimes c n).drop ((s.errTimes c n).length - 1) ++ [s.unitCounter c n] }] }

theorem exec_correctedError {s : State} {c : UnitClass} {n : Nat} (h : unitExists c n = true) :
    exec (.correctedError c n) s =
      .next (if lasting (s.errTimes c n) (s.unitCounter c n) then (s.counted c n).takeOut c n else s.counted c n) := by
  change execCorrectedError c n s = _
  simp only [execCorrectedError, h, Bool.not_true, Bool.false_eq_true, if_false]
  rfl

theorem State.errTimes_counted (s : State) (c : UnitClass) (n : Nat) :
    (s.counted c n).errTimes c n = (s.errTimes c n).drop ((s.errTimes c n).length - 1) ++ [s.unitCounter c n] := by
  have gone : (s.errs.filter (fun e => !(e.cls == c && e.number == n))).find? (fun e => e.cls == c && e.number == n) = none :=
    List.find?_eq_none.mpr (fun e he => by simpa only [Bool.not_eq_true, Bool.not_eq_true'] using (List.mem_filter.mp he).2)
  conv_lhs => unfold State.errTimes State.counted
  rw [List.find?_append, gone]
  simp

/-- The count of another unit stands. -/
theorem State.errTimes_counted_ne (s : State) {c k : UnitClass} {n m : Nat} (h : (k, m) ≠ (c, n)) :
    (s.counted c n).errTimes k m = s.errTimes k m := by
  have other (e : ErrUnit) :
      ((!(e.cls == c && e.number == n)) = true ∧ (e.cls == k && e.number == m) = true) = ((e.cls == k && e.number == m) = true) := by
    refine propext (and_iff_right_of_imp fun hk => ?_)
    simp only [Bool.and_eq_true, beq_iff_eq] at hk
    obtain ⟨rfl, rfl⟩ := hk
    simpa only [Bool.not_eq_true', Bool.and_eq_false_iff, beq_eq_false_iff_ne, ne_eq, Prod.mk.injEq, not_and_or] using h
  have new : (c == k && n == m) = false := by
    simp only [ne_eq, Prod.mk.injEq] at h
    simp only [Bool.and_eq_false_iff, beq_eq_false_iff_ne]
    tauto
  conv_lhs => unfold State.errTimes State.counted
  simp only [List.find?_append, List.find?_filter, other, List.find?_cons, new, List.find?_nil, Option.or_none, Bool.decide_eq_true]
  rfl

/-- R425: a fault lasts where the last two errors and this one have rising readings that span fewer than 2^34 cycles. -/
theorem lasting_iff (old : List Nat) (now : Nat) :
    lasting old now = true ↔ ∃ t1 t2, old = [t1, t2] ∧ t1 < t2 ∧ t2 < now ∧ now - t1 < 2 ^ 34 := by
  match old with
  | [] | [_] | _ :: _ :: _ :: _ => simp [lasting]
  | [a, b] =>
    simp only [lasting, Bool.and_eq_true, decide_eq_true_eq, List.cons.injEq, and_true]
    constructor
    · rintro ⟨⟨h1, h2⟩, h3⟩
      exact ⟨a, b, ⟨rfl, rfl⟩, h1, h2, h3⟩
    · rintro ⟨_, _, ⟨rfl, rfl⟩, h1, h2, h3⟩
      exact ⟨⟨h1, h2⟩, h3⟩

/-- A unit that stands in the list of units out of service is out. -/
theorem State.unitOut_of_mem {s : State} {c : UnitClass} {n : Nat} {u : OutUnit} (h : u ∈ s.out) (hc : u.cls = c) (hn : u.number = n) :
    s.unitOut c n = true := by
  have : s.out.any (fun o => o.cls == c && o.number == n) = true := List.any_eq_true.mpr ⟨u, h, by simp [hc, hn]⟩
  simp [State.unitOut, this]

/-- R426: a unit of memory or of a link that is taken out of service is out. -/
theorem State.unitOut_takeOut (s : State) {c : UnitClass} (n : Nat)
    (h : c = .dieLane ∨ c = .tihusLane ∨ c = .l2Way ∨ c = .cacheWay ∨ c = .channel) : (s.takeOut c n).unitOut c n = true := by
  by_cases hout : s.unitOut c n = true
  · simp [State.takeOut, hout]
  · rcases h with rfl | rfl | rfl | rfl | rfl <;> simp only [State.takeOut, State.takeLink, hout, if_false, Bool.false_eq_true] <;>
      exact State.unitOut_of_mem (List.mem_append_right _ (List.mem_singleton_self _)) rfl rfl

/-! ### Uncorrected errors (17 R427) -/

theorem exec_uncorrectedError (target : ErrorTarget) (s : State) : exec (.uncorrectedError target) s = execUncorrectedError target s := rfl

theorem exec_uncorrectedError_line {s : State} {pa n : Nat} {c : UnitClass} (he : s.exists? pa = true) (hl : holdsLine pa c n = true) :
    exec (.uncorrectedError (.line pa c n)) s = .next ((s.message 4 c n).poisonLine pa c n) := by
  rw [exec_uncorrectedError]
  simp only [execUncorrectedError, he, hl, Bool.and_self, if_true]

theorem exec_uncorrectedError_slot {s : State} {id n : Nat} {t : Task} {c : UnitClass} (ht : s.task? id = some t) (hr : t.resident = false)
    (hc : c = .l2Way ∨ c = .cacheWay ∨ c = .channel) (hn : unitExists c n = true) :
    exec (.uncorrectedError (.slot id c n)) s = .next (((s.message 4 c n).abortTree t.entry.tree stUNCORRECTED).takeOut c n) := by
  rw [exec_uncorrectedError]
  have hb : (c == .l2Way || c == .cacheWay || c == .channel) = true := by
    simpa [or_assoc] using hc
  simp [execUncorrectedError, ht, hr, hb, hn]

theorem exec_uncorrectedError_task {s : State} {id : Nat} {t : Task} (ht : s.task? id = some t) (hr : t.resident = true) :
    exec (.uncorrectedError (.task id)) s =
      .next (((s.message 4 .cluster t.cluster).abortTree t.entry.tree stUNCORRECTED).takeOut .cluster t.cluster) := by
  rw [exec_uncorrectedError]
  simp only [execUncorrectedError, ht, hr, if_true]

theorem State.poisoned_of_mem {s : State} {pa : Nat} (h : pa / 32 ∈ s.poison) : s.poisoned pa 1 = true :=
  List.any_eq_true.mpr ⟨pa / 32, h, by simp only [Bool.and_eq_true, decide_eq_true_eq]; omega⟩

/-- A poisoned line has its four sectors poisoned, so each of its bytes. -/
theorem State.poisoned_poisonLine (s : State) (pa : Nat) (c : UnitClass) (n : Nat) {k : Nat} (hk : k < 128) :
    (s.poisonLine pa c n).poisoned (pa / 128 * 128 + k) 1 = true := by
  apply State.poisoned_of_mem
  have sector : (pa / 128 * 128 + k) / 32 = pa / 128 * 4 + k / 32 := by omega
  have hq : k / 32 < 4 := by omega
  rw [sector]
  by_cases hp : pa / 128 * 4 + k / 32 ∈ s.poison
  · exact List.mem_append_left _ hp
  · refine List.mem_append_right _ (List.mem_filter.mpr ⟨List.mem_map.mpr ⟨k / 32, List.mem_range.mpr hq, rfl⟩, ?_⟩)
    simpa using hp

/-! ### The work of start-up (17 R431) -/

theorem State.get_clearHome (s : State) (pa n a : Nat) :
    Sparse.get 0 (s.clearHome pa n).mem a = if pa ≤ a ∧ a < pa + n then 0 else Sparse.get 0 s.mem a := by
  have h := Sparse.get_filter_key 0 s.mem (fun k => !(decide (pa ≤ k) && decide (k < pa + n))) a
  refine h.trans ?_
  by_cases hin : pa ≤ a ∧ a < pa + n <;> simp [hin]

/-- The state in which every cluster holds no line. -/
def State.withoutLines (s : State) : State := { s with clusters := s.clusters.map (fun p => (p.1, { p.2 with l1 := [] })) }

theorem State.cluster_withoutLines (s : State) (cl : Nat) : s.withoutLines.cluster cl = { s.cluster cl with l1 := [] } :=
  Sparse.get_map_values Cluster.init s.clusters (fun c => { c with l1 := [] }) cl

/-- Zero the postmark region of a die. -/
def State.clearPostmarks (s : State) (d : Nat) : State := s.clearHome (s.postmarkBase d) ((s.die d).postmarkGiB * gib)

theorem State.stepWork_eight (s : State) : s.stepWork 8 = ((s.withoutLines.clearPostmarks 0).clearPostmarks 1).clearPostmarks 2 := rfl

theorem State.stepWork_of_ne {n : Nat} (h : n ≠ 8) (s : State) : s.stepWork n = s := if_neg h

@[simp] theorem State.stepWork_flash (s : State) (n : Nat) : (s.stepWork n).flash = s.flash := by
  unfold State.stepWork
  split <;> rfl

/-- Whether an address lies in the postmark region of a die (10 R246). -/
def State.inPostmarks (s : State) (d a : Nat) : Prop := s.postmarkBase d ≤ a ∧ a < s.postmarkBase d + (s.die d).postmarkGiB * gib

@[simp] theorem State.inPostmarks_withoutLines (s : State) (d a : Nat) : s.withoutLines.inPostmarks d a ↔ s.inPostmarks d a := Iff.rfl
@[simp] theorem State.inPostmarks_clearPostmarks (s : State) (e d a : Nat) : (s.clearPostmarks e).inPostmarks d a ↔ s.inPostmarks d a := Iff.rfl

theorem State.get_clearPostmarks_inside {s : State} {d a : Nat} (h : s.inPostmarks d a) : Sparse.get 0 (s.clearPostmarks d).mem a = 0 :=
  (s.get_clearHome _ _ a).trans (if_pos h)

theorem State.get_clearPostmarks_outside {s : State} {d a : Nat} (h : ¬s.inPostmarks d a) :
    Sparse.get 0 (s.clearPostmarks d).mem a = Sparse.get 0 s.mem a :=
  (s.get_clearHome _ _ a).trans (if_neg h)

/-- A byte that reads 0 still does where a region has been cleared. -/
theorem State.get_clearPostmarks_zero {s : State} {a : Nat} (d : Nat) (h : Sparse.get 0 s.mem a = 0) :
    Sparse.get 0 (s.clearPostmarks d).mem a = 0 := by
  by_cases hd : s.inPostmarks d a
  · exact State.get_clearPostmarks_inside hd
  · rw [State.get_clearPostmarks_outside hd, h]

/-- Step 8 clears the caches. -/
theorem State.l1_stepWork_eight (s : State) (cl : Nat) : ((s.stepWork 8).cluster cl).l1 = [] :=
  congrArg Cluster.l1 (s.cluster_withoutLines cl)

/-- Step 8 zeroes the postmark region of each die. -/
theorem State.get_stepWork_inside {s : State} {d a : Nat} (hd : d < 3) (h : s.inPostmarks d a) : Sparse.get 0 (s.stepWork 8).mem a = 0 := by
  rw [State.stepWork_eight]
  rcases (by omega : d = 0 ∨ d = 1 ∨ d = 2) with rfl | rfl | rfl
  · exact State.get_clearPostmarks_zero 2 (State.get_clearPostmarks_zero 1 (State.get_clearPostmarks_inside (by simpa using h)))
  · exact State.get_clearPostmarks_zero 2 (State.get_clearPostmarks_inside (by simpa using h))
  · exact State.get_clearPostmarks_inside (by simpa using h)

/-- Step 8 changes no byte outside the postmark regions. -/
theorem State.get_stepWork_outside {s : State} {a : Nat} (h : ∀ d, d < 3 → ¬s.inPostmarks d a) :
    Sparse.get 0 (s.stepWork 8).mem a = Sparse.get 0 s.mem a := by
  rw [State.stepWork_eight, State.get_clearPostmarks_outside (by simpa using h 2), State.get_clearPostmarks_outside (by simpa using h 1),
    State.get_clearPostmarks_outside (by simpa using h 0)]
  rfl

/-! ### The steps of start-up (17 R431 to R433) -/

@[simp] theorem State.failUnits_flash (s : State) (n : Nat) : (s.failUnits n).flash = s.flash := by
  unfold State.failUnits
  split
  case h_4 => rfl
  all_goals
    refine foldl_keeps State.flash _ (fun s k => ?_) _ _
    split <;> rfl

theorem State.flash_stepDone {s : State} {n : Nat} (hn : n - 1 < s.flash.length) (outcome method : Nat) :
    (s.stepDone n outcome method).flash[n - 1]? = some { outcome := outcome, method := method } := by
  simp only [State.stepDone, getElem?_updAt_same, List.getElem?_eq_getElem hn, Option.map_some]

theorem exec_startup (p a : Bool) (s : State) : exec (.startup p a) s = execStartup p a s := rfl

theorem exec_startup_running {s : State} (h : s.power = .running) (p a : Bool) : exec (.startup p a) s = .next s := by
  simp only [exec_startup, execStartup, h]

/-- A tripped or stopped module starts again at step 1 (log entry 34). -/
theorem exec_startup_again {s : State} {n : Nat} (h : s.power = .tripped ∨ s.power = .stopped n) (p a : Bool) :
    exec (.startup p a) s = .next { s.dark with power := .starting 1 } := by
  rcases h with h | h <;> simp only [exec_startup, execStartup, h]

section
variable {s : State} {n : Nat} (h : s.power = .starting n)
include h

theorem exec_startup_primary (hm : (s.flash.getD (n - 1) {}).method = 0) (a : Bool) :
    exec (.startup true a) s = .next ((s.stepWork n).stepDone n 1 0) := by
  simp only [exec_startup, execStartup, h, hm]
  rfl

theorem exec_startup_optional (hn : n = 7) (hm : (s.flash.getD (n - 1) {}).method = 0) (a : Bool) :
    exec (.startup false a) s = .next (s.stepDone n 2 2) := by
  simp only [exec_startup, execStartup, h, hm]
  simp [optionalStep, hn]

theorem exec_startup_recorded (hm : (s.flash.getD (n - 1) {}).method = 2) (p a : Bool) :
    exec (.startup p a) s = .next (s.stepDone n 3 2) := by
  simp only [exec_startup, execStartup, h, hm, if_true]

/-- A mandatory step whose primary method failed, now or before, goes by its alternate method. -/
theorem exec_startup_mandatory (hn : n ≠ 7) {p : Bool}
    (hm : (s.flash.getD (n - 1) {}).method = 0 ∧ p = false ∨ (s.flash.getD (n - 1) {}).method = 1) (a : Bool) :
    exec (.startup p a) s = .next (if a then ((s.failUnits n).stepWork n).stepDone n 4 1
      else { s with power := .stopped n, reports := s.reports ++ [n] }) := by
  have hopt : optionalStep n = false := by simpa [optionalStep] using hn
  simp only [exec_startup, execStartup, h]
  rcases hm with ⟨hm, rfl⟩ | hm <;> cases a <;> simp only [hm, hopt] <;> rfl

end

/-! ### Steps of a module that does not run (log entries 34, 69) -/

theorem step_of_agenda {s : State} {c : Choice} {rest : List Choice} (h : s.agenda = c :: rest) : step s = perform c (withAgenda rest s) := by
  simp only [step, h]
  rfl

/-- While the module does not run, every choice but start-up moves it as `performIdle` says. -/
theorem perform_idle {s : State} {c : Choice} (hs : s.power ≠ .running) (hc : ∀ p a, c ≠ .event (.startup p a)) :
    perform c s = performIdle c s := by
  unfold perform
  split
  · exact absurd rfl (hc _ _)
  · exact if_pos hs

theorem ne_startup_of_isThermal {i : Instr} (h : isThermal i = true) (p a : Bool) : i ≠ .startup p a := by
  rintro rfl
  cases h

theorem performIdle_thermal {s : State} {n : Nat} (hs : s.power = .starting n ∨ s.power = .stopped n) {i : Instr} (hi : isThermal i = true) :
    performIdle (.event i) s = exec i s := by
  rcases hs with hs | hs <;> simp only [performIdle, hs, hi, if_true]

theorem performIdle_tick {s : State} {n : Nat} (hs : s.power = .starting n) (d : Nat) :
    performIdle (.tick d) s = .next (if 3 ≤ n then s.tickDie d else s) := by
  simp only [performIdle, hs]

theorem performIdle_other {s : State} {c : Choice} (hi : ∀ i, isThermal i = true → c ≠ .event i) (ht : ∀ d, c ≠ .tick d) :
    performIdle c s = .next s := by
  unfold performIdle
  split
  · exact if_neg fun h => hi _ h rfl
  · exact if_neg fun h => hi _ h rfl
  · exact absurd rfl (ht _)
  · rfl

/-! ### What each event does, as O59 states it -/

theorem issueGating_gates {s : State} {d g : Nat} (hd : d < s.dies.length) (hg : g ≤ 64) :
    ∃ s', exec (.issueGating d g) s = .next s' ∧ (s'.die d).gate = g ∧ (∀ e, e ≠ d → s'.die e = s.die e) ∧ s'.mem = s.mem
      ∧ (g = 64 → ∀ cl, cl / 192 = d → s'.gated cl = true) := by
  have hgate : ((s.modDie d (fun x => { x with gate := g })).die d).gate = g := congrArg Die.gate (s.die_modDie_same _ hd)
  refine ⟨_, (exec_issueGating d g s).trans (by rw [if_pos hg]), hgate, fun e he => s.die_modDie_ne _ he, rfl, ?_⟩
  rintro h64 cl rfl
  exact State.gated_of_gate (hgate.trans h64)

theorem thermalTrip_trips (s : State) :
    ∃ s', exec .thermalTrip s = .next s' ∧ s'.power = .tripped ∧ s'.reports = s.reports ++ [0] ∧ s'.tasks = [] ∧ s'.trees = []
      ∧ s'.ctxs = [] ∧ s'.flash = s.flash ∧ (∀ a, a < hbmBytes → Sparse.get 0 s'.mem a = 0)
      ∧ ∀ a, hbmBytes ≤ a → Sparse.get 0 s'.mem a = Sparse.get 0 s.mem a :=
  ⟨_, exec_thermalTrip s, rfl, rfl, rfl, rfl, rfl, rfl, fun a ha => (s.get_dark a).trans (if_neg (Nat.not_le.mpr ha)),
    fun a ha => (s.get_dark a).trans (if_pos ha)⟩

theorem leaseTakeover_leads {s : State} {d : Nat} (hd : d < 3) (hup : (s.die d).fwUp = true) (hl : s.leader ≠ some d)
    (hage : 2 ^ 22 ≤ s.leaseAge d) :
    ∃ s', exec (.leaseTakeover d) s = .next s' ∧ s'.leader = some d ∧ s'.mgmt = none ∧ (∀ x ∈ s'.dies, x.leaseSeen = x.ticks)
      ∧ ∀ m, s.mgmt = some m → s'.mgmtStatus = BitVec.ofNat 64 (m.tag.toNat + 2 ^ 32 * 2) := by
  refine ⟨s.ledBy d, (exec_leaseTakeover hd hup hl).trans (by rw [if_pos hage]), rfl, rfl, s.leaseSeen_seeLease, fun m hm => ?_⟩
  simp only [State.ledBy, hm]

theorem correctedError_counts {s : State} {c : UnitClass} {n : Nat} (hu : unitExists c n = true)
    (hl : lasting (s.errTimes c n) (s.unitCounter c n) = false) :
    ∃ s', exec (.correctedError c n) s = .next s'
      ∧ s'.errTimes c n = (s.errTimes c n).drop ((s.errTimes c n).length - 1) ++ [s.unitCounter c n]
      ∧ (∀ k m, (k, m) ≠ (c, n) → s'.errTimes k m = s.errTimes k m) ∧ s'.out = s.out ∧ s'.service = s.service :=
  ⟨s.counted c n, (exec_correctedError hu).trans (by rw [hl]; rfl), s.errTimes_counted c n, fun _ _ => s.errTimes_counted_ne, rfl, rfl⟩

theorem correctedError_takesOut {s : State} {c : UnitClass} {n : Nat} (hu : unitExists c n = true)
    (hl : lasting (s.errTimes c n) (s.unitCounter c n) = true)
    (hc : c = .dieLane ∨ c = .tihusLane ∨ c = .l2Way ∨ c = .cacheWay ∨ c = .channel) :
    ∃ s', exec (.correctedError c n) s = .next s' ∧ s'.unitOut c n = true :=
  ⟨(s.counted c n).takeOut c n, (exec_correctedError hu).trans (by rw [hl]; rfl), (s.counted c n).unitOut_takeOut n hc⟩

theorem uncorrectedError_poisons {s : State} {pa n : Nat} {c : UnitClass} (he : s.exists? pa = true) (hl : holdsLine pa c n = true) :
    ∃ s', exec (.uncorrectedError (.line pa c n)) s = .next s' ∧ s'.mem = s.mem ∧ s'.tasks = s.tasks
      ∧ s'.service.length = s.service.length + 1 ∧ ∀ k, k < 128 → s'.poisoned (pa / 128 * 128 + k) 1 = true :=
  ⟨_, exec_uncorrectedError_line he hl, rfl, rfl, List.length_append, fun _ hk => (s.message 4 c n).poisoned_poisonLine pa c n hk⟩

section
variable {s : State} {n : Nat} (h : s.power = .starting n)
include h

theorem startup_alternate_stops (hn : n ≠ 7) {p : Bool}
    (hm : (s.flash.getD (n - 1) {}).method = 0 ∧ p = false ∨ (s.flash.getD (n - 1) {}).method = 1) :
    ∃ s', exec (.startup p false) s = .next s' ∧ s'.power = .stopped n ∧ s'.reports = s.reports ++ [n] ∧ s'.flash = s.flash :=
  ⟨_, exec_startup_mandatory h hn hm false, rfl, rfl, rfl⟩

variable (hlen : n - 1 < s.flash.length)
include hlen

theorem startup_primary_passes (hm : (s.flash.getD (n - 1) {}).method = 0) (a : Bool) :
    ∃ s', exec (.startup true a) s = .next s' ∧ s'.power = (if n < 9 then .starting (n + 1) else .running)
      ∧ s'.flash[n - 1]? = some { outcome := 1, method := 0 } ∧ (n ≠ 8 → s'.mem = s.mem)
      ∧ (n = 8 →
          (∀ cl, (s'.cluster cl).l1 = [])
          ∧ (∀ d x, d < 3 → s.postmarkBase d ≤ x → x < s.postmarkBase d + (s.die d).postmarkGiB * gib → Sparse.get 0 s'.mem x = 0)
          ∧ ∀ x, (∀ d, d < 3 → x < s.postmarkBase d ∨ s.postmarkBase d + (s.die d).postmarkGiB * gib ≤ x) →
              Sparse.get 0 s'.mem x = Sparse.get 0 s.mem x) := by
  refine ⟨_, exec_startup_primary h hm a, rfl, State.flash_stepDone (by rwa [State.stepWork_flash]) 1 0,
    fun h8 => show (s.stepWork n).mem = s.mem by rw [State.stepWork_of_ne h8], ?_⟩
  rintro rfl
  refine ⟨s.l1_stepWork_eight, fun d x hd hlo hhi => State.get_stepWork_inside hd ⟨hlo, hhi⟩, fun x hx => ?_⟩
  refine State.get_stepWork_outside fun d hd ⟨hlo, hhi⟩ => ?_
  have := hx d hd
  omega

theorem startup_optional_skipped (hn : n = 7) (hm : (s.flash.getD (n - 1) {}).method = 0) (a : Bool) :
    ∃ s', exec (.startup false a) s = .next s' ∧ s'.power = (if n < 9 then .starting (n + 1) else .running)
      ∧ s'.flash[n - 1]? = some { outcome := 2, method := 2 } :=
  ⟨_, exec_startup_optional h hn hm a, rfl, State.flash_stepDone hlen 2 2⟩

theorem startup_recorded_skipped (hm : (s.flash.getD (n - 1) {}).method = 2) (p a : Bool) :
    ∃ s', exec (.startup p a) s = .next s' ∧ s'.power = (if n < 9 then .starting (n + 1) else .running)
      ∧ s'.flash[n - 1]? = some { outcome := 3, method := 2 } :=
  ⟨_, exec_startup_recorded h hm p a, rfl, State.flash_stepDone hlen 3 2⟩

theorem startup_alternate_passes (hn : n ≠ 7) {p : Bool}
    (hm : (s.flash.getD (n - 1) {}).method = 0 ∧ p = false ∨ (s.flash.getD (n - 1) {}).method = 1) :
    ∃ s', exec (.startup p true) s = .next s' ∧ s'.power = (if n < 9 then .starting (n + 1) else .running)
      ∧ s'.flash[n - 1]? = some { outcome := 4, method := 1 } :=
  ⟨_, exec_startup_mandatory h hn hm true, rfl, State.flash_stepDone (by rwa [State.stepWork_flash, State.failUnits_flash]) 4 1⟩

end

theorem startup_again {s : State} {n : Nat} (h : s.power = .tripped ∨ s.power = .stopped n) (p a : Bool) :
    ∃ s', exec (.startup p a) s = .next s' ∧ s'.power = .starting 1 ∧ s'.flash = s.flash ∧ ∀ x, x < hbmBytes → Sparse.get 0 s'.mem x = 0 :=
  ⟨_, exec_startup_again h p a, rfl, rfl, fun x hx => (s.get_dark x).trans (if_neg (Nat.not_le.mpr hx))⟩

/-- Settles O59: each clause is what one event does, or what a module that does not run does with the next choice. -/
theorem unitsAndStartup : Obligations.UnitsAndStartup := by
  unfold Obligations.UnitsAndStartup
  refine ⟨⟨?gating, thermalTrip_trips, ?renewal, ?takeover, ?corrected, ?line, ?slot, ?task⟩, ?startup, ?running, ?again, ?heat, ?tick, ?other⟩
  case gating =>
    intro d g s hd hl
    have hd : d < s.dies.length := hl ▸ hd
    exact ⟨issueGating_gates hd, fun hg => (exec_issueGating d g s).trans (by rw [if_neg (Nat.not_le.mpr hg)]),
      ⟨_, exec_thermalGating d s, congrArg Die.hot (s.die_modDie_same _ hd), rfl⟩,
      ⟨_, exec_thermalGatingRelease d s, congrArg Die.hot (s.die_modDie_same _ hd), rfl⟩⟩
  case renewal =>
    intro s d hl
    refine ⟨fun h => ⟨_, (exec_leaseRenewal hl).trans ?_, s.leaseSeen_seeLease, hl⟩, fun h => (exec_leaseRenewal hl).trans ?_⟩
    · rw [State.leaseAge, if_pos h]
    · rw [State.leaseAge, if_neg (Nat.not_le.mpr h)]
  case takeover =>
    intro d s hd hup hl
    refine ⟨leaseTakeover_leads hd hup hl, fun h => (exec_leaseTakeover hd hup hl).trans ?_⟩
    rw [State.leaseAge, if_neg (Nat.not_le.mpr h)]
  case corrected =>
    intro c n s hu
    refine ⟨correctedError_counts hu, lasting_iff _ _, fun t1 t2 hold h12 h2 h hc => correctedError_takesOut hu ?_ hc⟩
    exact (lasting_iff _ _).mpr ⟨t1, t2, hold, h12, h2, h⟩
  case line => exact fun s pa c n => uncorrectedError_poisons
  case slot => exact fun s id t c n => exec_uncorrectedError_slot
  case task => exact fun id s t => exec_uncorrectedError_task
  case startup =>
    intro p a n s h h1 h9 hf
    have hlen : n - 1 < s.flash.length := by omega
    refine ⟨?primary, ?optional, ?alternate, ?stops, ?recorded, fun hm => startup_recorded_skipped h hlen hm p a⟩
    case primary => rintro hm rfl; exact startup_primary_passes h hlen hm a
    case optional => rintro hm rfl hn; exact startup_optional_skipped h hlen hn hm a
    case alternate => rintro hm hp hn rfl; exact startup_alternate_passes h hlen hn (.inl ⟨hm, hp⟩)
    case stops =>
      rintro hm hp hn rfl
      obtain ⟨s', he, hpower, hreports, -⟩ := startup_alternate_stops h hn (.inl ⟨hm, hp⟩)
      exact ⟨s', he, hpower, hreports⟩
    case recorded =>
      intro hm hn
      constructor <;> rintro rfl
      · exact startup_alternate_passes h hlen hn (.inr hm)
      · exact startup_alternate_stops h hn (.inr hm)
  case running => exact fun p a s h => exec_startup_running h p a
  case again => exact fun p a n s h => startup_again h p a
  case heat =>
    intro s i rest n hs hi ha
    have hrun : s.power ≠ .running := by rcases hs with hs | hs <;> simp [hs]
    rw [step_of_agenda ha, perform_idle (s := withAgenda rest s) hrun fun p a e => ne_startup_of_isThermal hi p a (Choice.event.inj e)]
    exact performIdle_thermal (s := withAgenda rest s) hs hi
  case tick =>
    intro s d rest n hs ha
    have hrun : s.power ≠ .running := by simp [hs]
    rw [step_of_agenda ha, perform_idle (s := withAgenda rest s) hrun fun p a => Choice.noConfusion]
    exact performIdle_tick (s := withAgenda rest s) hs d
  case other =>
    intro s c rest hs ha hc hi ht
    rw [step_of_agenda ha, perform_idle (s := withAgenda rest s) hs hc]
    exact performIdle_other hi ht

end Sys2Proof.Machine
end

section
/-! SUPPORT. O1, O2, O60: the decoder and the encoder undo each other (03 R67, R82 to R84), from the fields of a word and from the map of opcodes. -/

namespace Sys2Proof

open Machine

/-! ### The fields of a word (03 R67) -/

theorem Fields.ofWord_toWord (f : Fields) (major minor : Nat) : Fields.ofWord (f.toWord major minor) = f := by
  obtain ⟨u, la, ret, d, a, b, c, mod, imm⟩ := f
  simp only [Fields.ofWord, Fields.toWord, Fields.mk.injEq]
  refine ⟨?_, ?_, ?_, ?_, ?_, ?_, ?_, ?_, ?_⟩
  case refine_1 => simp only [BitVec.getLsbD_append, BitVec.getLsbD_ofBool]; grind
  all_goals
    ext k hk
    simp only [BitVec.getElem_extractLsb', BitVec.getLsbD_append]
    grind

theorem majorOf_toWord (f : Fields) {major : Nat} (minor : Nat) (h : major < 128) : majorOf (f.toWord major minor) = major := by
  have e : (f.toWord major minor).extractLsb' 89 7 = BitVec.ofNat 7 major := by
    ext k hk
    simp only [Fields.toWord, BitVec.getElem_extractLsb', BitVec.getLsbD_append]
    grind
  rw [majorOf, e, BitVec.toNat_ofNat, Nat.mod_eq_of_lt h]

theorem minorOf_toWord (f : Fields) (major : Nat) {minor : Nat} (h : minor < 64) : minorOf (f.toWord major minor) = minor := by
  have e : (f.toWord major minor).extractLsb' 40 6 = BitVec.ofNat 6 minor := by
    ext k hk
    simp only [Fields.toWord, BitVec.getElem_extractLsb', BitVec.getLsbD_append]
    grind
  rw [minorOf, e, BitVec.toNat_ofNat, Nat.mod_eq_of_lt h]

theorem Fields.toWord_ofWord (w : InstrWord) : (Fields.ofWord w).toWord (majorOf w) (minorOf w) = w := by
  have hu : BitVec.ofBool (w.getLsbD 88) = w.extractLsb' 88 1 := by
    ext k hk
    obtain rfl : k = 0 := by omega
    simp
  have join (lo n m : Nat) : w.extractLsb' (lo + n) m ++ w.extractLsb' lo n = w.extractLsb' lo (m + n) :=
    BitVec.extractLsb'_append_extractLsb'_eq_extractLsb' rfl
  simp only [Fields.toWord, Fields.ofWord, majorOf, minorOf, BitVec.ofNat_toNat, BitVec.setWidth_eq, hu]
  rw [join 88 1 7, join 84 4 8, join 82 2 12, join 73 9 14, join 64 9 23, join 55 9 32, join 46 9 41, join 40 6 50, join 32 8 56, join 0 32 64]
  exact BitVec.extractLsb'_eq_self

/-! ### The map of opcodes (03 R82, R83) -/

theorem opcode?_lt {i : Instr} {major minor : Nat} (h : i.opcode? = some (major, minor)) : major < 128 ∧ minor < 64 := by
  cases i <;> cases h <;> decide

/-- The decoder's map gives back the instruction of an opcode; the rows that share a code are told apart by MOD bit 0. -/
theorem decodeOp_opcode {i : Instr} {f : Fields} (hf : i.fields? = some f) (hs : i.splitOk = true) :
    ∃ major minor, i.opcode? = some (major, minor) ∧ decodeOp major minor f = some i := by
  cases i with
  | alloc g | cvqry g =>
    cases hf
    exact ⟨_, _, rfl, congrArg some (if_neg (by simpa [Instr.splitOk] using hs))⟩
  | allocCfg g | cvqryBand g =>
    cases hf
    exact ⟨_, _, rfl, congrArg some (if_pos hs)⟩
  | _ => cases hf <;> exact ⟨_, _, rfl, rfl⟩

theorem encode_of_fields? {i : Instr} {f : Fields} {major minor : Nat} (hf : i.fields? = some f) (ho : i.opcode? = some (major, minor)) :
    encode i = some (f.toWord major minor) := by
  cases i with
  | unassignedOpcode w => cases hf
  | _ => simp only [encode, hf, ho]

theorem decode_of_decodeOp {w : InstrWord} {i : Instr} (h : decodeOp (majorOf w) (minorOf w) (Fields.ofWord w) = some i) : decode w = i := by
  simp only [decode, h]

/-- Settles O1. -/
theorem decodeOfEncode : Obligations.DecodeOfEncode := by
  unfold Obligations.DecodeOfEncode
  intro i hi hs
  obtain ⟨f, hf⟩ := Option.isSome_iff_exists.mp hi
  obtain ⟨major, minor, ho, hd⟩ := decodeOp_opcode hf hs
  obtain ⟨hmajor, hminor⟩ := opcode?_lt ho
  refine ⟨f.toWord major minor, encode_of_fields? hf ho, decode_of_decodeOp ?_⟩
  rwa [majorOf_toWord f minor hmajor, minorOf_toWord f major hminor, Fields.ofWord_toWord]

theorem opcode?_of_decodeDet {minor : Nat} {f : Fields} {i : Instr} (h : decodeDet minor f = some i) :
    i.opcode? = some (0x29, minor) ∧ i.fields? = some f := by
  unfold decodeDet at h
  split at h <;> cases h
  case h_5 => split <;> exact ⟨rfl, rfl⟩
  all_goals exact ⟨rfl, rfl⟩

theorem opcode?_of_decodeCover {minor : Nat} {f : Fields} {i : Instr} (h : decodeCover minor f = some i) :
    i.opcode? = some (0x2B, minor) ∧ i.fields? = some f := by
  unfold decodeCover at h
  split at h <;> cases h
  case h_1 => split <;> exact ⟨rfl, rfl⟩
  all_goals exact ⟨rfl, rfl⟩

/-- An instruction that the map gives for an opcode has that opcode, and the fields of its word. -/
theorem opcode?_of_decodeOp {major minor : Nat} {f : Fields} {i : Instr} (h : decodeOp major minor f = some i) :
    i.opcode? = some (major, minor) ∧ i.fields? = some f := by
  unfold decodeOp at h
  split at h
  case h_11 => exact opcode?_of_decodeDet h
  case h_13 => exact opcode?_of_decodeCover h
  case h_15 => cases h
  all_goals
    revert h
    dsimp only [decodeIntReg, decodeIntImm, decodeFp, decodeConv, decodeExch, decodeControl, decodeMemory, decodeCopy, decodeMatrix,
      decodeTasks, decodeExpand, decodeSystem]
    split <;> rintro ⟨⟩ <;> exact ⟨rfl, rfl⟩

theorem decode_of_decodeOp_none {w : InstrWord} (h : decodeOp (majorOf w) (minorOf w) (Fields.ofWord w) = none) :
    decode w = .unassignedOpcode w := by
  simp only [decode, h]

/-- Settles O2. -/
theorem encodeOfDecode : Obligations.EncodeOfDecode := by
  unfold Obligations.EncodeOfDecode
  intro w hw
  cases h : decodeOp (majorOf w) (minorOf w) (Fields.ofWord w) with
  | none => exact absurd (decode_of_decodeOp_none h) (hw w)
  | some i =>
    obtain ⟨ho, hf⟩ := opcode?_of_decodeOp h
    rw [decode_of_decodeOp h, encode_of_fields? hf ho, Fields.toWord_ofWord]

/-- Settles O60: each printed word, decoded. -/
theorem decodeWords : Obligations.DecodeWords := by
  unfold Obligations.DecodeWords
  refine ⟨?_, ?_, ?_, ?_, ?_, ?_, ?_, ?_, ?_, ?_, ?_, ?_, ?_, ?_, ?_, ?_, ?_⟩ <;> decide

end Sys2Proof
end

section
/-! SUPPORT. What the operations on memory leave of the tasks: all of them. Accesses, the L1, translation, events of a context and the race filter
change memory, clusters, contexts and trees (10 R243 to R248; 11 R281; 15 R373 to R377; 08 R204 to R208). -/

namespace Sys2Proof.Machine

/-! ### Home slices and the L1 -/

@[simp] theorem State.scrub_tasks (s : State) (pa n : Nat) : (s.scrub pa n).tasks = s.tasks := rfl

@[simp] theorem State.writeBackLine_tasks (s : State) (cl line : Nat) : (s.writeBackLine cl line).tasks = s.tasks := by
  unfold State.writeBackLine
  split
  · rfl
  · dsimp only
    rw [State.modCluster_tasks]
    refine (foldl_keeps State.tasks _ (fun s q => ?_) _ _).trans (foldl_keeps State.tasks _ (fun s k => s.setHome_tasks _ _) _ s)
    split <;> rfl

@[simp] theorem State.writeBackAll_tasks (s : State) (cl : Nat) : (s.writeBackAll cl).tasks = s.tasks :=
  foldl_keeps State.tasks _ (fun s _ => s.writeBackLine_tasks _ _) _ s

@[simp] theorem State.dropLine_tasks (s : State) (cl line : Nat) : (s.dropLine cl line).tasks = s.tasks := s.writeBackLine_tasks cl line

@[simp] theorem State.dropClean_tasks (s : State) (cl : Nat) : (s.dropClean cl).tasks = s.tasks := rfl

@[simp] theorem State.fillLine_tasks (s : State) (cl line : Nat) : (s.fillLine cl line).tasks = s.tasks := by
  unfold State.fillLine
  dsimp only
  split
  · rfl
  · rw [State.modCluster_tasks]
    split
    · split
      · exact s.dropLine_tasks _ _
      · rfl
    · rfl

@[simp] theorem State.loadByte_tasks (s : State) (cl pa : Nat) (l1 : Bool) : (s.loadByte cl pa l1).2.tasks = s.tasks := by
  have hs : (if l1 then s.fillLine cl (pa / 128) else s).tasks = s.tasks := by split <;> simp
  unfold State.loadByte
  dsimp only
  split
  · exact hs
  · split <;> exact hs

@[simp] theorem State.storeByte_tasks (s : State) (cl pa : Nat) (v : Byte) (l1 : Bool) : (s.storeByte cl pa v l1).tasks = s.tasks := by
  have hs : (if l1 then s.fillLine cl (pa / 128) else s.setHome pa [v]).tasks = s.tasks := by split <;> simp
  unfold State.storeByte
  dsimp only
  split
  · exact hs
  · split <;> exact hs

@[simp] theorem State.getBytes_tasks (s : State) (cl pa : Nat) (l1 : Bool) (n : Nat) : (s.getBytes cl pa l1 n).2.tasks = s.tasks := by
  induction n generalizing s pa with
  | zero => rfl
  | succ n ih => exact (ih _ _).trans (s.loadByte_tasks cl pa l1)

@[simp] theorem State.putBytes_tasks (s : State) (cl pa : Nat) (l1 : Bool) (bs : List Byte) : (s.putBytes cl pa l1 bs).tasks = s.tasks := by
  induction bs generalizing s pa with
  | nil => rfl
  | cons b bs ih => exact (ih _ _).trans (s.storeByte_tasks cl pa b l1)

@[simp] theorem State.writeBackWhere_tasks (s : State) (cl pa n : Nat) (p : L1Line → Bool) :
    (s.writeBackWhere cl pa n p).tasks = s.tasks := by
  unfold State.writeBackWhere
  split
  · rfl
  · refine foldl_keeps State.tasks _ (fun s k => ?_) _ s
    split
    · split <;> simp
    · rfl

@[simp] theorem State.writeBackEverywhere_tasks (s : State) (line : Nat) : (s.writeBackEverywhere line).tasks = s.tasks :=
  foldl_keeps State.tasks _ (fun s cl => s.writeBackLine_tasks cl line) _ s

@[simp] theorem State.loadBytes_tasks (s : State) (cl pa : Nat) (l1 : Bool) (n : Nat) : (s.loadBytes cl pa l1 n).2.tasks = s.tasks :=
  (State.getBytes_tasks _ _ _ _ _).trans (s.writeBackWhere_tasks _ _ _ _)

@[simp] theorem State.storeBytes_tasks (s : State) (cl pa : Nat) (l1 : Bool) (bs : List Byte) : (s.storeBytes cl pa l1 bs).tasks = s.tasks := by
  unfold State.storeBytes
  rw [State.putBytes_tasks]
  split <;> simp

@[simp] theorem State.releaseAt_tasks (s : State) (cl scope : Nat) : (s.releaseAt cl scope).tasks = s.tasks := by
  unfold State.releaseAt
  split <;> simp

@[simp] theorem State.acquireAt_tasks (s : State) (cl scope : Nat) : (s.acquireAt cl scope).tasks = s.tasks := by
  unfold State.acquireAt
  split <;> simp

/-! ### Translation -/

/-- A translation changes the TLB of its cluster and nothing else (15 R376). -/
theorem State.translate_frame (s : State) (ctx cl va : Nat) (need : Need) :
    (s.translate ctx cl va need).2 = s ∨ ∃ f, (∀ c : Cluster, (f c).l1 = c.l1) ∧ (s.translate ctx cl va need).2 = s.modCluster cl f := by
  unfold State.translate
  dsimp only
  split
  · exact .inl rfl
  · split
    · exact .inl rfl
    · split
      · exact .inl rfl
      · exact .inl rfl
      · refine .inr ⟨_, ?_, rfl⟩
        exact fun _ => rfl

@[simp] theorem State.translate_tasks (s : State) (ctx cl va : Nat) (need : Need) : (s.translate ctx cl va need).2.tasks = s.tasks := by
  obtain e | ⟨f, -, e⟩ := s.translate_frame ctx cl va need <;> rw [e]
  exact State.modCluster_tasks ..

/-! ### Events of a context -/

@[simp] theorem State.putPieces_tasks (s : State) (l : List (Nat × Nat)) (bs : List Byte) : (s.putPieces l bs).tasks = s.tasks := by
  induction l generalizing s bs with
  | nil => rfl
  | cons p l ih => exact ih _ _

theorem State.cpWrite_tasks {s s' : State} {ctx va : Nat} {bs : List Byte} {any : Bool} (h : s.cpWrite ctx va bs any = .ok s') :
    s'.tasks = s.tasks := by
  unfold State.cpWrite at h
  split at h
  · cases h
  · generalize s.mapCp ctx _ _ = r at h
    cases r with
    | ok l => cases h; exact s.putPieces_tasks _ _
    | pend v => cases h
    | fault => cases h

theorem State.writeEvent_tasks {next : Nat → State → State} (hn : ∀ v s, (next v s).tasks = s.tasks) (s : State) (ctx va : Nat)
    (bs : List Byte) : (s.writeEvent next ctx va bs).tasks = s.tasks := by
  rw [State.writeEvent]
  generalize hw : s.cpWrite ctx va bs = r
  cases r with
  | ok s' => exact State.cpWrite_tasks hw
  | fault => rfl
  | pend v =>
    dsimp only
    split
    · rfl
    · split
      · rfl
      · exact hn _ _

theorem State.logEvent_tasks {next : Nat → State → State} (hn : ∀ v s, (next v s).tasks = s.tasks) (s : State)
    (ctx code tree value flags : Nat) : (s.logEvent next ctx code tree value flags).tasks = s.tasks := by
  unfold State.logEvent
  split
  · rfl
  · exact State.writeEvent_tasks hn _ _ _ _

@[simp] theorem State.putEvent_tasks (s : State) (ctx code tree value flags : Nat) : (s.putEvent ctx code tree value flags).tasks = s.tasks :=
  State.logEvent_tasks (fun _ _ => State.logEvent_tasks (fun _ _ => State.logEvent_tasks (fun _ _ => rfl) _ _ _ _ _ _) _ _ _ _ _ _) _ _ _ _ _ _

/-! ### The race filter and accesses -/

@[simp] theorem State.filterOff_tasks (s : State) (tree : Nat) : (s.filterOff tree).tasks = s.tasks := by
  unfold State.filterOff
  split <;> simp

theorem State.clearTail_tasks {s s' : State} {t : Tree} {c : Ctx} {page : Nat} (h : s.clearTail t c page = .ok s') : s'.tasks = s.tasks := by
  unfold State.clearTail at h
  split at h
  · cases h; rfl
  · exact State.cpWrite_tasks h

@[simp] theorem State.enterStrand_tasks (s : State) (tree : Nat) (t : Tree) (st : Strand) (i : Nat) (c : Ctx) (page : Nat) :
    (s.enterStrand tree t st i c page).2.tasks = s.tasks := by
  rw [State.enterStrand]
  split
  · next s' h =>
    generalize hc : s.clearTail t c page = r at h
    cases r with
    | ok s1 => exact (State.cpWrite_tasks h).trans (State.clearTail_tasks hc)
    | pend p => cases h
    | fault => cases h
  · exact s.filterOff_tasks tree

@[simp] theorem State.strandId_tasks (s : State) (tree : Nat) (st : Strand) : (s.strandId tree st).2.tasks = s.tasks := by
  unfold State.strandId
  split
  · rfl
  · split
    · rfl
    · dsimp only
      split
      · rfl
      · split
        · exact s.filterOff_tasks tree
        · split
          · exact s.filterOff_tasks tree
          · exact s.enterStrand_tasks ..

@[simp] theorem State.mark_tasks (s : State) (tree : Nat) (st : Strand) (pa n : Nat) : (s.mark tree st pa n).tasks = s.tasks := by
  have hi := s.strandId_tasks tree st
  unfold State.mark
  split
  · next h => rwa [h] at hi
  · next h =>
    rw [h] at hi
    split
    · exact hi
    · exact (foldl_keeps State.tasks _ (fun s k => s.setHome_tasks _ _) _ _).trans hi

@[simp] theorem State.writeNow_tasks (s : State) (a : Acc) (segs : List Seg) (bs : List Byte) : (s.writeNow a segs bs).tasks = s.tasks := by
  refine foldl_keeps (fun p : State × List Byte => p.1.tasks) _ (fun p g => ?_) segs (s, bs)
  have hm : (if p.1.filtering a g then p.1.mark a.tree a.strand g.pa g.n else p.1).tasks = p.1.tasks := by split <;> simp
  dsimp only
  generalize (if p.1.filtering a g then p.1.mark a.tree a.strand g.pa g.n else p.1) = s1 at hm
  split <;> simp [hm]

@[simp] theorem State.atomHome_tasks (s : State) (a : Acc) (pa n : Nat) (f : Nat → Option Nat) : (s.atomHome a pa n f).2.tasks = s.tasks := by
  unfold State.atomHome
  dsimp only
  repeat' split
  all_goals simp

@[simp] theorem State.storeLate_tasks (s : State) (x : Late) : (s.storeLate x).tasks = s.tasks := by
  unfold State.storeLate
  split
  · rw [State.writeNow_tasks]
    split <;> simp
  · simp
  · simp
  · rfl

@[simp] theorem State.settleStores_tasks (s : State) (tree : Nat) : (s.settleStores tree).tasks = s.tasks :=
  foldl_keeps State.tasks _ (fun s _ => foldl_keeps State.tasks _ (fun s x => s.storeLate_tasks x) _ s) _ s

/-- Where a lookup depends on the list of tasks alone. -/
theorem State.task?_of_tasks {s s' : State} (h : s'.tasks = s.tasks) (id : Nat) : s'.task? id = s.task? id := by
  unfold State.task?
  rw [h]

end Sys2Proof.Machine
end

section
/-! SUPPORT. O43: an instruction that its checks stop, in an agent that issues alone (03 R75, R81), and operation codes that are not assigned (R82). -/

namespace Sys2Proof

open Machine

namespace Machine

/-! ### An agent that issues alone -/

theorem Task.helpersOf_nil (t : Task) : t.helpersOf [] = [] := by
  simp [Task.helpersOf, Task.threadsWhere, idxWhere]

@[simp] theorem issueHelpers_nil (i : Instr) (f : Fields) (b : Option (Who → M Flow)) (id : Nat) (s : State) : issueHelpers i f b id [] s = s := by
  unfold issueHelpers
  split
  · rfl
  · rw [Task.helpersOf_nil]; rfl

theorem issueThreads_one {i : Instr} {f : Fields} {body : Who → M Flow} {id k : Nat} {t : Task} {s : State}
    (found : s.task? id = some t) (ready : t.canIssue k = true) :
    issueThreads i f body id [k] s = ((issueAgent i f body ⟨id, some k⟩ s).1, if (issueAgent i f body ⟨id, some k⟩ s).2 then [k] else []) := by
  simp only [issueThreads, found, ready, if_true]

/-- The issue of an instruction to an agent whose turn it is, where no helper stands in its task afterwards. -/
theorem issue_alone {i : Instr} {f : Fields} {w : Who} {t : Task} {s : State} (F : Facing i f w t s) (body : Who → M Flow)
    (h : Option (Who → M Flow))
    (alone : (issueAgent i f body w s).2 = true → ∀ u, (issueAgent i f body w s).1.task? w.task = some u → ∀ k, (u.thread k).status ≠ .helper) :
    issue i f body h s = .next (issueAgent i f body w s).1 := by
  obtain ⟨id, th⟩ := w
  have found := F.found
  unfold issue
  cases th with
  | none =>
    obtain ⟨hheld, hparked⟩ := F.uniformReady rfl
    simp only at found
    simp [F.cur, found, hheld, hparked]
  | some k =>
    simp only [F.cur, Option.isNone_some, Bool.false_eq_true, if_false, Option.toList, issueThreads_one found (F.threadReady k rfl)]
    split
    · next hr => rw [issueHelpers_none (alone hr)]
    · rw [issueHelpers_nil]

/-! ### An instruction that its checks stop -/

/-- An agent in which the checks stop or suppress an instruction does not come to its effect. -/
theorem issueAgent_stopped {i : Instr} {f : Fields} {w : Who} {t : Task} {s : State} (found : s.task? w.task = some t)
    (hc : check i f t w.thread ≠ .ok false) (body body' : Who → M Flow) : issueAgent i f body w s = issueAgent i f body' w s := by
  unfold issueAgent
  simp only [found]
  split
  · rfl
  · rfl
  · rfl
  · next h => exact absurd h hc

/-- What an agent does at an instruction that its checks stop or suppress: `issueAgent` without the instruction's effect. -/
def stopAgent (i : Instr) (f : Fields) (w : Who) (s : State) : State × Bool := issueAgent i f (fun _ => pure .next) w s

section
variable {i : Instr} {f : Fields} {w : Who} {t : Task} {s : State}

theorem stopAgent_trap (found : s.task? w.task = some t) {r : TrapReq} (h : check i f t w.thread = .trap r) :
    stopAgent i f w s = (s.takeTrap w (t.agent w.thread).pc.toNat ((encode i).getD 0) r, false) := by
  simp only [stopAgent, issueAgent, found, h]

theorem stopAgent_window (found : s.task? w.task = some t) {wd : Window} (h : check i f t w.thread = .window wd) :
    stopAgent i f w s = ((s.modAgent w (fun a => { a with windows := a.windows.erase wd })).takeTrap w (t.agent w.thread).pc.toNat
      ((encode i).getD 0) { cause := cLOOKAHEAD, ident := wd.addr }, false) := by
  simp only [stopAgent, issueAgent, found, h]

theorem stopAgent_suppressed (found : s.task? w.task = some t) (h : check i f t w.thread = .ok true) :
    stopAgent i f w s = (s.retire w .next true (openWindow (shape i) f (t.agent w.thread).pc.toNat (w.thread.isNone && t.handler.isSome)), true) := by
  simp only [stopAgent, issueAgent, found, h]

/-- Only a suppressed instruction retires, and then no helper stands in the task. -/
theorem stopAgent_alone (F : Facing i f w t s) (hc : check i f t w.thread ≠ .ok false) (hr : (stopAgent i f w s).2 = true) :
    ∀ u, (stopAgent i f w s).1.task? w.task = some u → ∀ k, (u.thread k).status ≠ .helper := by
  intro u hu k
  cases h : check i f t w.thread with
  | trap r => rw [stopAgent_trap F.found h] at hr; cases hr
  | window wd => rw [stopAgent_window F.found h] at hr; cases hr
  | ok sup =>
    cases sup with
    | false => exact absurd h hc
    | true =>
      rw [stopAgent_suppressed F.found h] at hu
      cases (State.task?_retire _ _ _ F.found).symm.trans hu
      rw [retireTask_status]
      exact F.alone k

theorem issue_stopped (F : Facing i f w t s) (hc : check i f t w.thread ≠ .ok false) {body : Who → M Flow} {h : Option (Who → M Flow)} :
    issue i f body h s = .next (stopAgent i f w s).1 := by
  have e := issueAgent_stopped F.found hc body (fun _ => pure .next)
  rw [issue_alone F body h (by rw [e]; exact stopAgent_alone F hc), e]
  rfl

theorem issueHelpers_stopAgent (F : Facing i f w t s) (hc : check i f t w.thread ≠ .ok false) (h : Option (Who → M Flow)) (ks : List Nat) :
    issueHelpers i f h w.task (if (stopAgent i f w s).2 then ks else []) (stopAgent i f w s).1 = (stopAgent i f w s).1 := by
  split
  · next hr => exact issueHelpers_none (stopAgent_alone F hc hr)
  · exact issueHelpers_nil ..

end

/-- The issue of the threads of a thread's turn, where the checks stop the instruction. -/
theorem issueThreads_stopped {i : Instr} {f : Fields} {id k : Nat} {t : Task} {s : State} (F : Facing i f ⟨id, some k⟩ t s)
    (hc : check i f t (some k) ≠ .ok false) (body : Who → M Flow) :
    issueThreads i f body id [k] s = ((stopAgent i f ⟨id, some k⟩ s).1, if (stopAgent i f ⟨id, some k⟩ s).2 then [k] else []) := by
  rw [issueThreads_one F.found (F.threadReady k rfl), issueAgent_stopped F.found hc body (fun _ => pure .next)]
  rfl

theorem holdQuads_alone {i : Instr} {f : Fields} {body helper : Who → M Flow} {id : Nat} {ks : List Nat} {t : Task} {s : State}
    (found : s.task? id = some t) (alone : ∀ k, (t.thread k).status ≠ .helper) : holdQuads i f body helper id ks s = (s, ks) := by
  unfold holdQuads
  simp [found, Task.helpersOf_eq_nil ks alone]

section
variable {i : Instr} {f : Fields} {w : Who} {t : Task} {s : State}

theorem issueHeld_stopped (F : Facing i f w t s) (hc : check i f t w.thread ≠ .ok false) {body helper : Who → M Flow} :
    issueHeld i f body helper s = .next (stopAgent i f w s).1 := by
  obtain ⟨id, th⟩ := w
  unfold issueHeld
  cases th with
  | none =>
    rw [if_pos (by rw [F.cur]; rfl)]
    exact issue_stopped F hc
  | some k =>
    have found := F.found
    simp only at found
    simp only [F.cur, Option.isNone_some, Bool.false_eq_true, if_false, Option.toList, found, List.filter_cons, F.threadReady k rfl, if_true,
      List.filter_nil, holdQuads_alone found F.alone, issueThreads_stopped F hc]
    exact congrArg _ (issueHelpers_stopAgent F hc _ [k])

end

/-! ### What a trap leaves of the live threads -/

theorem Task.thread_modThread_ne (t : Task) {k j : Nat} (g : Thread → Thread) (h : j ≠ k) : (t.modThread k g).thread j = t.thread j :=
  getD_updAt_ne t.threads g _ h

theorem Task.liveThreads_congr {t u : Task} (hl : u.threads.length = t.threads.length) (hs : ∀ k, (u.thread k).status = (t.thread k).status) :
    u.liveThreads = t.liveThreads := by
  simp only [Task.liveThreads, Task.threadsWhere, hl, hs]

@[simp] theorem Task.length_modAgent (t : Task) (th : Option Nat) (g : Agent → Agent) : (t.modAgent th g).threads.length = t.threads.length := by
  cases th with
  | none => rfl
  | some k => exact length_updAt ..

@[simp] theorem Task.liveThreads_modAgent (t : Task) (th : Option Nat) (g : Agent → Agent) : (t.modAgent th g).liveThreads = t.liveThreads :=
  Task.liveThreads_congr (t.length_modAgent th g) (t.status_modAgent th g)

@[simp] theorem Task.liveThreads_setJoin (t : Task) (j : Join) : ({ t with join := j } : Task).liveThreads = t.liveThreads := rfl

theorem retireTask_liveThreads (w : Who) (fl : Flow) (b : Bool) (win : List Window) (now : Nat → Nat) (t : Task) :
    (retireTask w fl b win now t).liveThreads = t.liveThreads := by
  refine Task.liveThreads_congr ?_ (retireTask_status w fl b win now t)
  unfold retireTask
  split <;> exact Task.length_modAgent ..

theorem State.found_modTask {s : State} {id : Nat} {t : Task} (found : s.task? id = some t) {g : Task → Task}
    (hg : ∀ u, (g u).entry.id = u.entry.id) : (s.modTask id g).task? id = some (g t) := by
  rw [State.task?_modTask _ _ _ hg, found]
  rfl

theorem State.found_modAgent {s : State} {w : Who} {t : Task} (found : s.task? w.task = some t) (g : Agent → Agent) :
    (s.modAgent w g).task? w.task = some (t.modAgent w.thread g) :=
  State.found_modTask found (by simp)

theorem State.endTask_tasks (s : State) (t : Task) : (s.endTask t).tasks = s.tasks.filter (fun x => x.entry.id != t.entry.id) := by
  unfold State.endTask State.dropTask
  cases t.core? <;> rfl

theorem State.endTasks_tasks (l : List Task) (s : State) :
    (l.foldl (fun s x => s.endTask x) s).tasks = s.tasks.filter (fun x => l.all (fun y => x.entry.id != y.entry.id)) := by
  induction l generalizing s with
  | nil => simp
  | cons t l ih => simp [ih, State.endTask_tasks, List.filter_filter, Bool.and_comm]

/-- A tree that ends takes its tasks with it; one that has ended already stays as it is (13 R323). -/
theorem State.abortTree_cases {s : State} {id status : Nat} {t : Task} (found : s.task? id = some t) :
    s.abortTree t.entry.tree status = s ∨ (s.abortTree t.entry.tree status).task? id = none := by
  unfold State.abortTree
  split
  · exact .inl rfl
  · split
    · exact .inl rfl
    · refine .inr (List.find?_eq_none.mpr fun x hx => ?_)
      have hid : t.entry.id = id := by simpa using List.find?_some found
      have hmem : t ∈ s.tasks := List.mem_of_find?_eq_some found
      have hx := (State.endTasks_tasks _ _).symm ▸ hx
      simp only [State.settleStores_tasks, List.mem_filter, List.all_eq_true] at hx
      have hne := hx.2 t ⟨hmem, by simp⟩
      simpa [hid] using hne

/-- After a trap the agent's task is there with the same live threads, or it has gone with its tree. -/
theorem State.takeTrap_cases {s : State} {w : Who} {t : Task} (found : s.task? w.task = some t) (pc : Nat) (wd : InstrWord) (r : TrapReq) :
    (∃ u, (s.takeTrap w pc wd r).task? w.task = some u ∧ u.liveThreads = t.liveThreads) ∨ (s.takeTrap w pc wd r).task? w.task = none := by
  unfold State.takeTrap
  simp only [found]
  split
  · obtain e | e := State.abortTree_cases (status := stHANDLER_TRAP) found
    · exact .inl ⟨t, by rw [e, found], rfl⟩
    · exact .inr e
  · split
    · exact .inl ⟨_, State.found_modTask (State.found_modAgent found _) (fun _ => rfl),
        (Task.liveThreads_setJoin _ _).trans (Task.liveThreads_modAgent ..)⟩
    · exact .inl ⟨_, State.found_modAgent found _, Task.liveThreads_modAgent ..⟩

theorem State.modTask_of_none {s : State} {id : Nat} (h : s.task? id = none) (g : Task → Task) : s.modTask id g = s := by
  have hid : ∀ t ∈ s.tasks, ¬t.entry.id = id := by simpa [State.task?] using h
  have e : s.tasks.map (fun t => if t.entry.id = id then g t else t) = s.tasks :=
    (List.map_congr_left fun t ht => if_neg (hid t ht)).trans (List.map_id _)
  unfold State.modTask
  rw [e]

/-! ### Every instruction -/

section
variable {f : Fields} {w : Who} {t : Task} {s : State}

theorem stopAgent_live {i : Instr} (F : Facing i f w t s) (hc : check i f t w.thread ≠ .ok false) :
    (∃ u, (stopAgent i f w s).1.task? w.task = some u ∧ u.liveThreads = t.liveThreads) ∨ (stopAgent i f w s).1.task? w.task = none := by
  cases h : check i f t w.thread with
  | trap r =>
    rw [stopAgent_trap F.found h]
    exact State.takeTrap_cases F.found ..
  | window wd =>
    rw [stopAgent_window F.found h]
    rw [← Task.liveThreads_modAgent t w.thread]
    exact State.takeTrap_cases (State.found_modAgent F.found _) ..
  | ok sup =>
    cases sup with
    | false => exact absurd h hc
    | true =>
      rw [stopAgent_suppressed F.found h]
      exact .inl ⟨_, State.task?_retire _ _ _ F.found, retireTask_liveThreads ..⟩

/-- EXIT in a thread that its checks stop: its task has lost no live thread, so that no phase of a barrier completes (13 R335). -/
theorem execExit_stopped (F : Facing (.exit f) f w t s) (hc : check (.exit f) f t w.thread ≠ .ok false) :
    execExit f s = .next (stopAgent (.exit f) f w s).1 := by
  unfold execExit
  simp only [issue_stopped F hc]
  have hcur : s.cur.task = w.task := by rw [F.cur]
  obtain ⟨u, hu, hl⟩ | hn := stopAgent_live F hc
  · rw [if_pos (by rw [hcur, hu, F.found]; exact congrArg some hl)]
  · rw [hcur, State.modTask_of_none hn, ite_self]

theorem execGath_stopped (F : Facing (.gath f) f w t s) (hc : check (.gath f) f t w.thread ≠ .ok false) :
    execGath f s = .next (stopAgent (.gath f) f w s).1 := by
  obtain ⟨id, th⟩ := w
  unfold execGath
  cases th with
  | none =>
    rw [if_pos (by rw [F.cur]; rfl)]
    exact issue_stopped F hc
  | some k =>
    simp only [F.cur, Option.isNone_some, Bool.false_eq_true, if_false, Option.toList, issueThreads_stopped F hc]
    have none_late : ∀ b : Bool, ((if b then [k] else []).isEmpty || ([k].filter fun j => !(if b then [k] else []).contains j).isEmpty) = true := by
      intro b
      cases b <;> simp
    rw [if_pos (none_late _)]
    exact congrArg _ (issueHelpers_stopAgent F hc _ [k])

theorem execDqget_stopped (F : Facing (.dqget f) f w t s) (hc : check (.dqget f) f t w.thread ≠ .ok false) :
    execDqget f s = .next (stopAgent (.dqget f) f w s).1 := by
  obtain ⟨id, th⟩ := w
  unfold execDqget
  cases th with
  | none =>
    rw [if_pos (by rw [F.cur]; rfl)]
    exact issue_stopped F hc
  | some k =>
    simp only [F.cur, Option.isNone_some, Bool.false_eq_true, if_false, Option.toList, issueThreads_stopped F hc]
    exact congrArg _ (issueHelpers_stopAgent F hc _ [k])

end

section
variable {i : Instr} {f : Fields} {w : Who} {t : Task} {s : State}

theorem exchange_uniform (F : Facing i f w t s) (hw : w.thread = none) (hc : check i f t w.thread ≠ .ok false)
    {n : Nat} {val : Task → List Nat → Nat → Nat} : exchange i f n val s = .next (stopAgent i f w s).1 := by
  unfold exchange
  rw [if_pos (by rw [F.cur, hw]; rfl)]
  exact issue_stopped F hc

theorem setWide_uniform (F : Facing i f w t s) (hw : w.thread = none) (hc : check i f t w.thread ≠ .ok false)
    {stays : Nat → Task → Bool} {arrive : Who → Bool → M Flow} {complete : Nat → State → State} {body : Instr → Option (Who → M Flow)} :
    setWide i f stays arrive complete body s = .next (stopAgent i f w s).1 := by
  unfold setWide
  rw [if_pos (by rw [F.cur, hw]; rfl)]
  exact issue_stopped F hc

/-- An instruction that its checks stop or suppress, in an agent that issues alone, has no effect of its own (03 R81). -/
theorem exec_stopped (F : Facing i f w t s) (hw : w.thread = none ∨ together i = false) (hc : check i f t w.thread ≠ .ok false) :
    exec i s = .next (stopAgent i f w s).1 := by
  have hf := F.fields
  cases i with
  | exit g => cases hf; exact execExit_stopped F hc
  | gath g => cases hf; exact execGath_stopped F hc
  | dqget g => cases hf; exact execDqget_stopped F hc
  | ld g | ldh g | hwait g | peddg g | cvprobe g => cases hf; exact issueHeld_stopped F hc
  | qswap g | qbcast g | gshfl g | gvote g | gred g | gscan g | gmatch g =>
    cases hf
    exact exchange_uniform F (hw.resolve_right Bool.noConfusion) hc
  | xset g =>
    cases hf
    change execXset f s = _
    exact setWide_uniform F (hw.resolve_right Bool.noConfusion) hc
  | xdeal g => cases hf; exact setWide_uniform F (hw.resolve_right Bool.noConfusion) hc
  | xend g =>
    cases hf
    change execXend f s = _
    exact setWide_uniform F (hw.resolve_right Bool.noConfusion) hc
  | _ => cases hf <;> exact issue_stopped F hc

end

/-! ### Operation codes that are not assigned (03 R82) -/

theorem decodeOp_future {major minor : Nat} (f : Fields) (h : 0x60 ≤ major) : decodeOp major minor f = none := by
  unfold decodeOp
  split
  case h_15 => rfl
  all_goals omega

theorem exec_unassigned_uniform {wd : InstrWord} {id : Nat} {t : Task} {s : State} (found : s.task? id = some t)
    (hcur : s.cur = { task := id, uniform := true, threads := [] }) (hheld : t.held none = false) (hparked : t.u.ag.parked = none) :
    exec (.unassignedOpcode wd) s = .next (s.takeTrap { task := id } t.u.ag.pc.toNat wd
      { cause := if 0x60 ≤ majorOf wd then cFUTURE_OP else cILLEGAL_OP }) := by
  change execUnassignedOpcode wd s = _
  simp [execUnassignedOpcode, hcur, found, hheld, hparked]

theorem exec_unassigned_thread {wd : InstrWord} {id k : Nat} {t : Task} {s : State} (found : s.task? id = some t)
    (hcur : s.cur = { task := id, uniform := false, threads := [k] }) (ready : t.canIssue k = true) :
    exec (.unassignedOpcode wd) s = .next (s.takeTrap { task := id, thread := some k } (t.thread k).ag.pc.toNat wd
      { cause := if 0x60 ≤ majorOf wd then cFUTURE_OP else cILLEGAL_OP }) := by
  change execUnassignedOpcode wd s = _
  simp [execUnassignedOpcode, hcur, found, ready, State.agent, Task.agent]

end Machine

/-- Settles O43: the checks of every instruction through `exec_stopped`, and the codes that the map does not assign. -/
theorem checksPrecede : Obligations.ChecksPrecede := by
  unfold Obligations.ChecksPrecede
  refine ⟨fun i f w t s F hw => ⟨fun r h => ?trap, fun wd h => ?window, fun h => ?suppressed⟩, fun w => decode_of_decodeOp_none, fun w h => ?future,
    fun w id t s => exec_unassigned_uniform, fun w id k t s => exec_unassigned_thread⟩
  case trap => rw [exec_stopped F hw (by simp [h]), stopAgent_trap F.found h]
  case window => rw [exec_stopped F hw (by simp [h]), stopAgent_window F.found h]
  case suppressed => rw [exec_stopped F hw (by simp [h]), stopAgent_suppressed F.found h]
  case future => exact decode_of_decodeOp_none (decodeOp_future _ h)

end Sys2Proof
end

section
/-! SUPPORT. O42: the checks of a line and of a task's entry (03 R63, R65, R81). -/

namespace Sys2Proof

open Machine

namespace Machine

/-! ### The caches of a core -/

theorem Sparse.get_mem_or_default {α : Type} (d : α) (m : Sparse α) (a : Nat) : Sparse.get d m a = d ∨ (a, Sparse.get d m a) ∈ m := by
  induction m with
  | nil => exact .inl rfl
  | cons e m ih =>
    obtain ⟨k, v⟩ := e
    by_cases h : a = k
    · subst h
      simp [Sparse.get]
    · simpa [Sparse.get, h] using ih

@[simp] theorem State.core_modCore_same (s : State) (k : Nat) (g : Core → Core) : (s.modCore k g).core k = g (s.core k) :=
  Sparse.get_put_same ..

/-- No core's cache holds a line after it was purged. -/
theorem State.purgeLine_icache (s : State) (pa core : Nat) : ∀ l ∈ ((s.purgeLine pa).core core).icache, l.pa ≠ pa := by
  intro l hl
  obtain h | h := Sparse.get_mem_or_default Core.init (s.purgeLine pa).cores core
  · rw [State.core, h] at hl
    cases hl
  · simp only [State.purgeLine, List.mem_filterMap] at h
    obtain ⟨e, -, he⟩ := h
    split at he
    · cases he
    · injection he with he
      injection he with _ he
      rw [State.core] at hl
      simp only [State.purgeLine, ← he, List.mem_filter] at hl
      simpa using hl.2

/-! ### The checks of a line's word -/

theorem lineReservedOk_iff (bytes : List Byte) : lineReservedOk bytes = true ↔ field (lineWord bytes) 25 10 = 0 := by
  simp [lineReservedOk]

theorem lineParityOk_eq_false_iff (bytes : List Byte) : lineParityOk bytes = false ↔
    (∃ k, k < 5 ∧ field (lineWord bytes) (26 + k) (26 + k) ≠ parityBit 96 (lineSlot bytes k).toNat) ∨
      field (lineWord bytes) 31 31 ≠ parityBit 31 (lineWord bytes) := by
  simp [lineParityOk, ← Bool.not_eq_true, imp_iff_not_or]

section
variable (s : State) (t : Task) (pc pa : Nat) {bytes : List Byte}

theorem checkLine_reserved (h : lineReservedOk bytes = false) :
    (s.checkLine t pc pa bytes).1 = .stop (.trap (lineSlot bytes (slotOf pc)) { cause := cILLEGAL_LINE }) := by
  simp [State.checkLine, h]

theorem checkLine_passes (h : lineReservedOk bytes = true) (hp : lineParityOk bytes = true) :
    (s.checkLine t pc pa bytes).1 = .word (lineSlot bytes (slotOf pc)) ((s.core t.coreD).refetch.contains pa) := by
  simp [State.checkLine, h, hp]

theorem checkLine_first (h : lineReservedOk bytes = true) (hp : lineParityOk bytes = false) (h1 : (s.core t.coreD).refetch.contains pa = false) :
    s.checkLine t pc pa bytes = (.stop .again,
      (s.modCore t.coreD (fun c => { c with icache := c.icache.filter (fun l => l.pa != pa) })).setRefetch t.coreD (fun l => pa :: l)) := by
  simp only [State.checkLine, h, hp, h1, Bool.not_true, Bool.false_eq_true, if_false]

theorem checkLine_second (h : lineReservedOk bytes = true) (hp : lineParityOk bytes = false) (h2 : (s.core t.coreD).refetch.contains pa = true) :
    s.checkLine t pc pa bytes = (.stop (.trap (lineSlot bytes (slotOf pc)) { cause := cLINE_PARITY, addr := some (pc / 64 * 64) }),
      (s.setRefetch t.coreD (fun l => l.filter (fun a => a != pa))).purgeLine pa) := by
  simp only [State.checkLine, h, hp, h2, Bool.not_true, Bool.false_eq_true, if_false, if_true]

end

/-! ### The fetch at an agent's program counter -/

section
variable {s : State} {w : Who} {t : Task} (found : s.task? w.task = some t)
include found

theorem fetchFor_notCanonical (h : canonicalVa (t.agent w.thread).pc.toNat = false) :
    s.fetchFor w = (.stop (.trap 0 { cause := cLINE_FETCH, addr := some (t.agent w.thread).pc.toNat }), s) := by
  simp [State.fetchFor, found, h]

theorem fetchFor_fault {s1 : State} (h : canonicalVa (t.agent w.thread).pc.toNat = true)
    (hr : s.readLine t (t.agent w.thread).pc.toNat = (.fault, s1)) :
    s.fetchFor w = (.stop (.trap 0 { cause := cLINE_FETCH, addr := some (t.agent w.thread).pc.toNat }), s1) := by
  simp [State.fetchFor, found, h, hr]

theorem fetchFor_ok {s1 : State} {pa : Nat} {bytes : List Byte} (h : canonicalVa (t.agent w.thread).pc.toNat = true)
    (hr : s.readLine t (t.agent w.thread).pc.toNat = (.ok pa bytes, s1)) :
    s.fetchFor w = s1.checkLine t (t.agent w.thread).pc.toNat pa bytes := by
  simp [State.fetchFor, found, h, hr]

theorem stopFetch_trap (insn : InstrWord) (q : TrapReq) : s.stopFetch w (.trap insn q) = s.takeTrap w (t.agent w.thread).pc.toNat insn q := by
  simp [State.stopFetch, State.agent, found]

theorem checkEntry_pass {s1 : State} (h : s.checkTarget t (t.agent w.thread).pc.toNat = (.pass, s1)) :
    s.checkEntry w = s1.modAgent w (fun a => { a with entry := false }) := by
  simp [State.checkEntry, found, h]

theorem checkEntry_notSlot (h : canonicalVa (t.agent w.thread).pc.toNat = false ∨ isSlotAddr (t.agent w.thread).pc.toNat = false) :
    s.checkEntry w = (s.takeTrap w (t.agent w.thread).pc.toNat 0 { cause := cBAD_TARGET, addr := some (t.agent w.thread).pc.toNat }).modAgent w
      (fun a => { a with pending := a.pending.map (fun p => { p with entry := true }) }) := by
  have hb : s.checkTarget t (t.agent w.thread).pc.toNat = (.bad, s) := by
    unfold State.checkTarget
    rw [if_pos]
    obtain h | h := h <;> simp [h]
  simp [State.checkEntry, found, hb]

end

end Machine

/-- Settles O42: what `fetchFor` and `checkEntry` give, case by case of the line's checks. -/
theorem lineChecks : Obligations.LineChecks := by
  unfold Obligations.LineChecks
  intro s w t found pc
  refine ⟨fetchFor_notCanonical found, fun s1 => fetchFor_fault found, stopFetch_trap found, fun pa bytes s1 hc hr => ?_,
    fun s1 => checkEntry_pass found, checkEntry_notSlot found⟩
  simp only [pc, fetchFor_ok found hc hr, ne_eq, ← lineReservedOk_iff, ← lineParityOk_eq_false_iff, Bool.not_eq_true, Bool.not_eq_false]
  refine ⟨checkLine_reserved s1 t _ pa, checkLine_passes s1 t _ pa, fun h hp h1 => ?first, fun h hp h2 => ?second⟩
  case first =>
    rw [checkLine_first s1 t _ pa h hp h1]
    simp [State.setRefetch]
  case second =>
    rw [checkLine_second s1 t _ pa h hp h2]
    exact ⟨rfl, State.purgeLine_icache _ pa⟩

end Sys2Proof
end

section
/-! SUPPORT. O14: predicate blocks and hints (03 R78, 10 R265, 13 R342). -/

namespace Sys2Proof

open Machine

/-- An instruction whose effect leaves the tasks as they are completes with that effect. -/
theorem issueLane_keepsTasks {i : Instr} {f : Fields} {w : Who} {t : Task} {s s' : State} {body : Who → M Unit} (T : Turn i f w t s)
    (hb : body w s = .ok () s') (ht : s'.tasks = s.tasks) : issueLane i f body s = .next (retired i f w t s') :=
  issue_completes T (run_seq hb) ((State.task?_of_tasks ht _).trans T.found) T.alone

theorem issueLive_keepsTasks {i : Instr} {f : Fields} {w : Who} {t : Task} {s s' : State} {body : Who → M Unit} (T : Turn i f w t s)
    (hb : body w s = .ok () s') (ht : s'.tasks = s.tasks) : issueLive i f body s = .next (retired i f w t s') :=
  issue_completes T (run_seq hb) ((State.task?_of_tasks ht _).trans T.found) T.alone

theorem exec_pblk {f : Fields} {w : Who} {t : Task} {s : State} (T : Turn (.pblk f) f w t s) :
    exec (.pblk f) s = .next (retired (.pblk f) f w t (s.modAgent w (fun a => { a with
      block := { left := mField f 2 0 + 1, pat := iField f 7 0, val := a.pred (mField f 5 3) } }))) :=
  issueLane_completes T rfl (fun _ => by simp) (fun x => x.status_modAgent w.thread _)

/-- What YIELD does to its core: the bundle is not the greedy one any more, or the uniform stream is passed over at its next turn (13 R342). -/
def yieldCore (w : Who) (c : Core) : Core :=
  match w.thread with
  | some _ => { c with greedy := none }
  | none => { c with yielded := w.task :: c.yielded.filter (fun k => k != w.task) }

theorem exec_yield {f : Fields} {w : Who} {t : Task} {s : State} (T : Turn (.yield f) f w t s) :
    exec (.yield f) s = .next (retired (.yield f) f w t (s.modCore t.coreD (yieldCore w))) := by
  refine issueLane_keepsTasks T ?_ (State.modCore_tasks ..)
  rw [run_bind_ok (run_theTask T.found)]
  rfl

/-- Settles O14. -/
theorem blocksAndHints : Obligations.BlocksAndHints := by
  unfold Obligations.BlocksAndHints
  refine ⟨fun f w t s T => ?pblk, fun f w t s T => issueLane_keepsTasks T rfl rfl, fun f w t s T => issueLane_keepsTasks T rfl rfl,
    fun f w t s T => ⟨_, exec_yield T, fun c => ?yield⟩⟩
  case pblk => simpa [mField, iField, field] using exec_pblk T
  case yield => cases h : w.thread <;> simp [yieldCore, h]

end Sys2Proof
end

section
/-! SUPPORT. O13: a return that reloads its stack (13 R338, R340) in a state that holds two tasks of one number. -/

namespace Sys2Proof

open Machine

/-- A return that no predicate guards. -/
def plainRet : Fields := { u := true, la := 0, ret := 0, d := 0, a := 0, b := 0, c := 0, mod := 0, imm := 0 }

/-- Task 1 with a small save slot at address 0 and no thread, its uniform stream with a return stack and a count of spilled addresses. -/
def stackTask (stack : List W64) (spilled : Nat) : Machine.Task :=
  { demoTask 1 with
    entry := { (demoTask 1).entry with rcd := { regs := 24 } }
    savePtr := 0
    u := { ag := { pc := 0x44, stack := stack, spilled := spilled } }
    threads := [] }

/-- The uniform stream of task 1, whose four return addresses are all spilled, has its turn; a second task of the same number has one on chip. The
spill area lies in a page of zeros. -/
def twinState : State :=
  let s := [(0x10000, 0x20001), (0x20000, 0x30001), (0x30000, 0x40001), (0x40000, 0x20001F)].foldl
    (fun s p => s.setHome p.1 (leBytes 8 p.2)) State.reset
  { s with
    power := .running
    clusters := [(0, { partition := some 0 })]
    ctxs := [(0, demoCtx)]
    trees := [demoTree 1]
    tasks := [stackTask [] 4, stackTask [0x50] 0]
    cur := { task := 1, uniform := true, threads := [] }
    nextId := 2 }

/-- The return stack of the second task. -/
def Machine.State.secondStack (s : State) : List W64 := (s.tasks.getD 1 (stackTask [] 0)).u.ag.stack

theorem twinState_turn : Turn (.ret plainRet) plainRet { task := 1 } (stackTask [] 4) twinState where
  fields := rfl
  found := rfl
  cur := rfl
  uniformReady _ := by decide
  threadReady _ h := nomatch h
  alone k := by
    change ((stackTask [] 4).threads.getD k { status := .free }).status ≠ .helper
    simp [stackTask]
  passes := by decide

/-- The reload prepends the four addresses to what the second task has on chip. -/
theorem twinState_exec : (match exec (.ret plainRet) twinState with | .next s => s.secondStack | _ => []) = [0, 0, 0, 0, 0x50] := by
  decide +kernel

/-- The state that the statement names after a reload to an address of no slot. -/
def reloadTrapped (bs : List Byte) (s2 : State) : State :=
  (s2.modAgent { task := 1 } (fun x => { x with stack := fourOf bs, spilled := x.spilled - 4 })).takeTrap { task := 1 } 0x44
    ((encode (.ret plainRet)).getD 0) { cause := cBAD_TARGET, addr := some 0, keep := true }

/-- The area reads as four addresses 0, and the statement leaves just these in the second task. -/
def reloadsZeros : Bool :=
  match twinState.mapRange (Acc.ofTask (stackTask [] 4) none) { r := true } (pieces (twinState.spillArea (stackTask [] 4) none) 32) with
  | (.ok segs, s1) => match s1.readSegs (Acc.ofTask (stackTask [] 4) none) segs with
    | (.ok bs, s2) => decide (fourOf bs = [0, 0, 0, 0]) && decide ((reloadTrapped bs s2).secondStack = [0, 0, 0, 0])
    | _ => false
  | _ => false

theorem reloadsZeros_true : reloadsZeros = true := by decide +kernel

theorem twinState_reload : ∃ segs s1 bs s2,
    twinState.mapRange (Acc.ofTask (stackTask [] 4) none) { r := true } (pieces (twinState.spillArea (stackTask [] 4) none) 32) = (.ok segs, s1) ∧
    s1.readSegs (Acc.ofTask (stackTask [] 4) none) segs = (.ok bs, s2) ∧ fourOf bs = [0, 0, 0] ++ [0] ∧
    (reloadTrapped bs s2).secondStack = [0, 0, 0, 0] := by
  have h := reloadsZeros_true
  unfold reloadsZeros at h
  split at h
  · next segs s1 hm =>
    split at h
    · next bs s2 hr =>
      simp only [Bool.and_eq_true, decide_eq_true_eq] at h
      exact ⟨segs, s1, bs, s2, hm, hr, h⟩
    · cases h
  · cases h

/-- Refutes O13: by its last clause a RET that reloads leaves the reloaded addresses alone on the stack of every task of that number; the model
prepends them to each such task's stack, and in `twinState` a second task of the number has an address on chip. The statement does not ask that
task numbers are distinct. -/
theorem not_controlTransfers : ¬ Obligations.ControlTransfers := by
  unfold Obligations.ControlTransfers
  rintro ⟨-, -, -, -, -, -, -, -, hret⟩
  obtain ⟨-, -, -, hreload⟩ := hret _ _ _ _ twinState_turn
  obtain ⟨segs, s1, bs, s2, hm, hr, hbs, hs⟩ := twinState_reload
  obtain ⟨-, htrap⟩ := hreload (by decide) rfl (by decide) segs s1 bs s2 hm hr _ _ hbs
  have he := twinState_exec
  rw [htrap (.inr (by decide))] at he
  exact absurd (hs.symm.trans he) (by decide)

end Sys2Proof
end

section
/-! SUPPORT. The L1 of a cluster (10 R248, 11 R281): what a byte that the cluster's agents see is after a write-back, a fill and a store. -/

namespace Sys2Proof.Machine

/-! ### Bits -/

theorem bitAt_eq_testBit (v k : Nat) : bitAt v k = v.testBit k := by
  rw [Nat.testBit_eq_decide_div_mod_eq]
  rfl

@[simp] theorem bitAt_zero (k : Nat) : bitAt 0 k = false := by simp [bitAt_eq_testBit]

theorem mem_bitsOf {n v k : Nat} : k ∈ bitsOf n v ↔ k < n ∧ bitAt v k = true := by simp [bitsOf, idxWhere]

theorem bitAt_or_two_pow (v k j : Nat) : bitAt (v ||| 2 ^ k) j = (bitAt v j || decide (k = j)) := by
  simp [bitAt_eq_testBit, Nat.testBit_or, Nat.testBit_two_pow]

theorem div_two_pow_of_bitAt_false {u k : Nat} (h : bitAt u k = false) : (2 ^ k + u) / 2 ^ (k + 1) = u / 2 ^ (k + 1) := by
  have hp : 0 < 2 ^ k := Nat.two_pow_pos k
  have hm : u / 2 ^ k % 2 = 0 := by simpa [bitAt] using h
  rw [pow_succ, ← Nat.div_div_eq_div_mul, ← Nat.div_div_eq_div_mul, Nat.add_div_left _ hp]
  omega

/-- Bit k turned off leaves the other bits. -/
theorem bitAt_sub_two_pow {v k : Nat} (h : bitAt v k = true) (j : Nat) : bitAt (v - 2 ^ k) j = (bitAt v j && decide (j ≠ k)) := by
  obtain ⟨u, rfl⟩ : ∃ u, v = 2 ^ k + u := Nat.exists_eq_add_of_le (Nat.ge_two_pow_of_testBit (by rwa [← bitAt_eq_testBit]))
  have hu : bitAt u k = false := by simpa [bitAt_eq_testBit, Nat.testBit_two_pow_add_eq] using h
  rw [Nat.add_sub_cancel_left]
  obtain hj | rfl | hj := lt_trichotomy j k
  · simp [bitAt_eq_testBit, Nat.testBit_two_pow_add_gt hj, hj.ne]
  · simp [hu]
  · obtain ⟨d, rfl⟩ := Nat.exists_eq_add_of_lt hj
    have e : (2 ^ k + u) / 2 ^ (k + d + 1) = u / 2 ^ (k + d + 1) := by
      rw [show k + d + 1 = (k + 1) + d by omega, pow_add, ← Nat.div_div_eq_div_mul, ← Nat.div_div_eq_div_mul, div_two_pow_of_bitAt_false hu]
    simp [bitAt, e, hj.ne']

/-! ### The clusters of a state -/

@[simp] theorem State.cluster_modCluster_same (s : State) (cl : Nat) (g : Cluster → Cluster) : (s.modCluster cl g).cluster cl = g (s.cluster cl) :=
  Sparse.get_put_same ..

theorem State.cluster_modCluster_ne (s : State) {cl k : Nat} (g : Cluster → Cluster) (h : k ≠ cl) : (s.modCluster cl g).cluster k = s.cluster k :=
  Sparse.get_put_other _ _ _ h

theorem State.cluster_of_clusters {s s' : State} (h : s'.clusters = s.clusters) (cl : Nat) : s'.cluster cl = s.cluster cl := by
  rw [State.cluster, h]
  rfl

theorem Cluster.line_of_line? {c : Cluster} {n : Nat} {l : L1Line} (h : c.line? n = some l) : l.line = n := by
  simpa using List.find?_some h

theorem Cluster.mem_of_line? {c : Cluster} {n : Nat} {l : L1Line} (h : c.line? n = some l) : l ∈ c.l1 := List.mem_of_find?_eq_some h

/-- The copies of one line changed, each staying a copy of it. -/
def Cluster.modLine (c : Cluster) (line : Nat) (g : L1Line → L1Line) : Cluster :=
  { c with l1 := c.l1.map (fun x => if x.line = line then g x else x) }

section
variable {c : Cluster} {line n : Nat} {g : L1Line → L1Line} (hg : ∀ x, (g x).line = x.line)
include hg

theorem Cluster.line?_modLine : (c.modLine line g).line? n = (c.line? n).map (fun x => if x.line = line then g x else x) := by
  unfold Cluster.modLine Cluster.line?
  rw [List.find?_map]
  congr 2
  funext x
  simp only [Function.comp_apply]
  split <;> simp [hg]

theorem Cluster.line?_modLine_same : (c.modLine line g).line? line = (c.line? line).map g := by
  rw [Cluster.line?_modLine hg]
  cases h : c.line? line with
  | none => rfl
  | some l => simp [Cluster.line_of_line? h]

theorem Cluster.line?_modLine_ne (h : n ≠ line) : (c.modLine line g).line? n = c.line? n := by
  rw [Cluster.line?_modLine hg]
  cases hl : c.line? n with
  | none => rfl
  | some l => simp [Cluster.line_of_line? hl, h]

end

/-! ### Bytes seen -/

section
variable {s s' : State} {cl a : Nat}

theorem seen_of_none (h : (s.cluster cl).line? (a / 128) = none) : seen s cl a = Sparse.get 0 s.mem a := by
  simp only [seen, h]

theorem seen_of_some {l : L1Line} (h : (s.cluster cl).line? (a / 128) = some l) :
    seen s cl a = if bitAt l.dirty (a % 128) then l.data.getD (a % 128) 0 else Sparse.get 0 s.mem a := by
  simp only [seen, h]

/-- A byte is seen as before where the copy of its line and its home are as before. -/
theorem seen_congr (hl : (s'.cluster cl).line? (a / 128) = (s.cluster cl).line? (a / 128)) (hm : Sparse.get 0 s'.mem a = Sparse.get 0 s.mem a) :
    seen s' cl a = seen s cl a := by
  simp only [seen, hl, hm]

/-- A byte whose line has no dirty copy is seen as its home has it. -/
theorem seen_of_clean (h : ∀ l, (s.cluster cl).line? (a / 128) = some l → l.dirty = 0) : seen s cl a = Sparse.get 0 s.mem a := by
  cases hl : (s.cluster cl).line? (a / 128) with
  | none => exact seen_of_none hl
  | some l => rw [seen_of_some hl, h l hl, bitAt_zero, if_neg Bool.false_ne_true]

end

/-- Every copy in the L1 of a cluster is whole. -/
def LinesWhole (s : State) (cl : Nat) : Prop := ∀ l ∈ (s.cluster cl).l1, l.data.length = 128

theorem length_read {α : Type} (d : α) (m : Sparse α) (a n : Nat) : (Sparse.read d m a n).length = n := by
  induction n generalizing a with
  | zero => rfl
  | succ n ih => simp [Sparse.read, ih]

@[simp] theorem State.length_home (s : State) (pa n : Nat) : (s.home pa n).length = n := length_read ..

/-! ### Writing a line back -/

theorem State.get_setHome_one (s : State) (pa a : Nat) (b : Byte) : Sparse.get 0 (s.setHome pa [b]).mem a = if a = pa then b else Sparse.get 0 s.mem a := by
  change Sparse.get 0 (Sparse.put 0 s.mem pa b) a = _
  split
  · next h => rw [h, Sparse.get_put_same]
  · next h => exact Sparse.get_put_other _ _ _ h

/-- Bytes of a line written at their home, one by one. -/
theorem State.get_setHome_each (line : Nat) (data : List Byte) (a : Nat) (ks : List Nat) (hks : ∀ k ∈ ks, k < 128) (s : State) :
    Sparse.get 0 (ks.foldl (fun s k => s.setHome (128 * line + k) [data.getD k 0]) s).mem a =
      if a / 128 = line ∧ a % 128 ∈ ks then data.getD (a % 128) 0 else Sparse.get 0 s.mem a := by
  induction ks generalizing s with
  | nil => simp
  | cons k ks ih =>
    obtain ⟨hk, hks⟩ := List.forall_mem_cons.mp hks
    rw [List.foldl_cons, ih hks, State.get_setHome_one]
    have e : a = 128 * line + k ↔ a / 128 = line ∧ a % 128 = k := by omega
    simp only [e, List.mem_cons]
    split <;> split <;> grind

theorem Cluster.modLine_of_none {c : Cluster} {line : Nat} (g : L1Line → L1Line) (h : c.line? line = none) : c.modLine line g = c := by
  have hl : ∀ x ∈ c.l1, x.line ≠ line := by simpa [Cluster.line?] using h
  have e : c.l1.map (fun x => if x.line = line then g x else x) = c.l1 :=
    (List.map_congr_left fun x hx => if_neg (hl x hx)).trans (List.map_id _)
  unfold Cluster.modLine
  rw [e]

/-- The dirty bytes of a copy at their home, and its whole sectors no longer poisoned: the first part of a write-back. -/
def State.putDirty (s : State) (line : Nat) (l : L1Line) : State :=
  [0, 1, 2, 3].foldl (fun s q => if field l.dirty (32 * q + 31) (32 * q) = 2 ^ 32 - 1 then s.scrub (128 * line + 32 * q) 32 else s)
    ((bitsOf 128 l.dirty).foldl (fun s k => s.setHome (128 * line + k) [l.data.getD k 0]) s)

theorem State.putDirty_frame {α : Type} (p : State → α) (hset : ∀ s pa bs, p (s.setHome pa bs) = p s) (hscrub : ∀ s pa n, p (s.scrub pa n) = p s)
    (s : State) (line : Nat) (l : L1Line) : p (s.putDirty line l) = p s := by
  refine (foldl_keeps p _ (fun s q => ?_) _ _).trans (foldl_keeps p _ (fun s k => hset ..) _ s)
  split
  · exact hscrub ..
  · rfl

theorem State.putDirty_clusters (s : State) (line : Nat) (l : L1Line) : (s.putDirty line l).clusters = s.clusters :=
  State.putDirty_frame State.clusters (fun _ _ _ => rfl) (fun _ _ _ => rfl) s line l

theorem State.putDirty_cores (s : State) (line : Nat) (l : L1Line) : (s.putDirty line l).cores = s.cores :=
  State.putDirty_frame State.cores (fun _ _ _ => rfl) (fun _ _ _ => rfl) s line l

theorem State.get_putDirty (s : State) (line : Nat) (l : L1Line) (a : Nat) : Sparse.get 0 (s.putDirty line l).mem a =
    if a / 128 = line ∧ bitAt l.dirty (a % 128) = true then l.data.getD (a % 128) 0 else Sparse.get 0 s.mem a := by
  have hm : ∀ s' : State, ([0, 1, 2, 3].foldl (fun s q =>
      if field l.dirty (32 * q + 31) (32 * q) = 2 ^ 32 - 1 then s.scrub (128 * line + 32 * q) 32 else s) s').mem = s'.mem :=
    foldl_keeps State.mem _ (fun s q => by split <;> rfl) _
  rw [State.putDirty, hm, State.get_setHome_each line _ _ _ (fun k hk => (mem_bitsOf.mp hk).1)]
  simp [mem_bitsOf, Nat.mod_lt]

theorem State.writeBackLine_of_none {s : State} {cl line : Nat} (h : (s.cluster cl).line? line = none) : s.writeBackLine cl line = s := by
  unfold State.writeBackLine
  rw [h]

theorem State.writeBackLine_of_some {s : State} {cl line : Nat} {l : L1Line} (h : (s.cluster cl).line? line = some l) :
    s.writeBackLine cl line = (s.putDirty line l).modCluster cl (fun c => c.modLine line (fun x =>
      { x with dirty := 0, data := (s.putDirty line l).home (128 * line) 128 })) := by
  unfold State.writeBackLine
  rw [h]
  rfl

/-- What a write-back leaves of a cluster's L1: clean copies of the line. -/
theorem State.cluster_writeBackLine (s : State) (cl line : Nat) : ∃ d, d.length = 128 ∧
    (s.writeBackLine cl line).cluster cl = (s.cluster cl).modLine line (fun x => { x with dirty := 0, data := d }) := by
  cases h : (s.cluster cl).line? line with
  | none =>
    rw [State.writeBackLine_of_none h]
    exact ⟨List.replicate 128 0, List.length_replicate, (Cluster.modLine_of_none _ h).symm⟩
  | some l =>
    rw [State.writeBackLine_of_some h]
    refine ⟨_, State.length_home (s.putDirty line l) (128 * line) 128, ?_⟩
    rw [State.cluster_modCluster_same, State.cluster_of_clusters (s.putDirty_clusters line l)]

theorem State.cluster_writeBackLine_ne (s : State) {cl k : Nat} (line : Nat) (hk : k ≠ cl) : (s.writeBackLine cl line).cluster k = s.cluster k := by
  cases h : (s.cluster cl).line? line with
  | none => rw [State.writeBackLine_of_none h]
  | some l => rw [State.writeBackLine_of_some h, State.cluster_modCluster_ne _ _ hk, State.cluster_of_clusters (s.putDirty_clusters line l)]

@[simp] theorem State.writeBackLine_cores (s : State) (cl line : Nat) : (s.writeBackLine cl line).cores = s.cores := by
  cases h : (s.cluster cl).line? line with
  | none => rw [State.writeBackLine_of_none h]
  | some l => rw [State.writeBackLine_of_some h, State.modCluster_cores, State.putDirty_cores]

/-- The home of the line that is written back gets what the cluster saw. -/
theorem State.get_writeBackLine (s : State) (cl line a : Nat) :
    Sparse.get 0 (s.writeBackLine cl line).mem a = if a / 128 = line then seen s cl a else Sparse.get 0 s.mem a := by
  cases h : (s.cluster cl).line? line with
  | none =>
    rw [State.writeBackLine_of_none h]
    split
    · next ha => exact (seen_of_none (ha ▸ h)).symm
    · rfl
  | some l =>
    rw [State.writeBackLine_of_some h, State.modCluster_mem, State.get_putDirty]
    by_cases ha : a / 128 = line
    · simp [ha, seen_of_some (ha ▸ h)]
    · simp [ha]

theorem State.line?_writeBackLine_ne (s : State) {cl line n : Nat} (hn : n ≠ line) :
    ((s.writeBackLine cl line).cluster cl).line? n = (s.cluster cl).line? n := by
  obtain ⟨d, -, hd⟩ := s.cluster_writeBackLine cl line
  rw [hd]
  exact Cluster.line?_modLine_ne (fun _ => rfl) hn

theorem State.clean_writeBackLine (s : State) (cl line : Nat) : ∀ l ∈ ((s.writeBackLine cl line).cluster cl).l1, l.line = line → l.dirty = 0 := by
  obtain ⟨d, -, hd⟩ := s.cluster_writeBackLine cl line
  rw [hd]
  intro l hl
  obtain ⟨x, -, rfl⟩ := List.mem_map.mp hl
  split
  · exact fun _ => rfl
  · next h => exact fun h' => absurd h' h

/-- A write-back changes nothing that the cluster sees. -/
@[simp] theorem seen_writeBackLine (s : State) (cl line a : Nat) : seen (s.writeBackLine cl line) cl a = seen s cl a := by
  by_cases ha : a / 128 = line
  · rw [seen_of_clean fun l hl => s.clean_writeBackLine cl line l (Cluster.mem_of_line? hl) ((Cluster.line_of_line? hl).trans ha),
      State.get_writeBackLine, if_pos ha]
  · exact seen_congr (s.line?_writeBackLine_ne ha) ((s.get_writeBackLine cl line a).trans (if_neg ha))

theorem linesWhole_writeBackLine {s : State} {cl : Nat} (h : LinesWhole s cl) (line : Nat) : LinesWhole (s.writeBackLine cl line) cl := by
  obtain ⟨d, hd, he⟩ := s.cluster_writeBackLine cl line
  intro l hl
  rw [he] at hl
  obtain ⟨x, hx, rfl⟩ := List.mem_map.mp hl
  split
  · exact hd
  · exact h x hx

/-! ### Dropping and filling a line -/

@[simp] theorem seen_dropLine (s : State) (cl line a : Nat) : seen (s.dropLine cl line) cl a = seen s cl a := by
  have hline : ∀ n, ((s.dropLine cl line).cluster cl).line? n = if n = line then none else ((s.writeBackLine cl line).cluster cl).line? n := by
    intro n
    rw [State.dropLine, State.cluster_modCluster_same, Cluster.line?, List.find?_filter]
    split
    · next h => simp [h]
    · next h =>
      rw [Cluster.line?]
      congr 1
      funext x
      by_cases hx : x.line = n <;> simp [hx, h]
  rw [← seen_writeBackLine s cl line a]
  by_cases ha : a / 128 = line
  · rw [seen_of_none (by rw [hline, if_pos ha]),
      seen_of_clean fun l hl => s.clean_writeBackLine cl line l (Cluster.mem_of_line? hl) ((Cluster.line_of_line? hl).trans ha)]
    rfl
  · exact seen_congr (by rw [hline, if_neg ha]) rfl

theorem linesWhole_dropLine {s : State} {cl : Nat} (h : LinesWhole s cl) (line : Nat) : LinesWhole (s.dropLine cl line) cl := by
  intro l hl
  rw [State.dropLine, State.cluster_modCluster_same] at hl
  exact linesWhole_writeBackLine h line l (List.mem_of_mem_filter hl)

/-- A clean copy of a line that has none is taken. -/
def State.takeLine (s : State) (cl line : Nat) : State :=
  s.modCluster cl (fun c => { c with l1 := c.l1 ++ [{ line := line, data := s.home (128 * line) 128, filled := s.cycle cl }] })

theorem State.fillLine_of_some {s : State} {cl line : Nat} (h : ((s.cluster cl).line? line).isSome = true) : s.fillLine cl line = s := by
  simp [State.fillLine, h]

theorem State.fillLine_of_none {s : State} {cl line : Nat} (h : ((s.cluster cl).line? line).isSome = false) :
    ∃ s', (s' = s ∨ ∃ k, s' = s.dropLine cl k) ∧ s.fillLine cl line = s'.takeLine cl line := by
  unfold State.fillLine
  simp only [h, Bool.false_eq_true, if_false]
  refine ⟨_, ?_, rfl⟩
  split
  · split
    · next l _ => exact .inr ⟨l.line, rfl⟩
    · exact .inl rfl
  · exact .inl rfl

theorem State.line?_takeLine (s : State) (cl line n : Nat) : ((s.takeLine cl line).cluster cl).line? n = (((s.cluster cl).line? n).or
    (if line = n then some { line := line, data := s.home (128 * line) 128, filled := s.cycle cl } else none)) := by
  rw [State.takeLine, State.cluster_modCluster_same]
  simp only [Cluster.line?, List.find?_append, List.find?_singleton, beq_iff_eq]

theorem seen_takeLine (s : State) (cl line a : Nat) : seen (s.takeLine cl line) cl a = seen s cl a := by
  have hl := s.line?_takeLine cl line (a / 128)
  cases h : (s.cluster cl).line? (a / 128) with
  | some l => exact seen_congr (by rw [hl, h]; rfl) rfl
  | none =>
    rw [seen_of_none h]
    refine seen_of_clean fun l hs => ?_
    rw [hl, h, Option.none_or] at hs
    split at hs
    · cases hs; rfl
    · cases hs

theorem linesWhole_takeLine {s : State} {cl : Nat} (h : LinesWhole s cl) (line : Nat) : LinesWhole (s.takeLine cl line) cl := by
  intro l hl
  rw [State.takeLine, State.cluster_modCluster_same] at hl
  obtain hl | rfl := List.mem_append.mp hl |>.imp_right List.mem_singleton.mp
  · exact h l hl
  · exact State.length_home ..

/-- Taking a line into the L1 changes nothing that the cluster sees. -/
@[simp] theorem seen_fillLine (s : State) (cl line a : Nat) : seen (s.fillLine cl line) cl a = seen s cl a := by
  cases h : ((s.cluster cl).line? line).isSome with
  | true => rw [State.fillLine_of_some h]
  | false =>
    obtain ⟨s', rfl | ⟨k, rfl⟩, he⟩ := State.fillLine_of_none h
    · rw [he, seen_takeLine]
    · rw [he, seen_takeLine, seen_dropLine]

theorem linesWhole_fillLine {s : State} {cl : Nat} (hw : LinesWhole s cl) (line : Nat) : LinesWhole (s.fillLine cl line) cl := by
  cases h : ((s.cluster cl).line? line).isSome with
  | true => rwa [State.fillLine_of_some h]
  | false =>
    obtain ⟨s', rfl | ⟨k, rfl⟩, he⟩ := State.fillLine_of_none h
    · exact he ▸ linesWhole_takeLine hw line
    · exact he ▸ linesWhole_takeLine (linesWhole_dropLine hw k) line

theorem State.line?_fillLine_isSome (s : State) (cl line : Nat) : (((s.fillLine cl line).cluster cl).line? line).isSome = true := by
  cases h : ((s.cluster cl).line? line).isSome with
  | true => rwa [State.fillLine_of_some h]
  | false =>
    obtain ⟨s', -, he⟩ := State.fillLine_of_none h
    simp [he, State.line?_takeLine]

/-! ### Storing bytes -/

/-- What a store of a byte does to a copy of its line. -/
def L1Line.store (x : L1Line) (k : Nat) (v : Byte) (l1 : Bool) (now : Nat) : L1Line :=
  { x with data := updAt x.data k (fun _ => v)
           dirty := if l1 then x.dirty ||| 2 ^ k else (if bitAt x.dirty k then x.dirty - 2 ^ k else x.dirty)
           dirtied := if l1 && x.dirty == 0 then now else x.dirtied }

theorem L1Line.bitAt_store (x : L1Line) (k j : Nat) (v : Byte) (l1 : Bool) (now : Nat) :
    bitAt (x.store k v l1 now).dirty j = if j = k then l1 else bitAt x.dirty j := by
  unfold L1Line.store
  cases l1 with
  | true =>
    simp only [if_true, bitAt_or_two_pow, eq_comm (a := k)]
    split <;> simp_all
  | false =>
    simp only [Bool.false_eq_true, if_false]
    split
    · next h => rw [bitAt_sub_two_pow h]; split <;> simp_all
    · split <;> simp_all

/-- The state that a store of a byte starts from: its line taken, or the byte at its home. -/
def State.beforeStore (s : State) (cl pa : Nat) (v : Byte) (l1 : Bool) : State := if l1 then s.fillLine cl (pa / 128) else s.setHome pa [v]

theorem State.storeByte_of_none {s : State} {cl pa : Nat} {v : Byte} {l1 : Bool} (h : ((s.beforeStore cl pa v l1).cluster cl).line? (pa / 128) = none) :
    s.storeByte cl pa v l1 = s.beforeStore cl pa v l1 := by
  unfold State.storeByte
  rw [show (if l1 then s.fillLine cl (pa / 128) else s.setHome pa [v]) = s.beforeStore cl pa v l1 from rfl]
  simp only [h]

theorem State.storeByte_of_some {s : State} {cl pa : Nat} {v : Byte} {l1 : Bool} {l : L1Line}
    (h : ((s.beforeStore cl pa v l1).cluster cl).line? (pa / 128) = some l) :
    s.storeByte cl pa v l1 = (s.beforeStore cl pa v l1).modCluster cl (fun c =>
      c.modLine (pa / 128) (fun x => x.store (pa % 128) v l1 ((s.beforeStore cl pa v l1).cycle cl))) := by
  unfold State.storeByte
  rw [show (if l1 then s.fillLine cl (pa / 128) else s.setHome pa [v]) = s.beforeStore cl pa v l1 from rfl]
  simp only [h, Cluster.line_of_line? h, if_true]
  rfl

/-- The copy that a store of a byte leaves of its line, and of the others. -/
theorem State.line?_storeByte {s : State} {cl pa : Nat} {v : Byte} {l1 : Bool} {l : L1Line}
    (h : ((s.beforeStore cl pa v l1).cluster cl).line? (pa / 128) = some l) :
    ((s.storeByte cl pa v l1).cluster cl).line? (pa / 128) = some (l.store (pa % 128) v l1 ((s.beforeStore cl pa v l1).cycle cl)) := by
  rw [State.storeByte_of_some h, State.cluster_modCluster_same, Cluster.line?_modLine_same (g := fun x => x.store ..) (fun _ => rfl), h]
  rfl

theorem State.line?_storeByte_ne {s : State} {cl pa : Nat} {v : Byte} {l1 : Bool} {l : L1Line}
    (h : ((s.beforeStore cl pa v l1).cluster cl).line? (pa / 128) = some l) {n : Nat} (hn : n ≠ pa / 128) :
    ((s.storeByte cl pa v l1).cluster cl).line? n = ((s.beforeStore cl pa v l1).cluster cl).line? n := by
  rw [State.storeByte_of_some h, State.cluster_modCluster_same, Cluster.line?_modLine_ne (g := fun x => x.store ..) (fun _ => rfl) hn]

theorem State.storeByte_mem {s : State} {cl pa : Nat} {v : Byte} {l1 : Bool} {l : L1Line}
    (h : ((s.beforeStore cl pa v l1).cluster cl).line? (pa / 128) = some l) : (s.storeByte cl pa v l1).mem = (s.beforeStore cl pa v l1).mem := by
  rw [State.storeByte_of_some h, State.modCluster_mem]

theorem linesWhole_of_clusters {s s' : State} {cl : Nat} (h : s'.clusters = s.clusters) (hw : LinesWhole s cl) : LinesWhole s' cl := by
  unfold LinesWhole
  rwa [State.cluster_of_clusters h]

theorem linesWhole_beforeStore {s : State} {cl : Nat} (h : LinesWhole s cl) (pa : Nat) (v : Byte) (l1 : Bool) :
    LinesWhole (s.beforeStore cl pa v l1) cl := by
  cases l1 with
  | true => exact linesWhole_fillLine h _
  | false => exact linesWhole_of_clusters rfl h

theorem linesWhole_storeByte {s : State} {cl : Nat} (h : LinesWhole s cl) (pa : Nat) (v : Byte) (l1 : Bool) : LinesWhole (s.storeByte cl pa v l1) cl := by
  have hb := linesWhole_beforeStore h pa v l1
  cases hl : ((s.beforeStore cl pa v l1).cluster cl).line? (pa / 128) with
  | none => rwa [State.storeByte_of_none hl]
  | some l =>
    rw [State.storeByte_of_some hl]
    intro l hl
    rw [State.cluster_modCluster_same] at hl
    obtain ⟨x, hx, rfl⟩ := List.mem_map.mp hl
    split
    · exact (length_updAt ..).trans (hb x hx)
    · exact hb x hx

/-- A byte other than the one to be stored is seen as before. -/
theorem seen_beforeStore_ne (s : State) {cl pa a : Nat} (v : Byte) (l1 : Bool) (h : a ≠ pa) : seen (s.beforeStore cl pa v l1) cl a = seen s cl a := by
  cases l1 with
  | true => exact seen_fillLine ..
  | false => exact seen_congr rfl ((s.get_setHome_one pa a v).trans (if_neg h))

/-- The byte to be stored, where it goes to its home. -/
theorem State.get_beforeStore_home (s : State) (cl pa : Nat) (v : Byte) : Sparse.get 0 (s.beforeStore cl pa v false).mem pa = v :=
  (s.get_setHome_one pa pa v).trans (if_pos rfl)

theorem seen_storeByte_same {s : State} {cl : Nat} (hw : LinesWhole s cl) (pa : Nat) (v : Byte) (l1 : Bool) :
    seen (s.storeByte cl pa v l1) cl pa = v := by
  cases h : ((s.beforeStore cl pa v l1).cluster cl).line? (pa / 128) with
  | none =>
    rw [State.storeByte_of_none h]
    cases l1 with
    | true => exact absurd (s.line?_fillLine_isSome cl (pa / 128)) (by simpa [State.beforeStore] using h)
    | false => rw [seen_of_none h, State.get_beforeStore_home]
  | some l =>
    rw [seen_of_some (State.line?_storeByte h), L1Line.bitAt_store, if_pos rfl, State.storeByte_mem h]
    cases l1 with
    | true =>
      have hlen := linesWhole_beforeStore hw pa v true l (Cluster.mem_of_line? h)
      exact getD_updAt_same l.data (pa % 128) (fun _ => v) 0 (by rw [hlen]; omega)
    | false => exact State.get_beforeStore_home ..

theorem seen_storeByte_ne (s : State) (cl : Nat) {pa a : Nat} (v : Byte) (l1 : Bool) (ha : a ≠ pa) :
    seen (s.storeByte cl pa v l1) cl a = seen s cl a := by
  rw [← seen_beforeStore_ne s v l1 ha]
  cases h : ((s.beforeStore cl pa v l1).cluster cl).line? (pa / 128) with
  | none => rw [State.storeByte_of_none h]
  | some l =>
    by_cases hl : a / 128 = pa / 128
    · have hk : a % 128 ≠ pa % 128 := by omega
      have hd : ∀ now, (l.store (pa % 128) v l1 now).data.getD (a % 128) 0 = l.data.getD (a % 128) 0 := fun _ => getD_updAt_ne l.data _ 0 hk
      rw [seen_of_some (hl ▸ State.line?_storeByte h), seen_of_some (hl ▸ h), L1Line.bitAt_store, if_neg hk, hd, State.storeByte_mem h]
    · exact seen_congr (State.line?_storeByte_ne h hl) (by rw [State.storeByte_mem h])

theorem linesWhole_putBytes {s : State} {cl : Nat} (h : LinesWhole s cl) (pa : Nat) (l1 : Bool) (bs : List Byte) :
    LinesWhole (s.putBytes cl pa l1 bs) cl := by
  induction bs generalizing s pa with
  | nil => exact h
  | cons b bs ih => exact ih (linesWhole_storeByte h pa b l1) (pa + 1)

theorem seen_putBytes_below (s : State) (cl pa : Nat) (l1 : Bool) (bs : List Byte) {a : Nat} (ha : a < pa) :
    seen (s.putBytes cl pa l1 bs) cl a = seen s cl a := by
  induction bs generalizing s pa with
  | nil => rfl
  | cons b bs ih => exact (ih _ (pa + 1) (by omega)).trans (seen_storeByte_ne s cl b l1 (by omega))

/-- Bytes stored are seen. -/
theorem seen_putBytes {s : State} {cl : Nat} (hw : LinesWhole s cl) (pa : Nat) (l1 : Bool) {bs : List Byte} {k : Nat} (hk : k < bs.length) :
    seen (s.putBytes cl pa l1 bs) cl (pa + k) = bs.getD k 0 := by
  induction bs generalizing s pa k with
  | nil => cases hk
  | cons b bs ih =>
    cases k with
    | zero => exact (seen_putBytes_below _ cl (pa + 1) l1 bs (by omega)).trans (seen_storeByte_same hw pa b l1)
    | succ k =>
      rw [show pa + (k + 1) = pa + 1 + k by omega]
      exact ih (linesWhole_storeByte hw pa b l1) (pa + 1) (Nat.lt_of_succ_lt_succ hk)

theorem linesWhole_writeBackWhere {s : State} {cl : Nat} (h : LinesWhole s cl) (pa n : Nat) (p : L1Line → Bool) :
    LinesWhole (s.writeBackWhere cl pa n p) cl := by
  unfold State.writeBackWhere
  split
  · exact h
  · refine List.foldlRecOn (motive := fun s => LinesWhole s cl) (linesOf pa n) _ h fun s hs k _ => ?_
    split
    · split
      · exact linesWhole_writeBackLine hs k
      · exact hs
    · exact hs

theorem seen_storeBytes {s : State} {cl : Nat} (hw : LinesWhole s cl) (pa : Nat) (l1 : Bool) {bs : List Byte} {k : Nat} (hk : k < bs.length) :
    seen (s.storeBytes cl pa l1 bs) cl (pa + k) = bs.getD k 0 := by
  unfold State.storeBytes
  split
  · exact seen_putBytes hw pa l1 hk
  · exact seen_putBytes (linesWhole_writeBackWhere hw pa _ _) pa l1 hk

/-! ### Writing every line back -/

theorem State.line?_writeBack_dirty (s : State) (cl line : Nat) :
    ∀ l ∈ ((s.writeBackLine cl line).cluster cl).l1, l.dirty ≠ 0 → l.line ≠ line ∧ ∃ x ∈ (s.cluster cl).l1, x.line = l.line ∧ x.dirty ≠ 0 := by
  obtain ⟨d, -, hd⟩ := s.cluster_writeBackLine cl line
  rw [hd]
  intro l hl hne
  obtain ⟨x, hx, rfl⟩ := List.mem_map.mp hl
  split at hne
  · exact absurd rfl hne
  · next h => simpa [h] using ⟨x, hx, rfl, hne⟩

/-- Writing back a list of lines leaves dirty only lines outside it. -/
theorem State.dirty_writeBackEach (cl : Nat) (ls : List L1Line) (s : State) :
    ∀ l ∈ ((ls.foldl (fun s l => s.writeBackLine cl l.line) s).cluster cl).l1, l.dirty ≠ 0 →
      (∀ x ∈ ls, x.line ≠ l.line) ∧ ∃ x ∈ (s.cluster cl).l1, x.line = l.line ∧ x.dirty ≠ 0 := by
  induction ls generalizing s with
  | nil => exact fun l hl hne => ⟨nofun, l, hl, rfl, hne⟩
  | cons y ls ih =>
    intro l hl hne
    obtain ⟨hls, x, hx, hxl, hxd⟩ := ih _ l hl hne
    obtain ⟨hy, z, hz, hzl, hzd⟩ := s.line?_writeBack_dirty cl y.line x hx hxd
    exact ⟨List.forall_mem_cons.mpr ⟨hxl ▸ hy.symm, hls⟩, z, hz, hzl.trans hxl, hzd⟩

/-- No copy is dirty after every line was written back. -/
theorem State.clean_writeBackAll (s : State) (cl : Nat) : ∀ l ∈ ((s.writeBackAll cl).cluster cl).l1, l.dirty = 0 := by
  intro l hl
  by_contra hne
  obtain ⟨hls, x, hx, hxl, hxd⟩ := State.dirty_writeBackEach cl _ s l hl hne
  exact hls x (List.mem_filter.mpr ⟨hx, by simpa using hxd⟩) hxl

@[simp] theorem seen_writeBackAll (s : State) (cl a : Nat) : seen (s.writeBackAll cl) cl a = seen s cl a :=
  foldl_keeps (fun s => seen s cl a) _ (fun s _ => seen_writeBackLine s cl _ a) _ s

/-- Every byte stands at its home as the cluster sees it, after every line was written back. -/
theorem State.get_writeBackAll (s : State) (cl a : Nat) : Sparse.get 0 (s.writeBackAll cl).mem a = seen s cl a := by
  rw [← seen_writeBackAll, seen_of_clean fun l hl => s.clean_writeBackAll cl l (Cluster.mem_of_line? hl)]

@[simp] theorem State.writeBackAll_cores (s : State) (cl : Nat) : (s.writeBackAll cl).cores = s.cores :=
  foldl_keeps State.cores _ (fun s _ => s.writeBackLine_cores _ _) _ s

@[simp] theorem State.writeBackLine_partition (s : State) (cl line k : Nat) :
    ((s.writeBackLine cl line).cluster k).partition = (s.cluster k).partition := by
  by_cases hk : k = cl
  · subst hk
    obtain ⟨d, -, hd⟩ := s.cluster_writeBackLine k line
    rw [hd]
    rfl
  · rw [s.cluster_writeBackLine_ne line hk]

@[simp] theorem State.writeBackAll_partition (s : State) (cl k : Nat) :
    ((s.writeBackAll cl).cluster k).partition = (s.cluster k).partition :=
  foldl_keeps (fun s => (s.cluster k).partition) _ (fun s _ => s.writeBackLine_partition _ _ k) _ s

end Sys2Proof.Machine
end

section
/-! SUPPORT. O40: what a change of the clusters and cores of a partition does, ICSYNC and TLBINV (03 R88; 17 R422, R423). -/

namespace Sys2Proof

open Machine

namespace Machine

/-! ### A change of a partition -/

/-- The clusters of a partition that the state names. -/
def State.partitionClusters (s : State) (p : Nat) : List Nat := (s.clusters.filter (fun c => c.2.partition == some p)).map (fun c => c.1)

theorem State.mem_partitionClusters {s : State} {p cl : Nat} (h : (s.cluster cl).partition = some p) : cl ∈ s.partitionClusters p := by
  obtain hd | hm := Sparse.get_mem_or_default Cluster.init s.clusters cl
  · rw [State.cluster, hd] at h
    cases h
  · exact List.mem_map.mpr ⟨_, List.mem_filter.mpr ⟨hm, beq_iff_eq.mpr h⟩, rfl⟩

/-- Changing the values at keys by an idempotent function changes each of them once. -/
theorem get_modifyEach {α : Type} [DecidableEq α] {d : α} {f : α → α} (hf : ∀ x, f (f x) = f x) (ks : List Nat) (m : Sparse α) (k : Nat) :
    Sparse.get d (ks.foldl (fun m k => Sparse.modify d m k f) m) k = if k ∈ ks then f (Sparse.get d m k) else Sparse.get d m k := by
  induction ks generalizing m with
  | nil => simp
  | cons j ks ih =>
    have hj : Sparse.get d (Sparse.modify d m j f) k = if k = j then f (Sparse.get d m k) else Sparse.get d m k := by
      unfold Sparse.modify
      split
      · next h => rw [h, Sparse.get_put_same]
      · next h => exact Sparse.get_put_other _ _ _ h
    rw [List.foldl_cons, ih, hj]
    by_cases h : k = j <;> by_cases h' : k ∈ ks <;> simp [h, h', hf]

theorem State.clusters_modEach (ks : List Nat) (f : Cluster → Cluster) (s : State) :
    (ks.foldl (fun s k => s.modCluster k f) s).clusters = ks.foldl (fun m k => Sparse.modify Cluster.init m k f) s.clusters := by
  induction ks generalizing s with
  | nil => rfl
  | cons k ks ih => exact ih _

theorem State.cores_modEach (ks : List Nat) (g : Core → Core) (s : State) :
    (ks.foldl (fun s k => s.modCore k g) s).cores = ks.foldl (fun m k => Sparse.modify Core.init m k g) s.cores := by
  induction ks generalizing s with
  | nil => rfl
  | cons k ks ih => exact ih _

section
variable (s : State) (p : Nat) (f : Cluster → Cluster) (g : Core → Core)

theorem State.mapPartition_frame {α : Type} (q : State → α) (hc : ∀ s k, q (s.modCluster k f) = q s) (hk : ∀ s k, q (s.modCore k g) = q s) :
    q (s.mapPartition p f g) = q s :=
  (foldl_keeps q _ hk _ _).trans (foldl_keeps q _ hc _ s)

theorem State.mapPartition_mem : (s.mapPartition p f g).mem = s.mem := s.mapPartition_frame p f g State.mem (fun _ _ => rfl) (fun _ _ => rfl)

theorem State.mapPartition_tasks : (s.mapPartition p f g).tasks = s.tasks :=
  s.mapPartition_frame p f g State.tasks (fun _ _ => rfl) (fun _ _ => rfl)

theorem State.mapPartition_clusters :
    (s.mapPartition p f g).clusters = (s.partitionClusters p).foldl (fun m k => Sparse.modify Cluster.init m k f) s.clusters := by
  unfold State.mapPartition
  dsimp only
  rw [foldl_keeps State.clusters _ (fun s k => State.modCore_clusters s k g)]
  exact State.clusters_modEach ..

theorem State.mapPartition_cores : (s.mapPartition p f g).cores =
    ((s.cores.map (fun c => c.1)).filter (fun k => (s.partitionClusters p).contains (clusterOf k))).foldl (fun m k => Sparse.modify Core.init m k g) s.cores := by
  unfold State.mapPartition
  dsimp only
  rw [State.cores_modEach, foldl_keeps State.cores _ (fun s k => State.modCluster_cores s k f)]
  rfl

end

theorem State.cluster_mapPartition (s : State) (p : Nat) {f : Cluster → Cluster} (g : Core → Core) (hf : ∀ x, f (f x) = f x) (cl : Nat) :
    (s.mapPartition p f g).cluster cl = if cl ∈ s.partitionClusters p then f (s.cluster cl) else s.cluster cl := by
  rw [State.cluster, State.mapPartition_clusters, get_modifyEach hf]
  rfl

theorem State.cluster_mapPartition_id (s : State) (p : Nat) (g : Core → Core) (cl : Nat) : (s.mapPartition p id g).cluster cl = s.cluster cl := by
  rw [State.cluster_mapPartition s p (f := id) g (fun _ => rfl)]
  exact ite_self _

/-- A core of a partition is changed, but for one that the state does not name, which is as at reset. -/
theorem State.core_mapPartition {s : State} {p core : Nat} (f : Cluster → Cluster) {g : Core → Core} (hg : ∀ x, g (g x) = g x)
    (hp : (s.cluster (clusterOf core)).partition = some p) :
    (s.mapPartition p f g).core core = g (s.core core) ∨ (s.core core = Core.init ∧ (s.mapPartition p f g).core core = Core.init) := by
  rw [State.core, State.mapPartition_cores, get_modifyEach hg]
  obtain hd | hm := Sparse.get_mem_or_default Core.init s.cores core
  · rw [State.core, hd]
    split
    · exact .inl rfl
    · exact .inr ⟨rfl, rfl⟩
  · have hk : core ∈ s.cores.map (fun c => c.1) := List.mem_map.mpr ⟨_, hm, rfl⟩
    have hc : (s.partitionClusters p).contains (clusterOf core) = true := List.contains_iff_mem.mpr (State.mem_partitionClusters hp)
    exact .inl (if_pos (List.mem_filter.mpr ⟨hk, hc⟩))

/-! ### ICSYNC -/

/-- Drop the decoded lines of a context from a core. -/
def Core.dropCode (ctx : Nat) (k : Core) : Core := { k with icache := k.icache.filter (fun l => l.ctx != ctx) }

theorem Core.dropCode_dropCode (ctx : Nat) (k : Core) : (k.dropCode ctx).dropCode ctx = k.dropCode ctx := by
  simp [Core.dropCode, List.filter_filter]

/-- What ICSYNC does to the machine. -/
def State.syncCode (s : State) (cl p ctx : Nat) : State := (s.writeBackAll cl).mapPartition p id (Core.dropCode ctx)

theorem State.syncCode_tasks (s : State) (cl p ctx : Nat) : (s.syncCode cl p ctx).tasks = s.tasks :=
  (State.mapPartition_tasks ..).trans (s.writeBackAll_tasks cl)

theorem State.cluster_syncCode (s : State) (cl p ctx k : Nat) : (s.syncCode cl p ctx).cluster k = (s.writeBackAll cl).cluster k :=
  State.cluster_mapPartition_id ..

theorem State.icache_syncCode {s : State} {p core : Nat} (cl ctx : Nat) (hp : (s.cluster (clusterOf core)).partition = some p) :
    ((s.syncCode cl p ctx).core core).icache = (s.core core).icache.filter (fun l => l.ctx != ctx) := by
  have hcore : (s.writeBackAll cl).core core = s.core core := by rw [State.core, State.writeBackAll_cores]; rfl
  obtain h | ⟨h, h'⟩ := State.core_mapPartition id (Core.dropCode_dropCode ctx) ((s.writeBackAll_partition cl _).trans hp)
  · rw [State.syncCode, h, hcore]
    rfl
  · rw [State.syncCode, h', ← hcore, h]
    rfl

theorem seen_syncCode (s : State) (cl p ctx a : Nat) : seen (s.syncCode cl p ctx) cl a = seen s cl a := by
  rw [← seen_writeBackAll s cl a]
  exact seen_congr (by rw [State.cluster_syncCode]) (by rw [State.syncCode, State.mapPartition_mem])

theorem State.get_syncCode (s : State) (cl p ctx a : Nat) : Sparse.get 0 (s.syncCode cl p ctx).mem a = seen s cl a := by
  rw [State.syncCode, State.mapPartition_mem, State.get_writeBackAll]

end Machine

section
variable (i : Instr) (f : Fields) (w : Who) (t : Task) (s : State)

@[simp] theorem retired_mem : (retired i f w t s).mem = s.mem := rfl
@[simp] theorem retired_cluster (cl : Nat) : (retired i f w t s).cluster cl = s.cluster cl := rfl
@[simp] theorem retired_core (core : Nat) : (retired i f w t s).core core = s.core core := rfl
@[simp] theorem seen_retired (cl a : Nat) : seen (retired i f w t s) cl a = seen s cl a := rfl

end

theorem run_theCtx {t : Task} {c : Ctx} {s : State} (h : s.ctx? t.entry.ctx = some c) : theCtx t s = .ok c s := by
  unfold theCtx
  simp only [run_bind, run_get, h, run_pure]

theorem exec_icsync {f : Fields} {w : Who} {t : Task} {s : State} {c : Ctx} (T : Turn (.icsync f) f w t s) (hc : s.ctx? t.entry.ctx = some c) :
    exec (.icsync f) s = .next (retired (.icsync f) f w t (s.syncCode t.cluster c.partition t.entry.ctx)) := by
  change execIcsync f s = _
  refine issueLive_keepsTasks T ?_ (State.syncCode_tasks ..)
  rw [run_bind_ok (run_theTask T.found), run_bind_ok (run_theCtx hc)]
  rfl

/-! ### TLBINV -/

namespace Machine

/-- Drop from a cluster's TLB the translations of a context: all in the general form, and else those of a range. -/
def Cluster.dropTlb (ctx : Nat) (general : Bool) (base n : Nat) (k : Cluster) : Cluster :=
  { k with tlb := k.tlb.filter (fun e => e.ctx != ctx || !(general || e.meets base n)) }

theorem Cluster.dropTlb_dropTlb (ctx : Nat) (general : Bool) (base n : Nat) (k : Cluster) :
    (k.dropTlb ctx general base n).dropTlb ctx general base n = k.dropTlb ctx general base n := by
  simp [Cluster.dropTlb, List.filter_filter]

theorem State.awaitRequests_of_empty {s : State} (h : ∀ p ∈ s.cores, p.2.collector = []) (w : Who) (p : GatherReq → Bool) :
    s.awaitRequests w p = s := by
  refine if_neg (Bool.not_eq_true _ ▸ List.any_eq_false.mpr fun c hc => ?_)
  simp [h c hc]

theorem State.requestAwaited_of_empty {s : State} (h : ∀ p ∈ s.cores, p.2.collector = []) (w : Who) : s.requestAwaited w = false := by
  refine List.any_eq_false.mpr fun c hc => ?_
  simp [h c hc]

/-- The agent of a TLBINV has noted the requests that it waits for, and none is left. -/
def State.fenced (s : State) (w : Who) : State :=
  (s.modAgent w (fun x => { x with fence := some [] })).modAgent w (fun x => { x with fence := none })

theorem State.found_fenced {s : State} {w : Who} {t : Task} (found : s.task? w.task = some t) :
    (s.fenced w).task? w.task = some ((t.modAgent w.thread (fun x => { x with fence := some [] })).modAgent w.thread (fun x => { x with fence := none })) :=
  State.found_modAgent (State.found_modAgent found _) _

/-- What TLBINV does to the machine where the collectors are empty. -/
def State.invalidate (s : State) (w : Who) (p ctx : Nat) (general : Bool) (base n : Nat) : State :=
  (s.fenced w).mapPartition p (Cluster.dropTlb ctx general base n) id

theorem State.found_invalidate {s : State} {w : Who} {t : Task} (found : s.task? w.task = some t) (p ctx : Nat) (general : Bool) (base n : Nat) :
    (s.invalidate w p ctx general base n).task? w.task =
      some ((t.modAgent w.thread (fun x => { x with fence := some [] })).modAgent w.thread (fun x => { x with fence := none })) :=
  (State.task?_of_tasks (State.mapPartition_tasks ..) _).trans (State.found_fenced found)

theorem State.tlb_invalidate {s : State} {p cl : Nat} (w : Who) (ctx : Nat) (general : Bool) (base n : Nat) (hp : (s.cluster cl).partition = some p) :
    ((s.invalidate w p ctx general base n).cluster cl).tlb = (s.cluster cl).tlb.filter (fun e => e.ctx != ctx || !(general || e.meets base n)) := by
  have hmem : cl ∈ s.partitionClusters p := State.mem_partitionClusters hp
  rw [State.invalidate, State.cluster_mapPartition _ _ _ (Cluster.dropTlb_dropTlb ctx general base n)]
  exact congrArg Cluster.tlb (if_pos hmem)

end Machine

theorem exec_tlbinv {f : Fields} {id : Nat} {t : Task} {s : State} {c : Ctx} (T : Turn (.tlbinv f) f ⟨id, none⟩ t s)
    (hc : s.ctx? t.entry.ctx = some c) (hf : t.u.ag.fence = none) (hempty : ∀ p ∈ s.cores, p.2.collector = []) :
    exec (.tlbinv f) s = .next (retired (.tlbinv f) f ⟨id, none⟩ t (s.invalidate ⟨id, none⟩ c.partition t.entry.ctx (mBit f 0)
      (valA (.tlbinv f) f ⟨id, none⟩ t / 65536 * 65536) (valB (.tlbinv f) f ⟨id, none⟩ t % 2 ^ 32 * 65536))) := by
  have hfence : (t.agent none).fence.isNone = true := by rw [Task.agent, hf]; rfl
  change execTlbinv f s = _
  refine issue_completes T (run_seq ?_) (State.found_invalidate T.found ..) (fun k => ?_)
  · rw [run_bind_ok (run_theTask T.found), run_bind_ok (run_theCtx hc)]
    simp only [hfence, if_true, run_bind, run_modify, run_modAgent, run_get, State.awaitRequests_of_empty hempty]
    rw [State.requestAwaited_of_empty (s := s.modAgent ⟨id, none⟩ _) hempty]
    rfl
  · rw [Task.status_modAgent, Task.status_modAgent]
    exact T.alone k

/-- Of a legal TLBINV, MOD is 0 or 1, and names the general form by its bit 0 (17 R423). -/
theorem tlbinv_general {f : Fields} {w : Who} {t : Task} {s : State} (T : Turn (.tlbinv f) f w t s) : mBit f 0 = (f.mod == 1) := by
  have hl := turn_legal T
  have hok : (decide (f.mod.toNat ≤ 1) && f.imm == 0) = true := by
    simp only [Shape.legal, Bool.and_eq_true] at hl
    obtain ⟨⟨⟨-, hok⟩, -⟩, -⟩ := hl
    exact hok
  have hm : f.mod.toNat ≤ 1 := of_decide_eq_true (Bool.and_eq_true_iff.mp hok).1
  rw [Bool.eq_iff_iff, beq_iff_eq, BitVec.toNat_inj.symm, mBit, bitAt, beq_iff_eq]
  change _ ↔ f.mod.toNat = 1
  omega

/-- Settles O40: `exec_icsync` and `exec_tlbinv`, with what `State.syncCode` and `State.invalidate` do to the caches. -/
theorem invalidations : Obligations.Invalidations := by
  unfold Obligations.Invalidations
  refine ⟨fun f id t s c T hc => ⟨_, exec_icsync T hc, ?_⟩, fun f id t s c T hc hf hempty => ⟨_, exec_tlbinv T hc hf hempty, ?_⟩⟩
  · simp only [retired_mem, retired_cluster, retired_core, seen_retired, State.cluster_syncCode]
    exact ⟨s.clean_writeBackAll t.cluster, fun _ a => ⟨seen_syncCode .., State.get_syncCode ..⟩, fun core => State.icache_syncCode _ _⟩
  · simp only [retired_mem, retired_cluster, ← tlbinv_general T]
    exact ⟨State.mapPartition_mem .., fun cl => State.tlb_invalidate _ _ _ _ _⟩

end Sys2Proof
end

section
/-! SUPPORT. O41: a turn fetches, decodes and executes (03 R81, R87), and nothing precedes it where nothing has been passed over (11 R274). -/

namespace Sys2Proof

open Machine

namespace Machine

/-! ### The choice of a uniform stream -/

theorem mem_insertBy {α : Type} {le : α → α → Bool} {a x : α} {l : List α} : x ∈ insertBy le a l ↔ x = a ∨ x ∈ l := by
  induction l with
  | nil => simp [insertBy]
  | cons b l ih =>
    unfold insertBy
    split
    · simp
    · simp [ih, or_left_comm]

theorem mem_sortBy {α : Type} {le : α → α → Bool} {x : α} {l : List α} : x ∈ sortBy le l ↔ x ∈ l := by
  induction l with
  | nil => rfl
  | cons a l ih => rw [sortBy, List.foldr_cons, ← sortBy, mem_insertBy, ih, List.mem_cons]

/-- A stream that a front end chooses is ready. -/
theorem State.isReady_of_chosenStream {s : State} {core : Nat} {l p : List Nat} {t : Task} (h : s.chosenStream core l = (some t, p)) :
    s.isReady t none = true := by
  unfold State.chosenStream at h
  dsimp only at h
  split at h
  · next u hu =>
    injection h with h _
    injection h with h
    subst h
    have hm := List.mem_filter.mp (mem_sortBy.mp (List.mem_of_find?_eq_some hu))
    exact (Bool.and_eq_true_iff.mp hm.2).1
  · injection h with h _
    cases h

theorem State.isReady_uniform {s : State} {t : Task} (h : s.isReady t none = true) :
    t.resident = true ∧ t.held none = false ∧ t.u.ag.parked = none := by
  unfold State.isReady at h
  simp only [Bool.and_eq_true, Bool.not_eq_true', Option.isNone_iff_eq_none] at h
  obtain ⟨⟨⟨hr, hh⟩, hp⟩, -⟩ := h
  exact ⟨hr, hh, hp⟩

/-! ### The execution of a turn -/

theorem execTurn_inOrder {late : Bool} {i : Instr} (h : late = true → (lateMeaning i).isNone = true) (s : State) :
    execTurn late i s = exec i (s.settleBefore i) := by
  unfold execTurn
  cases late with
  | false => rfl
  | true => rw [Option.isNone_iff_eq_none.mp (h rfl)]

theorem execTurn_passed {late : Bool} {i : Instr} {g : State → Host.Outcome State Fault Refusal} (hl : late = true) (hg : lateMeaning i = some g)
    (s : State) : execTurn late i s = g (s.settlePassing i) := by
  unfold execTurn
  rw [hl, hg]

theorem noteCorrected_false : noteCorrected false = fun _ r => r := rfl

section
variable {s s1 : State} {core : Nat} {late : Bool}

/-- The turn of a uniform stream that fetches a word. -/
theorem stepUniform_word {t : Task} {p : List Nat} {w : InstrWord} {c : Bool} (found : s.task? t.entry.id = some t)
    (ready : s.isReady t none = true) (hgate : s.gated t.cluster = false) (hentry : t.u.ag.entry = false)
    (hfetch : s.fetchFor { task := t.entry.id } = (.word w c, s1)) :
    stepUniform late core p s t.entry.id = noteCorrected c t.cluster
      (execTurn late (decode w) ((s1.noteTurn core (some t) p).turn { task := t.entry.id, uniform := true, threads := [] })) := by
  obtain ⟨hr, hh, hp⟩ := State.isReady_uniform ready
  simp [stepUniform, found, hr, hh, hp, hgate, hentry, hfetch]

/-- The turn of a bundle that fetches a word. -/
theorem stepBundle_word {k j : Nat} {l : List Nat} {b : Bundle} {t : Task} {w : InstrWord} {c : Bool} {s2 : State}
    (hb : (s.core core).bundles[k]? = some b) (found : s.task? b.task = some t) (hcore : t.core? = some core) (hgate : s.gated t.cluster = false)
    (hks : b.threads.filter t.canIssue = j :: l) (hentry : ∀ x ∈ j :: l, (t.thread x).ag.entry = false)
    (hfetch : s.fetchFor { task := b.task, thread := some j } = (.word w c, s1))
    (hexec : let ks := (j :: l).filter (fun x => (t.thread x).ag.pc == (t.thread j).ag.pc)
      execTurn late (decode w) ((s1.noteIssue core b.task (t.thread j).ag.pc.toNat ks).turn { task := b.task, uniform := false, threads := ks })
        = .next s2) :
    stepBundle late s core k = noteCorrected c t.cluster (.next (s2.pruneBundle core k)) := by
  have hany : ((j :: l).filter (fun x => (t.thread x).ag.pc == (t.thread j).ag.pc)).any (fun x => (t.thread x).ag.entry) = false :=
    List.any_eq_false.mpr fun x hx => by simp [hentry x (List.mem_of_mem_filter hx)]
  unfold stepBundle
  simp only [hb, found, hcore, hgate, hks, hany, hfetch, hexec, bne_self_eq_false, Bool.or_false, Bool.false_eq_true, if_false]

end

/-- A step whose next choice is to rotate the uniform streams of a core. -/
theorem step_rotate {s : State} {core : Nat} {l : List Nat} {late : Bool} {rest : List Choice} (hp : s.power = .running)
    (ha : s.agenda = (if late then .rotateLate core l else .rotate core l) :: rest) : step s = turnFront late (withAgenda rest s) core l := by
  unfold step
  rw [ha]
  cases late <;> simp [perform, hp, withAgenda]

/-- A step whose next choice is to issue a bundle of a core. -/
theorem step_issue {s : State} {core : Nat} {l : List Nat} {late : Bool} {rest : List Choice} (hp : s.power = .running)
    (ha : s.agenda = (if late then .issueLate core l else .issue core l) :: rest) : step s = turnCore late (withAgenda rest s) core l := by
  unfold step
  rw [ha]
  cases late <;> simp [perform, hp, withAgenda]

theorem turnFront_chosen {s : State} {core : Nat} {l p : List Nat} {late : Bool} {t : Task} (h : s.chosenStream core l = (some t, p)) :
    turnFront late s core l = stepUniform late core p s t.entry.id := by
  simp only [turnFront, h]

theorem turnCore_chosen {s : State} {core k : Nat} {l : List Nat} {late : Bool} (h : s.chosenBundle core l = some k) :
    turnCore late s core l = stepBundle late s core k := by
  simp only [turnCore, h]

theorem step_perform {s : State} {w : Who} {n : Nat} {rest : List Choice} (hp : s.power = .running)
    (ha : s.agenda = .perform w.task w.thread n :: rest) : step s = .next ((withAgenda rest s).performLate w n) := by
  unfold step
  rw [ha]
  simp [perform, hp, withAgenda]

/-! ### The line of an address (03 R87) -/

theorem State.readLine_home {s s1 : State} {t : Task} {va pa : Nat} {wt : Bool}
    (htr : s.translate t.entry.ctx t.cluster (va / 64 * 64) { x := true } = (.ok pa wt, s1))
    (hmiss : ∀ l ∈ (s1.core t.coreD).icache, l.ctx ≠ t.entry.ctx ∨ l.pa ≠ pa) (hp : s1.firstMissing pa 64 = none)
    (hpo : s1.poisoned pa 64 = false) : s.readLine t va = (.ok pa (s1.home pa 64), s1) := by
  have hnone : (s1.core t.coreD).icache.find? (fun l => l.ctx == t.entry.ctx && l.version == shoucVersion && l.pa == pa) = none := by
    refine List.find?_eq_none.mpr fun l hl => ?_
    obtain h | h := hmiss l hl <;> simp [h]
  simp [State.readLine, htr, hnone, hp, hpo]

end Machine

/-! ### What precedes an instruction where nothing has been passed over -/

section
variable {s : State} (h : NothingLate s)
include h

theorem NothingLate.agent (w : Who) : (s.agent w).late = [] ∧ (s.agent w).early = [] ∧ (s.agent w).slow = [] := by
  unfold State.agent
  split
  · next t ht => exact h t (List.mem_of_find?_eq_some ht) w.thread
  · exact ⟨rfl, rfl, rfl⟩

theorem NothingLate.lateOf (w : Who) : s.lateOf w = [] := (h.agent w).1
theorem NothingLate.slowOf (w : Who) : s.slowOf w = [] := (h.agent w).2.2

theorem NothingLate.trimEarly (late : Bool) (i : Instr) (f : Fields) (w : Who) : s.trimEarly late i f w = s := by
  unfold State.trimEarly
  rw [if_pos]
  rw [(h.agent w).2.1]
  rfl

theorem NothingLate.passers {t : Task} (ht : t ∈ s.tasks) : t.passers = [] := by
  have hu : t.u.ag.late = [] := (h t ht none).1
  have hk : t.threadsWhere (fun _ th => !th.ag.late.isEmpty) = [] :=
    List.filter_eq_nil_iff.mpr fun k _ => by
      have hl : (t.thread k).ag.late = [] := (h t ht (some k)).1
      simp [hl]
  simp [Task.passers, hu, hk]

theorem NothingLate.settleWhere (p : Late → Bool) : s.settleWhere s.tasks p = s := by
  unfold State.settleWhere
  refine List.foldlRecOn (motive := fun x => x = s) s.tasks _ rfl fun x hx t ht => ?_
  rw [h.passers ht]
  exact hx

theorem NothingLate.settleNames (i : Instr) (w : Who) : s.settleNames i w = s := by
  simp [State.settleNames, h.slowOf, State.settleSlow, h.lateOf, State.settleLate]

theorem NothingLate.settleNamed (i : Instr) (w : Who) : s.settleNamed i w = s := by
  unfold State.settleNamed
  split
  · rfl
  · rw [h.settleNames]
    dsimp only
    split
    · rw [h.lateOf, State.settleLate, State.settleWatched, h.settleWhere, ite_self]
    · rfl

theorem NothingLate.settleAgent (w : Who) : s.settleAgent w = s := by
  simp [State.settleAgent, h.slowOf, State.settleSlow, h.lateOf, State.settleLate]

theorem NothingLate.settleTask (t : Task) : s.settleTask t = s := by
  unfold State.settleTask State.settleChecked
  rw [h.settleWhere]
  refine List.foldlRecOn (motive := fun x => x = s) _ _ rfl fun x hx th _ => ?_
  rw [hx, h.settleAgent]

theorem NothingLate.settleFenced (w : Who) : s.settleFenced w = s := by
  unfold State.settleFenced
  rw [h.lateOf]
  rfl

theorem NothingLate.settleOrdered (i : Instr) (f : Fields) (w : Who) : s.settleOrdered i f w = s := by
  unfold State.settleOrdered
  split
  · rfl
  · exact h.settleFenced w
  · rw [h.lateOf]; rfl
  · exact h.settleAgent w
  · split
    · exact h.settleTask _
    · rfl
  · exact h.settleWhere _

theorem NothingLate.settleBefore (i : Instr) : s.settleBefore i = s := by
  unfold State.settleBefore
  split
  · rfl
  · next f _ =>
    have htrim : s.movers.foldl (fun s w => s.trimEarly false i f w) s = s :=
      List.foldlRecOn (motive := fun x => x = s) _ _ rfl fun x hx w _ => by rw [hx, h.trimEarly]
    have hnamed : s.movers.foldl (fun s w => (s.settleNamed i w).settleOrdered i f w) s = s :=
      List.foldlRecOn (motive := fun x => x = s) _ _ rfl fun x hx w _ => by rw [hx, h.settleNamed, h.settleOrdered]
    simp only [htrim, State.settleChecked, h.settleWhere, ite_self, hnamed]

end

end Sys2Proof
end

section
/-! SUPPORT. O41: a store that an agent passes over, and its performance (10 R241, R260; 11 R274). -/

namespace Sys2Proof

open Machine

namespace Machine

/-! ### Agents of a task -/

/-- A task has an agent: its uniform stream, or a thread of its list. -/
def Task.hasAgent (t : Task) (th : Option Nat) : Prop := ∀ k, th = some k → k < t.threads.length

theorem Task.thread_modThread_same (t : Task) {k : Nat} (g : Thread → Thread) (h : k < t.threads.length) :
    (t.modThread k g).thread k = g (t.thread k) := getD_updAt_same t.threads k g { status := .free } h

theorem Task.agent_modAgent {t : Task} {th : Option Nat} (h : t.hasAgent th) (g : Agent → Agent) : (t.modAgent th g).agent th = g (t.agent th) := by
  cases th with
  | none => rfl
  | some k => exact congrArg Thread.ag (Task.thread_modThread_same t _ (h k rfl))

theorem Task.thread_of_not_lt {t : Task} {k : Nat} (h : ¬ k < t.threads.length) : t.thread k = { status := .free } :=
  List.getD_eq_default _ _ (Nat.not_lt.mp h)

theorem Task.hasAgent_of_late {t : Task} {th : Option Nat} (h : (t.agent th).late ≠ []) : t.hasAgent th := by
  rintro k rfl
  by_contra hk
  exact h (by rw [Task.agent, Task.thread_of_not_lt hk])

theorem Task.hasAgent_of_canIssue {t : Task} {k : Nat} (h : t.canIssue k = true) : t.hasAgent (some k) := by
  rintro j ⟨⟩
  by_contra hk
  simp [Task.canIssue, Task.live, Task.thread_of_not_lt hk] at h

end Machine

theorem Turn.hasAgent {i : Instr} {f : Fields} {w : Who} {t : Task} {s : State} (T : Turn i f w t s) : t.hasAgent w.thread := by
  rintro k hk
  exact Task.hasAgent_of_canIssue (T.threadReady k hk) k rfl

namespace Machine

/-! ### Performing a store that was passed over -/

/-- One relaxed store of a page that the race filter does not watch writes its bytes. -/
theorem State.storeLate_plain {x : Late} {bs : List Byte} (hop : x.op = .store bs) (hlen : bs.length = x.seg.n) (hw : x.seg.watched = false)
    (ho : x.acc.order < 2) (s : State) : ∃ l1 : Bool, ∃ s' : State, (s' = s.storeBytes x.acc.cl x.seg.pa l1 bs ∨
      ∃ n, s' = (s.storeBytes x.acc.cl x.seg.pa l1 bs).scrub x.seg.pa n) ∧ s.storeLate x = s' := by
  refine ⟨s.usesL1 x.acc.cl x.acc.scope && !x.seg.watched, _, ?_, rfl⟩
  have hfilter : s.filtering x.acc x.seg = false := by simp [State.filtering, hw]
  have htake : bs.take x.seg.n = bs := by rw [← hlen, List.take_length]
  simp only [State.storeLate, hop, if_neg (not_le.mpr ho), State.writeNow, List.foldl_cons, List.foldl_nil, hfilter, Bool.false_eq_true, if_false, htake]
  split
  · exact .inl rfl
  · exact .inr ⟨_, rfl⟩

theorem seen_storeLate {x : Late} {bs : List Byte} (hop : x.op = .store bs) (hlen : bs.length = x.seg.n) (hw : x.seg.watched = false)
    (ho : x.acc.order < 2) {s : State} (hl : LinesWhole s x.acc.cl) {k : Nat} (hk : k < bs.length) :
    seen (s.storeLate x) x.acc.cl (x.seg.pa + k) = bs.getD k 0 := by
  obtain ⟨l1, s', h, he⟩ := State.storeLate_plain hop hlen hw ho s
  rw [he, ← seen_storeBytes hl x.seg.pa l1 hk]
  obtain rfl | ⟨n, rfl⟩ := h <;> rfl

theorem lateBefore_store {x : Late} {bs : List Byte} (hop : x.op = .store bs) (ho : x.acc.order < 2) (s : State) : s.lateBefore [x] 0 = 0 := by
  simp [State.lateBefore, Late.isFence, Late.stores, hop, not_le.mpr ho, idxWhere]

/-- The performance of the only access that an agent has passed over, a relaxed store. -/
theorem State.performLate_store {s : State} {w : Who} {t : Task} {x : Late} {bs : List Byte} (found : s.task? w.task = some t)
    (hlate : (t.agent w.thread).late = [x]) (hop : x.op = .store bs) (ho : x.acc.order < 2) :
    s.performLate w 0 = (s.modAgent w (fun a => { a with late := a.late.eraseIdx 0 })).storeLate x := by
  have hl : s.lateOf w = [x] := by simp [State.lateOf, State.agent, found, hlate]
  unfold State.performLate
  simp only [hl, lateBefore_store hop ho, State.performFirst, Nat.sub_zero]
  unfold State.performOne
  simp [found, hl, hop]

end Machine

/-- The last clause of O41: a step that performs the store. -/
theorem step_performs_store {s : State} {w : Who} {t : Task} {x : Late} {bs : List Byte} {rest : List Choice} (hp : s.power = .running)
    (ha : s.agenda = .perform w.task w.thread 0 :: rest) (found : s.task? w.task = some t) (hlate : (t.agent w.thread).late = [x])
    (hop : x.op = .store bs) (hlen : bs.length = x.seg.n) (hw : x.seg.watched = false) (ho : x.acc.order < 2) (hl : L1Sound s x.acc.cl) :
    ∃ s' t', step s = .next s' ∧ s'.task? w.task = some t' ∧ (t'.agent w.thread).late = [] ∧
      ∀ k, k < bs.length → seen s' x.acc.cl (x.seg.pa + k) = bs.getD k 0 := by
  have hagent : t.hasAgent w.thread := Task.hasAgent_of_late (by simp [hlate])
  have hperform := State.performLate_store (s := withAgenda rest s) found hlate hop ho
  refine ⟨_, t.modAgent w.thread (fun a => { a with late := a.late.eraseIdx 0 }), step_perform hp ha, ?task, ?late, fun k hk => ?seen⟩
  case task =>
    rw [hperform, State.task?_of_tasks (State.storeLate_tasks ..)]
    exact State.found_modAgent (s := withAgenda rest s) found _
  case late => rw [Task.agent_modAgent hagent, hlate]; rfl
  case seen =>
    rw [hperform]
    refine seen_storeLate hop hlen hw ho ?_ hk
    exact linesWhole_of_clusters (s := s) rfl hl.2

namespace Machine

/-! ### The address of an access (10 R241, R242) -/

theorem signExt_eq_signedOf (v n : Nat) : signExt v n = signedOf n v := by
  unfold signExt signedOf
  rw [BitVec.toInt_eq_toNat_cond, BitVec.toNat_ofNat]
  by_cases hn : n = 0
  · subst hn; simp [Nat.mod_one]
  · simp [hn]

theorem signExt_toNat {n : Nat} (v : BitVec n) : signExt v.toNat n = v.toInt := by
  rw [signExt_eq_signedOf, signedOf, BitVec.ofNat_toNat, BitVec.setWidth_eq]

theorem run_effAddr {w : Who} {t : Task} {s : State} (found : s.task? w.task = some t) (i : Instr) (f : Fields) (index : Bool) :
    effAddr w i f index s = .ok (eaOf i f w t index) s := by
  unfold effAddr
  rw [run_bind_ok (run_rdOpnd found _ _), run_bind_ok (run_rdOpnd found _ _)]
  simp only [signExt_eq_signedOf, ← signExt_toNat, eaOf, valA, valB]
  rfl

/-- The address of an access that is canonical and aligned. -/
theorem run_accAddr {i : Instr} {f : Fields} {w : Who} {t : Task} {s : State} {index : Bool} {n : Nat} (found : s.task? w.task = some t)
    (hc : -(2 ^ 56 : Int) ≤ eaOf i f w t index ∧ eaOf i f w t index < (2 ^ 56 : Int)) (ha : vaOf i f w t index % n = 0) :
    accAddr w i f index n s = .ok (vaOf i f w t index) s := by
  have hcan : canonical (eaOf i f w t index) = true := by simpa [canonical] using hc
  have ht : truncInt (eaOf i f w t index) 64 = vaOf i f w t index := rfl
  unfold accAddr
  rw [run_bind_ok (run_effAddr found ..)]
  simp [hcan, ht, ha]

theorem run_accOf {w : Who} {t : Task} {s : State} (found : s.task? w.task = some t) (f : Fields) (checked : Bool) :
    accOf w f checked s = .ok (accessOf f w t checked) s := by
  unfold accOf
  rw [run_bind_ok (run_theTask found)]
  rfl

theorem accBytes_dvd (f : Fields) : accBytes f ∣ 65536 := by
  unfold accBytes
  split <;> decide

/-- An aligned access lies in one page. -/
theorem pieces_of_aligned {va n : Nat} (hn : n ∣ 65536) (ha : va % n = 0) : pieces va n = [(va, n)] := by
  obtain ⟨m, hm⟩ := hn
  have hpos : 0 < n := Nat.pos_of_ne_zero (by rintro rfl; omega)
  obtain ⟨q, rfl⟩ := Nat.dvd_of_mod_eq_zero ha
  have hq : n * q % 65536 + n ≤ 65536 := by
    rw [hm, Nat.mul_mod_mul_left, ← Nat.mul_succ]
    exact Nat.mul_le_mul_left n (Nat.mod_lt q (Nat.pos_of_ne_zero (by rintro rfl; omega)))
  have hone : (n * q % 65536 + n + 65535) / 65536 = 1 := by omega
  unfold pieces
  rw [hone]
  have hlo : max (n * q) (n * q / 65536 * 65536) = n * q := max_eq_left (Nat.div_mul_le_self ..)
  have hhi : min (n * q + n) ((n * q / 65536 + 1) * 65536) = n * q + n := min_eq_left (by omega)
  simp only [List.range_one, List.filterMap_cons, List.filterMap_nil, Nat.add_zero, hlo, hhi, if_pos (Nat.lt_add_of_pos_right hpos),
    Nat.add_sub_cancel_left]

/-- The translation of an access that reaches memory. -/
theorem mapRange_of_reaches {i : Instr} {f : Fields} {w : Who} {t : Task} {s s1 : State} {index checked : Bool} {need : Need} {pa : Nat}
    {watched : Bool} (R : Reaches i f w t s index checked need pa watched s1) :
    s.mapRange (accessOf f w t checked) need (pieces (vaOf i f w t index) (accBytes f)) =
      (.ok [{ va := vaOf i f w t index, pa := pa, n := accBytes f, watched := watched }], s1) := by
  rw [pieces_of_aligned (accBytes_dvd f) R.aligned]
  have hm : s.translate (accessOf f w t checked).ctx (accessOf f w t checked).cl (vaOf i f w t index) need = (.ok pa watched, s1) := R.mapped
  simp [State.mapRange, hm, R.present]

/-- The state of an access that reaches memory is that of its translation. -/
theorem state_of_reaches {i : Instr} {f : Fields} {w : Who} {t : Task} {s s1 : State} {index checked : Bool} {need : Need} {pa : Nat}
    {watched : Bool} (R : Reaches i f w t s index checked need pa watched s1) :
    s1 = (s.translate t.entry.ctx t.cluster (vaOf i f w t index) need).2 := by rw [R.mapped]

theorem run_mapFor {i : Instr} {f : Fields} {w : Who} {t : Task} {s s1 : State} {index checked : Bool} {need : Need} {pa : Nat}
    {watched : Bool} (R : Reaches i f w t s index checked need pa watched s1) (addr : Nat) :
    mapFor (accessOf f w t checked) addr (vaOf i f w t index) (accBytes f) need s =
      .ok [{ va := vaOf i f w t index, pa := pa, n := accBytes f, watched := watched }] s1 := by
  unfold mapFor
  rw [run_bind_ok (run_get s), mapRange_of_reaches R]
  rfl

@[simp] theorem State.translate_mem (s : State) (ctx cl va : Nat) (need : Need) : (s.translate ctx cl va need).2.mem = s.mem := by
  obtain e | ⟨f, -, e⟩ := s.translate_frame ctx cl va need <;> rw [e]
  exact State.modCluster_mem ..

@[simp] theorem State.translate_cur (s : State) (ctx cl va : Nat) (need : Need) : (s.translate ctx cl va need).2.cur = s.cur := by
  obtain e | ⟨f, -, e⟩ := s.translate_frame ctx cl va need <;> rw [e]
  exact State.modCluster_cur ..

/-! ### A store that its agent passes over (11 R274) -/

/-- No lower lane stands before the one agent whose turn it is (10 R258). -/
theorem State.settleLower_one {s : State} {w : Who} (h : s.cur.threads = w.thread.toList) (pa n : Nat) : s.settleLower w pa n = s := by
  unfold State.settleLower
  split
  · rfl
  · next k hk => simp [h, hk]

theorem run_comeTo {s : State} {w : Who} (h : s.cur.threads = w.thread.toList) (acc : Acc) {g : Seg} (hg : g.watched = false) :
    comeTo w acc g s = .ok () s := by
  have hf : s.filtering acc g = false := by simp [State.filtering, hg]
  simp [comeTo, State.settleLower_one h, hf]

/-- An agent passes over an access. -/
def Agent.pass (x : Late) (a : Agent) : Agent := { a with late := a.late ++ [x] }

/-- The store, as its agent keeps it. -/
def passedStore (f : Fields) (w : Who) (t : Task) (pa : Nat) : Late :=
  { acc := accessOf f w t true
    seg := { va := vaOf (.st f) f w t true, pa := pa, n := accBytes f, watched := false }
    op := .store (leBytes (accBytes f) (valC (.st f) f w t)) }

section
variable {f : Fields} {w : Who} {t : Task} {s s1 : State} {pa : Nat}

theorem run_lateStBody (T : Turn (.st f) f w t s) (R : Reaches (.st f) f w t s true true { w := true } pa false s1) :
    lateStBody f w s = .ok () (s1.modAgent w (Agent.pass (passedStore f w t pa))) := by
  have hcur : s1.cur.threads = w.thread.toList := by rw [state_of_reaches R, State.translate_cur, T.cur]
  unfold lateStBody
  dsimp only
  rw [run_bind_ok (run_accAddr T.found R.canonical R.aligned), run_bind_ok (run_rdOpnd T.found _ _), run_bind_ok (run_accOf T.found f true),
    run_bind_ok (run_mapFor R _)]
  dsimp only
  rw [run_bind_ok (run_comeTo hcur _ rfl), run_bind_ok (run_get s1), R.clear]
  rfl

/-- A store that an agent may pass over is a relaxed store or a release write. -/
theorem lateMeaning_st {g : State → Host.Outcome State Fault Refusal} (h : lateMeaning (.st f) = some g) : g = issueLive (.st f) f (lateStBody f) := by
  change (if mField f 4 3 % 2 = 0 then some (issueLive (.st f) f (lateStBody f)) else none) = some g at h
  split at h
  · injection h with h
    exact h.symm
  · cases h

end

/-! ### Retirement -/

theorem Task.x_modAgent (t : Task) (th : Option Nat) (g : Agent → Agent) (k : Nat) : ((t.modAgent th g).thread k).x = (t.thread k).x := by
  cases th with
  | none => rfl
  | some j =>
    change ((t.modThread j _).thread k).x = _
    by_cases hk : k = j
    · subst hk
      by_cases hlt : k < t.threads.length
      · rw [Task.thread_modThread_same _ _ hlt]
      · rw [Task.thread_of_not_lt hlt, Task.thread_of_not_lt (by rwa [Task.modThread, length_updAt])]
    · rw [Task.thread_modThread_ne _ _ hk]

@[simp] theorem Task.reg_modAgent (t : Task) (th : Option Nat) (g : Agent → Agent) (th' : Option Nat) (r : Nat) :
    (t.modAgent th g).reg th' r = t.reg th' r := by
  unfold Task.reg
  cases th' with
  | none => cases th <;> rfl
  | some k => simp only [Task.x_modAgent]

@[simp] theorem retireTask_reg (w : Who) (fl : Flow) (b : Bool) (win : List Window) (now : Nat → Nat) (t : Task) (th : Option Nat) (r : Nat) :
    (retireTask w fl b win now t).reg th r = t.reg th r := by
  unfold retireTask
  split
  · exact Task.reg_modAgent ..
  · exact Task.reg_modAgent ..

theorem retireTask_agent {w : Who} {t : Task} (h : t.hasAgent w.thread) (fl : Flow) (b : Bool) (win : List Window) (now : Nat → Nat) :
    (retireTask w fl b win now t).agent w.thread = (t.agent w.thread).retire fl b win (now t.cluster) := by
  unfold retireTask
  split
  · next hn =>
    rw [Option.isNone_iff_eq_none.mp hn]
    rfl
  · exact Task.agent_modAgent h _

theorem Task.hasAgent_modAgent {t : Task} {th : Option Nat} (h : t.hasAgent th) (g : Agent → Agent) : (t.modAgent th g).hasAgent th := by
  intro k hk
  rw [Task.length_modAgent]
  exact h k hk

end Machine

section
variable {f : Fields} {w : Who} {t : Task} {s s1 : State} {pa : Nat} (T : Turn (.st f) f w t s)
  (R : Reaches (.st f) f w t s true true { w := true } pa false s1)
include T R

theorem found_passedStore :
    (s1.modAgent w (Agent.pass (passedStore f w t pa))).task? w.task = some (t.modAgent w.thread (Agent.pass (passedStore f w t pa))) :=
  State.found_modAgent ((State.task?_of_tasks (by rw [state_of_reaches R, State.translate_tasks]) _).trans T.found) _

theorem issue_passedStore :
    issueLive (.st f) f (lateStBody f) s = .next (retired (.st f) f w t (s1.modAgent w (Agent.pass (passedStore f w t pa)))) :=
  issue_completes T (run_seq (run_lateStBody T R)) (found_passedStore T R) (fun k => by rw [Task.status_modAgent]; exact T.alone k)

end

/-- The clause of O41 on a store that is passed over. -/
theorem passes_store {f : Fields} {w : Who} {t : Task} {s s1 : State} {pa : Nat} {g : State → Host.Outcome State Fault Refusal}
    (T : Turn (.st f) f w t s) (R : Reaches (.st f) f w t s true true { w := true } pa false s1) (hg : lateMeaning (.st f) = some g) :
    ∃ s' t' x, g s = .next s' ∧ s'.mem = s.mem ∧ s'.clusters = s1.clusters ∧ s'.task? w.task = some t'
      ∧ (t'.agent w.thread).late = (t.agent w.thread).late ++ [x] ∧ x.seg.pa = pa ∧ x.seg.n = accBytes f
      ∧ x.op = .store (leBytes (accBytes f) (valC (.st f) f w t)) ∧ (∀ th r, t'.reg th r = t.reg th r)
      ∧ (t'.agent w.thread).pc.toNat = nextSlot (t.agent w.thread).pc.toNat % 2 ^ 64 := by
  have hmem : s1.mem = s.mem := by rw [state_of_reaches R, State.translate_mem]
  have found' := found_passedStore T R
  have hagent : (t.modAgent w.thread (Agent.pass (passedStore f w t pa))).hasAgent w.thread := Task.hasAgent_modAgent T.hasAgent _
  refine ⟨retired (.st f) f w t (s1.modAgent w (Agent.pass (passedStore f w t pa))), _, passedStore f w t pa, lateMeaning_st hg ▸ issue_passedStore T R, hmem, rfl, State.task?_retire _ _ _ found', ?late, rfl, rfl, rfl, ?regs,
    ?pc⟩
  case late => rw [retireTask_agent hagent, Task.agent_modAgent T.hasAgent]; rfl
  case regs => simp
  case pc => rw [retireTask_agent hagent, Task.agent_modAgent T.hasAgent]; rfl

/-- Settles O41: the turns through `stepUniform_word` and `stepBundle_word`, what precedes an instruction through `NothingLate.settleBefore`, and the
store that is passed over and performed. -/
theorem stepRunsInstruction : Obligations.StepRunsInstruction := by
  unfold Obligations.StepRunsInstruction
  refine ⟨fun s s1 core l late t p w c rest hp ha hch found hgate hentry hfetch => ?uniform,
    fun s s1 s2 core ll late k b t j l w c rest hp ha hch hb found hcore hgate hks hentry hfetch => ?bundle,
    fun s s1 w t pa bytes found hc hr hres hpar => ?fetch, fun s s1 t va pa wt => State.readLine_home, fun s i h => h.settleBefore i, noteCorrected_false,
    fun f w t s pa s1 g T R hg => passes_store T R hg,
    fun s w t x bs rest hp ha found hlate hop hlen hw ho hl => step_performs_store hp ha found hlate hop hlen hw ho hl⟩
  case uniform =>
    have hstep : step s = _ := (step_rotate hp ha).trans (turnFront_chosen hch)
    have hword := stepUniform_word (s := withAgenda rest s) (core := core) (late := late) (p := p) found (State.isReady_of_chosenStream hch) hgate
      hentry hfetch
    exact ⟨fun h => (hstep.trans hword).trans (congrArg _ (execTurn_inOrder h _)),
      fun g hl hg => (hstep.trans hword).trans (congrArg _ (execTurn_passed hl hg _))⟩
  case bundle =>
    have hstep : step s = _ := (step_issue hp ha).trans (turnCore_chosen hch)
    have hword := stepBundle_word (late := late) (s2 := s2) (s := withAgenda rest s) hb found hcore hgate hks hentry hfetch
    exact ⟨fun h he => hstep.trans (hword ((execTurn_inOrder h _).trans he)), fun g hl hg he => hstep.trans (hword ((execTurn_passed hl hg _).trans he))⟩
  case fetch => rw [fetchFor_ok found hc hr, checkLine_passes _ _ _ _ hres hpar]

end Sys2Proof
end

section
/-! SUPPORT. O9: the value that a rounding delivers against the exact one (05 R110), on magnitudes m × 2^e as rationals. -/

namespace Sys2Proof

open Machine

namespace Machine

/-! ### Magnitudes -/

/-- The magnitude m × 2^e of a finite value. -/
def mag (m : Nat) (e : Int) : ℚ := m * 2 ^ e

@[simp] theorem mag_zero (e : Int) : mag 0 e = 0 := by simp [mag]

theorem mag_add (m : Nat) (e k : Int) : mag m (e + k) = mag m e * 2 ^ k := by
  rw [mag, mag, zpow_add₀ two_ne_zero, mul_assoc]

theorem mag_mul_pow (m : Nat) (e : Int) {k : Int} (h : 0 ≤ k) : mag (m * 2 ^ k.toNat) e = mag m (e + k) := by
  rw [mag_add, mag, mag, Nat.cast_mul, Nat.cast_pow, ← zpow_natCast, Int.toNat_of_nonneg h]
  push_cast
  ring

theorem mag_lt_mag {m n : Nat} {e : Int} : mag m e < mag n e ↔ m < n := by
  rw [mag, mag, mul_lt_mul_iff_of_pos_right (by positivity), Nat.cast_lt]

theorem mag_mul (k m : Nat) (e : Int) : mag (k * m) e = k * mag m e := by
  rw [mag, mag, Nat.cast_mul, mul_assoc]

theorem mag_le_mag {m n : Nat} {e g : Int} (h : m ≤ n) (he : e ≤ g) : mag m e ≤ mag n g :=
  mul_le_mul (Nat.cast_le.mpr h) (zpow_le_zpow_right₀ one_le_two he) (by positivity) (by positivity)

theorem mag_injective {m n : Nat} {e : Int} (h : mag m e = mag n e) : m = n :=
  Nat.cast_injective (R := ℚ) (mul_right_cancel₀ (zpow_ne_zero e two_ne_zero) h)

theorem alignInt_not (s : Bool) (m : Nat) (e base : Int) : alignInt (!s) m e base = -alignInt s m e base := by
  cases s <;> simp [alignInt]

/-- Magnitudes compare as their integers do on a common grid. -/
theorem align_lt_align (m n : Nat) {e g base : Int} (he : base ≤ e) (hg : base ≤ g) :
    m * 2 ^ (e - base).toNat < n * 2 ^ (g - base).toNat ↔ mag m e < mag n g := by
  rw [← mag_lt_mag (e := base), mag_mul_pow m base (by omega), mag_mul_pow n base (by omega), add_sub_cancel, add_sub_cancel]

theorem FVal.lt_fin_pos (m n : Nat) (e g : Int) : FVal.lt (.fin false m e) (.fin false n g) = decide (mag m e < mag n g) := by
  simp only [FVal.lt, alignInt, Bool.false_eq_true, if_false, Nat.cast_lt, align_lt_align m n (min_le_left e g) (min_le_right e g)]

theorem FVal.lt_fin_neg (m n : Nat) (e g : Int) : FVal.lt (.fin true m e) (.fin true n g) = decide (mag n g < mag m e) := by
  simp only [FVal.lt, alignInt, if_true, neg_lt_neg_iff, Nat.cast_lt, align_lt_align n m (min_le_right e g) (min_le_left e g)]

theorem FVal.lt_self (v : FVal) : FVal.lt v v = false := by
  cases v with
  | nan => rfl
  | inf s => cases s <;> rfl
  | fin s m e => simp [FVal.lt]

theorem FVal.eqv_self {v : FVal} (h : v ≠ .nan) : FVal.eqv v v = true := by
  simp [FVal.eqv, FVal.lt_self, h]

theorem FVal.eqv_zero (s : Bool) (e g : Int) : FVal.eqv (.fin s 0 e) (.fin s 0 g) = true := by
  cases s <;> simp [FVal.eqv, FVal.lt_fin_pos, FVal.lt_fin_neg]

@[simp] theorem FVal.neg_neg (v : FVal) : v.neg.neg = v := by cases v <;> simp [FVal.neg]

/-- Negation reverses the order. -/
theorem FVal.lt_neg_neg (a b : FVal) : FVal.lt a.neg b.neg = FVal.lt b a := by
  cases a with
  | nan => cases b <;> rfl
  | inf s => cases b <;> simp [FVal.lt, FVal.neg, Bool.and_comm]
  | fin s m e =>
    cases b with
    | nan => rfl
    | inf t => simp [FVal.lt, FVal.neg]
    | fin t n g =>
      simp only [FVal.lt, FVal.neg, alignInt_not, neg_lt_neg_iff, min_comm e g]

theorem Fmt.exceeds_iff (f : Fmt) (m : Nat) (e : Int) : f.exceeds m e = true ↔ mag f.maxM f.maxE < mag m e := by
  unfold Fmt.exceeds
  split
  · next h => rw [decide_eq_true_iff, ← align_lt_align f.maxM m le_rfl h]; simp
  · next h => rw [decide_eq_true_iff, ← align_lt_align f.maxM m (not_le.mp h).le le_rfl]; simp

/-! ### The rounded quotient -/

theorem roundQuot_towardNeg_pos (num den r : Nat) : roundQuot false num den .towardNeg r = num / den := by simp [roundQuot]

theorem le_roundQuot_towardNeg_neg (num r : Nat) {den : Nat} (h : 0 < den) : num ≤ roundQuot true num den .towardNeg r * den := by
  by_cases hr : num % den = 0
  · simp [roundQuot, hr, Nat.div_mul_cancel (Nat.dvd_of_mod_eq_zero hr)]
  · have hq : roundQuot true num den .towardNeg r = num / den + 1 := by simp [roundQuot, hr]
    rw [hq]
    exact (Nat.lt_div_mul_add h).le.trans_eq (Nat.succ_mul ..).symm

theorem roundQuot_neg (s : Bool) (num den r : Nat) : roundQuot (!s) num den .towardPos r = roundQuot s num den .towardNeg r := by
  cases s <;> rfl

theorem roundQuot_exact (neg : Bool) (m : Nat) {den : Nat} (h : 0 < den) (mode : RMode) (r : Nat) : roundQuot neg (den * m) den mode r = m := by
  simp [roundQuot, Nat.mul_div_cancel_left m h]

/-! ### RoundTo -/

/-- The exponent of the spacing that a format has at m × 2^e. -/
def Fmt.gridExp (f : Fmt) (m : Nat) (e : Int) : Int := max (floorLog2 m 1 e) f.emin - (f.p : Int) + 1

theorem floorLog2_one {m : Nat} (h : m ≠ 0) (e : Int) : floorLog2 m 1 e = m.log2 + e := by
  have hone : Nat.log2 1 = 0 := by decide
  simp [floorLog2, hone, Nat.log2_self_le h]

@[simp] theorem roundTo_zero (f : Fmt) (neg : Bool) (e : Int) (mode : RMode) : roundTo f (.fin neg 0 e) mode = .fin neg 0 0 := rfl

/-- A value other than zero is num / den spacings, and RoundTo rounds that quotient. -/
theorem roundTo_fin (f : Fmt) {m : Nat} (e : Int) (hm : m ≠ 0) : ∃ num den : Nat, 0 < den ∧ mag num (f.gridExp m e) = mag (den * m) e ∧
    ∀ neg mode, roundTo f (.fin neg m e) mode = if f.exceeds (roundQuot neg num den mode 0) (f.gridExp m e) then overflowVal f neg mode false
      else .fin neg (roundQuot neg num den mode 0) (f.gridExp m e) := by
  have hmeaning : ∀ neg mode, roundTo f (.fin neg m e) mode = roundRat f neg m 1 e mode := fun _ _ => rfl
  simp only [hmeaning, roundRat, if_neg hm]
  rw [← Fmt.gridExp]
  by_cases h : 0 ≤ e - f.gridExp m e
  · refine ⟨m * 2 ^ (e - f.gridExp m e).toNat, 1, one_pos, ?_, fun neg mode => by simp only [if_pos h]⟩
    rw [mag_mul_pow m _ h, add_sub_cancel, one_mul]
  · refine ⟨m, 2 ^ (-(e - f.gridExp m e)).toNat, by positivity, ?_, fun neg mode => by simp only [if_neg h, one_mul]⟩
    rw [mul_comm, mag_mul_pow m e (by omega), neg_sub, add_sub_cancel]

/-- Downward, the magnitude of a positive value does not rise. -/
theorem roundTo_towardNeg_pos {f : Fmt} (hf : f.hasInf = true) (m : Nat) (e : Int) :
    ∃ m' e', roundTo f (.fin false m e) .towardNeg = .fin false m' e' ∧ mag m' e' ≤ mag m e := by
  by_cases hm : m = 0
  · exact ⟨0, 0, by rw [hm, roundTo_zero], by simp [hm]⟩
  obtain ⟨num, den, hden, hmag, hround⟩ := roundTo_fin f e hm
  have hlo : mag (num / den) (f.gridExp m e) ≤ mag m e := by
    refine le_of_mul_le_mul_left ?_ (Nat.cast_pos (α := ℚ).mpr hden)
    rw [← mag_mul, ← mag_mul, ← hmag]
    exact mag_le_mag (Nat.mul_div_le num den) le_rfl
  rw [hround, roundQuot_towardNeg_pos]
  split
  · next hx => exact ⟨f.maxM, f.maxE, by simp [overflowVal, hf], ((f.exceeds_iff _ _).mp hx).le.trans hlo⟩
  · exact ⟨_, _, rfl, hlo⟩

/-- Downward, the magnitude of a negative value does not fall. -/
theorem roundTo_towardNeg_neg {f : Fmt} (hf : f.hasInf = true) (m : Nat) (e : Int) :
    roundTo f (.fin true m e) .towardNeg = .inf true ∨
      ∃ m' e', roundTo f (.fin true m e) .towardNeg = .fin true m' e' ∧ mag m e ≤ mag m' e' := by
  by_cases hm : m = 0
  · exact .inr ⟨0, 0, by rw [hm, roundTo_zero], by simp [hm]⟩
  obtain ⟨num, den, hden, hmag, hround⟩ := roundTo_fin f e hm
  rw [hround]
  split
  · exact .inl (by simp [overflowVal, hf])
  · refine .inr ⟨_, _, rfl, le_of_mul_le_mul_left ?_ (Nat.cast_pos (α := ℚ).mpr hden)⟩
    rw [← mag_mul, ← mag_mul, ← hmag, mul_comm den]
    exact mag_le_mag (le_roundQuot_towardNeg_neg num 0 hden) le_rfl

/-- Rounding upward is rounding the negated value downward. -/
theorem roundTo_neg (f : Fmt) (v : FVal) : roundTo f v.neg .towardPos = (roundTo f v .towardNeg).neg := by
  cases v with
  | nan => rfl
  | inf s => cases h : f.hasInf <;> simp [roundTo, FVal.neg, h]
  | fin s m e =>
    by_cases hm : m = 0
    · simp [hm, FVal.neg]
    · obtain ⟨num, den, -, -, hround⟩ := roundTo_fin f e hm
      rw [FVal.neg, hround, hround, roundQuot_neg]
      split
      · cases h : f.hasInf <;> cases s <;> simp [overflowVal, h, FVal.neg]
      · rfl

/-- A value that stands on the grid of the format, and is not above its largest, rounds to itself in every mode. -/
theorem roundTo_grid {f : Fmt} {m : Nat} {e : Int} (hm : m ≠ 0) (hg : f.gridExp m e = e) (hx : f.exceeds m e = false) (neg : Bool) (mode : RMode) :
    roundTo f (.fin neg m e) mode = .fin neg m e := by
  obtain ⟨num, den, hden, hmag, hround⟩ := roundTo_fin f e hm
  rw [hg] at hmag hround
  rw [hround, mag_injective hmag, roundQuot_exact neg m hden, hx]
  rfl

/-! ### The values of an IEEE-encoded format -/

section
variable {ebits fbits : Nat} {m : Nat} {e : Int}

theorem ieee_not_exceeds (hm : m < 2 ^ (fbits + 1)) (he : e ≤ (ieeeFmt ebits fbits).maxE) : (ieeeFmt ebits fbits).exceeds m e = false := by
  rw [Bool.eq_false_iff, Ne, Fmt.exceeds_iff, not_lt]
  exact mag_le_mag (Nat.le_pred_of_lt hm) he

theorem ieee_gridExp_subnormal (h0 : m ≠ 0) (hm : m < 2 ^ fbits) (he : e = (ieeeFmt ebits fbits).emin - fbits) :
    (ieeeFmt ebits fbits).gridExp m e = e := by
  have hlog : m.log2 < fbits := (Nat.log2_lt h0).mpr hm
  have hp : (ieeeFmt ebits fbits).p = fbits + 1 := rfl
  rw [Fmt.gridExp, floorLog2_one h0, hp]
  omega

theorem ieee_gridExp_normal (hlo : 2 ^ fbits ≤ m) (hm : m < 2 ^ (fbits + 1)) (he : (ieeeFmt ebits fbits).emin - fbits ≤ e) :
    (ieeeFmt ebits fbits).gridExp m e = e := by
  have h0 : m ≠ 0 := (Nat.two_pow_pos fbits |>.trans_le hlo).ne'
  have hlog : m.log2 = fbits := (Nat.log2_eq_iff h0).mpr ⟨hlo, hm⟩
  have hp : (ieeeFmt ebits fbits).p = fbits + 1 := rfl
  rw [Fmt.gridExp, floorLog2_one h0, hp]
  omega

/-- The finite values that bits encode stand on the grid of the format. -/
theorem ieeeDecode_grid {b : Nat} {s : Bool} (hb : 2 ≤ ebits) (h : ieeeDecode ebits fbits b = .fin s m e) (h0 : m ≠ 0) :
    (ieeeFmt ebits fbits).gridExp m e = e ∧ (ieeeFmt ebits fbits).exceeds m e = false := by
  have hemin : (ieeeFmt ebits fbits).emin = 1 - (2 ^ (ebits - 1) - 1) := rfl
  have hmaxE : (ieeeFmt ebits fbits).maxE = 2 ^ (ebits - 1) - 1 - fbits := rfl
  have hfrac : b % 2 ^ fbits < 2 ^ fbits := Nat.mod_lt _ (Nat.two_pow_pos fbits)
  have htwice : 2 ^ ebits = 2 * 2 ^ (ebits - 1) := by rw [← pow_succ', Nat.sub_add_cancel (by omega)]
  have hexp : b / 2 ^ fbits % 2 ^ ebits < 2 ^ ebits := Nat.mod_lt _ (Nat.two_pow_pos ebits)
  have hpos : 2 ≤ 2 ^ (ebits - 1) := Nat.le_self_pow (by omega) 2
  have hcast : ((2 ^ (ebits - 1) : Nat) : Int) = 2 ^ (ebits - 1) := by simp
  unfold ieeeDecode at h
  generalize b / 2 ^ fbits % 2 ^ ebits = k at h hexp
  simp only at h
  split at h
  case isTrue => split at h <;> cases h
  case isFalse hinf =>
  split at h
  case isTrue =>
    cases h
    exact ⟨ieee_gridExp_subnormal h0 hfrac (by omega), ieee_not_exceeds (by omega) (by omega)⟩
  case isFalse hsub =>
    cases h
    exact ⟨ieee_gridExp_normal (by omega) (by omega) (by omega), ieee_not_exceeds (by omega) (by omega)⟩

end

/-- Rounding downward never exceeds the value. -/
theorem roundTo_towardNeg_not_above {f : Fmt} (hf : f.hasInf = true) (v : FVal) : FVal.lt v (roundTo f v .towardNeg) = false := by
  cases v with
  | nan => rfl
  | inf s => simp [roundTo, hf, FVal.lt_self]
  | fin s m e =>
    cases s with
    | false =>
      obtain ⟨m', e', hround, hle⟩ := roundTo_towardNeg_pos hf m e
      rw [hround, FVal.lt_fin_pos]
      exact decide_eq_false hle.not_gt
    | true =>
      obtain hround | ⟨m', e', hround, hle⟩ := roundTo_towardNeg_neg hf m e
      · rw [hround]; rfl
      · rw [hround, FVal.lt_fin_neg]
        exact decide_eq_false hle.not_gt

/-- Rounding upward never falls below the value. -/
theorem roundTo_towardPos_not_below {f : Fmt} (hf : f.hasInf = true) (v : FVal) : FVal.lt (roundTo f v .towardPos) v = false := by
  have h := roundTo_towardNeg_not_above hf v.neg
  rwa [← FVal.neg_neg (roundTo f v.neg .towardNeg), ← roundTo_neg, FVal.neg_neg, FVal.lt_neg_neg] at h

/-- A value that bits of a format encode rounds to itself. -/
theorem FpType.roundTo_decode (ty : FpType) (b : Nat) (mode : RMode) :
    roundTo ty.fmt (ty.decode b) mode = ty.decode b ∨ ∃ s e, ty.decode b = .fin s 0 e := by
  cases h : ty.decode b with
  | nan => exact .inl rfl
  | inf s => exact .inl rfl
  | fin s m e =>
    by_cases hm : m = 0
    · exact .inr ⟨s, e, by rw [hm]⟩
    · obtain ⟨hgrid, hmax⟩ := ieeeDecode_grid (by cases ty <;> decide) h hm
      exact .inl (roundTo_grid hm hgrid hmax s mode)

end Machine

/-- Settles O9: upward is downward of the negated value, and a value of the format stands on its grid. -/
theorem roundingBrackets : Obligations.RoundingBrackets := by
  unfold Obligations.RoundingBrackets
  refine ⟨fun ty v => ⟨roundTo_towardNeg_not_above rfl v, roundTo_towardPos_not_below rfl v⟩, fun ty mode b h => ?_⟩
  obtain hself | ⟨s, e, hzero⟩ := ty.roundTo_decode b mode
  · rw [hself, FVal.eqv_self h]
  · rw [hzero, roundTo_zero, FVal.eqv_zero]

end Sys2Proof
end

section
/-! SUPPORT. O11: the conversions of space 0x03 (06 R144 to R147) and the ordinal that a stochastic one advances (05 R121, R122). -/

namespace Sys2Proof

open Machine

namespace Machine

theorem run_theTree {t : Task} {r : Tree} {s : State} (h : s.tree? t.entry.tree = some r) : theTree t s = .ok r s := by
  unfold theTree
  simp only [run_bind, run_get, h, run_pure]

theorem run_rndBits {id k : Nat} {t : Task} {r : Tree} {s : State} (found : s.task? id = some t) (tree : s.tree? t.entry.tree = some r) (e : Nat) :
    rndBits ⟨id, some k⟩ e s = .ok (randomOf r t k e) s := by
  unfold rndBits
  rw [run_bind_ok (run_theTask found), run_bind_ok (run_theTree tree)]
  rfl

theorem run_advanceConv (w : Who) (m : RMode) (s : State) : advanceConv w m s = .ok () (stochasticDone w m s) := by
  unfold advanceConv stochasticDone
  cases w.thread with
  | none => rfl
  | some k => dsimp only; split <;> rfl

/-- The conversion ordinal is no part of what makes a thread a helper. -/
theorem found_stochasticDone {w : Who} {t : Task} {s : State} (found : s.task? w.task = some t) (m : RMode) :
    ∃ t', (stochasticDone w m s).task? w.task = some t' ∧ ∀ k, (t'.thread k).status = (t.thread k).status := by
  unfold stochasticDone
  split
  · split
    · exact ⟨_, State.found_modTask found (fun _ => rfl), fun k => Task.status_modThread _ _ k _ (fun _ => rfl)⟩
    · exact ⟨t, found, fun _ => rfl⟩
  · exact ⟨t, found, fun _ => rfl⟩

end Machine

section
variable {i : Instr} {f : Fields} {w : Who} {t : Machine.Task} {s : State} {body : Who → M Unit} {x : Nat}

/-- An instruction whose effect is the value that it writes to D. -/
theorem issueLane_putD (T : Turn i f w t s) (hb : body w s = .ok () (putD i f w x s)) :
    issueLane i f body s = .next (retired i f w t (putD i f w x s)) :=
  issueLane_completes T hb (fun _ => by simp) (fun _ _ => by simp)

/-- The end of a conversion that may round stochastically. -/
theorem run_convert {m : RMode} {y : Nat} (h : y = x) :
    (do wrOpnd w (shape i).d f.d y; advanceConv w m : M Unit) s = .ok () (stochasticDone w m (putD i f w x s)) := by
  rw [run_bind_ok (run_wrOpnd ..), run_advanceConv, h]
  rfl

/-- A conversion that writes D and may round stochastically. -/
theorem issueLane_converts {m : RMode} (T : Turn i f w t s) (hb : body w s = .ok () (stochasticDone w m (putD i f w x s))) :
    issueLane i f body s = .next (retired i f w t (stochasticDone w m (putD i f w x s))) := by
  have found : (putD i f w x s).task? w.task = some (t.setOpnd w.thread (shape i).d f.d x) := State.found_modTask T.found (by simp)
  obtain ⟨t', found', hstatus⟩ := found_stochasticDone found m
  exact issue_completes T (run_seq hb) found' (fun k => by rw [hstatus, Task.status_setOpnd]; exact T.alone k)

/-- An instruction whose effect traps with nothing kept. -/
theorem issueLane_traps {q : TrapReq} {s' : State} (T : Turn i f w t s) (hb : body w s = .error (.trap q) s') (hq : q.cause ≠ cSWTRAP ∧ q.cause ≠ cBKPT)
    (hk : q.keep = false) : issueLane i f body s = .next (s.takeTrap w (t.agent w.thread).pc.toNat ((encode i).getD 0) q) := by
  have hseq : seq body w s = .error (.trap q) s' := by
    unfold seq
    simp only [run_bind, hb]
  have ha : issueAgent i f (seq body) w s = (s.takeTrap w (t.agent w.thread).pc.toNat ((encode i).getD 0) q, false) := by
    unfold issueAgent
    simp [T.found, T.passes, hseq, State.conclude, hq, hk]
  unfold issueLane
  rw [issue_alone T.toFacing _ _ (by rw [ha]; exact nofun), ha]

end

/-! ### Each conversion -/

section
variable {f : Fields} {w : Who} {t : Machine.Task} {s : State}

theorem exec_cvtff {id k : Nat} {r : Tree} (T : Turn (.cvtff f) f ⟨id, some k⟩ t s) (tree : s.tree? t.entry.tree = some r) :
    exec (.cvtff f) s = .next (retired (.cvtff f) f ⟨id, some k⟩ t
      (stochasticDone ⟨id, some k⟩ (t.cvtMode (cRnd f)) (putD (.cvtff f) f ⟨id, some k⟩
        (cvtBits (cvtType (cSrc f)) (cvtType (cDst f)) t.ftz (mBit f 0) (t.cvtMode (cRnd f)) (randomOf r t k 0)
          (valA (.cvtff f) f ⟨id, some k⟩ t % 2 ^ (cvtType (cSrc f)).bits)) s))) := by
  refine issueLane_converts T ?_
  rw [run_bind_ok (run_theTask T.found), run_bind_ok (run_rdOpnd T.found _ _), run_bind_ok (run_rndBits T.found tree 0)]
  exact run_convert rfl

theorem exec_cvtfi (T : Turn (.cvtfi f) f w t s) : exec (.cvtfi f) s = .next (retired (.cvtfi f) f w t (putD (.cvtfi f) f w
    (cvtToInt (cvtType (cSrc f)) (cvtInt (cDst f)) (t.fpMode (cRnd f)) (valA (.cvtfi f) f w t % 2 ^ (cvtType (cSrc f)).bits)) s)) := by
  refine issueLane_putD T ?_
  rw [run_bind_ok (run_theTask T.found), run_bind_ok (run_rdOpnd T.found _ _)]
  rfl

theorem exec_cvtif (T : Turn (.cvtif f) f w t s) : exec (.cvtif f) s = .next (retired (.cvtif f) f w t (putD (.cvtif f) f w
    (let v := sgnRead (cvtInt (cSrc f)).2 (cvtInt (cSrc f)).1 (valA (.cvtif f) f w t % 2 ^ (cvtInt (cSrc f)).1)
     fpOut (cvtType (cDst f)) t.ftz (roundTo (cvtType (cDst f)).fmt (.fin (decide (v < 0)) v.natAbs 0) (t.fpMode (cRnd f)) 0 (mBit f 0))) s)) := by
  refine issueLane_putD T ?_
  rw [run_bind_ok (run_theTask T.found), run_bind_ok (run_rdOpnd T.found _ _)]
  rfl

theorem exec_pack2 {id k : Nat} {r : Tree} (T : Turn (.pack2 f) f ⟨id, some k⟩ t s) (tree : s.tree? t.entry.tree = some r) :
    exec (.pack2 f) s = .next (retired (.pack2 f) f ⟨id, some k⟩ t
      (let m := t.cvtMode (cRnd f)
       let one (e v : Nat) := cvtBits .fp32 (cvtType (cDst f)) t.ftz (mBit f 0) m (randomOf r t k e) v
       stochasticDone ⟨id, some k⟩ m (putD (.pack2 f) f ⟨id, some k⟩
         (one 0 (valA (.pack2 f) f ⟨id, some k⟩ t) + 2 ^ 16 * one 1 (valB (.pack2 f) f ⟨id, some k⟩ t)) s))) := by
  refine issueLane_converts T ?_
  rw [run_bind_ok (run_theTask T.found), run_bind_ok (run_rdOpnd T.found _ _), run_bind_ok (run_rdOpnd T.found _ _),
    run_bind_ok (run_rndBits T.found tree 0), run_bind_ok (run_rndBits T.found tree 1)]
  exact run_convert rfl

theorem exec_unpk2 (T : Turn (.unpk2 f) f w t s) : exec (.unpk2 f) s = .next (retired (.unpk2 f) f w t (putD (.unpk2 f) f w
    (let one (k : Nat) : Nat := FpType.fp32.encode ((cvtType (cSrc f)).decode (elemAt (cvtType (cSrc f)) (valA (.unpk2 f) f w t) k))
     one 0 + 2 ^ 32 * one 1) s)) := by
  refine issueLane_putD T ?_
  rw [run_bind_ok (run_rdOpnd T.found _ _)]
  rfl

/-- A valid format word of binary8, with its scale byte. -/
theorem run_cvtWord {i : Instr} (found : s.task? w.task = some t) (hv : fwValid false (valC i f w t % 2 ^ 32) = true)
    (h4 : fwFmt (valC i f w t % 2 ^ 32) = 4) : cvtWord w i f s = .ok (valC i f w t % 2 ^ 32, valC i f w t / 2 ^ 32 % 256) s := by
  unfold cvtWord
  rw [run_bind_ok (run_rdOpnd found _ _), ← valC]
  simp only [hv, h4, and_self, if_true]
  rfl

theorem run_cvtWord_bad {i : Instr} (found : s.task? w.task = some t)
    (h : fwValid false (valC i f w t % 2 ^ 32) = false ∨ fwFmt (valC i f w t % 2 ^ 32) ≠ 4) :
    cvtWord w i f s = .error (.trap { cause := cBAD_FORMAT }) s := by
  unfold cvtWord
  rw [run_bind_ok (run_rdOpnd found _ _), ← valC]
  have hn : ¬(fwValid false (valC i f w t % 2 ^ 32) = true ∧ fwFmt (valC i f w t % 2 ^ 32) = 4) := by
    rintro ⟨hv, h4⟩
    exact h.elim (fun hf => Bool.noConfusion (hf.symm.trans hv)) (fun hne => hne h4)
  simp only [hn, if_false]
  rfl

theorem exec_unp8 {fw sc : Nat} (T : Turn (.unp8 f) f w t s) (hfw : fw = valC (.unp8 f) f w t % 2 ^ 32)
    (hsc : sc = valC (.unp8 f) f w t / 2 ^ 32 % 256) (hv : fwValid false fw = true) (h4 : fwFmt fw = 4) :
    exec (.unp8 f) s = .next (retired (.unp8 f) f w t (putD (.unp8 f) f w
      (let one (k : Nat) : Nat := unp8Bits fw sc (cvtType (cSrc f)) (valA (.unp8 f) f w t / 2 ^ (8 * k) % 256)
       if cSrc f = 1 then one (cDst f) else one (2 * cDst f) + 2 ^ 16 * one (2 * cDst f + 1)) s)) := by
  subst hfw hsc
  refine issueLane_putD T ?_
  rw [run_bind_ok (run_cvtWord T.found hv h4)]
  dsimp only
  rw [run_bind_ok (run_rdOpnd T.found _ _)]
  have hbyte (v k : Nat) : field v (8 * k + 7) (8 * k) = v / 2 ^ (8 * k) % 256 := by
    rw [field_eq, show 8 * k + 7 + 1 - 8 * k = 8 by omega]
    rfl
  simp only [run_wrOpnd, hbyte]
  rfl

theorem exec_cvt8_traps (T : Turn (.cvt8 f) f w t s)
    (h : fwValid false (valC (.cvt8 f) f w t % 2 ^ 32) = false ∨ fwFmt (valC (.cvt8 f) f w t % 2 ^ 32) ≠ 4) :
    exec (.cvt8 f) s = .next (s.takeTrap w (t.agent w.thread).pc.toNat ((encode (.cvt8 f)).getD 0) { cause := cBAD_FORMAT }) := by
  refine issueLane_traps (s' := s) T ?_ (by decide) rfl
  rw [run_bind, run_cvtWord_bad T.found h]

end

/-! ### Floating to integer (06 R145) -/

/-- The least and the largest integer of a width, signed or not. -/
def intLow (dst : Nat × Bool) : Int := if dst.2 then -(2 ^ (dst.1 - 1) : Int) else 0
def intHigh (dst : Nat × Bool) : Int := if dst.2 then (2 ^ (dst.1 - 1) : Int) - 1 else (2 ^ dst.1 : Int) - 1

theorem intLow_le_intHigh (dst : Nat × Bool) : intLow dst ≤ intHigh dst := by
  have hpos (n : Nat) : (0 : Int) < 2 ^ n := by positivity
  have h1 := hpos (dst.1 - 1)
  have h2 := hpos dst.1
  unfold intLow intHigh
  split <;> omega

theorem clamp_eq {lo hi : Int} (h : lo ≤ hi) (z : Int) : min (max z lo) hi = if z < lo then lo else if hi < z then hi else z := by
  split
  · omega
  · split <;> omega

theorem cvtToInt_fin {src : FpType} {v n : Nat} {neg : Bool} {e : Int} (h : src.decode v = .fin neg n e) (dst : Nat × Bool) (m : RMode) :
    cvtToInt src dst m v =
      (let z : Int := if neg then -(roundIntMag neg n e m : Int) else roundIntMag neg n e m
       wrapOf dst.1 (if z < intLow dst then intLow dst else if intHigh dst < z then intHigh dst else z)) := by
  unfold cvtToInt
  rw [h]
  exact congrArg (wrapOf dst.1) (clamp_eq (intLow_le_intHigh dst) _)

/-! ### CVT8 (06 R146) -/

section
variable {f : Fields} {w : Who} {t : Machine.Task} {s : State}

/-- A legal CVT8 encodes FP32 values into one half of its destination, or packed elements, and only the former may derive a scale. -/
theorem cvt8_form (T : Turn (.cvt8 f) f w t s) : (cSrc f = 1 ∧ cDst f ≤ 1) ∨ (2 ≤ cSrc f ∧ mBit f 3 = false) := by
  have hl := turn_legal T
  simp only [Shape.legal, Bool.and_eq_true] at hl
  obtain ⟨⟨⟨-, hok⟩, -⟩, -⟩ := hl
  simp only [Task.shapeOf, shape, Bool.and_eq_true, bne_iff_ne, Bool.or_eq_true, Bool.not_eq_true', beq_iff_eq] at hok
  obtain ⟨⟨⟨-, hsrc⟩, hdst⟩, hmax⟩ := hok
  split at hdst
  · next h1 => exact .inl ⟨h1, of_decide_eq_true hdst⟩
  · next h1 => exact .inr ⟨by omega, hmax.resolve_right (fun h => h1 h.1)⟩

/-- The scale byte of the largest magnitude, in place of codes. -/
theorem exec_cvt8_scale (T : Turn (.cvt8 f) f w t s) (hv : fwValid false (valC (.cvt8 f) f w t % 2 ^ 32) = true)
    (h4 : fwFmt (valC (.cvt8 f) f w t % 2 ^ 32) = 4) (hmax : mBit f 3 = true) :
    exec (.cvt8 f) s = .next (retired (.cvt8 f) f w t (putD (.cvt8 f) f w
      (scaleFor (match FpType.fp32.decode (valA (.cvt8 f) f w t) with | .fin _ n e => .fin false n e | v => v)
        (fwB8 (valC (.cvt8 f) f w t % 2 ^ 32))) s)) := by
  have hsrc : cSrc f = 1 := by
    obtain ⟨h, -⟩ | ⟨-, h⟩ := cvt8_form T
    · exact h
    · simp [h] at hmax
  refine issueLane_putD T ?_
  rw [run_bind_ok (run_cvtWord T.found hv h4)]
  dsimp only
  rw [run_bind_ok (run_rdOpnd T.found _ _), run_bind_ok (run_rdOpnd T.found _ _),
    run_bind_ok (run_rdOpnd T.found _ _), if_pos hmax, hsrc]
  rfl

/-- The codes that CVT8 writes: of two FP32 values into the half that DST names, the other half kept, or of the elements of both sources. -/
def cvt8Codes (f : Fields) (code : Nat → Nat → Nat) (a b old : Nat) : Nat :=
  if cSrc f = 1 then
    (if cDst f = 0 then old / 2 ^ 16 * 2 ^ 16 + (code 0 a + 2 ^ 8 * code 1 b) else old % 2 ^ 16 + 2 ^ 16 * (code 0 a + 2 ^ 8 * code 1 b))
  else code 0 (a % 2 ^ 16) + 2 ^ 8 * code 1 (a / 2 ^ 16) + 2 ^ 16 * code 2 (b % 2 ^ 16) + 2 ^ 24 * code 3 (b / 2 ^ 16)

theorem cvtType_bits {k : Nat} (h : 2 ≤ k) : (cvtType k).bits = 16 :=
  match k, h with
  | 2, _ => rfl
  | _ + 3, _ => rfl

theorem elemAt_low {ty : FpType} (h : ty.bits = 16) (v : Nat) : elemAt ty v 0 = v % 2 ^ 16 := by
  simp [elemAt, field_eq, h]

theorem elemAt_high {ty : FpType} (h : ty.bits = 16) {v : Nat} (hv : v < 2 ^ 32) : elemAt ty v 1 = v / 2 ^ 16 := by
  simp only [elemAt, field_eq, h]
  exact Nat.mod_eq_of_lt (by omega)

theorem opnd_x_lt (t : Machine.Task) (k : Nat) {o : Opnd} (h : o.kind = .x) (v : BitVec 9) : t.opnd (some k) o v < 2 ^ 32 := by
  simp only [Task.opnd, h, Kind.regs, regs_one]
  exact reg_lt t (some k) v.toNat

/-- A register of which 16 bits are replaced, the others kept. -/
theorem half_replaced {old half : Nat} (hold : old < 2 ^ 32) (hhalf : half ≤ 1) (x : Nat) :
    (if half = 0 then field old 31 16 * 2 ^ 16 else field old 15 0) + x * 2 ^ (16 * half) =
      if half = 0 then old / 2 ^ 16 * 2 ^ 16 + x else old % 2 ^ 16 + 2 ^ 16 * x := by
  have hhigh : field old 31 16 = old / 2 ^ 16 := Nat.mod_eq_of_lt (by omega)
  have hlow : field old 15 0 = old % 2 ^ 16 := by rw [field_eq, pow_zero, Nat.div_one]
  obtain rfl | rfl := Nat.le_one_iff_eq_zero_or_eq_one.mp hhalf
  · rw [if_pos rfl, if_pos rfl, hhigh, mul_zero, pow_zero, mul_one]
  · rw [if_neg one_ne_zero, if_neg one_ne_zero, hlow, mul_one, mul_comm x]

/-- The codes of the elements, rounded stochastically where the format word says so. -/
theorem exec_cvt8_codes {id k : Nat} {r : Tree} (T : Turn (.cvt8 f) f ⟨id, some k⟩ t s) (tree : s.tree? t.entry.tree = some r)
    (hv : fwValid false (valC (.cvt8 f) f ⟨id, some k⟩ t % 2 ^ 32) = true) (h4 : fwFmt (valC (.cvt8 f) f ⟨id, some k⟩ t % 2 ^ 32) = 4)
    (hmax : mBit f 3 = false) :
    exec (.cvt8 f) s = .next (retired (.cvt8 f) f ⟨id, some k⟩ t
      (let fw := valC (.cvt8 f) f ⟨id, some k⟩ t % 2 ^ 32
       let m := RMode.ofCode (fwRnd fw)
       let code (e v : Nat) : Nat := cvt8Code fw (valC (.cvt8 f) f ⟨id, some k⟩ t / 2 ^ 32 % 256) (randomOf r t k e) m ((cvtType (cSrc f)).decode v)
       stochasticDone ⟨id, some k⟩ m (putD (.cvt8 f) f ⟨id, some k⟩
         (cvt8Codes f code (valA (.cvt8 f) f ⟨id, some k⟩ t) (valB (.cvt8 f) f ⟨id, some k⟩ t) (valD (.cvt8 f) f ⟨id, some k⟩ t)) s))) := by
  have ha : valA (.cvt8 f) f ⟨id, some k⟩ t < 2 ^ 32 := opnd_x_lt t k rfl f.a
  have hb : valB (.cvt8 f) f ⟨id, some k⟩ t < 2 ^ 32 := opnd_x_lt t k (by simp [shape, hmax, rd]) f.b
  have hd : valD (.cvt8 f) f ⟨id, some k⟩ t < 2 ^ 32 := opnd_x_lt t k rfl f.d
  refine issueLane_converts T ?_
  rw [run_bind_ok (run_cvtWord T.found hv h4)]
  dsimp only
  rw [run_bind_ok (run_rdOpnd T.found _ _), run_bind_ok (run_rdOpnd T.found _ _), run_bind_ok (run_rdOpnd T.found _ _), if_neg (by simp [hmax]),
    run_bind_ok (run_rndBits T.found tree 0), run_bind_ok (run_rndBits T.found tree 1), run_bind_ok (run_rndBits T.found tree 2),
    run_bind_ok (run_rndBits T.found tree 3), ← valA, ← valB, ← valD]
  obtain ⟨hsrc, hdst⟩ | ⟨hsrc, -⟩ := cvt8_form T
  · rw [if_pos hsrc]
    refine run_convert ((half_replaced hd hdst _).trans ?_)
    simp only [cvt8Codes, if_pos hsrc]
    rfl
  · have hone : cSrc f ≠ 1 := by omega
    have hbits := cvtType_bits hsrc
    rw [if_neg hone]
    refine run_convert ?_
    simp [cvt8Codes, hone, elemAt_low hbits, elemAt_high hbits ha, elemAt_high hbits hb]

end

/-- Settles O11: one theorem `exec_…` for each conversion, its value in the words of the rules. -/
theorem conversions : Obligations.Conversions := by
  unfold Obligations.Conversions
  refine ⟨fun f k id t s r T tree => exec_cvtff T tree, fun f w t s T => ?cvtfi, fun f w t s T => ?cvtif, fun f k id t s r T tree => exec_pack2 T tree,
    fun f w t s T => exec_unpk2 T, fun f k id t s r fw sc T tree hfw hsc hv h4 => ?cvt8, fun f w t s fw sc T hfw hsc hv h4 => ?unp8,
    fun f w t s fw T hfw h => exec_cvt8_traps T (hfw ▸ h)⟩
  case cvtfi =>
    refine (exec_cvtfi T).trans (congrArg (fun x => Host.Outcome.next (retired (.cvtfi f) f w t (putD (.cvtfi f) f w x s))) ?_)
    dsimp only
    cases h : (cvtType (cSrc f)).decode (valA (.cvtfi f) f w t % 2 ^ (cvtType (cSrc f)).bits) with
    | nan => simp only [cvtToInt, h]
    | inf neg => simp only [cvtToInt, h]; rfl
    | fin neg n e => rw [cvtToInt_fin h]; rfl
  case cvtif =>
    rw [exec_cvtif T]
    simp only [sgnRead, signExt_eq_signedOf]
    rfl
  case cvt8 =>
    subst hfw hsc
    intro w a b old m code
    by_cases hmax : bitAt f.mod.toNat 3 = true
    · rw [if_pos hmax]
      exact exec_cvt8_scale T hv h4 hmax
    · rw [if_neg hmax]
      exact exec_cvt8_codes T tree hv h4 (Bool.eq_false_iff.mpr hmax)
  case unp8 =>
    rw [exec_unp8 T hfw hsc hv h4]
    by_cases hsrc : cSrc f = 1
    · simp only [hsrc]
      rfl
    · simp only [if_neg hsrc]

end Sys2Proof
end

section
/-! SUPPORT. O3: what the instructions of spaces 0x00 and 0x01 do with their sources and their result (06 R126 to R130), and the sums, products and
moves among them (R131). -/

namespace Sys2Proof

open Machine

namespace Machine

/-! ### Sources and results -/

/-- The value that an integer source gives: none, a register's, or the immediate's. -/
def IntSrc.read (s : IntSrc) (register immediate : Nat) : Nat :=
  match s with
  | .none => 0
  | .src => register
  | .imm => immediate

/-- Source B of both forms: the immediate of one, a register or nothing of the other. -/
theorem IntSrc.read_form (b : IntSrc) (register immediate : Nat) :
    (if (b == .imm) = true then immediate else b.read register 0) = b.read register immediate := by
  cases b <;> rfl

theorem widthOf_cases (f : Fields) : widthOf f = 32 ∨ widthOf f = 64 := by
  unfold widthOf
  split
  · exact .inr rfl
  · exact .inl rfl

theorem widthOf_pos (f : Fields) : 0 < widthOf f := by
  obtain h | h := widthOf_cases f <;> omega

theorem trunc_lt (v n : Nat) : trunc v n < 2 ^ n := Nat.mod_lt _ (Nat.two_pow_pos n)

section
variable {i : Instr} {f : Fields} {w : Who} {t : Task} {s : State}

theorem sourceOf_lt (T : Turn i f w t s) (v : BitVec 9) : sourceOf f w t v < 2 ^ widthOf f :=
  (opnd_int f w t v (turn_u T)).symm.trans_lt (trunc_lt _ _)

/-- A register source reads as `sourceOf` says; a field that is no register source reads 0. -/
theorem opnd_intSrc (T : Turn i f w t s) (b : IntSrc) (v : BitVec 9) :
    trunc (t.opnd w.thread (b.opnd (if f.u then .s else .x2 (mBit f 7))) v) (intW f) = b.read (sourceOf f w t v) 0 := by
  cases b with
  | src => exact opnd_int f w t v (turn_u T)
  | none | imm => exact (congrArg (trunc · (intW f)) (opnd_none t w.thread v)).trans (Nat.zero_mod _)

theorem read_lt (T : Turn i f w t s) (b : IntSrc) : b.read (sourceOf f w t f.b) (immediateOf f) < 2 ^ widthOf f := by
  cases b with
  | none => exact Nat.two_pow_pos _
  | src => exact sourceOf_lt T f.b
  | imm => exact imm_lt f

/-- Source B, of the register form and of the immediate form. -/
theorem run_intB (T : Turn i f w t s) (b : IntSrc) (hb : (shape i).b = b.opnd (if f.u then .s else .x2 (mBit f 7))) :
    intB i f (b == .imm) w s = .ok (b.read (sourceOf f w t f.b) (immediateOf f)) s := by
  cases b with
  | imm => exact congrArg (EStateM.Result.ok · s) (imm_eq f)
  | none | src =>
    refine (run_bind_ok (run_rdOpnd T.found _ _)).trans ?_
    rw [hb, opnd_intSrc T]
    rfl

end

/-! ### Instructions whose effect is a function of their sources -/

/-- An integer instruction is `intOp` of a function g of f, w, a, b and c, over the operands that the sources name. -/
structure IntInstr (mk : Fields → Instr) (a b c : IntSrc) (g : Fields → Nat → Nat → Nat → Nat → Nat) : Prop where
  opndD : ∀ f, (shape (mk f)).d = wr (if f.u then .s else .x2 (mBit f 7)) := by exact fun _ => rfl
  opndA : ∀ f, (shape (mk f)).a = a.opnd (if f.u then .s else .x2 (mBit f 7)) := by exact fun _ => rfl
  opndB : ∀ f, (shape (mk f)).b = b.opnd (if f.u then .s else .x2 (mBit f 7)) := by exact fun _ => rfl
  opndC : ∀ f, (shape (mk f)).c = c.opnd (if f.u then .s else .x2 (mBit f 7)) := by exact fun _ => rfl
  meaning : ∀ f s, exec (mk f) s = intOp (mk f) f (b == .imm) (g f) s := by exact fun _ _ => rfl

section
variable {mk mkImm : Fields → Instr} {a b c : IntSrc} {g : Fields → Nat → Nat → Nat → Nat → Nat} {val : Fields → Nat → Nat → Nat → Nat}

theorem IntInstr.completes (h : IntInstr mk a b c g) {f : Fields} {w : Who} {t : Task} {s : State} (T : Turn (mk f) f w t s) :
    exec (mk f) s = .next (retired (mk f) f w t (withResult f w f.d
      (g f (widthOf f) (a.read (sourceOf f w t f.a) 0) (b.read (sourceOf f w t f.b) (immediateOf f)) (c.read (sourceOf f w t f.c) 0)
        % 2 ^ widthOf f) s)) := by
  rw [h.meaning, intOp_completes T (h.opndD f), h.opndA, h.opndB, h.opndC, opnd_intSrc T, opnd_intSrc T, opnd_intSrc T, IntSrc.read_form]

/-- The register form of an instruction with sources A, B and perhaps C. -/
theorem IntInstr.computes (h : IntInstr mk .src .src c g)
    (hval : ∀ f x y z, x < 2 ^ widthOf f → y < 2 ^ widthOf f → z < 2 ^ widthOf f → g f (widthOf f) x y (c.read z 0) % 2 ^ widthOf f = val f x y z) :
    Computes mk val := fun f w t s T => by
  rw [h.completes T, IntSrc.read, IntSrc.read, hval f _ _ _ (sourceOf_lt T f.a) (sourceOf_lt T f.b) (sourceOf_lt T f.c)]

/-- Its immediate form. -/
theorem IntInstr.computesImm (h : IntInstr mk .src .imm c g)
    (hval : ∀ f x y z, x < 2 ^ widthOf f → y < 2 ^ widthOf f → z < 2 ^ widthOf f → g f (widthOf f) x y (c.read z 0) % 2 ^ widthOf f = val f x y z) :
    ComputesImm mk val := fun f w t s T => by
  rw [h.completes T, IntSrc.read, IntSrc.read, hval f _ _ _ (sourceOf_lt T f.a) (imm_lt f) (sourceOf_lt T f.c)]

/-- Both forms of an instruction with sources A and B. -/
theorem computes_binary (g : Fields → Nat → Nat → Nat → Nat → Nat) (hr : IntInstr mk .src .src .none g) (hi : IntInstr mkImm .src .imm .none g)
    (hval : ∀ f x y, x < 2 ^ widthOf f → y < 2 ^ widthOf f → ∀ z, g f (widthOf f) x y 0 % 2 ^ widthOf f = val f x y z) :
    ComputesBoth mk mkImm val :=
  ⟨hr.computes fun f x y z hx hy _ => hval f x y hx hy z, hi.computesImm fun f x y z hx hy _ => hval f x y hx hy z⟩

/-- Both forms of an instruction with sources A, B and C. -/
theorem computes_ternary (g : Fields → Nat → Nat → Nat → Nat → Nat) (hr : IntInstr mk .src .src .src g) (hi : IntInstr mkImm .src .imm .src g)
    (hval : ∀ f x y z, x < 2 ^ widthOf f → y < 2 ^ widthOf f → z < 2 ^ widthOf f → g f (widthOf f) x y z % 2 ^ widthOf f = val f x y z) :
    ComputesBoth mk mkImm val :=
  ⟨hr.computes hval, hi.computesImm hval⟩

/-- An instruction with source A alone. -/
theorem computes_unary (g : Fields → Nat → Nat → Nat → Nat → Nat) (h : IntInstr mk .src .none .none g)
    (hval : ∀ f x, x < 2 ^ widthOf f → ∀ y z, g f (widthOf f) x 0 0 % 2 ^ widthOf f = val f x y z) : Computes mk val := fun f w t s T => by
  rw [h.completes T, IntSrc.read, IntSrc.read, IntSrc.read, hval f _ (sourceOf_lt T f.a)]

end

/-! ### Wrapping and signs -/

theorem wrapOf_lt (w : Nat) (z : Int) : wrapOf w z < 2 ^ w := by
  have h := Int.emod_lt_of_pos z (show (0 : Int) < 2 ^ w by positivity)
  have h0 := Int.emod_nonneg z (show (2 ^ w : Int) ≠ 0 by positivity)
  unfold wrapOf
  zify
  rwa [Int.toNat_of_nonneg h0]

theorem wrapOf_natCast (w v : Nat) : wrapOf w v = v % 2 ^ w := by
  unfold wrapOf
  norm_cast

theorem wrapOf_mod (w : Nat) (z : Int) : wrapOf w z % 2 ^ w = wrapOf w z := Nat.mod_eq_of_lt (wrapOf_lt w z)

/-- A difference is taken a turn higher, so that it does not fall below 0. -/
theorem sub_mod_eq_wrapOf {w b : Nat} (a : Nat) (hb : b < 2 ^ w) : (a + 2 ^ w - b) % 2 ^ w = wrapOf w ((a : Int) - b) := by
  have h : ((a + 2 ^ w - b : Nat) : Int) = (a : Int) - b + 2 ^ w := by
    rw [Nat.cast_sub (by omega)]
    push_cast
    ring
  rw [← wrapOf_natCast, h, wrapOf, wrapOf, Int.add_emod_right]

theorem sgnRead_eq_readOf (f : Fields) (v : Nat) : sgnRead (mBit f 0) (widthOf f) v = readOf f v := by
  rw [sgnRead, signExt_eq_signedOf]
  rfl

theorem signedOf_mod (n v : Nat) : signedOf n (v % 2 ^ n) = signedOf n v := by
  rw [signedOf, signedOf, ← BitVec.toNat_ofNat, BitVec.ofNat_toNat, BitVec.setWidth_eq]

/-- Reading a w-bit value as signed and cutting it to w bits gives it back. -/
theorem wrapOf_signedOf {w v : Nat} (h : v < 2 ^ w) : wrapOf w (signedOf w v) = v := by
  have e : (2 ^ w : Int) = ((2 ^ w : Nat) : Int) := by push_cast; rfl
  rw [wrapOf, signedOf, BitVec.toInt_eq_toNat_bmod, e, Int.bmod_emod, BitVec.toNat_ofNat, Nat.mod_eq_of_lt h, ← e]
  exact (wrapOf_natCast w v).trans (Nat.mod_eq_of_lt h)

end Machine

/-- The legal MOVHI is of the .d form. -/
theorem widthOf_movhi {f : Fields} {w : Who} {t : Machine.Task} {s : State} (T : Turn (.movhi f) f w t s) : widthOf f = 64 := by
  have hl := turn_legal T
  simp only [Shape.legal, Bool.and_eq_true] at hl
  obtain ⟨⟨⟨-, hok⟩, -⟩, -⟩ := hl
  simp only [Task.shapeOf, shape, Bool.and_eq_true] at hok
  exact if_pos hok.2

theorem computesImm_movi : ComputesImm .movi (fun _ _ b _ => b) := fun f w t s T => by
  have h : IntInstr .movi .none .imm .none (fun _ _ _ b _ => b) := {}
  simp only [h.completes T, IntSrc.read, Nat.mod_eq_of_lt (imm_lt f)]

theorem computesImm_movhi : ComputesImm .movhi (fun f a _ _ => f.imm.toNat * 2 ^ 32 + a % 2 ^ 32) := fun f w t s T => by
  have h : IntInstr .movhi .src .imm .none (fun f _ a _ _ => f.imm.toNat * 2 ^ 32 + a % 2 ^ 32) := {}
  have hlt : f.imm.toNat * 2 ^ 32 + sourceOf f w t f.a % 2 ^ 32 < 2 ^ 64 := by
    have hi := f.imm.isLt
    omega
  simp only [h.completes T, IntSrc.read, widthOf_movhi T, Nat.mod_eq_of_lt hlt]

/-- Settles O3: the wrapped sum, product, negation or magnitude of any sources; a difference is taken 2^w higher, which wraps to the same. -/
theorem integerSums : Obligations.IntegerSums := by
  unfold Obligations.IntegerSums
  refine ⟨computes_binary (fun _ _ a b _ => a + b) {} {} fun _ _ _ _ _ _ => rfl,
    computes_binary (fun _ w a b _ => a + 2 ^ w - b) {} {} fun _ a _ _ hb _ => sub_mod_eq_wrapOf a hb,
    computes_binary (fun _ _ a b _ => a * b) {} {} fun _ _ _ _ _ _ => rfl,
    computes_ternary (fun _ _ a b c => a + c * b) {} {} fun _ _ _ _ _ _ _ => rfl,
    computes_binary (fun f _ a b _ => a + b * 2 ^ mField f 3 1) {} {} fun _ _ _ _ _ _ => rfl,
    computes_unary (fun _ w a _ _ => 2 ^ w - a) {} fun _ a ha _ _ => ?neg,
    computes_unary (fun _ w a _ _ => (signExt a w).natAbs) {} fun _ a _ _ _ => by rw [signExt_eq_signedOf],
    computes_unary (fun _ _ a _ _ => a) {} fun _ _ ha _ _ => Nat.mod_eq_of_lt ha, computesImm_movi, computesImm_movhi⟩
  case neg => simpa using sub_mod_eq_wrapOf 0 ha

end Sys2Proof
end

section
/-! SUPPORT. O4, O5: high products, quotients and remainders (06 R131, R132), logic, shifts and rotations (R131). -/

namespace Sys2Proof

open Machine

namespace Machine

/-! ### Division -/

theorem wrapOf_sgnRead (sgn : Bool) {w v : Nat} (h : v < 2 ^ w) : wrapOf w (sgnRead sgn w v) = v := by
  cases sgn with
  | false => exact (wrapOf_natCast w v).trans (Nat.mod_eq_of_lt h)
  | true => exact (congrArg (wrapOf w) (signExt_eq_signedOf v w)).trans (wrapOf_signedOf h)

theorem sgnRead_ne_zero (sgn : Bool) {w v : Nat} (h : v < 2 ^ w) (h0 : v ≠ 0) : sgnRead sgn w v ≠ 0 := by
  intro hz
  have hw := wrapOf_sgnRead sgn h
  rw [hz] at hw
  exact h0 (hw.symm.trans (wrapOf_natCast w 0))

/-- Where the signs differ, the quotient of the magnitudes is negated, and it is 0 where the product is. -/
theorem magnitude_negated (m n : Nat) :
    (if (0 : Int) ≤ -(m * n) then ((m / n : Nat) : Int) else -((m / n : Nat) : Int)) = -((m / n : Nat) : Int) := by
  split
  · next h =>
    have h0 : m * n = 0 := by
      have : ((m * n : Nat) : Int) ≤ 0 := by push_cast; omega
      omega
    obtain rfl | rfl := Nat.mul_eq_zero.mp h0 <;> simp
  · rfl

/-- The quotient of the magnitudes under the sign of the product is the quotient toward zero. -/
theorem tdiv_eq_magnitude (x y : Int) :
    Int.tdiv x y = if 0 ≤ x * y then ((x.natAbs / y.natAbs : Nat) : Int) else -((x.natAbs / y.natAbs : Nat) : Int) := by
  obtain ⟨m, rfl | rfl⟩ := x.eq_nat_or_neg <;> obtain ⟨n, rfl | rfl⟩ := y.eq_nat_or_neg
  · rw [if_pos (by positivity)]; rfl
  · rw [Int.tdiv_neg, mul_neg, Int.natAbs_neg, Int.natAbs_natCast, Int.natAbs_natCast, magnitude_negated, Int.ofNat_tdiv]
  · rw [Int.neg_tdiv, neg_mul, Int.natAbs_neg, Int.natAbs_natCast, Int.natAbs_natCast, magnitude_negated, Int.ofNat_tdiv]
  · rw [Int.neg_tdiv, Int.tdiv_neg, neg_neg, neg_mul_neg, if_pos (by positivity), Int.natAbs_neg, Int.natAbs_neg]; rfl

theorem intDivide_zero (sgn : Bool) (w a : Nat) : intDivide sgn w a 0 = (if sgn then -1 else ((2 ^ w - 1 : Nat) : Int), sgnRead sgn w a) := by
  cases sgn <;> simp [intDivide, sgnRead, signExt]

theorem intDivide_of_ne (sgn : Bool) (w a : Nat) {b : Nat} (hb : b < 2 ^ w) (h0 : b ≠ 0) :
    intDivide sgn w a b = (Int.tdiv (sgnRead sgn w a) (sgnRead sgn w b), Int.tmod (sgnRead sgn w a) (sgnRead sgn w b)) := by
  have hy := sgnRead_ne_zero sgn hb h0
  cases sgn with
  | false =>
    simp only [intDivide, sgnRead, h0, Bool.not_false, Bool.false_eq_true, if_true, if_false, Int.ofNat_tdiv, Int.ofNat_tmod]
  | true =>
    simp only [sgnRead, if_true] at hy
    simp only [intDivide, sgnRead, hy, Bool.not_true, Bool.false_eq_true, if_false, if_true, ← tdiv_eq_magnitude]
    rw [Int.tmod_def, mul_comm]

/-- What IDIV writes (06 R132): all ones for a zero divisor. -/
theorem quotient_wraps (f : Fields) (a : Nat) {b : Nat} (hb : b < 2 ^ widthOf f) :
    truncInt (intDivide (mBit f 0) (widthOf f) a b).1 (widthOf f) % 2 ^ widthOf f =
      if b = 0 then 2 ^ widthOf f - 1 else wrapOf (widthOf f) (Int.tdiv (readOf f a) (readOf f b)) := by
  have hones (sgn : Bool) : wrapOf (widthOf f) (if sgn then -1 else ((2 ^ widthOf f - 1 : Nat) : Int)) = 2 ^ widthOf f - 1 := by
    obtain h | h := widthOf_cases f <;> rw [h] <;> cases sgn <;> decide
  refine (wrapOf_mod _ _).trans ?_
  split
  · next h0 => rw [h0, intDivide_zero, hones]
  · next h0 => rw [intDivide_of_ne _ _ a hb h0, sgnRead_eq_readOf, sgnRead_eq_readOf]

/-- What IREM writes (06 R132): the dividend for a zero divisor. -/
theorem remainder_wraps (f : Fields) {a b : Nat} (ha : a < 2 ^ widthOf f) (hb : b < 2 ^ widthOf f) :
    truncInt (intDivide (mBit f 0) (widthOf f) a b).2 (widthOf f) % 2 ^ widthOf f =
      if b = 0 then a else wrapOf (widthOf f) (Int.tmod (readOf f a) (readOf f b)) := by
  refine (wrapOf_mod _ _).trans ?_
  split
  · next h0 => rw [h0, intDivide_zero, wrapOf_sgnRead _ ha]
  · next h0 => rw [intDivide_of_ne _ _ a hb h0, sgnRead_eq_readOf, sgnRead_eq_readOf]

theorem highProduct_wraps (f : Fields) (a b : Nat) : intMulHigh (mBit f 0) (widthOf f) a b % 2 ^ widthOf f =
    wrapOf (widthOf f) (readOf f a * readOf f b / (2 ^ widthOf f : Int)) := by
  refine (wrapOf_mod _ _).trans ?_
  rw [sgnRead_eq_readOf, sgnRead_eq_readOf]

/-! ### Logic, shifts and rotations -/

theorem not_wraps {w a : Nat} (h : a < 2 ^ w) : (2 ^ w - 1 - a) % 2 ^ w = (~~~ BitVec.ofNat w a).toNat := by
  rw [BitVec.toNat_not, BitVec.toNat_ofNat, Nat.mod_eq_of_lt h]
  exact Nat.mod_eq_of_lt (by omega)

/-- The bits that a rotation by n moves out at the top come in at the bottom, where the others have left n zeros. -/
theorem intRot_eq_rotateLeft {w a n : Nat} (h : a < 2 ^ w) (hn : n < w) : intRot w a n = ((BitVec.ofNat w a).rotateLeft n).toNat := by
  have hw : 2 ^ w = 2 ^ (w - n) * 2 ^ n := by rw [← pow_add, Nat.sub_add_cancel hn.le]
  have hlow : a / 2 ^ (w - n) < 2 ^ n := Nat.div_lt_of_lt_mul (hw ▸ h)
  have hhigh : a * 2 ^ n % 2 ^ w = (a % 2 ^ (w - n)) <<< n := by rw [hw, Nat.mul_mod_mul_right, Nat.shiftLeft_eq]
  rw [BitVec.toNat_rotateLeft, BitVec.toNat_ofNat, Nat.mod_eq_of_lt h, Nat.mod_eq_of_lt hn, Nat.shiftLeft_eq, hhigh, Nat.shiftRight_eq_div_pow,
    ← Nat.shiftLeft_add_eq_or_of_lt hlow, intRot, hhigh]

theorem rotation_wraps (f : Fields) {a : Nat} (b : Nat) (h : a < 2 ^ widthOf f) :
    intRot (widthOf f) a (b % widthOf f) % 2 ^ widthOf f = ((BitVec.ofNat (widthOf f) a).rotateLeft (b % widthOf f)).toNat := by
  rw [intRot_eq_rotateLeft h (Nat.mod_lt b (widthOf_pos f))]
  exact Nat.mod_eq_of_lt (BitVec.isLt _)

theorem arithmeticShift_wraps (w a n : Nat) : truncInt (signExt a w / (2 ^ n : Int)) w % 2 ^ w = wrapOf w (signedOf w a / (2 ^ n : Int)) :=
  (wrapOf_mod _ _).trans (by rw [signExt_eq_signedOf])

end Machine

/-- Settles O4: a quotient of magnitudes under the sign of the product is the quotient toward zero, and what it leaves is the remainder. -/
theorem integerDivision : Obligations.IntegerDivision := by
  unfold Obligations.IntegerDivision
  exact ⟨computes_binary (fun f w a b _ => intMulHigh (mBit f 0) w a b) {} {} fun f a b _ _ _ => highProduct_wraps f a b,
    computes_binary (fun f w a b _ => truncInt (intDivide (mBit f 0) w a b).1 w) {} {} fun f a _ _ hb _ => quotient_wraps f a hb,
    computes_binary (fun f w a b _ => truncInt (intDivide (mBit f 0) w a b).2 w) {} {} fun f _ _ ha hb _ => remainder_wraps f ha hb⟩

/-- Settles O5: logic stays within w bits, and a rotation is that of a w-bit vector. -/
theorem integerLogic : Obligations.IntegerLogic := by
  unfold Obligations.IntegerLogic
  exact ⟨computes_binary (fun _ _ a b _ => a &&& b) {} {} fun _ a _ _ hb _ => Nat.mod_eq_of_lt (Nat.and_lt_two_pow a hb),
    computes_binary (fun _ _ a b _ => a ||| b) {} {} fun _ _ _ ha hb _ => Nat.mod_eq_of_lt (Nat.or_lt_two_pow ha hb),
    computes_binary (fun _ _ a b _ => a ^^^ b) {} {} fun _ _ _ ha hb _ => Nat.mod_eq_of_lt (Nat.xor_lt_two_pow ha hb),
    computes_unary (fun _ w a _ _ => 2 ^ w - 1 - a) {} fun _ _ ha _ _ => not_wraps ha,
    computes_binary (fun _ w a b _ => a * 2 ^ (b % w)) {} {} fun _ _ _ _ _ _ => rfl,
    computes_binary (fun _ w a b _ => a / 2 ^ (b % w)) {} {} fun _ _ _ ha _ _ => Nat.mod_eq_of_lt (Nat.div_lt_of_lt ha),
    computes_binary (fun _ w a b _ => truncInt (signExt a w / (2 ^ (b % w) : Int)) w) {} {} fun _ a _ _ _ _ => arithmeticShift_wraps _ a _,
    computes_binary (fun _ w a b _ => intRot w a (b % w)) {} {} fun f _ b ha _ _ => rotation_wraps f b ha⟩

end Sys2Proof
end

section
/-! SUPPORT. O6: bit fields and extensions (06 R133, R134), counts of bits and the bits reversed (R131). -/

namespace Sys2Proof

open Machine

namespace Machine

/-! ### Disjoint bits -/

theorem add_eq_or_of_disjoint {x y w : Nat} (hx : x < 2 ^ w) (hy : y < 2 ^ w) (h : x &&& y = 0) : x + y = x ||| y := by
  have hw : 2 ^ (w + 1) = 2 ^ w + 2 ^ w := by rw [pow_succ, mul_two]
  have hb := congrArg BitVec.toNat (BitVec.add_eq_or_of_and_eq_zero (BitVec.ofNat (w + 1) x) (BitVec.ofNat (w + 1) y)
    (by rw [← BitVec.ofNat_and, h]))
  rwa [BitVec.toNat_add, BitVec.toNat_or, BitVec.toNat_ofNat, BitVec.toNat_ofNat, Nat.mod_eq_of_lt (a := x) (by omega),
    Nat.mod_eq_of_lt (a := y) (by omega), Nat.mod_eq_of_lt (by omega)] at hb

section
variable {w mask a : Nat}

/-- The bits of a value inside a mask and those outside are all its bits. -/
theorem complement_or_mask (ha : a < 2 ^ w) : (a &&& ((2 ^ w - 1) ^^^ mask)) ||| (a &&& mask) = a := by
  refine Nat.eq_of_testBit_eq fun k => ?_
  by_cases hk : k < w
  · simp only [Nat.testBit_and, Nat.testBit_or, Nat.testBit_xor, Nat.testBit_two_pow_sub_one, hk, decide_true]
    cases a.testBit k <;> cases mask.testBit k <;> rfl
  · simp [Nat.testBit_and, Nat.testBit_or, Nat.testBit_lt_two_pow (ha.trans_le (Nat.pow_le_pow_right two_pos (not_lt.mp hk)))]

variable (hm : mask < 2 ^ w)
include hm

/-- No bit stands both in a mask and in its complement. -/
theorem complement_and_disjoint (x y : Nat) : (x &&& ((2 ^ w - 1) ^^^ mask)) &&& (y &&& mask) = 0 := by
  refine Nat.eq_of_testBit_eq fun k => ?_
  by_cases hk : k < w
  · simp only [Nat.testBit_and, Nat.testBit_xor, Nat.testBit_two_pow_sub_one, hk, decide_true, Nat.zero_testBit]
    cases mask.testBit k <;> simp
  · simp [Nat.testBit_and, Nat.testBit_lt_two_pow (hm.trans_le (Nat.pow_le_pow_right two_pos (not_lt.mp hk)))]

/-- Bits of one value put in place of those that another has inside a mask. -/
theorem replace_eq_or (ha : a < 2 ^ w) (x : Nat) :
    a - (a &&& mask) + (x &&& mask) = (a &&& ((2 ^ w - 1) ^^^ mask)) ||| (x &&& mask) := by
  have houter : (a &&& ((2 ^ w - 1) ^^^ mask)) < 2 ^ w := Nat.and_le_left.trans_lt ha
  have hsplit := add_eq_or_of_disjoint houter (Nat.and_lt_two_pow a hm) (complement_and_disjoint hm a a)
  rw [complement_or_mask ha] at hsplit
  rw [← add_eq_or_of_disjoint houter (Nat.and_lt_two_pow x hm) (complement_and_disjoint hm a x)]
  omega

end

/-! ### Bit fields (06 R133) and extension (R134) -/

/-- The length of the bit field that b describes, cut at the width. -/
def fieldLength (w b : Nat) : Nat := if w ≤ b % 256 then 0 else min (b / 256 % 256) (w - b % 256)

theorem fieldSpec_eq (w b : Nat) : fieldSpec w b = (b % 256, fieldLength w b) := by
  simp [fieldSpec, fieldLength, field]

theorem fieldLength_le (w b : Nat) : fieldLength w b ≤ w := by
  unfold fieldLength
  split
  · exact Nat.zero_le w
  · omega

/-- The bits of a field stand below the width. -/
theorem fieldMask_lt (w b : Nat) : (2 ^ fieldLength w b - 1) * 2 ^ (b % 256) < 2 ^ w := by
  by_cases h : w ≤ b % 256
  · simp [fieldLength, h]
  · have hlen : fieldLength w b + b % 256 ≤ w := by
      rw [fieldLength, if_neg h]
      omega
    calc (2 ^ fieldLength w b - 1) * 2 ^ (b % 256) < 2 ^ fieldLength w b * 2 ^ (b % 256) :=
          Nat.mul_lt_mul_of_pos_right (Nat.sub_lt (Nat.two_pow_pos _) one_pos) (Nat.two_pow_pos _)
      _ = 2 ^ (fieldLength w b + b % 256) := (pow_add ..).symm
      _ ≤ 2 ^ w := Nat.pow_le_pow_right two_pos hlen

theorem extract_wraps (sgn : Bool) (w a b : Nat) : intBfx sgn w a b % 2 ^ w =
    if fieldLength w b = 0 then 0
    else if sgn then wrapOf w (signedOf (fieldLength w b) (a / 2 ^ (b % 256) % 2 ^ fieldLength w b))
    else a / 2 ^ (b % 256) % 2 ^ fieldLength w b := by
  simp only [intBfx, fieldSpec_eq, signExt_eq_signedOf]
  split
  · exact Nat.zero_mod _
  · split
    · exact wrapOf_mod _ _
    · exact Nat.mod_eq_of_lt ((Nat.mod_lt _ (Nat.two_pow_pos _)).trans_le (Nat.pow_le_pow_right two_pos (fieldLength_le w b)))

theorem insert_wraps {w a : Nat} (ha : a < 2 ^ w) (b c : Nat) : intBfi w a b c % 2 ^ w =
    (a &&& ((2 ^ w - 1) ^^^ (2 ^ fieldLength w b - 1) * 2 ^ (b % 256))) ||| (c * 2 ^ (b % 256) &&& (2 ^ fieldLength w b - 1) * 2 ^ (b % 256)) := by
  have hm := fieldMask_lt w b
  have hbfi : intBfi w a b c = a - (a &&& (2 ^ fieldLength w b - 1) * 2 ^ (b % 256))
      + (c * 2 ^ (b % 256) &&& (2 ^ fieldLength w b - 1) * 2 ^ (b % 256)) := by
    by_cases h : fieldLength w b = 0 <;> simp [intBfi, fieldSpec_eq, h]
  rw [hbfi, replace_eq_or hm ha]
  exact Nat.mod_eq_of_lt (Nat.or_lt_two_pow (Nat.and_le_left.trans_lt ha) (Nat.and_lt_two_pow _ hm))

/-- The number of bits that an extension keeps; 0 keeps all. -/
def keptBits (w b : Nat) : Nat := if w = 64 then b % 64 else b % 32

theorem intExt_eq (sgn : Bool) (w a b : Nat) : intExt sgn w a b =
    if keptBits w b = 0 then a else if sgn then wrapOf w (signedOf (keptBits w b) a) else a % 2 ^ keptBits w b := by
  rw [← signExt_eq_signedOf]
  rfl

theorem extend_wraps (sgn : Bool) {w a : Nat} (ha : a < 2 ^ w) (b : Nat) : intExt sgn w a b % 2 ^ w =
    if keptBits w b = 0 then a
    else if sgn then wrapOf w (signedOf (keptBits w b) (a % 2 ^ keptBits w b)) else a % 2 ^ keptBits w b := by
  rw [intExt_eq, signedOf_mod]
  split
  · exact Nat.mod_eq_of_lt ha
  · split
    · exact wrapOf_mod _ _
    · exact Nat.mod_eq_of_lt ((Nat.mod_le _ _).trans_lt ha)

/-! ### Counts of bits, and the bits reversed (06 R131) -/

/-- A count of at most w fits in w bits. -/
theorem count_wraps {w n : Nat} (h : n ≤ w) : n % 2 ^ w = n := Nat.mod_eq_of_lt (h.trans_lt Nat.lt_two_pow_self)

/-- The length of the run of numbers from 0 that satisfy p, from the first that does not. -/
theorem length_takeWhile_range {n m : Nat} {p : Nat → Bool} (hm : m ≤ n) (hp : ∀ k < m, p k = true) (hend : m < n → p m = false) :
    ((List.range n).takeWhile p).length = m := by
  obtain ⟨d, rfl⟩ := Nat.exists_eq_add_of_le hm
  rw [List.range_add, List.takeWhile_append_of_pos (fun k hk => hp k (List.mem_range.mp hk))]
  cases d with
  | zero => simp
  | succ d => simp [List.range_succ_eq_map, hend (by omega)]

theorem popCount_wraps (w a : Nat) : popCount w a % 2 ^ w = ((List.range w).filter (fun k => a.testBit k)).length := by
  have hbits : bitAt a = fun k => a.testBit k := funext (bitAt_eq_testBit a)
  rw [popCount, bitsOf, idxWhere, hbits]
  exact count_wraps ((List.length_filter_le _ _).trans_eq List.length_range)

theorem leadingZeros_wraps {w a : Nat} (ha : a < 2 ^ w) :
    intClz w a % 2 ^ w = ((List.range w).takeWhile (fun k => !a.testBit (w - 1 - k))).length := by
  have hle : intClz w a ≤ w := by
    unfold intClz
    split <;> omega
  refine (count_wraps hle).trans (length_takeWhile_range hle ?_ ?_).symm
  all_goals
    by_cases h0 : a = 0
    · simp [intClz, h0]
  · intro k hk
    have hlog := (Nat.log2_lt h0).mpr ha
    rw [intClz, if_neg h0] at hk
    rw [Nat.testBit_lt_two_pow ((Nat.log2_lt h0).mp (by omega))]
    rfl
  · intro _
    have hlog := (Nat.log2_lt h0).mpr ha
    rw [intClz, if_neg h0, show w - 1 - (w - 1 - a.log2) = a.log2 by omega, Nat.testBit_log2 h0]
    rfl

theorem trailingZeros_wraps (w a : Nat) : intCtz w a % 2 ^ w = ((List.range w).takeWhile (fun k => !a.testBit k)).length := by
  have hctz : intCtz w a = ((List.range w).find? (fun k => a.testBit k)).getD w := by
    rw [intCtz, bitsOf, idxWhere, List.head?_filter, funext (bitAt_eq_testBit a)]
  rw [hctz]
  cases hfind : (List.range w).find? (fun k => a.testBit k) with
  | none =>
    rw [List.find?_range_eq_none] at hfind
    exact (count_wraps le_rfl).trans (length_takeWhile_range le_rfl hfind (fun h => absurd h (lt_irrefl w))).symm
  | some m =>
    obtain ⟨hm, hmem, hbefore⟩ := List.find?_range_eq_some.mp hfind
    have hlt := List.mem_range.mp hmem
    exact (count_wraps hlt.le).trans (length_takeWhile_range hlt.le hbefore (fun _ => by rw [hm]; rfl)).symm

/-- Of the bits pushed in from below, the last is bit 0. -/
theorem testBit_pushed (a n k : Nat) :
    ((List.range n).foldl (fun v k => 2 * v + b2n (bitAt a k)) 0).testBit k = (decide (k < n) && a.testBit (n - 1 - k)) := by
  induction n generalizing k with
  | zero => simp
  | succ n ih =>
    rw [List.range_succ, List.foldl_append, List.foldl_cons, List.foldl_nil]
    generalize (List.range n).foldl (fun v k => 2 * v + b2n (bitAt a k)) 0 = v at ih
    cases k with
    | zero => cases h : a.testBit n <;> simp [b2n, bitAt_eq_testBit, h]
    | succ k =>
      have hbit : b2n (bitAt a n) < 2 := by unfold b2n; split <;> omega
      rw [Nat.testBit_succ, show (2 * v + b2n (bitAt a n)) / 2 = v by omega, ih, show n + 1 - 1 - (k + 1) = n - 1 - k by omega]
      simp

theorem reversal_wraps (w a : Nat) : intBrev w a % 2 ^ w = (BitVec.ofNat w a).reverse.toNat := by
  have hrev : intBrev w a = (BitVec.ofNat w a).reverse.toNat := by
    refine Nat.eq_of_testBit_eq fun k => (testBit_pushed a w k).trans ?_
    rw [BitVec.testBit_toNat, BitVec.getLsbD_reverse, BitVec.getMsbD, BitVec.getLsbD_ofNat]
    by_cases hk : k < w
    · have : w - 1 - k < w := by omega
      simp [hk, this]
    · simp [hk]
  rw [hrev]
  exact Nat.mod_eq_of_lt (BitVec.isLt _)

end Machine

/-- Settles O6: a field is inserted by its mask, a run of zeros ends at the first set bit, and the reversal pushes the bits in from below. -/
theorem integerFields : Obligations.IntegerFields := by
  unfold Obligations.IntegerFields
  exact ⟨⟨⟨computes_binary (fun f w a b _ => intBfx (mBit f 0) w a b) {} {} fun f a b _ _ _ => extract_wraps (mBit f 0) (widthOf f) a b,
      computes_ternary (fun _ w a b c => intBfi w a b c) {} {} fun _ _ b c ha _ _ => insert_wraps ha b c⟩,
      computes_binary (fun _ w a b _ => intExt true w a b) {} {} fun _ _ b ha _ _ => extend_wraps true ha b,
      computes_binary (fun _ w a b _ => intExt false w a b) {} {} fun _ _ b ha _ _ => extend_wraps false ha b⟩,
    computes_unary (fun _ w a _ _ => popCount w a) {} fun _ a _ _ _ => popCount_wraps _ a,
    computes_unary (fun _ w a _ _ => intClz w a) {} fun _ _ ha _ _ => leadingZeros_wraps ha,
    computes_unary (fun _ w a _ _ => intCtz w a) {} fun _ a _ _ _ => trailingZeros_wraps _ a,
    computes_unary (fun _ w a _ _ => intBrev w a) {} fun _ a _ _ _ => reversal_wraps _ a⟩

end Sys2Proof
end

section
/-! SUPPORT. O7: minimum and maximum, selection, comparison and the sum with carry (06 R131). -/

namespace Sys2Proof

open Machine

namespace Machine

/-! ### Results in registers and predicates -/

theorem withResult_eq {f : Fields} {w : Who} (hu : f.u = w.thread.isNone) (v : BitVec 9) (x : Nat) (s : State) :
    withResult f w v x s = s.modTask w.task (fun t => t.setOpnd w.thread (wr (if f.u then .s else .x2 (mBit f 7))) v x) :=
  congrArg (s.modTask w.task) (funext fun t => (setOpnd_int f w t v x hu).symm)

theorem setOpnd_pred (t : Task) (th : Option Nat) {o : Opnd} (ho : o.kind = .p) (v : BitVec 9) (p : Bool) :
    t.setOpnd th o v (b2n p) = t.modAgent th (fun a => a.setPred v.toNat p) := by
  cases p <;> simp only [Task.setOpnd, ho] <;> rfl

theorem putPred_eq (w : Who) {o : Opnd} (ho : o.kind = .p) (v : BitVec 9) (p : Bool) (s : State) :
    putPred w v p s = s.modTask w.task (fun t => t.setOpnd w.thread o v (b2n p)) :=
  congrArg (s.modTask w.task) (funext fun t => (setOpnd_pred t w.thread ho v p).symm)

theorem b2n_lt_two (p : Bool) : b2n p < 2 := by
  cases p <;> decide

/-! ### Minimum and maximum -/

theorem minMax_wraps (mx : Bool) (f : Fields) {a b : Nat} (ha : a < 2 ^ widthOf f) (hb : b < 2 ^ widthOf f) :
    intMinMax mx (mBit f 0) (widthOf f) a b % 2 ^ widthOf f =
      if readOf f a ≤ readOf f b then (if mx then b else a) else (if mx then a else b) := by
  rw [intMinMax, sgnRead_eq_readOf, sgnRead_eq_readOf]
  by_cases h : readOf f a ≤ readOf f b <;> cases mx <;> simp [h, Nat.mod_eq_of_lt ha, Nat.mod_eq_of_lt hb]

/-! ### Instructions over sources A and B and a predicate -/

/-- Source A is a register, and source B a register or the immediate. -/
structure IntSources (mk : Fields → Instr) (b : IntSrc) : Prop where
  opndA : ∀ f, (shape (mk f)).a = rd (if f.u then .s else .x2 (mBit f 7)) := by exact fun _ => rfl
  opndB : ∀ f, (shape (mk f)).b = b.opnd (if f.u then .s else .x2 (mBit f 7)) := by exact fun _ => rfl

section
variable {mk : Fields → Instr} {b : IntSrc} (h : IntSources mk b)
include h

/-- ISEL: `intOp` of a choice by the predicate in C. -/
theorem IntSources.selects (hd : ∀ f, (shape (mk f)).d = wr (if f.u then .s else .x2 (mBit f 7))) (hc : ∀ f, (shape (mk f)).c = rdP)
    (he : ∀ f s, exec (mk f) s = intOp (mk f) f (b == .imm) (fun _ x y c => if c = 1 then x else y) s) :
    Selects mk (fun f w t => b.read (sourceOf f w t f.b) (immediateOf f)) := by
  intro f w t s T
  have hpred (p : Bool) : trunc (b2n p) (intW f) = b2n p :=
    Nat.mod_eq_of_lt ((b2n_lt_two p).trans_le (Nat.le_self_pow (widthOf_pos f).ne' 2))
  have hval (p : Bool) {x y : Nat} (hx : x < 2 ^ widthOf f) (hy : y < 2 ^ widthOf f) :
      (if b2n p = 1 then x else y) % 2 ^ widthOf f = if p then x else y := by
    cases p
    · exact Nat.mod_eq_of_lt hy
    · exact Nat.mod_eq_of_lt hx
  have hc' : t.opnd w.thread (shape (mk f)).c f.c = b2n ((t.agent w.thread).pred f.c.toNat) := by rw [hc]; rfl
  rw [he, intOp_completes T (hd f), h.opndA, h.opndB, hc', hpred, opnd_int f w t f.a (turn_u T), opnd_intSrc T, IntSrc.read_form,
    hval _ (sourceOf_lt T f.a) (read_lt T b)]

/-- ICMP: `intCmp` writes a predicate. -/
theorem IntSources.compares (hd : ∀ f, (shape (mk f)).d = wrP) (he : ∀ f s, exec (mk f) s = intCmp (mk f) f (b == .imm) s) :
    Compares mk (fun f w t => b.read (sourceOf f w t f.b) (immediateOf f)) := by
  intro f w t s T
  rw [he, putPred_eq w (congrArg Opnd.kind (hd f))]
  refine issueLane_completes T ?_ (fun _ => by simp) (fun _ _ => by simp)
  rw [run_bind_ok (run_rdOpnd T.found _ _)]
  dsimp only
  rw [run_bind_ok (run_intB T b (h.opndB f)), h.opndA, opnd_int f w t f.a (turn_u T)]
  simp only [run_wrOpnd, width_eq, sgnRead_eq_readOf, mField]
  generalize field f.mod.toNat 3 1 = cond
  match cond with
  | 0 | 2 | 3 | 4 | _ + 5 => rfl
  | 1 => simp only [intCond, bne, beq_eq_decide, decide_not]

/-- IADDC: `intAddc` writes the sum, then the carry. -/
theorem IntSources.addsCarry (hd : ∀ f, (shape (mk f)).d = wr (if f.u then .s else .x2 (mBit f 7))) (hc : ∀ f, (shape (mk f)).c = rwP)
    (he : ∀ f s, exec (mk f) s = intAddc (mk f) f (b == .imm) s) :
    AddsCarry mk (fun f w t => b.read (sourceOf f w t f.b) (immediateOf f)) := by
  intro f w t s T
  have hc' : t.opnd w.thread (shape (mk f)).c f.c = if (t.agent w.thread).pred f.c.toNat then 1 else 0 := by rw [hc]; rfl
  rw [he, putPred_eq w (congrArg Opnd.kind (hc f)), withResult_eq (turn_u T), ← hd]
  refine issue_completes T (run_seq ?_) (State.found_modTask (State.found_modTask T.found (fun _ => by simp)) (fun _ => by simp))
    (fun k => ?_)
  · rw [run_bind_ok (run_rdOpnd T.found _ _)]
    dsimp only
    rw [run_bind_ok (run_intB T b (h.opndB f)), h.opndA, opnd_int f w t f.a (turn_u T), run_bind_ok (run_rdOpnd T.found _ _), hc']
    rfl
  · rw [Task.status_setOpnd, Task.status_setOpnd]
    exact T.alone k

end

end Machine

/-- Settles O7: the register form and the immediate form of each by one lemma over source B. -/
theorem integerChoices : Obligations.IntegerChoices := by
  unfold Obligations.IntegerChoices
  exact ⟨computes_binary (fun f w a b _ => intMinMax false (mBit f 0) w a b) {} {} fun f _ _ ha hb _ => minMax_wraps false f ha hb,
    computes_binary (fun f w a b _ => intMinMax true (mBit f 0) w a b) {} {} fun f _ _ ha hb _ => minMax_wraps true f ha hb,
    IntSources.selects (b := .src) {} (fun _ => rfl) (fun _ => rfl) (fun _ _ => rfl),
    IntSources.selects (b := .imm) {} (fun _ => rfl) (fun _ => rfl) (fun _ _ => rfl),
    IntSources.compares (b := .src) {} (fun _ => rfl) (fun _ _ => rfl),
    IntSources.compares (b := .imm) {} (fun _ => rfl) (fun _ _ => rfl),
    IntSources.addsCarry (b := .src) {} (fun _ => rfl) (fun _ => rfl) (fun _ _ => rfl),
    IntSources.addsCarry (b := .imm) {} (fun _ => rfl) (fun _ => rfl) (fun _ _ => rfl)⟩

end Sys2Proof
end

section
/-! SUPPORT. O8, O10: floating-point instructions of space 0x02 (06 R135 to R142). -/

namespace Sys2Proof

open Machine

namespace Machine

theorem yields_congr {mk : Fields → Instr} {val val' : Fields → Who → Task → Nat} (h : Yields mk val) (e : ∀ f w t, val f w t = val' f w t) :
    Yields mk val' := by
  have hval : val = val' := funext fun f => funext fun w => funext fun t => e f w t
  exact hval ▸ h

/-- The start of the bodies: the task and sources A and B are read. -/
theorem run_readsAB {i : Instr} {f : Fields} {w : Who} {t : Task} {s : State} (found : s.task? w.task = some t) (body : Task → Nat → Nat → M Unit) :
    (do body (← theTask w) (← rdOpnd w (shape i).a f.a) (← rdOpnd w (shape i).b f.b) : M Unit) s = body t (valA i f w t) (valB i f w t) s := by
  rw [run_bind_ok (run_theTask found), run_bind_ok (run_rdOpnd found _ _), run_bind_ok (run_rdOpnd found _ _)]
  rfl

/-- An instruction that rounds each element: `fpOp` of the function. -/
theorem rounds_fpOp {mk : Fields → Instr} {g : Fmt → RMode → FVal → FVal → FVal → FVal} (he : ∀ f s, exec (mk f) s = fpOp (mk f) f g s) :
    Rounds mk g := by
  intro f w t s T
  refine (he f s).trans (issueLane_putD T ?_)
  rw [run_readsAB T.found, run_bind_ok (run_rdOpnd T.found _ _)]
  rfl

/-- An instruction on the bits of each element. -/
theorem yields_fpBits {mk : Fields → Instr} {g : FpType → Bool → Nat → Nat → Nat} (he : ∀ f s, exec (mk f) s = fpBits (mk f) f g s) :
    Yields mk (fun f w t => mapElems (fpElem f).1 (fpElem f).2 (fun k =>
      g (fpElem f).1 t.ftz (elemAt (fpElem f).1 (valA (mk f) f w t) k) (elemAt (fpElem f).1 (valB (mk f) f w t) k))) := by
  intro f w t s T
  refine (he f s).trans (issueLane_putD T ?_)
  rw [run_readsAB T.found]
  rfl

/-! ### Minimum, maximum, comparison and class (06 R137) -/

/-- FMIN and FMAX as R137 words them: a NaN gives way, and of two numbers the first is the lesser where it is below the second, or equal to it and
negative or beside a positive one. -/
theorem fminmax_eq (ty : FpType) (mx ftz : Bool) (a b : Nat) : fminmax ty mx ftz a b = ty.encode
    (let x := flush ftz ty (ty.decode a)
     let y := flush ftz ty (ty.decode b)
     if x = .nan then y else if y = .nan then x
     else if FVal.lt x y || (FVal.eqv x y && (x.isNeg || !y.isNeg)) then (if mx then y else x) else (if mx then x else y)) := by
  dsimp only
  unfold fminmax FVal.minFirst
  dsimp only
  generalize flush ftz ty (ty.decode a) = x
  generalize flush ftz ty (ty.decode b) = y
  by_cases hx : x = .nan
  · rw [if_pos hx, if_pos hx]
  by_cases hy : y = .nan
  · rw [if_neg hx, if_neg hx, if_pos hy, if_pos hy]
  rw [if_neg hx, if_neg hx, if_neg hy, if_neg hy]
  cases mx <;> cases (FVal.lt x y || (FVal.eqv x y && (x.isNeg || !y.isNeg))) <;> rfl

theorem yields_fminmax (mx : Bool) : Yields (if mx then .fmax else .fmin) (fun f w t => mapElems (fpElem f).1 (fpElem f).2 (fun k =>
    fminmax (fpElem f).1 mx t.ftz (elemAt (fpElem f).1 (valA (.fmin f) f w t) k) (elemAt (fpElem f).1 (valB (.fmin f) f w t) k))) := by
  cases mx with
  | false => exact yields_fpBits (g := fun ty ftz a b => fminmax ty false ftz a b) (fun _ _ => rfl)
  | true => exact yields_fpBits (g := fun ty ftz a b => fminmax ty true ftz a b) (fun _ _ => rfl)

/-- A NaN is below nothing, and nothing is below it. -/
theorem FVal.lt_of_nan {a b : FVal} (h : a = .nan ∨ b = .nan) : FVal.lt a b = false := by
  obtain rfl | rfl := h
  · rfl
  · cases a <;> rfl

theorem FVal.eqv_of_nan {a b : FVal} (h : a = .nan ∨ b = .nan) : FVal.eqv a b = false := by
  obtain rfl | rfl := h <;> simp [FVal.eqv]

section
variable (a b : FVal)

theorem fpCond_unordered (n : Nat) : fpCond (n + 3) a b = decide (a = .nan ∨ b = .nan) := by
  simp [fpCond, beq_eq_decide]

/-- The ordered conditions hold of no NaN, which `FVal.lt` and `FVal.eqv` have in them. -/
theorem ordered_and {p : Bool} (h : a = .nan ∨ b = .nan → p = false) : (!(a == .nan || b == .nan) && p) = p := by
  by_cases hn : a = .nan ∨ b = .nan
  · rw [h hn, Bool.and_false]
  · have hb : (a == .nan || b == .nan) = false := by simpa [not_or] using hn
    rw [hb]
    rfl

theorem fpCond_eqv : fpCond 0 a b = FVal.eqv a b := ordered_and a b FVal.eqv_of_nan

theorem fpCond_lt : fpCond 1 a b = FVal.lt a b := ordered_and a b FVal.lt_of_nan

theorem fpCond_le : fpCond 2 a b = (FVal.lt a b || FVal.eqv a b) :=
  ordered_and a b fun h => by rw [FVal.lt_of_nan h, FVal.eqv_of_nan h]; rfl

end

theorem exec_fcmp {f : Fields} {w : Who} {t : Task} {s : State} (T : Turn (.fcmp f) f w t s) :
    exec (.fcmp f) s = .next (retired (.fcmp f) f w t (putPred w f.d
      (fpCond (field f.mod.toNat 1 0) (fpIn (fpElem f).1 t.ftz (valA (.fcmp f) f w t)) (fpIn (fpElem f).1 t.ftz (valB (.fcmp f) f w t))) s)) := by
  rw [putPred_eq w (o := (shape (.fcmp f)).d) rfl]
  refine issueLane_putD T ?_
  rw [run_readsAB T.found]
  rfl

theorem yields_fclass : Yields .fclass (fun f w t => (List.range (fpElem f).2).foldl (fun v k =>
    v + 2 ^ (16 * k + fpClass (fpElem f).1 t.ftz (elemAt (fpElem f).1 (valA (.fclass f) f w t) k))) 0) := by
  intro f w t s T
  refine issueLane_putD T ?_
  rw [run_bind_ok (run_theTask T.found), run_bind_ok (run_rdOpnd T.found _ _)]
  rfl

theorem fpElem_count (f : Fields) : (fpElem f).2 = 1 ∨ (fpElem f).2 = 2 := by
  unfold fpElem
  split
  · exact .inl rfl
  · exact .inl rfl
  · exact .inr rfl
  · exact .inr rfl

/-- The masks of one element, or of two side by side. -/
theorem classMask_eq (c : Nat → Nat) {n : Nat} (hn : n = 1 ∨ n = 2) :
    (List.range n).foldl (fun v k => v + 2 ^ (16 * k + c k)) 0 = if n = 1 then 2 ^ c 0 else 2 ^ c 0 + 2 ^ 16 * 2 ^ c 1 := by
  obtain rfl | rfl := hn
  · simp
  · simp [List.range_succ, pow_add]

end Machine

/-- Settles O8: each instruction is `fpOp` of the function that it rounds. -/
theorem floatArithmetic : Obligations.FloatArithmetic := by
  unfold Obligations.FloatArithmetic
  exact ⟨rounds_fpOp fun _ _ => rfl, rounds_fpOp fun _ _ => rfl, rounds_fpOp fun _ _ => rfl, rounds_fpOp fun _ _ => rfl,
    rounds_fpOp fun _ _ => rfl, rounds_fpOp fun _ _ => rfl, rounds_fpOp fun _ _ => rfl⟩

/-- Settles O10: minimum, maximum and comparison by their treatment of NaN, the others by what their bodies read and write. -/
theorem floatComparisonsAndFunctions : Obligations.FloatComparisonsAndFunctions := by
  unfold Obligations.FloatComparisonsAndFunctions
  refine ⟨⟨fun mx => ?minmax, fun f w t s T => ?fcmp, yields_congr yields_fclass fun f _ _ => classMask_eq _ (fpElem_count f)⟩,
    rounds_fpOp fun _ _ => rfl, rounds_fpOp fun _ _ => rfl, rounds_fpOp fun _ _ => rfl, rounds_fpOp fun _ _ => rfl, rounds_fpOp fun _ _ => rfl, rounds_fpOp fun _ _ => rfl, rounds_fpOp fun _ _ => rfl,
    rounds_fpOp fun _ _ => rfl, fun f w t s T => ?fscale, fun f w t s T => ?fdot2⟩
  case minmax => exact yields_congr (yields_fminmax mx) fun f w t => congrArg (mapElems _ _) (funext fun k => fminmax_eq ..)
  case fcmp =>
    refine (exec_fcmp T).trans (congrArg (fun p => Host.Outcome.next (retired (.fcmp f) f w t (putPred w f.d p s))) ?_)
    generalize field f.mod.toNat 1 0 = cond
    match cond with
    | 0 => exact fpCond_eqv ..
    | 1 => exact fpCond_lt ..
    | 2 => exact fpCond_le ..
    | n + 3 => exact fpCond_unordered ..
  case fscale =>
    refine issueLane_putD T ?_
    rw [run_readsAB T.found]
    rfl
  case fdot2 =>
    refine issueLane_putD T ?_
    rw [run_readsAB T.found, run_bind_ok (run_rdOpnd T.found _ _)]
    rfl

end Sys2Proof
end

section
/-! SUPPORT. O26: a matrix fault record whose cause is that of a BKPT. -/
namespace Sys2Proof
open Machine Tests

/-- The uniform stream's count of retired instructions, of task 1 after a step. -/
def retiredAfter : Host.Outcome State Fault Refusal → Option (BitVec 64)
  | .next s => (s.task? 1).map (fun t => t.u.retired)
  | _ => none

/-- T with a matrix fault record of cause BKPT: no engine records one, and a restored image holds whatever cause was in memory. -/
def bkptRecorded : Machine.Task := { T with fault := some { cause := cBKPT } }

theorem turn_tstat_bkptRecorded : Turn (.tstat (F true 4 1 0 0 0x80)) (F true 4 1 0 0 0x80) U bkptRecorded (S none bkptRecorded) :=
  turn_of_turns (by decide)

/-- The step retires TSTAT, as it does every instruction that traps with BKPT or SWTRAP. -/
theorem retiredAfter_tstat_bkptRecorded : retiredAfter (exec (.tstat (F true 4 1 0 0 0x80)) (S none bkptRecorded)) = some 1 := by decide +kernel

/-- Refutes O26: its last clause gives the trap of TSTAT as that of the recorded cause, whatever the cause. A record of the cause BKPT or SWTRAP, which an
image may restore, retires TSTAT first (`State.conclude`, R396 and R421), so that the uniform stream has retired one instruction more. The statement
lacks the hypothesis that the cause is neither. -/
theorem not_matrixQueueAndStatus : ¬ Obligations.MatrixQueueAndStatus := by
  unfold Obligations.MatrixQueueAndStatus
  rintro ⟨-, -, fromRecord⟩
  have ran := retiredAfter_tstat_bkptRecorded
  rw [fromRecord _ 1 bkptRecorded _ _ turn_tstat_bkptRecorded (by decide) rfl] at ran
  exact absurd ran (by decide +kernel)
end Sys2Proof
end

section
/-! SUPPORT. O49: fields of bytes, of bytes placed one after another, and of a layout. -/
namespace Sys2Proof
open Machine
namespace Machine

/-! ### Little-endian bytes -/

@[simp] theorem length_leBytes (n v : Nat) : (leBytes n v).length = n := by
  induction n generalizing v with
  | zero => rfl
  | succ n ih => simp [leBytes, ih]

theorem two_pow_byte_succ (n : Nat) : 2 ^ (8 * (n + 1)) = 256 * 2 ^ (8 * n) := by
  rw [Nat.mul_succ, pow_add]
  exact Nat.mul_comm ..

theorem ofLE_leBytes (n v : Nat) : ofLE (leBytes n v) = v % 2 ^ (8 * n) := by
  induction n generalizing v with
  | zero => simp [leBytes, ofLE, Nat.mod_one]
  | succ n ih =>
    rw [leBytes, ofLE, ih, BitVec.toNat_ofNat, two_pow_byte_succ]
    exact (Nat.mod_mul ..).symm

theorem ofLE_replicate (n : Nat) : ofLE (List.replicate n 0) = 0 := by
  induction n with
  | zero => rfl
  | succ n ih =>
    rw [List.replicate_succ, ofLE, ih]
    rfl

theorem leBytes_take {m n : Nat} (h : m ≤ n) (v : Nat) : (leBytes n v).take m = leBytes m v := by
  induction m generalizing n v with
  | zero => rfl
  | succ m ih =>
    obtain ⟨n, rfl⟩ : ∃ k, n = k + 1 := ⟨n - 1, by omega⟩
    simp [leBytes, ih (Nat.le_of_succ_le_succ h)]

theorem leBytes_drop (n m v : Nat) : (leBytes n v).drop m = leBytes (n - m) (v / 2 ^ (8 * m)) := by
  induction m generalizing n v with
  | zero => simp
  | succ m ih =>
    cases n with
    | zero => simp [leBytes]
    | succ n =>
      rw [leBytes, List.drop_succ_cons, ih, Nat.add_sub_add_right, Nat.div_div_eq_div_mul, two_pow_byte_succ]

/-! ### A field of bytes -/

theorem leField_leBytes_at {o m n : Nat} (h : o + m ≤ n) (v : Nat) : leField (leBytes n v) o m = v / 2 ^ (8 * o) % 2 ^ (8 * m) := by
  rw [leField, leBytes_drop, leBytes_take (by omega), ofLE_leBytes]

theorem leField_leBytes (n v : Nat) : leField (leBytes n v) 0 n = v % 2 ^ (8 * n) := by
  rw [leField_leBytes_at (by omega)]
  simp

theorem leField_replicate (k o n : Nat) : leField (List.replicate k 0) o n = 0 := by
  rw [leField, List.drop_replicate, List.take_replicate, ofLE_replicate]

theorem leField_append_left {a b : List Byte} {o n : Nat} (h : o + n ≤ a.length) : leField (a ++ b) o n = leField a o n := by
  rw [leField, leField, List.drop_append_of_le_length (by omega), List.take_append_of_le_length (by rw [List.length_drop]; omega)]

theorem leField_append_right {a b : List Byte} {o n : Nat} (h : a.length ≤ o) : leField (a ++ b) o n = leField b (o - a.length) n := by
  rw [leField, leField, List.drop_append, List.drop_eq_nil_of_le h, List.nil_append]

/-- The j-th of equally long pieces, and what precedes it left out. -/
theorem take_drop_flatMap {α β : Type} {g : α → List β} {w : Nat} {l : List α} (hg : ∀ x ∈ l, (g x).length = w) {j : Nat} (hj : j < l.length)
    (tail : List β) : ((l.flatMap g ++ tail).drop (w * j)).take w = g l[j] := by
  induction l generalizing j with
  | nil => cases hj
  | cons x l ih =>
    obtain ⟨hx, hl⟩ := List.forall_mem_cons.mp hg
    rw [List.flatMap_cons, List.append_assoc]
    cases j with
    | zero => simp [← hx]
    | succ j =>
      rw [List.drop_append, List.drop_eq_nil_of_le (by rw [hx, Nat.mul_succ]; omega), List.nil_append, hx, Nat.mul_succ, Nat.add_sub_cancel]
      exact ih hl (Nat.lt_of_succ_lt_succ hj)

/-- The j-th of equally long pieces. -/
theorem leField_flatMap {α : Type} (g : α → List Byte) {w : Nat} (hg : ∀ x, (g x).length = w) (l : List α) {j : Nat} (hj : j < l.length) :
    leField (l.flatMap g) (w * j) w = leField (g l[j]) 0 w := by
  have e := take_drop_flatMap (fun x _ => hg x) hj []
  rw [List.append_nil] at e
  rw [leField, leField, e, List.drop_zero, List.take_of_length_le (hg _).le]

theorem length_flatMap_of_length {α : Type} (g : α → List Byte) {w : Nat} (hg : ∀ x, (g x).length = w) (l : List α) :
    (l.flatMap g).length = w * l.length := by
  simp [List.length_flatMap, hg, Nat.mul_comm]

theorem leField_words {α : Type} (w : Nat) (g : α → Nat) (l : List α) {j : Nat} (hj : j < l.length) :
    leField (l.flatMap (fun x => leBytes w (g x))) (w * j) w = g l[j] % 2 ^ (8 * w) :=
  (leField_flatMap _ (fun _ => length_leBytes ..) l hj).trans (leField_leBytes ..)

theorem length_words {α : Type} (w : Nat) (g : α → Nat) (l : List α) : (l.flatMap (fun x => leBytes w (g x))).length = w * l.length :=
  length_flatMap_of_length _ (fun _ => length_leBytes ..) l

/-- A bit of a field is that of the value, within the field. -/
theorem bitAt_mod {v n k : Nat} (h : k < n) : bitAt (v % 2 ^ n) k = bitAt v k := by
  rw [bitAt_eq_testBit, bitAt_eq_testBit, Nat.testBit_mod_two_pow, decide_eq_true h, Bool.true_and]

/-! ### A layout -/

/-- Sections stand at rising offsets from pos on, each within len. -/
def Fits : Nat → Nat → List (Nat × List Byte) → Prop
  | pos, len, [] => pos ≤ len
  | pos, len, (o, bs) :: rest => pos ≤ o ∧ Fits (o + bs.length) len rest

theorem length_layout {pos len : Nat} {l : List (Nat × List Byte)} (h : Fits pos len l) : pos + (layout pos len l).length = len := by
  induction l generalizing pos with
  | nil => simpa [layout] using Nat.add_sub_cancel' h
  | cons x l ih =>
    obtain ⟨h1, h2⟩ := h
    have := ih h2
    simp only [layout, List.length_append, List.length_replicate]
    omega

/-- A field within the section at an offset. -/
theorem leField_layout_from {pos len o : Nat} {bs : List Byte} {l : List (Nat × List Byte)} (h : Fits pos len l) (hm : l.lookup o = some bs)
    {p n : Nat} (hp : p + n ≤ bs.length) : pos ≤ o ∧ leField (layout pos len l) (o - pos + p) n = leField bs p n := by
  induction l generalizing pos with
  | nil => cases hm
  | cons x l ih =>
    obtain ⟨q, cs⟩ := x
    obtain ⟨h1, h2⟩ := h
    rw [layout, List.append_assoc]
    rw [List.lookup_cons] at hm
    split at hm
    · next he =>
      obtain rfl : o = q := by simpa using he
      obtain rfl : cs = bs := by simpa using hm
      refine ⟨h1, ?_⟩
      rw [leField_append_right (by rw [List.length_replicate]; omega), List.length_replicate, leField_append_left (by omega), Nat.add_sub_cancel_left]
    · obtain ⟨h3, h4⟩ := ih h2 hm
      refine ⟨by omega, ?_⟩
      rw [leField_append_right (by rw [List.length_replicate]; omega), List.length_replicate, leField_append_right (by omega), ← h4]
      congr 1
      omega

/-- A field that meets no section is zero. -/
theorem leField_layout_gap {pos len q n : Nat} {l : List (Nat × List Byte)} (h : Fits pos len l) (hq : pos ≤ q)
    (hl : ∀ x ∈ l, q + n ≤ x.1 ∨ x.1 + x.2.length ≤ q) : leField (layout pos len l) (q - pos) n = 0 := by
  induction l generalizing pos with
  | nil => exact leField_replicate ..
  | cons x l ih =>
    obtain ⟨o, bs⟩ := x
    obtain ⟨h1, h2⟩ := h
    obtain ⟨hx, hl⟩ := List.forall_mem_cons.mp hl
    rw [layout, List.append_assoc]
    obtain hx | hx := hx
    · rw [leField_append_left (by rw [List.length_replicate]; simp only at hx; omega)]
      exact leField_replicate ..
    · simp only at hx
      rw [leField_append_right (by rw [List.length_replicate]; omega), List.length_replicate, leField_append_right (by omega), ← ih h2 hx hl]
      congr 1
      omega

/-- Bytes are the layout of sections that fit. -/
structure Laid (d : List Byte) (len : Nat) (l : List (Nat × List Byte)) : Prop where
  bytes : d = layout 0 len l
  fits : Fits 0 len l

namespace Laid

variable {d : List Byte} {len : Nat} {l : List (Nat × List Byte)} (L : Laid d len l)
include L

theorem length : d.length = len := by
  have := length_layout L.fits
  rw [L.bytes]
  omega

/-- A field within the section at an offset. -/
theorem field {o : Nat} {bs : List Byte} (hm : l.lookup o = some bs) {p n : Nat} (hp : p + n ≤ bs.length) : leField d (o + p) n = leField bs p n := by
  rw [L.bytes]
  exact (leField_layout_from L.fits hm hp).2

/-- A section that holds one number. -/
theorem nat {o n v : Nat} (hm : l.lookup o = some (leBytes n v)) : leField d o n = v % 2 ^ (8 * n) :=
  (L.field hm (p := 0) (by simp)).trans (leField_leBytes ..)

theorem nat_of_lt {o n v : Nat} (hm : l.lookup o = some (leBytes n v)) (hv : v < 2 ^ (8 * n)) : leField d o n = v :=
  (L.nat hm).trans (Nat.mod_eq_of_lt hv)

/-- A section of numbers of one width. -/
theorem words {α : Type} {o w : Nat} {g : α → Nat} {xs : List α} (hm : l.lookup o = some (xs.flatMap (fun x => leBytes w (g x)))) {j : Nat}
    (hj : j < xs.length) : leField d (o + w * j) w = g xs[j] % 2 ^ (8 * w) := by
  rw [L.field hm, leField_words w g xs hj]
  rw [length_words, ← Nat.mul_succ]
  exact Nat.mul_le_mul_left w hj

/-- A field that meets no section is zero. -/
theorem gap {q n : Nat} (h : ∀ x ∈ l, q + n ≤ x.1 ∨ x.1 + x.2.length ≤ q) : leField d q n = 0 := by
  rw [L.bytes]
  exact leField_layout_gap L.fits (Nat.zero_le q) h

end Laid

end Machine
end Sys2Proof
end

section
/-! SUPPORT. O49: the sections of the uniform block, of a thread record and of the slot header. -/
namespace Sys2Proof
open Machine
namespace Machine

/-! ### The bytes of an agent's parts -/

@[simp] theorem Window.length_bytes (w : Window) : w.bytes.length = 8 := length_leBytes ..

@[simp] theorem length_windowsBytes (ws : List Window) : (windowsBytes ws).length = 128 := by
  simp [windowsBytes, List.length_flatMap]
  omega

@[simp] theorem length_batchRecord (ord flags : Nat) (err : Option ErrRec) (oob : Bool) : (batchRecord ord flags err oob).length = 32 := by
  cases err <;> simp [batchRecord]

@[simp] theorem Agent.length_batchBytes (a : Agent) : a.batchBytes.length = 512 := by
  simp [Agent.batchBytes, List.length_flatMap]
  omega

@[simp] theorem length_parkBytes (p : Option Park) : (parkBytes p).length = 12 := by cases p <;> simp [parkBytes]

@[simp] theorem length_stackBytes (a : Agent) : (stackBytes a).length = 64 := by
  simp [stackBytes, List.length_flatMap]
  omega

@[simp] theorem length_countsBytes (width : Nat) (m : Sparse Nat) : (countsBytes width m).length = width * 16 := by
  exact length_words ..

@[simp] theorem Trap.length_frame (p : Trap) (lanes : Nat) (more : Bool) (upc s1 : Nat) (blk : Block) : (p.frame lanes more upc s1 blk).length = 128 := by
  simp [Trap.frame]

theorem Task.length_trapHead (t : Task) (th : Option Nat) : (t.trapHead th).length ≤ 80 := by
  unfold Task.trapHead
  split <;> simp [List.length_take]

/-! ### Predicates as a byte -/

theorem sum_b2n_lt (q : Nat → Bool) (n : Nat) : ((List.range n).map (fun p => b2n (q p) * 2 ^ p)).sum < 2 ^ n := by
  induction n with
  | zero => simp
  | succ n ih =>
    rw [List.range_succ, List.map_append, List.sum_append, pow_succ]
    have hb : b2n (q n) * 2 ^ n ≤ 2 ^ n := by cases q n <;> simp [b2n]
    simp only [List.map_cons, List.map_nil, List.sum_cons, List.sum_nil]
    omega

/-- Bit k of the sum of the powers that q takes. -/
theorem bitAt_sum_b2n (q : Nat → Bool) {n k : Nat} (hk : k < n) : bitAt ((List.range n).map (fun p => b2n (q p) * 2 ^ p)).sum k = q k := by
  induction n with
  | zero => cases hk
  | succ n ih =>
    have hlt := sum_b2n_lt q n
    rw [List.range_succ, List.map_append, List.sum_append, List.map_singleton, List.sum_singleton, bitAt_eq_testBit, Nat.add_comm, Nat.mul_comm,
      Nat.testBit_two_pow_mul_add _ hlt, ← bitAt_eq_testBit]
    split
    · next h => exact ih h
    · next h =>
      obtain rfl : k = n := by omega
      cases q k <;> simp [b2n]

theorem Agent.bitAt_predByte (a : Agent) {k : Nat} (h : k < 8) : bitAt a.predByte k = a.pred k := bitAt_sum_b2n a.pred h

theorem Agent.predByte_lt (a : Agent) : a.predByte < 2 ^ 8 := sum_b2n_lt a.pred 8

/-- Predicates read back from their byte. -/
theorem Agent.pred_of_predByte {a b : Agent} (h : b.preds = BitVec.ofNat 8 (a.predByte % 128 / 2 * 2)) (p : Nat) : b.pred p = a.pred p := by
  by_cases hp : p = 0 ∨ 7 ≤ p
  · obtain rfl | rfl | hp : p = 0 ∨ p = 7 ∨ 8 ≤ p := by omega
    · rfl
    · rfl
    · have h0 : p ≠ 0 := by omega
      have h7 : p ≠ 7 := by omega
      simp [Agent.pred, h0, h7, BitVec.getLsbD_of_ge _ _ hp]
  · obtain ⟨q, rfl⟩ : ∃ q, p = q + 1 := ⟨p - 1, by omega⟩
    have hq : q + 1 < 7 := by omega
    rw [← a.bitAt_predByte (by omega : q + 1 < 8), Agent.pred, if_neg (by omega), if_neg (by omega), h, BitVec.getLsbD_ofNat,
      Nat.testBit_succ, Nat.mul_div_cancel _ Nat.zero_lt_two, ← Nat.testBit_succ, ← bitAt_eq_testBit, decide_eq_true (by omega)]
    exact bitAt_mod (n := 7) hq

/-! ### A stack of return addresses -/

theorem leField_stackBytes {a : Agent} (h8 : a.stack.length ≤ 8) {k : Nat} (hk : k < a.stack.length) :
    leField (stackBytes a) (8 * k) 8 = a.stack[k].toNat := by
  rw [stackBytes, List.take_of_length_le h8, leField_append_left (by rw [length_words]; omega), leField_words 8 _ _ hk]
  exact Nat.mod_eq_of_lt a.stack[k].isLt

/-- A stack read back from a place where its bytes stand. -/
theorem stackOfBytes_eq {a : Agent} {d : List Byte} {o : Nat} (h8 : a.stack.length ≤ 8)
    (hd : ∀ k, k < 8 → leField d (o + 8 * k) 8 = leField (stackBytes a) (8 * k) 8) : stackOfBytes d o a.stack.length = a.stack := by
  refine List.ext_getElem (by simp [stackOfBytes]) fun k hk hk' => ?_
  simp only [stackOfBytes, List.getElem_map, List.getElem_range]
  rw [hd k (by omega), leField_stackBytes h8 hk']
  simp

end Machine
end Sys2Proof
end

section
/-! SUPPORT. O49: registers set one after another. -/
namespace Sys2Proof
open Machine
namespace Machine

/-! ### A register set -/

theorem Task.reg_zero (t : Task) (th : Option Nat) : t.reg th 0 = 0 := rfl

theorem Task.setReg_zero (t : Task) (th : Option Nat) (v : Nat) : t.setReg th 0 v = t := rfl

theorem Task.setReg_none (t : Task) {r : Nat} (hr : r ≠ 0) (v : Nat) :
    t.setReg none r v = { t with u := { t.u with s := Sparse.put 0 t.u.s r (BitVec.ofNat 64 v) } } := if_neg hr

theorem Task.setReg_some (t : Task) (k : Nat) {r : Nat} (hr : r ≠ 0) (v : Nat) :
    t.setReg (some k) r v = t.modThread k (fun x => { x with x := Sparse.put 0 x.x r (BitVec.ofNat 32 v) }) := if_neg hr

theorem Task.reg_none (t : Task) {r : Nat} (hr : r ≠ 0) : t.reg none r = (Sparse.get 0 t.u.s r).toNat := if_neg hr

theorem Task.reg_some (t : Task) (k : Nat) {r : Nat} (hr : r ≠ 0) : t.reg (some k) r = (Sparse.get 0 (t.thread k).x r).toNat := if_neg hr

/-- The register of an agent reads what was set, in its width; the other registers of the agent are as before. -/
theorem Task.reg_setReg_none (t : Task) (r v q : Nat) :
    (t.setReg none r v).reg none q = if q = r ∧ r ≠ 0 then v % 2 ^ 64 else t.reg none q := by
  obtain rfl | hr := eq_or_ne r 0
  · simp [Task.setReg_zero]
  rw [Task.setReg_none t hr]
  obtain rfl | hq := eq_or_ne q 0
  · simp [Task.reg_zero, hr.symm]
  rw [Task.reg_none _ hq, Task.reg_none _ hq]
  obtain rfl | h := eq_or_ne q r
  · simp [hr, Sparse.get_put_same]
  · simp [h, Sparse.get_put_other _ _ _ h]

theorem Task.reg_setReg_some (t : Task) {k : Nat} (hk : k < t.threads.length) (r v q : Nat) :
    (t.setReg (some k) r v).reg (some k) q = if q = r ∧ r ≠ 0 then v % 2 ^ 32 else t.reg (some k) q := by
  obtain rfl | hr := eq_or_ne r 0
  · simp [Task.setReg_zero]
  rw [Task.setReg_some t k hr]
  obtain rfl | hq := eq_or_ne q 0
  · simp [Task.reg_zero, hr.symm]
  rw [Task.reg_some _ _ hq, Task.reg_some _ _ hq, Task.thread_modThread_same t _ hk]
  obtain rfl | h := eq_or_ne q r
  · simp [hr, Sparse.get_put_same]
  · simp [h, Sparse.get_put_other _ _ _ h]

theorem Task.length_threads_setReg (t : Task) (th : Option Nat) (r v : Nat) : (t.setReg th r v).threads.length = t.threads.length := by
  obtain rfl | hr := eq_or_ne r 0
  · rfl
  cases th with
  | none => rw [Task.setReg_none t hr]
  | some k => rw [Task.setReg_some t k hr]; exact length_updAt ..

/-! ### Registers 1 to n set -/

/-- Registers 1 to n of an agent set to the values of g. -/
def Task.setWords (t : Task) (th : Option Nat) (n : Nat) (g : Nat → Nat) : Task :=
  (List.range n).foldl (fun t k => t.setReg th (k + 1) (g k)) t

theorem Task.setWords_succ (t : Task) (th : Option Nat) (n : Nat) (g : Nat → Nat) :
    t.setWords th (n + 1) g = (t.setWords th n g).setReg th (n + 1) (g n) := by
  simp [Task.setWords, List.range_succ]

/-- What one register set keeps, registers 1 to n set keep. -/
theorem Task.setWords_keeps {α : Type} (p : Task → α) {th : Option Nat} (h : ∀ t r v, p (t.setReg th r v) = p t) (t : Task) (n : Nat) (g : Nat → Nat) :
    p (t.setWords th n g) = p t := foldl_keeps p _ (fun t k => h t (k + 1) (g k)) _ t

theorem Task.reg_setWords_none (t : Task) (n : Nat) (g : Nat → Nat) (r : Nat) :
    (t.setWords none n g).reg none r = if 1 ≤ r ∧ r ≤ n then g (r - 1) % 2 ^ 64 else t.reg none r := by
  induction n with
  | zero => rw [if_neg (by omega)]; rfl
  | succ n ih =>
    rw [Task.setWords_succ, Task.reg_setReg_none, ih]
    by_cases h : r = n + 1
    · subst h
      simp
    · rw [if_neg (fun e => h e.1)]
      exact if_congr (by omega) rfl rfl

theorem Task.reg_setWords_some (t : Task) {k : Nat} (hk : k < t.threads.length) (n : Nat) (g : Nat → Nat) (r : Nat) :
    (t.setWords (some k) n g).reg (some k) r = if 1 ≤ r ∧ r ≤ n then g (r - 1) % 2 ^ 32 else t.reg (some k) r := by
  induction n with
  | zero => rw [if_neg (by omega)]; rfl
  | succ n ih =>
    have hl : k < (t.setWords (some k) n g).threads.length := by
      rwa [Task.setWords_keeps (fun t => t.threads.length) (fun t _ _ => t.length_threads_setReg ..)]
    rw [Task.setWords_succ, Task.reg_setReg_some _ hl, ih]
    by_cases h : r = n + 1
    · subst h
      simp
    · rw [if_neg (fun e => h e.1)]
      exact if_congr (by omega) rfl rfl

/-- A task but for the registers of its uniform stream. -/
def Task.dropU (t : Task) : Task := { t with u := { t.u with s := [] } }

theorem Task.dropU_setReg (t : Task) (r v : Nat) : (t.setReg none r v).dropU = t.dropU := by
  obtain rfl | hr := eq_or_ne r 0
  · rfl
  · rw [Task.setReg_none t hr]
    rfl

theorem Task.dropU_setWords (t : Task) (n : Nat) (g : Nat → Nat) : (t.setWords none n g).dropU = t.dropU :=
  Task.setWords_keeps Task.dropU Task.dropU_setReg t n g

theorem Task.reg_some_of_dropU {t t' : Task} (h : t'.dropU = t.dropU) (k r : Nat) : t'.reg (some k) r = t.reg (some k) r := by
  have e : t'.dropU.threads = t.dropU.threads := by rw [h]
  change t'.threads = t.threads at e
  simp only [Task.reg, Task.thread, e]

/-- A thread but for its registers. -/
def Thread.dropX (x : Thread) : Thread := { x with x := [] }

theorem Task.u_setReg_some (t : Task) (k r v : Nat) : (t.setReg (some k) r v).u = t.u := by
  obtain rfl | hr := eq_or_ne r 0
  · rfl
  · rw [Task.setReg_some t k hr]
    rfl

theorem Task.thread_setReg_ne (t : Task) {k j : Nat} (h : j ≠ k) (r v : Nat) : (t.setReg (some k) r v).thread j = t.thread j := by
  obtain rfl | hr := eq_or_ne r 0
  · rfl
  · rw [Task.setReg_some t k hr, Task.thread_modThread_ne _ _ h]

theorem Task.dropX_setReg (t : Task) (k r v j : Nat) : ((t.setReg (some k) r v).thread j).dropX = (t.thread j).dropX := by
  obtain rfl | hr := eq_or_ne r 0
  · rfl
  rw [Task.setReg_some t k hr]
  obtain rfl | h := eq_or_ne j k
  · by_cases hk : j < t.threads.length
    · rw [Task.thread_modThread_same t _ hk]
      rfl
    · rw [Task.thread_of_not_lt hk, Task.thread_of_not_lt (by rwa [Task.modThread, length_updAt])]
  · rw [Task.thread_modThread_ne _ _ h]

end Machine
end Sys2Proof
end

section
/-! SUPPORT. O49: the fields of the uniform block. -/
namespace Sys2Proof
open Machine
namespace Machine

/-- The sections of a uniform block. -/
def Task.uniformSections (t : Task) : { l : List (Nat × List Byte) // t.uniformBytes = layout 0 2048 l } := ⟨_, rfl⟩

theorem Pedigree.image_lt (p : Pedigree) : p.image < 2 ^ (8 * 64) := by
  unfold Pedigree.image
  generalize List.foldr _ _ _ = v
  omega

theorem Task.uniform_laid (t : Task) : Laid t.uniformBytes 2048 t.uniformSections.1 := by
  have := t.length_trapHead none
  refine ⟨t.uniformSections.2, ?_⟩
  simp [Task.uniformSections, Fits]
  omega

theorem Task.uniform_reg (t : Task) {k : Nat} (hk : k < 64) : leField t.uniformBytes (8 * k) 8 = t.reg none k := by
  have h := t.uniform_laid.words (o := 0) (j := k) rfl (by simpa using hk)
  rw [Nat.zero_add, List.getElem_range] at h
  exact h.trans (Nat.mod_eq_of_lt (reg_lt t none k))

theorem Task.uniform_pc (t : Task) : leField t.uniformBytes 512 8 = t.u.ag.pc.toNat := t.uniform_laid.nat_of_lt rfl t.u.ag.pc.isLt
theorem Task.uniform_preds (t : Task) : leField t.uniformBytes 520 1 = t.u.ag.predByte := t.uniform_laid.nat_of_lt rfl t.u.ag.predByte_lt
theorem Task.uniform_waiting (t : Task) : leField t.uniformBytes 521 1 = b2n t.u.ag.waiting := t.uniform_laid.nat_of_lt rfl (by cases t.u.ag.waiting <;> decide)
theorem Task.uniform_mcmdOrd (t : Task) : leField t.uniformBytes 524 4 = t.u.mcmdOrd.toNat := t.uniform_laid.nat_of_lt rfl t.u.mcmdOrd.isLt
theorem Task.uniform_mconvOrd (t : Task) : leField t.uniformBytes 528 4 = t.u.mconvOrd.toNat := t.uniform_laid.nat_of_lt rfl t.u.mconvOrd.isLt
theorem Task.uniform_copyOrd (t : Task) : leField t.uniformBytes 532 4 = t.u.ag.copyOrd.toNat := t.uniform_laid.nat_of_lt rfl t.u.ag.copyOrd.isLt
theorem Task.uniform_batchOrd (t : Task) : leField t.uniformBytes 536 4 = t.u.ag.batchOrd.toNat := t.uniform_laid.nat_of_lt rfl t.u.ag.batchOrd.isLt
theorem Task.uniform_pedpos (t : Task) : leField t.uniformBytes 540 2 = t.u.pedpos.toNat := by
  have h := t.uniform_laid.field (o := 540) (p := 0) (n := 2) rfl (by simp)
  rw [leField_leBytes_at (by omega)] at h
  have := t.u.pedpos.isLt
  exact h.trans (by omega)
theorem Task.uniform_retired (t : Task) : leField t.uniformBytes 544 8 = t.u.retired.toNat := t.uniform_laid.nat_of_lt rfl t.u.retired.isLt
theorem Task.uniform_lo (t : Task) : leField t.uniformBytes 552 8 = t.u.lo % 2 ^ 64 := t.uniform_laid.nat rfl
theorem Task.uniform_hi (t : Task) : leField t.uniformBytes 560 8 = t.u.hi % 2 ^ 64 := t.uniform_laid.nat rfl
theorem Task.uniform_depth (t : Task) : leField t.uniformBytes 648 4 = t.u.ag.stack.length % 2 ^ 32 := t.uniform_laid.nat rfl
theorem Task.uniform_ped (t : Task) : leField t.uniformBytes 1472 64 = t.entry.ped.image := t.uniform_laid.nat_of_lt rfl t.entry.ped.image_lt
theorem Task.uniform_trapVec (t : Task) : leField t.uniformBytes 1536 8 = t.trapVec.toNat := t.uniform_laid.nat_of_lt rfl t.trapVec.isLt
theorem Task.uniform_fmtDef (t : Task) : leField t.uniformBytes 1544 4 = t.fmtDef.toNat := t.uniform_laid.nat_of_lt rfl t.fmtDef.isLt
theorem Task.uniform_modes (t : Task) : leField t.uniformBytes 1548 4 = t.modes.toNat := t.uniform_laid.nat_of_lt rfl t.modes.isLt
theorem Task.uniform_hstall (t : Task) : leField t.uniformBytes 1552 4 = t.hstall.toNat := t.uniform_laid.nat_of_lt rfl t.hstall.isLt
theorem Task.uniform_taskcfg (t : Task) : leField t.uniformBytes 1560 8 = t.taskcfg % 2 ^ 64 := t.uniform_laid.nat rfl

theorem Task.uniform_end (t : Task) : leField t.uniformBytes 1680 368 = 0 := by
  have := t.length_trapHead none
  refine t.uniform_laid.gap ?_
  simp [Task.uniformSections]
  omega

theorem Task.uniform_stack (t : Task) (h8 : t.u.ag.stack.length ≤ 8) :
    stackOfBytes t.uniformBytes 584 (leField t.uniformBytes 648 4) = t.u.ag.stack := by
  rw [t.uniform_depth, Nat.mod_eq_of_lt (by omega)]
  exact stackOfBytes_eq h8 fun k hk => t.uniform_laid.field rfl (by rw [length_stackBytes]; omega)

/-! ### The uniform block read back -/

theorem ofNat_of_eq_toNat {w n : Nat} {x : BitVec w} (h : n = x.toNat) : BitVec.ofNat w n = x := by simp [h]

theorem bitAt_b2n (b : Bool) : bitAt (b2n b) 0 = b := by cases b <;> rfl

/-- A task with the registers of a uniform block. -/
def Task.uniformRegs (u : Task) (d : List Byte) : Task := u.setWords none 63 (fun k => leField d (8 * (k + 1)) 8)

/-- The registers are set first; every other field of an agent comes from the block, or from what was there. -/
theorem Task.readUniform_from (u : Task) (d : List Byte) : (∀ th r, (u.readUniform d).reg th r = (u.uniformRegs d).reg th r)
    ∧ (u.readUniform d).u.ag.waiting = (leBool d 521 0 && !(u.uniformRegs d).u.ag.anew) := by
  unfold Task.readUniform Task.uniformRegs Task.setWords
  generalize (List.range 63).foldl _ u = w
  exact ⟨fun th r => by simp only [Task.reg, Task.thread], rfl⟩

theorem Task.ag_dropU (t : Task) : t.dropU.u.ag = t.u.ag := rfl

theorem Task.dropU_uniformRegs (u : Task) (d : List Byte) : (u.uniformRegs d).dropU = u.dropU := u.dropU_setWords ..

theorem Task.readUniform_reg_none (u t : Task) {r : Nat} (hr : r < 64) : (u.readUniform t.uniformBytes).reg none r = t.reg none r := by
  rw [(u.readUniform_from _).1, Task.uniformRegs, Task.reg_setWords_none]
  split
  · next h =>
    rw [Nat.sub_add_cancel h.1, t.uniform_reg hr]
    exact Nat.mod_eq_of_lt (reg_lt t none r)
  · next h =>
    obtain rfl : r = 0 := by omega
    rfl

theorem Task.readUniform_reg_some (u : Task) (d : List Byte) (k r : Nat) : (u.readUniform d).reg (some k) r = u.reg (some k) r :=
  ((u.readUniform_from d).1 _ r).trans (Task.reg_some_of_dropU (u.dropU_uniformRegs d) k r)

theorem Task.readUniform_waiting (u t : Task) (h : u.u.ag.anew = false) : (u.readUniform t.uniformBytes).u.ag.waiting = t.u.ag.waiting := by
  rw [(u.readUniform_from _).2, ← Task.ag_dropU, Task.dropU_uniformRegs, Task.ag_dropU, leBool, t.uniform_waiting, bitAt_b2n, h]
  simp

theorem Task.readUniform_pred (u t : Task) (p : Nat) : (u.readUniform t.uniformBytes).u.ag.pred p = t.u.ag.pred p :=
  Agent.pred_of_predByte (congrArg (fun n => BitVec.ofNat 8 (n % 128 / 2 * 2)) t.uniform_preds) p

end Machine
end Sys2Proof
end

section
/-! SUPPORT. O49: the fields of a thread record. -/
namespace Sys2Proof
open Machine
namespace Machine

/-- The registers of a thread record. -/
def Task.recordRegs (t : Task) (k : Nat) : List Byte :=
  (List.range t.entry.rcd.regWords).flatMap (fun j => leBytes 4 (if j + 1 ≤ t.allot.regs then t.reg (some k) (j + 1) else 0))

/-- The sections of a thread record. -/
def Task.threadSections (t : Task) (k : Nat) : { l : List (Nat × List Byte) // t.threadBytes k = layout 0 1024 l ++ t.recordRegs k } := ⟨_, rfl⟩

/-- A thread record before its registers. -/
def Task.recordHead (t : Task) (k : Nat) : List Byte := layout 0 1024 (t.threadSections k).1

theorem Task.record_laid (t : Task) (k : Nat) : Laid (t.recordHead k) 1024 (t.threadSections k).1 := by
  have := t.length_trapHead (some k)
  refine ⟨rfl, ?_⟩
  simp [Task.threadSections, Fits]
  omega

theorem Task.threadBytes_eq (t : Task) (k : Nat) : t.threadBytes k = t.recordHead k ++ t.recordRegs k := (t.threadSections k).2

theorem Task.length_threadBytes (t : Task) (k : Nat) : (t.threadBytes k).length = 1024 + 4 * t.entry.rcd.regWords := by
  rw [t.threadBytes_eq, List.length_append, (t.record_laid k).length, Task.recordRegs, length_words, List.length_range]

theorem Task.leField_record (t : Task) (k : Nat) {o n : Nat} (h : o + n ≤ 1024) : leField (t.threadBytes k) o n = leField (t.recordHead k) o n := by
  rw [t.threadBytes_eq]
  exact leField_append_left (by rwa [(t.record_laid k).length])

section
variable (t : Task) (k : Nat)

theorem Task.record_nat {o n v : Nat} (hm : (t.threadSections k).1.lookup o = some (leBytes n v)) (h : o + n ≤ 1024) :
    leField (t.threadBytes k) o n = v % 2 ^ (8 * n) := (t.leField_record k h).trans ((t.record_laid k).nat hm)

theorem Task.record_lt {o n v : Nat} (hm : (t.threadSections k).1.lookup o = some (leBytes n v)) (h : o + n ≤ 1024) (hv : v < 2 ^ (8 * n)) :
    leField (t.threadBytes k) o n = v := (t.record_nat k hm h).trans (Nat.mod_eq_of_lt hv)

theorem Task.record_reg {j : Nat} (h1 : 1 ≤ j) (hj : j ≤ t.entry.rcd.regWords) :
    leField (t.threadBytes k) (1024 + 4 * (j - 1)) 4 = if j ≤ t.allot.regs then t.reg (some k) j else 0 := by
  rw [t.threadBytes_eq, leField_append_right (by rw [(t.record_laid k).length]; omega), (t.record_laid k).length, Nat.add_sub_cancel_left, Task.recordRegs,
    leField_words 4 _ _ (by rw [List.length_range]; omega), List.getElem_range, Nat.sub_add_cancel h1]
  refine Nat.mod_eq_of_lt ?_
  split
  · exact reg_lt t (some k) j
  · exact Nat.two_pow_pos _

theorem Task.record_pc : leField (t.threadBytes k) 0 8 = (t.thread k).ag.pc.toNat := t.record_lt k rfl (by decide) (t.thread k).ag.pc.isLt
theorem Task.record_preds : leField (t.threadBytes k) 8 1 = (t.thread k).ag.predByte := t.record_lt k rfl (by decide) (t.thread k).ag.predByte_lt
theorem Task.record_convOrd : leField (t.threadBytes k) 12 4 = (t.thread k).convOrd.toNat := t.record_lt k rfl (by decide) (t.thread k).convOrd.isLt
theorem Task.record_depth : leField (t.threadBytes k) 80 4 = (t.thread k).ag.stack.length % 2 ^ 32 := t.record_nat k rfl (by decide)
theorem Task.record_cursor : leField (t.threadBytes k) 88 8 = (t.thread k).cursor % 2 ^ 64 := t.record_nat k rfl (by decide)
theorem Task.record_sliceEnd : leField (t.threadBytes k) 96 8 = (t.thread k).sliceEnd % 2 ^ 64 := t.record_nat k rfl (by decide)
theorem Task.record_scaddOrd : leField (t.threadBytes k) 320 4 = (t.thread k).scaddOrd.toNat := t.record_lt k rfl (by decide) (t.thread k).scaddOrd.isLt
theorem Task.record_marker : leField (t.threadBytes k) 896 1 = (t.thread k).marker % 256 := t.record_nat k rfl (by decide)

theorem Task.record_end : leField (t.threadBytes k) 984 40 = 0 := by
  have := t.length_trapHead (some k)
  rw [t.leField_record k (by decide)]
  refine (t.record_laid k).gap ?_
  simp [Task.threadSections]
  omega

theorem Task.record_stack (h8 : (t.thread k).ag.stack.length ≤ 8) :
    stackOfBytes (t.threadBytes k) 16 (leField (t.threadBytes k) 80 4) = (t.thread k).ag.stack := by
  rw [t.record_depth, Nat.mod_eq_of_lt (by omega)]
  exact stackOfBytes_eq h8 fun j hj => (t.leField_record k (by omega)).trans ((t.record_laid k).field rfl (by rw [length_stackBytes]; omega))

/-- Six flags in a byte. -/
theorem bitAt_flags (a b c d e g : Bool) :
    let v := (b2n a + 2 * b2n b + 4 * b2n c + 8 * b2n d + 16 * b2n e + 32 * b2n g) % 2 ^ (8 * 1)
    bitAt v 0 = a ∧ bitAt v 1 = b ∧ bitAt v 2 = c ∧ bitAt v 3 = d ∧ bitAt v 4 = e ∧ bitAt v 5 = g := by
  decide +revert

/-- The flags of a thread record: its status in three bits, then parked, trapped, waiting. -/
theorem Task.record_flags : let fl := leField (t.threadBytes k) 9 1
    bitAt fl 0 = ((t.thread k).status == .live) ∧ bitAt fl 1 = ((t.thread k).status == .helper) ∧ bitAt fl 2 = ((t.thread k).status == .free)
      ∧ bitAt fl 3 = (t.thread k).ag.parked.isSome ∧ bitAt fl 4 = (t.thread k).ag.pending.isSome ∧ bitAt fl 5 = (t.thread k).ag.waiting := by
  intro fl
  have h : fl = _ := t.record_nat k rfl (by decide)
  rw [h]
  exact bitAt_flags ..

end

/-! ### A thread record read back -/

/-- A task with the registers of a thread record. -/
def Task.threadRegs (u : Task) (k : Nat) (d : List Byte) : Task :=
  u.setWords (some k) (min u.allot.regs u.entry.rcd.regWords) (fun j => leField d (1024 + 4 * j) 4)

section
variable (u : Task) (k : Nat) (d : List Byte)

theorem Task.length_threadRegs : (u.threadRegs k d).threads.length = u.threads.length :=
  Task.setWords_keeps (fun t => t.threads.length) (fun t _ _ => t.length_threads_setReg ..) u _ _

theorem Task.threadRegs_u : (u.threadRegs k d).u = u.u := Task.setWords_keeps Task.u (fun t _ _ => t.u_setReg_some ..) u _ _

theorem Task.thread_threadRegs_ne {j : Nat} (h : j ≠ k) : (u.threadRegs k d).thread j = u.thread j :=
  Task.setWords_keeps (fun t => t.thread j) (fun t _ _ => t.thread_setReg_ne h ..) u _ _

theorem Task.dropX_threadRegs (j : Nat) : ((u.threadRegs k d).thread j).dropX = (u.thread j).dropX :=
  Task.setWords_keeps (fun t => (t.thread j).dropX) (fun t _ _ => t.dropX_setReg ..) u _ _

theorem Thread.ag_dropX (x : Thread) : x.dropX.ag = x.ag := rfl

theorem Task.ag_threadRegs (j : Nat) : ((u.threadRegs k d).thread j).ag = (u.thread j).ag := by
  rw [← Thread.ag_dropX, Task.dropX_threadRegs, Thread.ag_dropX]

/-- What the record gives of a thread. -/
def Thread.readRecord (th : Thread) (d : List Byte) : Thread :=
  { th with
    status := if leBool d 9 0 then .live else if leBool d 9 1 then .helper else .free
    ag := th.ag.readFrom d threadAt (leField d 0 8) (leField d 8 1) (leField d 10 2) (leBool d 9 5) (leBool d 9 4)
    convOrd := BitVec.ofNat 32 (leField d 12 4)
    cursor := leField d 88 8
    sliceEnd := leField d 96 8
    scaddOrd := BitVec.ofNat 32 (leField d 320 4)
    marker := leField d 896 1 }

theorem Task.thread_readThread (hk : k < u.threads.length) : (u.readThread k d).thread k = ((u.threadRegs k d).thread k).readRecord d :=
  Task.thread_modThread_same _ _ (hk.trans_eq (u.length_threadRegs k d).symm)

theorem Task.thread_readThread_ne {j : Nat} (h : j ≠ k) : (u.readThread k d).thread j = u.thread j :=
  (Task.thread_modThread_ne _ _ h).trans (u.thread_threadRegs_ne k d h)

theorem Task.readThread_reg_none (r : Nat) : (u.readThread k d).reg none r = u.reg none r := by
  have e : (u.readThread k d).u = u.u := u.threadRegs_u k d
  simp only [Task.reg, e]

theorem Task.readThread_reg_some (hk : k < u.threads.length) (r : Nat) : (u.readThread k d).reg (some k) r = (u.threadRegs k d).reg (some k) r := by
  simp only [Task.reg, u.thread_readThread k d hk, Thread.readRecord]

end

section
variable {t u : Task} {k : Nat} (hk : k < u.threads.length)
include hk

theorem Task.readThread_reg (ha : u.allot = t.allot) (hr : u.entry.rcd = t.entry.rcd) {r : Nat} (h1 : r ≤ t.allot.regs) (h2 : r ≤ t.entry.rcd.regWords) :
    (u.readThread k (t.threadBytes k)).reg (some k) r = t.reg (some k) r := by
  rw [u.readThread_reg_some k _ hk, Task.threadRegs, Task.reg_setWords_some u hk, ha, hr]
  by_cases h0 : r = 0
  · subst h0
    rfl
  · rw [if_pos ⟨by omega, by omega⟩, t.record_reg k (by omega) h2, if_pos h1]
    exact Nat.mod_eq_of_lt (reg_lt t (some k) r)

theorem Task.readThread_pred (p : Nat) : ((u.readThread k (t.threadBytes k)).thread k).ag.pred p = (t.thread k).ag.pred p := by
  rw [u.thread_readThread k _ hk]
  exact Agent.pred_of_predByte (congrArg (fun n => BitVec.ofNat 8 (n % 128 / 2 * 2)) (t.record_preds k)) p

theorem Task.readThread_waiting (h : (u.thread k).ag.anew = false) :
    ((u.readThread k (t.threadBytes k)).thread k).ag.waiting = (t.thread k).ag.waiting := by
  have hw : leBool (t.threadBytes k) 9 5 = (t.thread k).ag.waiting := (t.record_flags k).2.2.2.2.2
  rw [u.thread_readThread k _ hk]
  simp only [Thread.readRecord, Agent.readFrom, u.ag_threadRegs, h, hw, Bool.not_false, Bool.and_true]

theorem Task.readThread_status : ((u.readThread k (t.threadBytes k)).thread k).status = (t.thread k).status := by
  obtain ⟨h0, h1, -⟩ := t.record_flags k
  rw [u.thread_readThread k _ hk]
  simp only [Thread.readRecord, leBool, h0, h1]
  cases (t.thread k).status <;> rfl

end

end Machine
end Sys2Proof
end

section
/-! SUPPORT. O49: the slot header, the frame of a trap, and an expand image. -/
namespace Sys2Proof
open Machine
namespace Machine

/-! ### The slot header -/

/-- The sections of a slot header. -/
def State.headerSections (s : State) (t : Task) (form : Nat) : { l : List (Nat × List Byte) // s.slotHeader t form = layout 0 128 l } := ⟨_, rfl⟩

theorem State.header_laid (s : State) (t : Task) (form : Nat) : Laid (s.slotHeader t form) 128 (s.headerSections t form).1 := by
  refine ⟨(s.headerSections t form).2, ?_⟩
  simp [State.headerSections, Fits]

section
variable (s : State) (t : Task) (form : Nat)

theorem State.header_code {r : Tree} (hr : s.tree? t.entry.tree = some r) : leField (s.slotHeader t form) 16 8 = r.code % 2 ^ 64 := by
  have h := (s.header_laid t form).nat (o := 16) (n := 8) rfl
  simpa only [hr] using h

theorem State.header_flags : leField (s.slotHeader t form) 5 1 = b2n t.handler.isSome + 2 * b2n t.allot.full :=
  (s.header_laid t form).nat_of_lt rfl (by cases t.handler.isSome <;> cases t.allot.full <;> decide)

theorem State.header_offset {k : Nat} (hk : k < 10) :
    leField (s.slotHeader t form) (32 + 4 * k) 4 = slotOffset (s.slotSizesOf t) (k + 2) % 2 ^ 32 := by
  have h := (s.header_laid t form).words (o := 32) (j := k) rfl (by simpa using hk)
  rwa [List.getElem_range] at h

theorem State.header_gap {q n : Nat} (h : q = 6 ∧ n = 2 ∨ q = 73 ∧ n = 7 ∨ q = 88 ∧ n = 40) : leField (s.slotHeader t form) q n = 0 := by
  refine (s.header_laid t form).gap ?_
  simp [State.headerSections]
  omega

end

/-! ### The frame -/

/-- The sections of a frame. -/
def Trap.frameSections (p : Trap) (lanes : Nat) (more : Bool) (upc s1 : Nat) (blk : Block) : List (Nat × List Byte) :=
  [(0, leBytes 4 p.cause),
   (4, leBytes 4 (b2n p.uniform + 2 * b2n p.addr.isSome + 4 * b2n (p.expand % 2 == 1) + 8 * b2n p.deferred + 16 * b2n more + 256 * min p.later 255)),
   (8, leBytes 8 p.pc), (16, leBytes 12 p.insn.toNat), (28, leBytes 4 p.tid), (32, leBytes 8 (p.addr.getD 0)), (40, leBytes 4 lanes), (44, leBytes 4 0),
   (48, leBytes 8 p.digest), (56, leBytes 4 p.expand), (60, leBytes 4 p.inner), (64, leBytes 8 p.ident), (72, leBytes 8 p.stamp), (80, leBytes 8 upc),
   (88, leBytes 8 s1), (96, leBytes 4 (blk.left + 16 * (blk.pat % 256) + 4096 * b2n blk.val))]

theorem Trap.frame_laid (p : Trap) (lanes : Nat) (more : Bool) (upc s1 : Nat) (blk : Block) :
    Laid (p.frame lanes more upc s1 blk) 128 (p.frameSections lanes more upc s1 blk) := by
  constructor
  · simp only [Trap.frame, Trap.frameSections, layout, length_leBytes, Nat.reduceSub, Nat.reduceAdd, List.replicate_zero, List.nil_append, List.append_assoc]
  · simp [Trap.frameSections, Fits]

/-! ### An expand image -/

theorem Expansion.image_laid (e : Expansion) : Laid e.image 3200
    [(0, leBytes 8 e.header), (8, leBytes 4 e.round), (16, leBytes 16 e.dealer), (32, leBytes 16 e.arrived), (48, leBytes 16 e.done),
     (64, leBytes 16 e.hasVal), (80, leBytes 16 e.cur), (96, (List.range 128).flatMap (fun o => leBytes 4 (Sparse.get 0 e.start o))),
     (608, (List.range 128).flatMap (fun o => leBytes 4 (Sparse.get 0 e.pref o))), (1120, (List.range 128).flatMap (fun o => leBytes 8 (Sparse.get 0 e.acc o))),
     (2144, (List.range 128).flatMap (fun o => leBytes 8 (Sparse.get 0 e.val o)))] := by
  have hz : leBytes 4 0 = List.replicate 4 0 := rfl
  have h4 (m : Sparse Nat) : ((List.range 128).flatMap (fun o => leBytes 4 (Sparse.get 0 m o))).length = 512 := by
    rw [length_words, List.length_range]
  have h8 (m : Sparse Nat) : ((List.range 128).flatMap (fun o => leBytes 8 (Sparse.get 0 m o))).length = 1024 := by
    rw [length_words, List.length_range]
  constructor
  · simp only [Expansion.image, layout, hz, h4, h8, length_leBytes, Nat.reduceSub, Nat.reduceAdd, List.replicate_zero, List.nil_append, List.append_assoc]
  · simp only [Fits, h4, h8, length_leBytes]
    omega

/-- The header of an expansion within its ranges, and its fields. -/
theorem Expansion.header_fields {e : Expansion} (hbase : e.base < 16) (hlogn : e.logn < 4) (hop : e.op < 16) (hwidth : e.width < 256)
    (htotal : e.total < 2 ^ 32) : e.header < 2 ^ 64 ∧ field e.header 3 0 = e.base ∧ field e.header 5 4 = e.logn ∧ field e.header 9 6 = e.op
      ∧ bitAt e.header 10 = e.d64 ∧ field e.header 63 32 = e.total := by
  have hb : b2n e.d64 ≤ 1 := by cases e.d64 <;> decide
  have hd : bitAt e.header 10 = bitAt (b2n e.d64) 0 := by
    simp only [bitAt, Expansion.header]
    congr 1
    omega
  refine ⟨?_, ?_, ?_, ?_, hd.trans (by cases e.d64 <;> rfl), ?_⟩
  all_goals
    simp only [field, Expansion.header, Nat.reduceAdd, Nat.reduceSub, Nat.reducePow]
    omega

/-- Keys 0 to n - 1 entered one after another. -/
theorem get_foldl_put (g : Nat → Nat) (n k : Nat) :
    Sparse.get 0 ((List.range n).foldl (fun m j => Sparse.put 0 m j (g j)) []) k = if k < n then g k else 0 := by
  induction n with
  | zero => rfl
  | succ n ih =>
    rw [List.range_succ, List.foldl_append, List.foldl_cons, List.foldl_nil]
    obtain rfl | h := eq_or_ne k n
    · rw [Sparse.get_put_same, if_pos (by omega)]
    · rw [Sparse.get_put_other _ _ _ h, ih]
      exact if_congr (by omega) rfl rfl

/-- Lane values read back from their place. -/
theorem get_lanes {d : List Byte} {l : List (Nat × List Byte)} (L : Laid d 3200 l) {o w : Nat} {m : Sparse Nat}
    (hm : l.lookup o = some ((List.range 128).flatMap (fun j => leBytes w (Sparse.get 0 m j)))) {k : Nat} (hk : k < 128) :
    Sparse.get 0 ((List.range 128).foldl (fun m j => Sparse.put 0 m j (leField d (o + w * j) w)) []) k = Sparse.get 0 m k % 2 ^ (8 * w) := by
  rw [get_foldl_put, if_pos hk, L.words hm (by rwa [List.length_range]), List.getElem_range]

end Machine
end Sys2Proof
end

section
/-! SUPPORT. O49: delivery of a trap. -/
namespace Sys2Proof
open Machine
namespace Machine

/-! ### The check of a target leaves the tasks and memory -/

section
variable {α : Type} {p : State → α} (hp : ∀ s cl f, p (s.modCluster cl f) = p s)
include hp

theorem State.translate_keeps (s : State) (ctx cl va : Nat) (need : Need) : p (s.translate ctx cl va need).2 = p s := by
  obtain e | ⟨f, -, e⟩ := s.translate_frame ctx cl va need <;> rw [e]
  exact hp ..

theorem State.readLine_keeps (s : State) (t : Task) (va : Nat) : p (s.readLine t va).2 = p s := by
  have h := State.translate_keeps hp s t.entry.ctx t.cluster (va / 64 * 64) { x := true }
  unfold State.readLine
  dsimp only
  split
  · next e => rw [e] at h; exact h
  · next e => rw [e] at h; exact h
  · next e =>
    rw [e] at h
    split
    · exact h
    · split
      · exact h
      · split <;> exact h

theorem State.checkTarget_keeps (s : State) (t : Task) (target : Nat) : p (s.checkTarget t target).2 = p s := by
  have h := State.readLine_keeps hp s t target
  unfold State.checkTarget
  split
  · rfl
  · split <;> (next e => rw [e] at h; exact h)

end

/-! ### Entry of a handler -/

/-- A task whose uniform stream enters the handler for its first pending trap: the last step of `State.deliver`. -/
def Task.enterHandler (t : Task) (th : Option Nat) (frame : Handler) (matrix : Bool) : Task :=
  let t := t.setReg none 1 t.savePtr
  let t := { t with handler := some frame, fault := if matrix then none else t.fault }
  let t := t.modAgent none (fun a => { a with
    pc := t.trapVec
    block := {}
    waiting := false
    stall := none
    fence := none
    early := []
    windows := a.windows.map (fun wd => { wd with suspended := true }) })
  match th with
  | none => t.modAgent none (fun a => { a with pending := none })
  | some _ => t

/-- What a task keeps of itself for its handler. -/
def Task.handlerFor (t : Task) (p : Trap) : Handler :=
  { trap := p, upc := t.u.ag.pc, s1 := BitVec.ofNat 64 (t.reg none 1), block := t.u.ag.block,
    waiting := t.u.ag.waiting && t.u.ag.stall.isNone && t.u.ag.fence.isNone }

section
variable (t : Task) (th : Option Nat) (frame : Handler) (matrix : Bool)

theorem Task.enterHandler_id : (t.enterHandler th frame matrix).entry.id = t.entry.id := by cases th <;> rfl

theorem Task.enterHandler_reg (who : Option Nat) (r : Nat) : (t.enterHandler th frame matrix).reg who r = (t.setReg none 1 t.savePtr).reg who r := by
  cases th <;> cases who <;> rfl

end

section
variable {id : Nat} {t : Task} {s s1 : State} {th : Option Nat} {p : Trap} (found : s.task? id = some t) (first : t.firstPending = some (th, p))
  (wrote : (s.writeBackAll t.cluster).cpWrite t.entry.ctx t.savePtr (t.frameOf th p) true = .ok s1)
include found first wrote

theorem deliver_without_vector (h : t.trapVec = 0) : s.deliver id = (s1.dropClean t.cluster).abortTree t.entry.tree stUNHANDLED := by
  simp only [State.deliver, found, first, wrote, State.acquireAt, h, if_true]
  rfl

theorem deliver_bad {s2 : State} (h : t.trapVec ≠ 0) (hc : (s1.dropClean t.cluster).checkTarget t t.trapVec.toNat = (.bad, s2)) :
    s.deliver id = s2.abortTree t.entry.tree stUNHANDLED := by
  have hc' : (s1.acquireAt t.cluster 3).checkTarget t t.trapVec.toNat = (.bad, s2) := hc
  simp only [State.deliver, found, first, wrote, h, if_false, hc']

theorem deliver_pass {s2 : State} (h : t.trapVec ≠ 0) (hc : (s1.dropClean t.cluster).checkTarget t t.trapVec.toNat = (.pass, s2)) :
    s.deliver id = (s2.modCluster t.cluster (fun c => c.leaveSwitch id)).modTask id (fun t' => t'.enterHandler th (t.handlerFor p) p.matrix) := by
  have hc' : (s1.acquireAt t.cluster 3).checkTarget t t.trapVec.toNat = (.pass, s2) := hc
  simp only [State.deliver, found, first, wrote, h, if_false, hc']
  rfl

omit first in
theorem task?_deliver_pass {s2 : State} (hc : (s1.dropClean t.cluster).checkTarget t t.trapVec.toNat = (.pass, s2)) :
    ((s2.modCluster t.cluster (fun c => c.leaveSwitch id)).modTask id (fun t' => t'.enterHandler th (t.handlerFor p) p.matrix)).task? id
      = some (t.enterHandler th (t.handlerFor p) p.matrix) := by
  have h2 : s2.tasks = s.tasks := by
    have e := State.checkTarget_keeps (p := State.tasks) (fun _ _ _ => rfl) (s1.dropClean t.cluster) t t.trapVec.toNat
    rw [hc] at e
    rw [e, State.dropClean_tasks, State.cpWrite_tasks wrote, State.writeBackAll_tasks]
  exact State.found_modTask ((State.task?_of_tasks (s := s) h2 id).trans found) fun u => u.enterHandler_id ..

end

section
variable (t : Task) (th : Option Nat) (frame : Handler) (matrix : Bool)

theorem Task.enterHandler_s1 : (t.enterHandler th frame matrix).reg none 1 = t.savePtr % 2 ^ 64 := by
  rw [t.enterHandler_reg, t.reg_setReg_none]
  rfl

theorem Task.enterHandler_reg_ne {r : Nat} (h : r ≠ 1) : (t.enterHandler th frame matrix).reg none r = t.reg none r := by
  rw [t.enterHandler_reg, t.reg_setReg_none, if_neg fun e => h e.1]

theorem Task.enterHandler_windows : ∀ wd ∈ (t.enterHandler th frame matrix).u.ag.windows, wd.suspended = true := by
  have e : (t.enterHandler th frame matrix).u.ag.windows = t.u.ag.windows.map (fun wd => { wd with suspended := true }) := by cases th <;> rfl
  rw [e]
  intro wd hwd
  obtain ⟨v, -, rfl⟩ := List.mem_map.mp hwd
  rfl

end

end Machine

/-- Settles O49: delivery through `deliver_pass` and its like, and each field of an image from the section of the layout that holds it. -/
theorem trapDelivery : Obligations.TrapDelivery := by
  unfold Obligations.TrapDelivery
  refine ⟨⟨fun id t s th p s1 found hres hh hd hw hp he first => ?deliver, fun p lanes more upc s1 blk => ?frame⟩, fun s t form r hr => ?header,
    fun s t => ?writes, fun t => ?uniform, fun t k => ?record, fun t u => ?uniformBack, fun t u k hk ha hr => ?recordBack,
    fun e hbase hlogn hop hwidth htotal hround hdealer harrived hdone hhasVal hcur => ?expansion⟩
  case deliver =>
    intro lanes bytes wrote
    have go : exec (.trapDelivery id) s = .next (s.deliver id) := by
      change execTrapDelivery id s = _
      unfold execTrapDelivery
      simp only [found]
      rw [if_pos]
      simpa [hres, hh, hd, hw, hp] using he
    refine ⟨fun s2 hv hc => ?_, fun hv => ?_, fun s2 hv hc => ?_⟩
    · refine ⟨_, _, go.trans (congrArg _ (deliver_pass found first wrote hv hc)), ?_, task?_deliver_pass found wrote hc, ?_⟩
      · have e := State.checkTarget_keeps (p := State.mem) (fun _ _ _ => rfl) (s1.dropClean t.cluster) t t.trapVec.toNat
        rw [hc] at e
        exact e
      · refine ⟨by cases th <;> rfl, by cases th <;> rfl, t.enterHandler_s1 .., fun r h => t.enterHandler_reg_ne _ _ _ h, fun k r => by cases th <;> rfl,
          by cases th <;> rfl, by cases th <;> rfl, t.enterHandler_windows _ _ _, by rintro rfl; rfl, fun k => by cases th <;> rfl⟩
    · exact go.trans (congrArg _ (deliver_without_vector found first wrote hv))
    · exact go.trans (congrArg _ (deliver_bad found first wrote hv hc))
  case frame =>
    have L := p.frame_laid lanes more upc s1 blk
    exact ⟨L.length, L.nat rfl, L.nat rfl, L.nat_of_lt rfl p.insn.isLt, L.nat rfl, L.nat rfl, L.nat rfl, L.nat rfl, L.nat rfl, L.nat rfl, L.nat rfl, L.nat rfl⟩
  case header =>
    have L := s.header_laid t form
    exact ⟨L.length, L.nat_of_lt rfl (by decide), L.nat rfl, s.header_flags t form, s.header_gap t form (by decide), L.nat rfl, L.nat rfl,
      s.header_code t form hr, L.nat rfl, fun k hk => s.header_offset t form hk, L.nat rfl, s.header_gap t form (by decide), L.nat rfl, s.header_gap t form (by decide)⟩
  case writes =>
    simp only [State.imageWrites, recordBytes]
    refine ⟨by simp, by simp, by simp, fun k hk => ?_, by simp⟩
    simp only [List.mem_append, List.mem_map, List.mem_range]
    exact .inl (.inl (.inl (.inl (.inr ⟨k, hk, rfl⟩))))
  case uniform =>
    exact ⟨t.uniform_laid.length, fun k hk => t.uniform_reg hk, t.uniform_pc, fun k hk => by rw [t.uniform_preds, t.u.ag.bitAt_predByte hk], t.uniform_waiting,
      t.uniform_mcmdOrd, t.uniform_mconvOrd, t.uniform_copyOrd, t.uniform_batchOrd, t.uniform_pedpos, t.uniform_retired, t.uniform_lo, t.uniform_hi,
      t.uniform_depth, t.uniform_ped, t.uniform_trapVec, t.uniform_fmtDef, t.uniform_modes, t.uniform_hstall, t.uniform_taskcfg, t.uniform_end⟩
  case record =>
    obtain ⟨hlive, hhelper, hfree, hparked, hpending, hwaiting⟩ := t.record_flags k
    exact ⟨t.length_threadBytes k, fun j h1 hj => t.record_reg k h1 hj, t.record_pc k,
      fun p hp => by rw [t.record_preds, (t.thread k).ag.bitAt_predByte hp], hlive, hhelper, hfree, hparked, hpending, hwaiting, t.record_convOrd k,
      t.record_depth k, t.record_cursor k, t.record_sliceEnd k, t.record_scaddOrd k, t.record_marker k, t.record_end k⟩
  case uniformBack =>
    refine ⟨fun r hr => u.readUniform_reg_none t hr, ?_, u.readUniform_pred t, u.readUniform_waiting t, ?_, ?_, ?_, ?_, ?_, ?_, ?_, ?_, ?_, ?_, ?_, ?_,
      ?_, fun k r => u.readUniform_reg_some _ k r⟩
    all_goals
      unfold Task.readUniform
      generalize (List.range 63).foldl _ u = w
      dsimp only [Agent.readFrom, uniformAt]
    exacts [ofNat_of_eq_toNat t.uniform_pc, ofNat_of_eq_toNat t.uniform_trapVec, ofNat_of_eq_toNat t.uniform_fmtDef, ofNat_of_eq_toNat t.uniform_modes,
      ofNat_of_eq_toNat t.uniform_hstall, ofNat_of_eq_toNat t.uniform_mcmdOrd, ofNat_of_eq_toNat t.uniform_mconvOrd, ofNat_of_eq_toNat t.uniform_pedpos,
      ofNat_of_eq_toNat t.uniform_retired, ofNat_of_eq_toNat t.uniform_copyOrd, ofNat_of_eq_toNat t.uniform_batchOrd, t.uniform_lo, t.uniform_hi,
      t.uniform_stack]
  case recordBack =>
    have back := u.thread_readThread k (t.threadBytes k) hk
    refine ⟨fun r h1 h2 => Task.readThread_reg hk ha hr h1 h2, ?_, Task.readThread_pred hk, Task.readThread_waiting hk, Task.readThread_status hk, ?_⟩
    all_goals
      rw [back]
      dsimp only [Thread.readRecord, Agent.readFrom, threadAt]
    · exact ofNat_of_eq_toNat (t.record_pc k)
    · exact ⟨ofNat_of_eq_toNat (t.record_convOrd k), ofNat_of_eq_toNat (t.record_scaddOrd k), t.record_cursor k, t.record_sliceEnd k, t.record_stack k,
        fun r => u.readThread_reg_none k _ r, fun j hj => u.thread_readThread_ne k _ hj⟩
  case expansion =>
    have L := e.image_laid
    obtain ⟨hlt, fbase, flogn, fop, fd64, ftotal⟩ := Expansion.header_fields hbase hlogn hop hwidth htotal
    have h : leField e.image 0 8 = e.header := L.nat_of_lt rfl hlt
    simp only [expansionOf, h]
    exact ⟨L.length, fbase, flogn, fop, fd64, ftotal, L.nat_of_lt rfl hround, L.nat_of_lt rfl hdealer, L.nat_of_lt rfl harrived, L.nat_of_lt rfl hdone,
      L.nat_of_lt rfl hhasVal, L.nat_of_lt rfl hcur, fun k hk => ⟨get_lanes L rfl hk, get_lanes L rfl hk, get_lanes L rfl hk, get_lanes L rfl hk⟩⟩

end Sys2Proof
end

section
/-! SUPPORT. O27: what accesses leave, bytes in rows, and the end of a matrix command. -/
namespace Sys2Proof
open Machine
namespace Machine

/-! ### Translations and accesses leave the tasks -/

section
variable {α : Type} {p : State → α} (hp : ∀ s cl f, p (s.modCluster cl f) = p s)
include hp

theorem State.mapRange_keeps (s : State) (a : Acc) (need : Need) (l : List (Nat × Nat)) : p (s.mapRange a need l).2 = p s := by
  induction l generalizing s with
  | nil => rfl
  | cons x l ih =>
    obtain ⟨va, n⟩ := x
    have h := State.translate_keeps hp s a.ctx a.cl va need
    unfold State.mapRange
    split
    · next e => rw [e] at h; exact h
    · next e => rw [e] at h; exact h
    · next s1 e =>
      rw [e] at h
      split
      · exact h
      · have h1 := (ih s1).trans h
        split
        · next e1 => rw [e1] at h1; exact h1
        · exact h1

theorem State.mapAll_keeps (s : State) (a : Acc) (need : Need) (rs : List (Int × Nat)) : p (s.mapAll a need rs).2 = p s := by
  unfold State.mapAll
  split
  · rfl
  · exact State.mapRange_keeps hp ..

end

section
variable {s s1 : State} {a : Acc}

theorem State.mapAll_tasks {need : Need} {rs : List (Int × Nat)} {r : Except AccErr (List Seg)} (h : s.mapAll a need rs = (r, s1)) :
    s1.tasks = s.tasks := by
  have e := State.mapAll_keeps (p := State.tasks) (fun _ _ _ => rfl) s a need rs
  rwa [h] at e

theorem State.mapAll_mem {need : Need} {rs : List (Int × Nat)} {r : Except AccErr (List Seg)} (h : s.mapAll a need rs = (r, s1)) :
    s1.mem = s.mem := by
  have e := State.mapAll_keeps (p := State.mem) (fun _ _ _ => rfl) s a need rs
  rwa [h] at e

/-- One segment read after those before it. -/
def readSeg (a : Acc) (r : Except AccErr (List Byte) × State) (g : Seg) : Except AccErr (List Byte) × State :=
  match r with
  | (.error e, s) => (.error e, s)
  | (.ok bs, s) => (.ok (bs ++ (s.loadBytes a.cl g.pa (s.usesL1 a.cl a.scope && !s.filtering a g) g.n).1),
      (s.loadBytes a.cl g.pa (s.usesL1 a.cl a.scope && !s.filtering a g) g.n).2)

theorem readSeg_tasks (a : Acc) (r : Except AccErr (List Byte) × State) (g : Seg) : (readSeg a r g).2.tasks = r.2.tasks := by
  unfold readSeg
  split
  · rfl
  · exact State.loadBytes_tasks ..

theorem State.readNow_tasks (s : State) (a : Acc) (segs : List Seg) : (s.readNow a segs).2.tasks = s.tasks := by
  unfold State.readNow
  split
  · rfl
  · exact foldl_keeps (fun r : Except AccErr (List Byte) × State => r.2.tasks) (readSeg a) (readSeg_tasks a) segs _

theorem State.readSegs_tasks {segs : List Seg} {r : Except AccErr (List Byte)} (h : s.readSegs a segs = (r, s1)) : s1.tasks = s.tasks := by
  unfold State.readSegs at h
  split at h
  · have e := (s.filterOff a.tree).readNow_tasks a segs
    rw [h, State.filterOff_tasks] at e
    exact e
  · cases h
    rfl
  · have e := s.readNow_tasks a segs
    rwa [h] at e

theorem State.writeSegs_tasks {segs : List Seg} {bs : List Byte} (h : s.writeSegs a segs bs = .ok s1) : s1.tasks = s.tasks := by
  unfold State.writeSegs at h
  split at h <;> cases h
  · rw [State.writeNow_tasks, State.filterOff_tasks]
  · exact State.writeNow_tasks ..

theorem State.homeSegs_tasks (s : State) (segs : List Seg) : (s.homeSegs segs).tasks = s.tasks :=
  foldl_keeps State.tasks _ (fun _ _ => foldl_keeps State.tasks _ (fun _ _ => State.writeBackEverywhere_tasks ..) _ _) _ _

theorem State.homeRead_tasks {rs : List (Int × Nat)} {r : Except MatEnd (List Byte)} (h : s.homeRead a rs = (r, s1)) : s1.tasks = s.tasks := by
  unfold State.homeRead at h
  split at h
  · next hm =>
    cases h
    exact State.mapAll_tasks hm
  · next hm =>
    split at h <;> next hr =>
      cases h
      rw [State.readSegs_tasks hr, State.homeSegs_tasks, State.mapAll_tasks hm]

end

end Machine
end Sys2Proof
end

section
/-! SUPPORT. O27: bytes in rows. -/
namespace Sys2Proof
open Machine
namespace Machine

/-! ### Lists cut in pieces -/

@[simp] theorem length_chunks {α : Type} (k n : Nat) (l : List α) : (chunks k n l).length = n := by
  induction n generalizing l with
  | zero => rfl
  | succ n ih => simp [chunks, ih]

theorem getElem_chunks {α : Type} (k : Nat) {n r : Nat} (l : List α) (h : r < (chunks k n l).length) : (chunks k n l)[r] = (l.drop (k * r)).take k := by
  induction n generalizing l r with
  | zero => cases h
  | succ n ih =>
    cases r with
    | zero => simp [chunks]
    | succ r =>
      simp only [chunks, List.getElem_cons_succ]
      rw [ih, List.drop_drop, Nat.mul_succ, Nat.add_comm]

/-- Pieces of one length, joined and cut again. -/
theorem chunks_flatMap {α β : Type} {g : α → List β} {w : Nat} {l : List α} (hg : ∀ x ∈ l, (g x).length = w) (tail : List β) :
    chunks w l.length (l.flatMap g ++ tail) = l.map g := by
  refine List.ext_getElem (by simp) fun r hr hr' => ?_
  rw [getElem_chunks, take_drop_flatMap hg (by simpa using hr), List.getElem_map]

/-- Byte k of piece r stands k bytes after the start of the piece. -/
theorem getD_chunk {l : List Byte} {w r k : Nat} (hk : k < w) : ((l.drop (w * r)).take w).getD k 0 = l.getD (r * w + k) 0 := by
  rw [Nat.mul_comm r w]
  simp [List.getD_eq_getElem?_getD, hk]

/-! ### Values at rising keys -/

theorem Sparse.read_eq_map {α : Type} (d : α) (m : Sparse α) (a n : Nat) : Sparse.read d m a n = (List.range n).map (fun k => Sparse.get d m (a + k)) := by
  induction n generalizing a with
  | zero => rfl
  | succ n ih =>
    rw [Sparse.read, ih, List.range_succ_eq_map, List.map_cons, List.map_map]
    refine congrArg _ (List.map_congr_left fun k _ => ?_)
    rw [Function.comp_apply, Nat.add_assoc, Nat.add_comm 1 k]

theorem Sparse.get_nil {α : Type} (d : α) (a : Nat) : Sparse.get d [] a = d := rfl

theorem Sparse.read_nil {α : Type} (d : α) (a n : Nat) : Sparse.read d [] a n = List.replicate n d := by
  rw [Sparse.read_eq_map]
  simp [Sparse.get_nil]

/-- Rows written every `st` keys: a row holds what was written, the keys between rows what they held. -/
theorem get_rows_written {α : Type} [DecidableEq α] (d : α) {st : Nat} {rows : List (List α)} (h : ∀ x ∈ rows, x.length ≤ st) (n : Nat) (m : Sparse α)
    {r k : Nat} (hk : k < st) :
    Sparse.get d ((rows.zipIdx n).foldl (fun m p => Sparse.write d m (p.2 * st) p.1) m) (r * st + k) =
      if n ≤ r ∧ k < (rows.getD (r - n) []).length then (rows.getD (r - n) []).getD k d else Sparse.get d m (r * st + k) := by
  induction rows generalizing n m with
  | nil => simp
  | cons x rows ih =>
    obtain ⟨hx, hrows⟩ := List.forall_mem_cons.mp h
    rw [List.zipIdx_cons, List.foldl_cons, ih hrows]
    obtain hr | rfl | hr := lt_trichotomy r n
    · rw [if_neg (by omega), if_neg (by omega)]
      refine Sparse.get_write_outside d m _ _ x (.inl ?_)
      have := Nat.mul_le_mul_right st (Nat.succ_le_of_lt hr)
      simp only [Nat.succ_mul] at this ⊢
      omega
    · rw [if_neg (by omega), Nat.sub_self, List.getD_cons_zero]
      by_cases hkx : k < x.length
      · rw [if_pos ⟨le_rfl, hkx⟩, Sparse.get_write_inside d m _ _ x hkx]
        simp [List.getD_eq_getElem?_getD, hkx]
      · rw [if_neg (fun e => hkx e.2)]
        exact Sparse.get_write_outside d m _ _ x (.inr (by simp only; omega))
    · obtain ⟨j, rfl⟩ : ∃ j, r = n + 1 + j := Nat.exists_eq_add_of_le hr
      rw [show n + 1 + j - (n + 1) = j by omega, show n + 1 + j - n = j + 1 by omega, List.getD_cons_succ,
        Sparse.get_write_outside d m _ _ x (.inr ?_)]
      · exact if_congr (by omega) rfl rfl
      · have := Nat.mul_le_mul_right st (Nat.le_add_right (n + 1) j)
        simp only [Nat.succ_mul] at this ⊢
        omega

end Machine
end Sys2Proof
end

section
/-! SUPPORT. O27: the contents of tiles. -/
namespace Sys2Proof
open Machine
namespace Machine

/-! ### A tile of a task -/

theorem Task.tile_modTile (t : Task) (acc : Bool) (n : Nat) (g : Tile → Tile) : (t.modTile acc n g).tile acc n = g (t.tile acc n) := by
  cases acc <;> exact Sparse.get_put_same ..

@[simp] theorem Task.modTile_q4 (t : Task) (acc : Bool) (n : Nat) (g : Tile → Tile) : (t.modTile acc n g).q4 = t.q4 := by cases acc <;> rfl
@[simp] theorem Task.modTile_fault (t : Task) (acc : Bool) (n : Nat) (g : Tile → Tile) : (t.modTile acc n g).fault = t.fault := by cases acc <;> rfl
@[simp] theorem Task.modTile_holes (t : Task) (acc : Bool) (n : Nat) (g : Tile → Tile) : (t.modTile acc n g).holes = t.holes := by cases acc <;> rfl

/-! ### Contents from rows -/

theorem get_tileData {acc : Bool} {rows : List (List Byte)} (h : ∀ x ∈ rows, x.length ≤ if acc then 256 else 64) {r k : Nat}
    (hk : k < (rows.getD r []).length) (hp : k < if acc then 256 else 64) :
    Sparse.get 0 (tileData acc rows) ((if acc then 256 else 64) * r + k) = (rows.getD r []).getD k 0 := by
  have e : tileData acc rows = rows.zipIdx.foldl (fun m p => Sparse.write 0 m (p.2 * if acc then 256 else 64) p.1) [] := by
    simp only [tileData, tileOff, Nat.mul_zero, Nat.add_zero]
    simp only [Nat.mul_comm]
  rw [e, Nat.mul_comm, get_rows_written 0 h 0 [] hp]
  exact if_pos ⟨Nat.zero_le r, hk⟩

theorem get_tileSide {rows : List (List Byte)} (h : ∀ x ∈ rows, x.length ≤ 2) {r g : Nat} (hg : g < (rows.getD r []).length) (h2 : g < 2) :
    Sparse.get 127 (tileSide rows) (2 * r + g) = (rows.getD r []).getD g 127 := by
  have e : tileSide rows = rows.zipIdx.foldl (fun m p => Sparse.write 127 m (p.2 * 2) p.1) [] := by
    simp only [tileSide, Nat.mul_comm]
  rw [e, Nat.mul_comm, get_rows_written 127 h 0 [] h2]
  exact if_pos ⟨Nat.zero_le r, hg⟩

/-- Elements of one width, row by row, each where its row and column put it. -/
theorem read_tileData {acc : Bool} {w m n : Nat} (hw : n * w ≤ if acc then 256 else 64) (bits : Nat → Nat → Nat) {i j : Nat} (hi : i < m) (hj : j < n) :
    Sparse.read 0 (tileData acc ((List.range m).map (fun i => (List.range n).flatMap (fun j => leBytes w (bits i j)))))
      ((if acc then 256 else 64) * i + w * j) w = leBytes w (bits i j) := by
  have hl (i : Nat) : ((List.range n).flatMap (fun j => leBytes w (bits i j))).length = n * w := by
    rw [length_words, List.length_range, Nat.mul_comm]
  have hrow : ((List.range m).map (fun i => (List.range n).flatMap (fun j => leBytes w (bits i j)))).getD i [] =
      (List.range n).flatMap (fun j => leBytes w (bits i j)) := by simp [List.getD_eq_getElem?_getD, hi]
  have hjw : w * j + w ≤ n * w := by
    rw [← Nat.mul_succ, Nat.mul_comm]
    exact Nat.mul_le_mul_right w hj
  have hcut := take_drop_flatMap (g := fun j => leBytes w (bits i j)) (w := w) (l := List.range n) (fun _ _ => length_leBytes ..)
    (by rwa [List.length_range]) []
  rw [List.append_nil, List.getElem_range] at hcut
  rw [← hcut]
  refine List.ext_getElem (by simp [length_read, hl]; omega) fun k hk _ => ?_
  rw [length_read] at hk
  simp only [Sparse.read_eq_map, List.getElem_map, List.getElem_range, List.getElem_take, List.getElem_drop]
  rw [Nat.add_assoc, get_tileData ?_ (by rw [hrow, hl]; omega) (by omega), hrow]
  · exact List.getD_eq_getElem _ _ _
  · intro x hx
    obtain ⟨i, -, rfl⟩ := List.mem_map.mp hx
    rwa [hl]

/-! ### Bytes of a tile -/

theorem leBytes_ofLE (l : List Byte) : leBytes l.length (ofLE l) = l := by
  induction l with
  | nil => rfl
  | cons b l ih =>
    have h : b.toNat < 256 := b.isLt
    rw [ofLE, List.length_cons, leBytes, show (b.toNat + 256 * ofLE l) / 256 = ofLE l by omega, ih]
    congr 1
    exact BitVec.eq_of_toNat_eq (by rw [BitVec.toNat_ofNat]; omega)

theorem leBytes_zero (n : Nat) : leBytes n 0 = List.replicate n 0 := by
  induction n with
  | zero => rfl
  | succ n ih => rw [leBytes, List.replicate_succ, ih]; rfl

/-- Consecutive ranges of one length, joined. -/
theorem flatMap_read (m : Sparse Byte) (a w n : Nat) : (List.range n).flatMap (fun j => Sparse.read 0 m (a + w * j) w) = Sparse.read 0 m a (w * n) := by
  induction n with
  | zero => rfl
  | succ n ih => rw [List.range_succ, List.flatMap_append, ih, List.flatMap_singleton, Nat.mul_succ, Sparse.read_append]

/-- Byte k of row r of a tile; a tile that is not VALID has zeros. -/
def Tile.byte (x : Tile) (acc : Bool) (r k : Nat) : Byte := if x.valid then Sparse.get 0 x.data ((if acc then 256 else 64) * r + k) else 0

theorem Tile.rowsOf_eq (x : Tile) (acc : Bool) (cfg : TileCfg) :
    x.rowsOf acc cfg = (List.range cfg.rows).map (fun r => (List.range cfg.rowBytes).map (x.byte acc r)) := by
  refine List.map_congr_left fun r _ => ?_
  cases hv : x.valid with
  | true =>
    have he (j : Nat) : leBytes cfg.width (x.elem acc cfg.width r j) = Sparse.read 0 x.data ((if acc then 256 else 64) * r + cfg.width * j) cfg.width := by
      have := leBytes_ofLE (Sparse.read 0 x.data (tileOff acc cfg.width r j) cfg.width)
      rw [length_read] at this
      rw [Tile.elem, if_pos hv, this]
      rfl
    simp only [he, flatMap_read]
    rw [Sparse.read_eq_map, TileCfg.rowBytes, Nat.mul_comm cfg.cols]
    exact List.map_congr_left fun k _ => (if_pos hv).symm
  | false =>
    have hb : x.byte acc r = fun _ => 0 := funext fun k => if_neg (by simp [hv])
    simp only [Tile.elem, hv, Bool.false_eq_true, if_false, leBytes_zero, hb]
    refine List.ext_getElem (by simp [List.length_flatMap, TileCfg.rowBytes]) fun k hk hk' => ?_
    have hz : ∀ b ∈ (List.range cfg.cols).flatMap (fun _ => List.replicate cfg.width (0 : Byte)), b = 0 := by simp
    rw [List.getElem_map]
    exact hz _ (List.getElem_mem hk)

/-! ### A tile loaded from bytes -/

section
variable {c : TileCfg} {acc : Bool}

theorem TileCfg.rowBytes_le (h : c.ok acc = true) : c.rowBytes ≤ if acc then 256 else 64 := by
  simp only [TileCfg.ok, Bool.and_eq_true, decide_eq_true_eq] at h
  obtain ⟨-, h⟩ := h
  cases acc with
  | true =>
    obtain ⟨hw, hc⟩ : (c.width = 4 ∨ c.width = 8) ∧ c.cols ≤ 32 := by simpa using h
    unfold TileCfg.rowBytes
    obtain hw | hw := hw <;> rw [hw] <;> simp only [if_true] <;> omega
  | false =>
    obtain ⟨-, hc⟩ : _ ∧ c.cols * c.width ≤ 64 := by simpa using h
    exact hc

theorem TileCfg.blocks_le (h : c.ok false = true) : c.blocks ≤ 2 := by
  simp only [TileCfg.ok, Bool.and_eq_true, decide_eq_true_eq] at h
  obtain ⟨-, h⟩ := h
  obtain ⟨hw, hc⟩ : (c.width = 1 ∨ c.width = 2 ∨ c.width = 4 ∨ c.width = 8) ∧ c.cols * c.width ≤ 64 := by simpa using h
  have : c.cols ≤ 64 := by obtain hw | hw | hw | hw := hw <;> rw [hw] at hc <;> omega
  unfold TileCfg.blocks ceilDiv
  omega

/-- The rows of scale bytes that a load takes: from its bytes, or 127 throughout. -/
def sidesFrom (c : TileCfg) (given : Bool) (bs : List Byte) : List (List Byte) :=
  if given then chunks c.blocks c.rows bs else List.replicate c.rows [127, 127]

theorem loaded_data (x : Tile) (h : c.ok acc = true) {bs : List Byte} (sides : List (List Byte)) (hb : c.rows * c.rowBytes ≤ bs.length) {r k : Nat}
    (hr : r < c.rows) (hk : k < c.rowBytes) :
    Sparse.get 0 (x.loaded acc (chunks c.rowBytes c.rows bs) sides).data ((if acc then 256 else 64) * r + k) = bs.getD (r * c.rowBytes + k) 0 := by
  have hrow : (chunks c.rowBytes c.rows bs).getD r [] = (bs.drop (c.rowBytes * r)).take c.rowBytes := by
    rw [List.getD_eq_getElem _ _ (by rwa [length_chunks]), getElem_chunks]
  have hle : c.rowBytes * r + c.rowBytes ≤ c.rows * c.rowBytes := by
    rw [← Nat.mul_succ, Nat.mul_comm]
    exact Nat.mul_le_mul_right _ hr
  change Sparse.get 0 (tileData acc (chunks c.rowBytes c.rows bs)) _ = _
  rw [get_tileData ?_ ?_ (hk.trans_le (TileCfg.rowBytes_le h)), hrow, getD_chunk hk]
  · intro y hy
    obtain ⟨j, hj, rfl⟩ := List.getElem_of_mem hy
    rw [getElem_chunks]
    exact (List.length_take_le ..).trans (TileCfg.rowBytes_le h)
  · rw [hrow, List.length_take, List.length_drop]
    omega

theorem loaded_scale (x : Tile) (h : c.ok false = true) {rows : List (List Byte)} {given : Bool} {bs : List Byte}
    (hb : given = true → c.rows * c.blocks ≤ bs.length) {r g : Nat} (hr : r < c.rows) (hg : g < c.blocks) :
    (x.loaded acc rows (sidesFrom c given bs)).scale r g = if given then (bs.getD (r * c.blocks + g) 0).toNat else 127 := by
  have h2 := TileCfg.blocks_le h
  change (Sparse.get 127 (tileSide (sidesFrom c given bs)) (2 * r + g)).toNat = _
  cases given with
  | false =>
    have hrow : (List.replicate c.rows [(127 : Byte), 127]).getD r [] = [127, 127] := by simp [List.getD_eq_getElem?_getD, hr]
    have := get_tileSide (rows := List.replicate c.rows [127, 127]) (r := r) (g := g) (fun y hy => by rw [List.eq_of_mem_replicate hy]; exact le_rfl)
      (by rw [hrow]; exact hg.trans_le h2) (hg.trans_le h2)
    rw [sidesFrom, if_neg Bool.false_ne_true, this, hrow]
    obtain rfl | rfl : g = 0 ∨ g = 1 := by omega
    · rfl
    · rfl
  | true =>
    have hrow : (chunks c.blocks c.rows bs).getD r [] = (bs.drop (c.blocks * r)).take c.blocks := by
      rw [List.getD_eq_getElem _ _ (by rwa [length_chunks]), getElem_chunks]
    have hle : c.blocks * r + c.blocks ≤ c.rows * c.blocks := by
      rw [← Nat.mul_succ, Nat.mul_comm]
      exact Nat.mul_le_mul_right _ hr
    have hlen : g < ((bs.drop (c.blocks * r)).take c.blocks).length := by
      rw [List.length_take, List.length_drop]
      have := hb rfl
      omega
    rw [sidesFrom, if_pos rfl, if_pos rfl, get_tileSide ?_ (by rwa [hrow]) (hg.trans_le h2), hrow, ← getD_chunk hg]
    · rw [List.getD_eq_getElem _ _ hlen, List.getD_eq_getElem _ _ hlen]
    · intro y hy
      obtain ⟨j, hj, rfl⟩ := List.getElem_of_mem hy
      rw [getElem_chunks]
      exact (List.length_take_le ..).trans h2

/-- A tile loaded from bytes: the rows, then the sidecar where it is given (R169, R171). -/
def Tile.takenFrom (x : Tile) (acc : Bool) (c : TileCfg) (given : Bool) (bs : List Byte) : Tile :=
  x.loaded acc (chunks c.rowBytes c.rows bs) (sidesFrom c given (bs.drop (c.rows * c.rowBytes)))

theorem takenFrom_spec (x : Tile) (h : c.ok acc = true) {given : Bool} {bs : List Byte}
    (hb : bs.length = c.rows * c.rowBytes + if given then c.rows * c.blocks else 0) :
    let y := x.takenFrom acc c given bs
    y.valid = true ∧ y.dirty = true ∧ y.poison = false ∧ y.accOvf = x.accOvf
      ∧ (∀ r k, r < c.rows → k < c.rowBytes → Sparse.get 0 y.data ((if acc then 256 else 64) * r + k) = bs.getD (r * c.rowBytes + k) 0)
      ∧ ∀ r g, r < c.rows → g < c.blocks → acc = false →
          y.scale r g = if given then (bs.getD (c.rows * c.rowBytes + r * c.blocks + g) 0).toNat else 127 := by
  refine ⟨rfl, rfl, rfl, rfl, fun r k hr hk => loaded_data x h _ (by omega) hr hk, fun r g hr hg ha => ?_⟩
  subst ha
  have hlen : given = true → c.rows * c.blocks ≤ (bs.drop (c.rows * c.rowBytes)).length := by
    intro hgiven
    rw [if_pos hgiven] at hb
    rw [List.length_drop]
    omega
  have hdrop : (bs.drop (c.rows * c.rowBytes)).getD (r * c.blocks + g) 0 = bs.getD (c.rows * c.rowBytes + r * c.blocks + g) 0 := by
    simp [List.getD_eq_getElem?_getD, Nat.add_assoc]
  rw [Tile.takenFrom, loaded_scale x h hlen hr hg, hdrop]

end

end Machine
end Sys2Proof
end

section
/-! SUPPORT. O27: the end of a matrix command. -/
namespace Sys2Proof
open Machine
namespace Machine

theorem Cmd.fields_of_decode {c : Cmd} {i : Instr} {f : Fields} (h : decode c.word = i) (hi : i.fields? = some f) : c.fields = f := by
  cases ho : decodeOp (majorOf c.word) (minorOf c.word) (Fields.ofWord c.word) with
  | none =>
    rw [decode_of_decodeOp_none ho] at h
    subst h
    cases hi
  | some j =>
    rw [decode_of_decodeOp ho] at h
    subst h
    exact Option.some.inj ((opcode?_of_decodeOp ho).2.symm.trans hi)

theorem State.id_of_task? {s : State} {id : Nat} {t : Task} (h : s.task? id = some t) : t.entry.id = id := by simpa using List.find?_some h

/-! ### What a performed command leaves of its task -/

/-- The pigeonholes when a command has been performed (R160, 10 R252): the one it read has lost its reader, the one it filled is filled. -/
def holesAfter (i : Instr) (f : Fields) (hs : List Hole) : List Hole :=
  if !tLoc f then hs
  else match i with
    | .tld _ | .accwr _ => updAt hs f.a.toNat Hole.wasRead
    | .tst _ | .accrd _ => updAt hs f.d.toNat Hole.filled
    | _ => hs

/-- What a command leaves of the task: its tiles, its fault record and its pigeonholes, the queue one shorter. -/
structure Leaves (task : Nat) (t1 : Task) (i : Instr) (f : Fields) (mem : Sparse Byte) (s' : State) (t' : Task) : Prop where
  found : s'.task? task = some t'
  queue : t'.q4.length = t1.q4.length - 1
  fault : t'.fault = t1.fault
  tile : ∀ acc n, t'.tile acc n = t1.tile acc n
  holes : t'.holes = holesAfter i f t1.holes
  memory : s'.mem = mem

theorem State.startMatrix_task? {s : State} {id : Nat} {t : Task} (found : s.task? id = some t) :
    ∃ q, q.length = t.q4.length ∧ (s.startMatrix id).task? id = some { t with q4 := q } := by
  unfold State.startMatrix
  simp only [found]
  split
  · exact ⟨t.q4, rfl, found⟩
  · exact ⟨_, List.length_map _, State.found_modTask found fun _ => rfl⟩

theorem State.startMatrix_mem (s : State) (id : Nat) : (s.startMatrix id).mem = s.mem := by
  unfold State.startMatrix
  split
  · rfl
  · split <;> rfl

theorem State.startMatrix_clusters (s : State) (id : Nat) : (s.startMatrix id).clusters = s.clusters := by
  unfold State.startMatrix
  split
  · rfl
  · split <;> rfl

/-- A pigeonhole filled: its state, and a note to the agents that perform loads ahead. -/
theorem Task.fillHole_eq (t : Task) (h : Nat) : ∃ u ths, t.fillHole h = { t.modHole h Hole.filled with u := u, threads := ths } := by
  unfold Task.fillHole
  dsimp only
  split
  · exact ⟨_, _, rfl⟩
  · exact ⟨_, _, rfl⟩

theorem Task.fillHole_holes (t : Task) (h : Nat) : (t.fillHole h).holes = (t.modHole h Hole.filled).holes := by
  obtain ⟨u, ths, e⟩ := t.fillHole_eq h
  rw [e]

theorem Task.matHoles_cases (t : Task) (i : Instr) (f : Fields) :
    t.matHoles i f = t ∨ t.matHoles i f = t.modHole f.a.toNat Hole.wasRead ∨ t.matHoles i f = t.fillHole f.d.toNat := by
  unfold Task.matHoles
  split
  · exact .inl rfl
  · split
    · exact .inr (.inl rfl)
    · exact .inr (.inl rfl)
    · exact .inr (.inr rfl)
    · exact .inr (.inr rfl)
    · exact .inl rfl

theorem Task.matHoles_holes (t : Task) (i : Instr) (f : Fields) : (t.matHoles i f).holes = holesAfter i f t.holes := by
  unfold Task.matHoles holesAfter
  split
  · rfl
  · split <;> simp only [Task.modHole, Task.fillHole_holes]

/-- What a change of pigeonholes keeps. -/
theorem Task.matHoles_keeps {α : Type} (p : Task → α) (hp : ∀ (t : Task) hs u ths, p { t with holes := hs, u := u, threads := ths } = p t) (t : Task)
    (i : Instr) (f : Fields) : p (t.matHoles i f) = p t := by
  obtain e | e | e := t.matHoles_cases i f
  · rw [e]
  · rw [e]
    exact hp t _ t.u t.threads
  · obtain ⟨u, ths, e'⟩ := t.fillHole_eq f.d.toNat
    rw [e, e']
    exact hp t _ u ths

theorem finishMatrix_leaves {task : Nat} {s1 : State} {t t1 : Task} {c : Cmd} (found1 : s1.task? task = some t1) (hid : t.entry.id = task) :
    ∃ t', Leaves task t1 (decode c.word) c.fields s1.mem (s1.finishMatrix t c none) t' := by
  subst hid
  let g (t : Task) : Task := ({ t with q4 := t.q4.drop 1 } : Task).matHoles (decode c.word) c.fields
  have hg (u : Task) : (g u).entry.id = u.entry.id := congrArg Entry.id (Task.matHoles_keeps Task.entry (fun _ _ _ _ => rfl) _ _ _)
  have found2 : ((s1.modTask t.entry.id g).modCluster t.cluster (fun k => { k with table := k.table.filter (fun p => p != (t.entry.id, c.ord)) })).task?
      t.entry.id = some (g t1) := State.found_modTask found1 hg
  obtain ⟨q, hq, found3⟩ := State.startMatrix_task? found2
  refine ⟨_, found3, ?_, ?_, ?_, ?_, State.startMatrix_mem ..⟩
  · have e : (g t1).q4 = t1.q4.drop 1 := Task.matHoles_keeps Task.q4 (fun _ _ _ _ => rfl) _ _ _
    exact hq.trans ((congrArg List.length e).trans (List.length_drop ..))
  · exact Task.matHoles_keeps Task.fault (fun _ _ _ _ => rfl) _ _ _
  · exact fun acc n => Task.matHoles_keeps (fun t => t.tile acc n) (fun _ _ _ _ => rfl) _ _ _
  · exact Task.matHoles_holes ..

/-! ### The head of q4 performed -/

section
variable {task : Nat} {t : Task} {c : Cmd} {rest : List Cmd} {s : State} (H : MatrixHead task t c rest s)
include H

theorem exec_performed : exec (.matrixCommandPerformed task) s = .next (s.performMatrix t c) := by
  change execMatrixCommandPerformed task s = _
  have hr : s.headRuns t = true := by simp [State.headRuns, H.resident, H.going, H.still, H.awake, H.admitted]
  simp only [execMatrixCommandPerformed, H.found, H.head, hr, if_true]

/-- A command that ends without a fault. -/
theorem performed {s1 : State} {t1 : Task} {i : Instr} {f : Fields} (hi : decode c.word = i) (hf : i.fields? = some f)
    (hrun : s.runMatrix t c = (.done none, s1)) (found1 : s1.task? task = some t1) :
    ∃ s' t', exec (.matrixCommandPerformed task) s = .next s' ∧ Leaves task t1 i f s1.mem s' t' := by
  obtain ⟨t', L⟩ := finishMatrix_leaves (c := c) found1 (State.id_of_task? H.found)
  rw [hi, Cmd.fields_of_decode hi hf] at L
  refine ⟨_, t', ?_, L⟩
  rw [exec_performed H, State.performMatrix, hrun]

/-- A command that faults. -/
theorem performed_fault {s1 : State} {t1 : Task} {i : Instr} {f : Fields} {cause : Nat} {addr : Option Nat} (hi : decode c.word = i)
    (hf : i.fields? = some f) (hrun : s.runMatrix t c = (.done (some (cause, addr)), s1)) (found1 : (spoilTile c s1 t).task? task = some t1) :
    ∃ s' t', exec (.matrixCommandPerformed task) s = .next s' ∧ Leaves task (t1.recordFault cause c.ord addr) i f (spoilTile c s1 t).mem s' t' := by
  have found2 : ((spoilTile c s1 t).modTask t.entry.id (fun t => t.recordFault cause c.ord addr)).task? task = some (t1.recordFault cause c.ord addr) := by
    rw [(State.id_of_task? H.found)]
    exact State.found_modTask found1 fun _ => rfl
  obtain ⟨t', L⟩ := finishMatrix_leaves (c := c) found2 (State.id_of_task? H.found)
  rw [hi, Cmd.fields_of_decode hi hf] at L
  refine ⟨_, t', ?_, L⟩
  rw [exec_performed H, State.performMatrix, hrun]
  rfl

/-- A command whose last effect is on a tile. -/
theorem performed_tile {s1 : State} {t1 : Task} {i : Instr} {f : Fields} (hi : decode c.word = i) (hf : i.fields? = some f)
    (found1 : s1.task? task = some t1) (hq : t1.q4 = t.q4) {acc : Bool} {n : BitVec 9} {g : Tile → Tile}
    (hrun : s.runMatrix t c = (.done none, s1.modTile t.entry.id acc n g)) :
    ∃ s' t', exec (.matrixCommandPerformed task) s = .next s' ∧ s'.task? task = some t' ∧ t'.q4.length = rest.length ∧ t'.fault = t1.fault
      ∧ t'.tile acc n.toNat = g (t1.tile acc n.toNat) ∧ t'.holes = holesAfter i f t1.holes ∧ s'.mem = s1.mem := by
  have found2 : (s1.modTile t.entry.id acc n g).task? task = some (t1.modTile acc n.toNat g) := by
    rw [State.id_of_task? H.found]
    exact State.found_modTask found1 fun u => u.modTile_id ..
  obtain ⟨s', t', he, L⟩ := performed H hi hf hrun found2
  refine ⟨s', t', he, L.found, ?_, L.fault.trans (t1.modTile_fault ..), (L.tile ..).trans (t1.tile_modTile ..), ?_, L.memory⟩
  · rw [L.queue, Task.modTile_q4, hq, H.head]
    rfl
  · rw [L.holes, Task.modTile_holes]

end

end Machine
end Sys2Proof
end

section
/-! SUPPORT. O27: what each matrix command does when it is performed. -/
namespace Sys2Proof
open Machine
namespace Machine

/-! ### Reads and writes of a command that nothing has begun -/

theorem matRead_ok {s s1 : State} {a : Acc} {rs : List (Int × Nat)} {bs : List Byte} (h : BytesRead a rs s bs s1) (e : Elems) :
    ∃ s2, s.matRead a none e rs = (.ok bs, s2) ∧ s2.tasks = s.tasks := by
  obtain ⟨segs, s0, hm, hr⟩ := h
  have ht : s1.tasks = s.tasks := (State.readSegs_tasks hr).trans (State.mapAll_tasks hm)
  refine ⟨if a.order % 2 = 1 then s1.acquireAt a.cl a.scope else s1, by simp only [State.matRead, hm, hr], ?_⟩
  split
  · rw [State.acquireAt_tasks, ht]
  · exact ht

theorem matWrite_ok {s s1 s2 : State} {a : Acc} {rs : List (Int × Nat)} {bs : List Byte} {ws : List Seg} (hm : s.mapAll a { w := true } rs = (.ok ws, s1))
    (hw : (if 2 ≤ a.order then s1.releaseAt a.cl a.scope else s1).writeSegs a ws bs = .ok s2) (e : Elems) :
    s.matWrite a none e rs bs = (.done none, s2) ∧ s2.tasks = s.tasks := by
  refine ⟨by simp only [State.matWrite, hm, hw], (State.writeSegs_tasks hw).trans ?_⟩
  split
  · rw [State.releaseAt_tasks, State.mapAll_tasks hm]
  · exact State.mapAll_tasks hm

/-- A store's release, by its ORD bit (11 R287). -/
theorem matAcc_release (c : Cmd) (t : Task) (f : Fields) (s : State) :
    (if 2 ≤ (c.matAcc t f true).order then s.releaseAt (c.matAcc t f true).cl (c.matAcc t f true).scope else s) =
      if bitAt f.mod.toNat 0 then s.releaseAt t.cluster (field f.mod.toNat 3 1) else s := by
  cases h : bitAt f.mod.toNat 0 <;> simp [Cmd.matAcc, mBit, h, mField, Acc.ofTask]

/-- The stride of rows of the given length (R166): field STRIDE, or that length where it is 0. -/
def rowStride (f : Fields) (row : Nat) : Nat := if f.imm.toNat % 2 ^ 20 = 0 then row else f.imm.toNat % 2 ^ 20

theorem strideOf_eq (f : Fields) (row : Nat) : strideOf f row = rowStride f row := by
  simp only [rowStride, strideOf, tStride, iField, field, pow_zero, Nat.div_one]

theorem rowRanges_eq (v stride row rows : Nat) :
    rowRanges (signExt v 64) stride row rows = (List.range rows).map (fun r => (signedOf 64 v + (r * stride : Nat), row)) := by
  rw [signExt_eq_signedOf, rowRanges]

/-! ### The commands, by what their word decodes to -/

section
variable (s : State) (t : Task) {c : Cmd} {f : Fields}

theorem runMatrix_tcfg (h : decode c.word = .tcfg f) : s.runMatrix t c = (.done none, s.modTile t.entry.id (bitAt f.mod.toNat 7) f.d Tile.cleared) := by
  simp only [State.runMatrix, h, Cmd.fields_of_decode h rfl]
  rfl

theorem runMatrix_trel (h : decode c.word = .trel f) : s.runMatrix t c = (.done none, s.modTile t.entry.id (bitAt f.mod.toNat 7) f.d Tile.cleared) := by
  simp only [State.runMatrix, h, Cmd.fields_of_decode h rfl]
  rfl

/-- A tile of zeros. -/
def Tile.zeroed (x : Tile) : Tile := { x.written [] [] with accOvf := false, poison := false }

theorem runMatrix_tzero (h : decode c.word = .tzero f) : s.runMatrix t c = (.done none, s.modTile t.entry.id (bitAt f.mod.toNat 7) f.d Tile.zeroed) := by
  simp only [State.runMatrix, h, Cmd.fields_of_decode h rfl]
  rfl

theorem runMatrix_tld (h : decode c.word = .tld f) (hv : bitAt f.mod.toNat 5 = false) : s.runMatrix t c = s.runTld t c f := by
  simp only [State.runMatrix, h, Cmd.fields_of_decode h rfl, tVer, mBit, hv, Bool.false_eq_true, if_false]

theorem runMatrix_tldv (h : decode c.word = .tld f) (hv : bitAt f.mod.toNat 5 = true) : s.runMatrix t c = s.runTldv t c f := by
  simp only [State.runMatrix, h, Cmd.fields_of_decode h rfl, tVer, mBit, hv, if_true]

theorem runMatrix_tst (h : decode c.word = .tst f) (hv : bitAt f.mod.toNat 5 = false) : s.runMatrix t c = s.runTst t c f := by
  simp only [State.runMatrix, h, Cmd.fields_of_decode h rfl, tVer, mBit, hv, Bool.false_eq_true, if_false]

theorem runMatrix_tstAll (h : decode c.word = .tst f) (hv : bitAt f.mod.toNat 5 = true) : s.runMatrix t c = s.runTstAll t c f := by
  simp only [State.runMatrix, h, Cmd.fields_of_decode h rfl, tVer, mBit, hv, if_true]

theorem runMatrix_mma (h : decode c.word = .mma f) : s.runMatrix t c = s.runMma t c f := by
  simp only [State.runMatrix, h, Cmd.fields_of_decode h rfl]

theorem runMatrix_mmas (h : decode c.word = .mmas f) : s.runMatrix t c = s.runMmas t c f := by
  simp only [State.runMatrix, h, Cmd.fields_of_decode h rfl]

end

/-! ### TLD in its plain form (R169) -/

section
variable {s : State} {t : Task} {c : Cmd} {f : Fields} {bs : List Byte}

/-- From a pigeonhole. -/
theorem runTld_hole (hl : bitAt f.mod.toNat 6 = true)
    (hb : bs = (List.range c.cfgD.rows).flatMap (fun r => (t.hole f.a.toNat).read (r * rowStride f c.cfgD.rowBytes) c.cfgD.rowBytes)
      ++ (t.hole f.a.toNat).read (c.cfgD.rows * rowStride f c.cfgD.rowBytes) (if bitAt f.mod.toNat 4 then c.cfgD.rows * c.cfgD.blocks else 0)) :
    s.runTld t c f = (.done none, s.modTile t.entry.id (bitAt f.mod.toNat 7) f.d (fun x =>
      x.takenFrom (bitAt f.mod.toNat 7) c.cfgD (bitAt f.mod.toNat 4) bs)) := by
  have hrow (r : Nat) : ((t.hole f.a.toNat).read (r * rowStride f c.cfgD.rowBytes) c.cfgD.rowBytes).length = c.cfgD.rowBytes := length_read ..
  have hcut := chunks_flatMap (l := List.range c.cfgD.rows) (fun r _ => hrow r)
    ((t.hole f.a.toNat).read (c.cfgD.rows * rowStride f c.cfgD.rowBytes) (if bitAt f.mod.toNat 4 then c.cfgD.rows * c.cfgD.blocks else 0))
  rw [← hb, List.length_range] at hcut
  have hdrop : bs.drop (c.cfgD.rows * c.cfgD.rowBytes) =
      (t.hole f.a.toNat).read (c.cfgD.rows * rowStride f c.cfgD.rowBytes) (if bitAt f.mod.toNat 4 then c.cfgD.rows * c.cfgD.blocks else 0) := by
    rw [hb, List.drop_left' (by rw [length_flatMap_of_length _ hrow, List.length_range, Nat.mul_comm])]
  simp only [State.runTld, tLoc, tSel, tSc, mBit, hl, if_true, strideOf_eq, Tile.takenFrom, hcut, hdrop]
  cases h4 : bitAt f.mod.toNat 4 <;> rfl

/-- From memory. -/
theorem runTld_memory {s1 : State} (hl : bitAt f.mod.toNat 6 = false) (hfresh : c.begun = none)
    (hb : BytesRead (c.matAcc t f false) ((List.range c.cfgD.rows).map (fun r => (signedOf 64 c.maddr + (r * rowStride f c.cfgD.rowBytes : Nat), c.cfgD.rowBytes))
      ++ (if bitAt f.mod.toNat 4 then [(signedOf 64 c.saddr, if bitAt f.mod.toNat 4 then c.cfgD.rows * c.cfgD.blocks else 0)] else [])) s bs s1) :
    ∃ s2 : State, s2.tasks = s.tasks ∧ s.runTld t c f = (.done none, s2.modTile t.entry.id (bitAt f.mod.toNat 7) f.d (fun x =>
      x.takenFrom (bitAt f.mod.toNat 7) c.cfgD (bitAt f.mod.toNat 4) bs)) := by
  obtain ⟨s2, hr, ht⟩ := matRead_ok hb { width := c.cfgD.width, count := c.cfgD.rows * c.cfgD.cols }
  refine ⟨s2, ht, ?_⟩
  have hrs : (if bitAt f.mod.toNat 4 then [(signedOf 64 c.saddr, if bitAt f.mod.toNat 4 then c.cfgD.rows * c.cfgD.blocks else 0)] else []) =
      if bitAt f.mod.toNat 4 then [(signExt c.saddr 64, c.cfgD.rows * c.cfgD.blocks)] else [] := by
    rw [signExt_eq_signedOf]
    cases bitAt f.mod.toNat 4 <;> rfl
  rw [hrs, ← rowRanges_eq] at hr
  have hl' : ¬ tLoc f = true := by simp [tLoc, mBit, hl]
  simp only [State.runTld, if_neg hl', hfresh, strideOf_eq]
  split
  · next e => cases hr.symm.trans e
  · next e =>
    cases hr.symm.trans e
    rfl

end

end Machine
end Sys2Proof
end

section
/-! SUPPORT. O27: stores of tiles to pigeonholes and memory, and the conversions of tiles. -/
namespace Sys2Proof
open Machine
namespace Machine

/-! ### Rows stored in a pigeonhole -/

/-- A pigeonhole with rows every `stride` bytes and more bytes after the last. -/
def Hole.stored (h : Hole) (stride : Nat) (rows : List (List Byte)) (side : List Byte) : Hole :=
  (rows.zipIdx.foldl (fun h p => h.write (p.2 * stride) p.1) h).write (rows.length * stride) side

theorem Hole.rows_written (stride : Nat) (l : List (List Byte × Nat)) (h : Hole) :
    l.foldl (fun h p => h.write (p.2 * stride) p.1) h = { h with data := l.foldl (fun m p => Sparse.write 0 m (p.2 * stride) p.1) h.data } := by
  induction l generalizing h with
  | nil => rfl
  | cons p l ih => exact ih _

theorem Hole.stored_state (h : Hole) (stride : Nat) (rows : List (List Byte)) (side : List Byte) : (h.stored stride rows side).state = h.state := by
  rw [Hole.stored, Hole.rows_written]
  rfl

section
variable (h : Hole) {stride : Nat} {rows : List (List Byte)} (side : List Byte) {k : Nat}

theorem Hole.get_stored_row (hrows : ∀ x ∈ rows, x.length ≤ stride) {r : Nat} (hr : r < rows.length) (hk : k < rows[r].length) :
    Sparse.get 0 (h.stored stride rows side).data (r * stride + k) = rows[r].getD k 0 := by
  have hs : k < stride := hk.trans_le (hrows _ (List.getElem_mem hr))
  have he : rows.getD r [] = rows[r] := List.getD_eq_getElem _ _ hr
  have hle := Nat.mul_le_mul_right stride (Nat.succ_le_of_lt hr)
  rw [Nat.succ_mul] at hle
  rw [Hole.stored, Hole.rows_written]
  change Sparse.get 0 (Sparse.write 0 _ (rows.length * stride) side) _ = _
  rw [Sparse.get_write_outside _ _ _ _ _ (.inl (by omega)), get_rows_written 0 hrows 0 _ hs, Nat.sub_zero, he, if_pos ⟨Nat.zero_le r, hk⟩]

theorem Hole.get_stored_side (hk : k < side.length) : Sparse.get 0 (h.stored stride rows side).data (rows.length * stride + k) = side.getD k 0 := by
  rw [Hole.stored, Hole.rows_written, List.getD_eq_getElem _ _ hk]
  exact Sparse.get_write_inside ..

end

/-! ### TST in its plain form (R169) -/

/-- The bytes of a tile, row by row, and its scale bytes. -/
def Tile.bytes (x : Tile) (acc : Bool) (cfg : TileCfg) : List Byte := (List.range cfg.rows).flatMap (fun r => (List.range cfg.rowBytes).map (x.byte acc r))
def Tile.scaleBytes (x : Tile) (cfg : TileCfg) : List Byte :=
  (List.range cfg.rows).flatMap (fun r => (List.range cfg.blocks).map (fun g => BitVec.ofNat 8 (x.scale r g)))

theorem Tile.flatten_rowsOf (x : Tile) (acc : Bool) (cfg : TileCfg) : (x.rowsOf acc cfg).flatten = x.bytes acc cfg := by
  rw [Tile.rowsOf_eq]
  rfl

theorem Tile.flatten_scalesOf (x : Tile) (cfg : TileCfg) : (x.scalesOf cfg).flatten = x.scaleBytes cfg := rfl

section
variable {s : State} {t : Task} {c : Cmd} {f : Fields}

theorem runTst_hole (hl : bitAt f.mod.toNat 6 = true) :
    let x := t.tile (bitAt f.mod.toNat 7) f.a.toNat
    s.runTst t c f = (.done none, (s.modTask t.entry.id (fun t => t.modHole f.d.toNat (fun h => h.stored (rowStride f c.cfgA.rowBytes)
      (x.rowsOf (bitAt f.mod.toNat 7) c.cfgA) (if bitAt f.mod.toNat 4 then x.scaleBytes c.cfgA else [])))).modTile t.entry.id (bitAt f.mod.toNat 7) f.a
        (fun x => { x with dirty := false })) := by
  have hl' : tLoc f = true := hl
  have hlen : ((t.tile (tSel f) f.a.toNat).rowsOf (tSel f) c.cfgA).length = c.cfgA.rows := by simp [Tile.rowsOf]
  simp only [State.runTst, if_pos hl', strideOf_eq, Tile.flatten_scalesOf]
  rw [← hlen]
  rfl

theorem runTst_memory {ws : List Seg} {s1 s2 : State} (hl : bitAt f.mod.toNat 6 = false) (hfresh : c.begun = none)
    (hm : s.mapAll (c.matAcc t f true) { w := true } ((List.range c.cfgA.rows).map (fun r =>
        (signedOf 64 c.maddr + (r * rowStride f c.cfgA.rowBytes : Nat), c.cfgA.rowBytes))
      ++ (if bitAt f.mod.toNat 4 then
          [(signedOf 64 c.saddr, (if bitAt f.mod.toNat 4 then (t.tile (bitAt f.mod.toNat 7) f.a.toNat).scaleBytes c.cfgA else []).length)]
        else [])) = (.ok ws, s1))
    (hw : (if bitAt f.mod.toNat 0 then s1.releaseAt t.cluster (field f.mod.toNat 3 1) else s1).writeSegs (c.matAcc t f true) ws
      ((t.tile (bitAt f.mod.toNat 7) f.a.toNat).bytes (bitAt f.mod.toNat 7) c.cfgA
        ++ (if bitAt f.mod.toNat 4 then (t.tile (bitAt f.mod.toNat 7) f.a.toNat).scaleBytes c.cfgA else [])) = .ok s2) :
    s.runTst t c f = (.done none, s2.modTile t.entry.id (bitAt f.mod.toNat 7) f.a (fun x => { x with dirty := false })) ∧ s2.tasks = s.tasks := by
  rw [← matAcc_release c] at hw
  rw [← rowRanges_eq, ← signExt_eq_signedOf] at hm
  obtain ⟨hr, ht⟩ := matWrite_ok hm hw { width := c.cfgA.width, count := c.cfgA.rows * c.cfgA.cols }
  have hl' : ¬ tLoc f = true := by simp [tLoc, mBit, hl]
  refine ⟨?_, ht⟩
  simp only [State.runTst, if_neg hl', hfresh, strideOf_eq, Tile.flatten_scalesOf, Tile.flatten_rowsOf]
  split
  · next e =>
    cases hr.symm.trans e
    rfl
  · next hne => exact absurd hr (hne _)

end

/-! ### ACCRD (R182) -/

section
variable {s : State} {t : Task} {c : Cmd} {f : Fields} {r : Tree}

/-- What ACCRD leaves of its source: zeros, or the tile as it was and no longer DIRTY. -/
def accrdLeft (f : Fields) (y : Tile) : Tile := if bitAt f.mod.toNat 5 then { y.written [] [] with accOvf := false } else { y with dirty := false }

/-- The bytes of one element that ACCRD stores. -/
def accrdValue (c : Cmd) (t : Task) (r : Tree) (y : Tile) (i j : Nat) : List Byte :=
  leBytes (mmaWidth (fwFmt c.fw)) (wordRound c.fw ((if c.cfgA.width = 8 then FpType.fp64 else .fp32).decode (y.elem true c.cfgA.width i j))
    (matrixRandom r.seed.toNat t.entry.ped c.conv (32 * i + j)))

theorem roundings_eq (hr : s.tree? t.entry.tree = some r) (c : Cmd) : s.roundings t c = matrixRandom r.seed.toNat t.entry.ped c.conv := by
  funext e
  simp only [State.roundings, hr]

theorem accrdRows_eq (hr : s.tree? t.entry.tree = some r) (c : Cmd) (y : Tile) :
    accrdRows c.fw c.cfgA y (s.roundings t c) = (List.range c.cfgA.rows).map (fun i => (List.range c.cfgA.cols).flatMap (accrdValue c t r y i)) := by
  rw [roundings_eq hr]
  rfl

theorem accrdLeft_eq (s : State) (t : Task) (f : Fields) :
    (if mBit f 5 then (if mBit f 5 then s.modTile t.entry.id true f.a (fun y => { y.written [] [] with accOvf := false }) else s)
      else s.cleanTile t true f.a) = s.modTile t.entry.id true f.a (accrdLeft f) := by
  have e : accrdLeft f = if mBit f 5 then fun y => { y.written [] [] with accOvf := false } else fun y => { y with dirty := false } := by
    unfold accrdLeft mBit
    cases bitAt f.mod.toNat 5 <;> rfl
  rw [e]
  cases mBit f 5 <;> rfl

theorem runMatrix_accrd_hole (h : decode c.word = .accrd f) (hl : bitAt f.mod.toNat 6 = true) (hr : s.tree? t.entry.tree = some r) :
    s.runMatrix t c = (.done none, (s.modTask t.entry.id (fun u => u.modHole f.d.toNat (fun h =>
      h.stored (rowStride f (c.cfgA.cols * mmaWidth (fwFmt c.fw))) ((List.range c.cfgA.rows).map (fun i => (List.range c.cfgA.cols).flatMap
        (accrdValue c t r (t.tile true f.a.toNat) i))) []))).modTile t.entry.id true f.a (accrdLeft f)) := by
  have hl' : tLoc f = true := hl
  simp only [State.runMatrix, h, Cmd.fields_of_decode h rfl, if_pos hl', accrdRows_eq hr, strideOf_eq, accrdLeft_eq]
  rfl

theorem runMatrix_accrd_memory {ws : List Seg} {s1 s2 : State} (h : decode c.word = .accrd f) (hl : bitAt f.mod.toNat 6 = false) (hfresh : c.begun = none)
    (hr : s.tree? t.entry.tree = some r)
    (hm : s.mapAll (c.matAcc t f true) { w := true } ((List.range c.cfgA.rows).map (fun i =>
        (signedOf 64 c.maddr + (i * rowStride f (c.cfgA.cols * mmaWidth (fwFmt c.fw)) : Nat), c.cfgA.cols * mmaWidth (fwFmt c.fw)))) = (.ok ws, s1))
    (hw : (if bitAt f.mod.toNat 0 then s1.releaseAt t.cluster (field f.mod.toNat 3 1) else s1).writeSegs (c.matAcc t f true) ws
      ((List.range c.cfgA.rows).flatMap (fun i => (List.range c.cfgA.cols).flatMap (accrdValue c t r (t.tile true f.a.toNat) i))) = .ok s2) :
    s.runMatrix t c = (.done none, s2.modTile t.entry.id true f.a (accrdLeft f)) ∧ s2.tasks = s.tasks := by
  rw [← matAcc_release c] at hw
  rw [← rowRanges_eq] at hm
  obtain ⟨hrun, ht⟩ := matWrite_ok hm hw { width := mmaWidth (fwFmt c.fw), count := c.cfgA.rows * c.cfgA.cols }
  have hl' : ¬ tLoc f = true := by simp [tLoc, mBit, hl]
  refine ⟨?_, ht⟩
  simp only [State.runMatrix, h, Cmd.fields_of_decode h rfl, if_neg hl', hfresh, accrdRows_eq hr, strideOf_eq, accrdLeft_eq]
  split
  · next e =>
    cases hrun.symm.trans e
    rfl
  · next hne e =>
    cases hrun.symm.trans e
    exact (hne rfl).elim
  · next hne => exact absurd hrun (hne _ _)

end

end Machine
end Sys2Proof
end

section
/-! SUPPORT. O27: ACCWR, TCVT and the versioned accesses. -/
namespace Sys2Proof
open Machine
namespace Machine

/-! ### ACCWR (R183) -/

theorem chunks_eq_map {α : Type} (k n : Nat) (l : List α) : chunks k n l = (List.range n).map (fun r => (l.drop (k * r)).take k) := by
  refine List.ext_getElem (by simp) fun r hr _ => ?_
  rw [getElem_chunks, List.getElem_map, List.getElem_range]

section
variable {s : State} {t : Task} {c : Cmd} {f : Fields} {bs : List Byte}

/-- The bits of an accumulator element that ACCWR makes of bytes of the word's format. -/
def accwrBits (c : Cmd) (bs : List Byte) (i j : Nat) : Nat :=
  let ty : FpType := if c.cfgD.width = 8 then .fp64 else .fp32
  let w := mmaWidth (fwFmt c.fw)
  ty.encode (roundTo ty.fmt ((fwType c.fw).decode (ofLE ((bs.drop (i * (c.cfgD.cols * w) + j * w)).take w))) (RMode.ofCode (fwRnd c.fw)) 0 (fwSat c.fw))

theorem accwrRows_eq (c : Cmd) (bs : List Byte) : accwrRows c.fw c.cfgD (chunks (c.cfgD.cols * mmaWidth (fwFmt c.fw)) c.cfgD.rows bs) =
    (List.range c.cfgD.rows).map (fun i => (List.range c.cfgD.cols).flatMap (fun j => leBytes c.cfgD.width (accwrBits c bs i j))) := by
  have hcut (i j : Nat) (hj : j < c.cfgD.cols) :
      (((bs.drop (c.cfgD.cols * mmaWidth (fwFmt c.fw) * i)).take (c.cfgD.cols * mmaWidth (fwFmt c.fw))).drop (mmaWidth (fwFmt c.fw) * j)).take
        (mmaWidth (fwFmt c.fw)) = (bs.drop (i * (c.cfgD.cols * mmaWidth (fwFmt c.fw)) + j * mmaWidth (fwFmt c.fw))).take (mmaWidth (fwFmt c.fw)) := by
    have hle := Nat.mul_le_mul_right (mmaWidth (fwFmt c.fw)) (Nat.succ_le_of_lt hj)
    rw [Nat.succ_mul] at hle
    rw [List.drop_take, List.take_take, List.drop_drop, Nat.mul_comm _ i, Nat.mul_comm _ j, Nat.min_eq_left (by omega)]
  rw [accwrRows, chunks_eq_map, List.map_map]
  refine List.map_congr_left fun i _ => ?_
  simp only [Function.comp_apply, chunks_eq_map, List.flatMap_map]
  refine List.flatMap_congr fun j hj => ?_
  rw [hcut i j (List.mem_range.mp hj)]
  rfl

/-- An accumulator tile that ACCWR has written. -/
def Tile.accumulatorFrom (x : Tile) (c : Cmd) (bs : List Byte) : Tile :=
  { x.written (tileData true ((List.range c.cfgD.rows).map (fun i => (List.range c.cfgD.cols).flatMap (fun j =>
      leBytes c.cfgD.width (accwrBits c bs i j))))) [] with accOvf := false, poison := false }

theorem runMatrix_accwr_hole (h : decode c.word = .accwr f) (hl : bitAt f.mod.toNat 6 = true)
    (hb : bs = (List.range c.cfgD.rows).flatMap (fun r => (t.hole f.a.toNat).read (r * rowStride f (c.cfgD.cols * mmaWidth (fwFmt c.fw)))
      (c.cfgD.cols * mmaWidth (fwFmt c.fw)))) :
    s.runMatrix t c = (.done none, s.modTile t.entry.id true f.d (fun x => x.accumulatorFrom c bs)) := by
  have hl' : tLoc f = true := hl
  have hrow (r : Nat) : ((t.hole f.a.toNat).read (r * rowStride f (c.cfgD.cols * mmaWidth (fwFmt c.fw))) (c.cfgD.cols * mmaWidth (fwFmt c.fw))).length =
    c.cfgD.cols * mmaWidth (fwFmt c.fw) := length_read ..
  have hcut := chunks_flatMap (l := List.range c.cfgD.rows) (fun r _ => hrow r) []
  rw [List.append_nil, ← hb, List.length_range] at hcut
  simp only [State.runMatrix, h, Cmd.fields_of_decode h rfl, if_pos hl', strideOf_eq, ← hcut, accwrRows_eq]
  rfl

theorem runMatrix_accwr_memory {s1 : State} (h : decode c.word = .accwr f) (hl : bitAt f.mod.toNat 6 = false) (hfresh : c.begun = none)
    (hb : BytesRead (c.matAcc t f false) ((List.range c.cfgD.rows).map (fun r =>
      (signedOf 64 c.maddr + (r * rowStride f (c.cfgD.cols * mmaWidth (fwFmt c.fw)) : Nat), c.cfgD.cols * mmaWidth (fwFmt c.fw)))) s bs s1) :
    ∃ s2 : State, s2.tasks = s.tasks ∧ s.runMatrix t c = (.done none, s2.modTile t.entry.id true f.d (fun x => x.accumulatorFrom c bs)) := by
  rw [← rowRanges_eq] at hb
  obtain ⟨s2, hr, ht⟩ := matRead_ok hb { width := mmaWidth (fwFmt c.fw), count := c.cfgD.rows * c.cfgD.cols }
  have hl' : ¬ tLoc f = true := by simp [tLoc, mBit, hl]
  refine ⟨s2, ht, ?_⟩
  simp only [State.runMatrix, h, Cmd.fields_of_decode h rfl, if_neg hl', hfresh, strideOf_eq]
  split
  · next e => cases hr.symm.trans e
  · next e =>
    cases hr.symm.trans e
    rw [accwrRows_eq]
    rfl

/-! ### TCVT (R181) -/

/-- The value of an accumulator element, and the scale of its row. -/
def tcvtValue (c : Cmd) (y : Tile) (i j : Nat) : FVal := (if c.cfgA.width = 8 then FpType.fp64 else .fp32).decode (y.elem true c.cfgA.width i j)
def tcvtScale (c : Cmd) (y : Tile) (i : Nat) : Nat :=
  if fwScale c.fw = 1 then scaleFor (amax ((List.range c.cfgA.cols).map (tcvtValue c y i))) (fwB8 c.fw) else 127
/-- The bits of an element that TCVT makes. -/
def tcvtBits (c : Cmd) (t : Task) (r : Tree) (y : Tile) (i j : Nat) : Nat :=
  wordRound c.fw ((tcvtValue c y i j).scale (127 - (tcvtScale c y i : Int))) (matrixRandom r.seed.toNat t.entry.ped c.conv (32 * i + j))

theorem map_zipIdx_map_range {α β : Type} (g : Nat → α) (h : α × Nat → β) (n : Nat) :
    (((List.range n).map g).zipIdx).map h = (List.range n).map (fun j => h (g j, j)) := by
  refine List.ext_getElem (by simp) fun j hj _ => ?_
  simp

/-- A multiplicand tile that TCVT has written. -/
def Tile.convertedFrom (x : Tile) (c : Cmd) (t : Task) (r : Tree) (y : Tile) : Tile :=
  { x.written (tileData false ((List.range c.cfgA.rows).map (fun i => (List.range c.cfgA.cols).flatMap (fun j =>
      leBytes c.cfgD.width (tcvtBits c t r y i j))))) (tileSide ((List.range c.cfgA.rows).map (fun i => [BitVec.ofNat 8 (tcvtScale c y i), 127]))) with
    poison := y.poison }

theorem runMatrix_tcvt {r : Tree} (h : decode c.word = .tcvt f) (hr : s.tree? t.entry.tree = some r) :
    s.runMatrix t c = (.done none, s.modTile t.entry.id false f.d (fun x => x.convertedFrom c t r (t.tile true f.a.toNat))) := by
  simp only [State.runMatrix, h, Cmd.fields_of_decode h rfl, roundings_eq hr, tcvtTile, map_zipIdx_map_range, List.map_map]
  simp only [Function.comp_def, List.flatMap_map]
  rfl

theorem convertedFrom_scale (x : Tile) (r : Tree) (y : Tile) {i : Nat} (hi : i < c.cfgA.rows) :
    (x.convertedFrom c t r y).scale i 0 = tcvtScale c y i % 256 ∧ (x.convertedFrom c t r y).scale i 1 = 127 := by
  have hrow : ((List.range c.cfgA.rows).map (fun i => [BitVec.ofNat 8 (tcvtScale c y i), 127])).getD i [] = [BitVec.ofNat 8 (tcvtScale c y i), 127] := by
    simp [List.getD_eq_getElem?_getD, hi]
  have hget {g : Nat} (hg : g < 2) := get_tileSide (rows := (List.range c.cfgA.rows).map (fun i => [BitVec.ofNat 8 (tcvtScale c y i), (127 : Byte)]))
    (r := i) (g := g) (fun z hz => by obtain ⟨i, -, rfl⟩ := List.mem_map.mp hz; exact le_rfl) (by rw [hrow]; exact hg) hg
  have h0 := hget (g := 0) (by decide)
  have h1 := hget (g := 1) (by decide)
  rw [hrow] at h0 h1
  exact ⟨(congrArg BitVec.toNat h0).trans (BitVec.toNat_ofNat ..), congrArg BitVec.toNat h1⟩

end

/-! ### TLD.v: one attempt (R171) -/

section
variable {task : Nat} {s : State} {t : Task} {c : Cmd} {rest : List Cmd} {f : Fields}

/-- The access of a versioned command: at the home slices, and outside the race filter (11 R287). -/
def versionAcc (c : Cmd) (t : Task) (f : Fields) (store : Bool) : Acc := { c.matAcc t f store with checked := false, scope := 4, order := 0 }

theorem runTldv_odd {h : List Byte} {s1 : State} (hr : s.homeRead (versionAcc c t f false) [(signedOf 64 c.maddr, 8), (signedOf 64 c.maddr + 12, 4)] = (.ok h, s1))
    (hodd : ofLE (h.take 8) % 2 = 1) : s.runTldv t c f = (tornOr c, s1.acquireAt t.cluster (field f.mod.toNat 3 1)) := by
  rw [← signExt_eq_signedOf] at hr
  unfold State.runTldv
  dsimp only
  split
  · next e => cases hr.symm.trans e
  · next e =>
    cases hr.symm.trans e
    exact if_pos hodd

theorem runTldv_even {h bs : List Byte} {s1 s2 : State}
    (hr : s.homeRead (versionAcc c t f false) [(signedOf 64 c.maddr, 8), (signedOf 64 c.maddr + 12, 4)] = (.ok h, s1)) (heven : ofLE (h.take 8) % 2 = 0)
    (hb : (s1.acquireAt t.cluster (field f.mod.toNat 3 1)).homeRead (versionAcc c t f false) [(signedOf 64 c.maddr + 64,
      descField h 8 1 * descField h 9 1 * descField h 10 1 + if bitAt (descField h 11 1) 0 then descField h 8 1 * ((descField h 9 1 + 31) / 32) else 0)]
        = (.ok bs, s2)) :
    s.runTldv t c f = if descField h 8 1 ≠ c.cfgD.rows ∨ descField h 9 1 ≠ c.cfgD.cols ∨ descField h 10 1 ≠ c.cfgD.width then
        (.done (some (cTILE_SHAPE, some c.maddr)), s2)
      else (.done none, s2.modTile t.entry.id (bitAt f.mod.toNat 7) f.d (fun x =>
        x.takenFrom (bitAt f.mod.toNat 7) c.cfgD (bitAt (descField h 11 1) 0) bs)) := by
  rw [← signExt_eq_signedOf] at hr hb
  unfold State.runTldv
  dsimp only
  split
  · next e => cases hr.symm.trans e
  · next e =>
    cases hr.symm.trans e
    rw [if_neg (by omega)]
    split
    · next e => cases hb.symm.trans e
    · next e =>
      cases hb.symm.trans e
      rfl

/-! ### TST.all: one attempt (R172) -/

/-- What TST.all writes after its header. -/
def allBody (t : Task) (c : Cmd) (f : Fields) : List Byte :=
  (t.tile (bitAt f.mod.toNat 7) f.a.toNat).bytes (bitAt f.mod.toNat 7) c.cfgA
    ++ if bitAt f.mod.toNat 4 then (t.tile (bitAt f.mod.toNat 7) f.a.toNat).scaleBytes c.cfgA else []

/-- The header that TST.all writes: VERSION two higher, the format word and the shape. -/
def allHead (c : Cmd) (f : Fields) (v : Nat) : List Byte :=
  leBytes 8 (v + 2) ++ leBytes 4 c.fw ++ [BitVec.ofNat 8 c.cfgA.rows, BitVec.ofNat 8 c.cfgA.cols, BitVec.ofNat 8 c.cfgA.width,
    if bitAt f.mod.toNat 4 then 1 else 0] ++ List.replicate 48 0

section
variable {version segs : List Seg} {s1 s2 s3 : State} {h : List Byte}
  (hv : s.mapAll (versionAcc c t f true) { r := true, w := true } [(signedOf 64 c.maddr, 8)] = (.ok version, s1))
include hv

theorem runTstAll_unmapped {va : Nat}
    (hm : s1.mapAll (versionAcc c t f true) { w := true } [(signedOf 64 c.maddr, 64 + (allBody t c f).length)] = (.error (.fault va), s2)) :
    s.runTstAll t c f = (.done (some (cMEM_FAULT, some va)), s2) := by
  rw [← signExt_eq_signedOf] at hv hm
  simp only [State.runTstAll, Tile.flatten_rowsOf, Tile.flatten_scalesOf]
  split
  · next e => cases hv.symm.trans e
  · next e =>
    cases hv.symm.trans e
    split
    · next e =>
      cases hm.symm.trans e
      rfl
    · next e => cases hm.symm.trans e

variable (hm : s1.mapAll (versionAcc c t f true) { w := true } [(signedOf 64 c.maddr, 64 + (allBody t c f).length)] = (.ok segs, s2))
  (hr : (s2.homeSegs segs).readSegs (versionAcc c t f true) version = (.ok h, s3))
include hm hr

theorem runTstAll_odd (hodd : ofLE h % 2 = 1) : s.runTstAll t c f = (tornOr c, s3) := by
  rw [← signExt_eq_signedOf] at hv hm
  simp only [State.runTstAll, Tile.flatten_rowsOf, Tile.flatten_scalesOf]
  split
  · next e => cases hv.symm.trans e
  · next e =>
    cases hv.symm.trans e
    split
    · next e => cases hm.symm.trans e
    · next e =>
      cases hm.symm.trans e
      split
      · next e => cases hr.symm.trans e
      · next e =>
        cases hr.symm.trans e
        exact if_pos hodd

theorem runTstAll_even {s4 : State} (heven : ofLE h % 2 = 0)
    (hw : ((s3.releaseAt t.cluster (field f.mod.toNat 3 1)).acquireAt t.cluster (field f.mod.toNat 3 1)).writeSegs (versionAcc c t f true) segs
      (allHead c f (ofLE h) ++ allBody t c f) = .ok s4) :
    s.runTstAll t c f = (.done none, s4.modTile t.entry.id (bitAt f.mod.toNat 7) f.a (fun x => { x with dirty := false })) := by
  have hbit : BitVec.ofNat 8 (b2n (tSc f)) = if bitAt f.mod.toNat 4 then 1 else 0 := by
    unfold tSc mBit
    cases bitAt f.mod.toNat 4 <;> rfl
  rw [← signExt_eq_signedOf] at hv hm
  simp only [State.runTstAll, Tile.flatten_rowsOf, Tile.flatten_scalesOf]
  split
  · next e => cases hv.symm.trans e
  · next e =>
    cases hv.symm.trans e
    split
    · next e => cases hm.symm.trans e
    · next e =>
      cases hm.symm.trans e
      split
      · next e => cases hr.symm.trans e
      · next e =>
        cases hr.symm.trans e
        rw [if_neg (by omega), hbit]
        split
        · next e => cases hw.symm.trans e
        · next e =>
          cases hw.symm.trans e
          rfl

end

end

end Machine
end Sys2Proof
end

section
/-! SUPPORT. O27: MMA and MMAS. -/
namespace Sys2Proof
open Machine
namespace Machine

/-! ### One element (R174 to R176) -/

theorem accumulate_eq_mmaSum (fmt : Nat) (v : FVal) (ps : List (Nat × FVal)) (scale : Nat → Option Int) :
    accumulate fmt v ps scale = mmaSum fmt v ps scale := by
  obtain rfl | rfl | h | h : fmt = 0 ∨ fmt = 1 ∨ (fmt = 2 ∨ fmt = 3) ∨ 4 ≤ fmt := by omega
  · rfl
  · rfl
  · have hf : (fun (p : Nat × FVal) g => p.1 / 8 == g) = fun p g => decide (p.1 / 8 = g) := rfl
    rw [accumulate, mmaSum, if_neg (by omega), if_pos (by omega), if_neg (by omega), if_neg (by omega), if_pos h]
    congr 1
    refine congrArg (fun step => List.foldl step v [0, 1, 2, 3]) (funext₂ fun v g => ?_)
    simp only [List.map_eq_nil_iff]
    split
    · next e => exact (if_pos e).symm
    · next e => exact (if_neg e).symm
  · rw [accumulate, mmaSum, if_neg (by omega), if_neg (by omega), if_neg (by omega), if_neg (by omega), if_neg (by omega)]
    rfl

theorem chunkScale_eq_mmaScale (fw a b : Nat) :
    chunkScale (if fwScale fw = 1 then a else 127) (if fwScale fw = 1 then b else 127) = mmaScale fw a b := by
  unfold mmaScale chunkScale
  by_cases h : fwScale fw = 1
  · simp only [h, if_true, ne_eq, not_true_eq_false, if_false]
  · simp only [h, if_false, ne_eq, not_false_eq_true, if_true]
    rfl

section
variable (t : Task) (c : Cmd) (f : Fields)

/-- The element (i, j) of an MMA's result as a value, over the products that `take` takes, and whether it overflows. -/
def mmaResult (take : Nat → Nat → Nat → Bool) (i j : Nat) : FVal × Bool :=
  mmaSum (fwFmt c.fw) ((mmaAcc (fwFmt c.fw)).decode (Sys2Proof.accOf t f.c c.cfgD.width i j))
    (((List.range (mmaK f c.cfgA c.cfgB)).filter (take i j)).map (fun q => (q, (multOf t c.fw f.a false i q).mul (multOf t c.fw f.b true j q))))
    (fun g => mmaScale c.fw (scaleOf t f.a i g) (scaleOf t f.b j g))

/-- The bits of the result, and whether an element overflows. -/
def mmaRows (take : Nat → Nat → Nat → Bool) : List (List Nat) :=
  (List.range c.cfgD.rows).map (fun i => (List.range c.cfgD.cols).map (fun j => (mmaAcc (fwFmt c.fw)).encode (mmaResult t c f take i j).1))
def mmaOver (take : Nat → Nat → Nat → Bool) : Bool :=
  (List.range c.cfgD.rows).any (fun i => (List.range c.cfgD.cols).any (fun j => (mmaResult t c f take i j).2))

/-- A multiplicand that a field names: none, of zeros, or a tile. -/
theorem mult_cases (t : Task) (fw : Nat) (n : BitVec 9) :
    (t.mult n = none ∧ (∀ isB i q, multOf t fw n isB i q = .fin false 0 0) ∧ ∀ i g, scaleOf t n i g = 127)
    ∨ ∃ x, t.mult n = some x ∧ (∀ isB i q, multOf t fw n isB i q = mmaDecode fw isB (x.elem false (mmaWidth (fwFmt fw)) i q))
        ∧ ∀ i g, scaleOf t n i g = x.scale i g := by
  unfold Task.mult multOf scaleOf
  by_cases h : n = 0
  · exact .inl ⟨if_pos h, fun _ _ _ => if_pos h, fun _ _ => if_pos h⟩
  · exact .inr ⟨_, if_neg h, fun _ _ _ => if_neg h, fun _ _ => if_neg h⟩

theorem mmaTile_eq (take : Nat → Nat → Nat → Bool) :
    mmaTile c.fw c.cfgD.rows c.cfgD.cols (mmaK f c.cfgA c.cfgB) (t.mult f.a) (t.mult f.b) (t.accBits f.c c.cfgD.width) take =
      (mmaRows t c f take, mmaOver t c f take) := by
  have hacc (i j : Nat) : t.accBits f.c c.cfgD.width i j = Sys2Proof.accOf t f.c c.cfgD.width i j := rfl
  obtain ⟨ha, ha1, ha2⟩ | ⟨x, ha, ha1, ha2⟩ := mult_cases t c.fw f.a <;> obtain ⟨hb, hb1, hb2⟩ | ⟨y, hb, hb1, hb2⟩ := mult_cases t c.fw f.b <;>
    simp only [mmaTile, mmaRows, mmaOver, mmaResult, ha, ha1, ha2, hb, hb1, hb2, chunkScale_eq_mmaScale, accumulate_eq_mmaSum, hacc, List.map_map,
      List.any_map, Function.comp_def]

/-- Only the products within the shape count. -/
theorem mmaTile_congr {take take' : Nat → Nat → Nat → Bool}
    (h : ∀ i j q, i < c.cfgD.rows → j < c.cfgD.cols → q < mmaK f c.cfgA c.cfgB → take i j q = take' i j q) :
    mmaRows t c f take = mmaRows t c f take' ∧ mmaOver t c f take = mmaOver t c f take' := by
  have hres {i j : Nat} (hi : i < c.cfgD.rows) (hj : j < c.cfgD.cols) : mmaResult t c f take i j = mmaResult t c f take' i j := by
    unfold mmaResult
    rw [List.filter_congr fun q hq => h i j q hi hj (List.mem_range.mp hq)]
  constructor
  · refine List.map_congr_left fun i hi => List.map_congr_left fun j hj => ?_
    rw [hres (List.mem_range.mp hi) (List.mem_range.mp hj)]
  · rw [Bool.eq_iff_iff, mmaOver, mmaOver]
    simp only [List.any_eq_true, List.mem_range]
    refine exists_congr fun i => and_congr_right fun hi => exists_congr fun j => and_congr_right fun hj => ?_
    rw [hres hi hj]

theorem mmaOver_iff (take : Nat → Nat → Nat → Bool) :
    mmaOver t c f take = true ↔ ∃ i j, i < c.cfgD.rows ∧ j < c.cfgD.cols ∧ (mmaResult t c f take i j).2 = true := by
  simp only [mmaOver, List.any_eq_true, List.mem_range]
  exact ⟨fun ⟨i, hi, j, hj, h⟩ => ⟨i, j, hi, hj, h⟩, fun ⟨i, j, hi, hj, h⟩ => ⟨i, hi, j, hj, h⟩⟩

end

/-! ### The steps of the sparse sequencer (R180) -/

theorem mem_blockPairs {m n i j : Nat} (hi : i < m) (hj : j < n) : (i / 8, j / 8) ∈ blockPairs m n := by
  simp only [blockPairs, List.mem_flatMap, List.mem_map, List.mem_range, ceilDiv]
  exact ⟨i / 8, by omega, j / 8, by omega, rfl⟩

/-- The steps before a pair's first and those of the pair are steps of the command. -/
theorem stepsBefore_add_le (fmt : Nat) {m n kk : Nat} (bm : List W64) {p : Nat × Nat} (hp : p ∈ blockPairs m n) :
    stepsBefore m n kk bm p + (pairSteps bm kk p).length ≤ (sparseSteps fmt m n kk bm).length := by
  have hlen : (sparseSteps fmt m n kk bm).length = ((blockPairs m n).map (fun q => (pairSteps bm kk q).length)).sum := by
    simp [sparseSteps, List.length_flatMap]
  rw [hlen, stepsBefore]
  generalize blockPairs m n = l at hp
  induction l with
  | nil => cases hp
  | cons q l ih =>
    by_cases h : q = p
    · subst h
      simp
    · have hp' : p ∈ l := by
        obtain rfl | hp := List.mem_cons.mp hp
        · exact absurd rfl h
        · exact hp
      have := ih hp'
      rw [List.takeWhile_cons_of_pos (by simpa using h), List.map_cons, List.map_cons, List.sum_cons, List.sum_cons]
      omega

/-- All steps take the products that both bitmaps take. -/
theorem takenIn_all (fmt : Nat) {m n kk i j q : Nat} (bm : List W64) (hi : i < m) (hj : j < n) (hq : q < kk) :
    takenIn m n kk bm 0 (sparseSteps fmt m n kk bm).length i j q =
      ((bm.getD (i / 8) 0).getLsbD q && (bm.getD (4 + j / 8) 0).getLsbD q) := by
  have hle := stepsBefore_add_le fmt (kk := kk) bm (mem_blockPairs hi hj)
  have hmem : (pairSteps bm kk (i / 8, j / 8)).contains q = ((bm.getD (i / 8) 0).getLsbD q && (bm.getD (4 + j / 8) 0).getLsbD q) := by
    rw [Bool.eq_iff_iff, List.contains_iff_mem, pairSteps, List.mem_filter, List.mem_range, bitAt_eq_testBit, bitAt_eq_testBit]
    exact and_iff_right hq
  rw [takenIn, Nat.zero_sub, List.drop_zero, List.take_of_length_le (by omega), hmem]

/-! ### The command -/

section
variable {s : State} {t : Task} {c : Cmd} {f : Fields}

theorem mmasPart_eq (t : Task) (c : Cmd) (f : Fields) : t.mmasPart c f 0 (c.steps f).length =
    (mmaRows t c f (takenIn c.cfgD.rows c.cfgD.cols (mmaK f c.cfgA c.cfgB) c.bitmaps 0 (c.steps f).length),
     mmaOver t c f (takenIn c.cfgD.rows c.cfgD.cols (mmaK f c.cfgA c.cfgB) c.bitmaps 0 (c.steps f).length)) := by
  rw [← mmaTile_eq]
  simp only [Task.mmasPart, Nat.not_lt_zero, decide_false, Bool.false_and, Bool.false_eq_true, if_false]

/-- What the products of an MMA, or those of an MMAS that its bitmaps take, leave in the destination. -/
theorem runMatrix_mma_eq (sparse : Bool) (h : decode c.word = if sparse then .mmas f else .mma f) (hstep : c.step = 0) {take : Nat → Nat → Nat → Bool}
    (htake : ∀ i j q, i < c.cfgD.rows → j < c.cfgD.cols → q < mmaK f c.cfgA c.cfgB →
      take i j q = (!sparse || ((c.bitmaps.getD (i / 8) 0).getLsbD q && (c.bitmaps.getD (4 + j / 8) 0).getLsbD q))) :
    s.runMatrix t c = s.mmaDone t c f (mmaRows t c f take) (mmaOver t c f take) := by
  cases sparse with
  | false =>
    obtain ⟨h1, h2⟩ := mmaTile_congr t c f (take := take) (take' := fun _ _ _ => true) fun i j q hi hj hq => htake i j q hi hj hq
    rw [runMatrix_mma s t h, State.runMma, mmaTile_eq, h1, h2]
  | true =>
    obtain ⟨h1, h2⟩ := mmaTile_congr t c f (take := take)
      (take' := takenIn c.cfgD.rows c.cfgD.cols (mmaK f c.cfgA c.cfgB) c.bitmaps 0 (c.steps f).length)
      fun i j q hi hj hq => (htake i j q hi hj hq).trans (takenIn_all (fwFmt c.fw) c.bitmaps hi hj hq).symm
    rw [runMatrix_mmas s t h, State.runMmas, hstep, mmasPart_eq, h1, h2]

/-- The destination tile of an MMA. -/
def Tile.accumulated (y : Tile) (t : Task) (c : Cmd) (f : Fields) (rows : List (List Nat)) (ovf : Bool) : Tile :=
  { y.written (tileData true (rows.map (fun r => r.flatMap (leBytes c.cfgD.width)))) [] with
    accOvf := (decide (f.c ≠ 0) && (t.tile true f.c.toNat).accOvf) || ovf
    poison := (decide (f.a ≠ 0) && (t.tile false f.a.toNat).poison) || (decide (f.b ≠ 0) && (t.tile false f.b.toNat).poison)
      || (decide (f.c ≠ 0) && (t.tile true f.c.toNat).poison) }

theorem mmaDone_eq (rows : List (List Nat)) (ovf : Bool) : s.mmaDone t c f rows ovf =
    (.done (if ovf ∧ c.cfgD.ovt then some (cACC_OVF, none) else none), s.modTile t.entry.id true f.d (fun y => y.accumulated t c f rows ovf)) := by
  unfold State.mmaDone Tile.accumulated Task.mult
  by_cases ha : f.a = 0#9 <;> by_cases hb : f.b = 0#9 <;> by_cases hc : f.c = 0#9 <;> simp [ha, hb, hc]

end

end Machine
end Sys2Proof
end

section
/-! SUPPORT. O27: the matrix engine. -/
namespace Sys2Proof
open Machine
namespace Machine

/-! ### Contents of a tile after a command -/

theorem elem_of_no_data {x : Tile} (h : x.data = []) (acc : Bool) (w r j : Nat) : x.elem acc w r j = 0 := by
  unfold Tile.elem
  split
  · rw [h, Sparse.read_nil, ofLE_replicate]
  · rfl

/-- An element of a tile written row by row. -/
theorem element_written {x : Tile} {acc : Bool} {w m n : Nat} {bits : Nat → Nat → Nat} (hv : x.valid = true)
    (hd : x.data = tileData acc ((List.range m).map (fun i => (List.range n).flatMap (fun j => leBytes w (bits i j)))))
    (hw : n * w ≤ if acc then 256 else 64) {i j : Nat} (hi : i < m) (hj : j < n) : Element x acc w i j (bits i j) :=
  ⟨hv, by rw [hd]; exact read_tileData hw bits hi hj⟩

theorem accumulated_data (y : Tile) (t : Task) (c : Cmd) (f : Fields) (take : Nat → Nat → Nat → Bool) (ovf : Bool) :
    (y.accumulated t c f (mmaRows t c f take) ovf).data = tileData true ((List.range c.cfgD.rows).map (fun i =>
      (List.range c.cfgD.cols).flatMap (fun j => leBytes c.cfgD.width ((mmaAcc (fwFmt c.fw)).encode (mmaResult t c f take i j).1)))) := by
  change tileData true ((mmaRows t c f take).map _) = _
  simp only [mmaRows, List.map_map, Function.comp_def, List.flatMap_map]

/-! ### A pigeonhole after a command -/

theorem hole_of_holes {t t' : Task} {n : Nat} {g : Hole → Hole} (h : t'.holes = updAt t.holes n g) (hn : n < t.holes.length) :
    t'.hole n = g (t.hole n) := by
  unfold Task.hole
  rw [h, getD_updAt_same _ _ _ _ hn]

theorem Hole.givesBack_wasRead (h : Hole) : GivesBack false h h.wasRead := ⟨rfl, fun _ => ⟨rfl, rfl⟩, fun e => absurd e Bool.false_ne_true⟩

/-- The pigeonhole that a load has read. -/
theorem givesBack_of_holes {t t' : Task} {n : Nat} (h : t'.holes = updAt t.holes n Hole.wasRead) (hn : n < t.holes.length) :
    GivesBack false (t.hole n) (t'.hole n) := by
  rw [hole_of_holes h hn]
  exact Hole.givesBack_wasRead _

theorem Hole.filled_stored (h : Hole) (stride : Nat) (rows : List (List Byte)) (side : List Byte) :
    (h.stored stride rows side).filled.data = (h.stored stride rows side).data ∧ (h.stored stride rows side).filled.state = filledState h := by
  have e := h.stored_state stride rows side
  unfold Hole.filled filledState
  rw [e]
  split
  · exact ⟨rfl, rfl⟩
  · exact ⟨rfl, e⟩

/-- The pigeonhole that a store has filled. -/
theorem stored_of_holes {t t' : Task} {n stride : Nat} {rows : List (List Byte)} {side : List Byte}
    (h : t'.holes = updAt (updAt t.holes n (fun h => h.stored stride rows side)) n Hole.filled) (hn : n < t.holes.length) :
    (t'.hole n).data = ((t.hole n).stored stride rows side).data ∧ (t'.hole n).state = filledState (t.hole n) := by
  have hu : (t.modHole n (fun h => h.stored stride rows side)).hole n = (t.hole n).stored stride rows side :=
    hole_of_holes (g := fun h => h.stored stride rows side) rfl hn
  rw [hole_of_holes (t := t.modHole n (fun h => h.stored stride rows side)) h (by rwa [Task.modHole, length_updAt]), hu]
  exact Hole.filled_stored ..

/-! ### Rows of one length in a pigeonhole -/

section
variable (h : Hole) {n len stride : Nat} {g : Nat → List Byte} (side : List Byte)

theorem stored_rows (hg : ∀ r, (g r).length = len) (hs : len ≤ stride) {r k : Nat} (hr : r < n) (hk : k < len) :
    Sparse.get 0 (h.stored stride ((List.range n).map g) side).data (r * stride + k) = (g r).getD k 0 := by
  have hr' : r < ((List.range n).map g).length := by simpa using hr
  have e : ((List.range n).map g)[r] = g r := by rw [List.getElem_map, List.getElem_range]
  rw [Hole.get_stored_row h side ?_ hr' (by rwa [e, hg]), e]
  intro x hx
  obtain ⟨i, -, rfl⟩ := List.mem_map.mp hx
  rwa [hg]

theorem stored_side {k : Nat} (hk : k < side.length) :
    Sparse.get 0 (h.stored stride ((List.range n).map g) side).data (n * stride + k) = side.getD k 0 := by
  have e := Hole.get_stored_side h (stride := stride) (rows := (List.range n).map g) side hk
  rwa [List.length_map, List.length_range] at e

end

/-- Byte k of the j-th of numbers of one width. -/
theorem getD_words (w : Nat) (g : Nat → Nat) {n j k : Nat} (hj : j < n) (hk : k < w) :
    ((List.range n).flatMap (fun j => leBytes w (g j))).getD (j * w + k) 0 = (leBytes w (g j)).getD k 0 := by
  have e := take_drop_flatMap (g := fun j => leBytes w (g j)) (w := w) (l := List.range n) (fun _ _ => length_leBytes ..)
    (by rwa [List.length_range]) []
  rw [List.append_nil, List.getElem_range] at e
  rw [← getD_chunk hk, e]

/-! ### The head of q4 ends with a fault, or makes another attempt -/

/-- The first command of q4 has made an attempt. -/
def Task.nextAttempt (t : Task) : Task := { t with q4 := match t.q4 with | [] => [] | x :: xs => { x with step := x.step + 1 } :: xs }

section
variable {task : Nat} {t : Task} {c : Cmd} {rest : List Cmd} {s : State} (H : MatrixHead task t c rest s)
include H

/-- A command that fills a pigeonhole, and changes a tile. -/
theorem performed_store {i : Instr} {f : Fields} (hi : decode c.word = i) (hf : i.fields? = some f) {n : Nat} {w : Hole → Hole} {acc : Bool} {m : BitVec 9}
    {g : Tile → Tile} (hrun : s.runMatrix t c = (.done none, (s.modTask t.entry.id (fun u => u.modHole n w)).modTile t.entry.id acc m g)) :
    ∃ s' t', exec (.matrixCommandPerformed task) s = .next s' ∧ s'.task? task = some t' ∧ t'.q4.length = rest.length ∧ t'.fault = t.fault
      ∧ t'.tile acc m.toNat = g (t.tile acc m.toNat) ∧ t'.holes = holesAfter i f (updAt t.holes n w) ∧ s'.mem = s.mem := by
  have found1 : (s.modTask t.entry.id (fun u => u.modHole n w)).task? task = some (t.modHole n w) := by
    rw [State.id_of_task? H.found]
    exact State.found_modTask H.found (g := fun u => u.modHole n w) fun _ => rfl
  exact performed_tile H hi hf found1 rfl hrun

/-- The record of a command's fault, none for a command that has none. -/
def Task.faultAfter (t : Task) (c : Cmd) : Option (Nat × Option Nat) → Option ErrRec
  | none => t.fault
  | some (cause, addr) => (t.recordFault cause c.ord addr).fault

/-- A command whose fault spoils no tile. -/
theorem performed_ends {s1 : State} {t1 : Task} {i : Instr} {f : Fields} {fault : Option (Nat × Option Nat)} (hi : decode c.word = i)
    (hf : i.fields? = some f) (hspoil : spoilTile c s1 t = s1) (hrun : s.runMatrix t c = (.done fault, s1)) (found1 : s1.task? task = some t1)
    (hq : t1.q4 = t.q4) (hfault : t1.fault = t.fault) :
    ∃ s' t', exec (.matrixCommandPerformed task) s = .next s' ∧ s'.task? task = some t' ∧ t'.q4.length = rest.length
      ∧ t'.fault = t.faultAfter c fault ∧ (∀ acc n, t'.tile acc n = t1.tile acc n) ∧ s'.mem = s1.mem := by
  have hlen : t1.q4.length - 1 = rest.length := by rw [hq, H.head, List.length_cons, Nat.add_sub_cancel]
  cases fault with
  | none =>
    obtain ⟨s', t', he, L⟩ := performed H hi hf hrun found1
    exact ⟨s', t', he, L.found, L.queue.trans hlen, L.fault.trans hfault, L.tile, L.memory⟩
  | some x =>
    obtain ⟨cause, addr⟩ := x
    obtain ⟨s', t', he, L⟩ := performed_fault H hi hf hrun (by rwa [hspoil])
    refine ⟨s', t', he, L.found, L.queue.trans hlen, L.fault.trans ?_, L.tile, L.memory.trans (by rw [hspoil])⟩
    simp only [Task.faultAfter, Task.recordFault, hfault]

/-- A TLD that faults leaves its tile POISON. -/
theorem performed_tld_fault {s1 : State} {f : Fields} {cause : Nat} {addr : Option Nat} (hi : decode c.word = .tld f)
    (hrun : s.runMatrix t c = (.done (some (cause, addr)), s1)) (ht : s1.tasks = s.tasks) (hnone : t.fault = none) :
    ∃ s' t', exec (.matrixCommandPerformed task) s = .next s' ∧ s'.task? task = some t' ∧ t'.q4.length = rest.length
      ∧ t'.fault = some { cause := cause, ord := c.ord, addr := addr } ∧ (t'.tile (bitAt f.mod.toNat 7) f.d.toNat).poison = true := by
  have hspoil : spoilTile c s1 t = s1.modTile t.entry.id (bitAt f.mod.toNat 7) f.d Tile.spoilt := by
    simp only [spoilTile, hi, Cmd.fields_of_decode hi rfl]
    rfl
  have found1 : (spoilTile c s1 t).task? task = some (t.modTile (bitAt f.mod.toNat 7) f.d.toNat Tile.spoilt) := by
    rw [hspoil, State.id_of_task? H.found]
    exact State.found_modTask ((State.task?_of_tasks ht task).trans H.found) fun u => u.modTile_id ..
  obtain ⟨s', t', he, L⟩ := performed_fault H hi rfl hrun found1
  refine ⟨s', t', he, L.found, ?_, L.fault.trans ?_, ?_⟩
  · rw [L.queue]
    change (t.modTile _ _ _).q4.length - 1 = _
    rw [Task.modTile_q4, H.head, List.length_cons, Nat.add_sub_cancel]
  · simp only [Task.recordFault, Task.modTile_fault, hnone]
  · rw [L.tile]
    change ((t.modTile _ _ _).tile _ _).poison = true
    rw [Task.tile_modTile]
    rfl

/-- A versioned command that found its object unstable tries again. -/
theorem performed_again {s1 : State} (hrun : s.runMatrix t c = (.again, s1)) (ht : s1.tasks = s.tasks) :
    ∃ s', exec (.matrixCommandPerformed task) s = .next s' ∧ s'.task? task = some { t with q4 := { c with step := c.step + 1 } :: rest }
      ∧ s'.mem = s1.mem := by
  have found1 : s1.task? task = some t := (State.task?_of_tasks ht task).trans H.found
  have he : s.performMatrix t c = s1.modTask t.entry.id Task.nextAttempt := by
    rw [State.performMatrix, hrun]
    rfl
  refine ⟨_, (exec_performed H).trans (congrArg _ he), ?_, rfl⟩
  rw [State.id_of_task? H.found, State.found_modTask found1 (g := Task.nextAttempt) fun _ => rfl, Task.nextAttempt, H.head]

end

theorem tornOr_again {c : Cmd} (h : c.step < 64) : tornOr c = .again := if_neg (by omega)
theorem tornOr_torn {c : Cmd} (h : 64 ≤ c.step) : tornOr c = .done (some (cTILE_TORN, some c.maddr)) := if_pos h

theorem spoilTile_tst {c : Cmd} {f : Fields} (h : decode c.word = .tst f) (s : State) (t : Task) : spoilTile c s t = s := by
  simp only [spoilTile, h]

theorem spoilTile_mma {c : Cmd} {f : Fields} {sparse : Bool} (h : decode c.word = if sparse then .mmas f else .mma f) (s : State) (t : Task) :
    spoilTile c s t = s := by
  cases sparse <;> simp only [spoilTile, h, Bool.false_eq_true, if_true, if_false]

/-! ### The arbiter (R164) -/

theorem exec_headAging {s : State} {task : Nat} {t : Task} {c : Cmd} (found : s.task? task = some t) (head : s.q4Head t = some c) (aged : s.agedHead t = true)
    (chosen : s.arbiterChoice t.cluster = some t) :
    exec (.matrixHeadAging task) s = .next ((s.modCluster t.cluster (fun k => { k with table := k.table ++ [(task, c.ord)] })).startMatrix task) := by
  change execMatrixHeadAging task s = _
  have hid : t.entry.id = task := State.id_of_task? found
  subst hid
  simp [execMatrixHeadAging, found, aged, chosen, State.arbitrate, head]

end Machine

/-- Settles O27: each command by what `runMatrix` does with it, and what the end of a command leaves of its task by `performed_tile` and its like. -/
theorem matrixEngine : Obligations.MatrixEngine := by
  unfold Obligations.MatrixEngine
  refine ⟨⟨?tzero, ?cleared, ?mma, ?aging⟩, ?tld, ?tst, ?tcvt, ?accrd, ?tldv, ?tstAll, ?accwr⟩
  case tzero =>
    intro s task t c rest f H h
    obtain ⟨s', t', he, found, hq, hfault, htile, -, hmem⟩ := performed_tile H h rfl H.found rfl (runMatrix_tzero s t h)
    refine ⟨s', t', he, found, hq, ?_, hfault, hmem⟩
    rw [htile]
    exact ⟨rfl, rfl, rfl, rfl, fun r j => elem_of_no_data rfl .., fun r g => rfl⟩
  case cleared =>
    intro s task t c rest f H h
    obtain ⟨i, hi, hf, hrun⟩ : ∃ i, decode c.word = i ∧ i.fields? = some f
        ∧ s.runMatrix t c = (.done none, s.modTile t.entry.id (bitAt f.mod.toNat 7) f.d Tile.cleared) := by
      obtain h | h := h
      · exact ⟨_, h, rfl, runMatrix_tcfg s t h⟩
      · exact ⟨_, h, rfl, runMatrix_trel s t h⟩
    obtain ⟨s', t', he, found, hq, -, htile, -, hmem⟩ := performed_tile H hi hf H.found rfl hrun
    refine ⟨s', t', he, found, hq, ?_, hmem⟩
    rw [htile]
    exact ⟨rfl, rfl, rfl, rfl⟩
  case mma =>
    intro s task t c rest f sparse H h hstep hok k ty taken result anyOver
    have hi : ∃ i, decode c.word = i ∧ i.fields? = some f := ⟨_, h, by cases sparse <;> rfl⟩
    obtain ⟨i, hi, hf⟩ := hi
    have hrun := runMatrix_mma_eq (s := s) (t := t) sparse h hstep (take := taken) fun _ _ _ _ _ _ => rfl
    have hover : mmaOver t c f taken = true ↔ anyOver := mmaOver_iff t c f taken
    rw [mmaDone_eq] at hrun
    have found1 : (s.modTile t.entry.id true f.d (fun y => y.accumulated t c f (mmaRows t c f taken) (mmaOver t c f taken))).task? task = some (t.modTile true
        f.d.toNat (fun y => y.accumulated t c f (mmaRows t c f taken) (mmaOver t c f taken))) := by
      rw [State.id_of_task? H.found]
      exact State.found_modTask H.found fun u => u.modTile_id ..
    obtain ⟨s', t', he, found, hq, hfault, htile, hmem⟩ := performed_ends H hi hf (spoilTile_mma h ..) hrun found1 (t.modTile_q4 ..) (t.modTile_fault ..)
    refine ⟨s', t', he, found, hq, ?_, fun ho hovt hnone => ?_, fun hno => ?_, hmem⟩
    · rw [htile, Task.tile_modTile]
      refine ⟨rfl, rfl, fun i j hi hj => ?_, ?_, ?_⟩
      · exact element_written (bits := fun i j => ty.encode (result i j).1) rfl (accumulated_data ..) (TileCfg.rowBytes_le hok) hi hj
      · simp [Tile.accumulated, hover]
      · simp [Tile.accumulated, or_assoc]
    · rw [hfault, if_pos ⟨hover.mpr ho, hovt⟩]
      simp only [Task.faultAfter, Task.recordFault, hnone]
      rfl
    · rw [hfault, if_neg]
      · rfl
      · rintro ⟨ho, hovt⟩
        obtain hno | hno := hno
        · exact hno (hover.mp ho)
        · rw [hno] at hovt
          cases hovt
  case aging =>
    intro s task t c found head aged chosen
    refine ⟨_, exec_headAging found head aged chosen, ?_, State.startMatrix_mem ..⟩
    rw [State.cluster_of_clusters (State.startMatrix_clusters ..), State.cluster_modCluster_same]
  case tld =>
    intro s task t c rest f bs H h hv acc row stride side hok hhole hmemory hlen
    obtain ⟨s1, ht, hrun⟩ : ∃ s1 : State, s1.tasks = s.tasks ∧ s.runMatrix t c = (.done none, s1.modTile t.entry.id acc f.d (fun x =>
        x.takenFrom acc c.cfgD (bitAt f.mod.toNat 4) bs)) := by
      rw [runMatrix_tld s t h hv]
      cases hl : bitAt f.mod.toNat 6 with
      | true => exact ⟨s, rfl, runTld_hole hl (hhole hl)⟩
      | false =>
        obtain ⟨s1, hb⟩ := hmemory hl
        exact runTld_memory hl H.fresh hb
    obtain ⟨s', t', he, found, hq, hfault, htile, hholes, -⟩ := performed_tile H h rfl ((State.task?_of_tasks ht task).trans H.found) rfl hrun
    refine ⟨s', t', he, found, hq, hfault, ?_, fun hl hn => ?_⟩
    · rw [htile]
      exact takenFrom_spec _ hok hlen
    · have hl' : tLoc f = true := hl
      rw [holesAfter, hl'] at hholes
      exact givesBack_of_holes hholes hn
  case tst =>
    intro s task t c rest f H h hv acc row stride x el bs side hok hstride
    refine ⟨fun hl hn => ?_, fun ws s1 s2 hl hm hw => ?_⟩
    · have hl' : tLoc f = true := hl
      obtain ⟨s', t', he, found, hq, hfault, htile, hholes, hmem⟩ := performed_store H h rfl
        ((runMatrix_tst s t h hv).trans (runTst_hole hl))
      rw [holesAfter, hl'] at hholes
      obtain ⟨hdata, hstate⟩ := stored_of_holes hholes hn
      rw [Tile.rowsOf_eq] at hdata
      refine ⟨s', t', he, found, hq, hfault, fun r k hr hk => ?_, fun k hk => ?_, hstate, by rw [htile], hmem⟩
      · refine (congrArg (fun m => Sparse.get 0 m (r * stride + k)) hdata).trans
          ((stored_rows _ _ (fun r => by rw [List.length_map, List.length_range]) hstride hr hk).trans ?_)
        rw [List.getD_eq_getElem _ _ (by rw [List.length_map, List.length_range]; exact hk), List.getElem_map, List.getElem_range]
        rfl
      · rw [hdata]
        exact stored_side _ _ hk
    · obtain ⟨hrun, ht⟩ := runTst_memory hl H.fresh hm hw
      obtain ⟨s', t', he, found, hq, hfault, htile, -, hmem⟩ := performed_tile H h rfl ((State.task?_of_tasks ht task).trans H.found) rfl
        ((runMatrix_tst s t h hv).trans hrun)
      exact ⟨s', t', he, found, hq, hfault, by rw [htile], hmem⟩
  case tcvt =>
    intro s task t c rest f r H h hr hok hcols y ty value scale
    obtain ⟨s', t', he, found, hq, hfault, htile, -, hmem⟩ := performed_tile H h rfl H.found rfl (runMatrix_tcvt h hr)
    refine ⟨s', t', he, found, hq, hfault, ?_, hmem⟩
    rw [htile]
    have hw := TileCfg.rowBytes_le hok
    rw [TileCfg.rowBytes, hcols] at hw
    exact ⟨rfl, rfl, rfl, fun i j hi hj => element_written (bits := tcvtBits c t r y) rfl rfl hw hi hj, fun i hi => convertedFrom_scale _ r y hi⟩
  case accrd =>
    intro s task t c rest f r H h hr w row stride y ty value left hstride
    have hleft : left (accrdLeft f y) := by
      simp only [left, accrdLeft]
      cases bitAt f.mod.toNat 5 with
      | true => exact ⟨rfl, rfl, rfl, fun i j => elem_of_no_data rfl ..⟩
      | false => exact ⟨rfl, rfl, rfl, rfl⟩
    refine ⟨fun hl hn => ?_, fun ws s1 s2 hl hm hw => ?_⟩
    · have hl' : tLoc f = true := hl
      obtain ⟨s', t', he, found, hq, hfault, htile, hholes, hmem⟩ := performed_store H h rfl (runMatrix_accrd_hole h hl hr)
      rw [holesAfter, hl'] at hholes
      obtain ⟨hdata, hstate⟩ := stored_of_holes hholes hn
      refine ⟨s', t', he, found, hq, hfault, fun i j k hi hj hk => ?_, hstate, htile ▸ hleft, hmem⟩
      have hlen (i : Nat) : ((List.range c.cfgA.cols).flatMap (accrdValue c t r y i)).length = row :=
        (length_flatMap_of_length (w := w) (accrdValue c t r y i) (fun _ => length_leBytes ..) _).trans (by rw [List.length_range, Nat.mul_comm])
      have hjk : j * w + k < row := by
        have := Nat.mul_le_mul_right w (Nat.succ_le_of_lt hj)
        rw [Nat.succ_mul] at this
        exact Nat.lt_of_lt_of_le (Nat.add_lt_add_left hk _) this
      rw [Nat.add_assoc]
      exact (congrArg (fun m => Sparse.get 0 m (i * stride + (j * w + k))) hdata).trans
        ((stored_rows _ _ hlen hstride hi hjk).trans (getD_words w _ hj hk))
    · obtain ⟨hrun, ht⟩ := runMatrix_accrd_memory h hl H.fresh hr hm hw
      obtain ⟨s', t', he, found, hq, hfault, htile, -, hmem⟩ := performed_tile H h rfl ((State.task?_of_tasks ht task).trans H.found) rfl hrun
      exact ⟨s', t', he, found, hq, hfault, htile ▸ hleft, hmem⟩
  case tldv =>
    intro s task t c rest f h s1 H hw hv hl acc a base n side Faults hok hr hlen
    have ht1 : (s1.acquireAt t.cluster (field f.mod.toNat 3 1)).tasks = s.tasks := (State.acquireAt_tasks ..).trans (State.homeRead_tasks hr)
    refine ⟨fun hodd => ?_, fun heven bs s2 hb hbl => ?_⟩
    · have hrun := (runMatrix_tldv s t hw hv).trans (runTldv_odd hr hodd)
      refine ⟨fun hstep => ?_, fun hstep hnone => ?_⟩
      · rw [tornOr_again hstep] at hrun
        obtain ⟨s', he, found, -⟩ := performed_again H hrun ht1
        exact ⟨s', _, he, found, rfl, rfl, rfl⟩
      · rw [tornOr_torn hstep] at hrun
        exact performed_tld_fault H hw hrun ht1 hnone
    · have ht2 : s2.tasks = s.tasks := (State.homeRead_tasks hb).trans ht1
      have hrun := (runMatrix_tldv s t hw hv).trans (runTldv_even hr heven hb)
      refine ⟨fun hne hnone => ?_, fun h1 h2 h3 => ?_⟩
      · rw [if_pos hne] at hrun
        exact performed_tld_fault H hw hrun ht2 hnone
      · rw [if_neg (by simp [h1, h2, h3])] at hrun
        have hn : n = c.cfgD.rows * c.cfgD.rowBytes := by
          simp only [n, h1, h2, h3, TileCfg.rowBytes, Nat.mul_assoc]
        have hside : side = if bitAt (descField h 11 1) 0 then c.cfgD.rows * c.cfgD.blocks else 0 := by
          simp only [side, h1, h2]
          rfl
        obtain ⟨s', t', he, found, hq, hfault, htile, -, -⟩ := performed_tile H hw rfl ((State.task?_of_tasks ht2 task).trans H.found) rfl hrun
        refine ⟨s', t', he, found, hq, hfault, ?_⟩
        rw [htile, hn]
        exact takenFrom_spec _ hok (by rw [hbl, hn, hside])
  case tstAll =>
    intro s task t c rest f H h hv hl acc a base x el body hok version s1 hver
    have ht1 : s1.tasks = s.tasks := State.mapAll_tasks hver
    have hm1 : s1.mem = s.mem := State.mapAll_mem hver
    refine ⟨fun va s2 hm hnone => ?_, fun segs s2 head s3 hm hr => ?_⟩
    · have ht2 : s2.tasks = s.tasks := (State.mapAll_tasks hm).trans ht1
      obtain ⟨s', t', he, found, hq, hfault, -, hmem⟩ := performed_ends H h rfl (spoilTile_tst h ..)
        ((runMatrix_tstAll s t h hv).trans (runTstAll_unmapped hver hm))
        ((State.task?_of_tasks ht2 task).trans H.found) rfl rfl
      refine ⟨s', t', he, found, hq, ?_, hmem.trans ((State.mapAll_mem hm).trans hm1)⟩
      rw [hfault]
      simp only [Task.faultAfter, Task.recordFault, hnone]
    · have ht3 : s3.tasks = s.tasks := (State.readSegs_tasks hr).trans ((State.homeSegs_tasks ..).trans ((State.mapAll_tasks hm).trans ht1))
      have found3 : s3.task? task = some t := (State.task?_of_tasks ht3 task).trans H.found
      refine ⟨fun hodd => ?_, fun heven s4 hw => ?_⟩
      · have hrun := (runMatrix_tstAll s t h hv).trans (runTstAll_odd hver hm hr hodd)
        refine ⟨fun hstep => ?_, fun hstep hnone => ?_⟩
        · rw [tornOr_again hstep] at hrun
          obtain ⟨s', he, found, hmem⟩ := performed_again H hrun ht3
          exact ⟨s', _, he, found, rfl, rfl, hmem⟩
        · rw [tornOr_torn hstep] at hrun
          obtain ⟨s', t', he, found, hq, hfault, -, hmem⟩ := performed_ends H h rfl (spoilTile_tst h ..) hrun found3 rfl rfl
          refine ⟨s', t', he, found, hq, ?_, hmem⟩
          rw [hfault]
          simp only [Task.faultAfter, Task.recordFault, hnone]
      · have ht4 : s4.tasks = s.tasks := (State.writeSegs_tasks hw).trans ((State.acquireAt_tasks ..).trans ((State.releaseAt_tasks ..).trans ht3))
        obtain ⟨s', t', he, found, hq, hfault, htile, -, hmem⟩ := performed_tile H h rfl ((State.task?_of_tasks ht4 task).trans H.found) rfl
          ((runMatrix_tstAll s t h hv).trans (runTstAll_even hver hm hr heven hw))
        exact ⟨s', t', he, found, hq, hfault, by rw [htile], hmem⟩
  case accwr =>
    intro s task t c rest f bs H h hok w row stride ty hhole hmemory hlen
    obtain ⟨s1, ht, hrun⟩ : ∃ s1 : State, s1.tasks = s.tasks ∧ s.runMatrix t c = (.done none, s1.modTile t.entry.id true f.d (fun x =>
        x.accumulatorFrom c bs)) := by
      cases hl : bitAt f.mod.toNat 6 with
      | true => exact ⟨s, rfl, runMatrix_accwr_hole h hl (hhole hl)⟩
      | false =>
        obtain ⟨s1, hb⟩ := hmemory hl
        exact runMatrix_accwr_memory h hl H.fresh hb
    obtain ⟨s', t', he, found, hq, hfault, htile, hholes, -⟩ := performed_tile H h rfl ((State.task?_of_tasks ht task).trans H.found) rfl hrun
    refine ⟨s', t', he, found, hq, hfault, ?_, fun hl hn => ?_⟩
    · rw [htile]
      exact ⟨rfl, rfl, rfl, rfl, fun i j hi hj => element_written (bits := accwrBits c bs) rfl rfl (TileCfg.rowBytes_le hok) hi hj⟩
    · have hl' : tLoc f = true := hl
      rw [holesAfter, hl'] at hholes
      exact givesBack_of_holes hholes hn

end Sys2Proof
end

section
/-! SUPPORT. O35: keyed randomness, allocation and digests (08 R213 to R215). -/
namespace Sys2Proof
open Machine

section
variable {i : Instr} {f : Fields} {w : Who} {t t' : Machine.Task} {s s' : State} {body : Who → M Unit}

/-- An instruction that does nothing in a helper, whose effect leaves the statuses of its task's threads as they are. -/
theorem issueLive_runs (T : Turn i f w t s) (hb : body w s = .ok () s') (found' : s'.task? w.task = some t')
    (status : ∀ k, (t'.thread k).status = (t.thread k).status) : issueLive i f body s = .next (retired i f w t s') :=
  issue_completes T (run_seq hb) found' fun k => by rw [status]; exact T.alone k

/-- An instruction whose effect traps with nothing kept, whatever it does in a helper. -/
theorem issue_traps {h : Option (Who → M Flow)} {q : TrapReq} (T : Turn i f w t s) (hb : body w s = .error (.trap q) s')
    (hq : q.cause ≠ cSWTRAP ∧ q.cause ≠ cBKPT) (hk : q.keep = false) :
    issue i f (seq body) h s = .next (s.takeTrap w (t.agent w.thread).pc.toNat ((encode i).getD 0) q) := by
  have hseq : seq body w s = .error (.trap q) s' := by
    unfold seq
    simp only [run_bind, hb]
  have ha : issueAgent i f (seq body) w s = (s.takeTrap w (t.agent w.thread).pc.toNat ((encode i).getD 0) q, false) := by
    unfold issueAgent
    simp [T.found, T.passes, hseq, State.conclude, hq, hk]
  rw [issue_alone T.toFacing _ _ (by rw [ha]; exact nofun), ha]

/-- An instruction that helpers perform and may wait in, in an agent whose task has none. -/
theorem issueHeld_completes {body helper : Who → M Flow} {fl : Flow} (T : Turn i f w t s) (hb : body w s = .ok fl s')
    (found' : s'.task? w.task = some t') (alone' : ∀ k, (t'.thread k).status ≠ .helper) :
    issueHeld i f body helper s = .next (s'.retire w fl (decide (0 < (t.agent w.thread).block.left))
      (openWindow (shape i) f (t.agent w.thread).pc.toNat (w.thread.isNone && t.handler.isSome))) := by
  rw [← issue_completes (h := some helper) T hb found' alone']
  obtain ⟨id, th⟩ := w
  unfold issueHeld issue
  cases th with
  | none => simp [T.cur]
  | some k =>
    have found := T.found
    simp only at found
    simp [T.cur, found, T.threadReady k rfl, holdQuads_alone found T.alone]

end

section
variable {f : Fields} {w : Who} {t : Machine.Task} {s : State}

theorem exec_rand {r : Tree} (T : Turn (.rand f) f w t s) (tree : s.tree? t.entry.tree = some r) :
    exec (.rand f) s = .next (retired (.rand f) f w t (putD (.rand f) f w
      (km (if mBit f 1 then valC (.rand f) f w t else r.seed.toNat ^^^ 0x6B8D2F47A1C3E59B)
        (if mBit f 0 then valA (.rand f) f w t
         else t.entry.ped.digest + valB (.rand f) f w t % 2 ^ 32 * 2 ^ 64
           + (0x52440000 + 0x200 * b2n w.thread.isNone + 0x20 * (w.thread.getD 0 / 32) + w.thread.getD 0 % 32) * 2 ^ 96)) s)) := by
  refine issueLane_putD T ?_
  rw [run_bind_ok (run_theTask T.found), run_bind_ok (run_theTree tree)]
  rfl

/-! ### ALLOC (R214) -/

/-- The cursor and the end of the region from which an agent allocates: of the thread's slice, or of the task's region. -/
def allocFrom (t : Machine.Task) : Option Nat → Nat × Nat
  | some k => ((t.thread k).cursor, (t.thread k).sliceEnd)
  | none => (t.u.lo, t.u.hi)

/-- The task with an agent's cursor moved. -/
def moveCursor (w : Who) (a : Nat) (t : Machine.Task) : Machine.Task :=
  match w.thread with
  | some k => t.modThread k (fun x => { x with cursor := a })
  | none => { t with u := { t.u with lo := a } }

@[simp] theorem moveCursor_entry (w : Who) (a : Nat) (t : Machine.Task) : (moveCursor w a t).entry = t.entry := by
  unfold moveCursor
  split <;> rfl

@[simp] theorem moveCursor_status (w : Who) (a : Nat) (t : Machine.Task) (k : Nat) : ((moveCursor w a t).thread k).status = (t.thread k).status := by
  unfold moveCursor
  split
  · exact Task.status_modThread _ _ _ _ fun _ => rfl
  · rfl

/-- Where an ALLOC begins, and the bytes that it takes. -/
def allocAt (f : Fields) (w : Who) (t : Machine.Task) : Nat := roundUp (allocFrom t w.thread).1 (2 ^ iField f 3 0)
def allocSize (f : Fields) (w : Who) (t : Machine.Task) : Nat := roundUp (valA (.alloc f) f w t) 16

theorem exec_alloc_fits (T : Turn (.alloc f) f w t s) (hs : valA (.alloc f) f w t < 2 ^ 32)
    (hfit : allocAt f w t + allocSize f w t ≤ (allocFrom t w.thread).2) :
    exec (.alloc f) s = .next (retired (.alloc f) f w t
      ((putD (.alloc f) f w (allocAt f w t) s).modTask w.task (moveCursor w (allocAt f w t + allocSize f w t)))) := by
  have hc : ¬ (2 ^ 32 ≤ valA (.alloc f) f w t ∨ (allocFrom t w.thread).2 < allocAt f w t + allocSize f w t) := by omega
  have found : (putD (.alloc f) f w (allocAt f w t) s).task? w.task = some (t.setOpnd w.thread (shape (.alloc f)).d f.d (allocAt f w t)) :=
    State.found_modTask T.found (by simp)
  refine issueLive_runs T ?_ (State.found_modTask found (by simp)) (by simp)
  rw [run_bind_ok (run_theTask T.found)]
  obtain ⟨task, th⟩ := w
  cases th with
  | none | some k => exact congrFun (if_neg hc : (ite _ _ _ : M Unit) = _) s

theorem exec_alloc_exhausted (T : Turn (.alloc f) f w t s)
    (h : 2 ^ 32 ≤ valA (.alloc f) f w t ∨ (allocFrom t w.thread).2 < allocAt f w t + allocSize f w t) :
    exec (.alloc f) s = .next (s.takeTrap w (t.agent w.thread).pc.toNat ((encode (.alloc f)).getD 0) { cause := cALLOC_EXHAUSTED }) := by
  refine issue_traps (s' := s) T ?_ (by decide) rfl
  rw [run_bind_ok (run_theTask T.found)]
  obtain ⟨task, th⟩ := w
  cases th with
  | none | some k => exact congrFun (if_pos h : (ite _ _ _ : M Unit) = _) s

theorem exec_allocCfg (T : Turn (.allocCfg f) f w t s) :
    exec (.allocCfg f) s = .next (retired (.allocCfg f) f w t (s.modTask w.task (fun t' => { t' with
      u := { t'.u with carve := t.opnd none (shape (.allocCfg f)).a f.a, slice := t.opnd none (shape (.allocCfg f)).b f.b } }))) := by
  refine issueLive_completes T ?_ (fun _ => rfl) fun _ _ => rfl
  rw [run_bind_ok (run_theTask T.found)]
  rfl

/-! ### PEDDG (R215) -/

/-- PEDDG without an image in memory: the digest of the pedigree, or of the agent's strand. -/
def peddgValue (f : Fields) (w : Who) (t : Machine.Task) : Nat :=
  if f.mod.toNat = 0 then t.entry.ped.digest
  else t.entry.ped.strandDigest (w.thread.map (fun k => (t.thread k).marker)) t.u.pedpos.toNat

theorem exec_peddg (T : Turn (.peddg f) f w t s) (h : f.mod.toNat < 2) :
    exec (.peddg f) s = .next (retired (.peddg f) f w t (putD (.peddg f) f w (peddgValue f w t) s)) := by
  have hb : peddgBody f w s = .ok () (putD (.peddg f) f w (peddgValue f w t) s) := by
    unfold peddgBody peddgValue
    rw [run_bind_ok (run_theTask T.found)]
    obtain h0 | h1 : f.mod.toNat = 0 ∨ f.mod.toNat = 1 := by omega
    · simp [mField, field, h0, run_bind, putD]
    · simp [mField, field, h1, run_bind, putD]
  exact issueHeld_completes T (run_seq hb) (State.found_modTask T.found (by simp)) fun k => by rw [Task.status_setOpnd]; exact T.alone k

end

/-- Settles O35: each instruction by the theorem `exec_…` about it. -/
theorem randomAndRegions : Obligations.RandomAndRegions := by
  unfold Obligations.RandomAndRegions
  refine ⟨fun f w t s r T tree => ?rand, fun f w t s T => ?alloc, fun f id t s T => exec_allocCfg T, fun f w t s T h => exec_peddg T h⟩
  case rand =>
    intro raw keyed k top
    have htop : 0x52440000 + 0x200 * b2n w.thread.isNone + 0x20 * (w.thread.getD 0 / 32) + w.thread.getD 0 % 32 = top := by
      cases h : w.thread <;> simp [top, k, h, b2n]
    rw [exec_rand T tree, htop]
    rfl
  case alloc =>
    intro size align cur top a n
    have hfrom : allocFrom t w.thread = (cur, top) := by
      simp only [cur, top]
      cases w.thread <;> rfl
    have ha : allocAt f w t = a := by
      simp [allocAt, hfrom, a, roundUp, ceilDiv, align, iField, field]
    have hn : allocSize f w t = n := by
      simp [allocSize, n, roundUp, ceilDiv, size]
    refine ⟨fun hs hfit => ?_, fun h => exec_alloc_exhausted T ?_⟩
    · rw [exec_alloc_fits T hs (by rwa [hfrom, ha, hn]), ha, hn]
      rfl
    · rwa [hfrom, ha, hn]

end Sys2Proof
end

section
/-! SUPPORT. O34: updates of reducers and their folds (08 R195, R200, R210 to R212). -/
namespace Sys2Proof
open Machine
namespace Machine

/-! ### Placing the entries of a view leaves the tasks (R197, R455) -/

theorem State.putChain_tasks {ctx : Nat} {v : View} {ks : List Nat} {s s' : State} (h : s.putChain ctx v ks = .ok s') : s'.tasks = s.tasks := by
  induction ks generalizing s with
  | nil => cases h; rfl
  | cons k ks ih =>
    rw [State.putChain] at h
    split at h
    · cases h
    · split at h
      · next hw => exact (ih h).trans (State.cpWrite_tasks hw)
      · next hr => exact absurd h (hr s')

theorem State.placeView_tasks {ctx : Nat} {v v' : View} {s s' : State} (h : s.placeView ctx v = .ok v' s') : s'.tasks = s.tasks := by
  unfold State.placeView at h
  split at h
  · cases h; rfl
  · split at h
    · cases h
    · dsimp only at h
      split at h
      · cases h
      · split at h
        · next hp =>
          cases h
          exact State.putChain_tasks hp
        · cases h
        · cases h

theorem State.placeUpdate_tasks {t : Task} {level : Nat} {v v' : View} {s s' : State} (h : s.placeUpdate t level v = .ok v' s') :
    s'.tasks = s.tasks := by
  unfold State.placeUpdate at h
  split at h
  · cases h
  · exact State.placeView_tasks h

/-- A view without entries is placed as it is. -/
theorem State.placeUpdate_unchunked {v : View} (h : chunked v.kind = false) (s : State) (t : Task) (level : Nat) :
    s.placeUpdate t level v = .ok v s := by
  simp [State.placeUpdate, State.leavesChunk, State.placeView, h]

/-! ### An update of an agent (R195) -/

/-- The update that an agent makes next to a reducer, with its key. -/
def Task.nextUpdate (t : Task) (th : Option Nat) (index atype value digest : Nat) : Update :=
  { seq := t.seq, source := match th with | none => .uniform | some k => .thread k, strand := t.strand th, rank := if th = none then 0 else 1,
    group := th.getD 0 / 32, lane := th.getD 0 % 32, count := Sparse.get 0 (t.agent th).counts index, atype := atype, value := value,
    digest := digest }

/-- The task with a view in place of its view of that index, after one more update. -/
def Task.withUpdate (v : View) (t : Task) : Task := { t with views := t.views.map (fun x => if x.index = v.index then v else x), seq := t.seq + 1 }

/-- The state after an update whose view has been placed: the view stands in the task, and the agent has counted the update. -/
def State.updated (s : State) (w : Who) (v : View) (index n : Nat) : State :=
  (s.modTask w.task (Task.withUpdate v)).modAgent w (fun a => { a with counts := Sparse.put 0 a.counts index n })

section
variable {w : Who} {t : Task} {s s1 : State} {r : Tree} {v v' : View} {f : Fields}

theorem run_applyUpdate {atype value digest : Nat} (found : s.task? w.task = some t) (tree : s.tree? t.entry.tree = some r)
    (placed : s.placeUpdate t r.level { v with updates := v.updates ++ [t.nextUpdate w.thread v.index atype value digest] } = .ok v' s1) :
    applyUpdate w v atype value digest s = .ok () (s1.updated w v' v.index (Sparse.get 0 (t.agent w.thread).counts v.index + 1)) := by
  unfold applyUpdate
  rw [run_bind_ok (run_theTask found), run_bind_ok (run_theTree tree), run_bind_ok (run_get s)]
  refine congrFun (?_ : _ = (do
    set s1
    modTask w (Task.withUpdate v')
    modAgent w (fun a => { a with counts := Sparse.put 0 a.counts v.index (Sparse.get 0 (t.agent w.thread).counts v.index + 1) }) : M Unit)) s
  obtain ⟨id, th⟩ := w
  cases th with
  | none | some k =>
    simp only [Task.nextUpdate, reduceCtorEq, if_true, if_false] at placed
    simp only [Option.isSome, b2n, Bool.false_eq_true, if_true, if_false, placed]
    rfl

theorem found_updated {index n : Nat} (found : s.task? w.task = some t) :
    ∃ t', (s.updated w v index n).task? w.task = some t' ∧ ∀ k, (t'.thread k).status = (t.thread k).status :=
  ⟨_, State.found_modAgent (State.found_modTask (g := Task.withUpdate v) found fun _ => rfl) _, fun _ => Task.status_modAgent ..⟩

theorem run_theView (found : s.task? w.task = some t) (hv : t.views.find? (fun x => x.index == f.imm.toNat) = some v) : theView w f s = .ok v s := by
  unfold theView
  rw [run_bind_ok (run_theTask found)]
  simp only [hv, run_pure]

end
end Machine

section
variable {f : Fields} {w : Who} {t : Machine.Task} {s s1 : State} {r : Tree} {v v' : View}

theorem exec_vupd (T : Turn (.vupd f) f w t s) (tree : s.tree? t.entry.tree = some r)
    (hv : t.views.find? (fun x => x.index == f.imm.toNat) = some v) (hk : v.kind ≤ 8) (ha : atypeOk v (mField f 2 0) = true) :
    exec (.vupd f) s = .next (retired (.vupd f) f w t (s.updated w
      { v with updates := v.updates ++ [t.nextUpdate w.thread v.index (mField f 2 0) (trunc (valA (.vupd f) f w t) (redBits (mField f 2 0))) 0] }
      v.index (Sparse.get 0 (t.agent w.thread).counts v.index + 1))) := by
  obtain ⟨t', found', status⟩ := found_updated T.found
  refine issueLive_runs T ?_ found' status
  rw [run_bind_ok (run_theView T.found hv)]
  simp only [ha, Bool.not_true, Bool.false_eq_true, if_false]
  rw [run_bind_ok (run_rdOpnd T.found _ _)]
  exact run_applyUpdate T.found tree (State.placeUpdate_unchunked (by simp [chunked]; omega) ..)

theorem exec_logapp (T : Turn (.logapp f) f w t s) (tree : s.tree? t.entry.tree = some r)
    (hv : t.views.find? (fun x => x.index == f.imm.toNat) = some v) (hk : v.kind = 10)
    (placed : s.placeUpdate t r.level
      { v with updates := v.updates ++ [t.nextUpdate w.thread v.index 3 (valA (.logapp f) f w t) t.entry.ped.digest] } = .ok v' s1) :
    exec (.logapp f) s = .next (retired (.logapp f) f w t (s1.updated w v' v.index (Sparse.get 0 (t.agent w.thread).counts v.index + 1))) := by
  obtain ⟨t', found', status⟩ := found_updated ((State.task?_of_tasks (State.placeUpdate_tasks placed) w.task).trans T.found)
  refine issueLive_runs T ?_ found' status
  rw [run_bind_ok (run_theView T.found hv)]
  simp only [hk, ne_eq, not_true_eq_false, if_false]
  rw [run_bind_ok (run_rdOpnd T.found _ _), run_bind_ok (run_theTask T.found)]
  exact run_applyUpdate T.found tree placed

theorem exec_vread (T : Turn (.vread f) f w t s) (tree : s.tree? t.entry.tree = some r)
    (hv : t.views.find? (fun x => x.index == f.imm.toNat) = some v) (ha : mField f 2 0 = if 9 ≤ v.kind then 3 else v.type) :
    exec (.vread f) s = .next (retired (.vread f) f w t (putD (.vread f) f w
      (foldUpdates r.level v.kind v.type (v.updates.filter (fun u => u.visible t w.thread))) s)) := by
  refine issueLane_putD T ?_
  rw [run_bind_ok (run_theView T.found hv), run_bind_ok (run_theTask T.found), run_bind_ok (run_theTree tree)]
  simp only [ha, ne_eq, not_true_eq_false, if_false]
  rfl

end

/-- Settles O34: an update with its key by `run_applyUpdate`, whose view only a LOG has to place in the staging area. -/
theorem reducers : Obligations.Reducers := by
  unfold Obligations.Reducers
  exact ⟨fun f w t s r v T tree hv hk ha => exec_vupd T tree hv hk ha, fun f w t s r v v' s1 T tree hv hk placed => exec_logapp T tree hv hk placed,
    fun f w t s r v T tree hv ha => exec_vread T tree hv ha⟩

end Sys2Proof
end

section
/-! SUPPORT. O29: SYNC and the merges of children (08 R199; 13 R346). -/
namespace Sys2Proof
open Machine
namespace Machine

/-- An application of no updates applies nothing (12 R313). -/
theorem run_applyNow_nil {w : Who} {t : Task} {s : State} (found : s.task? w.task = some t) : applyNow w [] s = .ok () s := by
  unfold applyNow
  rw [run_bind_ok (run_theTask found)]
  rfl

/-- The wait of a join is over. -/
theorem run_waitJoin {w : Who} {t : Task} {s : State} (found : s.task? w.task = some t) (exited : ∀ c ∈ t.children, c.exited = true)
    (merged : t.joined = t.children.length) : waitJoin w s = .ok () s := by
  unfold waitJoin
  rw [run_bind_ok (run_theTask found)]
  simp [merged, List.all_eq_true.mpr exited]

/-- What a SYNC leaves of its task whose children have been merged: the next sync block begins (13 R346). -/
def Task.synced (t : Task) : Task :=
  { t with
    bins := t.bins.filter (fun u => !t.dueBins u)
    views := t.views.map (fun v => v.joined t.seq)
    seq := t.seq + 1
    children := []
    join := .none
    joined := 0
    u := { t.u with pedpos := BitVec.ofNat 16 ((t.u.block + 1) * 1024), lastUsed := false } }

/-- The task of an agent that has entered SYNC. -/
def Task.syncing (t : Task) : Task := { t with join := .sync }

/-- The acquire that a join does leaves the task that has entered it. -/
theorem State.found_acquired {s : State} {id : Nat} {t : Task} (found : s.task? id = some t) :
    ((s.modTask id Task.syncing).acquireAt t.cluster 3).task? id = some t.syncing :=
  (State.task?_of_tasks (State.acquireAt_tasks ..) _).trans (State.found_modTask (g := Task.syncing) found fun _ => rfl)

theorem Uniform.block_eq (u : Uniform) : u.block = u.pedpos.toNat / 1024 := by
  have h := u.pedpos.isLt
  simp only [Uniform.block, field]
  omega

/-- The first position of the next sync block, where there is one. -/
theorem Task.synced_pedpos {t : Task} (hb : t.u.block ≠ 63) : t.synced.u.pedpos.toNat = (t.u.pedpos.toNat / 1024 + 1) * 1024 := by
  have h := t.u.pedpos.isLt
  rw [Uniform.block_eq] at hb
  change (BitVec.ofNat 16 ((t.u.block + 1) * 1024)).toNat = _
  rw [Uniform.block_eq, BitVec.toNat_ofNat]
  omega

theorem Task.synced_bins {t : Task} (due : ∀ u ∈ t.bins, t.dueBins u = false) : t.synced.bins = t.bins :=
  List.filter_eq_self.mpr fun u h => by rw [due u h]; rfl

end Machine

section
variable {f : Fields} {w : Who} {t : Machine.Task} {s : State}

theorem exec_sync (T : Turn (.sync f) f w t s) (hb : t.u.block ≠ 63) (exited : ∀ c ∈ t.children, c.exited = true)
    (clean : ∀ c ∈ t.children, c.bins = []) (merged : t.joined = t.children.length) (due : ∀ u ∈ t.bins, t.dueBins u = false) :
    exec (.sync f) s = .next (retired (.sync f) f w t
      ((((s.modTask w.task Task.syncing).acquireAt t.cluster 3).modTask w.task Task.synced))) := by
  have found : (s.modTask w.task Task.syncing).task? w.task = some t.syncing := State.found_modTask T.found fun _ => rfl
  have found' := State.found_acquired T.found
  have none_due : t.bins.filter t.dueBins ++ t.children.flatMap (fun c => c.bins) = [] := by
    rw [List.flatMap_eq_nil_iff.mpr clean, List.append_nil, List.filter_eq_nil_iff]
    exact fun u h => by simp [due u h]
  refine issueLive_runs T ?_ (State.found_modTask (g := Task.synced) found' fun _ => rfl) fun _ => rfl
  rw [run_bind_ok (run_theTask T.found)]
  refine (congrFun (if_neg hb : (ite _ _ _ : M Unit) = _) s).trans ?_
  refine (run_bind_ok (run_modTask w Task.syncing s)).trans ?_
  rw [run_bind_ok (run_waitJoin found exited merged), run_bind_ok (run_modify ..), none_due, run_bind_ok (run_applyNow_nil found')]
  rfl

theorem exec_sync_last (T : Turn (.sync f) f w t s) (hb : t.u.block = 63) :
    exec (.sync f) s = .next (s.takeTrap w (t.agent w.thread).pc.toNat ((encode (.sync f)).getD 0) { cause := cPEDIGREE_LIMIT }) := by
  refine issue_traps (s' := s) T ?_ (by decide) rfl
  rw [run_bind_ok (run_theTask T.found)]
  exact congrFun (if_pos hb : (ite _ _ _ : M Unit) = _) s

end

/-- What a merge of the next child does with its views (08 R199). -/
theorem exec_mergeCommand {task : Nat} {t : Machine.Task} {r : Tree} {c : Child} {vs : List View} {s s1 s2 : State} (found : s.task? task = some t)
    (tree : s.tree? t.entry.tree = some r) (resident : t.resident = true) (join : t.join = .sync)
    (next : (t.mergeOrder r.level)[t.joined]? = some c) (exited : c.exited = true) (waits : t.waits = none)
    (sound : s.chunksTainted t.entry.ctx ((t.views ++ c.views).flatMap (fun v => v.chunks) ++ t.preChunks) = false)
    (merged : s.mergeViews t.entry.ctx r.level t.views c.views = .ok (vs, s1)) (put : s1.putPreViews t.entry.ctx r.level vs t.preChunks = .ok s2) :
    exec (.mergeCommand task) s = .next (s2.modTask task (fun t => { t with
      views := vs
      joined := t.joined + 1
      children := t.children.map (fun x => if x.task = c.task then { x with views := [] } else x) })) := by
  change execMergeCommand task s = _
  unfold execMergeCommand
  simp [-List.flatMap_append, -List.append_assoc, found, tree, next, resident, join, exited, waits, sound, merged, put, CpRes.bind]

/-- Settles O29: a SYNC that need not wait does the acquire, applies nothing and leaves its task as `Task.synced`. -/
theorem joining : Obligations.Joining := by
  unfold Obligations.Joining
  refine ⟨fun f id t s T hb hc merged due => ?sync, fun f id t s T hb => exec_sync_last T ((Uniform.block_eq _).trans hb),
    fun s task t r c vs s1 s2 found tree resident join next exited _ waits sound merged put =>
      exec_mergeCommand found tree resident join next exited waits sound merged put⟩
  case sync =>
    have hb : t.u.block ≠ 63 := by rwa [Uniform.block_eq]
    refine ⟨_, _, exec_sync T hb (fun c h => (hc c h).1) (fun c h => (hc c h).2) merged due,
      State.task?_retire (t := t.syncing.synced) _ _ _ ?_, rfl, rfl, rfl, ?_, rfl, ?_, ?_, fun r => retireTask_reg ..⟩
    · exact State.found_modTask (State.found_acquired T.found) fun _ => rfl
    · exact Task.synced_pedpos (t := t.syncing) hb
    · exact Task.synced_bins (t := t.syncing) due
    · exact BitVec.toNat_ofNat ..

end Sys2Proof
end

section
/-! SUPPORT. O54: how trees start and end (13 R320 to R323; 08 R205; 09 R220). -/
namespace Sys2Proof
open Machine
namespace Machine

/-! ### What the command processor's own writes keep -/

/-- What no write at home and no change of a context ends. -/
structure CommandKeeps (P : State → Prop) : Prop where
  home : ∀ s pa bs, P s → P (s.setHome pa bs)
  ctx : ∀ s c f, P s → P (s.modCtx c f)

section
variable {P : State → Prop} (K : CommandKeeps P) {s : State} (h : P s)
include K

theorem CommandKeeps.putPieces (l : List (Nat × Nat)) (bs : List Byte) {s : State} (h : P s) : P (s.putPieces l bs) := by
  induction l generalizing s bs with
  | nil => exact h
  | cons p l ih => exact ih _ (K.home _ _ _ h)

include h

theorem CommandKeeps.cpWrite {s' : State} {ctx va : Nat} {bs : List Byte} {any : Bool} (e : s.cpWrite ctx va bs any = .ok s') : P s' := by
  unfold State.cpWrite at e
  split at e
  · cases e
  · obtain ⟨l, -, e⟩ := CpRes.bind_ok e
    cases e
    exact K.putPieces _ _ h

theorem CommandKeeps.writeEvent {next : Nat → State → State} (hn : ∀ v s, P s → P (next v s)) (ctx va : Nat) (bs : List Byte) :
    P (s.writeEvent next ctx va bs) := by
  rw [State.writeEvent]
  cases hw : s.cpWrite ctx va bs with
  | ok s' => exact K.cpWrite h hw
  | fault => exact h
  | pend v =>
    dsimp only
    split
    · exact h
    · split
      · exact K.ctx _ _ _ h
      · exact hn _ _ (K.ctx _ _ _ (K.ctx _ _ _ h))

theorem CommandKeeps.logEvent {next : Nat → State → State} (hn : ∀ v s, P s → P (next v s)) (ctx code tree value flags : Nat) :
    P (s.logEvent next ctx code tree value flags) := by
  unfold State.logEvent
  split
  · exact h
  · exact K.writeEvent (K.ctx _ _ _ h) hn _ _ _

theorem CommandKeeps.putEvent (ctx code tree value flags : Nat) : P (s.putEvent ctx code tree value flags) :=
  K.logEvent h (fun _ _ h => K.logEvent h (fun _ _ h => K.logEvent h (fun _ _ h => h) _ _ _ _ _) _ _ _ _ _) _ _ _ _ _

theorem CommandKeeps.raisePageFault (ctx tree : Nat) (p : Park) : P (s.raisePageFault ctx tree p) := by
  unfold State.raisePageFault
  split
  · exact h
  · split
    · exact h
    · exact K.putEvent (K.ctx _ _ _ h) _ _ _ _ _

theorem CommandKeeps.writeDescriptor (ctx va : Nat) (bs : List Byte) : P (s.writeDescriptor ctx va bs) := by
  rw [State.writeDescriptor]
  cases hw : s.cpWrite ctx va bs with
  | ok s' => exact K.cpWrite h hw
  | fault => exact h
  | pend v => exact K.raisePageFault (K.ctx _ _ _ h) _ _ _

theorem CommandKeeps.disableQueue (ctx q : Nat) : P (s.disableQueue ctx q) := by
  unfold State.disableQueue
  split
  · exact h
  · refine K.putEvent (K.ctx _ _ _ ?_) _ _ _ _ _
    split
    · exact K.writeDescriptor h _ _ _
    · exact h

theorem CommandKeeps.setRead (ctx q n : Nat) : P (s.setRead ctx q n) := by
  unfold State.setRead
  split
  · exact h
  · split
    · next hw => exact K.cpWrite h hw
    · exact K.disableQueue h _ _
    · exact K.writeDescriptor h _ _ _

theorem CommandKeeps.advanceQueue (ctx q : Nat) (d : QueueDesc) : P (s.advanceQueue ctx q d) := by
  have taken := K.ctx s ctx (fun c => { c with queues := Sparse.modify {} c.queues q (fun x => { x with packet := none, refused := none }) }) h
  unfold State.advanceQueue
  split
  · exact h
  · dsimp only
    split
    · split
      · exact K.ctx _ _ _ taken
      · exact K.setRead (K.ctx _ _ _ taken) _ _ _
    · exact K.setRead taken _ _ _

end

/-- The trees, the cores and the tasks of a state. -/
def State.scheduled (s : State) : List Tree × Sparse Core × List Task := (s.trees, s.cores, s.tasks)

theorem keeps_scheduled (x : List Tree × Sparse Core × List Task) : CommandKeeps (fun s => s.scheduled = x) :=
  ⟨fun _ _ _ h => h, fun _ _ _ h => h⟩

theorem keeps_sound : CommandKeeps (fun s => s.poison = []) :=
  ⟨fun s pa bs h => by simp [State.setHome, State.scrub, h], fun _ _ _ h => h⟩

theorem State.advanceQueue_scheduled (s : State) (ctx q : Nat) (d : QueueDesc) : (s.advanceQueue ctx q d).scheduled = s.scheduled :=
  (keeps_scheduled _).advanceQueue rfl ctx q d

theorem State.tree?_of_scheduled {s s' : State} (h : s'.scheduled = s.scheduled) (id : Nat) : s'.tree? id = s.tree? id :=
  congrArg (fun x : List Tree × Sparse Core × List Task => x.1.find? (fun t : Tree => t.id == id)) h

theorem State.core_of_scheduled {s s' : State} (h : s'.scheduled = s.scheduled) (k : Nat) : s'.core k = s.core k :=
  congrArg (fun x : List Tree × Sparse Core × List Task => Sparse.get Core.init x.2.1 k) h

theorem State.tasks_of_scheduled {s s' : State} (h : s'.scheduled = s.scheduled) : s'.tasks = s.tasks :=
  congrArg (Prod.snd ∘ Prod.snd) h

/-! ### Creating a task on a core -/

/-- The state with an entry created at the new end of a core's deque. -/
def State.created (s : State) (core : Nat) (e : Entry) : State :=
  (({ s with nextId := e.id + 1 } : State).modCore core (fun c => { c with deque := c.deque ++ [e] })).touchDeque core

theorem State.created_tree (s : State) (core : Nat) (e : Entry) (id : Nat) : (s.created core e).tree? id = s.tree? id := rfl

/-- The new-end entry begins to wait; the others stay as they are. -/
theorem markEnd_concat (now : Nat) (d : List Entry) (e : Entry) : markEnd now (d ++ [e]) = d ++ [{ e with since := now }] := by
  simp [markEnd]

theorem State.created_deque (s : State) (core : Nat) (e : Entry) :
    ((s.created core e).core core).deque = (s.core core).deque ++ [{ e with since := s.cycle (clusterOf core) }] := by
  rw [State.created, State.touchDeque, State.core_modCore_same, State.core_modCore_same]
  exact markEnd_concat ..

theorem State.created_newest (s : State) (core : Nat) (e : Entry) :
    ((s.created core e).core core).deque.getLast? = some { e with since := s.cycle (clusterOf core) } := by
  rw [State.created_deque]
  exact List.getLast?_concat

theorem State.created_length (s : State) (core : Nat) (e : Entry) :
    ((s.created core e).core core).deque.length = (s.core core).deque.length + 1 := by
  rw [State.created_deque]
  exact List.length_append

/-- A core with room in its deque takes the task created on it, where its tree has no trace (R327). -/
theorem State.createOn_made {s : State} {core : Nat} {e : Entry} {r : Tree} (tree : s.tree? e.tree = some r) (untraced : r.trace = none)
    (room : (s.core core).deque.length < 64) : s.createOn core e = .ok (s.created core e) := by
  have checked : (s.created core e).checkCreated e.tree e.ped.image = .ok (s.created core e) := by
    simp [State.checkCreated, State.created_tree, tree, untraced]
  have put : State.push { s with nextId := e.id + 1 } core e = .ok (s.created core e) := by
    refine if_neg ?_
    change ¬ 64 ≤ (s.core core).deque.length - _
    omega
  simp [State.createOn, State.pushCreated, put, Pushed.bind, checked]

/-! ### Starting a launch (R320) -/

/-- A launch plan that does not refuse is a tree of the packet. -/
theorem State.launchPlan_starts {s : State} {ctx q n : Nat} {c : Ctx} {d : List Byte} {r : Tree} (h : s.launchPlan ctx q c n d = .ok (.ok r)) :
    ∃ rcd ntask bs cov tag, r = launchTree s ctx q c n d rcd ntask bs cov tag := by
  unfold State.launchPlan at h
  extract_lets sweep code tag cd at h
  split at h
  · cases h
  · obtain ⟨hd, -, h⟩ := CpRes.bind_ok h
    split at h
    · cases h
    · obtain ⟨rcd, -, h⟩ := CpRes.bind_ok h
      split at h
      · cases h
      · obtain ⟨bs, -, h⟩ := CpRes.bind_ok h
        extract_lets plan at h
        have planned : ∀ cov, plan cov = .ok (.ok r) → ∃ rcd ntask bs cov tag, r = launchTree s ctx q c n d rcd ntask bs cov tag := by
          intro cov h
          simp only [plan] at h
          generalize hx : launchTree s ctx q c n d rcd _ bs cov _ = x at h
          suffices e : x = r from ⟨_, _, _, _, _, (hx.trans e).symm⟩
          split at h
          · cases h
          · split at h
            · split at h
              · obtain ⟨hd, -, h⟩ := CpRes.bind_ok h
                split at h <;> cases h
                rfl
              · cases h
                rfl
            · cases h
              rfl
        split at h
        · exact planned _ h
        · split at h
          · cases h
          · split at h
            · cases h
            · cases h
            · split at h
              · cases h
              · exact planned _ h

/-- A plan for a sweep is a tree with a counter of 0 whose walker stands at the first tile. -/
theorem State.launchPlan_sweep {s : State} {ctx q n : Nat} {c : Ctx} {d : List Byte} {r : Tree} (h : s.launchPlan ctx q c n d = .ok (.ok r))
    (ty : leField d 0 1 = 2) : r.sweep = true ∧ r.counter = 0 ∧ r.walker = 0 := by
  obtain ⟨rcd, ntask, bs, cov, tag, rfl⟩ := State.launchPlan_starts h
  simp [launchTree, ty]

/-- A tree as its launch leaves it: the seed task counts. -/
def Tree.begun (r : Tree) : Tree := if r.sweep then r else { r with counter := 1 }

theorem Tree.begun_of_sweep {r : Tree} (h : r.sweep = true) : r.begun = r := if_pos h

theorem Tree.begun_of_tree {r : Tree} (h : r.sweep = false) : r.begun = { r with counter := 1 } := if_neg (by simp [h])

@[simp] theorem Tree.begun_id (r : Tree) : r.begun.id = r.id := by
  unfold Tree.begun
  split <;> rfl

/-- The state with the tree of a launch, before its seed task is placed. -/
def State.launched (s : State) (r : Tree) : State :=
  let s := (({ s with nextId := r.id + 1 } : State).modCtx r.ctx (fun c => { c with ordinal := r.ordinal })).modQueue r.ctx r.queue
    (fun x => { x with trace := x.trace.map (fun t => { t with launch := t.launch + 1 }) })
  { s with trees := s.trees ++ [r.begun] }

theorem State.launched_tree {s : State} {r : Tree} (fresh : ∀ x ∈ s.trees, x.id ≠ r.id) : (s.launched r).tree? r.id = some r.begun := by
  have absent : s.trees.find? (fun t => t.id == r.id) = none := List.find?_eq_none.mpr fun x h => by simpa using fresh x h
  change (s.trees ++ [r.begun]).find? _ = _
  simp [List.find?_append, absent]

theorem State.startLaunch_sweep (s : State) (core : Nat) (qd : QueueDesc) {r : Tree} (h : r.sweep = true) :
    s.startLaunch core qd r = .ok ((s.launched r).advanceQueue r.ctx r.queue qd) := by
  simp [State.startLaunch, State.launched, Tree.begun, h, Pushed.bind]

theorem State.startLaunch_seed {s : State} {core : Nat} {r : Tree} (qd : QueueDesc) (h : r.sweep = false) (untraced : r.trace = none)
    (fresh : ∀ x ∈ s.trees, x.id ≠ r.id) (room : (s.core core).deque.length < 64) :
    s.startLaunch core qd r = .ok (((s.launched r).created core (seedEntry r.begun (r.id + 1))).advanceQueue r.ctx r.queue qd) := by
  have begun := Tree.begun_of_tree h
  have made : (s.launched r).createOn core (seedEntry r.begun (r.id + 1)) = _ :=
    State.createOn_made (r := r.begun) (by simpa [seedEntry] using State.launched_tree fresh) (by rw [begun]; exact untraced) room
  have started : s.startLaunch core qd r
      = ((s.launched r).createOn core (seedEntry r.begun (r.id + 1))).bind (fun s => .ok (s.advanceQueue r.ctx r.queue qd)) := by
    unfold State.startLaunch State.launched
    simp only [begun, h, Bool.false_eq_true, ↓reduceIte]
    rfl
  rw [started, made]
  rfl

/-! ### The walker of a sweep (09 R220) -/

/-- The tree once its walker has created a task. -/
def Tree.walked (r : Tree) : Tree := { r with walker := r.walker + 1, counter := r.counter + 1 }

theorem State.id_of_tree? {s : State} {tree : Nat} {r : Tree} (found : s.tree? tree = some r) : r.id = tree := by
  simpa using List.find?_some found

theorem State.walked_tree {s : State} {tree : Nat} {r : Tree} (found : s.tree? tree = some r) :
    (s.modTree tree Tree.walked).tree? tree = some r.walked := by
  rw [State.tree?_modTree s tree Tree.walked (fun _ => rfl), found]
  rfl

theorem State.createOn_tile {s : State} {tree core : Nat} {r : Tree} (found : s.tree? tree = some r) (untraced : r.trace = none)
    (room : (s.core core).deque.length < 64) :
    (s.modTree tree Tree.walked).createOn core (tileEntry r s.nextId r.walker)
      = .ok ((s.modTree tree Tree.walked).created core (tileEntry r s.nextId r.walker)) := by
  refine State.createOn_made (r := r.walked) ?_ untraced room
  change (s.modTree tree Tree.walked).tree? r.id = _
  rw [State.id_of_tree? found]
  exact State.walked_tree found

/-! ### The end of a tree (13 R322) -/

theorem State.cpTainted_of_sound {s : State} (h : s.poison = []) (ctx va n : Nat) : s.cpTainted ctx va n = false := by
  simp [State.cpTainted, h]

theorem State.chunksTainted_of_sound {s : State} (h : s.poison = []) (ctx : Nat) (ks : List Nat) : s.chunksTainted ctx ks = false := by
  unfold State.chunksTainted
  split
  · rfl
  · simp [State.cpTainted_of_sound h]

theorem State.writeDue_keeps {P : State → Prop} (K : CommandKeeps P) {s s' : State} {r : Tree} (h : P s) (e : s.writeDue r = .ok s') : P s' := by
  unfold State.writeDue State.writeBand at e
  split at e
  · cases e
    exact h
  · split at e
    · cases e
      exact h
    · exact K.cpWrite h e

theorem State.writeDue_band {s s' : State} {r : Tree} {b : Nat} {cov : Coverage} (due : r.due = some b) (covered : r.cov = some cov)
    (record : cov.record ≠ 0) (written : s.cpWrite r.ctx (cov.record + 16 * b) (r.bands.getD b {}).entry = .ok s') : s.writeDue r = .ok s' := by
  obtain ⟨k, hk⟩ := Nat.exists_eq_succ_of_ne_zero record
  rw [hk] at written
  simp only [State.writeDue, due, State.writeBand, covered, Option.map_some, Option.getD_some, hk]
  exact written

/-- A tree that owes nothing but its report. -/
def Tree.finished (r : Tree) : Tree := { r with ending := some 0, tops := [] }

theorem State.finished_tree {s s' : State} {tree : Nat} {r : Tree} (found : s.tree? tree = some r) (kept : s'.trees = s.trees) :
    (s'.modTree tree Tree.finished).tree? tree = some r.finished := by
  have found' : s'.tree? tree = some r := (congrArg (List.find? _) kept).trans found
  rw [State.tree?_modTree s' tree Tree.finished (fun _ => rfl), found']
  rfl

/-- The state without a tree. -/
def State.dropTree (s : State) (id : Nat) : State := { s with trees := s.trees.filter (fun r => r.id != id) }

theorem State.dropTree_tree (s : State) (id : Nat) : (s.dropTree id).tree? id = none := by
  simp [State.dropTree, State.tree?, List.find?_eq_none]

/-- A tree without a filter tag is gone once it has been reported. -/
theorem State.reportTree_untagged {s s1 : State} {t : Tree} {status : Nat} (tag : t.tag = none)
    (report : s.report t.ctx t.queue t.index status t.signal t.intr = .ok s1) : s.reportTree t status = s1.dropTree t.id := by
  simp [State.reportTree, report, tag, State.dropTree]

/-- The fields of the band record (09 R234). -/
theorem Band.entry_fields (x : Band) : x.entry.length = 16 ∧ leField x.entry 0 1 = x.code.getD 0 % 256 ∧ leField x.entry 1 3 = 0
    ∧ leField x.entry 4 4 = x.n % 2 ^ 32 ∧ leField x.entry 8 8 = x.s % 2 ^ 64 := by
  refine ⟨by simp [Band.entry], ?_, ?_, ?_, ?_⟩
  · rw [Band.entry, leField_append_left (by simp), leField_append_left (by simp), leField_append_left (by simp)]
    exact leField_leBytes 1 _
  · rw [Band.entry, leField_append_left (by simp), leField_append_left (by simp), leField_append_right (by simp), leBytes_zero, leField_replicate]
  · rw [Band.entry, leField_append_left (by simp), leField_append_right (by simp)]
    exact leField_leBytes 4 x.n
  · rw [Band.entry, leField_append_right (by simp)]
    exact leField_leBytes 8 x.s

/-! ### The return of a filter tag (08 R205) -/

/-- A change of values at some keys keeps the values at the others. -/
theorem Sparse.get_map_other {α : Type} (d : α) (m : Sparse α) (p : Nat × α → Nat × α) (a : Nat) (key : ∀ e, (p e).1 = e.1)
    (other : ∀ v, (p (a, v)).2 = v) : Sparse.get d (m.map p) a = Sparse.get d m a := by
  induction m with
  | nil => rfl
  | cons e m ih =>
    obtain ⟨k, v⟩ := e
    simp only [List.map_cons, Sparse.get, ih, key]
    split
    · next h =>
      subst h
      exact other v
    · rfl

/-- No byte outside the postmark regions changes when a tag is cleared. -/
theorem State.clearTag_outside (s : State) (tag a : Nat) (h : ∀ d, d < 3 → a < s.postmarkBase d ∨ (d + 1) * dieBytes ≤ a) :
    Sparse.get 0 (s.clearTag tag).mem a = Sparse.get 0 s.mem a := by
  refine Sparse.get_map_other 0 s.mem _ a (fun e => by dsimp only; split <;> rfl) fun v => ?_
  have outside : [0, 1, 2].any (fun d => decide (s.postmarkBase d ≤ a) && decide (a < (d + 1) * dieBytes)) = false := by
    rw [List.any_eq_false]
    intro d hd
    have := h d (by simp at hd; omega)
    simp only [Bool.and_eq_true, decide_eq_true_eq]
    omega
  dsimp only
  rw [if_neg]
  rintro ⟨-, inside, -⟩
  rw [outside] at inside
  cases inside

end Machine

/-! ### The steps -/

section
variable {ctx q core : Nat} {s : State} {c : Ctx} {qd : QueueDesc} {d : List Byte} {r : Machine.Tree}

/-- A launch packet that its queue has read and not refused (13 R380). -/
structure LaunchRead (s : State) (ctx q : Nat) (c : Ctx) (qd : QueueDesc) (d : List Byte) : Prop where
  found : s.ctx? ctx = some c
  read : s.readQueue ctx q = .packet s qd []
  accepted : (c.queue q).refused = none
  packet : (c.queue q).packet = some d
  type : (leField d 0 1 == 1 || leField d 0 1 == 2) = true
  form : launchOk d = true

/-- Whether BARRIER keeps a launch back: an earlier one of its queue is in flight. -/
def barred (s : State) (ctx q : Nat) (d : List Byte) : Bool := bitAt (leField d 1 1) 1 && s.inFlight.any (fun r => r.ctx == ctx && r.queue == q)

theorem not_barred (h : bitAt (leField d 1 1) 1 = false ∨ ∀ x ∈ s.trees, x.reported = true ∨ x.ctx ≠ ctx ∨ x.queue ≠ q) :
    barred s ctx q d = false := by
  obtain h | h := h
  · simp [barred, h]
  · have none_in_flight : s.inFlight.any (fun r => r.ctx == ctx && r.queue == q) = false := by
      simp only [State.inFlight, List.any_eq_false, List.mem_filter]
      rintro x ⟨hx, live⟩
      obtain h | h | h := h x hx
      · simp [h] at live
      · simp [h]
      · simp [h]
    simp [barred, none_in_flight]

theorem barred_of_inFlight (h : bitAt (leField d 1 1) 1 = true) (x : ∃ x ∈ s.trees, x.reported = false ∧ x.ctx = ctx ∧ x.queue = q) :
    barred s ctx q d = true := by
  obtain ⟨x, hx, live, hc, hq⟩ := x
  have in_flight : s.inFlight.any (fun r => r.ctx == ctx && r.queue == q) = true :=
    List.any_eq_true.mpr ⟨x, List.mem_filter.mpr ⟨hx, by simp [live]⟩, by simp [hc, hq]⟩
  simp [barred, h, in_flight]

theorem exec_launchStart (L : LaunchRead s ctx q c qd d) (free : barred s ctx q d = false) (deps : s.depsMet ctx d = .ok true)
    (plan : s.launchPlan ctx q c qd.read d = .ok (.ok r)) (tag : (c.queue q).level = 0 ∨ s.freeTag.isSome = true) (hcore : core < 2304)
    (part : s.inPartition core ctx = true) (live : (s.cluster (core / 4)).inService = true) {s' : State}
    (start : s.startLaunch core qd r = .ok s') : exec (.launchStart ctx q core) s = .next s' := by
  have tagged : ((c.queue q).level != 0 && s.freeTag.isNone) = false := by
    obtain h | h := tag
    · simp [h]
    · rw [Option.isNone_eq_false_iff.mpr h, Bool.and_false]
  unfold barred at free
  change execLaunchStart ctx q core s = _
  unfold execLaunchStart
  simp only [L.found, L.read, L.accepted, L.packet, L.type, L.form, free, deps, plan, tagged, part, live, start, numCores, clusterOf, hcore]
  rfl

theorem exec_launchStart_held (L : LaunchRead s ctx q c qd d) (held : barred s ctx q d = true) : exec (.launchStart ctx q core) s = .next s := by
  unfold barred at held
  change execLaunchStart ctx q core s = _
  unfold execLaunchStart
  simp only [L.found, L.read, L.accepted, L.packet, L.type, L.form, held]
  rfl

theorem exec_launchStart_waits (L : LaunchRead s ctx q c qd d) (deps : s.depsMet ctx d = .ok false) : exec (.launchStart ctx q core) s = .next s := by
  cases held : barred s ctx q d with
  | true => exact exec_launchStart_held L held
  | false =>
    unfold barred at held
    change execLaunchStart ctx q core s = _
    unfold execLaunchStart
    simp only [L.found, L.read, L.accepted, L.packet, L.type, L.form, held, deps]
    rfl

theorem exec_launchStart_refused {st : Nat} (L : LaunchRead s ctx q c qd d) (free : barred s ctx q d = false) (deps : s.depsMet ctx d = .ok true)
    (plan : s.launchPlan ctx q c qd.read d = .ok (.error st)) : exec (.launchStart ctx q core) s = .next (s.refuse ctx q qd d st) := by
  unfold barred at free
  change execLaunchStart ctx q core s = _
  unfold execLaunchStart
  simp only [L.found, L.read, L.accepted, L.packet, L.type, L.form, free, deps, plan]
  rfl

end

section
variable {tree core : Nat} {s : State} {r : Machine.Tree}

theorem exec_sweepTaskCreation (found : s.tree? tree = some r) (running : r.ending = none) (waits : r.waits = none) (untraced : r.trace = none)
    (tiles : r.walker < r.tiles) (paced : r.bandOf r.walker < 2 ∨ (r.bands.getD (r.bandOf r.walker - 2) {}).complete = true) (hcore : core < 2304)
    (part : s.inPartition core r.ctx = true) (live : (s.cluster (core / 4)).inService = true) (room : (s.core core).deque.length < 64) :
    exec (.sweepTaskCreation tree core) s
      = .next ((s.modTree tree Tree.walked).created core (tileEntry r s.nextId r.walker)) := by
  have made := State.createOn_tile found untraced room
  have ahead : decide (r.tiles ≤ r.walker) = false := decide_eq_false (Nat.not_le.mpr tiles)
  have free : (decide (r.bandOf r.walker < 2) || (r.bands.getD (r.bandOf r.walker - 2) {}).complete) = true := by simpa using paced
  unfold Tree.walked at made ⊢
  change execSweepTaskCreation tree core s = _
  unfold execSweepTaskCreation
  simp only [found, running, waits, ahead, free, hcore, part, live, numCores, clusterOf, made]
  rfl

theorem exec_sweepTaskCreation_idle (found : s.tree? tree = some r) (h : r.tiles ≤ r.walker ∨ r.ending.isSome = true) :
    exec (.sweepTaskCreation tree core) s = .next s := by
  change execSweepTaskCreation tree core s = _
  unfold execSweepTaskCreation
  obtain h | h := h <;> simp [found, h]

theorem exec_treeComplete {s1 s2 : State} (found : s.tree? tree = some r) (unreported : r.reported = false) (waits : r.waits = none)
    (running : r.ending = none) (counter : r.counter = 0) (tiles : r.tiles ≤ r.walker) (bindings : r.bindings = []) (sound : s.poison = [])
    (untraced : r.trace = none) (bins : ∀ c ∈ r.tops, c.bins = []) (tag : r.tag = none) (due : s.writeDue r = .ok s2)
    (report : (s2.modTree tree Tree.finished).report r.ctx r.queue r.index 0 r.signal r.intr = .ok s1) :
    exec (.treeComplete tree) s = .next (s1.dropTree tree) := by
  have sound' : s2.poison = [] := State.writeDue_keeps keeps_sound sound due
  have kept : s2.trees = s.trees := congrArg Prod.fst (State.writeDue_keeps (keeps_scheduled s.scheduled) rfl due)
  have no_bins : r.tops.flatMap (fun c => c.bins) = [] := List.flatMap_eq_nil_iff.mpr bins
  have finished := State.finished_tree found kept
  obtain rfl := State.id_of_tree? found
  unfold Tree.finished at finished
  change execTreeComplete r.id s = _
  unfold execTreeComplete
  simp only [found, unreported, Bool.false_eq_true, waits, Option.isSome_none, or_self, ↓reduceIte, running, counter, ne_eq, not_true_eq_false,
    Nat.not_lt.mpr tiles, State.chunksTainted_of_sound sound, sortBy, no_bins, List.foldr_nil, State.applyBins, CpRes.bind, bindings,
    State.putResults, due, State.traceTainted, untraced, State.traceLeft, State.cpTainted_of_sound sound', CpRes.ok.injEq, stOK, finished,
    Option.getD_some, Host.Outcome.next.injEq]
  exact State.reportTree_untagged tag report

theorem exec_treeComplete_busy (found : s.tree? tree = some r) (running : r.ending = none) (busy : r.counter ≠ 0 ∨ r.walker < r.tiles) :
    exec (.treeComplete tree) s = .next s := by
  change execTreeComplete tree s = _
  unfold execTreeComplete
  simp [found, running, busy]

theorem exec_treeComplete_ending {s1 : State} {st : Nat} (found : s.tree? tree = some r) (unreported : r.reported = false) (waits : r.waits = none)
    (ending : r.ending = some st) (tag : r.tag = none) (report : s.report r.ctx r.queue r.index st r.signal r.intr = .ok s1) :
    exec (.treeComplete tree) s = .next (s1.dropTree tree) := by
  rw [← State.id_of_tree? found, ← State.reportTree_untagged tag report, State.id_of_tree? found]
  change execTreeComplete tree s = _
  unfold execTreeComplete
  simp [found, unreported, waits, ending]

end

theorem exec_filterTagReturn {tag : Nat} {s : State} (h0 : tag ≠ 0) (h1 : tag < 128)
    (held : ∃ r ∈ s.trees, r.tag = some tag ∧ r.reported = true) :
    exec (.filterTagReturn tag) s
      = .next { s.clearTag tag with trees := s.trees.filter (fun r => !(r.tag == some tag && r.reported)) } := by
  have any : s.trees.any (fun r => r.tag == some tag && r.reported) = true := by simpa using held
  change execFilterTagReturn tag s = _
  unfold execFilterTagReturn
  rw [if_pos ⟨h0, h1, any⟩]

/-- Settles O54: a launch appends its tree and creates at most one entry, a tile is one more entry, and a tree is dropped
once it has been reported. -/
theorem treesStartAndEnd : Obligations.TreesStartAndEnd := by
  unfold Obligations.TreesStartAndEnd
  refine ⟨?seed, ?sweep, ?waits, ?walks, fun _ _ _ _ found h => exec_sweepTaskCreation_idle found h, ?ends, ?endsBand, Band.entry_fields,
    fun _ _ _ found running busy => exec_treeComplete_busy found running busy, ?aborted, ?tag⟩
  case seed =>
    intro ctx q core s c qd d r found read accepted packet type form free deps plan tag hcore part live fresh tree untraced room
    have L : LaunchRead s ctx q c qd d := ⟨found, read, accepted, packet, by simpa using type, form⟩
    have kept := State.advanceQueue_scheduled ((s.launched r).created core (seedEntry r.begun (r.id + 1))) r.ctx r.queue qd
    refine ⟨_, { seedEntry { r with counter := 1 } (r.id + 1) with since := s.cycle (clusterOf core) },
      exec_launchStart L (not_barred free) deps plan tag hcore part live (State.startLaunch_seed qd tree untraced fresh room), ?_, ?_, ?_, rfl,
      rfl, rfl, rfl, rfl, rfl, rfl, rfl⟩
    · rw [State.tree?_of_scheduled kept, State.created_tree, State.launched_tree fresh, Tree.begun_of_tree tree]
    · rw [State.core_of_scheduled kept, Tree.begun_of_tree tree]
      exact State.created_newest ..
    · rw [State.core_of_scheduled kept]
      exact State.created_length ..
  case sweep =>
    intro ctx q core s c qd d r found read accepted packet type form free deps plan tag hcore part live fresh
    obtain ⟨sweep, counter, walker⟩ := State.launchPlan_sweep plan type
    have L : LaunchRead s ctx q c qd d := ⟨found, read, accepted, packet, by simp [type], form⟩
    have kept := State.advanceQueue_scheduled (s.launched r) r.ctx r.queue qd
    refine ⟨_, exec_launchStart L (not_barred free) deps plan tag hcore part live (State.startLaunch_sweep s core qd sweep), ?_, sweep,
      counter, walker, fun k => ?_, (State.tasks_of_scheduled kept).trans rfl⟩
    · rw [State.tree?_of_scheduled kept, State.launched_tree fresh, Tree.begun_of_sweep sweep]
    · rw [State.core_of_scheduled kept]
      rfl
  case waits =>
    intro ctx q core s c qd d found read accepted packet type form
    have L : LaunchRead s ctx q c qd d := ⟨found, read, accepted, packet, by simpa using type, form⟩
    exact ⟨exec_launchStart_waits L, fun barrier busy => exec_launchStart_held L (barred_of_inFlight barrier busy),
      fun st free deps plan => exec_launchStart_refused L (not_barred (.inl free)) deps plan⟩
  case walks =>
    intro tree core s r found running waits untraced tiles paced hcore part live room
    refine ⟨_, r.walked, { tileEntry r s.nextId r.walker with since := s.cycle (clusterOf core) },
      exec_sweepTaskCreation found running waits untraced tiles paced hcore part live room, ?_, rfl, rfl,
      State.created_newest .., rfl, rfl, rfl⟩
    rw [State.created_tree]
    exact State.walked_tree found
  case ends =>
    intro tree s s1 r found unreported waits running counter tiles bindings sound untraced bins tag due report
    exact ⟨_, exec_treeComplete found unreported waits running counter tiles bindings sound untraced bins tag (by rw [State.writeDue, due]) report,
      State.dropTree_tree .., rfl, rfl⟩
  case endsBand =>
    intro tree s s1 s2 r cov b found unreported waits running counter tiles bindings sound untraced bins tag due covered record written report
    exact ⟨_, exec_treeComplete found unreported waits running counter tiles bindings sound untraced bins tag
      (State.writeDue_band due covered record written) report, State.dropTree_tree .., rfl, rfl⟩
  case aborted =>
    intro tree s s1 r st found unreported waits ending tag report
    exact ⟨_, exec_treeComplete_ending found unreported waits ending tag report, State.dropTree_tree .., rfl⟩
  case tag =>
    intro tag s r hr holds reported h0 h1
    refine ⟨_, exec_filterTagReturn h0 h1 ⟨r, hr, holds, reported⟩, ?_, rfl, State.clearTag_outside s tag⟩
    intro x hx held
    have := (List.mem_filter.mp hx).2
    simpa [held] using this

end Sys2Proof
end

section
/-! SUPPORT. O37: what loads and stores leave, and the coverage instructions (09 R227 to R239). -/
namespace Sys2Proof
open Machine
namespace Machine

/-! ### Loads and stores of an agent leave the tasks -/

/-- A body that leaves the tasks as they are wherever it comes to an end. -/
structure KeepsTasks {α : Type} (m : M α) : Prop where
  tasks : ∀ {s s' : State} {x : α}, m s = .ok x s' → s'.tasks = s.tasks

section
variable {α β : Type}

theorem KeepsTasks.pure (x : α) : KeepsTasks (pure x : M α) := ⟨fun h => by cases h; rfl⟩

theorem KeepsTasks.throw (e : Stop) : KeepsTasks (throw e : M α) := ⟨fun h => by cases h⟩

theorem KeepsTasks.modify {g : State → State} (h : ∀ s, (g s).tasks = s.tasks) : KeepsTasks (modify g : M Unit) := ⟨fun e => by cases e; exact h _⟩

theorem KeepsTasks.bind {m : M α} {g : α → M β} (hm : KeepsTasks m) (hg : ∀ x, KeepsTasks (g x)) : KeepsTasks (m >>= g) := by
  refine ⟨fun {s s' y} h => ?_⟩
  rw [run_bind] at h
  split at h
  · next e => exact ((hg _).tasks h).trans (hm.tasks e)
  · cases h

theorem KeepsTasks.ite {p : Prop} [Decidable p] {m m' : M α} (h : KeepsTasks m) (h' : KeepsTasks m') : KeepsTasks (if p then m else m') := by
  split
  · exact h
  · exact h'

theorem KeepsTasks.mapM {g : α → M β} (hg : ∀ x, KeepsTasks (g x)) : ∀ l : List α, KeepsTasks (l.mapM g)
  | [] => .pure []
  | x :: l => by
    rw [List.mapM_cons]
    exact (hg x).bind fun y => (mapM hg l).bind fun ys => .pure (y :: ys)

theorem keepsTasks_accStop (a : Acc) (addr : Nat) (write : Bool) (e : AccErr) : KeepsTasks (accStop a addr write e : M α) := by
  cases e <;> exact .throw _

end

section
variable (a : Acc)

theorem keepsTasks_mapFor (addr va n : Nat) (need : Need) : KeepsTasks (mapFor a addr va n need) := by
  refine ⟨fun {s s' l} h => ?_⟩
  have ht := State.mapRange_keeps (p := State.tasks) (fun _ _ _ => rfl) s a need (pieces va n)
  unfold mapFor at h
  rw [run_bind_ok (run_get s)] at h
  generalize s.mapRange a need (pieces va n) = q at h ht
  obtain ⟨_ | _, s1⟩ := q
  · exact ((keepsTasks_accStop a addr need.w _).tasks h).trans ht
  · cases h
    exact ht

theorem keepsTasks_loadVa (va n : Nat) : KeepsTasks (loadVa a va n) := by
  refine (keepsTasks_mapFor a va va n { r := true }).bind fun segs => ⟨fun {s s' bs} h => ?_⟩
  rw [run_bind_ok (run_get s)] at h
  generalize hq : s.readSegs a segs = q at h
  obtain ⟨_ | bs, s1⟩ := q
  · exact ((keepsTasks_accStop a va false _).tasks h).trans (State.readSegs_tasks hq)
  · have acquires : KeepsTasks (do
        if a.order % 2 = 1 then modify (fun s => s.acquireAt a.cl a.scope)
        pure bs : M (List Byte)) :=
      .ite (.bind (.modify fun _ => State.acquireAt_tasks ..) fun _ => .pure bs) (.pure bs)
    exact (acquires.tasks h).trans (State.readSegs_tasks hq)

theorem keepsTasks_storeVa (va : Nat) (bs : List Byte) : KeepsTasks (storeVa a va bs) := by
  refine (keepsTasks_mapFor a va va bs.length { w := true }).bind fun segs => ?_
  have writes : KeepsTasks (do
      match (← get).writeSegs a segs bs with
      | .error e => accStop a va true e
      | .ok s => set s : M Unit) := by
    refine ⟨fun {s s' x} h => ?_⟩
    rw [run_bind_ok (run_get s)] at h
    cases hw : s.writeSegs a segs bs with
    | error e =>
      rw [hw] at h
      exact (keepsTasks_accStop a va true e).tasks h
    | ok s1 =>
      rw [hw] at h
      cases h
      exact State.writeSegs_tasks hw
  exact .ite (.bind (.modify fun _ => State.releaseAt_tasks ..) fun _ => writes) writes

/-! ### The reconstruction leaves the tasks (R228, R229) -/

variable (r : Tree) (d : Coverage) (tile c : Nat)

theorem keepsTasks_readElem (p : Point) : KeepsTasks (readElem a d p) := by
  have reads : KeepsTasks (do return ofLE (← loadVa a (d.addr p) (elemBytes d.etype)) : M Nat) :=
    (keepsTasks_loadVa a (d.addr p) (elemBytes d.etype)).bind fun _ => .pure _
  exact .ite (.bind (.throw _) fun _ => reads) reads

theorem keepsTasks_recPoint (p : Point) : KeepsTasks (recPoint a r d tile c p) := by
  unfold recPoint
  refine .bind (.mapM (fun n => ?_) _) fun _ => .pure _
  exact (keepsTasks_readElem a d n.1).bind fun _ => .pure _

theorem keepsTasks_reconFill (ps : List Point) : KeepsTasks (reconFill a r d tile c ps) := by
  induction ps with
  | nil => exact .pure ()
  | cons p ps ih =>
    refine .ite ((keepsTasks_recPoint a r d tile c p).bind fun v => ?_) ih
    have stores := (keepsTasks_storeVa a (d.addr p) (leBytes (elemBytes d.etype) v)).bind fun _ => ih
    exact .ite (.bind (.throw _) fun _ => stores) stores

theorem keepsTasks_reconErrors (ps : List Point) : KeepsTasks (reconErrors a r d tile c ps) := by
  induction ps with
  | nil => exact .pure []
  | cons p ps ih =>
    refine .ite ?_ ih
    exact (keepsTasks_recPoint a r d tile c p).bind fun _ => (keepsTasks_readElem a d p).bind fun _ => ih.bind fun _ => .pure _

theorem keepsTasks_reconPoints (probes : Bool) (ps : List Point) : KeepsTasks (reconPoints a r d tile c probes ps) :=
  (keepsTasks_reconFill a r d tile c ps).bind fun _ => .ite (keepsTasks_reconErrors a r d tile c ps) (.pure [])

end

/-! ### What the instructions do in a task of a sweep -/

theorem run_sweepTask {w : Who} {t : Task} {r : Tree} {tile : Nat} {s : State} (found : s.task? w.task = some t)
    (tree : s.tree? t.entry.tree = some r) (sweep : t.entry.tile = some tile) : sweepTask w s = .ok (t, r, tile) s := by
  unfold sweepTask
  rw [run_bind_ok (run_theTask found), run_bind_ok (run_theTree tree), sweep]
  rfl

/-- Without probes a reconstruction gives no errors (R229). -/
theorem reconPoints_noProbes {a : Acc} {r : Tree} {d : Coverage} {tile c : Nat} {ps : List Point} {s s1 : State} {es : List Nat}
    (h : reconPoints a r d tile c false ps s = .ok es s1) : es = [] := by
  unfold reconPoints at h
  rw [run_bind] at h
  split at h <;> cases h
  rfl

end Machine

section
variable {f : Fields} {w : Who} {t : Machine.Task} {s s1 : State} {r : Tree} {tile : Nat} {d : Coverage} {v : Nat} {es : List Nat}

/-- The word that CVQRY.band gives for what is known of a band: its code, DECIDED and COMPLETE (R236). -/
def bandWord : Option Band → Nat
  | none => 0
  | some b => (match b.code with | some c => c % 256 + 256 | none => 0) + (if b.complete then 512 else 0)

theorem bandWord_some (b : Band) : bandWord (some b) = b.code.getD 0 % 256 + 2 ^ 8 * b2n b.code.isSome + 2 ^ 9 * b2n b.complete := by
  cases hc : b.code <;> cases hd : b.complete <;> simp [bandWord, hc, hd, b2n]

theorem exec_cvqry (T : Turn (.cvqry f) f w t s) (tree : s.tree? t.entry.tree = some r) (sweep : t.entry.tile = some tile) :
    exec (.cvqry f) s = .next (retired (.cvqry f) f w t (putD (.cvqry f) f w
      (r.classOf tile t.entry.cov (namedPoint t w (shape (.cvqry f)) f)).word s)) := by
  refine issueLane_putD T ?_
  rw [run_bind_ok (run_sweepTask T.found tree sweep)]
  rfl

theorem exec_cvqryBand {id : Nat} (T : Turn (.cvqryBand f) f ⟨id, none⟩ t s) (tree : s.tree? t.entry.tree = some r)
    (sweep : t.entry.tile = some tile) :
    exec (.cvqryBand f) s = .next (retired (.cvqryBand f) f ⟨id, none⟩ t (putD (.cvqryBand f) f ⟨id, none⟩
      (bandWord r.bands[valA (.cvqryBand f) f ⟨id, none⟩ t]?) s)) := by
  refine issueLive_completes T ?_ (fun _ => by simp) (fun _ _ => by simp)
  rw [run_bind_ok (run_sweepTask T.found tree sweep)]
  dsimp only [valA]
  cases r.bands[t.opnd none (shape (.cvqryBand f)).a f.a]? with
  | none => rfl
  | some b =>
    rw [bandWord_some]
    rfl

theorem exec_cvprobe (T : Turn (.cvprobe f) f w t s) (tree : s.tree? t.entry.tree = some r) (sweep : t.entry.tile = some tile)
    (covered : r.cov = some d) {p : Point} (hp : namedPoint t w (shape (.cvprobe f)) f = p)
    (h : r.classOf tile t.entry.cov p = .probe ∨ r.classOf tile t.entry.cov p = .filled)
    (hrec : recPoint (sweepAcc t w.thread true) r d tile t.entry.cov p s = .ok v s1) :
    exec (.cvprobe f) s = .next (retired (.cvprobe f) f w t
      (s1.modTask w.task (fun t' => t'.setRegs w.thread f.d.toNat (if d.etype = 3 then 2 else 1) v))) := by
  have hb : cvprobeBody f true w s
      = .ok .next (s1.modTask w.task (fun t' => t'.setRegs w.thread f.d.toNat (if d.etype = 3 then 2 else 1) v)) := by
    unfold cvprobeBody
    rw [run_bind_ok (run_sweepTask T.found tree sweep)]
    simp only [covered, hp]
    obtain h | h := h <;> simp only [h] <;> exact run_bind_ok hrec
  have found : s1.task? w.task = some t := (State.task?_of_tasks ((keepsTasks_recPoint ..).tasks hrec) _).trans T.found
  exact issueHeld_completes T hb (State.found_modTask found (by simp)) fun k => by rw [Task.status_setRegs]; exact T.alone k

theorem exec_cvprobe_keeps (T : Turn (.cvprobe f) f w t s) (tree : s.tree? t.entry.tree = some r) (sweep : t.entry.tile = some tile)
    (covered : r.cov = some d) {k : PointClass} (hk : r.classOf tile t.entry.cov (namedPoint t w (shape (.cvprobe f)) f) = k)
    (h : k = .covered ∨ k = .orphan ∨ k = .outside) : exec (.cvprobe f) s = .next (retired (.cvprobe f) f w t s) := by
  have hb : cvprobeBody f true w s = .ok .next s := by
    unfold cvprobeBody
    rw [run_bind_ok (run_sweepTask T.found tree sweep)]
    simp only [covered, hk]
    obtain rfl | rfl | rfl := h <;> rfl
  exact issueHeld_completes T hb T.found T.alone

theorem exec_recon {id : Nat} (T : Turn (.recon f) f ⟨id, none⟩ t s) (tree : s.tree? t.entry.tree = some r) (sweep : t.entry.tile = some tile)
    (covered : r.cov = some d)
    (hrec : reconPoints (sweepAcc t none true) r d tile t.entry.cov (!t.u.covDone && !d.errMode) (r.points tile) s = .ok es s1) :
    exec (.recon f) s = .next (retired (.recon f) f ⟨id, none⟩ t (s1.modTask id (fun t' =>
      { t' with u := { es.foldl Uniform.sample t'.u with covDone := true } }))) := by
  have found : s1.task? id = some t := (State.task?_of_tasks ((keepsTasks_reconPoints ..).tasks hrec) _).trans T.found
  refine issueLive_runs T ?_ (State.found_modTask found fun _ => rfl) fun _ => rfl
  have hs : discard (sweepTask ⟨id, none⟩) s = .ok () s := run_bind_ok (run_sweepTask T.found tree sweep)
  rw [run_bind_ok hs]
  unfold reconstruct
  rw [run_bind_ok (run_theTask T.found), run_bind_ok (run_theTree tree)]
  simp only [covered, sweep]
  exact run_bind_ok hrec

theorem exec_cverr (T : Turn (.cverr f) f w t s) (tree : s.tree? t.entry.tree = some r) (sweep : t.entry.tile = some tile)
    (covered : r.cov = some d) :
    exec (.cverr f) s = .next (retired (.cverr f) f w t (s.modTask w.task (fun t' => { t' with u := t'.u.sample (valA (.cverr f) f w t) }))) := by
  refine issueLive_completes T ?_ (fun _ => rfl) fun _ _ => rfl
  rw [run_bind_ok (run_sweepTask T.found tree sweep)]
  simp only [covered, Option.isSome_some, if_true]
  rfl

end

/-- Settles O37: each instruction by the theorem `exec_…` about it; a reconstruction leaves its task as it was, since loads and stores do. -/
theorem coverage : Obligations.Coverage := by
  unfold Obligations.Coverage
  exact ⟨fun f w t s r tile T tree sweep => exec_cvqry T tree sweep,
    fun f id t s r tile T tree sweep => exec_cvqryBand T tree sweep,
    fun f w t s r tile d v s1 T tree sweep cov h hrec => exec_cvprobe T tree sweep cov rfl h hrec,
    fun f w t s r tile d T tree sweep cov h => exec_cvprobe_keeps T tree sweep cov rfl h,
    fun f id t s r tile d es s1 T tree sweep cov hrec => exec_recon T tree sweep cov hrec,
    fun a r d tile c ps s s1 es h => reconPoints_noProbes h,
    fun f w t s r tile d T tree sweep cov => exec_cverr T tree sweep cov⟩

end Sys2Proof
end
